-- ==== Sys2Proof/Word.lean ====
section
/-! DEFINITION. The machine's words and the plainest arithmetic on them (R2: bit 0 is the least significant bit). -/

namespace Sys2Proof

/-- A bead: one thread's slot of a rod (R72). -/
abbrev Word := BitVec 64
abbrev W32 := BitVec 32
abbrev Byte := BitVec 8

/-- A general register number g0 to g255 (R72). -/
abbrev Reg := BitVec 8
/-- A predicate number p0 to p7 (R76). -/
abbrev Pred := BitVec 3

/-- Bits [hi:lo] of a number, both ends included (R2). -/
def bits (x hi lo : Nat) : Nat := x / 2 ^ lo % 2 ^ (hi + 1 - lo)

/-- Round `x` up to a multiple of `m`. -/
def roundUp (x m : Nat) : Nat := (x + m - 1) / m * m

/-- Little-endian bytes of a number (R2). -/
def leBytes : Nat → Nat → List Byte
  | 0, _ => []
  | n + 1, x => BitVec.ofNat 8 x :: leBytes n (x / 256)

/-- The number whose little-endian bytes are given (R2). -/
def leNat : List Byte → Nat
  | [] => 0
  | b :: bs => b.toNat + 256 * leNat bs

/-- Sign-extend the low `n` bits of `x` to an integer. -/
def toSigned (n x : Nat) : Int :=
  let y := x % 2 ^ n
  if y < 2 ^ (n - 1) then (y : Int) else (y : Int) - (2 ^ n : Nat)

/-- Number of one bits among the low `n` bits. -/
def popcount : Nat → Nat → Nat
  | 0, _ => 0
  | n + 1, x => x % 2 + popcount n (x / 2)

end Sys2Proof
end

