-- ==== Sys2Proof/Syntax.lean ====
section
/-! DEFINITION. The syntax: one constructor of Instr per row of spec/opcode_table.json. Register numbers, types, guards and
literals are typed fields; events (rows without an encoding) carry the names of what they act on. -/

namespace Sys2Proof

/-- Type codes 0 to 15 (R61), in the order of the codes. -/
inductive Ty where
  | b32 | s32 | z32 | s64 | z64 | b64 | f32 | f64
  | f16x4 | bf16x4 | e4m3x8 | e5m2x8 | f32x2 | s16x4 | s8x8 | n4x16
  deriving DecidableEq, Repr

/-- A guard (R58): a predicate, perhaps negated. -/
structure Guard where
  p : Pred
  neg : Bool
  deriving DecidableEq, Repr

/-- Operand B: a register in the L form, lit32 in the X form (R60). -/
inductive Opnd where
  | reg (r : Reg)
  | lit (v : W32)
  deriving DecidableEq, Repr

/-- Rounding codes 000 to 100 (R28, R62). -/
inductive Rnd where
  | dyn | rn | rz | rp | rm
  deriving DecidableEq, Repr

/-- Spaces (R63, R147). -/
inductive Space where
  | generic | scratch | constant
  deriving DecidableEq, Repr

/-- Access widths (R63). -/
inductive Width where
  | w8 | w16 | w32 | w64 | w128 | w256
  deriving DecidableEq, Repr

/-- A memory operand (R146): base register, index, scale exponent. -/
structure Addr where
  a : Reg
  idx : Opnd
  scale : BitVec 2
  deriving DecidableEq, Repr

/-- A PC-relative target (R106): parcels in the L form, bytes in the X form. -/
inductive Target where
  | parcels (off : BitVec 24)
  | bytes (off : W32)
  deriving DecidableEq, Repr

/-- Integer comparisons (R101). -/
inductive ICmp where
  | eq | ne | lt | le | gt | ge
  deriving DecidableEq, Repr

/-- Floating-point comparisons (R124). -/
inductive FCmp where
  | eq | ne | lt | le | gt | ge | num | nan
  deriving DecidableEq, Repr

/-- Combining operations of SETP and FSETP (R101). -/
inductive Comb where
  | plain | and | or | xor
  deriving DecidableEq, Repr

/-- Directions of PMOV (R103). -/
inductive PmovDir where
  | toReg (d : Reg)
  | fromReg (a : Reg) (mask : BitVec 7)
  deriving DecidableEq, Repr

/-- Modes of SHFL and SHFLI (R139). -/
inductive ShflMode where
  | idx | up | down | xor
  deriving DecidableEq, Repr

/-- Source of BCAST (R140). -/
inductive BcastSrc where
  | lane (k : BitVec 5)
  | low
  deriving DecidableEq, Repr

/-- Modes of VOTE (R141). -/
inductive VoteMode where
  | ballot | all | any | eq
  deriving DecidableEq, Repr

/-- Operations of REDUX and SCANX (R142). -/
inductive RedOp where
  | add | min | max | and | or | xor
  deriving DecidableEq, Repr

/-- Operations of RCN and of a page's MERGE field (R161), in the order of the codes. -/
inductive RcnOp where
  | add | min | max | and | or | xor | first | last
  deriving DecidableEq, Repr

/-- Operations of ATOM and RED (R163). -/
inductive AtomOp where
  | add | min | max | and | or | xor | exch
  deriving DecidableEq, Repr

/-- Modes of BLKHDR (R133). -/
inductive BlkMode where
  | scale | amax | zero
  deriving DecidableEq, Repr

/-- Fence scopes (R64). -/
inductive Scope where
  | thread | gang | block | cluster | die | module | system
  deriving DecidableEq, Repr

/-- An agent that may hold a write visible (R248). -/
inductive Agent where
  | thread (gid thr : Nat)
  | bank (die vault : Nat)
  | host
  | peer (link : Nat)
  deriving DecidableEq, Repr

/-- A field of a command packet (R333). -/
structure Field where
  mu : Bool
  opt : Bool
  id : Nat
  payload : List Byte
  deriving DecidableEq, Repr

/-- A command packet (R333): its sequence number and its fields. -/
structure Packet where
  seq : Nat
  fields : List Field
  deriving DecidableEq, Repr

/-- A unit that can be retired (R395). -/
inductive UnitId where
  | cluster (die n : Nat)
  | bank (die vault : Nat)
  | vaultRow (die vault row : Nat)
  deriving DecidableEq, Repr

/-- An access of a peer module over an O-link (R365): what its LD, ST, copies, ATOM, RED and ACAS send to the home. -/
inductive PeerOp where
  | load (n : Nat)
  | store (data : List Byte)
  /-- ATOM, or RED, which returns nothing. -/
  | atomic (ret : Bool) (op : AtomOp) (ty : Ty) (v : Word)
  | cas (ty : Ty) (cmp swap : Word)
  deriving DecidableEq, Repr

inductive Instr where
  /- S forms (R55, R56) -/
  | movS (d a : Reg)
  | iaddS (d a b : Reg)
  | isubS (d a b : Reg)
  | andS (d a b : Reg)
  | orS (d a b : Reg)
  | xorS (d a b : Reg)
  | shlS (d a b : Reg)
  | shrS (d a b : Reg)
  | imulS (d a b : Reg)
  | faddF32S (d a b : Reg)
  | fmulF32S (d a b : Reg)
  | faddF32x2S (d a b : Reg)
  | fmulF32x2S (d a b : Reg)
  | faddBf16x4S (d a b : Reg)
  | fmulBf16x4S (d a b : Reg)
  | iaddImmS (d a : Reg) (imm : BitVec 8)
  | shlImmS (d a : Reg) (imm : BitVec 8)
  | shrImmS (d a : Reg) (imm : BitVec 8)
  | ldB64S (d a b : Reg)
  | stB64S (d a b : Reg)
  | retS (a : Reg)
  | exitS
  | waitS (ld st cp tl : BitVec 4)
  | yieldS
  /- moves and integer arithmetic (R92) -/
  | mov (g : Guard) (ty : Ty) (d a : Reg)
  | movi (g : Guard) (ty : Ty) (d : Reg) (v : W32)
  | sel (g : Guard) (ty : Ty) (d a : Reg) (b : Opnd) (pc : Pred)
  | iadd (g : Guard) (ty : Ty) (d a : Reg) (b : Opnd)
  | isub (g : Guard) (ty : Ty) (d a : Reg) (b : Opnd)
  | iaddc (g : Guard) (ty : Ty) (d a : Reg) (b : Opnd) (cin : Option Pred) (cout : Pred)
  | isubb (g : Guard) (ty : Ty) (d a : Reg) (b : Opnd) (cin : Option Pred) (cout : Pred)
  | imul (g : Guard) (ty : Ty) (d a : Reg) (b : Opnd)
  | imulh (g : Guard) (ty : Ty) (d a : Reg) (b : Opnd)
  | imad (g : Guard) (ty : Ty) (d a : Reg) (b : Opnd) (c : Reg)
  | idiv (g : Guard) (ty : Ty) (d a : Reg) (b : Opnd)
  | irem (g : Guard) (ty : Ty) (d a : Reg) (b : Opnd)
  | ineg (g : Guard) (ty : Ty) (d a : Reg)
  | iabs (g : Guard) (ty : Ty) (d a : Reg)
  | imin (g : Guard) (ty : Ty) (d a : Reg) (b : Opnd)
  | imax (g : Guard) (ty : Ty) (d a : Reg) (b : Opnd)
  | iadds (g : Guard) (ty : Ty) (d a : Reg) (b : Opnd)
  | isubs (g : Guard) (ty : Ty) (d a : Reg) (b : Opnd)
  | lea (g : Guard) (d a : Reg) (b : Opnd) (sh : BitVec 6)
  /- logic, shifts, bit fields (R97) -/
  | and (g : Guard) (ty : Ty) (d a : Reg) (b : Opnd)
  | or (g : Guard) (ty : Ty) (d a : Reg) (b : Opnd)
  | xor (g : Guard) (ty : Ty) (d a : Reg) (b : Opnd)
  | andn (g : Guard) (ty : Ty) (d a : Reg) (b : Opnd)
  | not (g : Guard) (ty : Ty) (d a : Reg)
  | shl (g : Guard) (ty : Ty) (d a : Reg) (b : Opnd)
  | shr (g : Guard) (ty : Ty) (d a : Reg) (b : Opnd)
  | sar (g : Guard) (ty : Ty) (d a : Reg) (b : Opnd)
  | rot (g : Guard) (ty : Ty) (d a : Reg) (b : Opnd) (right : Bool)
  | bfe (g : Guard) (ty : Ty) (d a : Reg) (b : Opnd)
  | bfi (g : Guard) (ty : Ty) (d a : Reg) (b : Opnd) (c : Reg)
  | popc (g : Guard) (ty : Ty) (d a : Reg)
  | clz (g : Guard) (ty : Ty) (d a : Reg)
  | ctz (g : Guard) (ty : Ty) (d a : Reg)
  | brev (g : Guard) (ty : Ty) (d a : Reg)
  | bperm (g : Guard) (d a : Reg) (b : Opnd) (c : Reg)
  /- predicates and special registers (R101 to R104) -/
  | setp (g : Guard) (ty : Ty) (cmp : ICmp) (comb : Comb) (pd : Pred) (a : Reg) (b : Opnd) (pc : Pred)
  | plop (g : Guard) (pd pa pb pc : Pred) (lut : BitVec 8)
  | pmov (g : Guard) (dir : PmovDir)
  | movs (g : Guard) (d : Reg) (sr : BitVec 8)
  | movsw (g : Guard) (sr : BitVec 8) (src : Opnd)
  /- control and system (R105 to R119) -/
  | bra (g : Guard) (target : Target)
  | brx (g : Guard) (a : Reg) (b : Opnd)
  | call (g : Guard) (d : Reg) (target : Target)
  | callx (g : Guard) (d a : Reg) (b : Opnd)
  | ret (g : Guard) (a : Reg)
  | exit (g : Guard)
  | exitSaved (g : Guard)
  | yield (g : Guard)
  | wait (g : Guard) (ld st cp tl : BitVec 8) (bk : BitVec 4)
  | wtime (g : Guard) (d a : Reg)
  | trap (g : Guard) (code : BitVec 14)
  | brk (g : Guard) (code : BitVec 14)
  | rtt (g : Guard)
  | rqrd (g : Guard) (d a : Reg) (sel : BitVec 4)
  | rqwr (g : Guard) (a b : Reg) (sel : BitVec 4)
  | cbsync (g : Guard) (a b : Reg)
  | tlbinv (g : Guard) (a b : Reg)
  | nop (g : Guard)
  /- floating point (R123 to R128) -/
  | fadd (g : Guard) (ty : Ty) (rnd : Rnd) (d a : Reg) (b : Opnd)
  | fsub (g : Guard) (ty : Ty) (rnd : Rnd) (d a : Reg) (b : Opnd)
  | fmul (g : Guard) (ty : Ty) (rnd : Rnd) (d a : Reg) (b : Opnd)
  | ffma (g : Guard) (ty : Ty) (rnd : Rnd) (d a : Reg) (b : Opnd) (c : Reg)
  | fmin (g : Guard) (ty : Ty) (d a : Reg) (b : Opnd)
  | fmax (g : Guard) (ty : Ty) (d a : Reg) (b : Opnd)
  | fsetp (g : Guard) (ty : Ty) (cmp : FCmp) (comb : Comb) (pd : Pred) (a : Reg) (b : Opnd) (pc : Pred)
  | frnd (g : Guard) (ty : Ty) (rnd : Rnd) (d a : Reg)
  | fscale (g : Guard) (ty : Ty) (rnd : Rnd) (d a b : Reg)
  | fclass (g : Guard) (ty : Ty) (d a : Reg)
  | fdot (g : Guard) (ty : Ty) (rnd : Rnd) (d a b c : Reg)
  | fdiv (g : Guard) (ty : Ty) (rnd : Rnd) (d a : Reg) (b : Opnd)
  | fsqrt (g : Guard) (ty : Ty) (rnd : Rnd) (d a : Reg)
  | frcp (g : Guard) (ty : Ty) (d a : Reg)
  | frsq (g : Guard) (ty : Ty) (d a : Reg)
  | fexp2 (g : Guard) (ty : Ty) (d a : Reg)
  | flog2 (g : Guard) (ty : Ty) (d a : Reg)
  | fsin (g : Guard) (ty : Ty) (d a : Reg)
  | fcos (g : Guard) (ty : Ty) (d a : Reg)
  | ftanh (g : Guard) (ty : Ty) (d a : Reg)
  | fsigm (g : Guard) (ty : Ty) (d a : Reg)
  /- conversion and blocks (R129 to R137) -/
  | cvt (g : Guard) (dst src : Ty) (rnd : Rnd) (satf : Bool) (h : BitVec 4) (d a : Reg)
  | cvtq (g : Guard) (dst src : Ty) (rnd : Rnd) (satf : Bool) (h : BitVec 4) (d a b : Reg)
  | olpack (g : Guard) (dst src : Ty) (rnd : Rnd) (h : BitVec 4) (d a b c : Reg)
  | olunpk (g : Guard) (ty : Ty) (d a : Reg)
  | blkhdr (g : Guard) (ty : Ty) (mode : BlkMode) (d a : Reg)
  | dq (g : Guard) (dst : Ty) (rnd : Rnd) (h : BitVec 4) (d a b c : Reg)
  | pack (g : Guard) (d a : Reg)
  | unpack (g : Guard) (d a : Reg)
  /- cross-lane (R139 to R144) -/
  | shfl (g : Guard) (ty : Ty) (mode : ShflMode) (w : BitVec 3) (d a b : Reg) (pc : Pred)
  | shfli (g : Guard) (ty : Ty) (mode : ShflMode) (w : BitVec 3) (d a : Reg) (imm : BitVec 5) (pc : Pred)
  | bcast (g : Guard) (ty : Ty) (d a : Reg) (src : BcastSrc)
  | vote (g : Guard) (mode : VoteMode) (inv : Bool) (d : Reg) (pa : Pred)
  | redux (g : Guard) (op : RedOp) (ty : Ty) (rnd : Rnd) (d a : Reg)
  | scanx (g : Guard) (op : RedOp) (ty : Ty) (rnd : Rnd) (d a : Reg)
  | matchv (g : Guard) (ty : Ty) (d a : Reg) (pc : Pred)
  | lser (g : Guard)
  | lsend (g : Guard)
  /- memory (R153 to R170) -/
  | ld (g : Guard) (ty : Ty) (w : Width) (sext : Bool) (sp : Space) (d : Reg) (addr : Addr)
  | st (g : Guard) (ty : Ty) (w : Width) (sp : Space) (d : Reg) (addr : Addr)
  | ldk (g : Guard) (d : Reg) (addr : Addr)
  | stk (g : Guard) (d : Reg) (addr : Addr) (c : Reg)
  | ldsib (g : Guard) (n : BitVec 3) (d : Reg) (addr : Addr)
  | rcn (g : Guard) (op : RcnOp) (ty : Ty) (d : Reg) (addr : Addr)
  | pref (g : Guard) (constant l2 : Bool) (addr : Addr)
  | atom (g : Guard) (sp : Bool) (op : AtomOp) (ty : Ty) (d : Reg) (addr : Addr) (c : Reg)
  | red (g : Guard) (sp : Bool) (op : AtomOp) (ty : Ty) (addr : Addr) (c : Reg)
  | acas (g : Guard) (sp : Bool) (ty : Ty) (d : Reg) (addr : Addr) (c : Reg)
  | slook (g : Guard) (d a : Reg)
  | stag (g : Guard) (a b : Reg)
  | cpy (g : Guard) (nb : Bool) (a b : Reg)
  | cpyg (g : Guard) (nb : Bool) (a b : Reg)
  | fence (g : Guard) (scope : Scope) (pred succ : BitVec 7)
  | ofence (g : Guard)
  /- barriers (R178) -/
  | barinit (g : Guard) (a b c : Reg)
  | arrive (g : Guard) (d a : Reg)
  | expect (g : Guard) (a : Reg) (b : Opnd)
  | bwait (g : Guard) (a b : Reg)
  | bwaitTo (g : Guard) (pd : Pred) (a b c : Reg)
  | btest (g : Guard) (pd : Pred) (a b : Reg)
  | bdrop (g : Guard) (a : Reg)
  /- effects (R181) -/
  | hpush (g : Guard) (multi window : Bool) (a d c : Reg) (exitOff : BitVec 14) (handlerOff : W32)
  | hpop (g : Guard) (a : Reg)
  | perform (g : Guard) (d : Reg) (eff : Opnd) (a : Reg)
  | resume (g : Guard) (a : Reg) (b : Opnd)
  | resumem (g : Guard) (a : Reg) (b : Opnd)
  | drop (g : Guard) (a : Reg)
  | tokst (g : Guard) (d a : Reg)
  /- recipes (R187) -/
  | rcp (g : Guard) (n : BitVec 3) (i1 i2 i3 i4 : Reg) (slice : W32)
  | rend (g : Guard)
  | rmat (g : Guard) (rod : Reg)
  | rdrop (g : Guard) (rod : Reg)
  | rdropKill (g : Guard) (rod : Reg)
  | rstat (g : Guard) (d rod : Reg)
  /- compaction (R192) -/
  | cclose (g : Guard) (a : Reg)
  | cappend (g : Guard) (a b : Reg)
  | ctake (g : Guard) (d : Reg) (pc : Pred) (a : Reg)
  | cdone (g : Guard) (a : Reg)
  | cquiet (g : Guard) (a b : Reg)
  /- matrix (R197) -/
  | mldw (g : Guard) (pair : BitVec 1) (a : Reg)
  | mswap (g : Guard) (pair : BitVec 1)
  | mpass (g : Guard) (afmt : BitVec 4) (raw acc : Bool) (pair : BitVec 1) (tile : BitVec 6) (a : Reg)
  | mzero (g : Guard) (tile nm1 : BitVec 6)
  | mmov (g : Guard) (ty : Ty) (n : BitVec 2) (d : Reg) (tile q : BitVec 6)
  | msta (g : Guard) (bf16 : Bool) (a : Reg) (tile : BitVec 6)
  /- bank units (R203, R204) -/
  | bkmv (g : Guard) (a : Reg)
  | bkgth (g : Guard) (a : Reg)
  | bkst (g : Guard) (d a : Reg)
  /- EVENTS: transitions of the ordering machine and of the engines (R48, R250) -/
  | fetch (gid pc : Nat) (spec : Bool)
  | bind (op : Nat)
  | performStore (op : Nat)
  | atomic (op : Nat)
  | propagate (wid : Nat) (via : Agent) (scope : Scope)
  | enqueue (op : Nat)
  | read (op idx : Nat)
  | write (op idx : Nat)
  | done (op : Nat)
  | home (op : Nat)
  | count (arr : Nat)
  | land (op idx : Nat)
  | flag (launch edge tile : Nat)
  | quiescenceArrival (domain : Nat)
  | matrixGrant (die cluster : Nat)
  | rowTask (op row : Nat)
  | gangTimerFire (gid : Nat)
  | timer (gid thr : Nat)
  | bwaitTimeout (gid thr : Nat)
  | wtimeDeadline (gid thr : Nat)
  | trapDelivery (gid : Nat)
  | regeneration (gid : Nat) (rod : Reg) (thr : Nat)
  | squash (gid : Nat)
  | gangSwap (out inn : Nat)
  | rodDrop (gid : Nat) (rod : Reg)
  /- EVENTS: blocks, launches, commands (R333 to R359) -/
  | blockStart (launch die core : Nat)
  | gangEnd (gid : Nat)
  | blockEnd (bid : Nat)
  | launchReady (launch : Nat)
  | lateAbandoned (launch : Nat)
  | launchComplete (launch : Nat)
  | release (launch blk : Nat)
  | commandComplete (seq : Nat)
  | kick (reg : Nat) (word : Word)
  | parameterPlace (replay : Nat)
  | registerWrite (off size : Nat) (val : Word)
  | ctxCreate (p : Packet)
  | ctxDestroy (p : Packet)
  | ctxDestroyForce (p : Packet)
  | removalStep (id : Nat)
  | regionDefine (p : Packet)
  | regionRefresh (p : Packet)
  | map (p : Packet)
  | mapPeer (p : Packet)
  | unmap (p : Packet)
  | protect (p : Packet)
  | codeLoad (p : Packet)
  | codeUnload (p : Packet)
  | codeUnloadForce (p : Packet)
  | repack (p : Packet)
  | repackReplace (p : Packet)
  | graphLoad (p : Packet)
  | graphFree (p : Packet)
  | queueBind (p : Packet)
  | preemptDrain (p : Packet)
  | preemptUrgent (p : Packet)
  | preemptSwitch (p : Packet)
  | preemptLift (p : Packet)
  | pdlExpiry (ctx region : Nat)
  | contextHalt (ctx : Nat)
  | contextRestore (ctx : Nat)
  | migrateOut (p : Packet)
  | migrateIn (p : Packet)
  /- EVENTS: supervision, host, peers, time (R360 to R396) -/
  | telemetryCfg (p : Packet)
  | telemetryTick
  | traceCfg (p : Packet)
  | traceStop (p : Packet)
  | traceRun (p : Packet)
  | queueStopped (kick : Nat)
  | keyInstall (p : Packet)
  | attest (p : Packet)
  | healthQuery (p : Packet)
  | unitRetire (u : UnitId)
  | boot
  | packageWrite (revision : Nat) (image : List Byte)
  | powerLimitSet (watts : Nat)
  | powerCapMeasure (watts : Nat)
  | ptpMessage (offset : Int)
  | timeBeacon (link wall : Nat)
  | flitReceive (link : Nat) (crcOk : Bool)
  | linkRetrain (link : Nat)
  | peerAccess (link addr : Nat) (op : PeerOp)
  | hostRead (addr n : Nat)
  | hostWrite (addr : Nat) (data : List Byte)
  | dieNoLongerAnswers (die : Nat)
  | coolantOrRailFault
  | spareApplied (die vault : Nat)
  | lossOfLock
  | scrub (addr : Nat)
  deriving DecidableEq, Repr

end Sys2Proof
end

