-- ==== Sys2Proof/WellFormed.lean ====
section
/-! DEFINITION. Which instructions are encodings the spec defines: accepted types (R61, R92, R97, R101, R123 to R143, R153 to
R163, R201), literals (R60), register runs (R59), modes and ranges (R67). A reserved word decodes to nothing. -/

namespace Sys2Proof

/-- Code of a type (R61). -/
def Ty.code : Ty → Nat
  | .b32 => 0 | .s32 => 1 | .z32 => 2 | .s64 => 3 | .z64 => 4 | .b64 => 5 | .f32 => 6 | .f64 => 7
  | .f16x4 => 8 | .bf16x4 => 9 | .e4m3x8 => 10 | .e5m2x8 => 11 | .f32x2 => 12 | .s16x4 => 13 | .s8x8 => 14 | .n4x16 => 15

/-- Number of sub-elements (R61). -/
def Ty.count : Ty → Nat
  | .b32 | .s32 | .z32 | .s64 | .z64 | .b64 | .f32 | .f64 => 1
  | .f32x2 => 2
  | .f16x4 | .bf16x4 | .s16x4 => 4
  | .e4m3x8 | .e5m2x8 | .s8x8 => 8
  | .n4x16 => 16

/-- Width of a sub-element in bits (R61). -/
def Ty.width : Ty → Nat
  | .b32 | .s32 | .z32 | .f32 | .f32x2 => 32
  | .s64 | .z64 | .b64 | .f64 => 64
  | .f16x4 | .bf16x4 | .s16x4 => 16
  | .e4m3x8 | .e5m2x8 | .s8x8 => 8
  | .n4x16 => 4

/-- The literal is one that R60 allows for the type. -/
def litOk (ty : Ty) (v : W32) : Bool :=
  match ty with
  | .f16x4 | .bf16x4 | .s16x4 => v.toNat < 2 ^ 16
  | .e4m3x8 | .e5m2x8 | .s8x8 => v.toNat < 2 ^ 8
  | .n4x16 => v.toNat < 2 ^ 4
  | _ => true

/-- Operand B is a register or a literal that R60 allows. -/
def Opnd.ok (ty : Ty) : Opnd → Bool
  | .reg _ => true
  | .lit v => litOk ty v

def Ty.isInt (ty : Ty) : Bool := ty ∈ [Ty.s32, .z32, .s64, .z64]
/-- Types 0–5, 13 and 14 (R92). -/
def Ty.isArith (ty : Ty) : Bool := ty ∈ [Ty.b32, .s32, .z32, .s64, .z64, .b64, .s16x4, .s8x8]
/-- Types 1–4, 13 and 14 (R92). -/
def Ty.isOrd (ty : Ty) : Bool := ty ∈ [Ty.s32, .z32, .s64, .z64, .s16x4, .s8x8]
/-- Types 1, 3, 13 and 14 (R92). -/
def Ty.isSigned (ty : Ty) : Bool := ty ∈ [Ty.s32, .s64, .s16x4, .s8x8]
def Ty.isBits (ty : Ty) : Bool := ty ∈ [Ty.b32, .b64]
/-- Types 6–9 and 12 (R123). -/
def Ty.isFp (ty : Ty) : Bool := ty ∈ [Ty.f32, .f64, .f16x4, .bf16x4, .f32x2]
/-- Types of the special functions (R125). -/
def Ty.isSfu (ty : Ty) : Bool := ty ∈ [Ty.f32, .f16x4, .bf16x4, .f32x2]

/-- The last register of a run of `n` starting at `r` is at most g255 (R59). -/
def runOk (r : Reg) (n : Nat) : Bool := r.toNat + n ≤ 256

/-- The rows of R153's table. -/
def ldOk (ty : Ty) (w : Width) (sext : Bool) : Bool :=
  match w, sext with
  | .w8, true | .w16, true => ty == .s64
  | .w8, false | .w16, false => ty == .z64 || ty == .b64
  | .w32, true => ty == .s64
  | .w32, false => ty ∈ [Ty.b32, .s32, .z32, .f32]
  | .w64, false => ty ∈ [Ty.s64, .z64, .b64, .f64, .f16x4, .bf16x4, .e4m3x8, .e5m2x8, .f32x2, .s16x4, .s8x8, .n4x16]
  | .w128, false | .w256, false => ty == .b64
  | _, true => false

/-- Registers that an access of the width uses (R63). -/
def Width.regs : Width → Nat
  | .w128 => 2
  | .w256 => 4
  | _ => 1

/-- Bytes of an access (R63). -/
def Width.bytes : Width → Nat
  | .w8 => 1 | .w16 => 2 | .w32 => 4 | .w64 => 8 | .w128 => 16 | .w256 => 32

/-- Matched groups of R130: h lies below the ratio of the element counts. -/
def groupOk (dst src : Ty) (h : BitVec 4) : Bool :=
  if src.count ≥ dst.count then h.toNat < src.count / dst.count else h.toNat < dst.count / src.count

/-- Scale of the KEEP instructions: 1 or 8 (R156). -/
def Addr.keepOk (addr : Addr) : Bool := addr.scale == 0 || addr.scale == 3

/-- Types an atomic operation accepts (R163). -/
def atomOk (op : AtomOp) (ty : Ty) : Bool :=
  match op with
  | .add | .min | .max => ty ∈ [Ty.s32, .z32, .s64, .z64, .f32, .f64]
  | .and | .or | .xor | .exch => ty.isBits

/-- Types an RCN operation accepts (R161). -/
def rcnOk (op : RcnOp) (ty : Ty) : Bool :=
  match op, ty with
  | _, .s64 | _, .z64 => true
  | .min, .b64 | .max, .b64 => false
  | _, .b64 => true
  | .and, .f64 | .or, .f64 | .xor, .f64 => false
  | _, .f64 => true
  | _, _ => false

/-- Types a reduction accepts (R142). -/
def redOk (op : RedOp) (ty : Ty) : Bool :=
  match op with
  | .add => ty ∈ [Ty.s32, .z32, .s64, .z64, .b64, .f32, .f64, .f32x2]
  | .min | .max => ty ∈ [Ty.s32, .z32, .s64, .z64, .f32, .f64, .f32x2]
  | .and | .or | .xor => ty ∈ [Ty.s32, .z32, .s64, .z64, .b64]

def Ty.isFloat (ty : Ty) : Bool := ty ∈ [Ty.f32, .f64, .f16x4, .bf16x4, .e4m3x8, .e5m2x8, .f32x2]

/-- BLKHDR's types (R133). -/
def Ty.isBlk (ty : Ty) : Bool := ty ∈ [Ty.f16x4, .bf16x4, .e4m3x8, .e5m2x8, .f32x2, .s8x8, .n4x16]

/-- A nibble of the S-form WAIT is 0 to 3 or 0xF (R56). -/
def nibOk (n : BitVec 4) : Bool := n.toNat < 4 || n == 15

/-- A literal byte offset of code is a multiple of 4 (R106, R181, R187). -/
def codeOff (v : W32) : Bool := v.toNat % 4 == 0

def Target.ok : Target → Bool
  | .parcels _ => true
  | .bytes v => codeOff v

/-- The encodings that are instructions (R67). Events are well formed as they stand. -/
def Instr.wf : Instr → Bool
  | .waitS n1 n2 n3 n4 => nibOk n1 && nibOk n2 && nibOk n3 && nibOk n4
  | .movi _ ty _ v => litOk ty v
  | .sel _ ty _ _ b _ => b.ok ty
  | .iadd _ ty _ _ b | .isub _ ty _ _ b | .imul _ ty _ _ b | .imad _ ty _ _ b _ => ty.isArith && b.ok ty
  | .iaddc _ ty _ _ b _ _ | .isubb _ ty _ _ b _ _ => (ty == .z32 || ty == .z64) && b.ok ty
  | .imulh _ ty _ _ b | .idiv _ ty _ _ b | .irem _ ty _ _ b => ty.isInt && b.ok ty
  | .ineg _ ty _ _ | .iabs _ ty _ _ => ty.isSigned
  | .imin _ ty _ _ b | .imax _ ty _ _ b | .iadds _ ty _ _ b | .isubs _ ty _ _ b => ty.isOrd && b.ok ty
  | .and _ ty _ _ b | .or _ ty _ _ b | .xor _ ty _ _ b | .andn _ ty _ _ b | .shl _ ty _ _ b | .rot _ ty _ _ b _
  | .bfi _ ty _ _ b _ => ty.isBits && b.ok ty
  | .not _ ty _ _ | .popc _ ty _ _ | .clz _ ty _ _ | .ctz _ ty _ _ | .brev _ ty _ _ => ty.isBits
  | .shr _ ty _ _ b => (ty == .z32 || ty == .z64) && b.ok ty
  | .sar _ ty _ _ b => (ty == .s32 || ty == .s64) && b.ok ty
  | .bfe _ ty _ _ b => ty.isInt && b.ok ty
  | .setp _ ty cmp comb _ _ b pc =>
      (ty.isInt || (ty.isBits && (cmp == .eq || cmp == .ne))) && b.ok ty && (comb != .plain || pc == 0)
  | .bra _ t | .call _ _ t => t.ok
  | .rqrd _ _ _ s | .rqwr _ _ _ s => s.toNat < 9
  | .fadd _ ty _ _ _ b | .fsub _ ty _ _ _ b | .fmul _ ty _ _ _ b | .ffma _ ty _ _ _ b _ | .fdiv _ ty _ _ _ b
  | .fmin _ ty _ _ b | .fmax _ ty _ _ b => ty.isFp && b.ok ty
  | .fsetp _ ty _ comb _ _ b pc => (ty == .f32 || ty == .f64) && b.ok ty && (comb != .plain || pc == 0)
  | .frnd _ ty _ _ _ | .fscale _ ty _ _ _ _ | .fsqrt _ ty _ _ _ => ty.isFp
  | .fclass _ ty _ _ => ty == .f32 || ty == .f64
  | .fdot _ ty _ _ _ _ _ => ty ∈ [Ty.f16x4, .bf16x4, .e4m3x8, .e5m2x8, .f32x2]
  | .frcp _ ty _ _ | .frsq _ ty _ _ | .fexp2 _ ty _ _ | .flog2 _ ty _ _ | .fsin _ ty _ _ | .fcos _ ty _ _
  | .ftanh _ ty _ _ | .fsigm _ ty _ _ => ty.isSfu
  | .cvt _ dst src _ _ h _ _ => !dst.isBits && !src.isBits && groupOk dst src h
  | .cvtq _ dst src _ satf h d _ _ =>
      dst.isBlk && src.isFp && (!satf || (dst != .s8x8 && dst != .n4x16)) && groupOk dst src h && runOk d 2
  | .olpack _ dst src _ h _ _ _ _ => (dst == .s8x8 || dst == .n4x16) && src.isFp && groupOk dst src h
  | .olunpk _ ty _ _ => ty == .s8x8 || ty == .n4x16
  | .blkhdr _ ty mode _ _ => if mode == .zero then ty == .b32 else ty.isBlk
  | .dq _ dst _ _ _ _ _ _ => dst.isFp
  | .pack _ d a | .unpack _ d a => runOk d 8 && runOk a 8
  | .shfl _ ty _ w _ _ _ _ | .shfli _ ty _ w _ _ _ _ => ty.isBits && w.toNat < 6
  | .bcast _ ty _ _ _ => ty.isBits
  | .vote _ mode _ d _ => mode == .ballot || d.toNat < 8
  | .redux _ op ty rnd _ _ | .scanx _ op ty rnd _ _ => redOk op ty && ((op == .add && ty.isFloat) || rnd == .dyn)
  | .matchv _ ty _ _ _ => ty.isBits
  | .ld _ ty w sext _ d _ => ldOk ty w sext && runOk d w.regs
  | .st _ ty w sp d _ => ldOk ty w false && runOk d w.regs && sp != .constant
  | .ldk _ d addr => addr.keepOk && runOk d 2
  | .stk _ _ addr _ => addr.keepOk
  | .ldsib _ n d addr => addr.keepOk && runOk d (2 * (n.toNat + 1) + 1)
  | .rcn _ op ty d addr => addr.keepOk && rcnOk op ty && runOk d 2
  | .atom _ _ op ty _ _ _ | .red _ _ op ty _ _ => atomOk op ty
  | .acas _ _ ty _ _ c => ty.isBits && runOk c 2
  | .cpy _ nb _ b | .cpyg _ nb _ b => !nb || b == 0
  | .hpush _ multi _ _ _ c _ off => (multi || c == 0) && codeOff off
  | .perform _ _ (.lit v) _ => v.toNat < 0xFF00
  | .rcp _ n i1 i2 i3 i4 off =>
      n.toNat ≤ 4 && codeOff off && (n.toNat ≥ 4 || i4 == 0) && (n.toNat ≥ 3 || i3 == 0) && (n.toNat ≥ 2 || i2 == 0)
        && (n.toNat ≥ 1 || i1 == 0)
  | .mpass _ afmt _ _ _ _ _ => 1 ≤ afmt.toNat && afmt.toNat ≤ 6
  | .mzero _ tile nm1 => tile.toNat + nm1.toNat < 64
  | .mmov _ ty n d _ q =>
      if ty == .b32 then n == 0 && q == 0
      else (ty == .f32x2 || ty == .b64) && n.toNat < 3 && q.toNat + 2 ^ n.toNat ≤ 64 && runOk d (2 ^ n.toNat)
  | _ => true

end Sys2Proof
end

