-- ==== Sys2Proof/Decode.lean ====
section
/-! DEFINITION. Decoding, total on any parcels, and the encoder (R53 to R67). Fields are taken out here, once. -/

namespace Sys2Proof

/-- The fields of an L or X instruction (R57, R60). In the X form b is fnx and lit is lit32; in the L form lit is 0. -/
structure Raw where
  x : Bool
  op : BitVec 8
  d : BitVec 8
  a : BitVec 8
  b : BitVec 8
  c : BitVec 8
  gp : BitVec 3
  gneg : Bool
  ty : BitVec 4
  fn : BitVec 14
  lit : W32
  deriving DecidableEq, Repr

/-- A check of decode: go on only if it holds (R67). -/
def req (b : Bool) (k : Option Instr) : Option Instr := if b then k else none

/-- `n` bits of fn from bit `lo` up. -/
def fnField (fn : BitVec 14) (lo n : Nat) : Nat := fn.toNat / 2 ^ lo % 2 ^ n

/-- A predicate field holds its number in [2:0] and zero above (R59). -/
def predOf (f : BitVec 8) : Option Pred := if f.toNat < 8 then some (f.setWidth 3) else none

def tyOf (c : BitVec 4) : Ty :=
  match c.toNat with
  | 0 => .b32 | 1 => .s32 | 2 => .z32 | 3 => .s64 | 4 => .z64 | 5 => .b64 | 6 => .f32 | 7 => .f64
  | 8 => .f16x4 | 9 => .bf16x4 | 10 => .e4m3x8 | 11 => .e5m2x8 | 12 => .f32x2 | 13 => .s16x4 | 14 => .s8x8
  | _ => .n4x16

def rndOf : Nat → Option Rnd
  | 0 => some .dyn | 1 => some .rn | 2 => some .rz | 3 => some .rp | 4 => some .rm | _ => none

def icmpOf : Nat → Option ICmp
  | 0 => some .eq | 1 => some .ne | 2 => some .lt | 3 => some .le | 4 => some .gt | 5 => some .ge | _ => none

def fcmpOf : Nat → FCmp
  | 0 => .eq | 1 => .ne | 2 => .lt | 3 => .le | 4 => .gt | 5 => .ge | 6 => .num | _ => .nan

def combOf : Nat → Comb
  | 0 => .plain | 1 => .and | 2 => .or | _ => .xor

def blkModeOf : Nat → Option BlkMode
  | 0 => some .scale | 1 => some .amax | 2 => some .zero | _ => none

def shflOf : Nat → ShflMode
  | 0 => .idx | 1 => .up | 2 => .down | _ => .xor

def voteOf : Nat → VoteMode
  | 0 => .ballot | 1 => .all | 2 => .any | _ => .eq

def redOpOf : Nat → Option RedOp
  | 0 => some .add | 1 => some .min | 2 => some .max | 3 => some .and | 4 => some .or | 5 => some .xor | _ => none

def rcnOpOf : Nat → RcnOp
  | 0 => .add | 1 => .min | 2 => .max | 3 => .and | 4 => .or | 5 => .xor | 6 => .first | _ => .last

def atomOpOf : Nat → Option AtomOp
  | 0 => some .add | 1 => some .min | 2 => some .max | 3 => some .and | 4 => some .or | 5 => some .xor
  | 6 => some .exch | _ => none

def spaceOf : Nat → Option Space
  | 0 => some .generic | 1 => some .scratch | 2 => some .constant | _ => none

def widthOf : Nat → Option Width
  | 0 => some .w8 | 1 => some .w16 | 2 => some .w32 | 3 => some .w64 | 4 => some .w128 | 5 => some .w256 | _ => none

def scopeOf : Nat → Option Scope
  | 0 => some .thread | 1 => some .gang | 2 => some .block | 3 => some .cluster | 4 => some .die | 5 => some .module
  | 6 => some .system | _ => none

namespace Raw

def guard (r : Raw) : Guard := ⟨r.gp, r.gneg⟩
def tyc (r : Raw) : Ty := tyOf r.ty
/-- Operand B; in the X form fnx must be zero (R60, R65). -/
def opB (r : Raw) : Option Opnd :=
  if r.x then (if r.b == 0 then some (.lit r.lit) else none) else some (.reg r.b)
def rnd3 (r : Raw) : Option Rnd := rndOf r.fn.toNat
def srcTy (r : Raw) : Ty := tyOf (BitVec.ofNat 4 (fnField r.fn 4 4))
def groupH (r : Raw) : BitVec 4 := BitVec.ofNat 4 (fnField r.fn 8 4)
/-- A memory operand (R63, R146). -/
def mem (r : Raw) : Option Addr := r.opB.bind fun b => some ⟨r.a, b, BitVec.ofNat 2 (fnField r.fn 6 2)⟩
/-- fn[5:0] of the KEEP instructions is 0x0C: generic space, 64 bits (R156). -/
def keepFn (r : Raw) : Bool := r.tyc == .b64 && fnField r.fn 0 6 == 12
/-- Space, width and sign bit of the atomics (R163). -/
def atomFn (r : Raw) : Bool := fnField r.fn 1 5 == (if r.tyc.width == 32 then 4 else 6)
def noRegs (r : Raw) : Bool := !r.x && r.ty == 0 && r.d == 0 && r.a == 0 && r.b == 0 && r.c == 0
/-- Targets of BRA and CALL (R106). -/
def target (r : Raw) : Option Target :=
  if r.x then (if r.a == 0 && r.b == 0 && r.c == 0 then some (.bytes r.lit) else none)
  else some (.parcels (r.c ++ r.b ++ r.a))
/-- d, a, b with types, fn and c zero. -/
def bin (r : Raw) (k : Guard → Ty → Reg → Reg → Opnd → Instr) : Option Instr :=
  req (r.c == 0 && r.fn == 0) (r.opB.bind fun b => some (k r.guard r.tyc r.d r.a b))
/-- d, a, b, c with types, fn zero. -/
def ter (r : Raw) (k : Guard → Ty → Reg → Reg → Opnd → Reg → Instr) : Option Instr :=
  req (r.fn == 0) (r.opB.bind fun b => some (k r.guard r.tyc r.d r.a b r.c))
/-- d, a with types, L form only. -/
def una (r : Raw) (k : Guard → Ty → Reg → Reg → Instr) : Option Instr :=
  req (!r.x && r.b == 0 && r.c == 0 && r.fn == 0) (some (k r.guard r.tyc r.d r.a))
/-- IADDC and ISUBB (R93). -/
def carry (r : Raw) (k : Guard → Ty → Reg → Reg → Opnd → Option Pred → Pred → Instr) : Option Instr :=
  req (r.fn.toNat < 16) (r.opB.bind fun b =>
    if r.fn.getLsbD 3 then req (r.c == 0) (some (k r.guard r.tyc r.d r.a b none (r.fn.setWidth 3)))
    else (predOf r.c).bind fun p => some (k r.guard r.tyc r.d r.a b (some p) (r.fn.setWidth 3)))

end Raw

/-- The instruction of an L or X word: the opcode map of R66 and each entry's field rules. The types, ranges and literals that an
entry accepts are checked afterwards (Instr.wf). -/
def Raw.build (r : Raw) : Option Instr :=
  match r.op.toNat with
  | 0x01 => r.una .mov
  | 0x02 => req (r.x && r.a == 0 && r.b == 0 && r.c == 0 && r.fn == 0) (some (.movi r.guard r.tyc r.d r.lit))
  | 0x03 => req (r.fn == 0) (r.opB.bind fun b => (predOf r.c).bind fun p => some (.sel r.guard r.tyc r.d r.a b p))
  | 0x04 => r.bin .iadd
  | 0x05 => r.bin .isub
  | 0x06 => r.carry .iaddc
  | 0x07 => r.carry .isubb
  | 0x08 => r.bin .imul
  | 0x09 => r.bin .imulh
  | 0x0a => r.ter .imad
  | 0x0b => r.bin .idiv
  | 0x0c => r.bin .irem
  | 0x0d => r.una .ineg
  | 0x0e => r.una .iabs
  | 0x0f => r.bin .imin
  | 0x10 => r.bin .imax
  | 0x11 => r.bin .iadds
  | 0x12 => r.bin .isubs
  | 0x13 => req (r.c == 0 && r.fn.toNat < 64 && r.tyc == .b64) (r.opB.bind fun b => some (.lea r.guard r.d r.a b (r.fn.setWidth 6)))
  | 0x14 => r.bin .and
  | 0x15 => r.bin .or
  | 0x16 => r.bin .xor
  | 0x17 => r.bin .andn
  | 0x18 => r.una .not
  | 0x19 => r.bin .shl
  | 0x1a => r.bin .shr
  | 0x1b => r.bin .sar
  | 0x1c => req (r.c == 0 && r.fn.toNat < 2) (r.opB.bind fun b => some (.rot r.guard r.tyc r.d r.a b (r.fn == 1)))
  | 0x1d => r.bin .bfe
  | 0x1e => r.ter .bfi
  | 0x1f => r.una .popc
  | 0x20 => r.una .clz
  | 0x21 => r.una .ctz
  | 0x22 => r.una .brev
  | 0x23 => req (r.fn == 0 && r.tyc == .b64) (r.opB.bind fun b => some (.bperm r.guard r.d r.a b r.c))
  | 0x24 => req (r.fn.toNat < 32) (r.opB.bind fun b => (icmpOf (fnField r.fn 0 3)).bind fun cmp => (predOf r.d).bind fun pd =>
      (predOf r.c).bind fun pc => some (.setp r.guard r.tyc cmp (combOf (fnField r.fn 3 2)) pd r.a b pc))
  | 0x25 => req (!r.x && r.ty == 0 && r.fn.toNat < 256) ((predOf r.d).bind fun pd => (predOf r.a).bind fun pa => (predOf r.b).bind fun pb =>
      (predOf r.c).bind fun pc => some (.plop r.guard pd pa pb pc (r.fn.setWidth 8)))
  | 0x26 => req (!r.x && r.ty == 0 && r.b == 0 && r.c == 0 && r.fn.toNat < 256)
      (if fnField r.fn 0 1 == 0 then req (r.a == 0 && r.fn == 0) (some (.pmov r.guard (.toReg r.d)))
       else req (r.d == 0) (some (.pmov r.guard (.fromReg r.a (BitVec.ofNat 7 (fnField r.fn 1 7))))))
  | 0x27 => req (!r.x && r.ty == 0 && r.b == 0 && r.c == 0 && r.fn == 0) (some (.movs r.guard r.d r.a))
  | 0x28 => req (r.ty == 0 && r.b == 0 && r.c == 0 && r.fn == 0 && (!r.x || r.a == 0))
      (some (.movsw r.guard r.d (if r.x then .lit r.lit else .reg r.a)))
  | 0x40 => req (r.ty == 0 && r.fn == 0 && r.d == 0) (r.target.bind fun t => some (.bra r.guard t))
  | 0x41 => req (r.ty == 0 && r.fn == 0 && r.d == 0 && r.c == 0) (r.opB.bind fun b => some (.brx r.guard r.a b))
  | 0x42 => req (r.ty == 0 && r.fn == 0) (r.target.bind fun t => some (.call r.guard r.d t))
  | 0x43 => req (r.ty == 0 && r.fn == 0 && r.c == 0) (r.opB.bind fun b => some (.callx r.guard r.d r.a b))
  | 0x44 => req (!r.x && r.ty == 0 && r.d == 0 && r.b == 0 && r.c == 0 && r.fn == 0) (some (.ret r.guard r.a))
  | 0x45 => req (!r.x && r.ty == 0 && r.d == 0 && r.a == 0 && r.b == 0 && r.c == 0 && r.fn.toNat < 2)
      (some (if r.fn == 1 then .exitSaved r.guard else .exit r.guard))
  | 0x46 => req (!r.x && r.ty == 0 && r.d == 0 && r.a == 0 && r.b == 0 && r.c == 0 && r.fn == 0) (some (.yield r.guard))
  | 0x47 => req (!r.x && r.ty == 0 && r.fn.toNat < 16) (some (.wait r.guard r.d r.a r.b r.c (r.fn.setWidth 4)))
  | 0x48 => req (!r.x && r.ty == 0 && r.b == 0 && r.c == 0 && r.fn == 0) (some (.wtime r.guard r.d r.a))
  | 0x49 => req (r.noRegs) (some (.trap r.guard r.fn))
  | 0x4a => req (r.noRegs) (some (.brk r.guard r.fn))
  | 0x4b => req (!r.x && r.ty == 0 && r.d == 0 && r.a == 0 && r.b == 0 && r.c == 0 && r.fn == 0) (some (.rtt r.guard))
  | 0x4c => req (!r.x && r.ty == 0 && r.b == 0 && r.c == 0 && r.fn.toNat < 16) (some (.rqrd r.guard r.d r.a (r.fn.setWidth 4)))
  | 0x4d => req (!r.x && r.ty == 0 && r.d == 0 && r.c == 0 && r.fn.toNat < 16) (some (.rqwr r.guard r.a r.b (r.fn.setWidth 4)))
  | 0x4e => req (!r.x && r.ty == 0 && r.d == 0 && r.c == 0 && r.fn == 0) (some (.cbsync r.guard r.a r.b))
  | 0x4f => req (!r.x && r.ty == 0 && r.d == 0 && r.c == 0 && r.fn == 0) (some (.tlbinv r.guard r.a r.b))
  | 0x50 => req (!r.x && r.ty == 0 && r.d == 0 && r.a == 0 && r.b == 0 && r.c == 0 && r.fn == 0) (some (.nop r.guard))
  | 0x60 => req (r.c == 0) (r.rnd3.bind fun m => r.opB.bind fun b => some (.fadd r.guard r.tyc m r.d r.a b))
  | 0x61 => req (r.c == 0) (r.rnd3.bind fun m => r.opB.bind fun b => some (.fsub r.guard r.tyc m r.d r.a b))
  | 0x62 => req (r.c == 0) (r.rnd3.bind fun m => r.opB.bind fun b => some (.fmul r.guard r.tyc m r.d r.a b))
  | 0x63 => r.rnd3.bind fun m => r.opB.bind fun b => some (.ffma r.guard r.tyc m r.d r.a b r.c)
  | 0x64 => r.bin .fmin
  | 0x65 => r.bin .fmax
  | 0x66 => req (r.fn.toNat < 256 && fnField r.fn 0 3 == 0) (r.opB.bind fun b => (predOf r.d).bind fun pd => (predOf r.c).bind fun pc =>
      some (.fsetp r.guard r.tyc (fcmpOf (fnField r.fn 3 3)) (combOf (fnField r.fn 6 2)) pd r.a b pc))
  | 0x67 => req (!r.x && r.b == 0 && r.c == 0) (r.rnd3.bind fun m => some (.frnd r.guard r.tyc m r.d r.a))
  | 0x68 => req (!r.x && r.c == 0) (r.rnd3.bind fun m => some (.fscale r.guard r.tyc m r.d r.a r.b))
  | 0x69 => r.una .fclass
  | 0x6a => req (!r.x) (r.rnd3.bind fun m => some (.fdot r.guard r.tyc m r.d r.a r.b r.c))
  | 0x6b => req (r.c == 0) (r.rnd3.bind fun m => r.opB.bind fun b => some (.fdiv r.guard r.tyc m r.d r.a b))
  | 0x6c => req (!r.x && r.b == 0 && r.c == 0) (r.rnd3.bind fun m => some (.fsqrt r.guard r.tyc m r.d r.a))
  | 0x6d => r.una .frcp
  | 0x6e => r.una .frsq
  | 0x6f => r.una .fexp2
  | 0x70 => r.una .flog2
  | 0x71 => r.una .fsin
  | 0x72 => r.una .fcos
  | 0x73 => r.una .ftanh
  | 0x74 => r.una .fsigm
  | 0x75 => req (!r.x && r.b == 0 && r.c == 0 && r.fn.toNat < 4096) ((rndOf (fnField r.fn 0 3)).bind fun m =>
      some (.cvt r.guard r.tyc r.srcTy m (r.fn.getLsbD 3) r.groupH r.d r.a))
  | 0x76 => req (!r.x && r.c == 0 && r.fn.toNat < 4096) ((rndOf (fnField r.fn 0 3)).bind fun m =>
      some (.cvtq r.guard r.tyc r.srcTy m (r.fn.getLsbD 3) r.groupH r.d r.a r.b))
  | 0x77 => req (!r.x && r.fn.toNat < 4096 && !r.fn.getLsbD 3) ((rndOf (fnField r.fn 0 3)).bind fun m =>
      some (.olpack r.guard r.tyc r.srcTy m r.groupH r.d r.a r.b r.c))
  | 0x78 => r.una .olunpk
  | 0x79 => req (!r.x && r.b == 0 && r.c == 0) ((blkModeOf r.fn.toNat).bind fun md => some (.blkhdr r.guard r.tyc md r.d r.a))
  | 0x7a => req (!r.x && r.fn.toNat < 4096 && fnField r.fn 3 5 == 0) ((rndOf (fnField r.fn 0 3)).bind fun m =>
      some (.dq r.guard r.tyc m r.groupH r.d r.a r.b r.c))
  | 0x7b => req (!r.x && r.tyc == .b64 && r.b == 0 && r.c == 0 && r.fn == 0) (some (.pack r.guard r.d r.a))
  | 0x7c => req (!r.x && r.tyc == .b64 && r.b == 0 && r.c == 0 && r.fn == 0) (some (.unpack r.guard r.d r.a))
  | 0x90 => req (!r.x && r.fn.toNat < 32) ((predOf r.c).bind fun pc =>
      some (.shfl r.guard r.tyc (shflOf (fnField r.fn 0 2)) (BitVec.ofNat 3 (fnField r.fn 2 3)) r.d r.a r.b pc))
  | 0x91 => req (!r.x && r.fn.toNat < 32 && r.b.toNat < 32) ((predOf r.c).bind fun pc =>
      some (.shfli r.guard r.tyc (shflOf (fnField r.fn 0 2)) (BitVec.ofNat 3 (fnField r.fn 2 3)) r.d r.a (r.b.setWidth 5) pc))
  | 0x92 => req (!r.x && r.b == 0 && r.c == 0 && r.fn.toNat < 64)
      (if r.fn.getLsbD 5 then req (fnField r.fn 0 5 == 0) (some (.bcast r.guard r.tyc r.d r.a .low))
       else some (.bcast r.guard r.tyc r.d r.a (.lane (r.fn.setWidth 5))))
  | 0x93 => req (!r.x && r.ty == 0 && r.b == 0 && r.c == 0 && r.fn.toNat < 8) ((predOf r.a).bind fun pa =>
      some (.vote r.guard (voteOf (fnField r.fn 0 2)) (r.fn.getLsbD 2) r.d pa))
  | 0x94 => req (!r.x && r.b == 0 && r.c == 0 && r.fn.toNat < 64) ((rndOf (fnField r.fn 0 3)).bind fun m =>
      (redOpOf (fnField r.fn 3 3)).bind fun o => some (.redux r.guard o r.tyc m r.d r.a))
  | 0x95 => req (!r.x && r.b == 0 && r.c == 0 && r.fn.toNat < 64) ((rndOf (fnField r.fn 0 3)).bind fun m =>
      (redOpOf (fnField r.fn 3 3)).bind fun o => some (.scanx r.guard o r.tyc m r.d r.a))
  | 0x96 => req (!r.x && r.b == 0 && r.fn == 0) ((predOf r.c).bind fun pc => some (.matchv r.guard r.tyc r.d r.a pc))
  | 0x97 => req (!r.x && r.ty == 0 && r.d == 0 && r.a == 0 && r.b == 0 && r.c == 0 && r.fn == 0) (some (.lser r.guard))
  | 0x98 => req (!r.x && r.ty == 0 && r.d == 0 && r.a == 0 && r.b == 0 && r.c == 0 && r.fn == 0) (some (.lsend r.guard))
  | 0xa0 => req (r.c == 0 && r.fn.toNat < 256) (r.mem.bind fun m => (spaceOf (fnField r.fn 0 2)).bind fun sp =>
      (widthOf (fnField r.fn 2 3)).bind fun w => some (.ld r.guard r.tyc w (r.fn.getLsbD 5) sp r.d m))
  | 0xa1 => req (r.c == 0 && r.fn.toNat < 256 && !r.fn.getLsbD 5) (r.mem.bind fun m => (spaceOf (fnField r.fn 0 2)).bind fun sp =>
      (widthOf (fnField r.fn 2 3)).bind fun w => some (.st r.guard r.tyc w sp r.d m))
  | 0xa2 => req (r.c == 0 && r.keepFn && r.fn.toNat < 256) (r.mem.bind fun m => some (.ldk r.guard r.d m))
  | 0xa3 => req (r.keepFn && r.fn.toNat < 256) (r.mem.bind fun m => some (.stk r.guard r.d m r.c))
  | 0xa4 => req (r.c == 0 && r.keepFn && r.fn.toNat < 2048) (r.mem.bind fun m => some (.ldsib r.guard (BitVec.ofNat 3 (fnField r.fn 8 3)) r.d m))
  | 0xa5 => req (r.c == 0 && fnField r.fn 0 6 == 12 && r.fn.toNat < 2048) (r.mem.bind fun m => some (.rcn r.guard (rcnOpOf (fnField r.fn 8 3)) r.tyc r.d m))
  | 0xa6 => req (r.ty == 0 && r.d == 0 && r.c == 0 && !r.fn.getLsbD 0 && fnField r.fn 2 4 == 0 && r.fn.toNat < 512)
      (r.mem.bind fun m => some (.pref r.guard (r.fn.getLsbD 1) (r.fn.getLsbD 8) m))
  | 0xa7 => req (r.atomFn && r.fn.toNat < 4096) (r.mem.bind fun m => (atomOpOf (fnField r.fn 8 4)).bind fun o =>
      some (.atom r.guard (r.fn.getLsbD 0) o r.tyc r.d m r.c))
  | 0xa8 => req (r.atomFn && r.fn.toNat < 4096 && r.d == 0) (r.mem.bind fun m => (atomOpOf (fnField r.fn 8 4)).bind fun o =>
      some (.red r.guard (r.fn.getLsbD 0) o r.tyc m r.c))
  | 0xa9 => req (r.atomFn && r.fn.toNat < 256) (r.mem.bind fun m => some (.acas r.guard (r.fn.getLsbD 0) r.tyc r.d m r.c))
  | 0xaa => req (!r.x && r.tyc == .b64 && r.b == 0 && r.c == 0 && r.fn == 0) (some (.slook r.guard r.d r.a))
  | 0xab => req (!r.x && r.tyc == .b64 && r.d == 0 && r.c == 0 && r.fn == 0) (some (.stag r.guard r.a r.b))
  | 0xac => req (!r.x && r.ty == 0 && r.d == 0 && r.c == 0 && r.fn.toNat < 2) (some (.cpy r.guard (r.fn == 1) r.a r.b))
  | 0xad => req (!r.x && r.ty == 0 && r.d == 0 && r.c == 0 && r.fn.toNat < 2) (some (.cpyg r.guard (r.fn == 1) r.a r.b))
  | 0xae => req (!r.x && r.ty == 0 && r.a == 0 && r.b == 0 && r.c == 0) ((scopeOf r.d.toNat).bind fun s =>
      some (.fence r.guard s (r.fn.setWidth 7) (BitVec.ofNat 7 (fnField r.fn 7 7))))
  | 0xaf => req (!r.x && r.ty == 0 && r.d == 0 && r.a == 0 && r.b == 0 && r.c == 0 && r.fn == 0) (some (.ofence r.guard))
  | 0xd0 => req (!r.x && r.ty == 0 && r.d == 0 && r.fn == 0) (some (.barinit r.guard r.a r.b r.c))
  | 0xd1 => req (!r.x && r.ty == 0 && r.b == 0 && r.c == 0 && r.fn == 0) (some (.arrive r.guard r.d r.a))
  | 0xd2 => req (r.ty == 0 && r.d == 0 && r.c == 0 && r.fn == 0) (r.opB.bind fun b => some (.expect r.guard r.a b))
  | 0xd3 => req (!r.x && r.ty == 0 && r.fn.toNat < 2)
      (if r.fn == 1 then (predOf r.d).bind fun pd => some (.bwaitTo r.guard pd r.a r.b r.c)
       else req (r.d == 0 && r.c == 0) (some (.bwait r.guard r.a r.b)))
  | 0xd4 => req (!r.x && r.ty == 0 && r.c == 0 && r.fn == 0) ((predOf r.d).bind fun pd => some (.btest r.guard pd r.a r.b))
  | 0xd5 => req (!r.x && r.ty == 0 && r.d == 0 && r.b == 0 && r.c == 0 && r.fn == 0) (some (.bdrop r.guard r.a))
  | 0xd6 => req (r.x && r.ty == 0 && r.b.toNat < 4)
      (some (.hpush r.guard (r.b.getLsbD 0) (r.b.getLsbD 1) r.a r.d r.c r.fn r.lit))
  | 0xd7 => req (!r.x && r.ty == 0 && r.d == 0 && r.b == 0 && r.c == 0 && r.fn == 0) (some (.hpop r.guard r.a))
  | 0xd8 => req (r.ty == 0 && r.c == 0 && r.fn == 0) (r.opB.bind fun b => some (.perform r.guard r.d b r.a))
  | 0xd9 => req (r.ty == 0 && r.d == 0 && r.c == 0 && r.fn == 0) (r.opB.bind fun b => some (.resume r.guard r.a b))
  | 0xda => req (r.ty == 0 && r.d == 0 && r.c == 0 && r.fn == 0) (r.opB.bind fun b => some (.resumem r.guard r.a b))
  | 0xdb => req (!r.x && r.ty == 0 && r.d == 0 && r.b == 0 && r.c == 0 && r.fn == 0) (some (.drop r.guard r.a))
  | 0xdc => req (!r.x && r.ty == 0 && r.b == 0 && r.c == 0 && r.fn == 0) (some (.tokst r.guard r.d r.a))
  | 0xe0 => req (r.x && r.ty == 0 && r.fn.toNat < 8) (some (.rcp r.guard (r.fn.setWidth 3) r.d r.a r.c r.b r.lit))
  | 0xe1 => req (!r.x && r.ty == 0 && r.d == 0 && r.a == 0 && r.b == 0 && r.c == 0 && r.fn == 0) (some (.rend r.guard))
  | 0xe2 => req (!r.x && r.ty == 0 && r.d == 0 && r.b == 0 && r.c == 0 && r.fn == 0) (some (.rmat r.guard r.a))
  | 0xe3 => req (!r.x && r.ty == 0 && r.d == 0 && r.b == 0 && r.c == 0 && r.fn.toNat < 2)
      (some (if r.fn == 1 then .rdropKill r.guard r.a else .rdrop r.guard r.a))
  | 0xe4 => req (!r.x && r.ty == 0 && r.b == 0 && r.c == 0 && r.fn == 0) (some (.rstat r.guard r.d r.a))
  | 0xe8 => req (!r.x && r.ty == 0 && r.d == 0 && r.b == 0 && r.c == 0 && r.fn == 0) (some (.cclose r.guard r.a))
  | 0xe9 => req (!r.x && r.ty == 0 && r.d == 0 && r.c == 0 && r.fn == 0) (some (.cappend r.guard r.a r.b))
  | 0xea => req (!r.x && r.ty == 0 && r.b == 0 && r.fn == 0) ((predOf r.c).bind fun pc => some (.ctake r.guard r.d pc r.a))
  | 0xeb => req (!r.x && r.ty == 0 && r.d == 0 && r.b == 0 && r.c == 0 && r.fn == 0) (some (.cdone r.guard r.a))
  | 0xec => req (!r.x && r.ty == 0 && r.d == 0 && r.c == 0 && r.fn == 0) (some (.cquiet r.guard r.a r.b))
  | 0xf0 => req (!r.x && r.ty == 0 && r.d == 0 && r.b == 0 && r.c == 0 && r.fn.toNat < 2) (some (.mldw r.guard (r.fn.setWidth 1) r.a))
  | 0xf1 => req (!r.x && r.ty == 0 && r.d == 0 && r.a == 0 && r.b == 0 && r.c == 0 && r.fn.toNat < 2) (some (.mswap r.guard (r.fn.setWidth 1)))
  | 0xf2 => req (!r.x && r.ty == 0 && r.d == 0 && r.b == 0 && r.c == 0 && r.fn.toNat < 8192)
      (some (.mpass r.guard (BitVec.ofNat 4 (fnField r.fn 8 4)) (r.fn.getLsbD 12) (r.fn.getLsbD 7) (r.fn.setWidth 1)
        (BitVec.ofNat 6 (fnField r.fn 1 6)) r.a))
  | 0xf3 => req (!r.x && r.ty == 0 && r.d == 0 && r.a == 0 && r.b == 0 && r.c == 0 && r.fn.toNat < 4096)
      (some (.mzero r.guard (r.fn.setWidth 6) (BitVec.ofNat 6 (fnField r.fn 6 6))))
  | 0xf4 => req (!r.x && r.a == 0 && r.b == 0 && r.c == 0)
      (some (.mmov r.guard r.tyc (BitVec.ofNat 2 (fnField r.fn 12 2)) r.d (r.fn.setWidth 6) (BitVec.ofNat 6 (fnField r.fn 6 6))))
  | 0xf5 => req (!r.x && r.ty == 0 && r.d == 0 && r.b == 0 && r.c == 0 && r.fn.toNat < 128) (some (.msta r.guard (r.fn.getLsbD 6) r.a (r.fn.setWidth 6)))
  | 0xf8 => req (!r.x && r.ty == 0 && r.d == 0 && r.b == 0 && r.c == 0 && r.fn == 0) (some (.bkmv r.guard r.a))
  | 0xf9 => req (!r.x && r.ty == 0 && r.d == 0 && r.b == 0 && r.c == 0 && r.fn == 0) (some (.bkgth r.guard r.a))
  | 0xfa => req (!r.x && r.ty == 0 && r.b == 0 && r.c == 0 && r.fn == 0) (some (.bkst r.guard r.d r.a))
  | _ => none

/-- The instruction of an S parcel (R54 to R56): the op6 map; unused fields must be zero. -/
def buildS (w : W32) : Option Instr :=
  let b : BitVec 8 := w.extractLsb' 24 8
  let a : BitVec 8 := w.extractLsb' 16 8
  let d : BitVec 8 := w.extractLsb' 8 8
  match (w.extractLsb' 2 6).toNat with
  | 0x01 => req (b == 0) (some (.movS d a))
  | 0x02 => some (.iaddS d a b)
  | 0x03 => some (.isubS d a b)
  | 0x04 => some (.andS d a b)
  | 0x05 => some (.orS d a b)
  | 0x06 => some (.xorS d a b)
  | 0x07 => some (.shlS d a b)
  | 0x08 => some (.shrS d a b)
  | 0x09 => some (.imulS d a b)
  | 0x0a => some (.faddF32S d a b)
  | 0x0b => some (.fmulF32S d a b)
  | 0x0c => some (.faddF32x2S d a b)
  | 0x0d => some (.fmulF32x2S d a b)
  | 0x0e => some (.faddBf16x4S d a b)
  | 0x0f => some (.fmulBf16x4S d a b)
  | 0x10 => some (.iaddImmS d a b)
  | 0x11 => some (.shlImmS d a b)
  | 0x12 => some (.shrImmS d a b)
  | 0x13 => some (.ldB64S d a b)
  | 0x14 => some (.stB64S d a b)
  | 0x15 => req (b == 0 && d == 0) (some (.retS a))
  | 0x16 => req (b == 0 && d == 0 && a == 0) (some (.exitS))
  | 0x17 => req (b == 0) (some (.waitS (w.extractLsb' 8 4) (w.extractLsb' 12 4) (w.extractLsb' 16 4) (w.extractLsb' 20 4)))
  | 0x18 => req (b == 0 && d == 0 && a == 0) (some (.yieldS))
  | _ => none

/-- The fields of a two- or three-parcel instruction (R57, R60). -/
def unpackRaw (x : Bool) (lo hi lit : W32) : Raw :=
  let w : BitVec 64 := hi ++ lo
  ⟨x, w.extractLsb' 2 8, w.extractLsb' 10 8, w.extractLsb' 18 8, w.extractLsb' 26 8, w.extractLsb' 34 8,
    w.extractLsb' 42 3, w.getLsbD 45, w.extractLsb' 46 4, w.extractLsb' 50 14, if x then lit else 0⟩

/-- The instruction that begins with parcel `p0`, and its length in parcels (R53). Reserved encodings give none (R67). DEDUCED, log entry 38. -/
def decodeParcels (p0 p1 p2 : W32) : Option (Instr × Nat) :=
  match (p0.extractLsb' 0 2).toNat with
  | 0 => (buildS p0).bind fun i => if i.wf then some (i, 1) else none
  | 1 => (unpackRaw false p0 p1 p2).build.bind fun i => if i.wf then some (i, 2) else none
  | 2 => (unpackRaw true p0 p1 p2).build.bind fun i => if i.wf then some (i, 3) else none
  | _ => none

/-- Length in parcels by the first two bits (R53); 0 for the illegal form. -/
def formLength (p0 : W32) : Nat :=
  match (p0.extractLsb' 0 2).toNat with
  | 0 => 1 | 1 => 2 | 2 => 3 | _ => 0

/-- The decoder on bytes in address order: parcels are little-endian (R2). -/
def decodeBytes (bs : List Byte) : Option (Instr × Nat) :=
  decodeParcels (BitVec.ofNat 32 (leNat (bs.take 4))) (BitVec.ofNat 32 (leNat ((bs.drop 4).take 4)))
    (BitVec.ofNat 32 (leNat ((bs.drop 8).take 4)))

/-- What the decoder reads from the bits of a row of the opcode table; the bits above `nbits` are 0. -/
def decodeTableWord (nbits w : Nat) : Option Instr :=
  (decodeBytes (leBytes 12 (w % 2 ^ nbits))).map Prod.fst

/-! ## The encoder -/

def tyCode (t : Ty) : BitVec 4 := BitVec.ofNat 4 t.code
def Rnd.code : Rnd → Nat
  | .dyn => 0 | .rn => 1 | .rz => 2 | .rp => 3 | .rm => 4
def Rnd.fn (m : Rnd) : BitVec 14 := BitVec.ofNat 14 m.code
def ICmp.code : ICmp → Nat
  | .eq => 0 | .ne => 1 | .lt => 2 | .le => 3 | .gt => 4 | .ge => 5
def FCmp.code : FCmp → Nat
  | .eq => 0 | .ne => 1 | .lt => 2 | .le => 3 | .gt => 4 | .ge => 5 | .num => 6 | .nan => 7
def Comb.code : Comb → Nat
  | .plain => 0 | .and => 1 | .or => 2 | .xor => 3
def BlkMode.code : BlkMode → Nat
  | .scale => 0 | .amax => 1 | .zero => 2
def ShflMode.code : ShflMode → Nat
  | .idx => 0 | .up => 1 | .down => 2 | .xor => 3
def VoteMode.code : VoteMode → Nat
  | .ballot => 0 | .all => 1 | .any => 2 | .eq => 3
def RedOp.code : RedOp → Nat
  | .add => 0 | .min => 1 | .max => 2 | .and => 3 | .or => 4 | .xor => 5
def RcnOp.code : RcnOp → Nat
  | .add => 0 | .min => 1 | .max => 2 | .and => 3 | .or => 4 | .xor => 5 | .first => 6 | .last => 7
def AtomOp.code : AtomOp → Nat
  | .add => 0 | .min => 1 | .max => 2 | .and => 3 | .or => 4 | .xor => 5 | .exch => 6
def Space.code : Space → Nat
  | .generic => 0 | .scratch => 1 | .constant => 2
def Width.code : Width → Nat
  | .w8 => 0 | .w16 => 1 | .w32 => 2 | .w64 => 3 | .w128 => 4 | .w256 => 5
/-- Scope level (R248). -/
def Scope.level : Scope → Nat
  | .thread => 0 | .gang => 1 | .block => 2 | .cluster => 3 | .die => 4 | .module => 5 | .system => 6
def BcastSrc.fn : BcastSrc → BitVec 14
  | .lane k => k.setWidth 14
  | .low => 32

def p8 (p : Pred) : BitVec 8 := p.setWidth 8
def fnBit (b : Bool) (i : Nat) : BitVec 14 := if b then BitVec.ofNat 14 (2 ^ i) else 0
def cinC : Option Pred → BitVec 8
  | some p => p8 p
  | none => 0
def cinFn (cin : Option Pred) (cout : Pred) : BitVec 14 :=
  BitVec.ofNat 14 (cout.toNat + if cin.isNone then 8 else 0)
def cvtFn (src : Ty) (m : Rnd) (satf : Bool) (h : BitVec 4) : BitVec 14 :=
  BitVec.ofNat 14 (m.code + 8 * satf.toNat + 16 * src.code + 256 * h.toNat)
def atomFnOf (sp : Bool) (ty : Ty) : Nat := sp.toNat + if ty.width == 32 then 8 else 12

/-- An L word. -/
def rawL (op : BitVec 8) (g : Guard) (ty : Ty) (d a b c : BitVec 8) (fn : BitVec 14) : Option Raw :=
  some ⟨false, op, d, a, b, c, g.p, g.neg, tyCode ty, fn, 0⟩
/-- An L word, or an X word when operand B is a literal. -/
def rawB (op : BitVec 8) (g : Guard) (ty : Ty) (d a : BitVec 8) (b : Opnd) (c : BitVec 8) (fn : BitVec 14) : Option Raw :=
  match b with
  | .reg r => some ⟨false, op, d, a, r, c, g.p, g.neg, tyCode ty, fn, 0⟩
  | .lit v => some ⟨true, op, d, a, 0, c, g.p, g.neg, tyCode ty, fn, v⟩
/-- A memory word (R63): the scale goes into fn[7:6]. -/
def rawM (op : BitVec 8) (g : Guard) (ty : Ty) (d : BitVec 8) (m : Addr) (c : BitVec 8) (fn : Nat) : Option Raw :=
  rawB op g ty d m.a m.idx c (BitVec.ofNat 14 (fn + 64 * m.scale.toNat))
/-- A BRA or CALL word (R106). -/
def rawT (op : BitVec 8) (g : Guard) (d : BitVec 8) (t : Target) : Option Raw :=
  match t with
  | .parcels o => some ⟨false, op, d, o.extractLsb' 0 8, o.extractLsb' 8 8, o.extractLsb' 16 8, g.p, g.neg, 0, 0, 0⟩
  | .bytes v => some ⟨true, op, d, 0, 0, 0, g.p, g.neg, 0, 0, v⟩
/-- An S parcel (R54). -/
def sWord (b a d : BitVec 8) (op6 : BitVec 6) : W32 := b ++ a ++ d ++ op6 ++ (0 : BitVec 2)

/-- The fields of an L or X instruction (R57, R60); none for S forms and events. -/
def Instr.raw : Instr → Option Raw
  | .mov g ty d a => rawL 0x01 g ty d a 0 0 0
  | .movi g ty d v => rawB 0x02 g ty d 0 (.lit v) 0 0
  | .sel g ty d a b p => rawB 0x03 g ty d a b (p8 p) 0
  | .iadd g ty d a b => rawB 0x04 g ty d a b 0 0
  | .isub g ty d a b => rawB 0x05 g ty d a b 0 0
  | .iaddc g ty d a b cin cout => rawB 0x06 g ty d a b (cinC cin) (cinFn cin cout)
  | .isubb g ty d a b cin cout => rawB 0x07 g ty d a b (cinC cin) (cinFn cin cout)
  | .imul g ty d a b => rawB 0x08 g ty d a b 0 0
  | .imulh g ty d a b => rawB 0x09 g ty d a b 0 0
  | .imad g ty d a b c => rawB 0x0a g ty d a b c 0
  | .idiv g ty d a b => rawB 0x0b g ty d a b 0 0
  | .irem g ty d a b => rawB 0x0c g ty d a b 0 0
  | .ineg g ty d a => rawL 0x0d g ty d a 0 0 0
  | .iabs g ty d a => rawL 0x0e g ty d a 0 0 0
  | .imin g ty d a b => rawB 0x0f g ty d a b 0 0
  | .imax g ty d a b => rawB 0x10 g ty d a b 0 0
  | .iadds g ty d a b => rawB 0x11 g ty d a b 0 0
  | .isubs g ty d a b => rawB 0x12 g ty d a b 0 0
  | .lea g d a b sh => rawB 0x13 g .b64 d a b 0 (sh.setWidth 14)
  | .and g ty d a b => rawB 0x14 g ty d a b 0 0
  | .or g ty d a b => rawB 0x15 g ty d a b 0 0
  | .xor g ty d a b => rawB 0x16 g ty d a b 0 0
  | .andn g ty d a b => rawB 0x17 g ty d a b 0 0
  | .not g ty d a => rawL 0x18 g ty d a 0 0 0
  | .shl g ty d a b => rawB 0x19 g ty d a b 0 0
  | .shr g ty d a b => rawB 0x1a g ty d a b 0 0
  | .sar g ty d a b => rawB 0x1b g ty d a b 0 0
  | .rot g ty d a b right => rawB 0x1C g ty d a b 0 (fnBit right 0)
  | .bfe g ty d a b => rawB 0x1d g ty d a b 0 0
  | .bfi g ty d a b c => rawB 0x1e g ty d a b c 0
  | .popc g ty d a => rawL 0x1f g ty d a 0 0 0
  | .clz g ty d a => rawL 0x20 g ty d a 0 0 0
  | .ctz g ty d a => rawL 0x21 g ty d a 0 0 0
  | .brev g ty d a => rawL 0x22 g ty d a 0 0 0
  | .bperm g d a b c => rawB 0x23 g .b64 d a b c 0
  | .setp g ty cmp comb pd a b pc => rawB 0x24 g ty (p8 pd) a b (p8 pc) (BitVec.ofNat 14 (cmp.code + 8 * comb.code))
  | .plop g pd pa pb pc lut => rawL 0x25 g .b32 (p8 pd) (p8 pa) (p8 pb) (p8 pc) (lut.setWidth 14)
  | .pmov g dir => match dir with
      | .toReg d => rawL 0x26 g .b32 d 0 0 0 0
      | .fromReg a mask => rawL 0x26 g .b32 0 a 0 0 (BitVec.ofNat 14 (1 + 2 * mask.toNat))
  | .movs g d sr => rawL 0x27 g .b32 d sr 0 0 0
  | .movsw g sr src => match src with
      | .reg a => rawL 0x28 g .b32 sr a 0 0 0
      | .lit v => rawB 0x28 g .b32 sr 0 (.lit v) 0 0
  | .bra g t => rawT 0x40 g 0 t
  | .brx g a b => rawB 0x41 g .b32 0 a b 0 0
  | .call g d t => rawT 0x42 g d t
  | .callx g d a b => rawB 0x43 g .b32 d a b 0 0
  | .ret g a => rawL 0x44 g .b32 0 a 0 0 0
  | .exit g => rawL 0x45 g .b32 0 0 0 0 0
  | .yield g => rawL 0x46 g .b32 0 0 0 0 0
  | .wait g n1 n2 n3 n4 bk => rawL 0x47 g .b32 n1 n2 n3 n4 (bk.setWidth 14)
  | .wtime g d a => rawL 0x48 g .b32 d a 0 0 0
  | .trap g code => rawL 0x49 g .b32 0 0 0 0 code
  | .brk g code => rawL 0x4A g .b32 0 0 0 0 code
  | .rtt g => rawL 0x4B g .b32 0 0 0 0 0
  | .rqrd g d a s => rawL 0x4C g .b32 d a 0 0 (s.setWidth 14)
  | .rqwr g a b s => rawL 0x4D g .b32 0 a b 0 (s.setWidth 14)
  | .cbsync g a b => rawL 0x4E g .b32 0 a b 0 0
  | .tlbinv g a b => rawL 0x4F g .b32 0 a b 0 0
  | .nop g => rawL 0x50 g .b32 0 0 0 0 0
  | .fadd g ty m d a b => rawB 0x60 g ty d a b 0 m.fn
  | .fsub g ty m d a b => rawB 0x61 g ty d a b 0 m.fn
  | .fmul g ty m d a b => rawB 0x62 g ty d a b 0 m.fn
  | .ffma g ty m d a b c => rawB 0x63 g ty d a b c m.fn
  | .fmin g ty d a b => rawB 0x64 g ty d a b 0 0
  | .fmax g ty d a b => rawB 0x65 g ty d a b 0 0
  | .fsetp g ty cmp comb pd a b pc => rawB 0x66 g ty (p8 pd) a b (p8 pc) (BitVec.ofNat 14 (8 * cmp.code + 64 * comb.code))
  | .frnd g ty m d a => rawL 0x67 g ty d a 0 0 m.fn
  | .fscale g ty m d a b => rawL 0x68 g ty d a b 0 m.fn
  | .fclass g ty d a => rawL 0x69 g ty d a 0 0 0
  | .fdot g ty m d a b c => rawL 0x6A g ty d a b c m.fn
  | .fdiv g ty m d a b => rawB 0x6b g ty d a b 0 m.fn
  | .fsqrt g ty m d a => rawL 0x6c g ty d a 0 0 m.fn
  | .frcp g ty d a => rawL 0x6d g ty d a 0 0 0
  | .frsq g ty d a => rawL 0x6e g ty d a 0 0 0
  | .fexp2 g ty d a => rawL 0x6f g ty d a 0 0 0
  | .flog2 g ty d a => rawL 0x70 g ty d a 0 0 0
  | .fsin g ty d a => rawL 0x71 g ty d a 0 0 0
  | .fcos g ty d a => rawL 0x72 g ty d a 0 0 0
  | .ftanh g ty d a => rawL 0x73 g ty d a 0 0 0
  | .fsigm g ty d a => rawL 0x74 g ty d a 0 0 0
  | .cvt g dst src m satf h d a => rawL 0x75 g dst d a 0 0 (cvtFn src m satf h)
  | .cvtq g dst src m satf h d a b => rawL 0x76 g dst d a b 0 (cvtFn src m satf h)
  | .olpack g dst src m h d a b c => rawL 0x77 g dst d a b c (cvtFn src m false h)
  | .olunpk g ty d a => rawL 0x78 g ty d a 0 0 0
  | .blkhdr g ty md d a => rawL 0x79 g ty d a 0 0 (BitVec.ofNat 14 md.code)
  | .dq g dst m h d a b c => rawL 0x7A g dst d a b c (cvtFn .b32 m false h)
  | .pack g d a => rawL 0x7b g .b64 d a 0 0 0
  | .unpack g d a => rawL 0x7c g .b64 d a 0 0 0
  | .shfl g ty md w d a b pc => rawL 0x90 g ty d a b (p8 pc) (BitVec.ofNat 14 (md.code + 4 * w.toNat))
  | .shfli g ty md w d a imm pc => rawL 0x91 g ty d a (imm.setWidth 8) (p8 pc) (BitVec.ofNat 14 (md.code + 4 * w.toNat))
  | .bcast g ty d a src => rawL 0x92 g ty d a 0 0 src.fn
  | .vote g md inv d pa => rawL 0x93 g .b32 d (p8 pa) 0 0 (BitVec.ofNat 14 (md.code + 4 * inv.toNat))
  | .redux g o ty m d a => rawL 0x94 g ty d a 0 0 (BitVec.ofNat 14 (m.code + 8 * o.code))
  | .scanx g o ty m d a => rawL 0x95 g ty d a 0 0 (BitVec.ofNat 14 (m.code + 8 * o.code))
  | .matchv g ty d a pc => rawL 0x96 g ty d a 0 (p8 pc) 0
  | .lser g => rawL 0x97 g .b32 0 0 0 0 0
  | .lsend g => rawL 0x98 g .b32 0 0 0 0 0
  | .ld g ty w sx sp d m => rawM 0xA0 g ty d m 0 (sp.code + 4 * w.code + 32 * sx.toNat)
  | .st g ty w sp d m => rawM 0xA1 g ty d m 0 (sp.code + 4 * w.code)
  | .ldk g d m => rawM 0xA2 g .b64 d m 0 12
  | .stk g d m c => rawM 0xA3 g .b64 d m c 12
  | .ldsib g n d m => rawM 0xA4 g .b64 d m 0 (12 + 256 * n.toNat)
  | .rcn g o ty d m => rawM 0xA5 g ty d m 0 (12 + 256 * o.code)
  | .pref g k l2 m => rawM 0xA6 g .b32 0 m 0 (2 * k.toNat + 256 * l2.toNat)
  | .atom g sp o ty d m c => rawM 0xA7 g ty d m c (atomFnOf sp ty + 256 * o.code)
  | .red g sp o ty m c => rawM 0xA8 g ty 0 m c (atomFnOf sp ty + 256 * o.code)
  | .acas g sp ty d m c => rawM 0xA9 g ty d m c (atomFnOf sp ty)
  | .slook g d a => rawL 0xAA g .b64 d a 0 0 0
  | .stag g a b => rawL 0xAB g .b64 0 a b 0 0
  | .cpy g nb a b => rawL 0xac g .b32 0 a b 0 (fnBit nb 0)
  | .cpyg g nb a b => rawL 0xad g .b32 0 a b 0 (fnBit nb 0)
  | .fence g s p q => rawL 0xAE g .b32 (BitVec.ofNat 8 s.level) 0 0 0 (BitVec.ofNat 14 (p.toNat + 128 * q.toNat))
  | .ofence g => rawL 0xAF g .b32 0 0 0 0 0
  | .barinit g a b c => rawL 0xD0 g .b32 0 a b c 0
  | .arrive g d a => rawL 0xD1 g .b32 d a 0 0 0
  | .expect g a b => rawB 0xD2 g .b32 0 a b 0 0
  | .bwait g a b => rawL 0xD3 g .b32 0 a b 0 0
  | .btest g pd a b => rawL 0xD4 g .b32 (p8 pd) a b 0 0
  | .bdrop g a => rawL 0xD5 g .b32 0 a 0 0 0
  | .hpush g mu wi a d c xo ho => some ⟨true, 0xD6, d, a, BitVec.ofNat 8 (mu.toNat + 2 * wi.toNat), c, g.p, g.neg, 0, xo, ho⟩
  | .hpop g a => rawL 0xD7 g .b32 0 a 0 0 0
  | .perform g d b a => rawB 0xD8 g .b32 d a b 0 0
  | .resume g a b => rawB 0xd9 g .b32 0 a b 0 0
  | .resumem g a b => rawB 0xda g .b32 0 a b 0 0
  | .drop g a => rawL 0xDB g .b32 0 a 0 0 0
  | .tokst g d a => rawL 0xDC g .b32 d a 0 0 0
  | .rcp g n i1 i2 i3 i4 off => some ⟨true, 0xE0, i1, i2, i4, i3, g.p, g.neg, 0, n.setWidth 14, off⟩
  | .rend g => rawL 0xE1 g .b32 0 0 0 0 0
  | .rmat g a => rawL 0xE2 g .b32 0 a 0 0 0
  | .rdrop g a => rawL 0xE3 g .b32 0 a 0 0 0
  | .rstat g d a => rawL 0xE4 g .b32 d a 0 0 0
  | .cclose g a => rawL 0xE8 g .b32 0 a 0 0 0
  | .cappend g a b => rawL 0xE9 g .b32 0 a b 0 0
  | .ctake g d pc a => rawL 0xEA g .b32 d a 0 (p8 pc) 0
  | .cdone g a => rawL 0xEB g .b32 0 a 0 0 0
  | .cquiet g a b => rawL 0xEC g .b32 0 a b 0 0
  | .mldw g pair a => rawL 0xF0 g .b32 0 a 0 0 (pair.setWidth 14)
  | .mswap g pair => rawL 0xF1 g .b32 0 0 0 0 (pair.setWidth 14)
  | .mpass g af raw acc pair tile a => rawL 0xF2 g .b32 0 a 0 0 (BitVec.ofNat 14 (pair.toNat + 2 * tile.toNat + 128 * acc.toNat + 256 * af.toNat + 4096 * raw.toNat))
  | .mzero g tile nm1 => rawL 0xF3 g .b32 0 0 0 0 (BitVec.ofNat 14 (tile.toNat + 64 * nm1.toNat))
  | .mmov g ty n d tile q => rawL 0xF4 g ty d 0 0 0 (BitVec.ofNat 14 (tile.toNat + 64 * q.toNat + 4096 * n.toNat))
  | .msta g bf a tile => rawL 0xF5 g .b32 0 a 0 0 (BitVec.ofNat 14 (tile.toNat + 64 * bf.toNat))
  | .bkmv g a => rawL 0xF8 g .b32 0 a 0 0 0
  | .bkgth g a => rawL 0xF9 g .b32 0 a 0 0 0
  | .bkst g d a => rawL 0xFA g .b32 d a 0 0 0
  | .exitSaved g => rawL 0x45 g .b32 0 0 0 0 1
  | .bwaitTo g pd a b c => rawL 0xD3 g .b32 (p8 pd) a b c 1
  | .rdropKill g a => rawL 0xE3 g .b32 0 a 0 0 1
  | _ => none

/-- The parcel of an S form (R54 to R56); none for the others. -/
def Instr.sword : Instr → Option W32
  | .movS d a => some (sWord 0 a d 0x01)
  | .iaddS d a b => some (sWord b a d 0x02)
  | .isubS d a b => some (sWord b a d 0x03)
  | .andS d a b => some (sWord b a d 0x04)
  | .orS d a b => some (sWord b a d 0x05)
  | .xorS d a b => some (sWord b a d 0x06)
  | .shlS d a b => some (sWord b a d 0x07)
  | .shrS d a b => some (sWord b a d 0x08)
  | .imulS d a b => some (sWord b a d 0x09)
  | .faddF32S d a b => some (sWord b a d 0x0a)
  | .fmulF32S d a b => some (sWord b a d 0x0b)
  | .faddF32x2S d a b => some (sWord b a d 0x0c)
  | .fmulF32x2S d a b => some (sWord b a d 0x0d)
  | .faddBf16x4S d a b => some (sWord b a d 0x0e)
  | .fmulBf16x4S d a b => some (sWord b a d 0x0f)
  | .iaddImmS d a b => some (sWord b a d 0x10)
  | .shlImmS d a b => some (sWord b a d 0x11)
  | .shrImmS d a b => some (sWord b a d 0x12)
  | .ldB64S d a b => some (sWord b a d 0x13)
  | .stB64S d a b => some (sWord b a d 0x14)
  | .retS a => some (sWord 0 a 0 0x15)
  | .exitS => some (sWord 0 0 0 0x16)
  | .waitS n1 n2 n3 n4 => some (sWord 0 (n4 ++ n3) (n2 ++ n1) 0x17)
  | .yieldS => some (sWord 0 0 0 0x18)
  | _ => none

/-- The first two parcels as one number (R57). -/
def Raw.word (r : Raw) : BitVec 64 :=
  r.fn ++ r.ty ++ BitVec.ofBool r.gneg ++ r.gp ++ r.c ++ r.b ++ r.a ++ r.d ++ r.op ++ (if r.x then 2 else 1 : BitVec 2)

/-- The parcels of an L or X instruction. -/
def Raw.parcels (r : Raw) : List W32 :=
  let w := r.word
  if r.x then [w.extractLsb' 0 32, w.extractLsb' 32 32, r.lit] else [w.extractLsb' 0 32, w.extractLsb' 32 32]

/-- The parcels of an instruction, first at the lowest address; none for an event. -/
def encode (i : Instr) : List W32 :=
  match i.sword, i.raw with
  | some w, _ => [w]
  | none, some r => r.parcels
  | none, none => []

/-- Decoding a list of parcels from its front. -/
def decodeList (ps : List W32) : Option (Instr × Nat) :=
  decodeParcels (ps.getD 0 0) (ps.getD 1 0) (ps.getD 2 0)

end Sys2Proof
end

