-- ==== Sys2Proof/Machine/State.lean ====
section
/-! DEFINITION. The state, as plain data: everything the spec gives the machine (INVENTORY.md lists it with its rules), the
reasons a step can stop, and the machine after reset. Bead and register contents are bit vectors; names, counts and addresses are
natural numbers. -/

namespace Sys2Proof.Machine
open Host

/-! ### Places and scopes (R248) -/

/-- Where a thread runs. Linear block index and gang index are in Block and Gang. -/
structure Place where
  die : Nat
  core : Nat
  bid : Nat
  gid : Nat
  thr : Nat
  deriving DecidableEq, Repr

/-- A scope unit: a set of agents (R248). -/
inductive ScopeUnit where
  | thread (gid thr : Nat)
  | gang (gid : Nat)
  | block (bid : Nat)
  | cluster (die n : Nat)
  | die (d : Nat)
  | module
  | system
  | bank (die vault : Nat)
  | peer (link : Nat)
  deriving DecidableEq, Repr

/-- A write of the coherence order that has not yet been seen everywhere (R249): its bytes, its visibility set, the operation that made it, where
a context's operation did (R304), and the key that encrypts it, where it was made through an ENC page (R297). -/
structure PWrite where
  wid : Nat
  loc : Nat
  data : List Byte
  poison : Bool
  vis : List ScopeUnit
  op : Option Nat
  key : Option (List Byte)
  deriving DecidableEq, Repr

/-- A write of the coherence order as it was made, and the bytes, with their poison, that it stood after (R148, R249, R257). -/
structure Wrote where
  wid : Nat
  loc : Nat
  data : List Byte
  poison : Bool
  old : List (Byte × Bool)
  deriving DecidableEq, Repr

/-- What a thread's OFENCE, or its block's start, has made certain for the matrix engine: the next name then, and the writes that the thread
did not see then (R257). -/
structure Snap where
  next : Nat
  unseen : List Nat
  deriving DecidableEq, Repr

/-- A thread's part of a matrix operation that is done and that no WAIT of the thread covers yet: of an MPASS, the tile and its activation row
(R199). -/
structure Passed where
  op : Nat
  gid : Nat
  thr : Nat
  row : Option (Nat × Nat × Nat)
  deriving DecidableEq, Repr

/-- Fence classes (R169) and counter classes (R85). -/
inductive Cls where
  | ld | st | atom | cp | mx | bk | cx
  deriving DecidableEq, Repr

/-! ### Captured operands -/

/-- A captured operand (R117): none read, unfilled (R228), a value, or a poisoned value with its SUB and %taddr (R151). -/
inductive Cap where
  | none
  | unfilled
  | val (v : Word)
  | bad (v : Word) (code : Nat) (addr : Word)
  deriving DecidableEq, Repr

/-- A thread's captured operands A, B, C and D (R117). -/
structure CapOp where
  thr : Nat
  a : Cap
  b : Cap
  c : Cap
  d : Cap
  deriving DecidableEq, Repr

/-- A replay-queue entry (R117, R373). -/
structure RqEntry where
  pc : Nat
  enc : Word
  lit : W32
  len : Nat
  mask : List Nat
  faulted : Bool
  partialDone : Bool
  skip : Bool
  ops : List CapOp
  /-- Of a cross-lane instruction whose source faulted: operand A is, for each thread, the value it reads from its source (R138, R228). -/
  asRead : Bool
  deriving DecidableEq, Repr

/-- What a held operation keeps of its instruction: its replay-queue entry, the PC after it, the second of its pair with the PC after that, and
whether it is a re-injected entry (R47, R116, R172, R373). -/
structure Hold where
  entry : RqEntry
  next : Nat
  second : Option (RqEntry × Nat)
  again : Bool
  deriving DecidableEq, Repr

/-! ### Operations in flight (R247) -/

/-- A contiguous range of locations; a range of a KEEP page is read at its home, slot by slot (R154). -/
structure Seg where
  loc : Nat
  len : Nat
  keep : Bool
  deriving DecidableEq, Repr

/-- A piece of a row of a copy, resolved at issue: its source (none: zeros), its destination, what has been read, and its
transitions taken (R168). -/
structure CopyRow where
  src : Option Seg
  dst : Nat
  len : Nat
  data : List Byte
  poison : Bool
  readDone : Bool
  writeDone : Bool
  landDone : Bool
  wid : Option Nat
  deriving DecidableEq, Repr

/-- A row task of a bank operation, resolved at issue (R321): its unit, its stripe (none: a zero row), where its results go, the elements of
its blocks where nothing else gives them, the operand bytes that it has read, with their poison, and which of its results have been written
one by one (R250, R325). -/
structure BankRow where
  die : Nat
  vault : Nat
  w : Option Nat
  dst : List Seg
  elems : Nat
  seen : List (Nat × Byte × Bool)
  written : List Nat
  taken : Bool
  deriving DecidableEq, Repr

/-- What an outstanding operation does. Locations are resolved at issue (R150, R303). -/
inductive OpKind where
  /-- LD: location, bytes, destination, sign extension, ea, through the constant space (R148). -/
  | load (loc n : Nat) (dst : Reg) (sext : Bool) (ea : Word) (const : Bool)
  /-- ST: location, bytes, poisoned. -/
  | store (loc : Nat) (data : List Byte) (poison : Bool)
  /-- ATOM and RED aggregated: location, bytes, destination of ATOM, each thread's value (R164). -/
  | atomic (loc : Nat) (aop : AtomOp) (ty : Ty) (dst : Option Reg) (vals : List (Nat × Word)) (ea : Word)
  /-- ACAS aggregated: each thread's compare and swap values. -/
  | cas (loc : Nat) (ty : Ty) (dst : Reg) (vals : List (Nat × Word × Word)) (ea : Word)
  /-- LD of a KEEP page: slot, offset in it, bytes. -/
  | keepLoad (slot off n : Nat) (dst : Reg) (sext : Bool) (ea : Word)
  | ldk (slot : Nat) (dst : Reg) (ea : Word)
  | ldsib (slot : Nat) (count : Nat) (dst : Reg) (ea : Word)
  /-- STK and plain ST of a cell: the token's generation, the value, and its page's OVF = MERGE and MERGE op (R155, R157, R311). -/
  | keepStore (slot : Nat) (gen : Nat) (val : Word) (poison : Bool) (ea : Word) (ovfMerge : Bool) (mop : RcnOp)
  | rcn (slot : Nat) (rop : RcnOp) (ty : Ty) (dst : Reg) (ea : Word)
  | keepAtomic (slot : Nat) (aop : AtomOp) (ty : Ty) (dst : Option Reg) (vals : List (Nat × Word)) (ea : Word)
  | keepCas (slot : Nat) (ty : Ty) (dst : Reg) (vals : List (Nat × Word × Word)) (ea : Word)
  /-- CPY and CPYG: direction to generic memory, barrier offset, rows, pinned pages (R168). -/
  | copy (toGeneric : Bool) (bar : Option Nat) (rows : List CopyRow)
  /-- MLDW: pair, format, each column's run (R198). -/
  | mldw (pair wfmt : Nat) (runs : List (List Seg))
  | mswap (pair : Nat)
  /-- MPASS: each thread's activation row (R199). -/
  | mpass (pair tile : Nat) (acc raw : Bool) (afmt : Nat) (rows : List (Nat × Seg))
  | mzero (tile n : Nat)
  /-- MMOV: flags or n beads from column pair q (R201). -/
  | mmov (flags : Bool) (n : Nat) (dst : Reg) (tile q : Nat)
  | msta (bf16 : Bool) (tile : Nat) (rows : List (Nat × Nat))
  /-- BKMV: BF16 results, accumulation, columns, queue priority, activation vectors, tasks (R202, R203). -/
  | bkmv (bf16 acc : Bool) (cols qpri : Nat) (xs : List (List Seg)) (rows : List BankRow)
  /-- BKGTH: result format, columns, queue priority, index list, tasks (R202, R203). -/
  | bkgth (rfmt cols qpri : Nat) (idx : List Seg) (rows : List BankRow)
  /-- CCLOSE of a domain; CAPPEND and CTAKE: header, domain, BASE, CAP, item array; CDONE of a domain; CQUIET (R193 to R195). -/
  | cclose (dom : Nat)
  | cappend (hdr : Nat) (dom : Option Nat) (base cap : Nat) (items : List (Nat × Seg)) (item list : Word)
  | ctake (hdr base cap : Nat) (items : List (Nat × Seg)) (dst : Reg) (pc : Pred)
  | cdone (hdr : Nat) (dom : Option Nat)
  | cquiet (dom bar : Nat)
  deriving DecidableEq, Repr

/-- An outstanding operation. Names rise with program order, so `id` is the program-order position (R247). -/
structure Op where
  id : Nat
  place : Place
  thrs : List Nat
  ctx : Nat
  launch : Nat
  cls : Cls
  cnt : Option Cls
  kind : OpKind
  /-- It has entered its engine: a copy engine, a bank queue, or the granted set of a matrix engine. -/
  queued : Bool
  /-- Of a matrix request: its entry of the reservation table until it is granted, its place in grant order after (R268). -/
  entry : Option Nat
  grant : Option Nat
  /-- Rows or columns whose operand bytes were written since issue (R199). -/
  dirty : List Nat
  posted : Nat
  prio : Nat
  /-- PC of its instruction, executed again by a system effect's continuation (R286). -/
  pc : Nat
  /-- Pages pinned or translated under (R303, R304). -/
  pages : List (Nat × Nat)
  wids : List Nat
  /-- Destination beads written by another instruction since issue: register, thread (R91). -/
  clob : List (Nat × Nat)
  /-- Of a held operation: its threads issue nothing until it is done (R158, R172). -/
  hold : Option Hold
  /-- Issued in trap mode: destination fields 248 to 255 name k0 to k7 (R88). -/
  kmode : Bool
  deriving DecidableEq, Repr

/-- A FENCE marker (R253). -/
structure FenceMark where
  id : Nat
  place : Place
  scope : Scope
  pred : BitVec 7
  succ : BitVec 7
  deriving DecidableEq, Repr

/-- An arrival or drop whose counting step is still to be taken (R178). -/
structure Arrival where
  id : Nat
  place : Place
  off : Nat
  /-- BDROP: lower EXP (R241). -/
  dropExp : Bool
  deriving DecidableEq, Repr

/-! ### Threads and gangs -/

/-- Why a thread is not ready (R206); a step begins by making those ready whose instruction would go on (State.wake). -/
inductive Stall where
  | none
  /-- In BWAIT, WTIME or CBSYNC: a deterministic choice passes the thread over (R208). -/
  | poll
  /-- On another long-latency dependence of R210: WAIT, a regeneration, a rod, a full engine. -/
  | held
  /-- In a way that the table of R210 does not list: confirmation, a counter at its maximum, OFENCE. -/
  | short
  deriving DecidableEq, Repr

inductive Lser where
  | none | waiting | turn
  deriving DecidableEq, Repr

/-- A registration at a barrier object and the phase of its counted arrival (R176, R241). -/
structure Reg1 where
  off : Nat
  arrived : Option Nat
  deriving DecidableEq, Repr

/-- A completed operation whose write has not reached every scope (R252). -/
structure Seen where
  op : Nat
  cls : Cls
  wid : Nat
  deriving DecidableEq, Repr

/-- A timed BWAIT that stalls: predicate, object, phase, deadline, and, once %wall has reached the deadline, whether the phase had completed
by the end of that cycle (R243). -/
structure BWait where
  pd : Pred
  off : Nat
  phase : Nat
  deadline : Nat
  verdict : Option Bool
  deriving DecidableEq, Repr

/-- A token that a thread's PERFORM made, its effect, and the list address that was due at its continuation (R180, R286). -/
structure Tok where
  word : Word
  eff : Nat
  relist : Option (Word × Nat)
  deriving DecidableEq, Repr

/-- A thread: its registers, its %registers and where it stands (R77, R88). The tokens and the kept list of LISTFULL: DEDUCED, log entries 49 and 64. -/
structure Thread where
  thr : Nat
  pc : Nat
  exited : Bool
  saved : Bool
  preds : BitVec 7
  fpc : Word
  fst : Word
  hsp : Word
  eff : Word
  earg : Word
  etok : Word
  olth : Word
  tepc : Word
  taddr : Word
  tslice : Word
  k : List Word
  stall : Stall
  lser : Lser
  regs : List Reg1
  dropped : List Nat
  seen : List Seen
  /-- The list address that RESUME of LISTFULL gave, and the PC of the CAPPEND that uses it (R286). -/
  relist : Option (Word × Nat)
  /-- Tokens of the PERFORMs that this thread made, the last of each frame, while no other thread has performed at it (R180, R284). -/
  toks : List Tok
  /-- It came with an image, which does not name the tokens that it had made (R289). -/
  restored : Bool
  /-- Expiries of the gang's timer that are still to perform TIMER here, oldest first: their deadlines (R81, R287). -/
  timers : List Nat
  /-- WTIME stalled: destination and deadline (R112). -/
  wtime : Option (Reg × Nat)
  /-- A timed BWAIT that stalls (R243). -/
  bwait : Option BWait
  /-- Its last OFENCE (R257). -/
  snap : Snap
  deriving DecidableEq, Repr

/-- A rod in VALUE or RECIPE state; a rod not listed is VOID (R73). -/
inductive Rod where
  | value (beads : List Word)
  | recipe
  deriving DecidableEq, Repr

/-- A recipe descriptor (R188, R231). -/
structure Desc where
  idx : Nat
  slice : Nat
  mask : List Nat
  olth : Word
  rod : Nat
  inputs : List Reg
  mode : Nat
  deriving DecidableEq, Repr

/-- RCP waiting for its definition D (R188). -/
structure PendRcp where
  pc : Nat
  slice : Nat
  inputs : List Reg
  thrs : List Nat
  writes : List Reg
  dyn : Bool
  usesTh : Bool
  /-- Made in trap mode: what is pending outside it waits until trap mode ends. -/
  inTrap : Bool
  deriving DecidableEq, Repr

/-- A poisoned bead: register (k registers from 256 up), thread, SUB of MEM_UE, %taddr (R151, R382, R383). -/
structure BeadPoison where
  reg : Nat
  thr : Nat
  code : Nat
  addr : Word
  deriving DecidableEq, Repr

/-- Trap mode (R372, R374). -/
structure TrapMode where
  cause : Nat
  code : Nat
  mask : List Nat
  queue : List RqEntry
  deriving DecidableEq, Repr

/-- RTT under way: entries still to run (R116). -/
structure Reinject where
  entries : List RqEntry
  mask : List Nat
  deriving DecidableEq, Repr

/-- A trap to deliver at the gang's next boundary: PREEMPT, CODE_GONE, or BADTARGET of a saved or entry PC (R45, R353, R359). -/
structure PendTrap where
  cause : Nat
  thrs : List Nat
  deriving DecidableEq, Repr

/-- A distinct PC of a gang, the issue steps it has waited, and whether a YIELD moved it to the back (R110, R208). -/
structure PcWait where
  pc : Nat
  steps : Nat
  back : Bool
  deriving DecidableEq, Repr

/-- The gang's state before its first speculative instruction (R213, R215): the unresolved WAIT and its threads, the first operation
name used after it, the number of instructions issued past it, and what a squash restores. -/
structure Spec where
  pc : Nat
  thrs : List Nat
  first : Nat
  count : Nat
  threads : List Thread
  rods : List (Nat × Rod)
  descs : List Desc
  pendRcp : List PendRcp
  poison : List BeadPoison
  regen : Nat
  tmr : Word
  rotation : List PcWait
  deriving DecidableEq, Repr

structure Gang where
  gid : Nat
  bid : Nat
  idx : Nat
  threads : List Thread
  rods : List (Nat × Rod)
  descs : List Desc
  pendRcp : List PendRcp
  used : List (Nat × Nat)
  poison : List BeadPoison
  regen : Nat
  tmr : Word
  trap : Option TrapMode
  reinj : Option Reinject
  pend : List PendTrap
  active : Bool
  readySince : Nat
  rotation : List PcWait
  stopped : Bool
  spec : Option Spec
  /-- Early regenerations: rod, thread, value (R229). -/
  early : List (Nat × Nat × Word)
  /-- Instructions issued under speculation, for telemetry (R214). -/
  specCount : Nat
  /-- The thread whose LSER turn ended last, and the program-order position of the end (R245). -/
  lastTurn : Option (Nat × Nat)
  /-- Physical rods that a write of it which waits for more has taken (R74). -/
  reserved : Nat
  /-- %wall when a PREEMPT trap was delivered to it (R353). -/
  preempted : Option Nat
  deriving DecidableEq, Repr

/-! ### Blocks -/

/-- An accumulator tile: words and row flags by position; what is not listed is +0 and clear (R200, R271). -/
structure Tile where
  words : List (Nat × W32)
  flags : List (Nat × BitVec 4)
  deriving DecidableEq, Repr

/-- A weight plane: WFMT, the column runs as loaded, poisoned columns; what is not listed is +0 (R266, R276). -/
structure Plane where
  wfmt : Nat
  cols : List (Nat × List Byte)
  poison : List Nat
  deriving DecidableEq, Repr

structure Pair where
  active : Plane
  shadow : Plane
  deriving DecidableEq, Repr

/-- A write of a deterministic block that waits for release (R349). -/
inductive Staged where
  /-- Bytes at a location; `opId` and `cls` place it for R203. -/
  | bytes (opId : Nat) (cls : Cls) (place : Place) (loc : Nat) (data : List Byte) (poison : Bool)
  /-- A KEEP store: token generation, value, actor, its page's MERGE op (R319), and whether its line is poisoned (R382). -/
  | keep (opId : Nat) (place : Place) (slot gen : Nat) (val : Word) (actor : W32) (mop : RcnOp) (poison : Bool)
  deriving DecidableEq, Repr

structure Block where
  bid : Nat
  launch : Nat
  linear : Nat
  bidx : Nat
  bidy : Nat
  bidz : Nat
  die : Nat
  core : Nat
  sbase : Nat
  ssize : Nat
  nthreads : Nat
  /-- Tag entries with the cycle of their last use; 0xFFFF… is empty (R166, R237). -/
  tags : List Word
  recency : List Nat
  wblist : List Nat
  tiles : List Tile
  pairs : List Pair
  passed : List Passed
  saved : Bool
  staged : List Staged
  /-- Of a block of a deterministic launch: it has ended and waits for its release (R350). -/
  ended : Bool
  /-- Writes of its ended gangs that were still to reach every scope (R341). -/
  wids : List Nat
  /-- %wall at its start (R340, R351). -/
  startWall : Nat
  /-- Operations of a deterministic block that are done and whose writes are staged, with the pages that they translated through (R304). -/
  pins : List (Nat × List (Nat × Nat))
  deriving DecidableEq, Repr

/-! ### KEEP cells (R306, R307) -/

structure Sibling where
  val : Word
  birth : Nat
  actor : W32
  /-- Region its annex entry is charged to; the oldest sibling holds none (R310). -/
  region : Option (Nat × Nat)
  poison : Bool
  deriving DecidableEq, Repr

/-- A cell that differs from what MAP leaves: its slot's physical address, G, its siblings in birth order. -/
structure KeepCell where
  slot : Nat
  gen : Nat
  sibs : List Sibling
  mrg : Bool
  ue : Bool
  unreadable : Bool
  deriving DecidableEq, Repr

/-! ### Contexts, pages, code, graphs, launches (spec/16, spec/19) -/

/-- A page (R297). `link` is the O-link of a MAP_PEER page (R365). -/
structure Page where
  va : Nat
  size : Nat
  pa : Nat
  r : Bool
  w : Bool
  x : Bool
  keep : Bool
  bank : Bool
  spec : Bool
  coh : Bool
  enc : Bool
  ovfMerge : Bool
  merge : RcnOp
  link : Option Nat
  deriving DecidableEq, Repr

/-- A region control block in force (R337). DESIGN CHOICE, log entry 59. -/
structure Rcb where
  parent : Nat
  ovr : Nat
  pri : Nat
  perm : Nat
  fdom : Nat
  clu : Nat
  rods : Nat
  spad : Nat
  tiles : Nat
  pairs : Nat
  anxq : Nat
  bksh : Nat
  traph : Word
  abnd : Nat
  pdl : Nat
  deriving DecidableEq, Repr

/-- A pre-emption of a region (R352, R353). -/
inductive Preempt where
  | none | drain | urgent
  deriving DecidableEq, Repr

structure Region where
  num : Nat
  parent : Option Nat
  blockVa : Nat
  rcb : Rcb
  preempt : Preempt
  deriving DecidableEq, Repr

structure CodeObj where
  handle : Nat
  ctx : Nat
  va : Nat
  size : Nat
  feat : Nat
  minrods : Nat
  revision : Nat
  deriving DecidableEq, Repr

/-- A node of a graph (R342), with its parameter template as GRAPH_LOAD copied it. -/
structure Node where
  code : Nat
  entry : Nat
  nb : Nat × Nat × Nat
  threads : Nat
  spad : Nat
  tags : Nat
  tiles : Nat
  pairs : Nat
  maxbt : Nat
  template : List Byte
  deriving DecidableEq, Repr

/-- What a tile edge adds to an edge (R341). -/
structure EdgeTile where
  base : Nat
  tstr : Nat
  tlen : Nat
  pb : Nat
  cb : Nat
  deriving DecidableEq, Repr

/-- An edge, full or tile (R341, R342). -/
structure Edge where
  src : Nat
  dst : Nat
  tile : Option EdgeTile
  deriving DecidableEq, Repr

structure Graph where
  handle : Nat
  ctx : Nat
  nodes : List Node
  edges : List Edge
  feat : Nat
  usable : Bool
  /-- The object as it was loaded (R355). -/
  obj : List Byte
  deriving DecidableEq, Repr

/-- A kick register's binding (R336, R343, R408): rings, the next parameter offset, the vector, the completion records written. -/
structure Queue where
  kick : Nat
  ctx : Nat
  arena : Nat
  asize : Nat
  cring : Nat
  csize : Nat
  pring : Nat
  psize : Nat
  pnext : Nat
  vector : Nat
  count : Nat
  /-- A stop has been requested (R389); its STOPPED record has been written. -/
  stopped : Bool
  told : Bool
  deriving DecidableEq, Repr

inductive LState where
  | pending | ready | featureWait | running | complete
  deriving DecidableEq, Repr

/-- Status of a launch's completion record (R345). -/
inductive LStatus where
  | ok | lateAbandoned | abandonedDep | faulted
  deriving DecidableEq, Repr

/-- A launch: one node of one replay (R340, R345). -/
structure Launch where
  num : Nat
  ctx : Nat
  region : Nat
  kick : Nat
  replay : Nat
  graph : Nat
  node : Nat
  nd : Node
  state : LState
  status : LStatus
  late : Bool
  deadline : Nat
  det : Bool
  /-- PRI, PERM, ABND and PDL in force for it (R339). -/
  rcb : Rcb
  kparm : Nat
  ksize : Nat
  /-- Linear indices of blocks that have started, have ended, and have been released (R350); tiles flagged, by edge (R261). -/
  started : List Nat
  ended : List Nat
  released : Nat
  flagged : List (Nat × Nat)
  /-- Memory and cells at kernel start, for deterministic launches (R348). -/
  kstart : List Cell
  kpoison : List Nat
  kcells : List KeepCell
  folds : Nat
  discards : Nat
  overtime : Bool
  startWall : Nat
  endWall : Nat
  /-- Writes named below this were made before its start. -/
  first : Nat
  /-- Writes that ended blocks made, by block, until they have reached module scope (R261, R341). -/
  writes : List (Nat × Nat)
  /-- %launch, as programs, records and the image have it; `num` is the model's own name, and differs only after MIGRATE_IN (R345, R355). -/
  seq : Nat
  /-- LOADVA, required features and MINRODS of its code when it was made: a launch that has started finishes, also when its code object has
  gone (R74, R345, R347). -/
  cva : Nat
  cfeat : Nat
  cmin : Nat
  /-- Writes that the releases of its own blocks made, and the slots at which agents outside it changed a cell while it ran: what such an
  agent has written is unpredictable to a deterministic launch (R348). -/
  own : List Nat
  outside : List Nat
  /-- Tiles and planes of blocks that ended SAVED, for their next start (R276). -/
  kept : List (Nat × List Tile × List Pair)
  deriving DecidableEq, Repr

/-- A replay that has been accepted and waits for room in its parameter ring, or for a stopped queue (R344, R389, R408). -/
structure Replay where
  id : Nat
  kick : Nat
  ctx : Nat
  region : Nat
  graph : Nat
  deadline : Nat
  params : List (List Byte)
  deriving DecidableEq, Repr

/-- A record of a queue's completion ring, or a record that the spec gives no place, kept as data: it has no byte layout. Log entry 16. -/
inductive Report where
  | launch (kick seq num : Nat) (status : LStatus) (late : Bool) (startWall endWall : Nat) (det : Word)
  | badKick (kick seq : Nat)
  | stopped (kick seq : Nat)
  /-- The encrypted record of a confidential context's counter increments at a tick of a die (R390). -/
  | counters (ctx die tick : Nat) (data : List Byte)
  deriving DecidableEq, Repr

structure Context where
  num : Nat
  rootCb : Nat
  window : Nat
  confidential : Bool
  key : Nat
  clk : Nat
  regions : List Region
  pages : List Page
  /-- Halted and switched out (R354). -/
  halted : Bool
  /-- Status FEATURE_WAIT: no enabled core has the features that its saved blocks need (R347). -/
  featureWait : Bool
  /-- Accepts CTX_DESTROY and MIGRATE_OUT only (R353). -/
  restricted : Bool
  /-- Operations completed, by unit (R331). -/
  bankDone : List ((Nat × Nat) × Nat)
  /-- Encrypted records written (R390). -/
  sealedRecs : Nat
  deriving DecidableEq, Repr

/-- A quiescence arming at a die's compaction unit (R195, R293). -/
structure Arming where
  die : Nat
  dom : Nat
  bid : Nat
  off : Nat
  /-- The domain was quiescent after a step: the arrival is due. -/
  fired : Bool
  deriving DecidableEq, Repr

/-- A work list or domain at which a compaction unit has taken a step, or a list that came with an image; whether its items and counts are
unpredictable (R191, R294). DEDUCED, log entry 102. -/
structure WorkUse where
  loc : Nat
  dom : Bool
  loose : Bool
  moved : Bool
  deriving DecidableEq, Repr

/-- A saved context: what R354 and R355 save, kept as data, the save area that the firmware holds for it (R355, R390), and the threads that trap CODE_GONE on restore (R359). DEDUCED, log entry 77. -/
structure Saved where
  ctx : Nat
  area : List Byte
  blocks : List Block
  gangs : List Gang
  scratch : List (Nat × List Byte)
  /-- Poisoned locations of those scratchpads. -/
  poison : List Nat
  arms : List Arming
  arrivals : List Arrival
  gone : List (Nat × Nat)
  deriving DecidableEq, Repr

/-- A removal under way (R384, R378). -/
structure Removal where
  id : Nat
  ctx : Nat
  fdom : Option Nat
  step : Nat
  seq : Option Nat
  deriving DecidableEq, Repr

/-- What a command that has begun waits for before it completes (R304, R334, R352, R384). -/
inductive WaitFor where
  | done
  /-- UNMAP and PROTECT: operations that translated under the old entries, done or still to be released, the next name then, the physical
  ranges, and the KEEP ranges to free. -/
  | old (ops : List Nat) (mark : Nat) (ranges : List (Nat × Nat)) (keep : List (Nat × Nat × Option (List Byte)))
  | drained (ctx region : Nat)
  | removed (ctx : Nat)
  | switched (ctx : Nat)
  /-- MIGRATE_OUT: where, room, and whether the context ran before it. -/
  | migrated (ctx image room : Nat) (fresh : Bool)
  | restored (ctx : Nat)
  deriving DecidableEq, Repr

/-- A command that has begun and not completed: what it names (R334), its NOTIFY (R335), what it waits for, its record. -/
structure Waiting where
  seq : Nat
  names : List (Nat × Nat)
  notify : Option (Nat × Nat × Option (Nat × Nat))
  wait : WaitFor
  status : Nat
  flags : Nat
  detail : Nat
  deriving DecidableEq, Repr

/-! ### Host interface and supervision (spec/21, spec/23) -/

structure Bar0 where
  aqBase : Word
  aqSize : Word
  aqTail : Word
  aqHead : Word
  cqBase : Word
  cqSize : Word
  cqHead : Word
  cqTail : Word
  frBase : Word
  frSize : Word
  frHead : Word
  frTail : Word
  deriving DecidableEq, Repr

/-- An O-link: up or down, consecutive failures of the flit under way (R364). -/
structure Link where
  up : Bool
  fails : Nat
  deriving DecidableEq, Repr

/-- Telemetry (R386, R387): the setting in force, the one to come, the tick's number and its next cycle, and the counts by die and
position. -/
structure Telemetry where
  k : Nat
  base : Nat
  size : Nat
  next : Option (Nat × Nat × Nat)
  tick : Nat
  due : Nat
  counters : List (Nat × Nat)
  /-- The counts that the last plain records showed, and the units that served a confidential context since: first position,
  context (R390). -/
  shown : List (Nat × Nat)
  served : List (Nat × Nat)
  /-- The model's own: which reset the free counts are counted from. -/
  epoch : Nat
  deriving DecidableEq, Repr

/-- A trace of a region (R388). -/
structure Trace where
  ctx : Nat
  region : Nat
  base : Nat
  size : Nat
  sel : Nat
  pos : Nat
  seq : Nat
  dropped : Nat
  deriving DecidableEq, Repr

/-- An uncorrectable error of a structure (R382), or the loss of a vault (R394): a physical event that the spec gives no transition. Those of
TLBs and walker caches change nothing. Log entry 107. -/
inductive Upset where
  /-- The register store: a bead, or from 256 up a k register. -/
  | bead (gid thr reg : Nat)
  /-- Eight bytes of a block's scratchpad. -/
  | scratch (bid off : Nat)
  | tag (bid entry : Nat)
  /-- A row of an accumulator tile. -/
  | tile (bid tile row : Nat)
  /-- A column of a weight plane. -/
  | plane (bid pair : Nat) (shadow : Bool) (col : Nat)
  /-- A line of L2 or DRAM, at its home. -/
  | line (addr : Nat)
  /-- An entry of a cell. -/
  | sibling (slot idx : Nat)
  /-- The metadata of a cell: it cannot be read from then on (R317). -/
  | cellMeta (slot : Nat)
  /-- A line of the counting board. -/
  | board (bid addr : Nat)
  | vault (die vault : Nat)
  deriving DecidableEq, Repr

/-- The health states (R394). -/
inductive Health where
  | healthy | serviceable | critical | failed
  deriving DecidableEq, Repr

/-- Supervision: health, power, packages, keys, time (R367, R390 to R396). -/
structure Supervision where
  health : Health
  /-- The configuration record in flash: retired units, and spares in service (R332, R392, R395). -/
  retired : List UnitId
  spares : List UnitId
  /-- Clusters whose retirement waits for their resident blocks to end (R395). -/
  retiring : List UnitId
  /-- Dies that no longer answer (R394); a coolant or rail fault holds the cap at its floor. -/
  silent : List Nat
  railFault : Bool
  /-- Vaults that DRAM stacks have lost (R394). -/
  lost : List (Nat × Nat)
  /-- The power limit, the last measurement, and whether the cap delays issue (R396). -/
  limit : Nat
  watts : Nat
  capped : Bool
  /-- The package in flash, the revision and the bytes of the one installed at boot, and the rollback counter (R392, R393). -/
  flash : Option (Nat × List Byte)
  installed : Option Nat
  image : List Byte
  rollback : Nat
  /-- Key slots (R391). -/
  keys : List (Nat × List Byte)
  /-- Units that must be retired: failed boot tests, too many corrected errors, a repeated uncorrectable error (R395); the cycles of the
  corrected errors of the last 2^30 cycles, and the cells that uncorrectable errors have struck. -/
  due : List UnitId
  corrected : List (UnitId × Nat)
  struck : List Upset
  /-- Locked to a time transmitter; ever locked (R367, R368). -/
  locked : Bool
  everLocked : Bool
  /-- The correction of %wall, in ns, that slewing has still to make (R367). -/
  slewLeft : Int
  /-- Links whose peers send beacons from a locked time base, and the beacons sent: link and %wall (R368). -/
  beacons : List Nat
  sent : List (Nat × Nat)
  deriving DecidableEq, Repr

/-- A fetch line (R43): its line word and its 15 parcels. -/
structure FLine where
  word : W32
  parcels : List W32
  deriving DecidableEq, Repr

/-- A line fetched ahead for a gang (R48, R49). -/
structure Line where
  gid : Nat
  addr : Nat
  line : FLine
  deriving DecidableEq, Repr

/-- The second instruction of a pair (R47, R212). -/
structure PairInfo where
  pc : Nat
  next : Nat
  enc : Word
  lit : W32
  len : Nat
  deriving DecidableEq, Repr

/-- The issue slot: gang, instruction PC, PC of the next instruction, active mask, the encoding for the replay queue, captured
operands when the instruction is re-injected (R206, R116), whether it is the second of a pair: no issue step of its own (R212), the rods
that the instruction has regenerated, which count when it completes (R223), and how many instructions after it issue while its checks are
made (R373). -/
structure IssueSlot where
  gid : Nat
  pc : Nat
  next : Nat
  mask : List Nat
  enc : Word
  lit : W32
  len : Nat
  pair : Option PairInfo
  cap : Option RqEntry
  second : Bool
  regens : List Nat
  late : Nat
  deriving DecidableEq, Repr

/-- A step that was put on the agenda. -/
inductive Event where
  /-- A transition, the issue of the group of a gang at a PC (R250), and the same with instructions that issue while its checks are made (R373). -/
  | take (i : Instr)
  | issue (gid pc : Nat)
  | issueLate (gid pc n : Nat)
  /-- An uncorrectable error (R382), and a corrected one, at a unit (R382, R395). -/
  | upset (u : Upset)
  | corrected (u : UnitId)
  /-- The host reads BAR0 (R361). -/
  | barRead (off size : Nat)
  /-- The module sends its beacons; a peer's beacons stop, or come no more from a locked time base (R368). -/
  | sendBeacons
  | beaconLost (link : Nat)
  deriving DecidableEq, Repr

/-! ### Fault records (R379, R380) -/

/-- What a fault record says (R380), but SEQ and LOST. -/
structure FaultRec where
  cls : Nat
  cause : Nat := 0
  engine : Nat := 0
  ctx : Nat := 0
  region : Nat := 0
  fdom : Nat := 0
  wall : Nat := 0
  launch : Nat := 0
  addr : Nat := 0
  pc : Nat := 0
  tmask : Nat := 0
  nested : Bool := false
  conf : Bool := false
  detail : Nat := 0
  deriving DecidableEq, Repr

/-- A fault record whose event still has effects on their way to system scope: the writes that the event made, and the removal that it began
(R379). -/
structure FaultWait where
  body : FaultRec
  wids : List Nat
  removal : Option Nat
  deriving DecidableEq, Repr

/-! ### The state -/

structure State where
  -- the module and its clock
  cycle : Nat
  /-- Whose turn the next default step is: issue, operations, gangs, firmware. -/
  turn : Nat
  wallAdj : List Int
  wallLast : List Nat
  agenda : List Event
  free : Nat
  nextId : Nat
  cur : IssueSlot
  line : Option Line
  -- memory
  mem : List Cell
  writes : List PWrite
  /-- Writes made since the oldest running launch started, and those that some agent does not see yet. -/
  wrote : List Wrote
  poison : List Nat
  /-- Bytes that stand encrypted in DRAM, with their keys (R297). -/
  crypt : List (Nat × List Byte)
  cells : List KeepCell
  ops : List Op
  fences : List FenceMark
  arrivals : List Arrival
  -- blocks and gangs
  blocks : List Block
  gangs : List Gang
  -- contexts and what belongs to them
  contexts : List Context
  codes : List CodeObj
  graphs : List Graph
  queues : List Queue
  launches : List Launch
  replays : List Replay
  reports : List Report
  saved : List Saved
  removals : List Removal
  waiting : List Waiting
  traces : List Trace
  nextCtx : Nat
  nextCode : Nat
  nextLaunch : Nat
  -- engines
  arms : List Arming
  /-- Work lists and domains that compaction units know (R191). -/
  work : List WorkUse
  /-- Cores (die, core) whose register store controller is dropping rods (R220). -/
  dropping : List (Nat × Nat)
  /-- Threads whose copy stalls for room in the copy engine, with its PC, in the order in which they stalled (R239). -/
  copyWait : List (Nat × Nat × Nat)
  -- host interface and supervision
  bar : Bar0
  /-- The MSI-X table and pending bits as the host wrote them; messages sent, oldest first (R361, R362). -/
  msixTable : List Cell
  msix : List Nat
  /-- What the last host or peer read returned. -/
  hostData : List Byte
  faultSeq : Nat
  faultLost : Nat
  /-- Fault records that are still to be written (R379). -/
  faults : List FaultWait
  /-- SEQ of the last command that was taken (R334). -/
  seqTaken : Option Nat
  telemetry : Telemetry
  sup : Supervision
  links : List Link
  deriving DecidableEq, Repr

/-- No step of this model ends in a fault: a condition of the machine is a trap, an effect, a status or a record. -/
inductive Fault where
  /-- Never raised: the type is not empty only so that the interface has a reason to name. Safe. -/
  | none
  deriving DecidableEq, Repr

/-- Why an instruction has no meaning. -/
inductive Refusal where
  /-- The instruction is not modelled yet; raised by an arm of exec. Safe. -/
  | notModelled (mnemonic : String)
  deriving DecidableEq, Repr

/-! ### Reset -/

def IssueSlot.idle : IssueSlot := ⟨0, 0, 0, [], 0, 0, 0, none, none, false, [], 0⟩
def Bar0.reset : Bar0 := ⟨0, 0, 0, 0, 0, 0, 0, 0, 0, 0, 0, 0⟩
def Telemetry.reset : Telemetry := ⟨24, 0, 0, none, 0, 2 ^ 24, [], [], [], 0⟩
def Supervision.reset : Supervision :=
  ⟨.healthy, [], [], [], [], false, [], 8000, 0, false, none, none, [], 0, [], [], [], [], false, false, 0, [], []⟩

/-- The module after reset (R367: %wall is 0; R361, R379: BAR0 registers are 0; no context exists). The values the spec does not
give are those of log entries 2, 3, 5, 7, 11, 12 and 13. -/
def State.reset : State where
  cycle := 0
  turn := 0
  wallAdj := List.replicate 8 0
  wallLast := List.replicate 8 0
  agenda := []
  free := 0
  nextId := 1
  cur := IssueSlot.idle
  line := none
  mem := []
  writes := []
  wrote := []
  poison := []
  crypt := []
  cells := []
  ops := []
  fences := []
  arrivals := []
  blocks := []
  gangs := []
  contexts := []
  codes := []
  graphs := []
  queues := []
  launches := []
  replays := []
  reports := []
  saved := []
  removals := []
  waiting := []
  traces := []
  nextCtx := 1
  nextCode := 1
  nextLaunch := 1
  arms := []
  work := []
  dropping := []
  copyWait := []
  bar := Bar0.reset
  msixTable := []
  msix := []
  hostData := []
  faultSeq := 0
  faultLost := 0
  faults := []
  seqTaken := none
  telemetry := Telemetry.reset
  sup := Supervision.reset
  links := List.replicate 16 ⟨true, 0⟩

end Sys2Proof.Machine
end

