-- ==== Sys2Proof/Config.lean ====
section
/-! DEFINITION. What the spec leaves open: free values without a body, and the module's fixed numbers. -/

namespace Sys2Proof

/-- The special functions of R41. -/
inductive Sfu where
  | rcp | rsq | exp2 | log2 | sin | cos | tanh | sigm
  deriving DecidableEq, Repr

/-- An unpredictable value (R4); the argument is the counter State.free. DESIGN CHOICE, log entry 3. -/
opaque Config.freeWord : Nat → Word
/-- An open choice between two allowed outcomes (R4, R91, R385). Log entry 3. -/
opaque Config.freeBit : Nat → Bool
/-- A special function's result where R41 gives only an error bound: which of the allowed values it is, for an input; of FEXP2 and FLOG2,
which must be non-decreasing, the least input whose result is a value or more. The same bits for the same input on every core and run
(R41). Log entry 15. -/
opaque Config.sfuPick : Sfu → W32 → Nat
/-- The L2 slice that homes a line of a die: the hash is not architectural (R11). Log entry 14. -/
opaque Config.lineSlice : Nat → Nat
/-- The annex index that the LINK field of a slot shows, one of 32,768 (R306, R310): private to the home. Log entry 14. -/
opaque Config.annexIndex : Nat → BitVec 15

/-- SHA-256 (R393), a standard function that the spec names and does not define. Log entry 10. -/
opaque Config.sha256 : List Byte → List Byte
/-- RSASSA-PSS by the module's identity key (R393). Log entry 10. -/
opaque Config.signature : List Byte → List Byte
/-- RSAES-OAEP unwrapping by the module's identity key (R391); none when it fails. Log entry 10. -/
opaque Config.unwrapKey : List Byte → Option (List Byte)
/-- Does the vendor signature over a flash record hold (R392)? Log entry 10. -/
opaque Config.vendorSigned : List Byte → Bool
/-- AES-256-GCM of a record under a key slot's key with a nonce (R390). Log entry 10. -/
opaque Config.sealRecord : List Byte → List Byte → List Byte → List Byte
/-- Opening an AES-256-GCM record under a key (R390); none when its tag does not hold. Log entry 10. -/
opaque Config.openRecord : List Byte → List Byte → Option (List Byte)
/-- The length of a record that begins with these bytes: the spec frames no record (R390). Log entry 10. -/
opaque Config.recordLen : List Byte → Nat
/-- Where byte j of what a record holds stands in the record: AES-GCM enciphers byte by byte, and the spec frames no record (R390). Log
entry 10. -/
opaque Config.recordByte : Nat → Nat
/-- What a reader finds in a byte of DRAM that does not stand there under the reader's key (R297): of the key of AES-256-XTS under which it was
written, if any, the key that the reader's page applies, if any, the byte's location, and the 16 bytes as they were written. Log entry 106. -/
opaque Config.xtsByte : Option (List Byte) → Option (List Byte) → Nat → List Byte → Byte
/-- The certificate chain of the identity key (R393). Log entry 10. -/
opaque Config.certChain : List Byte
/-- The configuration record in flash that names some retired units and spares (R392, R395): the spec gives it no layout. Log entry 16. -/
opaque Config.configRecord : List Nat → List Byte
/-- The contents of the control cores' ROM (R17, R392). Log entry 10. -/
opaque Config.rom : List Byte

/-- Does the module at the far end of an O-link consent to an access of its memory (R365)? Log entry 21. -/
opaque Config.peerConsents : Nat → Nat → Bool

/-- Events that a counter of a die counts at one tick more than at the tick before, where they depend on timing alone (R387): of a module reset,
the counter's place, and the tick. Log entry 28. -/
opaque Config.eventCount : Nat → Nat → Nat → Nat
/-- Does a unit fail its boot test (R392, R395)? Of a boot, and the unit's number. Log entry 107. -/
opaque Config.bootFails : Nat → Nat → Bool
/-- The vault row that holds a line of DRAM, as its vault and its row (R395): the mapping of linear pages is not given. Log entry 14. -/
opaque Config.lineRow : Nat → Nat × Nat

/-! The counts of R6 to R10. -/
def Config.dies : Nat := 8
def Config.coresPerDie : Nat := 200
def Config.physRods : Nat := 3072
def Config.scratchBytes : Nat := 393216
def Config.tagEntries : Nat := 1024
def Config.residentGangs : Nat := 64
def Config.activeGangs : Nat := 8
def Config.copiesInFlight : Nat := 64
def Config.recipeDescs : Nat := 32
def Config.clusterTiles : Nat := 64
def Config.clusterPairs : Nat := 2
def Config.annexEntries : Nat := 32768
def Config.slicesPerDie : Nat := 24
def Config.boardLines : Nat := 4096
def Config.bankInFlight : Nat := 1024

end Sys2Proof
end

