-- ==== Sys2Proof/Machine/Flags.lean ====
section
/-! DEFINITION. Number formats, exact values, rounding and the exception flags (spec/03_numbers.md, R21 to R42). Every
operation computes its exact result as an integer times a power of two and rounds once. -/

namespace Sys2Proof.Machine

/-! ### Flags (R31, R84) -/

/-- The five flags of %fst: NV, DZ, OF, UF, NX in bits 4 to 0 (R84). -/
abbrev FlagSet := BitVec 5

def flNV : FlagSet := 16
def flDZ : FlagSet := 8
def flOF : FlagSet := 4
def flUF : FlagSet := 2
def flNX : FlagSet := 1

def flagIf (b : Bool) (f : FlagSet) : FlagSet := if b then f else 0

/-- The four rounding modes (R28). -/
inductive RM where
  | ne | tz | up | dn
  deriving DecidableEq, Repr

/-- The mode that %fpc holds (R83). -/
def RM.ofFpc (fpc : Word) : RM :=
  match fpc.toNat % 8 with
  | 2 => .tz | 3 => .up | 4 => .dn | _ => .ne

/-- The mode of a rounding field: code 000 takes the mode of %fpc (R28). -/
def RM.of (r : Rnd) (fpc : Word) : RM :=
  match r with
  | .dyn => RM.ofFpc fpc | .rn => .ne | .rz => .tz | .rp => .up | .rm => .dn

/-! ### Formats (R21) -/

/-- A floating-point format: widths, bias, and the greatest finite code. -/
structure Fmt where
  ebits : Nat
  fbits : Nat
  bias : Nat
  hasInf : Bool
  deriving DecidableEq, Repr

def fmt64 : Fmt := ⟨11, 52, 1023, true⟩
def fmt32 : Fmt := ⟨8, 23, 127, true⟩
def fmt16 : Fmt := ⟨5, 10, 15, true⟩
def fmtBf16 : Fmt := ⟨8, 7, 127, true⟩
def fmtE4m3 : Fmt := ⟨4, 3, 7, false⟩
def fmtE5m2 : Fmt := ⟨5, 2, 15, true⟩

namespace Fmt
def width (f : Fmt) : Nat := 1 + f.ebits + f.fbits
/-- Exponent of the quantum of subnormal numbers. -/
def qmin (f : Fmt) : Int := 1 - (f.bias : Int) - f.fbits
def signBit (f : Fmt) : Nat := 2 ^ (f.ebits + f.fbits)
/-- The code of +∞, or of the NaN pattern S.1111.111 in E4M3. -/
def infCode (f : Fmt) : Nat := if f.hasInf then (2 ^ f.ebits - 1) * 2 ^ f.fbits else 2 ^ (f.ebits + f.fbits) - 1
/-- The code of the largest finite value. -/
def maxCode (f : Fmt) : Nat := f.infCode - 1
/-- The canonical NaN (R25). -/
def nan (f : Fmt) : Nat :=
  if f.hasInf then
    if f.fbits = 2 then f.signBit - 1 else f.infCode + 2 ^ (f.fbits - 1) + 1
  else f.infCode
def sign (f : Fmt) (neg : Bool) : Nat := if neg then f.signBit else 0
def inf (f : Fmt) (neg : Bool) : Nat := f.sign neg + f.infCode
end Fmt

/-- What a code stands for: NaN (signalling or not), an infinity, or (−1)^neg × m × 2^e. -/
inductive Fp where
  | nan (signalling : Bool)
  | inf (neg : Bool)
  | fin (neg : Bool) (m : Nat) (e : Int)
  deriving DecidableEq, Repr

/-- Reading a code (R21, R26). -/
def Fmt.unpack (f : Fmt) (x : Nat) : Fp :=
  let neg := x / f.signBit % 2 == 1
  let y := x % f.signBit
  let frac := y % 2 ^ f.fbits
  let ex := y / 2 ^ f.fbits
  if f.hasInf then
    if ex = 2 ^ f.ebits - 1 then
      if frac = 0 then .inf neg else .nan (frac < 2 ^ (f.fbits - 1))
    else if ex = 0 then .fin neg frac f.qmin
    else .fin neg (frac + 2 ^ f.fbits) (f.qmin + (ex - 1 : Nat))
  else if y = f.infCode then .nan false
  else if ex = 0 then .fin neg frac f.qmin
  else .fin neg (frac + 2 ^ f.fbits) (f.qmin + (ex - 1 : Nat))

namespace Fp
def isNan : Fp → Bool | .nan _ => true | _ => false
def isSnan : Fp → Bool | .nan b => b | _ => false
def isInf : Fp → Bool | .inf _ => true | _ => false
def isZero : Fp → Bool | .fin _ m _ => m == 0 | _ => false
def neg : Fp → Bool | .nan _ => false | .inf n => n | .fin n _ _ => n
def negate : Fp → Fp | .nan b => .nan b | .inf n => .inf (!n) | .fin n m e => .fin (!n) m e
/-- A NaN becomes quiet (R36). -/
def quiet : Fp → Fp | .nan _ => .nan false | x => x
/-- The value times 2^k. -/
def scale2 (k : Int) : Fp → Fp | .fin n m e => .fin n m (e + k) | x => x
end Fp

/-- A result: the code and the flags it sets. -/
structure FRes where
  bits : Nat
  fl : FlagSet
  deriving DecidableEq, Repr

/-! ### Rounding (R28 to R31) -/

/-- Does a value between two neighbours go to the one of greater magnitude? `odd`: the lesser one is odd; `cmp`: the discarded
part against one half. -/
def roundAway (md : RM) (neg odd : Bool) (cmp : Ordering) : Bool :=
  match md with
  | .ne => cmp == .gt || (cmp == .eq && odd)
  | .tz => false
  | .up => !neg
  | .dn => neg

/-- The integer that m × 2^(−sh) (and something less than one unit of m more, if `sticky`) rounds to, and whether it was inexact. -/
def roundShift (md : RM) (neg : Bool) (m sh : Nat) (sticky : Bool) : Nat × Bool :=
  if sh = 0 then (if sticky && roundAway md neg (m % 2 == 1) .lt then m + 1 else m, sticky)
  else
    let q := m / 2 ^ sh
    let r := m % 2 ^ sh
    let half := 2 ^ (sh - 1)
    let cmp : Ordering := if r < half then .lt else if r = half then (if sticky then .gt else .eq) else .gt
    if r = 0 && !sticky then (q, false)
    else (if roundAway md neg (q % 2 == 1) cmp then q + 1 else q, true)

/-- Number of bits of m. -/
def bitLen (m : Nat) : Nat := if m = 0 then 0 else Nat.log2 m + 1

/-- Overflow by mode (R29); E4M3 saturates in every mode (R30). -/
def Fmt.overflow (f : Fmt) (md : RM) (neg : Bool) : Nat :=
  if !f.hasInf then f.sign neg + f.maxCode
  else match md, neg with
    | .tz, _ | .up, true | .dn, false => f.sign neg + f.maxCode
    | _, _ => f.inf neg

/-- Round(fmt, x, mode) of (−1)^neg × m × 2^e, with something less than one unit of m more if `sticky` (R28 to R31). `m` has more
bits than the format when `sticky` holds. A zero keeps its sign. -/
def Fmt.round (f : Fmt) (md : RM) (neg : Bool) (m : Nat) (e : Int) (sticky : Bool := false) : FRes :=
  if m = 0 then ⟨f.sign neg, 0⟩
  else
    let top : Int := e + bitLen m - 1
    -- quantum as if the exponent range were unbounded, and the quantum delivered
    let qu : Int := top - f.fbits
    let q : Int := max qu f.qmin
    let (rm, inexact) := roundShift md neg (m * 2 ^ (e - q).toNat) (q - e).toNat sticky
    let code := (q - f.qmin).toNat * 2 ^ f.fbits + rm
    if code > f.maxCode then ⟨f.overflow md neg, flOF ||| flNX⟩
    else
      let (ru, _) := roundShift md neg (m * 2 ^ (e - qu).toNat) (qu - e).toNat sticky
      let tiny := qu < f.qmin && !(qu == f.qmin - 1 && ru == 2 ^ (f.fbits + 1))
      ⟨f.sign neg + code, flagIf inexact flNX ||| flagIf (inexact && tiny) flUF⟩

/-- Round an exact value into a format; NaN becomes canonical (R25), ±∞ stays except into E4M3 (R30). -/
def Fmt.ofFp (f : Fmt) (md : RM) : Fp → FRes
  | .nan s => ⟨f.nan, flagIf s flNV⟩
  | .inf n => if f.hasInf then ⟨f.inf n, 0⟩ else ⟨f.nan, flNV⟩
  | .fin n m e => f.round md n m e

/-! ### Exact sums and products (R27) -/

/-- Sum of two finite values; the sign of an exact zero follows R27: toward −∞ it is −0, also for (+0) + (+0), which IEEE 754-2019 makes +0.
DESIGN CHOICE, log entry 89. -/
def addFin (md : RM) (n1 : Bool) (m1 : Nat) (e1 : Int) (n2 : Bool) (m2 : Nat) (e2 : Int) : Bool × Nat × Int :=
  let e := min e1 e2
  let i1 : Int := (m1 * 2 ^ (e1 - e).toNat : Nat)
  let i2 : Int := (m2 * 2 ^ (e2 - e).toNat : Nat)
  let t := (if n1 then -i1 else i1) + (if n2 then -i2 else i2)
  if t = 0 then ((n1 && n2 && m1 == 0 && m2 == 0) || md == .dn, 0, e)
  else (t < 0, t.natAbs, e)

/-- The sum of two values before rounding, and whether it is invalid (∞ − ∞). -/
def addFp (md : RM) (a b : Fp) : Fp × Bool :=
  match a, b with
  | .nan _, _ | _, .nan _ => (.nan false, a.isSnan || b.isSnan)
  | .inf x, .inf y => if x == y then (.inf x, false) else (.nan false, true)
  | .inf x, _ => (.inf x, false)
  | _, .inf y => (.inf y, false)
  | .fin n1 m1 e1, .fin n2 m2 e2 => let (n, m, e) := addFin md n1 m1 e1 n2 m2 e2; (.fin n m e, false)

/-- The exact product, and whether it is invalid (0 × ∞). -/
def mulFp (a b : Fp) : Fp × Bool :=
  match a, b with
  | .nan _, _ | _, .nan _ => (.nan false, a.isSnan || b.isSnan)
  | .inf x, .inf y => (.inf (x != y), false)
  | .inf x, .fin n m _ => if m = 0 then (.nan false, true) else (.inf (x != n), false)
  | .fin n m _, .inf y => if m = 0 then (.nan false, true) else (.inf (y != n), false)
  | .fin n1 m1 e1, .fin n2 m2 e2 => (.fin (n1 != n2) (m1 * m2) (e1 + e2), false)

/-- Round with a flag of invalidity. -/
def Fmt.deliver (f : Fmt) (md : RM) (r : Fp × Bool) : FRes :=
  let x := f.ofFp md r.1
  ⟨x.bits, x.fl ||| flagIf r.2 flNV⟩

def Fmt.add (f : Fmt) (md : RM) (a b : Nat) : FRes := f.deliver md (addFp md (f.unpack a) (f.unpack b))

/-- a − b is a + (−b) (R123); a NaN operand keeps its meaning. -/
def Fmt.sub (f : Fmt) (md : RM) (a b : Nat) : FRes := f.deliver md (addFp md (f.unpack a) (f.unpack b).negate)

def Fmt.mul (f : Fmt) (md : RM) (a b : Nat) : FRes := f.deliver md (mulFp (f.unpack a) (f.unpack b))

/-- a × b + c with one rounding. 0 × ∞ is invalid whatever c is (R31). -/
def fmaFp (md : RM) (a b c : Fp) : Fp × Bool :=
  let p := mulFp a b
  if p.1.isNan then (.nan false, p.2 || c.isSnan) else addFp md p.1 c

def Fmt.fma (f : Fmt) (md : RM) (a b c : Nat) : FRes := f.deliver md (fmaFp md (f.unpack a) (f.unpack b) (f.unpack c))

/-- Correctly rounded quotient (R42). -/
def Fmt.div (f : Fmt) (md : RM) (a b : Nat) : FRes :=
  match f.unpack a, f.unpack b with
  | .nan s, y => ⟨f.nan, flagIf (s || y.isSnan) flNV⟩
  | x, .nan s => ⟨f.nan, flagIf (s || x.isSnan) flNV⟩
  | .inf _, .inf _ => ⟨f.nan, flNV⟩
  | .inf n, .fin k _ _ => ⟨f.inf (n != k), 0⟩
  | .fin n _ _, .inf k => ⟨f.sign (n != k), 0⟩
  | .fin n m1 e1, .fin k m2 e2 =>
    if m2 = 0 then (if m1 = 0 then ⟨f.nan, flNV⟩ else ⟨f.inf (n != k), flDZ⟩)
    else
      let sh := bitLen m2 + f.fbits + 4
      let num := m1 * 2 ^ sh
      f.round md (n != k) (num / m2) (e1 - e2 - sh) (num % m2 != 0)

/-- Integer square root, one result bit a round. -/
def isqrtGo : Nat → Nat → Nat → Nat
  | 0, _, r => r
  | k + 1, x, r => let t := r + 2 ^ k; isqrtGo k x (if t * t ≤ x then t else r)

def isqrt (x : Nat) : Nat := isqrtGo (bitLen x / 2 + 1) x 0

/-- Correctly rounded square root (R42). -/
def Fmt.sqrt (f : Fmt) (md : RM) (a : Nat) : FRes :=
  match f.unpack a with
  | .nan s => ⟨f.nan, flagIf s flNV⟩
  | .inf n => if n then ⟨f.nan, flNV⟩ else ⟨f.inf false, 0⟩
  | .fin n m e =>
    if m = 0 then ⟨f.sign n, 0⟩
    else if n then ⟨f.nan, flNV⟩
    else
      let up := 2 * (f.fbits + 4) + (e % 2).toNat
      let x := m * 2 ^ up
      let r := isqrt x
      f.round md false r ((e - up) / 2) (r * r != x)

/-! ### Comparisons, minimum, maximum, classification -/

/-- Finite values as integers at a common exponent. -/
def Fp.signedAt (e0 : Int) : Fp → Int
  | .fin n m e => let i : Int := (m * 2 ^ (e - e0).toNat : Nat); if n then -i else i
  | _ => 0

/-- a < b for values that are not NaN; −0 equals +0. -/
def Fp.ltNum (a b : Fp) : Bool :=
  match a, b with
  | .inf n, .inf k => n && !k
  | .inf n, _ => n
  | _, .inf k => !k
  | .fin _ _ e1, .fin _ _ e2 => let e := min e1 e2; a.signedAt e < b.signedAt e
  | _, _ => false

/-- FMIN and FMAX (R26): the non-NaN operand, −0 below +0; a signalling NaN sets NV. -/
def Fmt.minmax (f : Fmt) (wantMax : Bool) (a b : Nat) : FRes :=
  let x := f.unpack a
  let y := f.unpack b
  let fl := flagIf (x.isSnan || y.isSnan) flNV
  if x.isNan && y.isNan then ⟨f.nan, fl⟩
  else if x.isNan then ⟨b, fl⟩
  else if y.isNan then ⟨a, fl⟩
  else
    let lt := x.ltNum y || (x.isZero && y.isZero && x.neg && !y.neg)
    ⟨if lt != wantMax then a else b, fl⟩

/-- FSETP's comparisons (R124): lt, le, gt and ge set NV for any NaN, the others for a signalling one. -/
def Fmt.compare (f : Fmt) (c : FCmp) (a b : Nat) : Bool × FlagSet :=
  let x := f.unpack a
  let y := f.unpack b
  let un := x.isNan || y.isNan
  let r := match c with
    | .num => !un
    | .nan => un
    | .ne => un || x.ltNum y || y.ltNum x
    | .eq => !un && !x.ltNum y && !y.ltNum x
    | .lt => !un && x.ltNum y
    | .le => !un && !y.ltNum x
    | .gt => !un && y.ltNum x
    | .ge => !un && !x.ltNum y
  (r, flagIf (x.isSnan || y.isSnan || (un && c ∈ [FCmp.lt, .le, .gt, .ge])) flNV)

/-! ### Rounding to integers and conversions (R32) -/

/-- Round a finite value to an integer; the Bool says inexact. -/
def Fp.toInt (md : RM) (n : Bool) (m : Nat) (e : Int) : Int × Bool :=
  let (k, ix) := roundShift md n (m * 2 ^ e.toNat) (-e).toNat false
  (if n then -(k : Int) else k, ix)

/-- Float to integer with saturation to lo..hi (R32). -/
def toIntSat (md : RM) (lo hi : Int) : Fp → Int × FlagSet
  | .nan _ => (0, flNV)
  | .inf n => (if n then lo else hi, flNV)
  | .fin n m e =>
    let (k, ix) := Fp.toInt md n m e
    if k < lo then (lo, flNV) else if hi < k then (hi, flNV) else (k, flagIf ix flNX)

/-- Integer to float (R32). -/
def Fmt.ofInt (f : Fmt) (md : RM) (k : Int) : FRes := f.round md (k < 0) k.natAbs 0

/-! ### Special functions (R41) -/

/-- Fixed-point arithmetic with 512 fraction bits. -/
def fxBits : Nat := 512
def fxOne : Int := 2 ^ 512

def fxMul (a b : Int) : Int := a * b / fxOne

/-- ln 2 and 2π, scaled by 2^512 and truncated. -/
def fxLn2 : Int :=
  0xB17217F7D1CF79ABC9E3B39803F2F6AF40F343267298B62D8A0D175B8BAAFA2BE7B876206DEBAC98559552FB4AFA1B10ED2EAE35C138214427573B291169B825
def fxTwoPi : Int :=
  0x6487ED5110B4611A62633145C06E0E68948127044533E63A0105DF531D89CD9128A5043CC71A026EF7CA8CD9E69D218D98158536F92F8A1BA7F09AB6B6A8E122E

/-- The series 1 + x + x²/2! + … by Horner's rule, `k` terms. -/
def fxExpGo : Nat → Int → Int → Int
  | 0, _, acc => acc
  | k + 1, x, acc => fxExpGo k x (fxOne + fxMul x acc / ((k : Int) + 1))

/-- e^x for 0 ≤ x < 1. -/
def fxExp (x : Int) : Int := fxExpGo 110 x fxOne

/-- 2^x with x scaled by 2^512: the value and its own scale, value × 2^(scale − 512). -/
def fxExp2 (x : Int) : Int × Int :=
  let k := x / fxOne
  (fxExp (fxMul (x - k * fxOne) fxLn2), k)

/-- Sum of (−1)^i x^(2i)/(2i)! × …: the sine's (from `odd`) and cosine's series by Horner's rule. -/
def fxTrigGo : Nat → Nat → Int → Int → Int
  | 0, _, _, acc => acc
  | k + 1, odd, x2, acc =>
    let j : Int := (2 * k + 1 + odd : Nat)
    fxTrigGo k odd x2 (fxOne - fxMul x2 acc / (j * (j + 1)))

def fxSin (x : Int) : Int := fxMul x (fxTrigGo 90 1 (fxMul x x) fxOne)
def fxCos (x : Int) : Int := fxTrigGo 90 0 (fxMul x x) fxOne

/-- Digits of log2 of y (1 ≤ y < 2, scaled by 2^512) by repeated squaring: `k` binary digits, as an integer. -/
def fxLog2Go : Nat → Int → Int → Int
  | 0, _, acc => acc
  | k + 1, y, acc =>
    let z := fxMul y y
    if 2 * fxOne ≤ z then fxLog2Go k (z / 2) (2 * acc + 1) else fxLog2Go k z (2 * acc)

/-- A finite value scaled by 2^512, truncated toward −∞. -/
def fxOf (n : Bool) (m : Nat) (e : Int) : Int :=
  let s := e + 512
  let v : Int := if s < 0 then (m : Int) / 2 ^ (-s).toNat else (m : Int) * 2 ^ s.toNat
  if n then -v else v

/-- Is a non-zero value of about a × 2^e tiny: does its rounding to 24 bits, to nearest-even with an unbounded exponent, lie below the
smallest normal (R31)? -/
def sfuTiny (a : Int) (e : Int) : Bool :=
  let m := a.natAbs
  let top : Int := e + bitLen m - 1
  if top < -127 then true
  else if -127 < top then false
  else (roundShift .ne false (m * 2 ^ 24) (bitLen m) true).1 < 2 ^ 24

/-- Does a binary32 code lie within `ulps` units of the exact value, about a × 2^e, on its side of zero (R41)? -/
def sfuNear (ulps : Nat) (a : Int) (e : Int) (code : Nat) : Bool :=
  let top : Int := e + bitLen a.natAbs - 1
  let qe : Int := max (top - 23) fmt32.qmin
  match fmt32.unpack code with
  | .fin n m me =>
    let e0 := min (min me e) qe
    let p := Fp.signedAt e0 (.fin n m me)
    let t := Fp.signedAt e0 (.fin (a < 0) a.natAbs e)
    let u : Int := ulps * 2 ^ (qe - e0).toNat
    (p - t).natAbs ≤ u.natAbs && n == decide (a < 0)
  | _ => false

/-- Deliver a special function's binary32 result where the exact result is about a × 2^e and not representable. The result is the
value Config.sfuPick names where that lies within `ulps` units of the exact result (R41), else the exact result rounded toward zero.
NX is set, and UF when the exact result is tiny (R31). DESIGN CHOICE, log entry 15. -/
def sfuDeliver (fn : Sfu) (ulps : Nat) (x : W32) (a : Int) (e : Int) : FRes :=
  let base := (fmt32.round .tz (a < 0) a.natAbs e true).bits
  let pick := Config.sfuPick fn x % 2 ^ 32
  ⟨if sfuNear ulps a e pick then pick else base, flNX ||| flagIf (sfuTiny a e) flUF⟩

/-- A binary32 code as a number that rises with its value, and back. -/
def f32Key (b : Nat) : Int := if 2 ^ 31 ≤ b then -((b % 2 ^ 31 : Nat) : Int) else b
def f32OfKey (k : Int) : Nat := if k < 0 then 2 ^ 31 + k.natAbs else k.toNat

/-- Deliver the result of a non-decreasing special function (R41), between two results lo and hi that the function has exactly at
inputs on either side. Every value v that may be a result has a free input, which Config.sfuPick names, from which on the result is v or
more: of the values within one unit of the exact result, the greatest whose input x has reached is delivered, else the least. Exactly
the non-decreasing functions within the bound arise so. DESIGN CHOICE, log entry 15. -/
def sfuMono (fn : Sfu) (x : W32) (lo hi : Int) (a : Int) (e : Int) : FRes :=
  let base := f32Key (fmt32.round .tz (a < 0) a.natAbs e true).bits
  let near := (List.range 5).filterMap fun (i : Nat) =>
    let k := base - 2 + i
    if lo ≤ k ∧ k ≤ hi ∧ sfuNear 1 a e (f32OfKey k) then some k else none
  let k := (near.reverse.find? fun k => f32Key (Config.sfuPick fn (BitVec.ofNat 32 (f32OfKey k)) % 2 ^ 32) ≤ f32Key x.toNat).getD (near.headD base)
  ⟨f32OfKey k, flNX ||| flagIf (sfuTiny a e) flUF⟩

/-- One, and the exact powers of two, in binary32. -/
def f32Pow2 (k : Int) : FRes := fmt32.round .ne false 1 k

/-- Is a magnitude m × 2^e a power of two? Its exponent. -/
def powOf (m : Nat) (e : Int) : Option Int :=
  if m ≠ 0 ∧ 2 ^ Nat.log2 m = m then some (e + Nat.log2 m) else none

def sfuExp2 (x : W32) : FRes :=
  match fmt32.unpack x.toNat with
  | .nan s => ⟨fmt32.nan, flagIf s flNV⟩
  | .inf n => ⟨if n then 0 else fmt32.inf false, 0⟩
  | .fin n m e =>
    if m = 0 then f32Pow2 0
    else
      let (k, ix) := Fp.toInt .dn n m e
      if k ≥ 128 then ⟨fmt32.inf false, flOF ||| flNX⟩
      else if !ix && k ≥ -149 then f32Pow2 k
      else
        let lo := f32Key (f32Pow2 (max k (-150))).bits
        let hi := f32Key (f32Pow2 (max (k + 1) (-149))).bits
        let (v, s) := if k < -1000 then (1, (-488 : Int)) else fxExp2 (fxOf n m e)
        sfuMono .exp2 x lo hi v (s - 512)

def sfuLog2 (x : W32) : FRes :=
  match fmt32.unpack x.toNat with
  | .nan s => ⟨fmt32.nan, flagIf s flNV⟩
  | .inf n => if n then ⟨fmt32.nan, flNV⟩ else ⟨fmt32.inf false, 0⟩
  | .fin n m e =>
    if m = 0 then ⟨fmt32.inf true, flDZ⟩
    else if n then ⟨fmt32.nan, flNV⟩
    else match powOf m e with
      | some k => fmt32.ofInt .ne k
      | none =>
        let k := e + Nat.log2 m
        let y := fxOf false m (-(Nat.log2 m : Int))
        sfuMono .log2 x (f32Key (fmt32.ofInt .ne k).bits) (f32Key (fmt32.ofInt .ne (k + 1)).bits) (k * 2 ^ 200 + fxLog2Go 200 y 0) (-200)

/-- The finite value in [−1, +1] for |x| > 2^20, a special-input result without NX (R41): free, DESIGN CHOICE, log entry 15. -/
def sfuTrigBig (fn : Sfu) (x : W32) : FRes :=
  let pick := Config.sfuPick fn x % 2 ^ 32
  ⟨if pick % 2 ^ 31 ≤ 0x3F800000 then pick else 0, 0⟩

def sfuTrig (fn : Sfu) (isSin : Bool) (x : W32) : FRes :=
  match fmt32.unpack x.toNat with
  | .nan s => ⟨fmt32.nan, flagIf s flNV⟩
  | .inf _ => ⟨fmt32.nan, flNV⟩
  | .fin n m e =>
    if m = 0 then (if isSin then ⟨fmt32.sign n, 0⟩ else f32Pow2 0)
    else if x.toNat % 2 ^ 31 > 0x49800000 then sfuTrigBig fn x
    else
      let t := fxOf n m e
      let r := t - t / fxTwoPi * fxTwoPi
      let r := if 2 * r > fxTwoPi then r - fxTwoPi else r
      sfuDeliver fn 2 x (if isSin then fxSin r else fxCos r) (-512)

def sfuTanh (x : W32) : FRes :=
  match fmt32.unpack x.toNat with
  | .nan s => ⟨fmt32.nan, flagIf s flNV⟩
  | .inf n => ⟨fmt32.sign n + 0x3F800000, 0⟩
  | .fin n m e =>
    if m = 0 then ⟨fmt32.sign n, 0⟩
    else
      -- (1 − e^(−2|x|)) / (1 + e^(−2|x|)); e^(−t) = 2^(−t/ln 2), and 0 beyond |x| = 64
      let t := fxOf false m (e + 1)
      let w := if t ≥ 128 * fxOne then 1
        else let (v, s) := fxExp2 (-(t * fxOne / fxLn2)); v / 2 ^ (-s).toNat
      let r := (fxOne - w) * fxOne / (fxOne + w)
      sfuDeliver .tanh 2 x (if n then -r else r) (-512)

def sfuSigm (x : W32) : FRes :=
  match fmt32.unpack x.toNat with
  | .nan s => ⟨fmt32.nan, flagIf s flNV⟩
  | .inf n => ⟨if n then 0 else 0x3F800000, 0⟩
  | .fin n m e =>
    if m = 0 then ⟨0x3F000000, 0⟩
    else
      -- 1/(1 + e^(−|x|)), or e^(−|x|) times that for x < 0; 2^(−1000) stands for e^(−|x|) beyond |x| = 256
      let t := fxOf false m e
      let (v, s) := if t ≥ 256 * fxOne then (fxOne, -400) else fxExp2 (-(t * fxOne / fxLn2))
      let w := v / 2 ^ (-s).toNat
      let d := fxOne * fxOne / (fxOne + w)
      if n then sfuDeliver .sigm 2 x (fxMul v d) (s - 512) else sfuDeliver .sigm 2 x d (-512)

/-- An exact result beyond binary32's range, of |x| at most 2^−128, is an infinity with OF and NX, as R29 has it to nearest-even.
DESIGN CHOICE, log entry 90. -/
def sfuRcp (x : W32) : FRes :=
  match fmt32.unpack x.toNat with
  | .nan s => ⟨fmt32.nan, flagIf s flNV⟩
  | .inf n => ⟨fmt32.sign n, 0⟩
  | .fin n m e =>
    if m = 0 then ⟨fmt32.inf n, flDZ⟩
    else
      let ideal := fmt32.div .ne 0x3F800000 x.toNat
      if ideal.fl = 0 || ideal.fl &&& flOF ≠ 0 then ideal
      else
        let q : Int := (2 ^ 128 / m : Nat)
        sfuDeliver .rcp 1 x (if n then -q else q) (-e - 128)

def sfuRsq (x : W32) : FRes :=
  match fmt32.unpack x.toNat with
  | .nan s => ⟨fmt32.nan, flagIf s flNV⟩
  | .inf n => if n then ⟨fmt32.nan, flNV⟩ else ⟨0, 0⟩
  | .fin n m e =>
    if m = 0 then ⟨fmt32.inf n, flDZ⟩
    else if n then ⟨fmt32.nan, flNV⟩
    else
      -- m × 2^e = m' × 2^(2h): the result is 2^(−h) / √m'
      let h := e / 2
      let m2 := m * 2 ^ (e % 2).toNat
      match powOf m e with
      | some k =>
        if k % 2 = 0 then f32Pow2 (-(k / 2))
        else sfuDeliver .rsq 1 x (2 ^ 256 / isqrt (m2 * 2 ^ 256) : Nat) (-h - 128)
      | none => sfuDeliver .rsq 1 x (2 ^ 256 / isqrt (m2 * 2 ^ 256) : Nat) (-h - 128)

/-- The binary32 special function (R41). -/
def sfu32 (fn : Sfu) (x : W32) : FRes :=
  match fn with
  | .rcp => sfuRcp x | .rsq => sfuRsq x | .exp2 => sfuExp2 x | .log2 => sfuLog2 x
  | .sin => sfuTrig .sin true x | .cos => sfuTrig .cos false x | .tanh => sfuTanh x | .sigm => sfuSigm x

/-! ### Exact sums of products (R37 to R39) -/

/-- The state of an exact sum: finite part as an integer times 2^e, and what became of infinities and NaNs. -/
structure Acc where
  n : Int
  e : Int
  nan : Bool
  invalid : Bool
  snan : Bool
  infs : Option Bool
  allNegZero : Bool
  deriving DecidableEq, Repr

def Acc.zero : Acc := ⟨0, 0, false, false, false, none, true⟩

/-- Add one exact term. -/
def Acc.add (a : Acc) (t : Fp × Bool) : Acc :=
  match t.1 with
  | .nan _ => { a with nan := true, invalid := a.invalid || t.2 }
  | .inf s => match a.infs with
    | none => { a with infs := some s, allNegZero := false }
    | some s' => if s = s' then a else { a with nan := true, invalid := true }
  | .fin s m e =>
    let e' := min a.e e
    let v : Int := (m * 2 ^ (e - e').toNat : Nat)
    { a with n := a.n * 2 ^ (a.e - e').toNat + (if s then -v else v), e := e',
             allNegZero := a.allNegZero && s && m == 0 }

/-- The exact sum as a value (R27 for a zero sum). -/
def Acc.value (md : RM) (a : Acc) : Fp × Bool :=
  if a.nan then (.nan false, a.invalid)
  else match a.infs with
    | some s => (.inf s, false)
    | none => if a.n = 0 then (.fin (a.allNegZero || md == .dn) 0 0, false) else (.fin (a.n < 0) a.n.natAbs a.e, false)

/-- Exact sum of the products of pairs. -/
def dotExact (md : RM) (ps : List (Fp × Fp)) : Fp × Bool :=
  (ps.foldl (fun a p => a.add (mulFp p.1 p.2)) Acc.zero).value md

/-- One block of R37: acc := Round(acc + Round(s)). -/
def blockStep (acc : W32) (ps : List (Fp × Fp)) : W32 :=
  let s := fmt32.deliver .ne (dotExact .ne ps)
  BitVec.ofNat 32 (fmt32.add .ne acc.toNat s.bits).bits

/-! ### Self-describing blocks (R34 to R36) -/

/-- Elements a block of a format code holds (R34); 0 for an unknown code. -/
def blkCount (code : Nat) : Nat :=
  match code with
  | 1 | 2 => 28 | 3 | 4 | 5 => 56 | 6 => 112 | 7 => 14 | _ => 0

/-- A two's complement number as an exact value. -/
def fpOfInt (k : Int) : Fp := .fin (k < 0) k.natAbs 0

/-- Element i as stored, unless it is a marker (R34). -/
def blkElem (code : Nat) (bs : List Byte) (i : Nat) : Option Fp :=
  let byte (j : Nat) : Nat := (bs.getD j 0).toNat
  match code with
  | 1 => some (fmtBf16.unpack (byte (2 + 2 * i) + 256 * byte (3 + 2 * i)))
  | 2 => some (fmt16.unpack (byte (2 + 2 * i) + 256 * byte (3 + 2 * i)))
  | 3 => some (fmtE4m3.unpack (byte (2 + i)))
  | 4 => some (fmtE5m2.unpack (byte (2 + i)))
  | 5 => if byte (2 + i) = 0x80 then none else some (fpOfInt (toSigned 8 (byte (2 + i))))
  | 6 =>
    let v := byte (2 + i / 2) / (if i % 2 = 0 then 1 else 16) % 16
    if v = 8 then none else some (fpOfInt (toSigned 4 v))
  | 7 => some (fmt32.unpack (leNat ((bs.drop (2 + 4 * i)).take 4)))
  | _ => some (.nan false)

/-- Side-list entry j (R34); beyond the third, 0 (R36). -/
def blkSide (bs : List Byte) (j : Nat) : Fp :=
  if j < 3 then fmtBf16.unpack (leNat ((bs.drop (58 + 2 * j)).take 2)) else .fin false 0 0

/-- The d of R36 of elements i, i+1, …, `n` of them, `j` markers seen before. -/
def blkRaw (code : Nat) (bs : List Byte) : Nat → Nat → Nat → List Fp
  | 0, _, _ => []
  | n + 1, i, j =>
    match blkElem code bs i with
    | some x => x.quiet :: blkRaw code bs n (i + 1) j
    | none => (blkSide bs j).quiet :: blkRaw code bs n (i + 1) (j + 1)

def blkCode (bs : List Byte) : Nat := (bs.getD 0 0).toNat
def blkScale (bs : List Byte) : Nat := (bs.getD 1 0).toNat

/-- The decoded elements of a block of its own format (R36). -/
def blkDecode (code : Nat) (bs : List Byte) : List Fp :=
  let sc := blkScale bs
  if sc = 255 then List.replicate (blkCount code) (.nan false)
  else (blkRaw code bs (blkCount code) 0 0).map (Fp.scale2 ((sc : Int) - 127))

/-- A block within a run of format `code` (R35). -/
def blkInRun (code : Nat) (bs : List Byte) : List Fp :=
  if blkCode bs = code then blkDecode code bs
  else if blkCode bs = 0 then List.replicate (blkCount code) (.fin false 0 0)
  else List.replicate (blkCount code) (.nan false)

/-- The run's format: that of its first block with a code 0x01 to 0x07 (R35). -/
def runFormat (blocks : List (List Byte)) : Option Nat :=
  (blocks.map blkCode).find? (fun c => 1 ≤ c && c ≤ 7)

end Sys2Proof.Machine
end

