-- ==== Sys2Proof/Machine/Operands.lean ====
section
/-! DEFINITION. Operand forms: sub-elements of a bead (R61), literals (R60), and which register each field of an instruction
reads (R89, R117). -/

namespace Sys2Proof
open Machine

/-! ### Types (R61) -/

/-- The floating-point format of a type's sub-elements (R61). -/
def Ty.fmt : Ty → Option Fmt
  | .f32 | .f32x2 => some fmt32
  | .f64 => some fmt64
  | .f16x4 => some fmt16
  | .bf16x4 => some fmtBf16
  | .e4m3x8 => some fmtE4m3
  | .e5m2x8 => some fmtE5m2
  | _ => none

/-- Is a type's integer signed (R92, R101)? -/
def Ty.signed : Ty → Bool
  | .s32 | .s64 | .s16x4 | .s8x8 | .n4x16 => true
  | _ => false

/-- A sub-element as an integer: two's complement for the signed types. -/
def Ty.int (ty : Ty) (x : Nat) : Int := if ty.signed then toSigned ty.width x else (x : Int)

end Sys2Proof

namespace Sys2Proof.Machine

/-! ### Sub-elements (R61, R90) -/



/-- Sub-element i of a bead in type ty: sub(x, type, i). -/
def sub (ty : Ty) (x : Word) (i : Nat) : Nat := x.toNat / 2 ^ (ty.width * i) % 2 ^ ty.width

/-- The bead whose sub-elements, from number 0, are given; the rest is zero. -/
def packAt (w : Nat) : List Nat → Nat
  | [] => 0
  | v :: vs => v % 2 ^ w + 2 ^ w * packAt w vs

def packSub (ty : Ty) (vs : List Nat) : Word := BitVec.ofNat 64 (packAt ty.width vs)

/-- All sub-elements of a bead. -/
def subs (ty : Ty) (x : Word) : List Nat := (List.range ty.count).map (sub ty x)

/-- Sub-element i replaced. -/
def setSub (ty : Ty) (x : Word) (i v : Nat) : Word :=
  packSub ty ((List.range ty.count).map fun k => if k = i then v else sub ty x k)

/-- Apply a function to each sub-element of one, two or three beads. -/
def map1 (ty : Ty) (f : Nat → Nat) (a : Word) : Word := packSub ty ((subs ty a).map f)
def map2 (ty : Ty) (f : Nat → Nat → Nat) (a b : Word) : Word :=
  packSub ty ((List.range ty.count).map fun i => f (sub ty a i) (sub ty b i))
def map3 (ty : Ty) (f : Nat → Nat → Nat → Nat) (a b c : Word) : Word :=
  packSub ty ((List.range ty.count).map fun i => f (sub ty a i) (sub ty b i) (sub ty c i))

/-- Operand B of an X form (R60). A signalling binary32 literal of type .f64 is the canonical NaN, and widening it sets no flag. DESIGN CHOICE, log
entry 111. -/
def litValue (ty : Ty) (v : W32) : Word :=
  match ty with
  | .b32 | .s32 | .z32 | .f32 | .z64 => v.setWidth 64
  | .s64 | .b64 => v.signExtend 64
  | .f64 => BitVec.ofNat 64 (fmt64.ofFp .ne (fmt32.unpack v.toNat)).bits
  | _ => packSub ty (List.replicate ty.count v.toNat)

/-! ### Which register each field reads -/

/-- A source: nothing, a register, or a value that decode supplies. -/
inductive Src where
  | none
  | reg (r : Reg)
  | const (v : Word)
  deriving DecidableEq, Repr

/-- The operands A, B, C and the value read through d (R117's OPA to OPD). -/
structure Srcs where
  a : Src := .none
  b : Src := .none
  c : Src := .none
  d : Src := .none
  deriving DecidableEq, Repr

/-- The names of the four operands. -/
inductive Slot where
  | a | b | c | d
  deriving DecidableEq, Repr

def Srcs.get (x : Srcs) : Slot → Src
  | .a => x.a | .b => x.b | .c => x.c | .d => x.d

end Sys2Proof.Machine

namespace Sys2Proof
open Machine

def Opnd.src (ty : Ty) : Opnd → Src
  | .reg r => .reg r
  | .lit v => .const (litValue ty v)

/-- Sources of a memory operand: the literal of an X form is sign-extended (R146). -/
def Addr.srcs (m : Addr) : Srcs := { a := .reg m.a, b := m.idx.src .b64 }

/-- The literal of MOVSW, EXPECT, RESUME and PERFORM is zero-extended (R104, R178, R181). -/
def Opnd.srcZ (o : Opnd) : Src := o.src .z64

end Sys2Proof

namespace Sys2Proof.Machine

/-- A conversion reads its destination only for the elements that it keeps: not one that its group writes whole (R130, R134). -/
def keptDest (dst src : Ty) (d : Reg) : Src := if dst.count ≤ src.count then .none else .reg d

/-- The sources of every instruction; runs of registers are named by their first one (R117). -/
def srcsOf : Instr → Srcs
  | .movS _ a | .retS a => { a := .reg a }
  | .iaddS _ a b | .isubS _ a b | .andS _ a b | .orS _ a b | .xorS _ a b | .shlS _ a b | .shrS _ a b | .imulS _ a b
  | .faddF32S _ a b | .fmulF32S _ a b | .faddF32x2S _ a b | .fmulF32x2S _ a b | .faddBf16x4S _ a b | .fmulBf16x4S _ a b
  | .ldB64S _ a b => { a := .reg a, b := .reg b }
  | .stB64S d a b => { a := .reg a, b := .reg b, d := .reg d }
  | .iaddImmS _ a imm => { a := .reg a, b := .const (imm.signExtend 64) }
  | .shlImmS _ a imm | .shrImmS _ a imm => { a := .reg a, b := .const (imm.setWidth 64) }
  | .mov _ _ _ a | .ineg _ _ _ a | .iabs _ _ _ a | .not _ _ _ a | .popc _ _ _ a | .clz _ _ _ a | .ctz _ _ _ a
  | .brev _ _ _ a | .frnd _ _ _ _ a | .fclass _ _ _ a | .fsqrt _ _ _ _ a | .frcp _ _ _ a | .frsq _ _ _ a
  | .fexp2 _ _ _ a | .flog2 _ _ _ a | .fsin _ _ _ a | .fcos _ _ _ a | .ftanh _ _ _ a | .fsigm _ _ _ a
  | .olunpk _ _ _ a | .blkhdr _ _ _ _ a | .pack _ _ a | .unpack _ _ a | .ret _ a | .wtime _ _ a | .rqrd _ _ a _
  | .shfli _ _ _ _ _ a _ _ | .bcast _ _ _ a _ | .redux _ _ _ _ _ a | .scanx _ _ _ _ _ a | .matchv _ _ _ a _
  | .slook _ _ a | .arrive _ _ a | .bdrop _ a | .hpop _ a | .drop _ a | .tokst _ _ a | .cclose _ a | .ctake _ _ _ a
  | .cdone _ a | .mldw _ _ a | .mpass _ _ _ _ _ _ a | .msta _ _ a _ | .bkmv _ a | .bkgth _ a | .bkst _ _ a =>
    { a := .reg a }
  | .movi _ ty _ v => { b := .const (litValue ty v) }
  | .sel _ ty _ a b _ | .iadd _ ty _ a b | .isub _ ty _ a b | .iaddc _ ty _ a b _ _ | .isubb _ ty _ a b _ _
  | .imul _ ty _ a b | .imulh _ ty _ a b | .idiv _ ty _ a b | .irem _ ty _ a b | .imin _ ty _ a b | .imax _ ty _ a b
  | .iadds _ ty _ a b | .isubs _ ty _ a b | .and _ ty _ a b | .or _ ty _ a b | .xor _ ty _ a b | .andn _ ty _ a b
  | .shl _ ty _ a b | .shr _ ty _ a b | .sar _ ty _ a b | .rot _ ty _ a b _ | .bfe _ ty _ a b
  | .setp _ ty _ _ _ a b _ | .fadd _ ty _ _ a b | .fsub _ ty _ _ a b | .fmul _ ty _ _ a b | .fmin _ ty _ a b
  | .fmax _ ty _ a b | .fsetp _ ty _ _ _ a b _ | .fdiv _ ty _ _ a b => { a := .reg a, b := b.src ty }
  | .lea _ _ a b _ | .brx _ a b | .callx _ _ a b => { a := .reg a, b := b.src .b64 }
  | .imad _ ty _ a b c | .bfi _ ty _ a b c | .ffma _ ty _ _ a b c => { a := .reg a, b := b.src ty, c := .reg c }
  | .bperm _ _ a b c => { a := .reg a, b := b.src .b64, c := .reg c }
  | .pmov _ (.fromReg a _) => { a := .reg a }
  | .movsw _ _ o => { a := o.srcZ }
  | .rqwr _ a b _ | .cbsync _ a b | .tlbinv _ a b | .stag _ a b | .bwait _ a b | .btest _ _ a b | .cappend _ a b
  | .cquiet _ a b | .fscale _ _ _ _ a b | .cpy _ _ a b | .cpyg _ _ a b => { a := .reg a, b := .reg b }
  | .fdot _ _ _ _ a b c | .barinit _ a b c | .bwaitTo _ _ a b c => { a := .reg a, b := .reg b, c := .reg c }
  | .cvt _ dst src _ _ _ d a => { a := .reg a, d := keptDest dst src d }
  | .cvtq _ dst src _ _ _ d a b => { a := .reg a, b := .reg b, d := keptDest dst src d }
  | .olpack _ _ _ _ _ d a b c => { a := .reg a, b := .reg b, c := .reg c, d := .reg d }
  | .dq _ _ _ _ _ a b c => { a := .reg a, b := .reg b, c := .reg c }
  | .shfl _ _ _ _ _ a b _ => { a := .reg a, b := .reg b }
  | .ld _ _ _ _ _ _ m | .ldk _ _ m | .ldsib _ _ _ m | .rcn _ _ _ _ m | .pref _ _ _ m => m.srcs
  | .st _ _ _ _ d m => { m.srcs with d := .reg d }
  | .stk _ d m c => { m.srcs with c := .reg c, d := .reg d }
  | .atom _ _ _ _ _ m c | .red _ _ _ _ m c | .acas _ _ _ _ m c => { m.srcs with c := .reg c }
  | .expect _ a b => { a := .reg a, b := b.srcZ }
  | .hpush _ multi _ a d c _ _ => { a := .reg a, c := if multi then .reg c else .none, d := .reg d }
  | .perform _ _ b a => { a := .reg a, b := b.srcZ }
  | .resume _ a b | .resumem _ a b => { a := .reg a, b := b.srcZ }
  | _ => {}

/-! ### Which registers an instruction writes -/

/-- A run of registers (R59). -/
def regRun (d : Reg) (n : Nat) : List Reg := (List.range n).map fun k => d + BitVec.ofNat 8 k

/-- The general registers an instruction writes in its threads, at once or when its operation completes. -/
def destsOf : Instr → List Reg
  | .movS d _ | .iaddS d _ _ | .isubS d _ _ | .andS d _ _ | .orS d _ _ | .xorS d _ _ | .shlS d _ _ | .shrS d _ _
  | .imulS d _ _ | .faddF32S d _ _ | .fmulF32S d _ _ | .faddF32x2S d _ _ | .fmulF32x2S d _ _ | .faddBf16x4S d _ _
  | .fmulBf16x4S d _ _ | .iaddImmS d _ _ | .shlImmS d _ _ | .shrImmS d _ _ | .ldB64S d _ _ => [d]
  | .mov _ _ d _ | .movi _ _ d _ | .sel _ _ d _ _ _ | .iadd _ _ d _ _ | .isub _ _ d _ _ | .iaddc _ _ d _ _ _ _
  | .isubb _ _ d _ _ _ _ | .imul _ _ d _ _ | .imulh _ _ d _ _ | .imad _ _ d _ _ _ | .idiv _ _ d _ _ | .irem _ _ d _ _
  | .ineg _ _ d _ | .iabs _ _ d _ | .imin _ _ d _ _ | .imax _ _ d _ _ | .iadds _ _ d _ _ | .isubs _ _ d _ _
  | .lea _ d _ _ _ | .and _ _ d _ _ | .or _ _ d _ _ | .xor _ _ d _ _ | .andn _ _ d _ _ | .not _ _ d _ | .shl _ _ d _ _
  | .shr _ _ d _ _ | .sar _ _ d _ _ | .rot _ _ d _ _ _ | .bfe _ _ d _ _ | .bfi _ _ d _ _ _ | .popc _ _ d _
  | .clz _ _ d _ | .ctz _ _ d _ | .brev _ _ d _ | .bperm _ d _ _ _ | .movs _ d _ | .call _ d _ | .callx _ d _ _
  | .wtime _ d _ | .rqrd _ d _ _ | .fadd _ _ _ d _ _ | .fsub _ _ _ d _ _ | .fmul _ _ _ d _ _ | .ffma _ _ _ d _ _ _
  | .fmin _ _ d _ _ | .fmax _ _ d _ _ | .frnd _ _ _ d _ | .fscale _ _ _ d _ _ | .fclass _ _ d _ | .fdot _ _ _ d _ _ _
  | .fdiv _ _ _ d _ _ | .fsqrt _ _ _ d _ | .frcp _ _ d _ | .frsq _ _ d _ | .fexp2 _ _ d _ | .flog2 _ _ d _
  | .fsin _ _ d _ | .fcos _ _ d _ | .ftanh _ _ d _ | .fsigm _ _ d _ | .cvt _ _ _ _ _ _ d _ | .olpack _ _ _ _ _ d _ _ _
  | .olunpk _ _ d _ | .blkhdr _ _ _ d _ | .dq _ _ _ _ d _ _ _ | .shfl _ _ _ _ d _ _ _ | .shfli _ _ _ _ d _ _ _
  | .bcast _ _ d _ _ | .redux _ _ _ _ d _ | .scanx _ _ _ _ d _ | .matchv _ _ d _ _ | .atom _ _ _ _ d _ _
  | .acas _ _ _ d _ _ | .slook _ d _ | .arrive _ d _ | .tokst _ d _ | .rstat _ d _ | .ctake _ d _ _ | .bkst _ d _ => [d]
  | .pmov _ (.toReg d) => [d]
  | .vote _ mode _ d _ => if mode = .ballot then [d] else []
  | .cvtq _ _ _ _ _ _ d _ _ | .ldk _ d _ | .rcn _ _ _ d _ => regRun d 2
  | .pack _ d _ | .unpack _ d _ => regRun d 8
  | .ld _ _ w _ _ d _ => regRun d w.regs
  | .ldsib _ n d _ => regRun d (2 * (n.toNat + 1) + 1)
  | .mmov _ _ n d _ _ => regRun d (2 ^ n.toNat)
  | _ => []

/-- Further registers of the runs an instruction reads: beyond the first bead named by its field (R59). -/
def extraSrcs : Instr → List Reg
  | .cvtq _ _ _ _ _ _ d _ _ => [d + 1]
  | .pack _ _ a | .unpack _ _ a => (regRun a 8).drop 1
  | .st _ _ w _ d _ => (regRun d w.regs).drop 1
  | .acas _ _ _ _ _ c => [c + 1]
  | _ => []

/-- The guard of an instruction; the S forms execute always (R54, R58). -/
def guardOf : Instr → Guard
  | .mov g _ _ _ | .movi g _ _ _ | .sel g _ _ _ _ _ | .iadd g _ _ _ _ | .isub g _ _ _ _ | .iaddc g _ _ _ _ _ _
  | .isubb g _ _ _ _ _ _ | .imul g _ _ _ _ | .imulh g _ _ _ _ | .imad g _ _ _ _ _ | .idiv g _ _ _ _ | .irem g _ _ _ _
  | .ineg g _ _ _ | .iabs g _ _ _ | .imin g _ _ _ _ | .imax g _ _ _ _ | .iadds g _ _ _ _ | .isubs g _ _ _ _
  | .lea g _ _ _ _ | .and g _ _ _ _ | .or g _ _ _ _ | .xor g _ _ _ _ | .andn g _ _ _ _ | .not g _ _ _ | .shl g _ _ _ _
  | .shr g _ _ _ _ | .sar g _ _ _ _ | .rot g _ _ _ _ _ | .bfe g _ _ _ _ | .bfi g _ _ _ _ _ | .popc g _ _ _
  | .clz g _ _ _ | .ctz g _ _ _ | .brev g _ _ _ | .bperm g _ _ _ _ | .setp g _ _ _ _ _ _ _ | .plop g _ _ _ _ _
  | .pmov g _ | .movs g _ _ | .movsw g _ _ | .bra g _ | .brx g _ _ | .call g _ _ | .callx g _ _ _ | .ret g _ | .exit g
  | .exitSaved g | .yield g | .wait g _ _ _ _ _ | .wtime g _ _ | .trap g _ | .brk g _ | .rtt g | .rqrd g _ _ _
  | .rqwr g _ _ _ | .cbsync g _ _ | .tlbinv g _ _ | .nop g | .fadd g _ _ _ _ _ | .fsub g _ _ _ _ _ | .fmul g _ _ _ _ _
  | .ffma g _ _ _ _ _ _ | .fmin g _ _ _ _ | .fmax g _ _ _ _ | .fsetp g _ _ _ _ _ _ _ | .frnd g _ _ _ _
  | .fscale g _ _ _ _ _ | .fclass g _ _ _ | .fdot g _ _ _ _ _ _ | .fdiv g _ _ _ _ _ | .fsqrt g _ _ _ _ | .frcp g _ _ _
  | .frsq g _ _ _ | .fexp2 g _ _ _ | .flog2 g _ _ _ | .fsin g _ _ _ | .fcos g _ _ _ | .ftanh g _ _ _ | .fsigm g _ _ _
  | .cvt g _ _ _ _ _ _ _ | .cvtq g _ _ _ _ _ _ _ _ | .olpack g _ _ _ _ _ _ _ _ | .olunpk g _ _ _ | .blkhdr g _ _ _ _
  | .dq g _ _ _ _ _ _ _ | .pack g _ _ | .unpack g _ _ | .shfl g _ _ _ _ _ _ _ | .shfli g _ _ _ _ _ _ _
  | .bcast g _ _ _ _ | .vote g _ _ _ _ | .redux g _ _ _ _ _ | .scanx g _ _ _ _ _ | .matchv g _ _ _ _ | .lser g | .lsend g
  | .ld g _ _ _ _ _ _ | .st g _ _ _ _ _ | .ldk g _ _ | .stk g _ _ _ | .ldsib g _ _ _ | .rcn g _ _ _ _ | .pref g _ _ _
  | .atom g _ _ _ _ _ _ | .red g _ _ _ _ _ | .acas g _ _ _ _ _ | .slook g _ _ | .stag g _ _ | .cpy g _ _ _
  | .cpyg g _ _ _ | .fence g _ _ _ | .ofence g | .barinit g _ _ _ | .arrive g _ _ | .expect g _ _ | .bwait g _ _
  | .bwaitTo g _ _ _ _ | .btest g _ _ _ | .bdrop g _ | .hpush g _ _ _ _ _ _ _ | .hpop g _ | .perform g _ _ _
  | .resume g _ _ | .resumem g _ _ | .drop g _ | .tokst g _ _ | .rcp g _ _ _ _ _ _ | .rend g | .rmat g _ | .rdrop g _
  | .rdropKill g _ | .rstat g _ _ | .cclose g _ | .cappend g _ _ | .ctake g _ _ _ | .cdone g _ | .cquiet g _ _
  | .mldw g _ _ | .mswap g _ | .mpass g _ _ _ _ _ _ | .mzero g _ _ | .mmov g _ _ _ _ _ | .msta g _ _ _ | .bkmv g _
  | .bkgth g _ | .bkst g _ _ => g
  | _ => ⟨7, false⟩

end Sys2Proof.Machine
end

