-- ==== Sys2Proof/Machine/Values.lean ====
section
/-! DEFINITION. What one thread computes: the value of each arithmetic, logic, floating-point and conversion instruction as a
function of its operands (spec/06 R92 to R103, spec/07 R123 to R137). A recipe's slice and an issued instruction use the same
functions (R222). -/

namespace Sys2Proof.Machine

/-- What a lane reads: operands A, B, C, the value read through d, further registers of runs, predicates p6 to p0, %fpc, %olth. -/
structure LaneIn where
  a : Word := 0
  b : Word := 0
  c : Word := 0
  d : Word := 0
  x : List Word := []
  preds : BitVec 7 := 0
  fpc : Word := 1
  olth : Word := 0x7F800000
  deriving DecidableEq, Repr

/-- What a lane writes: registers, predicates, sticky flags. -/
structure LaneOut where
  regs : List (Reg × Word) := []
  preds : List (Pred × Bool) := []
  fl : FlagSet := 0
  deriving DecidableEq, Repr

/-- p7 reads true (R76). -/
def predOf7 (ps : BitVec 7) (p : Pred) : Bool := p == 7 || ps.getLsbD p.toNat

/-! ### Integers (R92 to R100) -/

/-- An integer modulo 2^w. -/
def wrap (w : Nat) (k : Int) : Nat := (k % (2 ^ w : Nat)).toNat

/-- MOV, MOVI and SEL copy bits: 32-bit types the low half (R90). -/
def valMov (ty : Ty) (a : Word) : Word := if ty.count * ty.width = 32 then (a.setWidth 32).setWidth 64 else a

def valIadd (ty : Ty) (a b : Word) : Word := map2 ty (fun x y => wrap ty.width ((x : Int) + y)) a b
def valIsub (ty : Ty) (a b : Word) : Word := map2 ty (fun x y => wrap ty.width ((x : Int) - y)) a b
def valImul (ty : Ty) (a b : Word) : Word := map2 ty (fun x y => wrap ty.width ((x : Int) * y)) a b
def valImad (ty : Ty) (a b c : Word) : Word := map3 ty (fun x y z => wrap ty.width ((x : Int) * y + z)) a b c
def valImulh (ty : Ty) (a b : Word) : Word :=
  map2 ty (fun x y => wrap ty.width (ty.int x * ty.int y / (2 ^ ty.width : Nat))) a b
def valIneg (ty : Ty) (a : Word) : Word := map1 ty (fun x => wrap ty.width (-ty.int x)) a
def valIabs (ty : Ty) (a : Word) : Word := map1 ty (fun x => wrap ty.width (ty.int x).natAbs) a
def valImin (ty : Ty) (a b : Word) : Word := map2 ty (fun x y => if ty.int x ≤ ty.int y then x else y) a b
def valImax (ty : Ty) (a b : Word) : Word := map2 ty (fun x y => if ty.int x ≤ ty.int y then y else x) a b

/-- Least and greatest value of an integer type (R95). -/
def Ty.lo (ty : Ty) : Int := if ty.signed then -(2 ^ (ty.width - 1) : Nat) else 0
def Ty.hi (ty : Ty) : Int := if ty.signed then (2 ^ (ty.width - 1) : Nat) - 1 else (2 ^ ty.width : Nat) - 1

def clampInt (lo hi k : Int) : Int := if k < lo then lo else if hi < k then hi else k

/-- Sat(x) (R95). -/
def satInt (ty : Ty) (k : Int) : Nat := wrap ty.width (clampInt (Ty.lo ty) (Ty.hi ty) k)

def valIadds (ty : Ty) (a b : Word) : Word := map2 ty (fun x y => satInt ty (ty.int x + ty.int y)) a b
def valIsubs (ty : Ty) (a b : Word) : Word := map2 ty (fun x y => satInt ty (ty.int x - ty.int y)) a b

/-- Quotient and remainder (R94). -/
def divRem (ty : Ty) (x y : Nat) : Nat × Nat :=
  let w := ty.width
  if y = 0 then (2 ^ w - 1, x)
  else (wrap w (Int.tdiv (ty.int x) (ty.int y)), wrap w (Int.tmod (ty.int x) (ty.int y)))

def valIdiv (ty : Ty) (a b : Word) : Word := map2 ty (fun x y => (divRem ty x y).1) a b
def valIrem (ty : Ty) (a b : Word) : Word := map2 ty (fun x y => (divRem ty x y).2) a b

/-- IADDC: sum and carry (R93). -/
def valIaddc (ty : Ty) (a b : Word) (cin : Bool) : Word × Bool :=
  let s := sub ty a 0 + sub ty b 0 + cin.toNat
  (packSub ty [s], 2 ^ ty.width ≤ s)
/-- ISUBB: difference and borrow (R93). -/
def valIsubb (ty : Ty) (a b : Word) (cin : Bool) : Word × Bool :=
  let s : Int := (sub ty a 0 : Int) - sub ty b 0 - cin.toNat
  (packSub ty [wrap ty.width s], s < 0)

def valLea (a b : Word) (sh : BitVec 6) : Word := a + BitVec.ofNat 64 (b.toNat * 2 ^ sh.toNat)

def valAnd (ty : Ty) (a b : Word) : Word := valMov ty (a &&& b)
def valOr (ty : Ty) (a b : Word) : Word := valMov ty (a ||| b)
def valXor (ty : Ty) (a b : Word) : Word := valMov ty (a ^^^ b)
def valAndn (ty : Ty) (a b : Word) : Word := valMov ty (a &&& ~~~b)
def valNot (ty : Ty) (a : Word) : Word := valMov ty (~~~a)

/-- Shifts (R98): the amount is the whole operand of the type's width. -/
def valShl (ty : Ty) (a b : Word) : Word :=
  map2 ty (fun x n => if ty.width ≤ n then 0 else wrap ty.width (x * 2 ^ n : Nat)) a b
def valShr (ty : Ty) (a b : Word) : Word := map2 ty (fun x n => if ty.width ≤ n then 0 else x / 2 ^ n) a b
def valSar (ty : Ty) (a b : Word) : Word :=
  map2 ty (fun x n => wrap ty.width (toSigned ty.width x / (2 ^ (min n (ty.width - 1)) : Nat))) a b
def valRot (ty : Ty) (a b : Word) (right : Bool) : Word :=
  map2 ty (fun x n =>
    let w := ty.width
    let k := if right then (w - n % w) % w else n % w
    (x * 2 ^ k + x / 2 ^ (w - k)) % 2 ^ w) a b

/-- pos and len of a control word (R99). -/
def fieldOf (w b : Nat) : Nat × Nat :=
  let pos := b % 256
  let len := b / 256 % 256
  (pos, if w ≤ pos then 0 else min len (w - pos))

def valBfe (ty : Ty) (a b : Word) : Word :=
  map2 ty (fun x c =>
    let (pos, len) := fieldOf ty.width c
    if len = 0 then 0
    else
      let f := x / 2 ^ pos % 2 ^ len
      if ty.signed then wrap ty.width (toSigned len f) else f) a b
def valBfi (ty : Ty) (a b c : Word) : Word :=
  map3 ty (fun x k z =>
    let (pos, len) := fieldOf ty.width k
    z - z / 2 ^ pos % 2 ^ len * 2 ^ pos + x % 2 ^ len * 2 ^ pos) a b c

def valPopc (ty : Ty) (a : Word) : Word := map1 ty (popcount ty.width) a
def valClz (ty : Ty) (a : Word) : Word := map1 ty (fun x => ty.width - bitLen x) a
/-- Trailing zeros of x among w bits. -/
def ctzGo : Nat → Nat → Nat
  | 0, _ => 0
  | w + 1, x => if x % 2 = 1 then 0 else ctzGo w (x / 2) + 1
def valCtz (ty : Ty) (a : Word) : Word := map1 ty (ctzGo ty.width) a
/-- The low w bits of x in reverse order. -/
def brevGo : Nat → Nat → Nat → Nat
  | 0, _, r => r
  | w + 1, x, r => brevGo w (x / 2) (2 * r + x % 2)
def valBrev (ty : Ty) (a : Word) : Word := map1 ty (fun x => brevGo ty.width x 0) a

/-- BPERM (R100). -/
def valBperm (a b c : Word) : Word :=
  let src := a.toNat + 2 ^ 64 * c.toNat
  BitVec.ofNat 64 (packAt 8 ((List.range 8).map fun i => src / 2 ^ (8 * (b.toNat / 2 ^ (4 * i) % 16)) % 256))

/-! ### Comparisons and predicates (R101 to R103) -/

def icmp (ty : Ty) (c : ICmp) (a b : Word) : Bool :=
  let x := ty.int (sub ty a 0)
  let y := ty.int (sub ty b 0)
  match c with
  | .eq => x = y | .ne => x ≠ y | .lt => x < y | .le => x ≤ y | .gt => y < x | .ge => y ≤ x

def combine (c : Comb) (r p : Bool) : Bool :=
  match c with
  | .plain => r | .and => r && p | .or => r || p | .xor => r != p

/-- PLOP's table (R102). -/
def plopBit (lut : BitVec 8) (pa pb pc : Bool) : Bool := lut.getLsbD (4 * pa.toNat + 2 * pb.toNat + pc.toNat)

/-- PMOV to a register: bit 7 is p7, which is 1 (R103). -/
def pmovWord (ps : BitVec 7) : Word := BitVec.ofNat 64 (128 + ps.toNat)

/-- PMOV from a register: the predicates that the mask names (R103). -/
def pmovPreds (a : Word) (mask : BitVec 7) : List (Pred × Bool) :=
  ((List.range 7).filter mask.getLsbD).map fun i => (BitVec.ofNat 3 i, a.getLsbD i)

/-! ### Floating point (R123 to R128) -/

/-- A packed floating-point result: sub-elements packed, flags united (R121). -/
def packF (ty : Ty) (rs : List FRes) : Word × FlagSet :=
  (packSub ty (rs.map (·.bits)), rs.foldl (fun f r => f ||| r.fl) 0)

def Ty.fm (ty : Ty) : Fmt := (Ty.fmt ty).getD fmt32

def fmap1 (ty : Ty) (f : Fmt → Nat → FRes) (a : Word) : Word × FlagSet := packF ty ((subs ty a).map (f (Ty.fm ty)))
def fmap2 (ty : Ty) (f : Fmt → Nat → Nat → FRes) (a b : Word) : Word × FlagSet :=
  packF ty ((List.range ty.count).map fun i => f (Ty.fm ty) (sub ty a i) (sub ty b i))
def fmap3 (ty : Ty) (f : Fmt → Nat → Nat → Nat → FRes) (a b c : Word) : Word × FlagSet :=
  packF ty ((List.range ty.count).map fun i => f (Ty.fm ty) (sub ty a i) (sub ty b i) (sub ty c i))

def valFadd (ty : Ty) (md : RM) (a b : Word) := fmap2 ty (fun f => f.add md) a b
def valFsub (ty : Ty) (md : RM) (a b : Word) := fmap2 ty (fun f => f.sub md) a b
def valFmul (ty : Ty) (md : RM) (a b : Word) := fmap2 ty (fun f => f.mul md) a b
def valFfma (ty : Ty) (md : RM) (a b c : Word) := fmap3 ty (fun f => f.fma md) a b c
def valFdiv (ty : Ty) (md : RM) (a b : Word) := fmap2 ty (fun f => f.div md) a b
def valFmin (ty : Ty) (a b : Word) := fmap2 ty (fun f => f.minmax false) a b
def valFmax (ty : Ty) (a b : Word) := fmap2 ty (fun f => f.minmax true) a b
def valFsqrt (ty : Ty) (md : RM) (a : Word) := fmap1 ty (fun f => f.sqrt md) a

/-- FRND of one sub-element (R125). -/
def frndOne (md : RM) (f : Fmt) (x : Nat) : FRes :=
  match f.unpack x with
  | .nan s => ⟨f.nan, flagIf s flNV⟩
  | .inf _ => ⟨x, 0⟩
  | .fin n m e =>
    if m = 0 then ⟨x, 0⟩
    else
      let (k, ix) := Fp.toInt md n m e
      ⟨(f.round md n k.natAbs 0).bits, flagIf ix flNX⟩
def valFrnd (ty : Ty) (md : RM) (a : Word) := fmap1 ty (frndOne md) a

/-- FSCALE of one sub-element (R127). -/
def fscaleOne (md : RM) (k : Int) (f : Fmt) (x : Nat) : FRes :=
  match f.unpack x with
  | .nan s => ⟨f.nan, flagIf s flNV⟩
  | .inf _ => ⟨x, 0⟩
  | .fin n m e => if m = 0 then ⟨x, 0⟩ else f.round md n m (e + clampInt (-8192) 8192 k)
def valFscale (ty : Ty) (md : RM) (a b : Word) := fmap1 ty (fscaleOne md (toSigned 32 b.toNat)) a

/-- FCLASS (R126). -/
def valFclass (ty : Ty) (a : Word) : Word :=
  let f := Ty.fm ty
  let x := sub ty a 0
  let k := match f.unpack x with
    | .nan s => if s then 0 else 1
    | .inf n => if n then 2 else 9
    | .fin n m _ =>
      if m = 0 then (if n then 5 else 6)
      else if m < 2 ^ f.fbits then (if n then 4 else 7)
      else if n then 3 else 8
  BitVec.ofNat 64 (2 ^ k)

/-- A special function of each sub-element: for 16-bit formats the binary32 result rounded once (R41). -/
def sfuOne (fn : Sfu) (f : Fmt) (x : Nat) : FRes :=
  if f = fmt32 then sfu32 fn (BitVec.ofNat 32 x)
  else
    let y := fmt32.ofFp .ne (f.unpack x)
    let r := sfu32 fn (BitVec.ofNat 32 y.bits)
    let z := f.ofFp .ne (fmt32.unpack r.bits)
    ⟨z.bits, y.fl ||| r.fl ||| z.fl⟩
def valSfu (fn : Sfu) (ty : Ty) (a : Word) := fmap1 ty (sfuOne fn) a

/-- FDOT (R128): exact sum of products and C, one rounding to binary32. DEDUCED, log entry 29. -/
def valFdot (ty : Ty) (md : RM) (a b c : Word) : Word × FlagSet :=
  let f := Ty.fm ty
  let cv := fmt32.unpack (c.toNat % 2 ^ 32)
  let ps := (List.range ty.count).map fun i => (f.unpack (sub ty a i), f.unpack (sub ty b i))
  let acc := ps.foldl (fun s p => s.add (mulFp p.1 p.2)) (Acc.zero.add (cv, cv.isSnan))
  let r := fmt32.deliver md (acc.value md)
  (BitVec.ofNat 64 r.bits, r.fl)

/-! ### Conversion (R129, R130, R32) -/

/-- A source element as an exact value; integers and N4's code 1000 as R22 and R23 say. -/
def convSrc (ty : Ty) (x : Nat) : Fp :=
  match Ty.fmt ty with
  | some f => f.unpack x
  | none => if ty = .n4x16 ∧ x = 8 then .fin false 0 0 else fpOfInt (ty.int x)

/-- Integer ranges of R32: S8 and N4 have no most negative code. -/
def convLo (ty : Ty) : Int := if ty = .s8x8 then -127 else if ty = .n4x16 then -7 else Ty.lo ty

/-- Round into a format with SATF (R129). -/
def Fmt.ofFpSat (f : Fmt) (md : RM) (satf : Bool) (v : Fp) : FRes :=
  if satf && f.hasInf then
    match v with
    | .inf n => ⟨f.sign n + f.maxCode, 0⟩
    | .fin n m e =>
      let r := f.round md n m e
      if r.fl &&& flOF ≠ 0 then ⟨f.sign n + f.maxCode, flOF ||| flNX⟩ else r
    | .nan _ => f.ofFp md v
  else f.ofFp md v

/-- One element's conversion (R32, R129). -/
def convOne (dst src : Ty) (md : RM) (satf : Bool) (x : Nat) : FRes :=
  let v := convSrc src x
  match Ty.fmt dst with
  | some f => Fmt.ofFpSat f md satf v
  | none =>
    let (k, fl) := toIntSat md (convLo dst) (Ty.hi dst) v
    ⟨wrap dst.width k, if (Ty.fmt src).isSome then fl else 0⟩

/-- Matched pairs (source j, destination k) of a group (R130). -/
def groupPairs (dst src : Ty) (h : BitVec 4) : List (Nat × Nat) :=
  let ns := src.count
  let nd := dst.count
  if nd ≤ ns then (List.range nd).map fun j => (nd * h.toNat + j, j)
  else (List.range ns).map fun j => (j, ns * h.toNat + j)

/-- Replace the sub-elements at the given positions; a destination of count 1 is written whole (R130). -/
def putSubs (ty : Ty) (old : Word) (vs : List (Nat × Nat)) : Word :=
  packSub ty ((List.range ty.count).map fun k => ((vs.find? (·.1 == k)).map (·.2)).getD (sub ty old k))

def valCvt (dst src : Ty) (md : RM) (satf : Bool) (h : BitVec 4) (old a : Word) : Word × FlagSet :=
  let rs := (groupPairs dst src h).map fun (j, k) => (k, convOne dst src md satf (sub src a j))
  (putSubs dst old (rs.map fun (k, r) => (k, r.bits)), rs.foldl (fun f r => f ||| r.2.fl) 0)

/-! ### Blocks in registers (R131 to R137) -/

/-- |x| > T, exactly; false for a NaN (R134). -/
def absAbove (x t : Fp) : Bool :=
  match x, t with
  | .nan _, _ | _, .nan _ => false
  | _, .inf true => true
  | .inf _, .fin _ _ _ => true
  | .fin _ m e, .fin n m' e' => Fp.ltNum (.fin n m' e') (.fin false m e)
  | _, .inf false => false

def marker (ty : Ty) : Nat := if ty = .s8x8 then 0x80 else 8
def isMarked (ty : Ty) : Bool := ty == .s8x8 || ty == .n4x16

/-- CVTQ of one element: outlier?, code, flags (R134); a signalling NaN sets NV also where the scale makes the result a NaN (R26, R31).
A signalling NaN threshold sets no flag, and neither does an infinite source where the scale makes the result the canonical NaN. DESIGN CHOICE, log
entry 111. -/
def cvtqOne (dst src : Ty) (md : RM) (satf : Bool) (e : Nat) (olth : Word) (x : Nat) : Bool × FRes :=
  let v := convSrc src x
  let outlier := v.isNan || e == 255 || absAbove v (fmt32.unpack (olth.toNat % 2 ^ 32))
  let r : FRes :=
    if outlier && isMarked dst then ⟨marker dst, 0⟩
    else if e = 255 then ⟨((Ty.fmt dst).map (·.nan)).getD 0, flagIf v.isSnan flNV⟩
    else
      let q := v.scale2 (127 - (e : Int))
      match Ty.fmt dst with
      | some f => Fmt.ofFpSat f md satf q
      | none =>
        let hi := Ty.hi dst
        match q with
        | .nan _ => ⟨0, 0⟩
        | .inf n => ⟨wrap dst.width (if n then -hi else hi), flNV⟩
        | .fin n m ex =>
          let (k, ix) := Fp.toInt md n m ex
          if k < -hi ∨ hi < k then ⟨wrap dst.width (if k < 0 then -hi else hi), flOF ||| flNX⟩
          else ⟨wrap dst.width k, flagIf ix flNX⟩
  (outlier, r)

/-- CVTQ: element bead, outlier mask, flags (R134). Mask bits of positions that the destination type does not have keep their values.
DESIGN CHOICE, log entry 91. -/
def valCvtq (dst src : Ty) (md : RM) (satf : Bool) (h : BitVec 4) (olth old oldMask a b : Word) : Word × Word × FlagSet :=
  let rs := (groupPairs dst src h).map fun (j, k) => (k, cvtqOne dst src md satf (b.toNat % 256) olth (sub src a j))
  let mask := (List.range 16).map fun k =>
    match rs.find? (·.1 == k) with
    | some (_, o, _) => o.toNat
    | none => oldMask.toNat / 2 ^ k % 2
  (putSubs dst old (rs.map fun (k, _, r) => (k, r.bits)), BitVec.ofNat 64 (packAt 1 mask),
    rs.foldl (fun f r => f ||| r.2.2.fl) 0)

/-- OLPACK (R135). -/
def valOlpack (dst src : Ty) (md : RM) (h : BitVec 4) (hdr a b n : Word) : Word × FlagSet :=
  let e : Int := hdr.toNat / 256 % 256
  (groupPairs dst src h).foldl (fun (acc : Word × FlagSet) (p : Nat × Nat) =>
    let (j, k) := p
    if b.getLsbD k then
      let slot := n.toNat + popcount k (b.toNat % 2 ^ 16)
      if slot < 3 then
        let r := fmtBf16.ofFp md ((convSrc src (sub src a j)).scale2 (127 - e))
        (setSub .bf16x4 acc.1 (slot + 1) r.bits, acc.2 ||| r.fl)
      else acc
    else acc) (hdr, 0)

/-- OLUNPK (R136). -/
def valOlunpk (ty : Ty) (a : Word) : Word :=
  BitVec.ofNat 64 (packAt 1 ((subs ty a).map fun x => (x == marker ty).toNat))

/-- The packed type of a block format (R131). -/
def blkTy (code : Nat) : Option Ty :=
  match code with
  | 1 => some .bf16x4 | 2 => some .f16x4 | 3 => some .e4m3x8 | 4 => some .e5m2x8 | 5 => some .s8x8 | 6 => some .n4x16
  | 7 => some .f32x2 | _ => none

/-- FMT of BLKHDR (R133). -/
def blkCodeOf (ty : Ty) : Nat :=
  match ty with
  | .f16x4 => 2 | .bf16x4 => 1 | .e4m3x8 => 3 | .e5m2x8 => 4 | .f32x2 => 7 | .s8x8 => 5 | .n4x16 => 6 | _ => 0

/-- Largest finite value of a block format as m × 2^e (R133). -/
def blkMax (ty : Ty) : Nat × Int :=
  match Ty.fmt ty with
  | some f => match f.unpack f.maxCode with
    | .fin _ m e => (m, e)
    | _ => (1, 0)
  | none => ((Ty.hi ty).toNat, 0)

/-- m × 2^e ≤ k × 2^g. -/
def leDyadic (m : Nat) (e : Int) (k : Nat) (g : Int) : Bool :=
  let b := min e g
  m * 2 ^ (e - b).toNat ≤ k * 2 ^ (g - b).toNat

/-- The amax scale: 127 + the smallest s with m ≤ F × 2^s, clamped (R133). -/
def amaxScale (ty : Ty) (x : Nat) : Nat :=
  match fmt32.unpack (x % 2 ^ 31) with
  | .fin _ m e =>
    if m = 0 then 127
    else
      let (k, g) := blkMax ty
      let s0 : Int := (e + bitLen m) - (g + bitLen k)
      let s := if leDyadic m e k (g + s0) then (if leDyadic m e k (g + s0 - 1) then s0 - 1 else s0) else s0 + 1
      (clampInt 0 254 (127 + s)).toNat
  | _ => 255

/-- BLKHDR (R133). It sets no flag, a signalling NaN magnitude included. DESIGN CHOICE, log entry 111. -/
def valBlkhdr (ty : Ty) (mode : BlkMode) (a : Word) : Word :=
  match mode with
  | .scale => BitVec.ofNat 64 (blkCodeOf ty + 256 * (a.toNat % 256))
  | .amax => BitVec.ofNat 64 (blkCodeOf ty + 256 * amaxScale ty (a.toNat % 2 ^ 32))
  | .zero => BitVec.ofNat 64 (256 * (a.toNat % 256))

/-- Element i of element bead `a` under header `hdr`, `n` markers before the bead (R137, R36). -/
def dqElem (hdr a n : Word) (i : Nat) : Fp :=
  match blkTy (hdr.toNat % 256) with
  | none => .fin false 0 0
  | some ty =>
    if ty.count ≤ i then .fin false 0 0
    else
      let sc := hdr.toNat / 256 % 256
      if sc = 255 then .nan false
      else
        let x := sub ty a i
        let v : Fp :=
          if isMarked ty && x == marker ty then
            let j := n.toNat + (((List.range i).filter fun k => sub ty a k == marker ty)).length
            if j < 3 then fmtBf16.unpack (sub .bf16x4 hdr (j + 1)) else .fin false 0 0
          else match Ty.fmt ty with
            | some f => f.unpack x
            | none => fpOfInt (ty.int x)
        v.quiet.scale2 ((sc : Int) - 127)

/-- DQ (R137). -/
def valDq (dst : Ty) (md : RM) (h : BitVec 4) (a hdr n : Word) : Word × FlagSet :=
  packF dst ((List.range dst.count).map fun j => (Ty.fm dst).ofFp md (dqElem hdr a n (dst.count * h.toNat + j)))

/-- PACK (R132): eight element and header beads to memory beads. -/
def packBlock (es : List Word) : List Word :=
  let e (k : Nat) : Nat := (es.getD k 0).toNat
  BitVec.ofNat 64 (e 7 % 2 ^ 16 + e 0 % 2 ^ 48 * 2 ^ 16) ::
    ((List.range 6).map fun k => BitVec.ofNat 64 (e k / 2 ^ 48 + e (k + 1) % 2 ^ 48 * 2 ^ 16)) ++
    [BitVec.ofNat 64 (e 6 / 2 ^ 48 + e 7 / 2 ^ 16 * 2 ^ 16)]

/-- UNPACK (R132). -/
def unpackBlock (ms : List Word) : List Word :=
  let m (k : Nat) : Nat := (ms.getD k 0).toNat
  ((List.range 7).map fun k => BitVec.ofNat 64 (m k / 2 ^ 16 + m (k + 1) % 2 ^ 16 * 2 ^ 48)) ++
    [BitVec.ofNat 64 (m 0 % 2 ^ 16 + m 7 / 2 ^ 16 * 2 ^ 16)]

/-! ### Reductions (R40, R142) -/

/-- One combination of REDUX and SCANX on a sub-element, with its flags. -/
def redCombine (op : RedOp) (ty : Ty) (md : RM) (x y : Nat) : FRes :=
  match Ty.fmt ty with
  | some f => match op with
    | .add => f.add md x y
    | .min => f.minmax false x y
    | .max => f.minmax true x y
    | _ => ⟨0, 0⟩
  | none => match op with
    | .add => ⟨(x + y) % 2 ^ ty.width, 0⟩
    | .min => ⟨if ty.int x ≤ ty.int y then x else y, 0⟩
    | .max => ⟨if ty.int x ≤ ty.int y then y else x, 0⟩
    | .and => ⟨x &&& y, 0⟩
    | .or => ⟨x ||| y, 0⟩
    | .xor => ⟨x ^^^ y, 0⟩

/-- A node of the tree: absent, or a value and the flags of its combinations. -/
def redNode (op : RedOp) (ty : Ty) (md : RM) : Option FRes → Option FRes → Option FRes
  | some x, some y => let r := redCombine op ty md x.bits y.bits; some ⟨r.bits, x.fl ||| y.fl ||| r.fl⟩
  | some x, none => some x
  | none, y => y

/-- One level of the fixed pairwise tree (R40). -/
def redLevel (op : RedOp) (ty : Ty) (md : RM) : List (Option FRes) → List (Option FRes)
  | x :: y :: rest => redNode op ty md x y :: redLevel op ty md rest
  | [x] => [x]
  | [] => []

/-- The root of the tree over 32 positions (R40). -/
def redRoot (op : RedOp) (ty : Ty) (md : RM) (leaves : List (Option FRes)) : Option FRes :=
  let l := redLevel op ty md
  (l (l (l (l (l leaves))))).headD none

/-- The identity that an absent root delivers (R142), as a sub-element. -/
def redIdentity (op : RedOp) (ty : Ty) : Nat :=
  match op, Ty.fmt ty with
  | .min, some f => f.inf false
  | .max, some f => f.inf true
  | .min, none => wrap ty.width (Ty.hi ty)
  | .max, none => wrap ty.width (Ty.lo ty)
  | .and, _ => 2 ^ ty.width - 1
  | _, _ => 0

/-- The reduction over the given threads' beads: value and flags (R40, R142). -/
def reduce (op : RedOp) (ty : Ty) (md : RM) (vals : List (Nat × Word)) : Word × FlagSet :=
  let rs := (List.range ty.count).map fun i =>
    (redRoot op ty md ((List.range 32).map fun t => ((vals.find? (·.1 == t)).map fun v => (⟨sub ty v.2 i, 0⟩ : FRes)))).getD
      ⟨redIdentity op ty, 0⟩
  packF ty rs

/-! ### The value of an instruction of a slice (R189) -/

/-- What one lane of an instruction computes; none for instructions that are not of this kind. `d` names the destination. -/
def laneValue (i : Instr) (x : LaneIn) : Option LaneOut :=
  let w (d : Reg) (v : Word) : Option LaneOut := some { regs := [(d, v)] }
  let f (d : Reg) (v : Word × FlagSet) : Option LaneOut := some { regs := [(d, v.1)], fl := v.2 }
  let md (r : Rnd) : RM := RM.of r x.fpc
  match i with
  | .movS d _ => w d (valMov .b64 x.a)
  | .iaddS d _ _ | .iaddImmS d _ _ => w d (valIadd .s64 x.a x.b)
  | .isubS d _ _ => w d (valIsub .s64 x.a x.b)
  | .andS d _ _ => w d (valAnd .b64 x.a x.b)
  | .orS d _ _ => w d (valOr .b64 x.a x.b)
  | .xorS d _ _ => w d (valXor .b64 x.a x.b)
  | .shlS d _ _ | .shlImmS d _ _ => w d (valShl .b64 x.a x.b)
  | .shrS d _ _ | .shrImmS d _ _ => w d (valShr .z64 x.a x.b)
  | .imulS d _ _ => w d (valImul .s64 x.a x.b)
  | .faddF32S d _ _ => f d (valFadd .f32 (md .dyn) x.a x.b)
  | .fmulF32S d _ _ => f d (valFmul .f32 (md .dyn) x.a x.b)
  | .faddF32x2S d _ _ => f d (valFadd .f32x2 (md .dyn) x.a x.b)
  | .fmulF32x2S d _ _ => f d (valFmul .f32x2 (md .dyn) x.a x.b)
  | .faddBf16x4S d _ _ => f d (valFadd .bf16x4 (md .dyn) x.a x.b)
  | .fmulBf16x4S d _ _ => f d (valFmul .bf16x4 (md .dyn) x.a x.b)
  | .mov _ ty d _ => w d (valMov ty x.a)
  | .movi _ ty d _ => w d (valMov ty x.b)
  | .sel _ ty d _ _ pc => w d (valMov ty (if predOf7 x.preds pc then x.a else x.b))
  | .iadd _ ty d _ _ => w d (valIadd ty x.a x.b)
  | .isub _ ty d _ _ => w d (valIsub ty x.a x.b)
  | .iaddc _ ty d _ _ cin cout =>
    let r := valIaddc ty x.a x.b ((cin.map (predOf7 x.preds)).getD false)
    some { regs := [(d, r.1)], preds := [(cout, r.2)] }
  | .isubb _ ty d _ _ cin cout =>
    let r := valIsubb ty x.a x.b ((cin.map (predOf7 x.preds)).getD false)
    some { regs := [(d, r.1)], preds := [(cout, r.2)] }
  | .imul _ ty d _ _ => w d (valImul ty x.a x.b)
  | .imulh _ ty d _ _ => w d (valImulh ty x.a x.b)
  | .imad _ ty d _ _ _ => w d (valImad ty x.a x.b x.c)
  | .idiv _ ty d _ _ => w d (valIdiv ty x.a x.b)
  | .irem _ ty d _ _ => w d (valIrem ty x.a x.b)
  | .ineg _ ty d _ => w d (valIneg ty x.a)
  | .iabs _ ty d _ => w d (valIabs ty x.a)
  | .imin _ ty d _ _ => w d (valImin ty x.a x.b)
  | .imax _ ty d _ _ => w d (valImax ty x.a x.b)
  | .iadds _ ty d _ _ => w d (valIadds ty x.a x.b)
  | .isubs _ ty d _ _ => w d (valIsubs ty x.a x.b)
  | .lea _ d _ _ sh => w d (valLea x.a x.b sh)
  | .and _ ty d _ _ => w d (valAnd ty x.a x.b)
  | .or _ ty d _ _ => w d (valOr ty x.a x.b)
  | .xor _ ty d _ _ => w d (valXor ty x.a x.b)
  | .andn _ ty d _ _ => w d (valAndn ty x.a x.b)
  | .not _ ty d _ => w d (valNot ty x.a)
  | .shl _ ty d _ _ => w d (valShl ty x.a x.b)
  | .shr _ ty d _ _ => w d (valShr ty x.a x.b)
  | .sar _ ty d _ _ => w d (valSar ty x.a x.b)
  | .rot _ ty d _ _ right => w d (valRot ty x.a x.b right)
  | .bfe _ ty d _ _ => w d (valBfe ty x.a x.b)
  | .bfi _ ty d _ _ _ => w d (valBfi ty x.a x.b x.c)
  | .popc _ ty d _ => w d (valPopc ty x.a)
  | .clz _ ty d _ => w d (valClz ty x.a)
  | .ctz _ ty d _ => w d (valCtz ty x.a)
  | .brev _ ty d _ => w d (valBrev ty x.a)
  | .bperm _ d _ _ _ => w d (valBperm x.a x.b x.c)
  | .setp _ ty c k pd _ _ pc => some { preds := [(pd, combine k (icmp ty c x.a x.b) (predOf7 x.preds pc))] }
  | .plop _ pd pa pb pc lut =>
    some { preds := [(pd, plopBit lut (predOf7 x.preds pa) (predOf7 x.preds pb) (predOf7 x.preds pc))] }
  | .pmov _ (.toReg d) => w d (pmovWord x.preds)
  | .pmov _ (.fromReg _ mask) => some { preds := pmovPreds x.a mask }
  | .fadd _ ty r d _ _ => f d (valFadd ty (md r) x.a x.b)
  | .fsub _ ty r d _ _ => f d (valFsub ty (md r) x.a x.b)
  | .fmul _ ty r d _ _ => f d (valFmul ty (md r) x.a x.b)
  | .ffma _ ty r d _ _ _ => f d (valFfma ty (md r) x.a x.b x.c)
  | .fdiv _ ty r d _ _ => f d (valFdiv ty (md r) x.a x.b)
  | .fmin _ ty d _ _ => f d (valFmin ty x.a x.b)
  | .fmax _ ty d _ _ => f d (valFmax ty x.a x.b)
  | .fsetp _ ty c k pd _ _ pc =>
    let r := (Ty.fm ty).compare c (sub ty x.a 0) (sub ty x.b 0)
    some { preds := [(pd, combine k r.1 (predOf7 x.preds pc))], fl := r.2 }
  | .frnd _ ty r d _ => f d (valFrnd ty (md r) x.a)
  | .fscale _ ty r d _ _ => f d (valFscale ty (md r) x.a x.b)
  | .fclass _ ty d _ => w d (valFclass ty x.a)
  | .fdot _ ty r d _ _ _ => f d (valFdot ty (md r) x.a x.b x.c)
  | .fsqrt _ ty r d _ => f d (valFsqrt ty (md r) x.a)
  | .frcp _ ty d _ => f d (valSfu .rcp ty x.a)
  | .frsq _ ty d _ => f d (valSfu .rsq ty x.a)
  | .fexp2 _ ty d _ => f d (valSfu .exp2 ty x.a)
  | .flog2 _ ty d _ => f d (valSfu .log2 ty x.a)
  | .fsin _ ty d _ => f d (valSfu .sin ty x.a)
  | .fcos _ ty d _ => f d (valSfu .cos ty x.a)
  | .ftanh _ ty d _ => f d (valSfu .tanh ty x.a)
  | .fsigm _ ty d _ => f d (valSfu .sigm ty x.a)
  | .cvt _ dst src r satf h d _ => f d (valCvt dst src (md r) satf h x.d x.a)
  | .cvtq _ dst src r satf h d _ _ =>
    let v := valCvtq dst src (md r) satf h x.olth x.d (x.x.headD 0) x.a x.b
    some { regs := [(d, v.1), (d + 1, v.2.1)], fl := v.2.2 }
  | .olpack _ dst src r h d _ _ _ => f d (valOlpack dst src (md r) h x.d x.a x.b x.c)
  | .olunpk _ ty d _ => w d (valOlunpk ty x.a)
  | .blkhdr _ ty mode d _ => w d (valBlkhdr ty mode x.a)
  | .dq _ dst r h d _ _ _ => f d (valDq dst (md r) h x.a x.b x.c)
  | .pack _ d _ => some { regs := (packBlock (x.a :: x.x)).mapIdx fun k v => (d + BitVec.ofNat 8 k, v) }
  | .unpack _ d _ => some { regs := (unpackBlock (x.a :: x.x)).mapIdx fun k v => (d + BitVec.ofNat 8 k, v) }
  | _ => none

end Sys2Proof.Machine
end

