-- ==== Sys2Proof/Machine/Base.lean ====
section
/-! DEFINITION. Looking things up and changing them: association lists, gangs and threads, blocks, launches, contexts, beads and
predicates (R72 to R77, R88). Every register is read and written here. -/

namespace Sys2Proof.Machine
open Host

/-! ### Association lists with rising keys -/

/-- The value at a key. -/
def alGet {α : Type} (m : List (Nat × α)) (k : Nat) : Option α := (m.find? fun e => e.1 == k).map (·.2)

/-- The list with a key's entry removed. -/
def alDel {α : Type} (m : List (Nat × α)) (k : Nat) : List (Nat × α) := m.filter fun e => e.1 != k

/-- The list with a key's value set, keys rising. -/
def alSet {α : Type} : List (Nat × α) → Nat → α → List (Nat × α)
  | [], k, v => [(k, v)]
  | e :: m, k, v => if k < e.1 then (k, v) :: e :: m else if e.1 = k then (k, v) :: m else e :: alSet m k v

/-- A bead list with position t set. -/
def setAt {α : Type} : List α → Nat → α → List α
  | [], _, _ => []
  | _ :: l, 0, v => v :: l
  | x :: l, t + 1, v => x :: setAt l t v

/-- Change one entry of a list. -/
def modNth {α : Type} : List α → Nat → (α → α) → List α
  | [], _, _ => []
  | x :: xs, 0, f => f x :: xs
  | x :: xs, n + 1, f => x :: modNth xs n f

/-! ### Finding -/

def State.gang? (s : State) (gid : Nat) : Option Gang := s.gangs.find? fun g => g.gid == gid
def State.block? (s : State) (bid : Nat) : Option Block := s.blocks.find? fun b => b.bid == bid
def State.launch? (s : State) (n : Nat) : Option Launch := s.launches.find? fun l => l.num == n
def State.ctx? (s : State) (n : Nat) : Option Context := s.contexts.find? fun c => c.num == n
def State.op? (s : State) (id : Nat) : Option Op := s.ops.find? fun o => o.id == id
def Gang.thread? (g : Gang) (t : Nat) : Option Thread := g.threads.find? fun x => x.thr == t
def State.thread? (s : State) (gid t : Nat) : Option Thread := (s.gang? gid).bind fun g => g.thread? t

def State.blockOf (s : State) (g : Gang) : Option Block := s.block? g.bid
def State.launchOf (s : State) (g : Gang) : Option Launch := (s.blockOf g).bind fun b => s.launch? b.launch
def State.ctxOf (s : State) (g : Gang) : Option Context := (s.launchOf g).bind fun l => s.ctx? l.ctx

/-- Number of the context that a gang runs in; 0 if there is none. -/
def State.ctxNum (s : State) (g : Gang) : Nat := ((s.launchOf g).map (·.ctx)).getD 0

def State.region? (s : State) (ctx num : Nat) : Option Region :=
  (s.ctx? ctx).bind fun c => c.regions.find? fun r => r.num == num

/-! ### Regions (R337, R338) -/

/-- A region and its ancestors, nearest first; a tree is at most 8 deep. -/
def Context.pathGo (c : Context) : Nat → Option Nat → List Region
  | 0, _ => []
  | _, none => []
  | fuel + 1, some n => match c.regions.find? fun r => r.num == n with
    | some r => r :: c.pathGo fuel r.parent
    | none => []

def Context.path (c : Context) (num : Nat) : List Region := c.pathGo 8 (some num)

/-- Field `i` as a region has it: from the nearest region whose OVR bit for it is set (R338). -/
def effField (path : List Region) (i : Nat) (f : Rcb → Nat) : Nat :=
  match path.find? fun r => r.rcb.ovr / 2 ^ i % 2 == 1 with
  | some r => f r.rcb
  | none => 0

/-- A path's effective control block. -/
def effRcb (path : List Region) (own : Rcb) : Rcb :=
  let e := effField path
  { own with pri := e 0 (·.pri), perm := e 1 (·.perm), fdom := e 2 (·.fdom), clu := e 3 (·.clu),
             rods := e 4 (·.rods), spad := e 5 (·.spad), tiles := e 6 (·.tiles), pairs := e 7 (·.pairs), anxq := e 8 (·.anxq),
             bksh := e 9 (·.bksh), traph := BitVec.ofNat 64 (e 10 fun r => r.traph.toNat), abnd := e 11 (·.abnd), pdl := e 12 (·.pdl) }

/-- The effective control block of a region (R338). -/
def Context.effective (c : Context) (num : Nat) : Option Rcb :=
  match c.path num with
  | r :: rs => some (effRcb (r :: rs) r.rcb)
  | [] => none

/-! ### Changing -/

def State.modGang (s : State) (gid : Nat) (f : Gang → Gang) : State :=
  { s with gangs := s.gangs.map fun g => if g.gid = gid then f g else g }

def Gang.modThread (g : Gang) (t : Nat) (f : Thread → Thread) : Gang :=
  { g with threads := g.threads.map fun x => if x.thr = t then f x else x }

def State.modThread (s : State) (gid t : Nat) (f : Thread → Thread) : State := s.modGang gid fun g => g.modThread t f

/-- Change every thread of a set. -/
def State.modThreads (s : State) (gid : Nat) (ts : List Nat) (f : Thread → Thread) : State :=
  s.modGang gid fun g => { g with threads := g.threads.map fun x => if x.thr ∈ ts then f x else x }

def State.modBlock (s : State) (bid : Nat) (f : Block → Block) : State :=
  { s with blocks := s.blocks.map fun b => if b.bid = bid then f b else b }
def State.modLaunch (s : State) (n : Nat) (f : Launch → Launch) : State :=
  { s with launches := s.launches.map fun l => if l.num = n then f l else l }
def State.modCtx (s : State) (n : Nat) (f : Context → Context) : State :=
  { s with contexts := s.contexts.map fun c => if c.num = n then f c else c }
def State.modRegion (s : State) (ctx num : Nat) (f : Region → Region) : State :=
  s.modCtx ctx fun c => { c with regions := c.regions.map fun r => if r.num = num then f r else r }
def State.modOp (s : State) (id : Nat) (f : Op → Op) : State :=
  { s with ops := s.ops.map fun o => if o.id = id then f o else o }
def State.dropOp (s : State) (id : Nat) : State := { s with ops := s.ops.filter fun o => o.id != id }

/-- A thread's PC is redirected (R52): what was due at the old one is due at the new one (R286). -/
def Thread.redirect (x : Thread) (pc : Nat) : Thread :=
  { x with pc := pc, relist := x.relist.map fun r => if r.2 = x.pc then (r.1, pc) else r }

/-- A fresh name. -/
def State.fresh (s : State) : Nat × State := (s.nextId, { s with nextId := s.nextId + 1 })

/-- A free value (R4): nothing constrains it. Log entry 3. -/
def State.freeVal (s : State) : Word × State := (Config.freeWord s.free, { s with free := s.free + 1 })
def State.freeFlag (s : State) : Bool × State := (Config.freeBit s.free, { s with free := s.free + 1 })
/-- A free value that some numbers below 2^64 tell from the others of this moment; who uses it advances the counter after. Log entry 3. -/
def State.freeAt (s : State) (ks : List Nat) : Word := Config.freeWord (ks.foldl (fun a k => a * 2 ^ 64 + k) (s.free + 1))


/-- Count n events at a position of a die's telemetry record (R387). -/
def State.count (s : State) (die pos n : Nat) : State :=
  let k := die * 1856 + pos
  { s with telemetry := { s.telemetry with
      counters := alSet s.telemetry.counters k ((((alGet s.telemetry.counters k).getD 0) + n) % 2 ^ 64) } }

/-- A unit, named by the die and its first position, serves a context: noted if that is confidential (R390). -/
def State.serve (s : State) (ctx die pos : Nat) : State :=
  let k := (die * 1856 + pos, ctx)
  if ((s.ctx? ctx).any fun c => c.confidential) && k ∉ s.telemetry.served then
    { s with telemetry := { s.telemetry with served := s.telemetry.served ++ [k] } }
  else s

/-- A core and its cluster serve a context. -/
def State.serveCore (s : State) (ctx die core : Nat) : State := (s.serve ctx die (7 * core)).serve ctx die (1400 + 3 * (core / 4))

/-! ### Time (R16, R80, R367) -/

/-- %wall on a die: the cycles so far in nanoseconds, corrected, never running backwards (R16). -/
def State.wallRaw (s : State) (die : Nat) : Nat := ((s.wallAdj.getD die 0) + (s.cycle * 4 / 5 : Nat)).toNat
def State.wall (s : State) (die : Nat) : Nat := max (s.wallRaw die) (s.wallLast.getD die 0)
/-- %wall on every die: what a later reading is not below (R16). -/
def State.walls (s : State) : List Nat := (List.range 8).map s.wall

/-! ### Predicates (R76) -/

def Thread.pred (t : Thread) (p : Pred) : Bool := predOf7 t.preds p

/-- A write to p7 is discarded (R76). -/
def Thread.setPred (t : Thread) (p : Pred) (v : Bool) : Thread :=
  if p = 7 then t
  else { t with preds := BitVec.ofNat 7 (packAt 1 ((List.range 7).map fun i => if i = p.toNat then v.toNat else (t.preds.getLsbD i).toNat)) }

def Thread.setPreds (t : Thread) (ps : List (Pred × Bool)) : Thread := ps.foldl (fun t p => t.setPred p.1 p.2) t

/-- A guard (R58). -/
def Thread.guard (t : Thread) (g : Guard) : Bool := t.pred g.p != g.neg

/-! ### Beads (R72 to R75, R88) -/

/-- The bead as its rod holds it: 0 for a VOID rod. A RECIPE rod has no beads (its readers regenerate). -/
def Gang.bead (g : Gang) (r t : Nat) : Word :=
  match alGet g.rods r with
  | some (.value bs) => bs.getD t 0
  | _ => 0

def Gang.isRecipe (g : Gang) (r : Nat) : Bool :=
  match alGet g.rods r with
  | some .recipe => true
  | _ => false

/-- Write a bead: a VOID rod becomes VALUE with its other beads zero; positions never launched discard the write (R73, R75).
The writer has materialised a RECIPE rod before. -/
def Gang.setBead (g : Gang) (r t : Nat) (v : Word) : Gang :=
  if (g.thread? t).isNone then g
  else
    let bs := match alGet g.rods r with
      | some (.value bs) => bs
      | _ => List.replicate 32 0
    { g with rods := alSet g.rods r (.value (setAt bs t v)),
             poison := g.poison.filter fun p => !(p.reg == r && p.thr == t) }

/-- In trap mode, register fields 248 to 255 name k0 to k7, of whichever thread is read (R88). -/
def Gang.kReg (g : Gang) (r : Reg) : Bool := 248 ≤ r.toNat && g.trap.isSome

/-- The number of a register in poison and clobber records: k registers from 256 up. -/
def Gang.regNum (g : Gang) (r : Reg) : Nat := if g.kReg r then r.toNat + 8 else r.toNat

/-- bead(r, t), or the k register it names. -/
def Gang.readReg (g : Gang) (r : Reg) (t : Nat) : Word :=
  if g.kReg r then ((g.thread? t).map fun x => x.k.getD (r.toNat - 248) 0).getD 0 else g.bead r.toNat t

/-- Write bead(r, t), or the k register it names. -/
def Gang.writeReg (g : Gang) (r : Reg) (t : Nat) (v : Word) : Gang :=
  if g.kReg r then
    { g.modThread t (fun x => { x with k := setAt x.k (r.toNat - 248) v }) with
      poison := g.poison.filter fun p => !(p.reg == r.toNat + 8 && p.thr == t) }
  else g.setBead r.toNat t v

/-- The poison of a bead, if it has any; k registers are numbered from 256 (R151, R382). -/
def Gang.poisonOf (g : Gang) (r : Reg) (t : Nat) : Option BeadPoison :=
  g.poison.find? fun p => p.reg == g.regNum r && p.thr == t

def Gang.poisonReg (g : Gang) (r : Reg) (t code : Nat) (addr : Word) : Gang :=
  { g with poison := ⟨g.regNum r, t, code, addr⟩ :: g.poison.filter fun p => !(p.reg == g.regNum r && p.thr == t) }

/-- Number of rods in VALUE state (R86). -/
def Gang.valueRods (g : Gang) : Nat := (g.rods.filter fun e => match e.2 with | .value _ => true | _ => false).length
def Gang.recipeRods (g : Gang) : Nat := (g.rods.filter fun e => e.2 == .recipe).length

/-- The descriptor of a rod; a VALUE rod that has one is recipe-eligible (R188, R217). -/
def Gang.desc? (g : Gang) (rod : Nat) : Option Desc := g.descs.find? fun d => d.rod == rod

/-- The rods that regenerating some rods regenerates: the RECIPE ones among them, and their RECIPE inputs (R219, R223). -/
def Gang.regenSet (g : Gang) (rods : List Nat) : List Nat :=
  let rs := rods.filter g.isRecipe
  (rs ++ rs.flatMap fun r => ((g.desc? r).map fun d => (d.inputs.map (·.toNat)).filter g.isRecipe).getD []).dedup

/-- An instruction has regenerated some rods: REGEN of the gang rises by their number (R223). -/
def Gang.regenerated (g : Gang) (n : Nat) : Gang := { g with regen := (g.regen + n) % 2 ^ 16 }

/-- Record the use of rods, for recency (R220). -/
def Gang.touch (g : Gang) (cycle : Nat) (rs : List Nat) : Gang :=
  { g with used := rs.foldl (fun u r => alSet u r cycle) g.used }

/-! ### The special registers' packed forms -/

def Thread.live (t : Thread) : Bool := !t.exited

/-- Outstanding operations of a thread in a counter class (R85). -/
def State.wcnt (s : State) (gid t : Nat) (c : Cls) : Nat :=
  (s.ops.filter fun o => o.place.gid == gid && o.cnt == some c && t ∈ o.thrs).length

/-- %wcnt (R85). -/
def State.wcntWord (s : State) (gid t : Nat) : Word :=
  BitVec.ofNat 64 (s.wcnt gid t .ld + 2 ^ 8 * s.wcnt gid t .st + 2 ^ 16 * s.wcnt gid t .cp + 2 ^ 24 * s.wcnt gid t .mx
    + 2 ^ 32 * s.wcnt gid t .bk)

/-- The largest count of a class (R85). -/
def Cls.maxCount : Cls → Nat
  | .cp => 64 | .bk => 14 | _ => 254

/-- %rcpst (R86). -/
def Gang.rcpst (g : Gang) : Word :=
  BitVec.ofNat 64 (g.descs.length + 2 ^ 9 * g.recipeRods + 2 ^ 18 * g.valueRods + 2 ^ 32 * (g.regen % 2 ^ 16))

end Sys2Proof.Machine
end

