-- ==== Sys2Proof/Machine/Memory.lean ====
section
/-! DEFINITION. Memory: bytes in canonical form, the coherence order and its visibility sets (R246 to R253), fences and
completion, translation (R147, R150, R295 to R302), and what a thread reads and writes. A location is a physical address, or
2^56 + 2^20 × block + offset for a byte of a block's scratchpad. -/

namespace Sys2Proof.Machine
open Host

/-! ### Bytes -/

/-- What an unlisted location reads as: 0 (R19 for scratchpad; DESIGN CHOICE for DRAM, log entry 5). -/
def memDefault : Byte := 0

def memGet (m : List Cell) (a : Nat) : Byte := (alGet m a).getD memDefault

/-- Write one byte; the entry goes when it equals what an unlisted location reads as. -/
def memSet (m : List Cell) (a : Nat) (v : Byte) : List Cell := if v = memDefault then alDel m a else alSet m a v

def memPut : List Cell → Nat → List Byte → List Cell
  | m, _, [] => m
  | m, a, b :: bs => memPut (memSet m a b) (a + 1) bs

def memBytes (m : List Cell) (a n : Nat) : List Byte := (List.range n).map fun i => memGet m (a + i)

/-- The canonical form: addresses strictly rising, no entry equal to what an unlisted location reads as. -/
def Memory.wf : List Cell → Bool
  | [] => true
  | [e] => e.2 != memDefault
  | e :: f :: r => e.2 != memDefault && e.1 < f.1 && Memory.wf (f :: r)

def scratchBase : Nat := 2 ^ 56
def scratchLoc (bid off : Nat) : Nat := scratchBase + 2 ^ 20 * bid + off
def isScratch (loc : Nat) : Bool := scratchBase ≤ loc

/-! ### Peer windows (R364 to R366) -/

/-- The location of an address in the map of the module at the far end of a link. -/
def peerLoc (link pa : Nat) : Nat := 2 ^ 52 + 2 ^ 42 * link + pa

/-- The link over which a location is reached. -/
def linkOf (loc : Nat) : Option Nat := if 2 ^ 52 ≤ loc ∧ loc < 2 ^ 52 + 2 ^ 46 then some ((loc - 2 ^ 52) / 2 ^ 42) else none

/-- The link of a location is down (R366). -/
def State.linkDown (s : State) (loc : Nat) : Bool :=
  match linkOf loc with
  | some l => !((s.links[l]?).map (·.up)).getD false
  | none => false

/-- An access over a link is refused: the link is down, or the peer does not consent (R365, R366). -/
def State.linkBars (s : State) (loc : Nat) : Bool :=
  match linkOf loc with
  | some l => s.linkDown loc || !Config.peerConsents l ((loc - 2 ^ 52) % 2 ^ 42)
  | none => false

/-! ### Scope units (R248) -/

/-- The scope units of a thread and its operations, from level s up (R248). -/
def Place.unitsFrom (p : Place) (lvl : Nat) : List ScopeUnit :=
  [.thread p.gid p.thr, .gang p.gid, .block p.bid, .cluster p.die (p.core / 4), .die p.die, .module, .system].drop lvl

def Place.units (p : Place) : List ScopeUnit := p.unitsFrom 0

def bankUnits (die vault : Nat) : List ScopeUnit := [.bank die vault, .die die, .module, .system]

/-- A compaction unit or the counting board of a die: it belongs to no scope below die (R248). -/
def dieUnits (die : Nat) : List ScopeUnit := [.die die, .module, .system]

def hostUnits : List ScopeUnit := [.system]

/-! ### The physical map (R296) -/

/-- A range lies wholly in one die's DRAM, or in host memory. -/
def inDram (pa n : Nat) : Bool := pa / 2 ^ 38 < 8 && pa % 2 ^ 38 + n ≤ 0x30 * 2 ^ 32
def inHost (pa n : Nat) : Bool := 2 ^ 51 ≤ pa && pa + n ≤ 2 ^ 52

def Gang.place (g : Gang) (b : Block) (t : Nat) : Place := ⟨b.die, b.core, g.bid, g.gid, t⟩

def State.placeOf (s : State) (gid t : Nat) : Place :=
  match s.gang? gid with
  | some g => match s.blockOf g with
    | some b => g.place b t
    | none => ⟨0, 0, g.bid, gid, t⟩
  | none => ⟨0, 0, 0, gid, t⟩

/-! ### The coherence order (R249) -/

def PWrite.byteAt (w : PWrite) (loc : Nat) : Option Byte :=
  if w.loc ≤ loc ∧ loc < w.loc + w.data.length then w.data[loc - w.loc]? else none

def PWrite.visibleTo (w : PWrite) (us : List ScopeUnit) : Bool := w.vis.any (· ∈ us)

/-- The latest write visible to an agent at a location (R249), none when that is the byte in memory. -/
def State.latest (s : State) (us : List ScopeUnit) (loc : Nat) : Option PWrite :=
  s.writes.reverse.find? fun w => (w.byteAt loc).isSome && w.visibleTo us

/-- The last write of CO at a location, whatever its visibility (R250's Atomic). -/
def State.lastOf (s : State) (loc : Nat) : Option PWrite := s.writes.reverse.find? fun w => (w.byteAt loc).isSome

/-- A byte read: value, poisoned, and the write it comes from. -/
structure RByte where
  val : Byte
  bad : Bool
  wid : Option Nat
  deriving DecidableEq, Repr

def State.byteFrom (s : State) (w : Option PWrite) (loc : Nat) : RByte :=
  match w with
  | some w => ⟨(w.byteAt loc).getD 0, w.poison, some w.wid⟩
  | none => ⟨memGet s.mem loc, loc ∈ s.poison, none⟩

/-- What an agent reads at n bytes from a location. -/
def State.readBytes (s : State) (us : List ScopeUnit) (loc n : Nat) : List RByte :=
  (List.range n).map fun i => s.byteFrom (s.latest us (loc + i)) (loc + i)

/-- The bytes at the end of the coherence order. -/
def State.lastBytes (s : State) (loc n : Nat) : List RByte :=
  (List.range n).map fun i => s.byteFrom (s.lastOf (loc + i)) (loc + i)

def rbVals (bs : List RByte) : List Byte := bs.map (·.val)
def rbNat (bs : List RByte) : Nat := leNat (rbVals bs)
def rbBad (bs : List RByte) : Bool := bs.any (·.bad)
def rbWids (bs : List RByte) : List Nat := (bs.filterMap (·.wid)).dedup

/-- A write is visible to every agent that can reach its location: scratchpad is reached from its block only (R236). -/
def PWrite.full (w : PWrite) : Bool :=
  ScopeUnit.system ∈ w.vis ||
    (isScratch w.loc && w.vis.any fun u => match u with | .thread .. => false | .gang _ => false | _ => true)

/-- Move a write from the coherence order's tail into memory. -/
def State.settle (s : State) (w : PWrite) : State :=
  let locs := (List.range w.data.length).map (w.loc + ·)
  { s with mem := memPut s.mem w.loc w.data,
           crypt := match w.key with
             | some k => s.crypt.filter (fun e => e.1 ∉ locs) ++ locs.map fun a => (a, k)
             | none => s.crypt.filter fun e => e.1 ∉ locs,
           poison := if w.poison then s.poison ++ locs.filter (· ∉ s.poison) else s.poison.filter (· ∉ locs) }

/-- Settle the writes at the front that every agent sees. -/
def State.retireGo : Nat → State → State
  | 0, s => s
  | n + 1, s =>
    match s.writes with
    | w :: ws => if w.full then State.retireGo n { s.settle w with writes := ws } else s
    | [] => s

def State.retire (s : State) : State := State.retireGo s.writes.length s

/-- What a write leaves in the history of writes (R257). -/
def State.history (s : State) (loc : Nat) (data : List Byte) (bad : Bool) : Wrote :=
  ⟨s.nextId, loc, data, bad, (s.lastBytes loc data.length).map fun b => (b.val, b.bad)⟩

/-- Append a write to the coherence order (R249): of an operation, or under a key, where it has them. -/
def State.append (s : State) (loc : Nat) (data : List Byte) (bad : Bool) (vis : List ScopeUnit) (op : Option Nat := none)
    (key : Option (List Byte) := none) : State × Nat :=
  let wid := s.nextId
  (State.retire { s with writes := s.writes ++ [⟨wid, loc, data, bad, vis, op, key⟩], nextId := wid + 1,
                         wrote := s.wrote ++ [s.history loc data bad] }, wid)

/-- Forget writes that every agent sees and that were made before every running launch. -/
def State.forgetWrites (s : State) : State :=
  { s with wrote := s.wrote.filter fun w => (s.writes.any fun x => x.wid == w.wid) || s.launches.any fun l => l.state == .running && l.first ≤ w.wid }

/-- The writes of a location's coherence order that are kept, oldest first, after the byte that stood before them; each with its name (R249). -/
def State.orderAt (s : State) (loc : Nat) : List (Option Nat × RByte) :=
  let ws := s.wrote.filter fun w => w.loc ≤ loc && loc < w.loc + w.data.length
  let base : RByte := match ws.head? with
    | some w => let o := w.old.getD (loc - w.loc) (0, false); ⟨o.1, o.2, none⟩
    | none => s.byteFrom (s.lastOf loc) loc
  (none, base) :: ws.map fun w => (some w.wid, ⟨w.data.getD (loc - w.loc) 0, w.poison, some w.wid⟩)

/-- The writes of a location that a matrix operation of a thread may return: none older than the latest that the thread saw at its snapshot
(R257). -/
def State.mxChoices (s : State) (x : Snap) (loc : Nat) : List RByte :=
  (s.orderAt loc).foldl (fun l w =>
    match w.1 with
    | none => [w.2]
    | some wid => if wid < x.next && wid ∉ x.unseen then [w.2] else l ++ [w.2]) []

/-- What a matrix operation reads: a free choice among those writes, the k-th of this moment. Log entry 46. -/
def State.mxByte (s : State) (x : Snap) (k loc : Nat) : RByte :=
  let l := s.mxChoices x loc
  l.getD ((s.freeAt [k]).toNat % l.length) ⟨0, false, none⟩

/-- The snapshot of a thread now. -/
def State.snapAt (s : State) (us : List ScopeUnit) : Snap := ⟨s.nextId, (s.writes.filter fun w => !w.visibleTo us).map (·.wid)⟩

/-- Propagate(w, A, s): the scope unit joins the visibility set (R250). -/
def State.spread (s : State) (wid : Nat) (u : ScopeUnit) : State :=
  State.retire { s with writes := s.writes.map fun w => if w.wid = wid ∧ u ∉ w.vis then { w with vis := u :: w.vis } else w }

/-- A write has reached a scope of a thread; a settled write has reached every scope (R249). -/
def State.reached (s : State) (wid : Nat) (p : Place) (lvl : Nat) : Bool :=
  match s.writes.find? fun w => w.wid == wid with
  | some w => w.visibleTo (p.unitsFrom lvl)
  | none => true

/-- A write that every agent sees at once, made by firmware, a board or the host at its home. -/
def State.poke (s : State) (loc : Nat) (data : List Byte) : State := (s.append loc data false [.system]).1

/-- The same of firmware, at an address that the host has given it: where nothing stands, nothing is written (R296). -/
def State.pokeAt (s : State) (loc : Nat) (data : List Byte) : State :=
  if inDram loc data.length || inHost loc data.length then s.poke loc data else s

/-! ### Completion and fences (R251 to R253) -/

def Cls.bit : Cls → Nat
  | .ld => 0 | .st => 1 | .atom => 2 | .cp => 3 | .mx => 4 | .bk => 5 | .cx => 6

def inSet (m : BitVec 7) (c : Cls) : Bool := m.getLsbD c.bit

/-- Every operation of a thread named before `id`, of the classes of a set, has completed at a scope (R252). -/
def State.completedAt (s : State) (p : Place) (id : Nat) (m : BitVec 7) (lvl : Nat) : Bool :=
  (s.ops.all fun o => !(o.place.gid == p.gid && p.thr ∈ o.thrs && o.id < id && inSet m o.cls)) &&
  (match s.thread? p.gid p.thr with
   | some t => t.seen.all fun e => !(e.op < id && inSet m e.cls) || s.reached e.wid p lvl
   | none => true)

def State.fenceOk (s : State) (f : FenceMark) : Bool := s.completedAt f.place f.id f.pred f.scope.level

/-- No fence of the thread before `id` holds back its class (R253). -/
def State.fencesAllow (s : State) (gid t id : Nat) (c : Cls) : Bool :=
  s.fences.all fun f => !(f.place.gid == gid && f.place.thr == t && f.id < id && inSet f.succ c) || s.fenceOk f

/-- The bytes an LD, ST or AT operation touches (R251). -/
def OpKind.range : OpKind → Option (Nat × Nat)
  | .load loc n .. => some (loc, n)
  | .store loc d _ => some (loc, d.length)
  | .atomic loc _ ty _ _ _ | .cas loc ty _ _ _ => some (loc, ty.width / 8)
  | .keepLoad slot _ _ _ _ _ | .ldk slot _ _ | .ldsib slot _ _ _ | .keepStore slot .. | .rcn slot _ _ _ _
  | .keepAtomic slot _ _ _ _ _ | .keepCas slot _ _ _ _ => some (slot, 32)
  | _ => none

/-- The registers that an operation writes when it completes. -/
def OpKind.dests : OpKind → List Reg
  | .load _ n d _ _ _ | .keepLoad _ _ n d _ _ => regRun d ((n + 7) / 8)
  | .atomic _ _ _ (some d) _ _ | .cas _ _ d _ _ | .keepAtomic _ _ _ (some d) _ _ | .keepCas _ _ d _ _ | .ctake _ _ _ _ d _ => [d]
  | .ldk _ d _ | .rcn _ _ _ d _ => regRun d 2
  | .ldsib _ n d _ => regRun d (2 * n + 1)
  | .mmov flags n d _ _ => regRun d (if flags then 1 else n)
  | _ => []

/-- Their numbers in poison and clobber records: k registers, of an operation of trap mode, from 256 up (R88). -/
def Op.destNum (o : Op) (r : Reg) : Nat := if o.kmode ∧ 248 ≤ r.toNat then r.toNat + 8 else r.toNat

/-- A thread has a result outstanding to the register of a number (R91, R138, R220); an exited thread gets none (R109). -/
def State.loadPending (s : State) (gid t num : Nat) : Bool :=
  !((s.thread? gid t).any (·.exited)) && s.ops.any fun o => o.place.gid == gid && t ∈ o.thrs && num ∈ o.kind.dests.map o.destNum

def overlap (a b : Nat × Nat) : Bool := a.1 < b.1 + b.2 && b.1 < a.1 + a.2

def Cls.isMem : Cls → Bool
  | .ld | .st | .atom => true | _ => false

/-- No earlier LD, ST or AT operation of the thread at an overlapping location is still to be taken (R251). -/
def State.orderOk (s : State) (gid t id : Nat) (r : Nat × Nat) : Bool :=
  s.ops.all fun o => !(o.place.gid == gid && t ∈ o.thrs && o.id < id && o.cls.isMem
    && (match o.kind.range with | some q => overlap q r | none => false))

/-- An operation was issued past a WAIT whose condition does not hold yet (R213). -/
def State.pastWait (s : State) (o : Op) : Bool := ((s.gang? o.place.gid).bind (·.spec)).any fun sp => decide (sp.first ≤ o.id)

/-- Is an operation's first transition enabled (R251, R253)? One issued past a WAIT is not until that is confirmed: speculation adds no outcome
(R111, R262). -/
def State.enabled (s : State) (o : Op) : Bool :=
  !s.pastWait o && o.thrs.all fun t => s.fencesAllow o.place.gid t o.id o.cls &&
    (match o.kind.range with
     | some r => if o.cls.isMem then s.orderOk o.place.gid t o.id r else true
     | none => true)

/-- Note that a thread has read or made writes (R252). -/
def State.note (s : State) (gid t op : Nat) (c : Cls) (wids : List Nat) : State :=
  let ws := wids.filter fun w => s.writes.any fun x => x.wid == w
  if ws.isEmpty then s
  else s.modThread gid t fun x =>
    { x with seen := (x.seen.filter fun e => s.writes.any fun y => y.wid == e.wid) ++ ws.map fun w => ⟨op, c, w⟩ }

/-! ### Translation (R147, R236, R295 to R302) -/

/-- Trap causes (R370). -/
def cILLEGAL : Nat := 0x01
def cBADTARGET : Nat := 0x02
def cPRIV : Nat := 0x03
def cTRANSLATION : Nat := 0x04
def cACCESS : Nat := 0x05
def cALIGN : Nat := 0x06
def cREGEN : Nat := 0x07
def cUNHANDLED : Nat := 0x08
def cSTALE : Nat := 0x09
def cKEEPMETA : Nat := 0x0A
def cKEEPTOKEN : Nat := 0x0B
def cATOMDET : Nat := 0x0C
def cMEMUE : Nat := 0x0D
def cPREEMPT : Nat := 0x0E
def cCODEGONE : Nat := 0x0F
def cTRAP : Nat := 0x10

/-- What a generic address names. -/
inductive Resolved where
  | scratch (loc : Nat)
  | page (p : Page) (pa : Nat)
  deriving DecidableEq, Repr

def Resolved.loc : Resolved → Nat
  | .scratch l => l
  | .page _ pa => pa

def Resolved.pageAt : Resolved → List (Nat × Nat)
  | .scratch _ => []
  | .page p _ => [(p.va, p.size)]

def windowSize : Nat := 2 ^ 19

def Context.page? (c : Context) (va : Nat) : Option Page := c.pages.find? fun p => p.va ≤ va && va < p.va + p.size

/-- Translate a generic address of a block's thread (R147, R301, R302): the cause of a failure, or what it names. DESIGN CHOICE, log entry 45. -/
def translate (c : Context) (b : Option Block) (ea : Nat) : Except Nat Resolved :=
  if 2 ^ 56 ≤ ea then .error cTRANSLATION
  else if c.window ≤ ea ∧ ea < c.window + windowSize then
    match b with
    | some b =>
      if c.window + b.sbase ≤ ea ∧ ea < c.window + b.sbase + b.ssize then .ok (.scratch (scratchLoc b.bid (ea - c.window - b.sbase)))
      else .error cACCESS
    | none => .error cACCESS
  else match c.page? ea with
    | some p => .ok (.page p (p.pa + (ea - p.va)))
    | none => .error cTRANSLATION

/-- What an access needs of its page (R297). -/
structure Need where
  r : Bool := false
  w : Bool := false
  x : Bool := false
  /-- KEEP pages are not allowed, or are required. -/
  noKeep : Bool := false
  keep : Bool := false
  /-- Bank-layout pages are not allowed, or are required. -/
  noBank : Bool := false
  bank : Bool := false
  /-- The scratchpad window is not allowed. -/
  noScratch : Bool := false
  /-- A peer window is allowed (R365). -/
  peer : Bool := false
  deriving DecidableEq, Repr

def Need.okPage (n : Need) (p : Page) : Bool :=
  (!n.r || p.r) && (!n.w || p.w) && (!n.x || p.x) && (!n.noKeep || !p.keep) && (!n.keep || p.keep)
    && (!n.noBank || !p.bank) && (!n.bank || p.bank) && (n.peer || p.link.isNone)

def Need.ok (n : Need) : Resolved → Bool
  | .scratch _ => !n.noScratch && !n.keep && !n.bank && !n.x
  | .page p _ => n.okPage p

/-- Translate and check an address: TRANSLATION before ACCESS (R150). -/
def access (c : Context) (b : Option Block) (n : Need) (ea : Nat) : Except Nat Resolved :=
  match translate c b ea with
  | .error e => .error e
  | .ok r => if n.ok r then .ok r else .error cACCESS

/-- Addresses of a range at which a new page may begin: its first byte and every 4 KiB boundary inside. -/
def rangePoints (ea n : Nat) : List Nat :=
  if n = 0 then [] else ea :: ((List.range ((ea + n - 1) / 4096 - ea / 4096)).map fun i => (ea / 4096 + 1 + i) * 4096)

/-- The end of the part of a range that begins at one of its points. -/
def partEnd (ea n a : Nat) : Nat := min (ea + n) ((a / 4096 + 1) * 4096)

/-- A part that begins inside a block's scratchpad must end inside it: the first byte past the block fails (R236). -/
def pastBlock (c : Context) (b : Option Block) (r : Resolved) (stop : Nat) : Option Nat :=
  match r, b with
  | .scratch _, some b => if c.window + b.sbase + b.ssize < stop then some (c.window + b.sbase + b.ssize) else none
  | _, _ => none

/-- The first byte of a range that does not translate. -/
def untranslated (c : Context) (b : Option Block) (ea len : Nat) : Option Nat :=
  (rangePoints ea len).find? fun a => match translate c b a with
    | .error e => e == cTRANSLATION
    | .ok _ => false

/-- Check every byte of a range, TRANSLATION of all before ACCESS of any (R150); the first failing address and its cause, or the
translations of its points. -/
def accessRange (c : Context) (b : Option Block) (n : Need) (ea len : Nat) : Except (Nat × Nat) (List (Nat × Resolved)) :=
  match untranslated c b ea len with
  | some a => .error (cTRANSLATION, a)
  | none => (rangePoints ea len).foldl (fun acc a =>
    match acc with
    | .error e => .error e
    | .ok l => match access c b n a with
      | .error e => .error (e, a)
      | .ok r => match pastBlock c b r (partEnd ea len a) with
        | some x => .error (cACCESS, x)
        | none => .ok (l ++ [(a, r)])) (.ok [])

/-- The failure that several ranges and rules of one access report: TRANSLATION, then ACCESS, then the others (R150). -/
def firstCause (fs : List (Nat × Nat)) : Option (Nat × Nat) :=
  (fs.find? fun x => x.1 == cTRANSLATION).or ((fs.find? fun x => x.1 == cACCESS).or fs.head?)

/-- The location of an address within a checked range. -/
def locIn (l : List (Nat × Resolved)) (ea : Nat) : Nat :=
  match (l.filter fun e => e.1 ≤ ea).getLast? with
  | some (a, r) => r.loc + (ea - a)
  | none => ea

/-! ### Bytes on their way (R168, R365, R366) -/

/-- Is a location the destination of a copy that is still in flight? DEDUCED, log entry 63. -/
def State.inCopy (s : State) (loc : Nat) : Bool :=
  s.ops.any fun o => match o.kind with
    | .copy _ _ rows => rows.any fun r => r.dst ≤ loc && loc < r.dst + r.len && !r.landDone
    | _ => false

/-- A load of this location returns an unpredictable byte: a copy has not landed it (R168), or it is a peer's, which other modules write.
Log entry 21. -/
def State.unsettled (s : State) (loc : Nat) : Bool := s.inCopy loc || (linkOf loc).isSome

/-! ### Encrypted pages (R297) -/

def Context.encAt (c : Context) (loc : Nat) : Bool := c.pages.any fun p => p.enc && p.pa ≤ loc && loc < p.pa + p.size

def State.keyOf (s : State) (c : Context) : List Byte := (alGet s.sup.keys c.key).getD []

/-- The key that a context's page applies at a location, if it is an ENC page. -/
def State.keyAt (s : State) (ctx : Option Nat) (loc : Nat) : Option (List Byte) :=
  ((ctx.bind s.ctx?).filter fun c => c.encAt loc).map s.keyOf

/-- The key under which a byte that was read was written. -/
def State.keyIn (s : State) (loc : Nat) (b : RByte) : Option (List Byte) :=
  match b.wid.bind fun w => s.writes.find? fun x => x.wid == w with
  | some w => w.key
  | none => alGet s.crypt loc

/-- A byte as a context, or none of them, reads it: what was written, under the same key or none; else what XTS makes of it. Log entry 106. -/
def State.seenByte (s : State) (ctx : Option Nat) (loc : Nat) (b : RByte) : RByte :=
  let w := s.keyIn loc b
  let r := s.keyAt ctx loc
  if w = r then b else { b with val := Config.xtsByte w r loc (rbVals (s.lastBytes (loc / 16 * 16) 16)) }

/-- No byte stands encrypted, and no page encrypts. -/
def State.plain (s : State) : Bool :=
  s.crypt.isEmpty && (s.writes.all fun w => w.key.isNone) && s.contexts.all fun c => c.pages.all fun p => !p.enc

/-- The key under which a byte stands. -/
def State.keyHere (s : State) (loc : Nat) : Option (List Byte) := s.keyIn loc (s.byteFrom (s.lastOf loc) loc)

/-- A write that every agent sees at once, under a key. -/
def State.pokeAs (s : State) (loc : Nat) (data : List Byte) (key : Option (List Byte)) : State := (s.append loc data false [.system] none key).1

/-- Bytes from a location as a context reads them. -/
def State.seenBy (s : State) (ctx : Option Nat) (loc : Nat) (bs : List RByte) : List RByte :=
  if s.plain then bs else (bs.zip (List.range bs.length)).map fun b => s.seenByte ctx (loc + b.2) b.1

/-! ### Views (R263) -/

/-- A FENCE of thread p, later than operation `lo` and earlier than `hi`, with c before and d after (R203, R330). -/
def State.fenceBetween (s : State) (p : Place) (lo hi : Nat) (c d : Cls) : Bool :=
  s.fences.any fun f => f.place.gid == p.gid && f.place.thr == p.thr && lo < f.id && f.id < hi && inSet f.pred c && inSet f.succ d

/-- Does a read see a staged write (R203, R263, R330)? Loads see every one but the bank results that no FENCE placed before them; bank
operations see only the stores and bank results that a FENCE placed before them. -/
def State.seesStaged (s : State) (reader : Cls) (id opId : Nat) (c : Cls) (p : Place) : Bool :=
  if reader = .bk then (c == .st || c == .bk) && s.fenceBetween p opId id c .bk
  else c != .bk || s.fenceBetween p opId id .bk .ld

/-- A deterministic block's view of a byte: its own staged writes over memory at kernel start, as its context reads that (R263, R297, R318). -/
def State.detByte (s : State) (l : Launch) (b : Block) (reader : Cls) (id loc : Nat) : RByte :=
  b.staged.foldl (fun v w =>
    match w with
    | .bytes opId c p wl d bad =>
      if wl ≤ loc ∧ loc < wl + d.length ∧ s.seesStaged reader id opId c p then ⟨d.getD (loc - wl) 0, bad, none⟩ else v
    | .keep .. => v) (s.seenByte (some l.ctx) loc ⟨memGet l.kstart loc, loc ∈ l.kpoison, none⟩)

/-- An agent outside a deterministic launch has written a location since the launch started: what the launch reads there is unpredictable
(R348). -/
def State.disturbed (s : State) (l : Launch) (loc : Nat) : Bool :=
  l.det && !isScratch loc && s.wrote.any fun w => l.first ≤ w.wid && w.wid ∉ l.own && w.loc ≤ loc && loc < w.loc + w.data.length

/-- What a block reads at a location is unpredictable (R168, R348, R365). -/
def State.unsure (s : State) (bid loc : Nat) : Bool :=
  s.unsettled loc || (((s.block? bid).bind fun b => s.launch? b.launch).any fun l => s.disturbed l loc)

/-- What a thread's load, named `id`, of n bytes returns now: the latest visible bytes, or the deterministic view of generic
memory. -/
def State.viewBytes (s : State) (p : Place) (id loc n : Nat) : List RByte :=
  match s.block? p.bid with
  | some b => match s.launch? b.launch with
    | some l => if l.det && !isScratch loc then (List.range n).map fun i => s.detByte l b .ld id (loc + i)
                else s.seenBy (some l.ctx) loc (s.readBytes p.units loc n)
    | none => s.readBytes p.units loc n
  | none => s.readBytes p.units loc n

/-- Has a location been written since a block's launch started, or does the block's own staged write stand there? Reads of it through the
constant space return unpredictable values (R148). DEDUCED, log entry 101. -/
def State.constWritten (s : State) (p : Place) (loc : Nat) : Bool :=
  match s.block? p.bid with
  | none => false
  | some b =>
    (s.wrote.any fun w => ((s.launch? b.launch).any fun l => l.first ≤ w.wid) && w.loc ≤ loc && loc < w.loc + w.data.length)
      || b.staged.any fun w => match w with
        | .bytes _ _ _ wl d _ => wl ≤ loc && loc < wl + d.length
        | .keep .. => false

def State.isDet (s : State) (g : Gang) : Bool := ((s.launchOf g).map (·.det)).getD false

/-- Read a number from physical memory as firmware does: everything that has reached it. -/
def State.physNat (s : State) (pa n : Nat) : Nat := rbNat (s.lastBytes pa n)

end Sys2Proof.Machine
end

