-- ==== Sys2Proof/Machine/Fetch.lean ====
section
/-! DEFINITION. Fetching instructions: fetch lines and their parity (R43, R44, R48), forwarding lines (R50 to R52), pad parcels
and instruction boundaries (R46, R53), and the legality of a transfer of control (R45). -/

namespace Sys2Proof.Machine
open Host

/-- A fetch that fails: cause, SUB and %taddr. -/
structure FetchErr where
  cause : Nat
  sub : Nat
  addr : Nat
  deriving DecidableEq, Repr

/-- Cause and address of a failing check; a SUB stands above the cause. -/
def FetchErr.pair (e : FetchErr) : Nat × Nat := (e.cause + 256 * e.sub, e.addr)

def lineOf (pc : Nat) : Nat := pc / 64 * 64

/-- The parcel of an address in its line (R43). -/
def parcelOf (pc : Nat) : Nat := (pc % 64 - 4) / 4

/-- Even parity (R44): the protected bits and the parity bit hold an even number of ones. -/
def FLine.parityOk (l : FLine) : Bool :=
  let ones (ps : List W32) : Nat := (ps.map fun p => popcount 32 p.toNat).sum
  let word := l.word.toNat
  (ones (l.parcels.take 8) + word / 2 ^ 30 % 2) % 2 == 0
    && (ones (l.parcels.drop 8) + popcount 31 word + word / 2 ^ 31 % 2) % 2 == 0

/-- A line with the parity bits that its TGT and PAIR fields and its parcels need (R44). -/
def makeLine (tgt pair : Nat) (ps : List W32) : FLine :=
  let ones (ps : List W32) : Nat := (ps.map fun p => popcount 32 p.toNat).sum
  let w0 := tgt % 2 ^ 15 + 2 ^ 15 * (pair % 2 ^ 15)
  let w1 := w0 + 2 ^ 30 * (ones (ps.take 8) % 2)
  ⟨BitVec.ofNat 32 (w1 + 2 ^ 31 * ((ones (ps.drop 8) + popcount 31 w1) % 2)), ps⟩

/-- The 64 bytes of a line (R43). -/
def FLine.bytes (l : FLine) : List Byte := leBytes 4 l.word.toNat ++ l.parcels.flatMap fun p => leBytes 4 p.toNat

def bytesToLine (bs : List Byte) : FLine :=
  ⟨BitVec.ofNat 32 (leNat (bs.take 4)), (List.range 15).map fun i => BitVec.ofNat 32 (leNat ((bs.drop (4 + 4 * i)).take 4))⟩

/-- Read a whole line as a fetch does: translation and X (R49), parity (R48). A line whose bits mismatch in memory mismatches again
when it is read from the next level. DEDUCED, log entry 39. -/
def readLine (s : State) (c : Context) (us : List ScopeUnit) (pc : Nat) : Except FetchErr FLine :=
  match access c none { x := true } (lineOf pc) with
  | .error e => .error ⟨e, 0, pc⟩
  | .ok r =>
    let bs := s.seenBy (some c.num) r.loc (s.readBytes us r.loc 64)
    let l := bytesToLine (rbVals bs)
    if rbBad bs || !l.parityOk then .error ⟨cMEMUE, 1, pc⟩ else .ok l

/-- The safe-point map of a forwarding line (R50). -/
def FLine.map? (l : FLine) : Option Nat :=
  if l.word.toNat % 2 ^ 30 = 2 ^ 15 * 0x7FFF then
    some ((l.parcels.getD 0 0).toNat + 2 ^ 32 * (l.parcels.getD 1 0).toNat)
  else none

/-- Read n bytes of a safe-point map with the context's translation (R52). -/
def mapWord (s : State) (c : Context) (us : List ScopeUnit) (va n : Nat) : Except FetchErr Nat :=
  match access c none { r := true } va with
  | .error e => .error ⟨e, 0, va⟩
  | .ok r =>
    let bs := s.seenBy (some c.num) r.loc (s.readBytes us r.loc n)
    if rbBad bs then .error ⟨cMEMUE, 1, va⟩ else .ok (rbNat bs)

/-- Search the entries lo to hi − 1, sorted by old offset (R51), for an offset. The map's base, its length and its number of entries are
read first, then the entries that a binary search meets; the first word that fails is the one %taddr shows. DESIGN CHOICE, log entry 92. -/
def mapFind (s : State) (c : Context) (us : List ScopeUnit) (map off : Nat) : Nat → Nat → Nat → Except FetchErr (Option Nat)
  | 0, _, _ => .ok none
  | fuel + 1, lo, hi =>
    if hi ≤ lo then .ok none
    else
      let mid := (lo + hi) / 2
      match mapWord s c us (map + 32 + 16 * mid) 4 with
      | .error e => .error e
      | .ok o =>
        if o = off then
          match mapWord s c us (map + 40 + 16 * mid) 8 with
          | .error e => .error e
          | .ok v => .ok (some v)
        else if o < off then mapFind s c us map off fuel (mid + 1) hi
        else mapFind s c us map off fuel lo mid

/-- One redirection of address P (R52). -/
def redirect (s : State) (c : Context) (us : List ScopeUnit) (map pc : Nat) : Except FetchErr Nat :=
  match mapWord s c us map 8 with
  | .error e => .error e
  | .ok base => match mapWord s c us (map + 8) 8 with
    | .error e => .error e
    | .ok size =>
      if pc < base ∨ base + size ≤ pc then .error ⟨cBADTARGET, 0, pc⟩
      else match mapWord s c us (map + 16) 4 with
        | .error e => .error e
        | .ok n => match mapFind s c us map (pc - base) 26 0 n with
          | .error e => .error e
          | .ok none => .error ⟨cBADTARGET, 0, pc⟩
          | .ok (some v) => .ok v

/-- R45's conditions on an address whose line is at hand; condition 3 for program transfers only. -/
def startsFrom (ps : List W32) : Nat → Nat → List (Nat × Nat)
  | 0, _ => []
  | fuel + 1, i =>
    if 15 ≤ i then []
    else
      let p := ps.getD i 0
      if p = 0xFFFFFFFF then startsFrom ps fuel (i + 1)
      else (i, formLength p) :: startsFrom ps fuel (i + max 1 (formLength p))

/-- The instruction boundaries of a line: parcel and length in parcels, 0 for the illegal form (R46, R53). -/
def FLine.starts (l : FLine) : List (Nat × Nat) := startsFrom l.parcels 15 0

def FLine.targetOk (l : FLine) (prog : Bool) (pc : Nat) : Bool :=
  pc % 4 == 0 && pc % 64 != 0 && (!prog || l.word.getLsbD (parcelOf pc)) && l.starts.any fun e => e.1 == parcelOf pc

/-- Follow redirections from an address (R52): the final address and its line, if its line can be read. After the first
redirection the transfer is a resumption transfer. -/
def resolve (s : State) (c : Context) (us : List ScopeUnit) : Nat → Nat → Except FetchErr (Nat × Except FetchErr FLine)
  | fuel, pc =>
    match readLine s c us pc with
    | .error e => .ok (pc, .error e)
    | .ok l =>
      match l.map? with
      | none => .ok (pc, .ok l)
      | some m =>
        match fuel with
        | 0 => .error ⟨cBADTARGET, 0, pc⟩
        | fuel + 1 =>
          match redirect s c us m pc with
          | .error e => .error e
          | .ok pc' => resolve s c us fuel pc'

/-- Check a transfer to an address (R45, R52): the address reached, or the trap. A target whose line cannot be fetched passes,
and its fetch traps there (R49). A new PC of a redirection that R45 refuses shows itself in %taddr. DESIGN CHOICE, log entry 112. -/
def checkTarget (s : State) (c : Context) (us : List ScopeUnit) (prog : Bool) (pc : Nat) : Except FetchErr Nat :=
  match resolve s c us 3 pc with
  | .error e => .error e
  | .ok (pc', .error _) => if pc' % 4 = 0 ∧ pc' % 64 ≠ 0 then .ok pc' else .error ⟨cBADTARGET, 0, pc'⟩
  | .ok (pc', .ok l) => if l.targetOk (prog && pc' == pc) pc' then .ok pc' else .error ⟨cBADTARGET, 0, pc'⟩

/-- An instruction as fetched: its PC, the instruction (none: an illegal encoding), the PC that sequential fetch reaches next, its
bits for the replay queue, its length in parcels, and the instruction it pairs with. -/
structure Fetched where
  pc : Nat
  instr : Option Instr
  next : Nat
  enc : Word
  lit : W32
  len : Nat
  pair : Option PairInfo
  deriving DecidableEq, Repr

/-- The lines that a context can fetch: a run of lines that hold only pads is no longer (R46). -/
def Context.lines (c : Context) : Nat := (c.pages.map fun p => p.size / 64 + 1).sum

/-- The first instruction at or after a line, crossing every line that holds only pads; the address of parcel 0 of a line that cannot be
read or that forwards (R46). The fuel is the number of lines that can be read, and so is never used up. -/
def firstFrom (s : State) (c : Context) (us : List ScopeUnit) : Nat → Nat → Nat
  | 0, line => line + 4
  | fuel + 1, line =>
    match readLine s c us line with
    | .error _ => line + 4
    | .ok l =>
      if l.map?.isSome then line + 4
      else match l.starts with
        | e :: _ => line + 4 + 4 * e.1
        | [] => firstFrom s c us fuel (line + 64)

/-- Decode the parcels from parcel i of a line; an instruction that would pass parcel 14 is none (R46). -/
def FLine.decodeAt (l : FLine) (i : Nat) : Option (Instr × Nat) :=
  let p := l.parcels.getD i 0
  if 15 < i + formLength p then none
  else decodeParcels p (l.parcels.getD (i + 1) 0) (l.parcels.getD (i + 2) 0)

/-- The encoding of the instruction at parcel i: bits [63:0], lit32, length. -/
def FLine.encAt (l : FLine) (i : Nat) : Word × W32 × Nat :=
  let p (k : Nat) : Nat := (l.parcels.getD (i + k) 0).toNat
  match formLength (l.parcels.getD i 0) with
  | 2 => (BitVec.ofNat 64 (p 0 + 2 ^ 32 * p 1), 0, 2)
  | 3 => (BitVec.ofNat 64 (p 0 + 2 ^ 32 * p 1), BitVec.ofNat 32 (p 2), 3)
  | n => (BitVec.ofNat 64 (p 0), 0, max 1 n)

/-- The PC that sequential fetch reaches from parcel i of a line whose instruction there has n parcels (R46). -/
def nextPc (s : State) (c : Context) (us : List ScopeUnit) (l : FLine) (line i n : Nat) : Nat :=
  match (startsFrom l.parcels 15 (i + max 1 n)) with
  | e :: _ => line + 4 + 4 * e.1
  | [] => firstFrom s c us (c.lines + 1) (line + 64)

/-- The fetched instruction at an address of a line that is at hand. -/
def fetchIn (s : State) (c : Context) (us : List ScopeUnit) (l : FLine) (pc : Nat) : Fetched :=
  let line := lineOf pc
  let i := parcelOf pc
  let d := l.decodeAt i
  let (enc, lit, len) := l.encAt i
  let pair := match startsFrom l.parcels 15 (i + len) with
    | (j, n) :: _ =>
      if l.word.getLsbD (15 + i) && (l.decodeAt j).isSome then
        let (e, t, k) := l.encAt j
        some (PairInfo.mk (line + 4 + 4 * j) (nextPc s c us l line j n) e t k)
      else none
    | [] => none
  ⟨pc, d.map (·.1), nextPc s c us l line i len, enc, lit, len, pair⟩

/-- Fetch from memory, redirecting (R52) and skipping pads (R46). -/
def fetchGo (s : State) (c : Context) (us : List ScopeUnit) : Nat → Nat → Except FetchErr Fetched
  | fuel, pc =>
    match resolve s c us 3 pc with
    | .error e => .error e
    | .ok (_, .error e) => .error e
    | .ok (pc', .ok l) =>
      if pc' ≠ pc ∧ !l.targetOk false pc' then .error ⟨cBADTARGET, 0, pc'⟩
      else match fuel with
        | 0 => .ok (fetchIn s c us l pc')
        | fuel + 1 =>
          if l.parcels.getD (parcelOf pc') 0 = 0xFFFFFFFF then fetchGo s c us fuel (nextPc s c us l (lineOf pc') (parcelOf pc') 1)
          else .ok (fetchIn s c us l pc')

/-- The line fetched ahead for a gang, where it serves an address (R49). -/
def State.ahead (s : State) (gid pc : Nat) : Option FLine :=
  s.line.bind fun b =>
    if b.gid = gid ∧ b.addr = lineOf pc ∧ b.line.map?.isNone ∧ b.line.parcels.getD (parcelOf pc) 0 ≠ 0xFFFFFFFF then some b.line
    else none

/-- Fetch the instruction that a thread standing at an address needs. -/
def fetch (s : State) (c : Context) (us : List ScopeUnit) (gid pc : Nat) : Except FetchErr Fetched :=
  match s.ahead gid pc with
  | some l => .ok (fetchIn s c us l pc)
  | none => fetchGo s c us 2 pc

end Sys2Proof.Machine
end

