-- ==== Sys2Proof/Machine/Regen.lean ====
section
/-! DEFINITION. Special registers as read (R77, R79, R87) and the regeneration of recipe rods (R189, R222 to R227): a slice runs for
one thread over private registers and answers a value, a fault, or that its loads must wait. -/

namespace Sys2Proof.Machine
open Host

/-! ### Surroundings of a gang -/

/-- What a gang's instructions run in. -/
structure Env where
  g : Gang
  b : Block
  l : Launch
  c : Context
  deriving DecidableEq, Repr

def State.env? (s : State) (gid : Nat) : Option Env :=
  (s.gang? gid).bind fun g => (s.block? g.bid).bind fun b => (s.launch? b.launch).bind fun l => (s.ctx? l.ctx).bind fun c =>
    some ⟨g, b, l, c⟩

def Env.place (e : Env) (t : Nat) : Place := e.g.place e.b t

/-- The control block in force for the launch's region (R339). -/
def Env.rcb (e : Env) : Rcb := (e.c.effective e.l.region).getD e.l.rcb

/-! ### Special registers (R77, R79, R80, R86, R87) -/

/-- Enabled clusters of a die (R9, R395); which two of the fifty are spares at delivery is open. Log entry 13. -/
def State.clusterOn (s : State) (die n : Nat) : Bool :=
  (n < 48 || UnitId.cluster die n ∈ s.sup.spares) && UnitId.cluster die n ∉ s.sup.retired
def State.nclu (s : State) (die : Nat) : Nat := ((List.range 50).filter fun n => s.clusterOn die n).length

/-- %feat (R87). -/
def State.feat (s : State) (die : Nat) : Word := BitVec.ofNat 64 (63 + 2 ^ 32 + 2 ^ 40 * s.nclu die)

def sbaseOf (c : Context) (b : Block) : Nat := c.window + b.sbase

/-- The special registers that do not change while a block runs, by number (R77, R189). -/
def State.sregFixed (s : State) (e : Env) (t n : Nat) : Option Word :=
  let w (x : Nat) : Option Word := some (BitVec.ofNat 64 x)
  match n with
  | 0x00 => w t
  | 0x01 => w e.g.idx
  | 0x02 => w (32 * e.g.idx + t)
  | 0x03 => w e.b.nthreads
  | 0x04 => w e.b.bidx
  | 0x05 => w e.b.bidy
  | 0x06 => w e.b.bidz
  | 0x07 => w e.l.nd.nb.1
  | 0x08 => w e.l.nd.nb.2.1
  | 0x09 => w e.l.nd.nb.2.2
  | 0x0D => w e.l.region
  | 0x0E => w e.c.num
  | 0x0F => w e.l.seq
  | 0x1A => some (s.feat e.b.die)
  | 0x1B => w e.l.det.toNat
  | 0x1E => w (sbaseOf e.c e.b)
  | 0x1F => w e.l.kparm
  | _ => none

/-- Every special register as MOVS reads it; none for the reserved numbers (R77). -/
def State.sreg (s : State) (e : Env) (t n : Nat) : Option Word :=
  let w (x : Nat) : Option Word := some (BitVec.ofNat 64 x)
  let th (f : Thread → Word) : Option Word := some (((e.g.thread? t).map f).getD 0)
  let tr (f : TrapMode → Nat) : Option Word := w ((e.g.trap.map f).getD 0)
  match n with
  | 0x0A => w (if e.l.det then 0xFFFF else e.b.core)
  | 0x0B => w (if e.l.det then 0xFFFF else e.b.core / 4)
  | 0x0C => w (if e.l.det then 0xFFFF else e.b.die)
  | 0x10 => w e.c.clk
  | 0x11 => w (s.wall e.b.die)
  | 0x12 => some e.g.tmr
  | 0x13 => th (·.fpc)
  | 0x14 => th (·.fst)
  | 0x15 => th (·.hsp)
  | 0x16 => th (·.eff)
  | 0x17 => th (·.earg)
  | 0x18 => th (·.etok)
  | 0x19 => th (·.olth)
  | 0x1C => some e.g.rcpst
  | 0x1D => some (s.wcntWord e.g.gid t)
  | 0x20 => tr fun m => m.cause + 2 ^ 8 * m.code
  | 0x21 => th (·.tepc)
  | 0x22 => tr fun m => (m.mask.map fun i => 2 ^ i).sum
  | 0x23 => th (·.taddr)
  | 0x24 => th (·.tslice)
  | 0x25 => tr fun m => m.queue.length
  | _ => s.sregFixed e t n

/-! ### Slices -/

/-- What a slice may contain (R189), and its register reads and writes. -/
def sliceLegal (i : Instr) : Bool :=
  guardOf i == ⟨7, false⟩ &&
  match i with
  | .movS .. | .iaddS .. | .isubS .. | .andS .. | .orS .. | .xorS .. | .shlS .. | .shrS .. | .imulS .. | .faddF32S ..
  | .fmulF32S .. | .faddF32x2S .. | .fmulF32x2S .. | .faddBf16x4S .. | .fmulBf16x4S .. | .iaddImmS .. | .shlImmS ..
  | .shrImmS .. | .ldB64S ..
  | .mov .. | .movi .. | .iadd .. | .isub .. | .imul .. | .imulh .. | .imad .. | .idiv .. | .irem .. | .ineg .. | .iabs ..
  | .imin .. | .imax .. | .iadds .. | .isubs .. | .lea .. | .and .. | .or .. | .xor .. | .andn .. | .not .. | .shl .. | .shr ..
  | .sar .. | .rot .. | .bfe .. | .bfi .. | .popc .. | .clz .. | .ctz .. | .brev .. | .bperm ..
  | .fadd .. | .fsub .. | .fmul .. | .ffma .. | .fmin .. | .fmax .. | .frnd .. | .fscale .. | .fclass .. | .fdot .. | .fdiv ..
  | .fsqrt .. | .frcp .. | .frsq .. | .fexp2 .. | .flog2 .. | .fsin .. | .fcos .. | .ftanh .. | .fsigm .. | .cvt .. | .cvtq ..
  | .olpack .. | .olunpk .. | .blkhdr .. | .dq .. => true
  | .ld _ _ w _ sp _ _ => sp != .scratch && w.bytes ≤ 8
  | .movs _ _ sr => sr.toNat ∈ [0, 1, 2, 3, 4, 5, 6, 7, 8, 9, 0x0D, 0x0E, 0x0F, 0x1A, 0x1B, 0x1E, 0x1F]
  | _ => false

def Src.regs : Src → List Reg
  | .reg r => [r]
  | _ => []

/-- Every register an instruction reads (R188). -/
def readsOf (i : Instr) : List Reg :=
  let x := srcsOf i
  x.a.regs ++ x.b.regs ++ x.c.regs ++ x.d.regs ++ extraSrcs i

/-- Does an instruction round by fn[2:0] = 000 (R188)? -/
def usesDyn : Instr → Bool
  | .faddF32S .. | .fmulF32S .. | .faddF32x2S .. | .fmulF32x2S .. | .faddBf16x4S .. | .fmulBf16x4S .. => true
  | .fadd _ _ r _ _ _ | .fsub _ _ r _ _ _ | .fmul _ _ r _ _ _ | .ffma _ _ r _ _ _ _ | .frnd _ _ r _ _ | .fscale _ _ r _ _ _
  | .fdot _ _ r _ _ _ _ | .fdiv _ _ r _ _ _ | .fsqrt _ _ r _ _ | .cvt _ _ _ r _ _ _ _ | .cvtq _ _ _ r _ _ _ _ _
  | .olpack _ _ _ r _ _ _ _ _ | .dq _ _ r _ _ _ _ _ => r == .dyn
  | _ => false

def usesThreshold : Instr → Bool
  | .cvtq .. => true
  | _ => false

/-- A slice as read: its instructions with their PCs, or the index and place where reading failed. -/
inductive Slice where
  | ok (is : List (Nat × Instr))
  | bad (idx : Nat) (pc : Nat) (err : FetchErr)
  deriving DecidableEq, Repr

/-- Read the instructions from an address up to the first REND, at most `fuel` of them (R188). -/
def readSlice (s : State) (c : Context) (us : List ScopeUnit) (gid : Nat) : Nat → Nat → List (Nat × Instr) → Slice
  | fuel, pc, acc =>
    match fetch s c us gid pc with
    | .error e => .bad acc.length pc e
    | .ok f =>
      match f.instr with
      | none => .bad acc.length pc ⟨cILLEGAL, 0, pc⟩
      | some (.rend _) => .ok acc
      | some i => match fuel with
        | 0 => .bad acc.length pc ⟨cILLEGAL, 0, pc⟩
        | fuel + 1 => readSlice s c us gid fuel f.next (acc ++ [(pc, i)])

/-! ### Regeneration -/

/-- What regenerating one bead gives: a value and the writes its loads returned; a fault with %tslice's IDX and SUB and the ea; or
a wait for earlier operations of the thread (R253, R251). -/
inductive Regen where
  | ok (v : Word) (wids : List Nat)
  | fault (slice idx sub ea : Nat)
  | wait
  deriving DecidableEq, Repr

/-- SUB of %tslice for a translation failure (R227). -/
def subOf (cause : Nat) : Nat := if cause = cTRANSLATION then 1 else if cause = cACCESS then 2 else if cause = cALIGN then 3 else 4

/-- The effective address (R146). -/
def eaOf (a b : Word) (scale : BitVec 2) : Word := a + BitVec.ofNat 64 (b.toNat * 2 ^ scale.toNat)

/-- Extension of loaded bytes (R153). -/
def loadWord (sext : Bool) (bs : List Byte) : Word :=
  if sext then BitVec.ofInt 64 (toSigned (8 * bs.length) (leNat bs)) else BitVec.ofNat 64 (leNat bs)

/-- A slice's load, or what it gives in place of a value: as LD, but a KEEP or bank-layout page faults (R189, R226). With `early`, only
pages with SPEC=1 (R229); past a WAIT that is not confirmed it waits (R111, R262). Through the constant space a location that has been written
gives an unpredictable value (R148); what a peer does not consent to, and a link that is down, fail as ACCESS (R365, R366). -/
def sliceLoad (s : State) (e : Env) (t : Nat) (early const : Bool) (d : Desc) (idx n : Nat) (sext : Bool) (ea : Word) : Regen :=
  let a := ea.toNat
  if a % n ≠ 0 then .fault d.slice idx 3 a
  else match access e.c (some e.b) { r := true, noKeep := true, noBank := true, peer := true } a with
    | .error c => .fault d.slice idx (subOf c) a
    | .ok r =>
      let loc := r.loc
      let spec := match r with | .page p _ => p.spec | .scratch _ => false
      if s.linkBars loc then .fault d.slice idx 2 a
      else if e.g.spec.isSome || (early && !spec) then .wait
      else if !s.fencesAllow e.g.gid t s.nextId .ld || !s.orderOk e.g.gid t s.nextId (loc, n) then .wait
      else
        let bs := s.viewBytes (e.place t) s.nextId loc n
        let vals := (rbVals bs).zip (List.range n) |>.map fun b =>
          if s.unsure e.b.bid (loc + b.2) || (const && s.constWritten (e.place t) (loc + b.2)) then (s.freeAt [t, d.rod, idx, b.2]).setWidth 8 else b.1
        if rbBad bs then .fault d.slice idx 4 a
        else .ok (loadWord sext vals) (rbWids bs)

/-- Run a slice for one thread. `inp` reads an input register for the slice's instruction of an index. -/
def runSlice (s : State) (e : Env) (t : Nat) (early : Bool) (d : Desc) (inp : Nat → Reg → Regen) :
    List (Nat × Instr) → Nat → List (Nat × Word) → List Nat → Regen
  | [], _, env, wids => .ok ((alGet env d.rod).getD 0) wids
  | (_, i) :: is, idx, env, wids =>
    let rd (r : Reg) : Regen :=
      match alGet env r.toNat with
      | some v => .ok v []
      | none => inp idx r
    let src (x : Src) : Regen :=
      match x with
      | .none => .ok 0 []
      | .const v => .ok v []
      | .reg r => rd r
    let x := srcsOf i
    match src x.a, src x.b, src x.c, src x.d with
    | .ok a wa, .ok b wb, .ok c wc, .ok dv wd =>
      let wids := wids ++ wa ++ wb ++ wc ++ wd
      let extra := (extraSrcs i).map rd
      let xs := extra.map fun r => match r with | .ok v _ => v | _ => 0
      let lin : LaneIn := { a := a, b := b, c := c, d := dv, x := xs, fpc := BitVec.ofNat 64 d.mode, olth := d.olth }
      let put (r : Reg) (v : Word) := alSet env r.toNat v
      match extra.find? fun r => match r with | .ok _ _ => false | _ => true with
      | some r => r
      | none =>
        match i with
        | .ld _ _ w sext sp rd m =>
          match sliceLoad s e t early (sp == .constant) d idx w.bytes sext (eaOf a b m.scale) with
          | .ok v ws => runSlice s e t early d inp is (idx + 1) (put rd v) (wids ++ ws)
          | r => r
        | .ldB64S rd _ _ =>
          match sliceLoad s e t early false d idx 8 false (eaOf a b 3) with
          | .ok v ws => runSlice s e t early d inp is (idx + 1) (put rd v) (wids ++ ws)
          | r => r
        | .movs _ rd sr => runSlice s e t early d inp is (idx + 1) (put rd ((s.sregFixed e t sr.toNat).getD 0)) wids
        | i =>
          let out := ((laneValue i lin).map (·.regs)).getD []
          runSlice s e t early d inp is (idx + 1) (out.foldl (fun env p => alSet env p.1.toNat p.2) env) wids
    | .ok _ _, .ok _ _, .ok _ _, r => r
    | .ok _ _, .ok _ _, r, _ => r
    | .ok _ _, r, _, _ => r
    | r, _, _, _ => r

/-- The bead of a rod as thread t reads it: a RECIPE rod is regenerated, its RECIPE inputs first (R73, R222); while a load to the bead is
outstanding its value is unpredictable (R91). A poisoned bead of an input
faults at the slice's instruction that reads it (R227). The fuel is the greatest chain depth plus one (R219). -/
def readBead (s : State) (e : Env) (early : Bool) (t : Nat) : Nat → Nat → Regen
  | 0, _ => .ok 0 []
  | fuel + 1, rod =>
    if e.g.isRecipe rod then
      match e.g.desc? rod with
      | none => .ok 0 []
      | some d =>
        if t ∉ d.mask then .ok 0 []
        else match (e.g.early.find? fun x => x.1 == rod && x.2.1 == t) with
          | some x => .ok x.2.2 []
          | none =>
            match readSlice s e.c (e.place t).units e.g.gid 8 d.slice [] with
            | .bad idx pc err => .fault d.slice idx (subOf err.cause) pc
            | .ok is => runSlice s e t early d (fun idx r =>
                match e.g.isRecipe r.toNat, e.g.poison.find? fun p => p.reg == r.toNat && p.thr == t with
                | false, some p => .fault d.slice idx 4 p.addr.toNat
                | _, _ => readBead s e early t fuel r.toNat) is 0 [] []
    else if s.loadPending e.g.gid t rod then (if e.g.spec.isSome then .wait else .ok (s.freeAt [t, rod]) [])
    else .ok (e.g.bead rod t) []

end Sys2Proof.Machine
end

