-- ==== Sys2Proof/Machine/Ops.lean ====
section
/-! DEFINITION. The shared operations of every instruction: fault records and unhandled traps (R377 to R381), taking a trap (R372 to
R376), stalling, capturing operands (R89, R117, R151), materialising recipes before a write (R73, R218), and completing an
instruction. -/

namespace Sys2Proof.Machine
open Host

/-! ### Interrupts and fault records (R362, R379, R380, R381) -/

/-- Send an MSI-X message (R362). -/
def State.interrupt (s : State) (v : Nat) : State := { s with msix := s.msix ++ [v] }

def engineWord (die kind idx : Nat) : Nat := idx % 2 ^ 9 + 2 ^ 9 * kind + 2 ^ 13 * die

/-- The 64 bytes of a fault record; of a confidential context only CLASS, ENGINE, CONTEXT and WALL, with CONF (R380, R381). -/
def FaultRec.bytes (r : FaultRec) (seq lost : Nat) : List Byte :=
  if r.conf then
    leBytes 4 0 ++ leBytes 1 r.cls ++ leBytes 1 0 ++ leBytes 2 r.engine ++ leBytes 4 r.ctx ++ leBytes 4 0 ++ leBytes 8 r.wall
      ++ leBytes 30 0 ++ leBytes 2 2 ++ leBytes 8 0
  else
    leBytes 4 seq ++ leBytes 1 r.cls ++ leBytes 1 r.cause ++ leBytes 2 r.engine ++ leBytes 4 r.ctx ++ leBytes 2 r.region
      ++ leBytes 2 r.fdom ++ leBytes 8 r.wall ++ leBytes 8 r.launch ++ leBytes 8 r.addr ++ leBytes 8 r.pc ++ leBytes 4 r.tmask
      ++ leBytes 2 (min lost 0xFFFF) ++ leBytes 2 r.nested.toNat ++ leBytes 8 r.detail

/-- Write a fault record, or count it as lost when the ring is full or disabled (R379). A ring is full when one more record would
make its tail equal its head. Log entry 17. DEDUCED, log entry 40. -/
def State.writeFault (s : State) (r : FaultRec) : State :=
  let tail := s.bar.frTail.toNat
  let size := s.bar.frSize.toNat
  let next := (tail + 64) % size
  if s.bar.frBase = 0 ∨ size = 0 ∨ next = s.bar.frHead.toNat then { s with faultLost := s.faultLost + 1 }
  else
    let s1 := s.pokeAt (s.bar.frBase.toNat + tail) (r.bytes s.faultSeq s.faultLost)
    State.interrupt { s1 with bar := { s1.bar with frTail := BitVec.ofNat 64 next }, faultSeq := s.faultSeq + 1,
                              faultLost := if r.conf then s.faultLost else 0 } 1

/-- The effects of an event have reached system scope: its writes have, and the removal that it began is over (R379). -/
def State.settledFault (s : State) (f : FaultWait) : Bool :=
  (f.wids.all fun i => s.writes.all fun w => w.wid != i || w.full) && f.removal.all fun id => s.removals.all fun r => r.id != id

/-- A fault record of an event: written once the event's effects have reached system scope (R379). DEDUCED, log entry 40. -/
def State.faultRecord (s : State) (r : FaultRec) (wids : List Nat := []) (removal : Option Nat := none) : State :=
  if s.settledFault ⟨r, wids, removal⟩ then s.writeFault r else { s with faults := s.faults ++ [⟨r, wids, removal⟩] }

/-- Waiting records that can be written now are written. -/
def State.flushFaults (s : State) : State :=
  if s.faults.isEmpty then s
  else (s.faults.filter s.settledFault).foldl (fun s f => s.writeFault f.body) { s with faults := s.faults.filter fun f => !s.settledFault f }

/-! ### Trace (R388, R390) -/

/-- The 32 bytes of a trace record. -/
def traceBytes (t : Trace) (kind engine kick cseq wall data : Nat) : List Byte :=
  leBytes 4 t.seq ++ leBytes 1 kind ++ leBytes 1 0 ++ leBytes 2 engine ++ leBytes 2 kick ++ leBytes 2 (min t.dropped 0xFFFF)
    ++ leBytes 4 cseq ++ leBytes 8 wall ++ leBytes 8 data

/-- A record written for a context: sealed under its tenant key in a confidential context (R390). -/
def State.sealedFor (s : State) (c : Context) (bs : List Byte) : List Byte :=
  if c.confidential then
    Config.sealRecord ((alGet s.sup.keys c.key).getD []) (leBytes 4 c.num ++ leBytes 8 c.sealedRecs) bs
  else bs

/-- Write a trace record of a launch whose effective PERM has TRACE set; one that finds the buffer full is dropped and counted. DEDUCED, log entry 66. -/
def State.trace (s : State) (l : Launch) (kind engine wall data : Nat) : State :=
  match s.traces.find? fun t => t.ctx == l.ctx && t.region == l.region with
  | none => s
  | some t =>
    match s.ctx? l.ctx with
    | none => s
    | some c =>
      if l.rcb.perm / 2 % 2 = 0 ∨ t.sel / 2 ^ kind % 2 = 0 then s
      else
        let cseq := ((s.queues.find? fun q => q.kick == l.kick).map (·.count)).getD 0
        let bs := s.sealedFor c (traceBytes t kind engine l.kick cseq wall data)
        let put (t' : Trace) : State := { s with traces := s.traces.map fun x => if x.ctx = t.ctx ∧ x.region = t.region then t' else x }
        if t.size < t.pos + bs.length then put { t with dropped := t.dropped + 1 }
        else
          let s1 := (put { t with pos := t.pos + bs.length, seq := (t.seq + 1) % 2 ^ 32, dropped := 0 }).pokeAt (t.base + t.pos) bs
          if c.confidential then s1.modCtx c.num fun c => { c with sealedRecs := c.sealedRecs + 1 } else s1

/-! ### Removal (R375, R377, R384) -/

/-- Has the removal of a context, or of a fault domain of it, begun? -/
def State.removing (s : State) (ctx fdom : Nat) : Bool :=
  s.removals.any fun r => r.ctx == ctx && (r.fdom.isNone || r.fdom == some fdom)

/-- Begin the removal of a context or of a fault domain (R378, R384). -/
def State.beginRemoval (s : State) (ctx : Nat) (fdom : Option Nat) (seq : Option Nat) : State :=
  { s with removals := s.removals ++ [⟨s.nextId, ctx, fdom, 1, seq⟩], nextId := s.nextId + 1 }

/-! ### Speculation (R213 to R215) -/

/-- Squash a gang's speculative instructions (R215): what they changed is restored, their loads leave the machine (R262). -/
def State.squash (s : State) (gid : Nat) : State :=
  match s.gang? gid with
  | none => s
  | some g =>
    match g.spec with
    | none => s
    | some sp =>
      let s1 := s.modGang gid fun g =>
        { g with threads := sp.threads.map fun x => match g.thread? x.thr with
                   | some y => { x with seen := y.seen.filter fun e => e.op < sp.first, regs := y.regs, dropped := y.dropped, bwait := y.bwait }
                   | none => x,
                 rods := sp.rods, descs := sp.descs, pendRcp := sp.pendRcp, poison := sp.poison,
                 regen := sp.regen, tmr := sp.tmr, rotation := sp.rotation, early := [], spec := none }
      let p := s.placeOf gid 0
      State.count { s1 with ops := s1.ops.filter fun o => !(o.place.gid == gid && sp.first ≤ o.id) } p.die (7 * p.core + 3) sp.count

/-! ### Taking a trap (R372 to R376) -/

/-- A thread that fails, with its %taddr and %tslice. -/
structure Fail where
  thr : Nat
  addr : Word
  tslice : Word := 0
  deriving DecidableEq, Repr

def maskNat (ts : List Nat) : Nat := (ts.map fun i => 2 ^ i).sum

/-- The fault record of an unhandled trap (R377, R380). -/
def unhandledRecord (e : Env) (wall cause sub : Nat) (fails : List Fail) (tepc : Nat → Nat) (nested : Bool) : FaultRec :=
  let f := (fails.head?).getD ⟨0, 0, 0⟩
  { cls := 1, cause := cause, engine := engineWord e.b.die 0 e.b.core, ctx := e.c.num, region := e.l.region,
    fdom := e.rcb.fdom, wall := wall, launch := e.l.seq, addr := f.addr.toNat, pc := tepc f.thr,
    tmask := maskNat (fails.map (·.thr)), nested := nested, conf := e.c.confidential,
    detail := if cause = cTRAP ∨ cause = cUNHANDLED then f.addr.toNat else sub + 2 ^ 8 * (f.tslice.toNat / 2 ^ 56) }

/-- The trace record of a trap (R388). -/
def State.trapTrace (s : State) (e : Env) (cause sub : Nat) : State :=
  s.trace e.l 2 (engineWord e.b.die 0 e.b.core) (s.wall e.b.die) (cause + 2 ^ 8 * sub)

/-- A trap without a handler ends the fault domain of its launch's region (R377); its gang issues no more. The fault record follows the removal
(R379). -/
def State.unhandled (s : State) (e : Env) (cause sub : Nat) (fails : List Fail) (tepc : Nat → Nat) (nested : Bool) : State :=
  let s1 := (s.trapTrace e cause sub).modGang e.g.gid fun g => { g with stopped := true }
  let s2 := s1.beginRemoval e.c.num (some e.rcb.fdom) none
  s2.faultRecord (unhandledRecord e (s.wall e.b.die) cause sub fails tepc nested) [] (some s1.nextId)

/-- Where the region's trap handler is entered; none if there is none, R45 fails for it, or its first fetch faults (R372, R377). -/
def State.handlerPc (s : State) (e : Env) (t : Nat) : Option Nat :=
  let h := e.rcb.traph.toNat
  let us := (e.place t).units
  if h = 0 then none
  else match checkTarget s e.c us true h with
    | .error _ => none
    | .ok h' => match readLine s e.c us h' with
      | .error _ => none
      | .ok _ => some h'

/-- What a trap records in a thread (R372); its stalls end, and it stands at the handler. -/
def Thread.enterTrap (x : Thread) (f : Fail) (tepc : Nat) (h : Nat) : Thread :=
  { x with tepc := BitVec.ofNat 64 tepc, taddr := f.addr, tslice := f.tslice, pc := h, stall := .none, wtime := none, bwait := none,
           lser := if x.lser = .waiting then .none else x.lser }

/-- TAKING A TRAP (R372): the saved registers, the replay queue, the mask, and the handler's PC. A trap in trap mode, or without a
handler, is unhandled (R374, R377); a trap of a domain whose removal has begun is discarded (R375). -/
def State.deliver (s : State) (gid cause sub : Nat) (fails : List Fail) (queue : List RqEntry) (tepc : Nat → Nat) : State :=
  match s.env? gid with
  | none => s
  | some e =>
    if s.removing e.c.num e.rcb.fdom then s.modGang gid fun g => { g with stopped := true }
    else
      let m := fails.map (·.thr)
      match e.g.trap, s.handlerPc e (m.headD 0) with
      | none, some h =>
        (s.trapTrace e cause sub).modGang gid fun g =>
          { g with trap := some ⟨cause, sub, m, queue⟩, reinj := none,
                   threads := g.threads.map fun x =>
                     match fails.find? fun f => f.thr == x.thr with
                     | some f => x.enterTrap f (tepc x.thr) h
                     | none => x }
      | t, _ => s.unhandled e cause sub fails tepc t.isSome

/-- Threads of an interrupted re-injection that do not trap go to the first entry left that is theirs, else to %tepc (R116). -/
def Gang.leaveReinj (g : Gang) (entries : List RqEntry) (fails : List Fail) : Gang :=
  match g.reinj with
  | none => g
  | some r =>
    { g with reinj := none,
             threads := g.threads.map fun x =>
               if x.thr ∈ r.mask ∧ (fails.all fun f => f.thr != x.thr) then
                 { x with pc := match entries.find? fun q => x.thr ∈ q.mask && !q.skip with
                                | some q => q.pc
                                | none => x.tepc.toNat }
               else x }

/-- Threads that have entered a handler take no further part in a re-injection (R47, R116). DEDUCED, log entry 43. -/
def Gang.quitReinj (g : Gang) (ts : List Nat) : Gang :=
  let out (l : List Nat) : List Nat := l.filter (· ∉ ts)
  { g with reinj := g.reinj.map fun r => ⟨r.entries.map fun e => { e with mask := out e.mask }, out r.mask⟩ }

/-- An operand of the second of a pair, captured when the first traps: what the first would write is left unfilled (R47, R373); a bead that a
load is still to write has an unpredictable value (R91). -/
def capSecond (s : State) (g : Gang) (firstDests : List Reg) (t : Nat) (x : Src) : Cap :=
  match x with
  | .none => .none
  | .const v => .val v
  | .reg r =>
    if r ∈ firstDests || (!g.kReg r && g.isRecipe r.toNat) then .unfilled
    else if s.loadPending g.gid t (g.regNum r) then .val (s.freeAt [t, g.regNum r])
    else match g.poisonOf r t with
      | some p => .bad (g.readReg r t) p.code p.addr
      | none => .val (g.readReg r t)

/-- The replay-queue entry of an instruction that has issued after the one that traps; `before` are the registers that those between write
(R373). -/
def laterEntry (s : State) (g : Gang) (before : List Reg) (pc : Nat) (enc : Word) (lit : W32) (len : Nat) (mask : List Nat) : RqEntry :=
  let x := match decodeParcels (BitVec.ofNat 32 enc.toNat) (BitVec.ofNat 32 (enc.toNat / 2 ^ 32)) lit with
    | some (i, _) => srcsOf i
    | none => {}
  let cap := capSecond s g before
  ⟨pc, enc, lit, len, mask, false, false, false, mask.map (fun t => ⟨t, cap t x.a, cap t x.b, cap t x.c, cap t x.d⟩), false⟩

/-- That of the second of a pair. -/
def pairEntry (s : State) (g : Gang) (first : Instr) (p : PairInfo) (mask : List Nat) : RqEntry :=
  laterEntry s g (destsOf first) p.pc p.enc p.lit p.len mask

/-- Instructions that may issue while the checks of one before them are made: they need no confirmation and transfer no control (R214, R373).
DEDUCED, log entry 109. -/
def issuesLate (i : Instr) : Bool :=
  (laneValue i {}).isSome || match i with
  | .movs .. | .ld .. | .ldB64S .. | .shfl .. | .shfli .. | .bcast .. | .vote .. | .redux .. | .scanx .. | .matchv .. => true
  | _ => false

/-- Up to n such instructions from a PC on, as queue entries, and the PC after them (R373). -/
def State.laterEntries (s : State) (e : Env) (mask : List Nat) : Nat → Nat → List Reg → List RqEntry × Nat
  | 0, pc, _ => ([], pc)
  | n + 1, pc, before =>
    match fetch s e.c (e.place (mask.headD 0)).units e.g.gid pc with
    | .error _ => ([], pc)
    | .ok f => match f.instr with
      | none => ([], pc)
      | some i =>
        if issuesLate i then
          let r := s.laterEntries e mask n f.next (before ++ destsOf i)
          (laterEntry s e.g before f.pc f.enc f.lit f.len mask :: r.1, r.2)
        else ([], pc)

/-- What stands in the queue behind the trapping instruction, and the PC after it: the second of its pair, and instructions that issued while
its checks were made, twelve entries in all (R47, R373). -/
def State.queueBehind (s : State) (e : Env) (i : Instr) : List RqEntry × Nat :=
  let pair := match s.cur.pair with
    | none => ([], s.cur.next)
    | some p => ([pairEntry s e.g i p s.cur.mask], p.next)
  let dests (q : RqEntry) : List Reg := match decodeParcels (BitVec.ofNat 32 q.enc.toNat) (BitVec.ofNat 32 (q.enc.toNat / 2 ^ 32)) q.lit with
    | some (j, _) => destsOf j
    | none => []
  let late := s.laterEntries e s.cur.mask (min s.cur.late (11 - pair.1.length)) pair.2 (destsOf i ++ pair.1.flatMap dests)
  (pair.1 ++ late.1, late.2)

/-! ### The rotation of PCs (R206, R208) -/

/-- Threads of a gang that a held operation keeps from issuing (R158, R172). DEDUCED, log entry 31. -/
def State.heldThreads (s : State) (gid : Nat) : List Nat :=
  (s.ops.filter fun o => o.place.gid == gid && o.hold.isSome).flatMap (·.thrs)

/-- A thread takes something before its next instruction: TIMER, which waits for the end of trap mode (R81, R287, R374), or a trap of the PC
at which it stands (R45, R359). -/
def Gang.due (g : Gang) (x : Thread) : Bool :=
  (!x.timers.isEmpty && g.trap.isNone && g.reinj.isNone) || g.pend.any fun p => p.cause != cPREEMPT && x.thr ∈ p.thrs

/-- May this thread issue at all: alive, not held, with nothing due before, and inside the mask while its gang is in trap mode (R206)? -/
def Gang.mayIssue (g : Gang) (held : List Nat) (x : Thread) : Bool :=
  !x.exited && x.thr ∉ held && !g.due x && (match g.trap with | some m => x.thr ∈ m.mask | none => true)

/-- Threads that could issue, those ready or those stalled. -/
def Gang.able (g : Gang) (held : List Nat) (stalled : Bool) : List Thread :=
  g.threads.filter fun x => g.mayIssue held x && (x.stall != .none) == stalled

/-- Issue steps that a PC has waited (R208). -/
def Gang.waited (g : Gang) (pc : Nat) : Nat := ((g.rotation.find? fun w => w.pc == pc).map (·.steps)).getD 0

/-- A YIELD has moved a PC to the back of the rotation, and it has not issued since (R208). -/
def Gang.yielded (g : Gang) (pc : Nat) : Bool := g.rotation.any fun w => w.pc == pc && w.back

/-- The rotation of a gang's PCs once a group at `pc` has issued: one step more for every other ready PC (R208). -/
def Gang.rotate (g : Gang) (held : List Nat) (pc : Nat) : Gang :=
  let pcs := ((g.able held false).map (·.pc)).dedup.filter (· ≠ pc)
  { g with rotation := pcs.map fun q => ⟨q, g.waited q + 1, g.yielded q⟩ }

/-- A group has issued: it is counted, and the gang's other ready PCs have waited one step more (R208, R387); the second of a pair is no
issue step of its own (R212). DEDUCED, log entry 36. -/
def State.issued (s : State) : State :=
  let gid := s.cur.gid
  let p := s.placeOf gid 0
  if s.cur.second then s
  else (s.count p.die (7 * p.core) 1).modGang gid fun g => if s.cur.cap.isSome then g else g.rotate (s.heldThreads gid) s.cur.pc

/-- An instruction under speculation holds its trap until it is confirmed (R214): its threads wait. -/
def State.holdTrap (s : State) : State :=
  s.modGang s.cur.gid fun g => { g with threads := g.threads.map fun x => if x.thr ∈ s.cur.mask then { x with stall := .short } else x }

/-- A trap in some threads of a re-injected entry: the queue holds the entry and those after it, and each thread keeps its %tepc (R116). -/
def State.deliverAgain (s : State) (gid cause sub : Nat) (fails : List Fail) (q : List RqEntry) : State :=
  match s.gang? gid with
  | none => s
  | some g =>
    let old t := ((g.thread? t).map (·.tepc.toNat)).getD 0
    (s.modGang gid fun g => g.leaveReinj q fails).deliver gid cause sub fails q old

/-- A trap of the issued instruction that stands in the replay queue (R370, R373). Of the second of a pair, which R47 puts at %tepc, and R370,
which puts %tepc after the last entry, R370 holds. DEDUCED, log entry 42. -/
def State.trapQueue (s0 : State) (i : Instr) (cause sub : Nat) (fails : List Fail) (parts : List Nat) (caps : List CapOp)
    (asRead : Bool := false) : State :=
  let s := s0.issued
  match s.gang? s.cur.gid with
  | none => s
  | some g =>
    if g.spec.isSome then s.holdTrap
    else match s.cur.cap with
      | none =>
        let e0 : RqEntry := ⟨s.cur.pc, s.cur.enc, s.cur.lit, s.cur.len, parts, true, false, false, caps, asRead⟩
        match s.env? g.gid with
        | none => s
        | some v => State.deliver { s with free := s.free + 1 } g.gid cause sub fails (e0 :: (s.queueBehind v i).1) fun _ => (s.queueBehind v i).2
      | some e =>
        s.deliverAgain g.gid cause sub fails
          ({ e with faulted := true, ops := caps, mask := parts, asRead := asRead } :: (g.reinj.map (·.entries.tail)).getD [])

/-- The threads of a re-injected entry that execute it: all of a FAULTED entry, else those whose guard is true (R116). -/
def Gang.entryThreads (g : Gang) (e : RqEntry) (mask : List Nat) : List Nat :=
  match e.faulted, decodeParcels (BitVec.ofNat 32 e.enc.toNat) (BitVec.ofNat 32 (e.enc.toNat / 2 ^ 32)) e.lit with
  | false, some (i, _) => mask.filter fun t => ((g.thread? t).map fun x => x.guard (guardOf i)).getD false
  | _, _ => mask

/-- A trap of the issued instruction that stands at %tepc (R370). One of a re-injected entry is precise on that entry: the queue holds it
and the entries after it, and each thread keeps its %tepc (R116). DEDUCED, log entry 100. -/
def State.trapAt (s0 : State) (cause sub : Nat) (fails : List Fail) : State :=
  let s := s0.issued
  match s.gang? s.cur.gid with
  | none => s
  | some g =>
    if g.spec.isSome then s.holdTrap
    else match s.cur.cap with
      | none => s.deliver g.gid cause sub fails [] fun _ => s.cur.pc
      | some e =>
        s.deliverAgain g.gid cause sub fails
          ({ e with faulted := true, mask := g.entryThreads e s.cur.mask } :: (g.reinj.map (·.entries.tail)).getD [])

/-- The same cause in every thread of a list, with one address. -/
def State.trapAll (s : State) (cause : Nat) (ts : List Nat) (addr : Word) : State := s.trapAt cause 0 (ts.map fun t => ⟨t, addr, 0⟩)

/-! ### Stalling (R206) -/

/-- Threads of the issue group wait at the instruction and try it again. -/
def State.stallAt (s : State) (ts : List Nat) (k : Stall) : State := s.modThreads s.cur.gid ts fun x => { x with stall := k }

/-! ### Operands (R89, R117) -/

def CapOp.get (c : CapOp) : Slot → Cap
  | .a => c.a | .b => c.b | .c => c.c | .d => c.d

def CapOp.set (c : CapOp) (k : Slot) (v : Cap) : CapOp :=
  match k with
  | .a => { c with a := v } | .b => { c with b := v } | .c => { c with c := v } | .d => { c with d := v }

def Cap.word : Cap → Word
  | .val v | .bad v _ _ => v
  | _ => 0

def CapOp.none (t : Nat) : CapOp := ⟨t, .none, .none, .none, .none⟩

/-- What reading one operand gives. -/
inductive Got where
  | cap (c : Cap) (wids : List Nat) (rod : Option Nat)
  | fault (slice idx sub ea : Nat)
  | wait
  deriving DecidableEq, Repr

/-- Read a register for a thread: a k register, a bead, a poisoned bead, or a regenerated one. A bead that a load of the thread is still to
write has an unpredictable value (R91); under speculation the read waits for it (R262). A regeneration of an instruction under speculation
loads only from pages with SPEC=1 (R214, R229). -/
def readOperand (s : State) (e : Env) (t : Nat) (r : Reg) : Got :=
  if s.loadPending e.g.gid t (e.g.regNum r) then
    (if e.g.spec.isSome then .wait else .cap (.val (s.freeAt [t, e.g.regNum r])) [] none)
  else match e.g.poisonOf r t with
  | some p => .cap (.bad (e.g.readReg r t) p.code p.addr) [] none
  | none =>
    if !e.g.kReg r && e.g.isRecipe r.toNat then
      match readBead s e e.g.spec.isSome t 4 r.toNat with
      | .ok v ws => .cap (.val v) ws (some r.toNat)
      | .fault sl ix sb ea => .fault sl ix sb ea
      | .wait => .wait
    else .cap (.val (e.g.readReg r t)) [] none

/-- A source of a thread, from the captured operand of a re-injected entry where it has one. -/
def readSrc (s : State) (e : Env) (t : Nat) (old : Cap) (x : Src) : Got :=
  match x with
  | .none => .cap .none [] none
  | .const v =>
    match old with
    | .val _ | .bad .. => .cap old [] none
    | _ => .cap (.val v) [] none
  | .reg r =>
    match old with
    | .val _ | .bad .. => .cap old [] none
    | _ => readOperand s e t r

/-- The operands of one thread as far as they were read, in the order a, b, c, d; the first fault, and whether any must wait. -/
structure Taken where
  op : CapOp
  fail : Option Fail
  wait : Bool
  wids : List Nat
  rods : List Nat
  deriving DecidableEq, Repr

def tsliceWord (slice idx sub : Nat) : Word := BitVec.ofNat 64 (slice % 2 ^ 56 + 2 ^ 56 * sub + 2 ^ 60 * idx)

def Taken.add (k : Taken) (slot : Slot) (g : Got) : Taken :=
  match g with
  | .cap c ws r => { k with op := k.op.set slot c, wids := k.wids ++ ws, rods := k.rods ++ r.toList }
  | .fault sl ix sb ea =>
    { k with op := k.op.set slot .unfilled, fail := k.fail <|> some ⟨k.op.thr, BitVec.ofNat 64 ea, tsliceWord sl ix sb⟩ }
  | .wait => { k with wait := true }

/-- Read every operand of one thread. -/
def takeOps (s : State) (e : Env) (x : Srcs) (t : Nat) : Taken :=
  let old := ((s.cur.cap.bind fun q => q.ops.find? fun o => o.thr == t)).getD (CapOp.none t)
  [Slot.a, .b, .c, .d].foldl (fun k sl => k.add sl (readSrc s e t (old.get sl) (x.get sl))) ⟨CapOp.none t, none, false, [], []⟩

/-- Further registers of runs, as values; their faults count after the named operands. -/
def takeExtra (s : State) (e : Env) (k : Taken) (rs : List Reg) : Taken × List Word :=
  rs.foldl (fun (k, ws) r =>
    match readOperand s e k.op.thr r with
    | .cap c wids rod => ({ k with wids := k.wids ++ wids, rods := k.rods ++ rod.toList }, ws ++ [c.word])
    | .fault sl ix sb ea => ({ k with fail := k.fail <|> some ⟨k.op.thr, BitVec.ofNat 64 ea, tsliceWord sl ix sb⟩ }, ws ++ [0])
    | .wait => ({ k with wait := true }, ws ++ [0])) (k, [])

/-- The first poisoned operand of a thread (R151, R383). -/
def firstBad (g : Gang) (op : CapOp) (extra : List Reg) : Option (Nat × Word) :=
  match ([op.a, op.b, op.c, op.d].findSome? fun c => match c with | .bad _ code addr => some (code, addr) | _ => none) with
  | some p => some p
  | none => extra.findSome? fun r => (g.poisonOf r op.thr).map fun p => (p.code, p.addr)

/-! ### Before a write (R73, R74, R217, R218) -/

/-- Free physical rods of a core (R10, R220): neither in VALUE state nor taken by a write that waits for more (R74). -/
def State.freeRods (s : State) (die core : Nat) : Nat :=
  Config.physRods - ((s.gangs.filter fun g => (s.blockOf g).any fun b => b.die == die && b.core == core).map fun g => g.valueRods + g.reserved).sum

/-- What materialising rods, or getting them ready to be written, gives: the state after it, the threads whose regenerations fault, a wait
for loads, or a wait for physical rods, so many in all (R74). -/
inductive Mat where
  | ok (s : State)
  | fault (fails : List Fail)
  | wait
  | noRod (need : Nat)
  deriving DecidableEq, Repr

/-- Rebuild the beads of a RECIPE rod (R218); an exited thread's fault leaves a free value (R75). -/
def materialise (s : State) (e : Env) (rod : Nat) : Mat :=
  match e.g.desc? rod with
  | none => .ok s
  | some d =>
    if !e.g.isRecipe rod then .ok s
    else
      let step (acc : State × List Word × List Fail × Bool) (t : Nat) : State × List Word × List Fail × Bool :=
        let (s, vs, fs, w) := acc
        if t ∉ d.mask then (s, vs ++ [0], fs, w)
        else match readBead s e e.g.spec.isSome t 4 rod with
          | .ok v wids => (s.note e.g.gid t s.nextId .ld wids, vs ++ [v], fs, w)
          | .wait => (s, vs ++ [0], fs, true)
          | .fault sl ix sb ea =>
            if ((e.g.thread? t).map (·.exited)).getD true then
              let (v, s) := s.freeVal
              (s, vs ++ [v], fs, w)
            else (s, vs ++ [0], fs ++ [⟨t, BitVec.ofNat 64 ea, tsliceWord sl ix sb⟩], w)
      let (s1, vs, fs, w) := (List.range 32).foldl step (s, [], [], false)
      if !fs.isEmpty then .fault fs
      else if w then .wait
      else if s.freeRods e.b.die e.b.core + e.g.reserved = 0 then .noRod 1
      else .ok (State.modGang { s1 with nextId := s1.nextId + 1 } e.g.gid fun g => { g with rods := alSet g.rods rod (.value vs) })

/-- Materialise rods one after another. -/
def materialiseAll : State → Nat → List Nat → Mat
  | s, _, [] => .ok s
  | s, gid, r :: rs =>
    match s.env? gid with
    | none => .ok s
    | some e => match materialise s e r with
      | .ok s' => materialiseAll s' gid rs
      | m => m

/-- Materialise rods once physical rods for all are at hand (R74). -/
def materialiseWhen (s : State) (e : Env) (rods : List Nat) : Mat :=
  if s.freeRods e.b.die e.b.core + e.g.reserved < (rods.filter e.g.isRecipe).length then .noRod (rods.filter e.g.isRecipe).length
  else match materialiseAll s e.g.gid rods with
    | .ok s1 => .ok (if e.g.reserved = 0 then s1 else s1.modGang e.g.gid fun g => { g with reserved := 0 })
    | m => m

/-- The rods that a write to some rods materialises first: recipes that pin one of them, and those of them that are recipes. -/
def Gang.toMaterialise (g : Gang) (rods : List Nat) : List Nat :=
  ((g.descs.filter fun d => g.isRecipe d.rod && (d.rod ∈ rods || d.inputs.any fun r => r.toNat ∈ rods)).map (·.rod)).dedup

/-- Descriptors that a write to some rods frees (R217, R218). -/
def Gang.freeDescs (g : Gang) (rods : List Nat) : Gang :=
  let freed (d : Desc) : Bool := d.rod ∈ rods || d.inputs.any fun r => r.toNat ∈ rods
  { g with descs := g.descs.filter fun d => !freed d,
           early := g.early.filter fun x => g.descs.all fun d => !(d.rod == x.1 && freed d) }

/-- Rods of the registers that an instruction writes: k registers are no rods (R88). -/
def Gang.rodsOf (g : Gang) (rs : List Reg) : List Nat :=
  ((rs.filter fun r => !(g.trap.isSome && 248 ≤ r.toNat)).map (·.toNat)).dedup

/-- Physical rods that a write to some rods takes: for recipes that it materialises and for VOID rods (R73, R74). -/
def Gang.rodNeed (g : Gang) (rods : List Nat) : Nat := (g.toMaterialise rods).length + (rods.filter fun r => (alGet g.rods r).isNone).length

/-- What a waiting write has taken goes into the write (R74). -/
def Gang.release (g : Gang) : Gang := { g with reserved := 0 }

/-- Get some rods ready to be written: physical rods at hand (R74), dependants and recipes materialised, descriptors freed. -/
def beforeWrite (s : State) (e : Env) (rods : List Nat) : Mat :=
  if rods.isEmpty then .ok s
  else if s.freeRods e.b.die e.b.core + e.g.reserved < e.g.rodNeed rods then .noRod (e.g.rodNeed rods)
  else match materialiseAll s e.g.gid (e.g.toMaterialise rods) with
    | .ok s1 =>
      let s2 := if e.g.reserved = 0 then s1 else s1.modGang e.g.gid Gang.release
      if e.g.descs.all fun d => !(d.rod ∈ rods || d.inputs.any fun r => r.toNat ∈ rods) then .ok s2
      else .ok (s2.modGang e.g.gid fun g => g.freeDescs rods)
    | m => m

/-- A gang is moved to the pending set (R74). -/
def State.toPending (s : State) (gid : Nat) : State := s.modGang gid fun g => { g with active := false }

/-- Too few physical rods are free for a write: its threads wait, and their gang is moved to the pending set, whose rods the controller may
drop. What is free is taken for the write, so that the controller goes on until it is served, however many it needs (R74, R220). DEDUCED,
log entry 108. -/
def State.awaitRod (s : State) (need : Nat) : State :=
  let p := s.placeOf s.cur.gid 0
  let free := s.freeRods p.die p.core
  ((s.stallAt s.cur.mask .held).modGang s.cur.gid fun g => { g with reserved := min need (free + g.reserved) }).toPending s.cur.gid

/-- Materialising rods must wait. -/
def State.awaitMat (s : State) (m : Mat) : State :=
  match m with
  | .noRod need => s.awaitRod need
  | _ => s.stallAt s.cur.mask .held

/-! ### Preparing an instruction -/

/-- Instructions that do not issue under speculation (R78, R152, R172, R214). -/
def waitsConfirm (i : Instr) : Bool :=
  (laneValue i {}).isNone &&
  match i with
  | .movs .. | .bra .. | .brx .. | .call .. | .callx .. | .ret .. | .retS .. | .yield .. | .yieldS | .nop .. | .rqrd .. | .shfl ..
  | .shfli .. | .bcast .. | .vote .. | .redux .. | .scanx .. | .matchv .. | .ld .. | .ldB64S .. | .pref .. | .rcp .. | .rmat ..
  | .rdrop .. | .rdropKill .. | .rstat .. | .bkst .. => false
  | _ => true

/-- An instruction ready to take effect: the state as it was, for a trap (an instruction that traps has no effect), the state after
regenerations and materialisations, its surroundings, its participating threads with their operands and the further beads of runs. -/
structure Prep where
  s0 : State
  s : State
  e : Env
  parts : List Nat
  ops : List CapOp
  xs : List (Nat × List Word)
  deriving DecidableEq, Repr

def Prep.op (p : Prep) (t : Nat) : CapOp := (p.ops.find? fun o => o.thr == t).getD (CapOp.none t)
def Prep.val (p : Prep) (t : Nat) (k : Slot) : Word := ((p.op t).get k).word
def Prep.a (p : Prep) (t : Nat) : Word := p.val t .a
def Prep.b (p : Prep) (t : Nat) : Word := p.val t .b
def Prep.c (p : Prep) (t : Nat) : Word := p.val t .c
def Prep.d (p : Prep) (t : Nat) : Word := p.val t .d
def Prep.x (p : Prep) (t : Nat) : List Word := (alGet p.xs t).getD []

/-- The threads of the issue group whose guard is true; a re-injected FAULTED entry's mask is already those (R58, R116). -/
def participants (s : State) (g : Gang) (i : Instr) : List Nat :=
  s.cur.mask.filter fun t =>
    (match s.cur.cap with | some q => q.faulted | none => false) || ((g.thread? t).map fun x => x.guard (guardOf i)).getD false

/-- The 16 instructions past an unresolved point are used up (R213). -/
def Gang.specFull (g : Gang) : Bool := (g.spec.map fun sp => decide (16 ≤ sp.count)).getD false

/-- Under speculation an instruction whose registers a load of its threads is still to write waits for it: after the WAIT that was run past,
their values are certain (R111, R262). -/
def State.specWaits (s : State) (e : Env) (i : Instr) (parts : List Nat) : Bool :=
  e.g.spec.isSome && parts.any fun t => (destsOf i).any fun r => s.loadPending e.g.gid t (e.g.regNum r)

/-- Some register that an instruction reads has an unpredictable value (R91). -/
def State.readsPending (s : State) (e : Env) (i : Instr) (parts : List Nat) : Bool :=
  parts.any fun t => (readsOf i).any fun r => s.loadPending e.g.gid t (e.g.regNum r)

/-- Rods that the instruction in the issue slot has regenerated: REGEN counts each of them once when it completes (R223). -/
def State.regens (s : State) (rods : List Nat) : State :=
  if rods.isEmpty then s else { s with cur := { s.cur with regens := (s.cur.regens ++ rods).dedup } }

/-- REGEN of a gang, and the telemetry count, rise by the rods that have been noted (R86, R223, R387). -/
def State.countRegens (s : State) (gid : Nat) : State :=
  if s.cur.regens.isEmpty then s
  else
    let p := s.placeOf gid 0
    State.modGang { s.count p.die (7 * p.core + 4) s.cur.regens.length with cur := { s.cur with regens := [] } } gid fun g =>
      g.regenerated s.cur.regens.length

/-- What the regenerations of an instruction leave: its threads have read what the slices loaded, and the rods are noted (R223, R252). -/
def State.regenerate (s : State) (e : Env) (taken : List Taken) (rods : List Nat) : State :=
  if rods.isEmpty then s
  else
    let id := s.nextId
    taken.foldl (fun s k => s.note e.g.gid k.op.thr id .ld k.wids) (State.regens { s with nextId := id + 1, free := s.free + 1 } rods)

/-- An instruction that takes its operands from the lowest participating thread alone (R172). -/
def uniformOperands (i : Instr) : Bool := match i with | .mldw .. => true | _ => false

/-- Threads whose operands an instruction reads: the lowest participating one alone for MLDW (R172), else all that participate. -/
def readers (s : State) (e : Env) (i : Instr) : List Nat := if uniformOperands i then (participants s e.g i).take 1 else participants s e.g i

/-- Prepare an instruction: operands captured, recipes regenerated (REGEN), poison found (MEM_UE unless `keepPoison`; of the two causes that
of the lowest failing thread, R372; log entry 42), the rods of its destinations ready. Answers the state with nothing more to do when the instruction traps, waits, or has no surroundings. -/
def prepareWith (keepPoison : Bool) (i : Instr) (s : State) : Except State Prep :=
  match s.env? s.cur.gid with
  | none => .error s
  | some e =>
    let parts := participants s e.g i
    if e.g.spec.isSome && (waitsConfirm i || e.g.specFull) then .error (s.stallAt s.cur.mask .short)
    else if s.specWaits e i parts then .error (s.stallAt s.cur.mask .short)
    else
      let x := srcsOf i
      let who := readers s e i
      let taken := who.map fun t => takeExtra s e (takeOps s e x t) (extraSrcs i)
      let ops := taken.map fun k => k.1.op
      let fails := taken.filterMap fun k => k.1.fail
      let bad := if keepPoison then [] else (who.filter fun t => fails.all fun f => f.thr != t).filterMap fun t =>
        (firstBad e.g ((ops.find? fun o => o.thr == t).getD (CapOp.none t)) (extraSrcs i)).map fun p => (t, p)
      if taken.any fun k => k.1.wait then .error (s.stallAt s.cur.mask .held)
      else if fails.any fun f => bad.all fun b => f.thr < b.1 then
        .error (s.trapQueue i cREGEN ((fails.head?.map fun f => bits f.tslice.toNat 59 56).getD 0) fails parts ops)
      else
        match bad with
        | (_, code, _) :: _ =>
          .error (s.trapQueue i cMEMUE code (bad.map fun b => ⟨b.1, b.2.2, 0⟩) parts ops)
        | [] =>
          let dests := if parts.isEmpty then [] else e.g.rodsOf (destsOf i)
          let s0 := if s.readsPending e i who then { s with free := s.free + 1 } else s
          let s1 := s0.regenerate e (taken.map (·.1)) (e.g.regenSet (taken.flatMap (·.1.rods) ++ e.g.toMaterialise dests))
          match beforeWrite s1 e dests with
          | .fault fs => .error (s.trapQueue i cREGEN ((fs.head?.map fun f => bits f.tslice.toNat 59 56).getD 0) fs parts ops)
          | .ok s2 =>
            match s2.env? e.g.gid with
            | none => .error s2
            | some e2 => .ok ⟨s, s2, e2, parts, ops, taken.map fun k => (k.1.op.thr, k.2)⟩
          | m => .error (s.awaitMat m)

def prepare (i : Instr) (s : State) : Except State Prep := prepareWith false i s

/-! ### Completing an instruction -/

/-- Threads wrote beads while a load of theirs to the same bead, one of some operations, is outstanding (R91). -/
def State.overwrite (s : State) (gid : Nat) (ts : List Nat) (rs : List Reg) (which : Op → Bool) : State :=
  match s.gang? gid with
  | none => s
  | some g =>
    if rs.isEmpty ∨ (s.ops.all fun o => o.place.gid != gid) then s
    else { s with ops := s.ops.map fun o =>
      if o.place.gid = gid ∧ which o then
        { o with clob := o.clob ++ (ts.filter fun t => t ∈ o.thrs).flatMap fun t => rs.map fun r => (g.regNum r, t) }
      else o }

/-- What an instruction writes overwrites the beads of earlier loads, not of what it posts itself (R91). -/
def State.clobber (s : State) (gid : Nat) (ts : List Nat) (rs : List Reg) : State :=
  s.overwrite gid ts rs fun o => !(o.posted == s.cycle && o.pc == s.cur.pc)

/-- The lowest descriptor index that is free (R217). -/
def Gang.freeIdx (g : Gang) : Option Nat := (List.range Config.recipeDescs).find? fun i => g.descs.all fun d => d.idx != i

/-- A rod in VALUE state: one that is VOID holds zeros (R73). -/
def Gang.valued (g : Gang) (r : Nat) : Gang := if (alGet g.rods r).isSome then g else { g with rods := alSet g.rods r (.value (List.replicate 32 0)) }

/-- The definition under RCP (R188): D writes exactly one register, not an input, its slice writes that register, a descriptor is
free, and its threads agree on the values that the slice needs. The rod is VALUE and eligible from then on, also where D is a load that has
still to write it (R73, R220). -/
def Gang.define (g : Gang) (i : Instr) (pc : Nat) (parts : List Nat) : Gang :=
  match g.pendRcp.find? fun p => p.pc == pc && p.inTrap == g.trap.isSome && p.thrs.any (· ∈ parts), destsOf i, g.freeIdx with
  | some p, [d], some idx =>
    let ths := g.threads.filter fun x => x.thr ∈ parts
    let mode (x : Thread) : Nat := x.fpc.toNat % 8
    if d ∈ p.inputs ∨ d ∉ p.writes ∨ (g.trap.isSome ∧ 248 ≤ d.toNat) then g
    else match ths with
      | [] => g
      | x :: _ =>
        if (p.dyn && ths.any fun y => mode y != mode x) || (p.usesTh && ths.any fun y => y.olth != x.olth) then g
        else Gang.valued { g with descs := ⟨idx, p.slice, parts, x.olth, d.toNat, p.inputs, mode x⟩ :: g.descs } d.toNat
  | _, _, _ => g

/-- RCPs of threads that have issued their next instruction are over (R188); one that a trap came after waits until trap mode ends. -/
def Gang.endRcp (g : Gang) (mask : List Nat) : Gang :=
  { g with pendRcp := g.pendRcp.filter fun p => p.inTrap != g.trap.isSome || !p.thrs.any (· ∈ mask) }

/-- Early regenerations of threads are used up or discarded (R229). -/
def Gang.endEarly (g : Gang) (mask : List Nat) : Gang := { g with early := g.early.filter fun x => x.2.1 ∉ mask }

/-- A list address that RESUME gave is for the one instruction that its thread issues next (R286). -/
def Gang.endRelist (g : Gang) (i : Instr) (mask : List Nat) : Gang :=
  match i with
  | .resume .. | .resumem .. => g
  | _ =>
    if g.trap.isSome ∨ (g.threads.all fun x => x.relist.isNone) then g
    else { g with threads := g.threads.map fun x => if x.thr ∈ mask then { x with relist := none } else x }

/-- The input rods of some recipes: a regeneration reads them (R220). -/
def Gang.inputRods (g : Gang) (rods : List Nat) : List Nat := rods.flatMap fun r => ((g.desc? r).map fun d => d.inputs.map (·.toNat)).getD []

/-- Count an instruction issued under speculation (R213). -/
def Gang.countSpec (g : Gang) : Gang :=
  match g.spec with
  | some sp => { g with spec := some { sp with count := sp.count + 1 }, specCount := g.specCount + 1 }
  | none => g

/-- The threads of the issue group go on to the next instruction; a re-injected entry moves no thread (R116). -/
def Gang.advance (g : Gang) (mask : List Nat) (next : Nat) : Gang :=
  { g with threads := g.threads.map fun x => if x.thr ∈ mask then { x with pc := next, stall := .none } else x }

/-- A re-injected entry has run: the next one is due, or trap mode is over (R116). -/
def Gang.popReinj (g : Gang) : Gang :=
  match g.reinj with
  | some r => { g with reinj := if r.entries.length ≤ 1 then none else some { r with entries := r.entries.tail },
                       threads := g.threads.map fun x => if x.thr ∈ r.mask then { x with stall := .none } else x }
  | none => g

/-- Bookkeeping that every issued instruction ends with, for the threads that go on: recency, RCP, speculation, the re-injected entry. -/
def State.settleFor (s1 : State) (i : Instr) (parts mask : List Nat) : State :=
  let s := s1.issued.countRegens s1.cur.gid
  let cur := s.cur
  let regs := if parts.isEmpty then [] else readsOf i ++ destsOf i
  let made := if parts.isEmpty then [] else s1.cur.regens
  let s0 := if ((s.gang? cur.gid).bind (·.spec)).isSome then
      let p := s.placeOf cur.gid 0
      s.count p.die (7 * p.core + 2) 1
    else s
  State.modGang (s0.clobber cur.gid parts (destsOf i)) cur.gid fun g =>
    let g1 := (((g.touch s.cycle (g.rodsOf regs ++ made ++ g.inputRods made)).define i cur.pc parts).endRcp mask).endEarly mask
    if cur.cap.isSome then g1.popReinj else (g1.endRelist i mask).countSpec

def State.settleIssue (s : State) (i : Instr) (parts : List Nat) : State := s.settleFor i parts s.cur.mask

/-- Complete an instruction: bookkeeping, and the issue group goes on. -/
def State.complete (s : State) (i : Instr) (parts : List Nat) : State :=
  let s1 := s.settleIssue i parts
  if s.cur.cap.isSome then s1 else s1.modGang s.cur.gid fun g => g.advance s.cur.mask s.cur.next

/-- Complete an instruction for some threads while the others of the group wait at it and try again. -/
def State.completePart (s : State) (i : Instr) (parts waiting : List Nat) (k : Stall) : State :=
  let moved := s.cur.mask.filter (· ∉ waiting)
  if waiting.isEmpty then s.complete i parts
  else if moved.isEmpty then s.stallAt waiting k
  else
    let s1 := s.settleFor i (parts.filter (· ∉ waiting)) moved
    match s.cur.cap with
    | none =>
      s1.modGang s.cur.gid fun g =>
        let g1 := g.advance moved s.cur.next
        { g1 with threads := g1.threads.map fun x => if x.thr ∈ waiting then { x with stall := k } else x }
    | some e =>
      s1.modGang s.cur.gid fun g =>
        let es := { e with mask := waiting, partialDone := true } :: (((s.gang? g.gid).bind (·.reinj)).map (·.entries.tail)).getD []
        { g with reinj := some ⟨es, (((s.gang? g.gid).bind (·.reinj)).map (·.mask)).getD []⟩,
                 threads := g.threads.map fun x => if x.thr ∈ waiting then { x with stall := k } else x }

/-- Set the PCs of threads; entries still to be re-injected no longer run for them (R47, R116). DEDUCED, log entry 43. -/
def State.jump (s : State) (gid : Nat) (ts : List (Nat × Nat)) : State :=
  s.modGang gid fun g =>
    let g1 := { g with threads := g.threads.map fun x => match alGet ts x.thr with
      | some pc => { x with pc := pc, stall := .none }
      | none => x }
    if s.cur.cap.isSome then g1.quitReinj (ts.map (·.1)) else g1

/-! ### Checks (R150) -/

/-- Causes whose instruction stands at %tepc (R370). -/
def standsAtTepc (cause : Nat) : Bool :=
  cause ∈ [cILLEGAL, cBADTARGET, cPRIV, cUNHANDLED, cSTALE, cPREEMPT, cCODEGONE, cTRAP]

/-- Check every participating thread; if one fails, the trap with the cause of the lowest failing thread, in every thread that failed
with that cause (R150). A check answers a cause, with its SUB from bit 8 up, and an address. -/
def Prep.check (p : Prep) (i : Instr) (f : Nat → Option (Nat × Nat)) : Option State :=
  let fails := p.parts.filterMap fun t => (f t).map fun x => (t, x)
  match fails with
  | [] => none
  | (_, cause, _) :: _ =>
    let fs := (fails.filter fun x => x.2.1 == cause).map fun x => Fail.mk x.1 (BitVec.ofNat 64 x.2.2) 0
    let c := cause % 256
    let sub := if 256 ≤ cause then cause / 256 else if c = cMEMUE then 1 else 0
    some (if standsAtTepc c then p.s0.trapAt c sub fs else p.s0.trapQueue i c sub fs p.parts p.ops)

/-- Participating threads raise a cause that does not depend on their operands. -/
def Prep.failAll (p : Prep) (i : Instr) (cause : Nat) : Option State := p.check i fun _ => some (cause, 0)

/-- Run an instruction's effect once it is prepared. -/
def withPrep (i : Instr) (s : State) (k : Prep → State) : Host.Outcome State Fault Refusal :=
  .next (match prepare i s with
    | .error s' => s'
    | .ok p => k p)

/-! ### Lane instructions (R89) -/

/-- What a thread's lane reads. -/
def Prep.lane (p : Prep) (t : Nat) : LaneIn :=
  let x := p.e.g.thread? t
  { a := p.a t, b := p.b t, c := p.c t, d := p.d t, x := p.x t, preds := (x.map (·.preds)).getD 0,
    fpc := (x.map (·.fpc)).getD 1, olth := (x.map (·.olth)).getD 0 }

/-- Write what a lane answers: beads, predicates, sticky flags (R31, R84). -/
def Gang.putLane (g : Gang) (t : Nat) (o : LaneOut) : Gang :=
  let g1 := o.regs.foldl (fun g p => g.writeReg p.1 t p.2) g
  g1.modThread t fun x => { x.setPreds o.preds with fst := x.fst ||| o.fl.setWidth 64 }

/-- The effect of a lane instruction in its participating threads. -/
def laneEffect (i : Instr) (p : Prep) : State :=
  p.s.modGang p.e.g.gid fun g =>
    p.parts.foldl (fun g t => match laneValue i (p.lane t) with
      | some o => g.putLane t o
      | none => g) g

/-- An instruction whose effect each thread computes from its own operands. -/
def laneExec (i : Instr) (s : State) : Host.Outcome State Fault Refusal :=
  withPrep i s fun p => (laneEffect i p).complete i p.parts

end Sys2Proof.Machine
end

