-- ==== Sys2Proof/Machine/Barrier.lean ====
section
/-! DEFINITION. Barrier objects (R174 to R178, R240 to R245): their fields in scratchpad, first use, registration, counting, the
completion test, and the barrier instructions. -/

namespace Sys2Proof.Machine
open Host

/-! ### The object (R174) -/

structure BObj where
  landed : Nat
  expb : Nat
  rem : Nat
  init : Bool
  exp : Nat
  phase : Nat
  deriving DecidableEq, Repr

def BObj.ofNat (x : Nat) : BObj :=
  ⟨bits x 127 96, bits x 95 64, bits x 63 48, bits x 47 47 = 1, bits x 46 32, bits x 31 0⟩

def BObj.toNat (o : BObj) : Nat :=
  o.phase % 2 ^ 32 + 2 ^ 32 * (o.exp % 2 ^ 15) + 2 ^ 47 * o.init.toNat + 2 ^ 48 * (o.rem % 2 ^ 16) + 2 ^ 64 * (o.expb % 2 ^ 32)
    + 2 ^ 96 * (o.landed % 2 ^ 32)

/-- An object's fields as they stand (R175: every operation is one step at the core). -/
def State.bobj (s : State) (bid off : Nat) : BObj := BObj.ofNat (rbNat (s.lastBytes (scratchLoc bid off) 16))

def State.putBobj (s : State) (bid off : Nat) (o : BObj) : State :=
  (s.append (scratchLoc bid off) (leBytes 16 o.toNat) false [.block bid]).1

/-- The completion test (R177). -/
def BObj.test (o : BObj) : BObj :=
  if o.rem = 0 ∧ o.expb ≤ o.landed then
    { o with landed := o.landed - o.expb, expb := 0, phase := (o.phase + 1) % 2 ^ 32, rem := o.exp }
  else o

/-- BWAIT's and BTEST's question (R178). -/
def BObj.done (o : BObj) (phase : Nat) : Bool :=
  let d := (o.phase + 2 ^ 32 - phase % 2 ^ 32) % 2 ^ 32
  1 ≤ d && d ≤ 2 ^ 31

/-! ### Registration (R175, R176) -/

/-- Threads of a block that have not exited. -/
def State.liveThreads (s : State) (bid : Nat) : Nat :=
  ((s.gangs.filter fun g => g.bid == bid).map fun g => (g.threads.filter Thread.live).length).sum

/-- Is a thread registered at an object: one on the whole-block list that it has not dropped, or one at which it has arrived (R176)? -/
def Block.registers (b : Block) (x : Thread) (off : Nat) : Bool :=
  !x.exited && ((off ∈ b.wblist && off ∉ x.dropped) || x.regs.any fun r => r.off == off)

/-- Every object at which a thread is registered. -/
def Block.regsOf (b : Block) (x : Thread) : List Nat :=
  ((b.wblist ++ x.regs.map (·.off)).dedup).filter fun o => b.registers x o

/-- Some thread is registered at an object; BDROP, and EXIT's, end a registration at the counting step (R178). -/
def State.anyRegistered (s : State) (b : Block) (off : Nat) : Bool :=
  (s.arrivals.any fun a => a.place.bid == b.bid && a.off == off) || s.gangs.any fun g => g.bid == b.bid && g.threads.any fun x => b.registers x off

/-- A copy is counting into an object. -/
def State.copyCounting (s : State) (bid off : Nat) : Bool :=
  s.ops.any fun o => o.place.bid == bid && (match o.kind with | .copy _ (some x) _ => x == off | _ => false)

/-- First use of a whole-block object (R20, R175); none when it would be the seventeenth of the block's list. -/
def State.firstUse (s : State) (bid off : Nat) : Option State :=
  let o := s.bobj bid off
  if o.init then some s
  else match s.block? bid with
    | none => some s
    | some b =>
      if off ∉ b.wblist ∧ 16 ≤ b.wblist.length then none
      else
        let n := s.liveThreads bid
        let s1 := s.modBlock bid fun b => { b with wblist := if off ∈ b.wblist then b.wblist else b.wblist ++ [off] }
        some (s1.putBobj bid off { o with exp := n, rem := n, init := true })

/-- A thread's phase mark at an object: the phase in which its last arrival counted, or was made. -/
def Thread.mark (x : Thread) (off : Nat) (phase : Nat) : Thread :=
  { x with regs := ⟨off, some phase⟩ :: x.regs.filter fun r => r.off != off }

def Thread.arrivedIn (x : Thread) (off phase : Nat) : Bool := x.regs.any fun r => r.off == off && r.arrived == some phase

def Thread.unregister (x : Thread) (off : Nat) : Thread := { x with regs := x.regs.filter fun r => r.off != off }

/-- An arrival of the thread at the object that is still to be counted. -/
def State.pendingArrival (s : State) (gid t off : Nat) : Bool :=
  s.arrivals.any fun a => a.place.gid == gid && a.place.thr == t && a.off == off && !a.dropExp

/-- Post an arrival or a drop (R178). -/
def State.postArrival (s : State) (p : Place) (off : Nat) (drop : Bool) : State :=
  { s with arrivals := s.arrivals ++ [⟨s.nextId, p, off, drop⟩], nextId := s.nextId + 1 }

/-- Drop a thread from an object it is registered at, once (R176, R178). -/
def State.dropFrom (s : State) (e : Env) (t off : Nat) : State :=
  match s.thread? e.g.gid t, s.block? e.b.bid with
  | some x, some b =>
    if b.registers x off && off ∉ x.dropped then
      (s.postArrival (e.place t) off true).modThread e.g.gid t fun x => { x with dropped := off :: x.dropped }
    else s
  | _, _ => s

/-! ### Counting (R177, R178, R241) -/

/-- The classes that an arrival waits for: LD, ST and AT (R178). -/
def arriveSet : BitVec 7 := 7

/-- May this arrival be counted: its thread's earlier accesses completed at block scope, and room in the phase (R177, R178)? -/
def State.countable (s : State) (a : Arrival) : Bool :=
  s.completedAt a.place a.id arriveSet Scope.block.level && (a.dropExp || (s.bobj a.place.bid a.off).rem != 0)
    && s.arrivals.all fun x => !(x.place.gid == a.place.gid && x.place.thr == a.place.thr && x.off == a.off && x.id < a.id)

/-- The counting step of an arrival or drop, then the completion test. -/
def State.countStep (s : State) (a : Arrival) : State :=
  let s0 := { s with arrivals := s.arrivals.filter fun x => x.id != a.id }
  let bid := a.place.bid
  let o := s.bobj bid a.off
  let already := ((s.thread? a.place.gid a.place.thr).map fun x => x.arrivedIn a.off o.phase).getD false
  if a.dropExp then
    let counts := o.rem != 0 && !already
    let o1 := { o with rem := if counts then o.rem - 1 else o.rem, exp := o.exp - 1 }
    (s0.putBobj bid a.off o1.test).modThread a.place.gid a.place.thr fun x => x.unregister a.off
  else
    (s0.putBobj bid a.off (BObj.test { o with rem := o.rem - 1 })).modThread a.place.gid a.place.thr fun x => x.mark a.off o.phase

/-- COUNT (R178, R250): an arrival or drop is counted, when it may be. -/
def execCount (arr : Nat) (s : State) : Host.Outcome State Fault Refusal :=
  .next (match s.arrivals.find? fun a => a.id == arr with
    | some a => if s.countable a then s.countStep a else s
    | none => s)

/-- An unregistered arrival, of the firmware or the quiescence detector (R177): the state, and whether it was lost. -/
def State.arriveFree (s : State) (bid off : Nat) : State × Bool :=
  let o := s.bobj bid off
  if o.rem = 0 then (s, true) else (s.putBobj bid off (BObj.test { o with rem := o.rem - 1 }), false)

/-- Landed bytes (R168, R177). -/
def State.landAt (s : State) (bid off n : Nat) : State :=
  let o := s.bobj bid off
  s.putBobj bid off (BObj.test { o with landed := (o.landed + n) % 2 ^ 32 })

/-- An object whose fields have become unpredictable (R178, R240): free values. -/
def State.spoilObj (s : State) (bid off : Nat) : State :=
  let (a, s) := s.freeVal
  let (b, s) := s.freeVal
  (s.append (scratchLoc bid off) (leBytes 8 a.toNat ++ leBytes 8 b.toNat) false [.block bid]).1

/-! ### Work lists and domains written by programs (R191) -/

/-- The lists and domains that a compaction operation names. -/
def OpKind.unitKeys : OpKind → List Nat
  | .cclose d | .cquiet d _ => [d]
  | .cappend hdr dom .. | .cdone hdr dom => hdr :: dom.toList
  | .ctake hdr .. => [hdr]
  | _ => []

/-- A field of n bytes at a location, at the end of the coherence order. -/
def State.field (s : State) (loc n : Nat) : Nat := rbNat (s.lastBytes loc n)

def State.quiescent (s : State) (dom : Nat) : Bool := s.field dom 4 == 0 && s.field (dom + 8) 8 == s.field (dom + 16) 8

/-- Is a list or a domain in use: an operation names it, a domain is armed or not quiescent, a list holds items? DEDUCED, log entry 102. -/
def State.inUse (s : State) (w : WorkUse) : Bool :=
  (s.ops.any fun o => w.loc ∈ o.kind.unitKeys) ||
    (!w.loose && !w.moved &&
      if w.dom then (s.arms.any fun a => a.dom == w.loc) || !s.quiescent w.loc else s.field (w.loc + 24) 4 != s.field (w.loc + 28) 4)

/-- The fields that only the compaction unit changes: HEAD and TAIL of a list, OPEN, FLAGS, APPENDED and DONE of a domain (R191). -/
def WorkUse.fields (w : WorkUse) : Nat × Nat := if w.dom then (w.loc, 24) else (w.loc + 24, 8)

/-- Those fields have become unpredictable (R191): free values. -/
def State.spoilUnit (s : State) (loc : Nat) (dom : Bool) : State :=
  let (a, s1) := s.freeVal
  let (b, s2) := s1.freeVal
  let (c, s3) := s2.freeVal
  s3.pokeAs (if dom then loc else loc + 24) (leBytes 8 a.toNat ++ if dom then leBytes 8 b.toNat ++ leBytes 8 c.toNat else []) (s.keyHere loc)

/-- After a program's write to those fields: a structure that was in use before it becomes unpredictable, one that was not is initialised anew
(R191). -/
def State.spoilWork (s was : State) (loc n : Nat) : State :=
  s.work.foldl (fun s w =>
    if !overlap (loc, n) w.fields then s
    else if was.inUse w then s.spoilUnit w.loc w.dom
    else { s with work := s.work.filter (· ≠ w) }) s

/-- After a write by anything but a barrier instruction or a compaction step, `was` being the state before it: objects in scratchpad that it
touched, at which a thread is registered or into which a copy counts, become unpredictable (R240), and so do the unit's fields of work lists and
domains (R191). -/
def State.spoil (s was : State) (loc n : Nat) : State :=
  if n = 0 then s
  else if !isScratch loc then s.spoilWork was loc n
  else
    let bid := (loc - scratchBase) / 2 ^ 20
    let off := (loc - scratchBase) % 2 ^ 20
    match s.block? bid with
    | none => s
    | some b =>
      let objs := (List.range ((off + n - 1) / 16 - off / 16 + 1)).map fun i => (off / 16 + i) * 16
      objs.foldl (fun s o => if s.anyRegistered b o || s.copyCounting bid o then s.spoilObj bid o else s) s

/-! ### Instructions -/

/-- The checks on an object's offset (R175). -/
def objCheck (b : Block) (off : Nat) : Option (Nat × Nat) :=
  if off % 16 ≠ 0 then some (cALIGN, off) else if b.ssize ≤ off then some (cACCESS, off) else none

def Prep.objCheck (p : Prep) (i : Instr) : Option State := p.check i fun t => Machine.objCheck p.e.b (p.a t).toNat

/-- Threads of a block may drop from an object again once it is set anew. -/
def State.forgetDrops (s : State) (bid off : Nat) : State :=
  { s with gangs := s.gangs.map fun g =>
    if g.bid = bid then { g with threads := g.threads.map fun x => { x with dropped := x.dropped.filter (· != off) } } else g }

/-- The registrations that a block's whole-block list gave at an object end with its place on the list (R176, R178). -/
def State.endListed (s : State) (bid off : Nat) : State :=
  { s with gangs := s.gangs.map fun g => if g.bid = bid then { g with threads := g.threads.map fun x => x.unregister off } else g }

/-- R178: BARINIT sets an object; re-initialising one in use leaves it unpredictable. -/
def execBarinit (g : Guard) (a b c : Reg) (s : State) : Host.Outcome State Fault Refusal :=
  let i := Instr.barinit g a b c
  withPrep i s fun p =>
    match p.check i fun t => (Machine.objCheck p.e.b (p.a t).toNat).or (if 32767 < (p.b t).toNat then some (cACCESS, (p.a t).toNat) else none) with
    | some s' => s'
    | none =>
      let init (s : State) (t : Nat) : State :=
        let off := (p.a t).toNat
        let n := (p.b t).toNat
        match s.block? p.e.b.bid with
        | none => s
        | some b =>
          let busy := s.anyRegistered b off || s.copyCounting b.bid off
          let s0 := s.modBlock b.bid fun b => { b with wblist := b.wblist.filter (· != off) }
          let s1 := (if off ∈ b.wblist then s0.endListed b.bid off else s0).forgetDrops b.bid off
          if busy then s1.spoilObj b.bid off
          else s1.putBobj b.bid off ⟨0, bits (p.c t).toNat 31 0, n, n ≠ 0, n, 0⟩
      (p.parts.foldl init p.s).complete i p.parts

/-- What ARRIVE does for one thread: the state, the threads that stall and a failing check. -/
structure Arrive where
  s : State
  stalled : List Nat
  fails : List (Nat × Nat × Nat)
  deriving DecidableEq, Repr

/-- ARRIVE of one thread (R176, R178, R241). -/
def arriveOne (p : Prep) (d : Reg) (k : Arrive) (t : Nat) : Arrive :=
  let off := (p.a t).toNat
  let gid := p.e.g.gid
  match k.s.firstUse p.e.b.bid off with
  | none => { k with fails := k.fails ++ [(t, cACCESS, off)] }
  | some s1 =>
    match s1.thread? gid t, s1.block? p.e.b.bid with
    | some x, some b =>
      let o := s1.bobj b.bid off
      let own := (x.regs.filter fun r => r.off ∉ b.wblist).length
      if off ∉ b.wblist ∧ (x.regs.all fun r => r.off != off) ∧ 16 ≤ own then { k with fails := k.fails ++ [(t, cACCESS, off)] }
      else if o.rem = 0 ∨ x.arrivedIn off o.phase ∨ s1.pendingArrival gid t off then { k with s := s1, stalled := k.stalled ++ [t] }
      else
        let s2 := s1.postArrival (p.e.place t) off false
        let s3 := s2.modThread gid t fun x => x.mark off o.phase
        { k with s := s3.modGang gid fun g => g.writeReg d t (BitVec.ofNat 64 o.phase) }
    | _, _ => k

/-- R178: ARRIVE registers, returns the phase, and counts once the thread's accesses have completed; it stalls while REM is 0 or
the thread has arrived in this phase. -/
def execArrive (g : Guard) (d a : Reg) (s : State) : Host.Outcome State Fault Refusal :=
  let i := Instr.arrive g d a
  withPrep i s fun p =>
    match p.objCheck i with
    | some s' => s'
    | none =>
      let k := p.parts.foldl (arriveOne p d) ⟨p.s, [], []⟩
      match p.check i fun t => (k.fails.find? fun f => f.1 == t).map (·.2) with
      | some s' => s'
      | none => k.s.completePart i p.parts k.stalled .held

/-- First uses by the threads of an instruction; the threads whose first use fails. -/
def firstUses (p : Prep) : State × List (Nat × Nat × Nat) :=
  p.parts.foldl (fun k t =>
    match k.1.firstUse p.e.b.bid (p.a t).toNat with
    | some s => (s, k.2)
    | none => (k.1, k.2 ++ [(t, cACCESS, (p.a t).toNat)])) (p.s, [])

/-- R178: EXPECT adds expected bytes; it is an event with its own completion test (R177). -/
def execExpect (g : Guard) (a : Reg) (b : Opnd) (s : State) : Host.Outcome State Fault Refusal :=
  let i := Instr.expect g a b
  withPrep i s fun p =>
    match p.objCheck i with
    | some s' => s'
    | none =>
      let (s1, fails) := firstUses p
      match p.check i fun t => (fails.find? fun f => f.1 == t).map (·.2) with
      | some s' => s'
      | none =>
        let one (s : State) (t : Nat) : State :=
          let off := (p.a t).toNat
          let o := s.bobj p.e.b.bid off
          s.putBobj p.e.b.bid off (BObj.test { o with expb := (o.expb + bits (p.b t).toNat 31 0) % 2 ^ 32 })
        (p.parts.foldl one s1).complete i p.parts

/-- R178, R241: BDROP counts like ARRIVE, lowers EXP and unregisters; an unregistered thread's has no effect. -/
def execBdrop (g : Guard) (a : Reg) (s : State) : Host.Outcome State Fault Refusal :=
  let i := Instr.bdrop g a
  withPrep i s fun p =>
    match p.objCheck i with
    | some s' => s'
    | none =>
      let (s1, fails) := firstUses p
      match p.check i fun t => (fails.find? fun f => f.1 == t).map (·.2) with
      | some s' => s'
      | none => (p.parts.foldl (fun s t => s.dropFrom p.e t (p.a t).toNat) s1).complete i p.parts

/-- Does a thread's wait at its object hold (R178)? -/
def Prep.phaseDone (p : Prep) (t : Nat) : Bool := (p.s.bobj p.e.b.bid (p.a t).toNat).done (p.b t).toNat

/-- R178, R259: BWAIT stalls until the phase has completed. -/
def execBwait (g : Guard) (a b : Reg) (s : State) : Host.Outcome State Fault Refusal :=
  let i := Instr.bwait g a b
  withPrep i s fun p =>
    match p.objCheck i with
    | some s' => s'
    | none => p.s.completePart i p.parts (p.parts.filter fun t => !p.phaseDone t) .poll

/-- What a timed BWAIT's deadline has decided for a thread: whether the phase had completed by the end of the cycle in which %wall reached
it (R243). -/
def Prep.verdict (p : Prep) (t : Nat) : Option Bool := (p.e.g.thread? t).bind fun x => x.bwait.bind (·.verdict)

/-- R178, R243: the timed BWAIT ends at its deadline too; pd is whether the phase has completed. A deadline that has passed before this cycle
decides at once; one that %wall reaches in this cycle, after the cycle's events. -/
def execBwaitTo (g : Guard) (pd : Pred) (a b c : Reg) (s : State) : Host.Outcome State Fault Refusal :=
  let i := Instr.bwaitTo g pd a b c
  withPrep i s fun p =>
    match p.objCheck i with
    | some s' => s'
    | none =>
      let before := p.s.wallLast.getD p.e.b.die 0
      let waits := p.parts.filter fun t => (p.verdict t).isNone && !p.phaseDone t && before < (p.c t).toNat
      let ends := p.parts.filter (· ∉ waits)
      let s1 := p.s.modGang p.e.g.gid fun g =>
        let g1 := ends.foldl (fun g t => g.modThread t fun x => { x.setPred pd ((p.verdict t).getD (p.phaseDone t)) with bwait := none }) g
        waits.foldl (fun g t => g.modThread t fun x =>
          { x with bwait := some ⟨pd, (p.a t).toNat, (p.b t).toNat, (p.c t).toNat, none⟩ }) g1
      s1.completePart i p.parts waits .poll

/-- The deadline of a timed BWAIT decides it once %wall has reached it, with what the object shows then (R243). -/
def State.judge (s : State) (b : Block) (w : BWait) : BWait :=
  if w.verdict.isNone && decide (w.deadline ≤ s.wall b.die) then { w with verdict := some ((s.bobj b.bid w.off).done w.phase) } else w

/-- The end of a cycle decides every timed BWAIT whose deadline %wall has reached, after the cycle's events (R243). -/
def State.decideWaits (s : State) : State :=
  if s.gangs.all fun g => g.threads.all fun x => x.bwait.isNone then s
  else { s with gangs := s.gangs.map fun g => match s.blockOf g with
    | some b => { g with threads := g.threads.map fun x => { x with bwait := x.bwait.map (s.judge b) } }
    | none => g }

/-- R178: BTEST evaluates the wait once. -/
def execBtest (g : Guard) (pd : Pred) (a b : Reg) (s : State) : Host.Outcome State Fault Refusal :=
  let i := Instr.btest g pd a b
  withPrep i s fun p =>
    match p.objCheck i with
    | some s' => s'
    | none =>
      State.complete (p.s.modGang p.e.g.gid fun g =>
        p.parts.foldl (fun g t => g.modThread t fun x => x.setPred pd (p.phaseDone t)) g) i p.parts

/-- R243: BWAIT_TIMEOUT: the end of the cycle in which %wall reached a timed BWAIT's deadline has decided it; the thread leaves its stall. -/
def execBwaitTimeout (gid thr : Nat) (s : State) : Host.Outcome State Fault Refusal :=
  .next (match (s.thread? gid thr).bind (·.bwait) with
    | some w => if w.verdict.isSome then s.modThread gid thr fun x => { x with stall := .none } else s
    | none => s)

end Sys2Proof.Machine
end

