-- ==== Sys2Proof/Machine/Cells.lean ====
section
/-! DEFINITION. The cells of sibling-keeping memory: tokens, slots, capacity and folds (R154 to R161, R306 to R319), and what a thread or an
engine reads of a range that may lie on a KEEP page. -/

namespace Sys2Proof.Machine
open Host

/-! ### Cells (R306, R307) -/

/-- The cell that MAP leaves at a slot: one sibling, its bytes as in DRAM (R298); poisoned bytes set UE (R317). -/
def freshCell (slot : Nat) (bs : List RByte) : KeepCell :=
  ⟨slot, 0, [⟨BitVec.ofNat 64 (rbNat bs), 0, 0, none, rbBad bs⟩], false, rbBad bs, false⟩

/-- The context whose mapping makes a slot KEEP. -/
def State.keeperOf (s : State) (pa : Nat) : Option Context :=
  s.contexts.find? fun c => c.pages.any fun p => p.keep && p.pa ≤ pa && pa < p.pa + p.size

/-- A cell as its home holds it. -/
def State.cell (s : State) (slot : Nat) : KeepCell :=
  (s.cells.find? fun k => k.slot == slot).getD
    (freshCell slot (s.seenBy ((s.keeperOf slot).map (·.num)) slot (s.lastBytes slot 8)))

def KeepCell.head (k : KeepCell) : Sibling := k.sibs.headD ⟨0, 0, 0, none, false⟩

/-- The oldest sibling stands in the slot and holds no annex entry (R310). -/
def KeepCell.tidy (k : KeepCell) : KeepCell :=
  { k with sibs := match k.sibs with | x :: xs => { x with region := none } :: xs | [] => [] }

def putCell (cs : List KeepCell) (k : KeepCell) : List KeepCell :=
  k.tidy :: cs.filter fun x => x.slot != k.slot

/-- A home changes a cell, for a launch or for an agent outside every launch: deterministic launches that run meanwhile read it as unpredictable
(R348). -/
def State.changeCell (s : State) (for_ : Option Nat) (k : KeepCell) : State :=
  { s with cells := putCell s.cells k,
           launches := if s.launches.all fun l => !l.det then s.launches
             else s.launches.map fun l => if l.det ∧ l.state = .running ∧ some l.num ≠ for_ then { l with outside := k.slot :: l.outside } else l }

def maxGen : Nat := 2 ^ 32 - 1

/-- hash16 of a cell's virtual address (R156). -/
def hash16 (v : Nat) : Nat := bits v 20 5 ^^^ bits v 36 21 ^^^ bits v 52 37 ^^^ bits v 55 53

/-- The token of a cell at a virtual address (R156). -/
def KeepCell.token (k : KeepCell) (va : Nat) : Word :=
  BitVec.ofNat 64 (k.gen + 2 ^ 32 * k.sibs.length + 2 ^ 48 * hash16 va)

/-- The 32 bytes of a slot (R306). -/
def KeepCell.slotBytes (k : KeepCell) : List Byte :=
  let h := k.head
  let cnt := k.sibs.length
  let link := if cnt ≤ 1 then 0xFFFF else (Config.annexIndex k.slot).toNat
  leBytes 8 h.val.toNat ++ leBytes 4 k.gen ++ leBytes 4 h.birth ++ leBytes 4 h.actor.toNat
    ++ leBytes 4 (cnt + 2 ^ 8 * (decide (1 < cnt)).toNat + 2 ^ 9 * k.ue.toNat + 2 ^ 10 * k.mrg.toNat + 2 ^ 11 * (decide (k.gen = maxGen)).toNat
        + 2 ^ 16 * (link % 2 ^ 16))
    ++ leBytes 8 0

/-- The actor of a thread (R308). -/
def Env.actor (e : Env) (t : Nat) : W32 :=
  BitVec.ofNat 32 ((32 * e.g.idx + t) % 2 ^ 6 + 2 ^ 6 * (e.b.linear % 2 ^ 14) + 2 ^ 20 * (e.l.seq % 2 ^ 12))

/-! ### Folds (R161, R311) -/

/-- One folding step; floats round to nearest-even and set no flags. -/
def rcnStep (op : RcnOp) (ty : Ty) (x y : Nat) : Nat :=
  match op with
  | .add => (redCombine .add ty .ne x y).bits
  | .min => (redCombine .min ty .ne x y).bits
  | .max => (redCombine .max ty .ne x y).bits
  | .and => x &&& y
  | .or => x ||| y
  | .xor => x ^^^ y
  | .first => x
  | .last => y

def foldSibs (op : RcnOp) (ty : Ty) : List Sibling → Word
  | [] => 0
  | x :: xs => xs.foldl (fun v y => BitVec.ofNat 64 (rcnStep op ty v.toNat y.val.toNat)) x.val

/-! ### Capacity (R310) -/

def dieOf (pa : Nat) : Nat := pa / 2 ^ 38

/-- Cells of the home slice of a line use the same annex (R11, R310). -/
def sameSlice (a b : Nat) : Bool := dieOf a == dieOf b && Config.lineSlice (a / 64) % 24 == Config.lineSlice (b / 64) % 24

def annexUsed (cs : List KeepCell) (slot : Nat) : Nat := ((cs.filter fun k => sameSlice k.slot slot).map fun k => k.sibs.length - 1).sum

/-- Annex entries that are charged to a region or to one below it (R310, R338). -/
def quotaUsed (cs : List KeepCell) (c : Context) (num : Nat) : Nat :=
  (cs.map fun k => (k.sibs.filter fun x => x.region.any fun rg => rg.1 == c.num && (c.path rg.2).any fun r => r.num == num).length).sum

/-- The budget for annex entries of a region, or of one above it, is used up: entries count at every region of the path (R338). -/
def Context.quotaFull (c : Context) (cs : List KeepCell) (num : Nat) : Bool :=
  (c.path num).any fun r => (c.effective r.num).all fun e => decide (e.anxq ≤ quotaUsed cs c r.num)

/-- SUB codes of a refusal (R158). -/
def subCOUNT : Nat := 0
def subANNEX : Nat := 1
def subQUOTA : Nat := 2
def subGEN : Nat := 3

/-- Why a cell would refuse a store whose token carries a generation (R157, R158): GEN, COUNT, ANNEX, QUOTA. DEDUCED, log entry 53. -/
def refusal (cs : List KeepCell) (k : KeepCell) (g : Nat) (quotaFull capacity : Bool) : Option Nat :=
  let left := k.sibs.filter fun x => g < x.birth
  if k.gen = maxGen then some subGEN
  else if 8 < left.length + 1 then some subCOUNT
  else if capacity ∧ k.sibs.length < left.length + 1 then
    if Config.annexEntries ≤ annexUsed cs k.slot then some subANNEX
    else if quotaFull then some subQUOTA else none
  else none

/-- A store accepted at a cell (R157), poisoned if its line of the counting board was (R382). -/
def KeepCell.accept (k : KeepCell) (g : Nat) (val : Word) (actor : W32) (rg : Option (Nat × Nat)) (bad : Bool := false) : KeepCell :=
  let left := k.sibs.filter fun x => g < x.birth
  let sibs := left ++ [⟨val, k.gen + 1, actor, rg, bad⟩]
  { k with gen := k.gen + 1, sibs := sibs, mrg := k.mrg && 1 < sibs.length, ue := k.ue && sibs.any (·.poison) }.tidy

/-- A store that is folded in (R311): the two oldest that remain are combined, or the one that remains with the incoming value. -/
def KeepCell.merge (k : KeepCell) (g : Nat) (val : Word) (actor : W32) (rg : Option (Nat × Nat)) (op : RcnOp) (bad : Bool := false) :
    KeepCell :=
  let f (x y : Word) : Word := BitVec.ofNat 64 (rcnStep op .s64 x.toNat y.toNat)
  let sibs := match k.sibs.filter fun x => g < x.birth with
    | x :: y :: rest => ⟨f x.val y.val, y.birth, y.actor, none, x.poison || y.poison⟩ :: rest ++ [⟨val, k.gen + 1, actor, rg, bad⟩]
    | [x] => [⟨f x.val val, k.gen + 1, actor, none, x.poison || bad⟩]
    | [] => [⟨val, k.gen + 1, actor, none, bad⟩]
  { k with gen := k.gen + 1, sibs := sibs, mrg := true, ue := k.ue && sibs.any (·.poison) }.tidy

/-! ### The view of a deterministic block (R318) -/

/-- A cell at kernel start. -/
def State.startCell (s : State) (l : Launch) (slot : Nat) : KeepCell :=
  (l.kcells.find? fun k => k.slot == slot).getD (freshCell slot (s.seenBy ((s.keeperOf slot).map (·.num)) slot
    ((List.range 8).map fun i => ⟨memGet l.kstart (slot + i), slot + i ∈ l.kpoison, none⟩)))

def detCell (s : State) (e : Env) (slot : Nat) : KeepCell :=
  (((s.block? e.b.bid).map (·.staged)).getD []).foldl (fun k w =>
    match w with
    | .keep _ _ sl gen val actor mop bad =>
      if sl ≠ slot then k
      else match refusal [] k gen false false with
        | none => k.accept gen val actor none bad
        | some r => if r = subGEN then k else k.merge gen val actor none mop bad
    | .bytes .. => k) (s.startCell e.l slot)

/-- The cell that a thread's LD, LDK or LDSIB sees. -/
def State.cellFor (s : State) (e : Env) (slot : Nat) : KeepCell := if e.l.det then detCell s e slot else s.cell slot

/-! ### Ranges that may lie on KEEP pages (R154) -/

/-- A resolved range. -/
def Resolved.seg (r : Resolved) (n : Nat) : Seg :=
  match r with
  | .scratch l => ⟨l, n, false⟩
  | .page p pa => ⟨pa, n, p.keep⟩

/-- Does an agent outside a deterministic launch stand behind what the launch reads at a location: a change to its cell, or a write (R348)? -/
def State.upsetBy (s : State) (e : Env) (keep : Bool) (loc : Nat) : Bool :=
  e.l.det && if keep then loc / 32 * 32 ∈ e.l.outside else s.disturbed e.l loc

/-- What an engine reads of a range now: a KEEP page's slots at their home (R154), else what its thread sees; of what an agent outside a
deterministic launch has changed, free values (R348). DEDUCED, log entry 56. -/
def State.segBytes (s : State) (e : Env) (t id : Nat) (g : Seg) : List RByte :=
  let bs := if g.keep then
      (List.range g.len).map fun i =>
        let loc := g.loc + i
        let k := s.cellFor e (loc / 32 * 32)
        ⟨k.slotBytes.getD (loc % 32) 0, decide (loc % 32 < 8) && k.head.poison, none⟩
    else s.viewBytes (e.place t) id g.loc g.len
  if !e.l.det then bs
  else (bs.zip (List.range g.len)).map fun b =>
    if s.upsetBy e g.keep (g.loc + b.2) then { b.1 with val := (s.freeAt [g.loc + b.2]).setWidth 8 } else b.1

/-- What firmware reads of a range for a context, or for none: a KEEP page's slots at their home, else everything that has reached memory. -/
def State.fwBytes (s : State) (ctx : Option Nat) (g : Seg) : List RByte :=
  if g.keep then (List.range g.len).map fun i =>
      let k := s.cell ((g.loc + i) / 32 * 32)
      ⟨k.slotBytes.getD ((g.loc + i) % 32) 0, decide ((g.loc + i) % 32 < 8) && k.head.poison, none⟩
  else s.seenBy ctx g.loc (s.lastBytes g.loc g.len)

/-- A cell whose metadata cannot be read makes every access to it fail (R317): the address of the first in a part of a range. -/
def unreadableIn (s : State) (x : Nat × Seg) : Option Nat :=
  if !x.2.keep then none
  else (s.cells.find? fun k => k.unreadable && overlap (k.slot, 32) (x.2.loc, x.2.len)).map fun k => x.1 + (k.slot - x.2.loc)

end Sys2Proof.Machine
end

