-- ==== Sys2Proof/Machine/MemOps.lean ====
section
/-! DEFINITION. What the memory and engine instructions share: reading structures at issue (R173), storing at once, posting an
operation (R85, R247), and the writes back to beads. -/

namespace Sys2Proof.Machine
open Host

/-! ### Structures read at issue (R118, R173) -/

/-- Read n bytes at a virtual address as a thread sees them, of a KEEP page its slots (R154); a failing page gives its cause and the address of
the word that failed, an uncorrectable error, or a cell whose metadata cannot be read, MEM_UE (R150, R173, R317, R383). -/
def State.readVa (s : State) (e : Env) (t : Nat) (need : Need) (ea n : Nat) : Except FetchErr (List RByte) :=
  match accessRange e.c (some e.b) need ea n with
  | .error (c, a) => .error ⟨c, 0, a⟩
  | .ok l =>
    let parts := l.map fun x => (x.1, x.2.seg (partEnd ea n x.1 - x.1))
    let bs := parts.flatMap fun x => s.segBytes e t s.nextId x.2
    match parts.findSome? (unreadableIn s) with
    | some a => .error ⟨cMEMUE, 1, a⟩
    | none => match (bs.zip (List.range n)).find? fun x => x.1.bad with
    | some x => .error ⟨cMEMUE, if isScratch (locIn l ea) then 3 else 1, (ea + x.2) / 4 * 4⟩
    | none => .ok bs

/-- Read a structure as bytes. -/
def State.readStruct (s : State) (e : Env) (t ea n : Nat) : Except FetchErr (List Byte) :=
  match s.readVa e t { r := true } ea n with
  | .error x => .error x
  | .ok bs => .ok (rbVals bs)

/-- Little-endian field of a structure: n bytes from byte k. -/
def fieldAt (bs : List Byte) (k n : Nat) : Nat := leNat ((bs.drop k).take n)

/-! ### Tiles (R200, R271) -/

def Tile.zero : Tile := ⟨[], []⟩
def Tile.word (t : Tile) (row col : Nat) : W32 := (alGet t.words (128 * row + col)).getD 0
def Tile.flag (t : Tile) (row : Nat) : BitVec 4 := (alGet t.flags row).getD 0

/-- A row's words and flags, replaced. -/
def Tile.setRow (t : Tile) (row : Nat) (ws : List W32) (f : BitVec 4) : Tile :=
  ⟨(ws.zip (List.range 128)).foldl (fun m x => alSet m (128 * row + x.2) x.1) t.words, alSet t.flags row f⟩

def flINT : BitVec 4 := 8
def flUE : BitVec 4 := 4
def flFMT : BitVec 4 := 2
def flSAT : BitVec 4 := 1

/-- A row's flags, replaced. -/
def Tile.setFlag (t : Tile) (row : Nat) (f : BitVec 4) : Tile := { t with flags := alSet t.flags row f }

def State.freeWords (s : State) : Nat → List W32 × State
  | 0 => ([], s)
  | n + 1 =>
    let (v, s1) := s.freeVal
    let (vs, s2) := s1.freeWords n
    (v.setWidth 32 :: vs, s2)

/-- A tile row becomes unpredictable, since the activation row of a pass into it was written before the WAIT that covers the pass (R199): free
words; FMT and SAT of an integer row, which the activation row decides too, may be set. -/
def State.looseRow (s : State) (bid tile row : Nat) : State :=
  let (f, s1) := s.freeVal
  let (ws, s2) := s1.freeWords 128
  let loose (t : Tile) : Tile :=
    let old := t.flag row
    t.setRow row ws (old ||| (if old.getLsbD 3 then f.setWidth 4 &&& (flFMT ||| flSAT) else 0))
  s2.modBlock bid fun b => { b with tiles := modNth b.tiles tile loose }

/-! ### Writes that take effect at once -/

/-- Operands of matrix requests that are written after their issue: their rows become unpredictable (R199, R257). -/
def OpKind.operands : OpKind → List (Nat × Seg)
  | .mldw _ _ runs => (runs.zip (List.range 128)).flatMap fun x => x.1.map fun r => (x.2, r)
  | .mpass _ _ _ _ _ rows => rows
  | _ => []

/-- Rows of passes that are done and that no WAIT covers: those whose activation row a write touches become unpredictable (R199). A write that
was issued before the pass and performed after its DONE is none of the writes that the pass could return (R257). -/
def State.soilPassed (s : State) (id loc n : Nat) : State :=
  s.blocks.foldl (fun s b => b.passed.foldl (fun s x => match x.row with
    | some (tile, at_, len) => if x.op < id && overlap (at_, len) (loc, n) then s.looseRow b.bid tile x.thr else s
    | none => s) s) s

def State.soil (s0 : State) (id loc n : Nat) : State :=
  let s := if s0.blocks.all fun b => b.passed.isEmpty then s0 else s0.soilPassed id loc n
  if s.ops.all fun o => o.cls != .mx then s
  else { s with ops := s.ops.map fun o =>
    if o.cls = .mx ∧ o.id < id then
      { o with dirty := o.dirty ++ ((o.kind.operands.filter fun x => overlap (x.2.loc, x.2.len) (loc, n)).map (·.1)).filter (· ∉ o.dirty) }
    else o }

def Staged.opId : Staged → Nat
  | .bytes id .. => id
  | .keep id .. => id

/-- Staged writes stand in the program order of their operations (R330, R350). -/
def stage : List Staged → Staged → List Staged
  | [], w => [w]
  | x :: xs, w => if w.opId < x.opId then w :: x :: xs else x :: stage xs w

/-- Write bytes at a location for a thread: staged in deterministic mode for generic memory (R263), else at the end of the coherence
order, visible to the thread (R250). -/
def State.storeNow (s : State) (e : Env) (t id : Nat) (c : Cls) (loc : Nat) (data : List Byte) (bad : Bool) : State :=
  if e.l.det && !isScratch loc then
    s.modBlock e.b.bid fun b => { b with staged := stage b.staged (.bytes id c (e.place t) loc data bad) }
  else
    let (s1, wid) := s.append loc data bad [.thread e.g.gid t] (some id) (s.keyAt (some e.c.num) loc)
    ((s1.note e.g.gid t id c [wid]).spoil s loc data.length).soil id loc data.length

/-! ### The counting board (R349) -/

def linesOf (loc n : Nat) : List Nat := if n = 0 then [] else List.range' (loc / 64) ((loc + n - 1) / 64 - loc / 64 + 1)

/-- What an operation of a deterministic block will stage. -/
def OpKind.stages : OpKind → List (Nat × Nat)
  | .store loc d _ => if isScratch loc then [] else [(loc, d.length)]
  | .keepStore slot .. => [(slot, 8)]
  | .copy true _ rows => rows.map fun r => (r.dst, r.len)
  | .bkmv _ _ _ _ _ rows | .bkgth _ _ _ _ rows => rows.flatMap fun r => r.dst.map fun d => (d.loc, d.len)
  | _ => []

/-- Lines of the board that a block holds or has claimed. -/
def State.boardLines (s : State) (bid : Nat) : List Nat :=
  let held := ((s.block? bid).map fun b => b.staged.flatMap fun w => match w with
    | .bytes _ _ _ loc d _ => linesOf loc d.length
    | .keep _ _ slot .. => [slot / 64]).getD []
  let claimed := (s.ops.filter fun o => o.place.bid == bid).flatMap fun o => o.kind.stages.flatMap fun w => linesOf w.1 w.2
  (held ++ claimed).dedup

/-- Claim writes one after another: the lines then held, or the address of the first write whose line would be the 4,097th. -/
def claimLines : List Nat → List (Nat × Nat × Nat) → Except Nat (List Nat)
  | ls, [] => .ok ls
  | ls, (loc, n, addr) :: ws =>
    let new := (linesOf loc n).filter (· ∉ ls)
    if Config.boardLines < ls.length + new.length then .error (addr + (((new.drop (Config.boardLines - ls.length)).headD 0) * 64 - loc))
    else claimLines (ls ++ new) ws

/-! ### Records of data without a consumer (R366, R383) -/

/-- What a record says of a launch (R380). -/
def launchRecord (c : Context) (l : Launch) (fdom wall : Nat) : FaultRec :=
  { cls := 2, ctx := c.num, region := l.region, fdom := fdom, wall := wall, launch := l.seq, conf := c.confidential }

/-- The same of a gang's launch. -/
def Env.record (e : Env) (s : State) : FaultRec := launchRecord e.c e.l e.rcb.fdom (s.wall e.b.die)

/-- The home slice of a location, as a record names it (R11, R380). -/
def homeWord (loc : Nat) : Nat := engineWord (loc / 2 ^ 38 % 8) 5 (Config.lineSlice (loc / 64) % Config.slicesPerDie)

/-- Poisoned bytes that no instruction consumes: a record of class 0x02 for each line, naming its slice (R383). -/
def State.poisonLines (s : State) (r : FaultRec) (loc n : Nat) (wids : List Nat := []) : State :=
  (linesOf loc n).foldl (fun s a => s.faultRecord { r with engine := homeWord (a * 64), addr := a * 64 } wids) s

def State.poisonRecord (s : State) (e : Env) (loc n : Nat) (wids : List Nat := []) : State := s.poisonLines (e.record s) loc n wids

/-- A home finds an uncorrectable error in a cell: it marks the cell, and a record names its address (R317). -/
def State.markAs (s : State) (r : FaultRec) (slot : Nat) : State :=
  let k := s.cell slot
  if !k.sibs.any (·.poison) || s.cells.any fun x => x.slot == slot && x.ue then s
  else ({ s with cells := putCell s.cells { k with ue := true } }).faultRecord
    { r with engine := homeWord slot, wall := s.wall (dieOf slot), addr := slot }

def State.markCell (s : State) (e : Env) (slot : Nat) : State := s.markAs (e.record s) slot

/-- A record of an uncorrectable error in a block's scratchpad, its home: it names the core, and the line in the block's window. DESIGN CHOICE,
log entry 103. -/
def State.scratchRecord (s : State) (e : Env) (loc : Nat) : State :=
  s.faultRecord { e.record s with engine := engineWord e.b.die 0 e.b.core,
                                  addr := (e.c.window + e.b.sbase + (loc - scratchLoc e.b.bid 0)) / 64 * 64 }

/-- The units of `size` bytes that hold the poisoned bytes among those that were read from a location on. -/
def badUnits (size loc : Nat) (bs : List RByte) : List Nat :=
  (((bs.zip (List.range bs.length)).filter fun x => x.1.bad).map fun x => (loc + x.2) / size * size).dedup

/-- Homes mark the cells whose poison an engine has read (R317). -/
def State.markRead (s : State) (e : Env) (g : Seg) (bs : List RByte) : State :=
  if g.keep then (badUnits 32 g.loc bs).foldl (fun s slot => s.markCell e slot) s else s

/-- Records of the poisoned bytes among those that an engine read from a location on, one for each line, at its home (R196, R383). -/
def State.badRecords (s : State) (e : Env) (loc : Nat) (bs : List RByte) : State :=
  (badUnits 64 loc bs).foldl (fun s a => if isScratch loc then s.scratchRecord e a else s.poisonRecord e a 1) s

/-- A write lost on a link: a record of class 0x04 for each line (R366). -/
def State.lostLines (s : State) (r : FaultRec) (loc n : Nat) : State :=
  let l := (linkOf loc).getD 0
  (linesOf loc n).foldl (fun s a => s.faultRecord { r with cls := 4, engine := engineWord (l / 2) 7 (l % 2), addr := a * 64 }) s

def State.lostWrite (s : State) (e : Env) (loc n : Nat) : State := s.lostLines (e.record s) loc n

/-! ### Posting operations (R85, R247) -/

/-- Threads of an instruction whose counter of a class stands at its maximum: they wait (R85). -/
def Prep.fullFor (p : Prep) (c : Cls) : List Nat := p.parts.filter fun t => c.maxCount ≤ p.s.wcnt p.e.g.gid t c

/-- Put an operation into its issue buffer. Its priority is the launch's (R268, R339). -/
def State.post (s : State) (e : Env) (thrs : List Nat) (cls : Cls) (cnt : Option Cls) (kind : OpKind) (pages : List (Nat × Nat))
    (hold : Option Hold) : State :=
  { s with nextId := s.nextId + 1,
           ops := s.ops ++ [⟨s.nextId, e.place (thrs.headD 0), thrs, e.c.num, e.l.num, cls, cnt, kind, false, none, none, [], s.cycle, e.l.rcb.pri,
             s.cur.pc, pages, [], [], hold, e.g.trap.isSome⟩] }

/-- What a held operation keeps of its instruction. -/
def Prep.holdEntry (p : Prep) (i : Instr) : Option Hold :=
  let cur := p.s.cur
  some ⟨⟨cur.pc, cur.enc, cur.lit, cur.len, p.parts, true, false, false, p.ops, false⟩, cur.next,
    cur.pair.map fun q => (pairEntry p.s p.e.g i q cur.mask, q.next), cur.cap.isSome⟩

/-! ### Writing results back -/

/-- The results of an operation need more physical rods than are free: VOID rods become VALUE (R74). -/
def State.lacksRod (s : State) (o : Op) : Bool :=
  match s.gang? o.place.gid with
  | none => false
  | some g => match s.blockOf g with
    | none => false
    | some b =>
      let need := ((o.kind.dests.map o.destNum).filter fun n => n < 256 && (alGet g.rods n).isNone).dedup.length
      need != 0 && (o.thrs.any fun t => (g.thread? t).any Thread.live) && decide (s.freeRods b.die b.core < need)

/-- An operation whose results wait for a physical rod moves its gang to the pending set and stays (R74). -/
def State.withRods (s : State) (o : Op) (f : State) : State := if s.lacksRod o then s.toPending o.place.gid else f

/-- A result reaches a thread's registers: not those of an exited thread (R109); a bead that was written since may keep either value
(R91); before the first speculative instruction it is part of what a squash restores (R215). -/
def State.deliverRegs (s : State) (o : Op) (t : Nat) (vals : List (Reg × Word × Option (Nat × Word))) : State :=
  if ((s.thread? o.place.gid t).map (·.exited)).getD true then s
  else
    vals.foldl (fun s v =>
      let num := o.destNum v.1
      let (keep, s) := if (num, t) ∈ o.clob then s.freeFlag else (false, s)
      if keep then s
      else
        let put (g : Gang) : Gang :=
          let g1 := if num < 256 then g.setBead num t v.2.1
            else { g.modThread t (fun x => { x with k := setAt x.k (num - 256) v.2.1 }) with
                   poison := g.poison.filter fun p => !(p.reg == num && p.thr == t) }
          match v.2.2 with
          | some (code, addr) => { g1 with poison := ⟨num, t, code, addr⟩ :: g1.poison }
          | none => g1
        s.modGang o.place.gid fun g =>
          let g1 := put g
          { g1 with early := g1.early.filter fun x => x.2.1 != t,
                    spec := g1.spec.map fun sp =>
                      if o.id < sp.first then
                        let g0 := put { g with rods := sp.rods, poison := sp.poison, threads := sp.threads }
                        { sp with rods := g0.rods, poison := g0.poison, threads := g0.threads }
                      else sp }) s

/-- The SUB of a MEM_UE for poisoned bytes at a location (R371). -/
def poisonSub (loc : Nat) : Nat := if isScratch loc then 3 else 1

end Sys2Proof.Machine
end

