-- ==== Sys2Proof/Machine/Access.lean ====
section
/-! DEFINITION. Loads, stores, atomics, prefetch, fences and the tag table (R146 to R153, R162 to R170), and the ordering machine's
transitions on them (R250 to R253): BIND, PERFORM_STORE, ATOMIC, PROPAGATE. -/

namespace Sys2Proof.Machine
open Host

/-! ### Checks of one access (R147 to R150, R154, R165) -/

/-- What a memory instruction does at its address. -/
inductive Use where
  | load
  | constant
  | store
  | atomic
  deriving DecidableEq, Repr

def Use.need : Use → Need
  | .load => { r := true, peer := true }
  | .constant => { r := true, noKeep := true, noBank := true, peer := true }
  | .store => { w := true, peer := true }
  | .atomic => { r := true, w := true, peer := true }

/-- Where an address of a space leads: TRANSLATION before ACCESS (R147, R148). -/
def resolveAt (e : Env) (sp : Space) (u : Use) (ea : Nat) : Except Nat Resolved :=
  match sp with
  | .scratch => if ea < e.b.ssize then .ok (.scratch (scratchLoc e.b.bid ea)) else .error cACCESS
  | _ => access e.c (some e.b) u.need ea

/-- The rules of a write to a KEEP page (R154): metadata first, then the width. -/
def keepWriteCause (pa n : Nat) : Option Nat :=
  if 8 < pa % 32 + n then some cKEEPMETA else if pa % 32 ≠ 0 ∨ n ≠ 8 then some cALIGN else none

/-- The check of one thread's access, in the order of R150; `held` are the board lines held or claimed before it (R349). -/
def accessCheck (s : State) (e : Env) (sp : Space) (u : Use) (n : Nat) (held : List Nat) (ea : Nat) : Option (Nat × Nat) :=
  if ea % n ≠ 0 then some (cALIGN, ea)
  else match resolveAt e sp u ea with
    | .error c => some (c, ea)
    | .ok r =>
      let keepBad := match r with
        | .page p pa =>
          if p.keep then
            (match u with
             | .store | .atomic => keepWriteCause pa n
             | _ => none).or
              (if s.cells.any fun k => k.slot == pa / 32 * 32 && k.unreadable then some cMEMUE else none)
          else none
        | .scratch _ => none
      if s.linkBars r.loc then some (cACCESS, ea)
      else if Config.boardLines ≤ held.length ∧ !isScratch r.loc ∧ r.loc / 64 ∉ held then some (cACCESS, ea)
      else match keepBad with
      | some c => some (c, ea)
      | none => if u = .atomic ∧ e.l.det ∧ sp ≠ .scratch then some (cATOMDET, ea) else none

def Prep.ea (p : Prep) (m : Addr) (t : Nat) : Nat := (eaOf (p.a t) (p.b t) m.scale).toNat

/-! ### LD and ST (R153) -/

def isKeep : Resolved → Bool
  | .page p _ => p.keep
  | .scratch _ => false

/-- What the page of a KEEP store says of a refusal: OVF = MERGE, and the MERGE op (R297, R311). -/
def Resolved.policy : Resolved → Bool × RcnOp
  | .page p _ => (p.ovfMerge, p.merge)
  | .scratch _ => (false, .add)

/-- The load that a thread issues: a KEEP page's is a Home step (R154, R255). -/
def loadKind (r : Resolved) (n : Nat) (d : Reg) (sext : Bool) (ea : Word) (const : Bool) : OpKind :=
  match r with
  | .page p pa => if p.keep then .keepLoad (pa / 32 * 32) (pa % 32) n d sext ea else .load pa n d sext ea const
  | .scratch loc => .load loc n d sext ea const

/-- Under speculation a load issues only on a page with SPEC=1 (R152, R214). -/
def specLoadOk (e : Env) (r : Resolved) : Bool :=
  e.g.spec.isNone || (match r with | .page p _ => p.spec && !p.keep && !p.bank | .scratch _ => false)

def ldExec (i : Instr) (w : Width) (sext : Bool) (sp : Space) (d : Reg) (ea : Prep → Nat → Nat) (s : State) :
    Host.Outcome State Fault Refusal :=
  withPrep i s fun p =>
    let n := w.bytes
    let u := if sp = .constant then Use.constant else Use.load
    match p.check i fun t => accessCheck p.s p.e sp u n [] (ea p t) with
    | some s' => s'
    | none =>
      let res (t : Nat) : Option Resolved := match resolveAt p.e sp u (ea p t) with | .ok r => some r | .error _ => none
      if p.parts.any fun t => (res t).any fun r => !specLoadOk p.e r then p.s0.stallAt p.s.cur.mask .short
      else
        let full := p.fullFor .ld
        let go := p.parts.filter (· ∉ full)
        let s1 := go.foldl (fun s t => match res t with
          | some r => s.post p.e [t] .ld (some .ld) (loadKind r n d sext (BitVec.ofNat 64 (ea p t)) (sp == .constant)) r.pageAt none
          | none => s) p.s
        s1.completePart i p.parts full .short

/-- R153: LD. -/
def execLd (g : Guard) (ty : Ty) (w : Width) (sext : Bool) (sp : Space) (d : Reg) (addr : Addr) (s : State) :
    Host.Outcome State Fault Refusal :=
  ldExec (.ld g ty w sext sp d addr) w sext sp d (fun p t => p.ea addr t) s

/-- R55: S-form LD.b64 d, [a + b×8]. -/
def execLdB64S (d a b : Reg) (s : State) : Host.Outcome State Fault Refusal :=
  ldExec (.ldB64S d a b) .w64 false .generic d (fun p t => (eaOf (p.a t) (p.b t) 3).toNat) s

/-- The bytes that ST captures: the beads of the run, low bytes first (R153). -/
def storeBytes (n : Nat) (vs : List Word) : List Byte := (vs.flatMap fun v => leBytes 8 v.toNat).take n

/-- Board lines held before a thread's store: the block's, and those of the lower threads of the instruction (R349). DEDUCED, log entry 60. -/
def Prep.storeLines (p : Prep) (sp : Space) (ea : Nat → Nat) (t : Nat) : List Nat :=
  if !p.e.l.det then []
  else
    let own := (p.parts.filter (· < t)).filterMap fun u => match resolveAt p.e sp .store (ea u) with
      | .ok r => if isScratch r.loc then none else some (r.loc / 64)
      | .error _ => none
    (p.s.boardLines p.e.b.bid ++ own).dedup

/-- A store of a width in a space (R158). DEDUCED, log entry 61. -/
def stExec (i : Instr) (w : Width) (sp : Space) (ea : Prep → Nat → Nat) (s : State) : Host.Outcome State Fault Refusal :=
  withPrep i s fun p =>
    let n := w.bytes
    match p.check i fun t => accessCheck p.s p.e sp .store n (p.storeLines sp (ea p) t) (ea p t) with
    | some s' => s'
    | none =>
      let full := p.fullFor .st
      let go := p.parts.filter (· ∉ full)
      let one (s : State) (t : Nat) : State :=
        match resolveAt p.e sp .store (ea p t) with
        | .error _ => s
        | .ok r =>
          if isKeep r then
            s.post p.e [t] .st (some .st) (.keepStore r.loc 0 (p.d t) false (BitVec.ofNat 64 (ea p t)) r.policy.1 r.policy.2) r.pageAt
              (if p.e.l.det then none else p.holdEntry i)
          else s.post p.e [t] .st (some .st) (.store r.loc (storeBytes n (p.d t :: p.x t)) false) r.pageAt none
      (go.foldl one p.s).completePart i p.parts full .short

/-- R153: ST. -/
def execSt (g : Guard) (ty : Ty) (w : Width) (sp : Space) (d : Reg) (addr : Addr) (s : State) : Host.Outcome State Fault Refusal :=
  stExec (.st g ty w sp d addr) w sp (fun p t => p.ea addr t) s

/-- R55: S-form ST.b64 [a + b×8], d. -/
def execStB64S (d a b : Reg) (s : State) : Host.Outcome State Fault Refusal :=
  stExec (.stB64S d a b) .w64 .generic (fun p t => (eaOf (p.a t) (p.b t) 3).toNat) s

/-- R162: PREF may bring a line nearer: no architectural state changes, and nothing traps but a regeneration. -/
def execPref (g : Guard) (constant l2 : Bool) (addr : Addr) (s : State) : Host.Outcome State Fault Refusal :=
  let i := Instr.pref g constant l2 addr
  .next (match prepareWith true i s with
    | .error s' => s'
    | .ok p => p.s.complete i p.parts)

/-! ### Atomics (R163 to R165) -/

/-- One combining step on w-bit values (R163); floats round to nearest-even. -/
def atomStep (op : AtomOp) (ty : Ty) (x y : Nat) : Nat :=
  match op with
  | .add => (redCombine .add ty .ne x y).bits
  | .min => (redCombine .min ty .ne x y).bits
  | .max => (redCombine .max ty .ne x y).bits
  | .and => x &&& y
  | .or => x ||| y
  | .xor => x ^^^ y
  | .exch => y

/-- The aggregate of an ATOM or RED request (R164): the new memory value, and each thread's result. -/
def aggregate (op : AtomOp) (ty : Ty) (old : Nat) (vals : List (Nat × Word)) : Nat × List (Nat × Nat) :=
  let r := vals.foldl (fun (acc : Option Nat × List (Nat × Nat)) v =>
    let x := v.2.toNat % 2 ^ ty.width
    let res := match acc.1 with | none => old | some pj => atomStep op ty old pj
    let pn := match acc.1 with | none => x | some pj => atomStep op ty pj x
    (some pn, acc.2 ++ [(v.1, res)])) (none, [])
  (match r.1 with | some pj => atomStep op ty old pj | none => old, r.2)

/-- The compare-and-swap steps of an ACAS request (R164). -/
def casSteps (ty : Ty) (old : Nat) (vals : List (Nat × Word × Word)) : Nat × List (Nat × Nat) :=
  vals.foldl (fun (acc : Nat × List (Nat × Nat)) v =>
    let m := acc.1
    (if m = v.2.1.toNat % 2 ^ ty.width then v.2.2.toNat % 2 ^ ty.width else m, acc.2 ++ [(v.1, m)])) (old, [])

/-- Distinct effective addresses of threads, in ascending order of their lowest thread, with their threads (R164). -/
def groupByEa (ts : List Nat) (ea : Nat → Nat) : List (Nat × List Nat) :=
  ((ts.map ea).dedup).map fun a => (a, ts.filter fun t => ea t == a)

def atomExec (i : Instr) (sp : Bool) (ty : Ty) (cnt : Cls) (m : Addr) (plain : Prep → Resolved → List Nat → Word → OpKind) (s : State) :
    Host.Outcome State Fault Refusal :=
  withPrep i s fun p =>
    let n := ty.width / 8
    let space := if sp then Space.scratch else .generic
    match p.check i fun t => accessCheck p.s p.e space .atomic n [] (p.ea m t) with
    | some s' => s'
    | none =>
      let full := p.fullFor cnt
      let go := p.parts.filter (· ∉ full)
      let one (s : State) (x : Nat × List Nat) : State :=
        match resolveAt p.e space .atomic x.1 with
        | .error _ => s
        | .ok r =>
          s.post p.e x.2 .atom (some cnt) (plain p r x.2 (BitVec.ofNat 64 x.1)) r.pageAt (if isKeep r then p.holdEntry i else none)
      ((groupByEa go (p.ea m)).foldl one p.s).completePart i p.parts full .short

/-- R163: ATOM. -/
def execAtom (g : Guard) (sp : Bool) (op : AtomOp) (ty : Ty) (d : Reg) (addr : Addr) (c : Reg) (s : State) :
    Host.Outcome State Fault Refusal :=
  atomExec (.atom g sp op ty d addr c) sp ty .ld addr (fun p r ts ea =>
    let vals := ts.map fun t => (t, p.c t)
    if isKeep r then .keepAtomic r.loc op ty (some d) vals ea else .atomic r.loc op ty (some d) vals ea) s

/-- R163: RED. -/
def execRed (g : Guard) (sp : Bool) (op : AtomOp) (ty : Ty) (addr : Addr) (c : Reg) (s : State) : Host.Outcome State Fault Refusal :=
  atomExec (.red g sp op ty addr c) sp ty .st addr (fun p r ts ea =>
    let vals := ts.map fun t => (t, p.c t)
    if isKeep r then .keepAtomic r.loc op ty none vals ea else .atomic r.loc op ty none vals ea) s

/-- R163: ACAS. -/
def execAcas (g : Guard) (sp : Bool) (ty : Ty) (d : Reg) (addr : Addr) (c : Reg) (s : State) : Host.Outcome State Fault Refusal :=
  atomExec (.acas g sp ty d addr c) sp ty .ld addr (fun p r ts ea =>
    let vals := ts.map fun t => (t, p.c t, (p.x t).headD 0)
    if isKeep r then .keepCas r.loc ty d vals ea else .cas r.loc ty d vals ea) s

/-! ### The tag table (R166, R237) -/

def emptyTag : Word := 0xFFFFFFFFFFFFFFFF

/-- SLOOK on a block's entries: the result bead, and the block after it. -/
def Block.slook (b : Block) (tag : Word) : Word × Block :=
  match (if tag = emptyTag then none else b.tags.findIdx? fun x => x == tag) with
  | some k => (BitVec.ofNat 64 k, { b with recency := b.recency.filter (· != k) ++ [k] })
  | none =>
    let victim := match b.tags.findIdx? fun x => x == emptyTag with
      | some k => k
      | none => match b.recency with
        | k :: _ => k
        | [] => 0xFFFFFFFF
    (BitVec.ofNat 64 (victim * 2 ^ 32 + 0xFFFFFFFF), b)

/-- STAG: any other entry with the tag becomes empty. -/
def Block.stag (b : Block) (k : Nat) (tag : Word) : Block :=
  let lost := if tag = emptyTag then [] else (List.range b.tags.length).filter fun j => j != k && b.tags.getD j emptyTag == tag
  let tags := lost.foldl (fun ts j => setAt ts j emptyTag) b.tags
  let rec1 := lost ++ b.recency.filter fun j => j != k && j ∉ lost
  { b with tags := setAt tags k tag, recency := if tag = emptyTag then k :: rec1 else rec1 ++ [k] }

/-- R166: SLOOK. -/
def execSlook (g : Guard) (d a : Reg) (s : State) : Host.Outcome State Fault Refusal :=
  let i := Instr.slook g d a
  withPrep i s fun p =>
    let one (s : State) (t : Nat) : State :=
      match s.block? p.e.b.bid with
      | none => s
      | some b =>
        (s.modBlock p.e.b.bid fun b => (b.slook (p.a t)).2).modGang p.e.g.gid fun g => g.writeReg d t (b.slook (p.a t)).1
    (p.parts.foldl one p.s).complete i p.parts

/-- R166: STAG; a slot at or above n traps ACCESS. -/
def execStag (g : Guard) (a b : Reg) (s : State) : Host.Outcome State Fault Refusal :=
  let i := Instr.stag g a b
  withPrep i s fun p =>
    let slot (t : Nat) : Nat := bits (p.a t).toNat 31 0
    match p.check i fun t => if p.e.b.tags.length ≤ slot t then some (cACCESS, slot t) else none with
    | some s' => s'
    | none => (p.parts.foldl (fun s t => s.modBlock p.e.b.bid fun b => b.stag (slot t) (p.b t)) p.s).complete i p.parts

/-! ### Fences (R169, R170, R253) -/

/-- A block of a deterministic launch: its fences are kept, since they decide what its bank operations see (R203). -/
def State.isDetBlock (s : State) (bid : Nat) : Bool :=
  (((s.block? bid).bind fun b => s.launch? b.launch).map (·.det)).getD false

/-- R169: FENCE enters each thread's queue as a marker; an empty set orders nothing. -/
def execFence (g : Guard) (scope : Scope) (pred succ : BitVec 7) (s : State) : Host.Outcome State Fault Refusal :=
  let i := Instr.fence g scope pred succ
  withPrep i s fun p =>
    let s1 := { p.s with fences := p.s.fences.filter fun f => !p.s.fenceOk f || p.s.isDetBlock f.place.bid }
    let add (s : State) (t : Nat) : State :=
      { s with fences := s.fences ++ [⟨s.nextId, p.e.place t, scope, pred, succ⟩], nextId := s.nextId + 1 }
    ((if pred = 0 ∨ succ = 0 then s1 else p.parts.foldl add s1)).complete i p.parts

/-- Every write that a thread has observed is visible to the operand readers of its cluster, its own stores included (R170). -/
def State.observedOut (s : State) (p : Place) : Bool :=
  (s.ops.all fun o => !(o.place.gid == p.gid && p.thr ∈ o.thrs && (o.cls == .st || o.cls == .atom))) &&
    s.writes.all fun w => !w.visibleTo p.units || w.visibleTo (p.unitsFrom Scope.cluster.level)

/-- R170: OFENCE stalls until what its thread has observed is visible to the operand readers. DEDUCED, log entry 46. -/
def execOfence (g : Guard) (s : State) : Host.Outcome State Fault Refusal :=
  let i := Instr.ofence g
  withPrep i s fun p =>
    let waits := p.parts.filter fun t => !p.s.observedOut (p.e.place t)
    let s1 := p.s.modGang p.e.g.gid fun g => { g with threads := g.threads.map fun x =>
      if x.thr ∈ p.parts ∧ x.thr ∉ waits then { x with snap := p.s.snapAt (p.e.place x.thr).units } else x }
    s1.completePart i p.parts waits .short

/-! ### Transitions (R250) -/

/-- The beads of a load (R153): an extended word, or whole words of a run, each with its poison. -/
def loadRegs (d : Reg) (sext : Bool) (ea : Word) (sub : Nat) (bs : List RByte) : List (Reg × Word × Option (Nat × Word)) :=
  let word (d : Reg) (v : Word) (x : List RByte) : Reg × Word × Option (Nat × Word) := (d, v, if rbBad x then some (sub, ea) else none)
  if bs.length ≤ 8 then [word d (loadWord sext (rbVals bs)) bs]
  else (List.range (bs.length / 8)).map fun k =>
    let x := (bs.drop (8 * k)).take 8
    word (d + BitVec.ofNat 8 k) (loadWord false (rbVals x)) x

/-- Do an operation's step if it is in its issue buffer and enabled (R251, R253), and its results find physical rods (R74). -/
def State.ifEnabled (s : State) (id : Nat) (f : Op → State) : Host.Outcome State Fault Refusal :=
  .next (match s.op? id with
    | some o => if s.enabled o then s.withRods o (f o) else s
    | none => s)

/-- Bytes read from a location on, those at some locations unpredictable. -/
def State.loosen (s : State) (at_ : Nat → Bool) : Nat → List RByte → List RByte × State
  | _, [] => ([], s)
  | loc, b :: bs =>
    let (b1, s1) := if at_ loc then let (v, s1) := s.freeVal; ({ b with val := v.setWidth 8 }, s1) else (b, s)
    let (bs1, s2) := s1.loosen at_ (loc + 1) bs
    (b1 :: bs1, s2)

/-- The bytes of a load: unpredictable where the location is unsettled (R168) or disturbed (R348), and through the constant space where it has been written (R148). -/
def State.unlanded (s : State) (p : Place) (const : Bool) (loc : Nat) (bs : List RByte) : List RByte × State :=
  s.loosen (fun a => s.unsure p.bid a || (const && s.constWritten p a)) loc bs

/-- R250: BIND: a load takes the latest write visible to its thread; its beads are written. -/
def execBind (op : Nat) (s : State) : Host.Outcome State Fault Refusal :=
  s.ifEnabled op fun o =>
    match o.kind with
    | .load loc n d sext ea const =>
      let (bs1, s0) := s.unlanded o.place const loc (s.viewBytes o.place op loc n)
      let bs := if s.linkDown loc then bs1.map fun b => { b with bad := true } else bs1
      let s1 := (s0.dropOp op).note o.place.gid o.place.thr op .ld (rbWids bs)
      s1.deliverRegs o o.place.thr (loadRegs d sext ea (poisonSub loc) bs)
    | _ => s

/-- R250, R263: PERFORM_STORE: a store's write is appended, or staged in deterministic mode. -/
def execPerformStore (op : Nat) (s : State) : Host.Outcome State Fault Refusal :=
  s.ifEnabled op fun o =>
    match o.kind with
    | .store loc data bad =>
      match s.env? o.place.gid with
      | some e =>
        if s.linkDown loc then (s.dropOp op).lostWrite e loc data.length
        else (s.dropOp op).storeNow e o.place.thr op .st loc data bad
      | none => (s.dropOp op).poke loc data
    | _ => s

/-- What an atomic request returns to its threads. -/
def atomRegs (o : Op) (ty : Ty) (d : Option Reg) (ea : Word) (sub : Nat) (bad : Bool) (s : State) (rs : List (Nat × Nat)) : State :=
  match d with
  | none => s
  | some d => rs.foldl (fun s r => s.deliverRegs o r.1 [(d, BitVec.ofNat 64 (r.2 % 2 ^ ty.width), if bad then some (sub, ea) else none)]) s

/-- A write that leaves poison in memory has its record, once it has reached system scope (R379, R383). -/
def State.badStore (s : State) (gid loc n : Nat) (bad : Bool) (wid : Nat) : State :=
  match bad, s.env? gid with
  | true, some e => if isScratch loc then s.scratchRecord e loc else s.poisonRecord e loc n [wid]
  | _, _ => s

/-- R250, R164: ATOMIC: an aggregated request reads the last write and appends its own in one step. -/
def execAtomic (op : Nat) (s : State) : Host.Outcome State Fault Refusal :=
  s.ifEnabled op fun o =>
    let go (loc : Nat) (ty : Ty) (d : Option Reg) (ea : Word) (f : Nat → Nat × List (Nat × Nat)) (keeps : Bool) : State :=
      let n := ty.width / 8
      let (bs, s0) := s.unlanded o.place false loc (s.seenBy (some o.ctx) loc (s.lastBytes loc n))
      let (new, rs) := f (rbNat bs)
      if s.linkDown loc then
        let s1 := (s.dropOp op)
        let s2 := match s.env? o.place.gid with | some e => s1.lostWrite e loc n | none => s1
        atomRegs o ty d ea 1 true s2 (o.thrs.map fun t => (t, 0))
      else
      let (s1, wid) := (s0.dropOp op).append loc (leBytes n new) (rbBad bs && keeps) (o.thrs.map fun t => .thread o.place.gid t) (some op)
        (s.keyAt (some o.ctx) loc)
      let s2 := o.thrs.foldl (fun s t => s.note o.place.gid t op .atom (wid :: rbWids bs)) (s1.badStore o.place.gid loc n (rbBad bs && keeps) wid)
      atomRegs o ty d ea (poisonSub loc) (rbBad bs) ((s2.spoil s loc n).soil op loc n) rs
    match o.kind with
    | .atomic loc aop ty d vals ea => go loc ty d ea (fun old => aggregate aop ty old vals) (aop != .exch)
    | .cas loc ty d vals ea => go loc ty (some d) ea (fun old => casSteps ty old vals) true
    | _ => s

/-- The scope unit of an agent at a level (R248); none below die for a bank unit. -/
def State.unitAt (s : State) (a : Agent) (sc : Scope) : Option ScopeUnit :=
  match a with
  | .thread gid thr => ((s.placeOf gid thr).unitsFrom sc.level).head?
  | .bank die _ => if sc.level < 4 then none else ((Place.mk die 0 0 0 0).unitsFrom sc.level).head?
  | .host | .peer _ => some .system

/-- Does an agent see a write? -/
def State.agentSees (s : State) (a : Agent) (w : PWrite) : Bool :=
  match a with
  | .thread gid thr => w.visibleTo (s.placeOf gid thr).units
  | .bank die vault => w.visibleTo (bankUnits die vault)
  | .host | .peer _ => w.visibleTo hostUnits

/-- R250: PROPAGATE: a write that an agent sees becomes visible to the agent's scope unit at a level. -/
def execPropagate (wid : Nat) (via : Agent) (scope : Scope) (s : State) : Host.Outcome State Fault Refusal :=
  .next (match s.writes.find? fun w => w.wid == wid with
    | some w => if s.agentSees via w then (match s.unitAt via scope with | some u => s.spread wid u | none => s) else s
    | none => s)

end Sys2Proof.Machine
end

