-- ==== Sys2Proof/Machine/Effects.lean ====
section
/-! DEFINITION. Handler frames and effects: performing (R184), HPUSH, HPOP, RESUME, RESUMEM, DROP, TOKST (R179 to R186, R278 to
R289), BRK (R115) and the gang timer (R81, R287). -/

namespace Sys2Proof.Machine
open Host

/-! ### Frames (R179) -/

/-- The four words of a frame. -/
structure Frame where
  gen : Nat
  parent : Nat
  cp2 : Nat
  mtch : Nat
  hpc : Nat
  mask : Nat
  xpc : Nat
  st : Nat
  sys : Bool
  multi : Bool
  window : Bool
  save : Nat
  deriving DecidableEq, Repr

def Frame.ofBytes (bs : List Byte) : Frame :=
  let w (k : Nat) : Nat := fieldAt bs (8 * k) 8
  ⟨bits (w 0) 63 48, bits (w 0) 47 5 * 32, bits (w 0) 4 0, bits (w 1) 63 48, bits (w 1) 47 0, bits (w 2) 63 48, bits (w 2) 47 0,
    bits (w 3) 57 56, bits (w 3) 58 58 = 1, bits (w 3) 48 48 = 1, bits (w 3) 49 49 = 1, bits (w 3) 47 0⟩

def Frame.bytes (f : Frame) : List Byte :=
  leBytes 8 (f.cp2 % 32 + f.parent / 32 * 32 % 2 ^ 48 + 2 ^ 48 * f.gen) ++ leBytes 8 (f.hpc % 2 ^ 48 + 2 ^ 48 * f.mtch)
    ++ leBytes 8 (f.xpc % 2 ^ 48 + 2 ^ 48 * f.mask)
    ++ leBytes 8 (f.save % 2 ^ 48 + 2 ^ 48 * (f.multi.toNat + 2 * f.window.toNat) + 2 ^ 56 * (f.st + 4 * f.sys.toNat))

/-- Generations advance modulo 2^16 and skip 0 (R180). -/
def nextGen (g : Nat) : Nat := if (g + 1) % 2 ^ 16 = 0 then 1 else (g + 1) % 2 ^ 16

/-- A frame accepts an effect (R279). -/
def Frame.accepts (f : Frame) (eff : Nat) : Bool := (eff &&& f.mask) == f.mtch

def idleSt : Nat := 0
def handlingSt : Nat := 1
def resumedSt : Nat := 2

/-- The parts of a range that a deterministic block stages, as board writes: location, length, address (R349). -/
def boardParts (e : Env) (ea n : Nat) : List (Nat × Nat × Nat) :=
  (rangePoints ea n).filterMap fun a => match translate e.c (some e.b) a with
    | .ok (.page _ pa) => some (pa, partEnd ea n a - a, a)
    | _ => none

/-- Writes of threads that would need a deterministic block's 4,097th board line, with the address of the first that does (R349). -/
def State.boardFails (s : State) (e : Env) (ws : List (Nat × Nat × Nat)) : List (Nat × Nat) :=
  if !e.l.det then []
  else (ws.foldl (fun (ls, out) w => match claimLines ls (boardParts e w.2.1 w.2.2) with
    | .error a => (ls, out ++ [(w.1, a)])
    | .ok ls' => (ls', out)) (s.boardLines e.b.bid, [])).2

/-- What a frame or save area needs: a page, readable and writable, neither KEEP nor BANK; no page is mapped in the scratchpad window (R236,
R285). DEDUCED, log entry 85. -/
def frameNeed : Need := { r := true, w := true, noKeep := true, noBank := true, noScratch := true }

/-- Read a frame as thread t sees it. -/
def State.frameAt (s : State) (e : Env) (t f : Nat) : Except FetchErr Frame :=
  match s.readVa e t frameNeed f 32 with
  | .error x => .error x
  | .ok bs => .ok (Frame.ofBytes (rbVals bs))

/-- Note that a thread has read a frame or a save area: reads of class LD (R172, R252). -/
def State.noteVa (s : State) (e : Env) (t id ea n : Nat) : State :=
  match s.readVa e t frameNeed ea n with
  | .error _ => s
  | .ok bs => s.note e.g.gid t id .ld (rbWids bs)

/-- Write n bytes at a virtual address that has been checked. -/
def State.writeVa (s : State) (e : Env) (t id ea : Nat) (data : List Byte) : State :=
  (rangePoints ea data.length).foldl (fun s a =>
    match translate e.c (some e.b) a with
    | .ok r =>
      let stop := min (ea + data.length) ((a / 4096 + 1) * 4096)
      s.storeNow e t id .st r.loc ((data.drop (a - ea)).take (stop - a)) false
    | .error _ => s) s

/-- A write that group mates see at once: frames shared by performers of one group (R284). -/
def State.putFrame (s : State) (e : Env) (t id f : Nat) (fr : Frame) : State := s.writeVa e t id f fr.bytes

/-! ### Waiting for a thread's own earlier accesses (R251, R253) -/

/-- May a thread read a range now, as class LD at this point of its program order (R172)? DEDUCED, log entry 48. -/
def State.mayRead (s : State) (e : Env) (t ea n : Nat) : Bool :=
  s.fencesAllow e.g.gid t s.nextId .ld &&
    (rangePoints ea n).all fun a =>
      match translate e.c (some e.b) a with
      | .ok r => s.orderOk e.g.gid t s.nextId (r.loc, min (ea + n) ((a / 4096 + 1) * 4096) - a)
      | .error _ => true

/-- May it read and write the range: class ST too? DEDUCED, log entry 47. -/
def State.mayTouch (s : State) (e : Env) (t ea n : Nat) : Bool := s.fencesAllow e.g.gid t s.nextId .st && s.mayRead e t ea n

/-! ### Performing (R184) -/

/-- A thread's request to perform: effect, argument, continuation PC, SYS. -/
structure Req where
  thr : Nat
  eff : Nat
  arg : Word
  pc : Nat
  sys : Bool
  deriving DecidableEq, Repr

/-- What a thread's search gives; the frames that it read, the accepting one last. -/
inductive Found where
  | frame (f : Nat) (path : List Nat)
  | none
  | bad (e : FetchErr)
  | wait
  deriving DecidableEq, Repr

/-- The search of a handler chain (R184): at most 4,096 frames. -/
def State.search (s : State) (e : Env) (t eff : Nat) : Nat → List Nat → Nat → Found
  | 0, _, _ => .none
  | fuel + 1, path, f =>
    if f = 0 then .none
    else if !s.mayRead e t f 32 then .wait
    else match s.frameAt e t f with
      | .error x => .bad x
      | .ok fr => if fr.accepts eff then (if s.mayTouch e t f 32 then .frame f (path ++ [f]) else .wait) else s.search e t eff fuel (path ++ [f]) fr.parent

/-- The registers that a MULTI frame saves (R183). -/
def savedRegs : List Reg := (List.range 240).map (BitVec.ofNat 8)

/-- Their values, recipes as a read would give them (R230). -/
def saveRegs (s : State) (e : Env) (t : Nat) : Taken × List Word := takeExtra s e ⟨CapOp.none t, none, false, [], []⟩ savedRegs

/-- A thread ready to enter a handler: the frame, its address, the handler PC, the frames that the search read, what a MULTI frame saves, and
what reading that read and regenerated. -/
structure Enter where
  fr : Frame
  f : Nat
  hpc : Nat
  path : List Nat
  regs : List Word
  wids : List Nat
  rods : List Nat
  deriving DecidableEq, Repr

/-- What is left to check of a thread that found a frame (R184): the save area writable, the continuation storable (R183), its registers
readable, its handler a legal target (R45). -/
inductive Ready where
  | ok (x : Enter)
  | none
  | bad (cause sub addr : Nat) (tslice : Word)
  | wait
  deriving DecidableEq, Repr

/-- What a MULTI frame adds to the checks (R183, R230). -/
def State.readyMulti (s : State) (e : Env) (q : Req) (x : Enter) : Ready :=
  match accessRange e.c (some e.b) frameNeed x.fr.save 1928 with
  | .error (c, a) => .bad c 0 a 0
  | .ok _ =>
    if !s.mayTouch e q.thr x.fr.save 1928 then .wait
    else
      let k := saveRegs s e q.thr
      match k.1.fail, firstBad e.g k.1.op savedRegs with
      | some f, _ => .bad cREGEN (bits f.tslice.toNat 59 56) f.addr.toNat f.tslice
      | Option.none, some (code, addr) => .bad cMEMUE code addr.toNat 0
      | Option.none, Option.none => if k.1.wait then .wait else .ok { x with regs := k.2, wids := k.1.wids, rods := k.1.rods }

def State.readyPerform (s : State) (e : Env) (q : Req) (hsp : Nat) : Ready :=
  match s.search e q.thr q.eff 4096 [] hsp with
  | .none => .none
  | .wait => .wait
  | .bad x => .bad x.cause x.sub x.addr 0
  | .frame f path =>
    match s.frameAt e q.thr f with
    | .error x => .bad x.cause x.sub x.addr 0
    | .ok fr =>
      match checkTarget s e.c (e.place q.thr).units true fr.hpc with
      | .error x => .bad x.cause x.sub x.addr 0
      | .ok h =>
        if fr.multi then s.readyMulti e q ⟨fr, f, h, path, [], [], []⟩
        else if 2 ^ 48 ≤ q.pc then .bad cACCESS 0 f 0
        else .ok ⟨fr, f, h, path, [], [], []⟩

/-- The writes that entering a handler makes. -/
def Ready.writes (t : Nat) : Ready → List (Nat × Nat × Nat)
  | .ok x => (t, x.f, 32) :: (if x.fr.multi then [(t, x.fr.save, 1928)] else [])
  | _ => []

/-- A PERFORM has reached a frame: tokens that other threads of the context made there are dead (R284). -/
def State.killTokens (s : State) (e : Env) (t f : Nat) : State :=
  { s with gangs := s.gangs.map fun g =>
    if s.ctxNum g == e.c.num then
      { g with threads := g.threads.map fun x =>
        if g.gid = e.g.gid ∧ x.thr = t then x else { x with toks := x.toks.filter fun k => k.word.toNat % 2 ^ 48 != f } }
    else g }

/-- Predicates p0 to p6 as a number. -/
def Thread.predNat (x : Thread) : Nat := x.preds.toNat

/-- The frame as a performer finds it: it sees what its group mates have written there just before, since performers that share a frame
act one after another (R284). -/
def State.frameOf (s : State) (e : Env) (t : Nat) (mates : List Nat) (f : Nat) : List RByte :=
  match translate e.c (some e.b) f with
  | .ok r => if e.l.det && !isScratch r.loc then s.segBytes e t s.nextId (r.seg 32)
             else s.seenBy (some e.c.num) r.loc (s.readBytes ((e.place t).units ++ mates.map fun t => ScopeUnit.thread e.g.gid t) r.loc 32)
  | .error _ => []

/-- Enter a handler: the frame keeps the continuation, the thread gets its token (R183, R184). A list address that was due at the
continuation stays with the token (R286). DEDUCED, log entry 44. -/
def State.enterHandler (s : State) (e : Env) (id : Nat) (q : Req) (mates : List Nat) (f h : Nat) (regs : List Word) : State :=
  match s.thread? e.g.gid q.thr with
  | none => s
  | some x =>
    let found := s.frameOf e q.thr mates f
    let fr := Frame.ofBytes (rbVals found)
    let gen := nextGen fr.gen
    let tok := BitVec.ofNat 64 (2 ^ 48 * gen + f)
    let pn := x.predNat
    let fr1 : Frame := { fr with gen := gen, parent := x.hsp.toNat, st := handlingSt }
    let fr2 := if fr.multi then { fr1 with sys := false }
      else { fr1 with save := q.pc / 4 * 4 + pn % 4, cp2 := pn / 4, sys := q.sys }
    let s1 := ((s.note e.g.gid q.thr id .ld (rbWids found)).killTokens e q.thr f).putFrame e q.thr id f fr2
    let s2 := if fr.multi then
        s1.writeVa e q.thr id fr.save (leBytes 8 (q.pc % 2 ^ 56 + 2 ^ 56 * pn + 2 ^ 63 * q.sys.toNat) ++ regs.flatMap fun v => leBytes 8 v.toNat)
      else s1
    let s3 := s2.modThread e.g.gid q.thr fun x =>
      { x with hsp := BitVec.ofNat 64 fr.parent, eff := BitVec.ofNat 64 q.eff, earg := q.arg, etok := tok, pc := h, stall := .none,
               lser := if x.lser = .waiting then .none else x.lser, relist := none,
               toks := ⟨tok, q.eff, x.relist.filter fun r => r.2 == q.pc⟩ :: x.toks.filter fun k => k.word.toNat % 2 ^ 48 != f }
    let s4 := s3.modGang e.g.gid fun g => (g.quitReinj [q.thr]).touch s.cycle (if fr.multi then g.rodsOf savedRegs else [])
    if fr.window then
      (s4.overwrite e.g.gid [q.thr] [240, 241, 242] fun _ => true).modGang e.g.gid fun g =>
        (((g.writeReg 240 q.thr q.arg).writeReg 241 q.thr tok).writeReg 242 q.thr (BitVec.ofNat 64 q.eff)).touch s.cycle (g.rodsOf [240, 241, 242])
    else s4

/-- What performing in some threads gives. -/
inductive Performed where
  /-- The state, the threads that entered handlers, and those that found no frame. -/
  | ok (s : State) (entered unhandled : List Nat)
  /-- A check failed: cause, SUB and the failing threads; nothing has changed (R184). -/
  | bad (cause sub : Nat) (fails : List Fail)
  | wait
  | noRod (need : Nat)
  deriving DecidableEq, Repr

/-- What the searches and saves of performers leave: reads noted, and the rods regenerated for the saves, or materialised before some rods are
written (R223, R252). -/
def State.noteEnters (s : State) (e : Env) (id : Nat) (wins : List Nat) (xs : List (Nat × Enter)) : State :=
  let s1 := xs.foldl (fun s x => s.note e.g.gid x.1 id .ld x.2.wids) s
  let s2 := xs.foldl (fun s x => x.2.path.foldl (fun s f => s.noteVa e x.1 id f 32) s) s1
  s2.regens (e.g.regenSet (xs.flatMap (·.2.rods) ++ e.g.toMaterialise wins))

/-- Perform(eff, arg) in some threads (R184): every search and check first, then the frames in ascending thread order. -/
def State.perform (s : State) (gid : Nat) (qs : List Req) : Performed :=
  match s.env? gid with
  | none => .ok s [] []
  | some e =>
    let rs := qs.map fun q => (q, s.readyPerform e q (((e.g.thread? q.thr).map (·.hsp.toNat)).getD 0))
    let boards := s.boardFails e (rs.flatMap fun x => x.2.writes x.1.thr)
    let bads := rs.filterMap fun x => match x.2 with
      | .bad c sb a ts => some (c, sb, Fail.mk x.1.thr (BitVec.ofNat 64 a) ts)
      | _ => (alGet boards x.1.thr).map fun a => (cACCESS, 0, Fail.mk x.1.thr (BitVec.ofNat 64 a) 0)
    match bads with
    | (c, sb, _) :: _ => .bad c sb ((bads.filter fun x => x.1 == c).map (·.2.2))
    | [] =>
      if rs.any fun x => match x.2 with | .wait => true | _ => false then .wait
      else
        let enters := rs.filterMap fun x => match x.2 with | .ok y => some (x.1, y) | _ => none
        let wins := if enters.any (·.2.fr.window) then e.g.rodsOf [240, 241, 242] else []
        match beforeWrite s e wins with
        | .wait => .wait
        | .noRod need => .noRod need
        | .fault fs => .bad cREGEN ((fs.head?.map fun f => bits f.tslice.toNat 59 56).getD 0) fs
        | .ok s0 =>
          let id := s0.nextId
          let mates := qs.map (·.thr)
          let s1 := State.noteEnters { s0 with nextId := id + 1, free := s0.free + 1 } e id wins (enters.map fun x => (x.1.thr, x.2))
          let s2 := enters.foldl (fun s x => s.enterHandler e id x.1 mates x.2.f x.2.hpc x.2.regs) s1
          let s3 := enters.foldl (fun s x => s.trace e.l 3 (engineWord e.b.die 0 e.b.core) (s.wall e.b.die) x.1.eff) s2
          .ok s3 (enters.map (·.1.thr)) (rs.filterMap fun x => match x.2 with | .none => some x.1.thr | _ => none)

/-- The trap of threads that found no frame: %taddr is the effect number, and it stands at the performing instruction (R288). -/
def State.trapUnhandled (s : State) (gid : Nat) (ts : List (Nat × Nat)) (pc : Nat) : State :=
  if ts.isEmpty then s
  else s.deliver gid cUNHANDLED 0 (ts.map fun x => ⟨x.1, BitVec.ofNat 64 x.2, 0⟩) [] fun _ => pc

/-- The same trap, of an instruction that may be a re-injected entry: the queue then holds it and the entries after it (R116). -/
def State.trapLost (s : State) (gid : Nat) (cap : Option RqEntry) (ts : List (Nat × Nat)) (pc : Nat) : State :=
  match cap with
  | none => s.trapUnhandled gid ts pc
  | some q =>
    if ts.isEmpty then s
    else s.deliverAgain gid cUNHANDLED 0 (ts.map fun x => ⟨x.1, BitVec.ofNat 64 x.2, 0⟩)
      ({ q with faulted := true, mask := ts.map (·.1) } :: (((s.gang? gid).bind (·.reinj)).map (·.entries)).getD [])

/-- An instruction that performs in its participating threads: PERFORM and BRK (R115, R184, R281). -/
def performExec (i : Instr) (s : State) (after : Prep → State → State) (req : Prep → Nat → Req) : Host.Outcome State Fault Refusal :=
  withPrep i s fun p =>
    match p.s.perform p.e.g.gid (p.parts.map (req p)) with
    | .wait => p.s0.stallAt p.s.cur.mask .held
    | .noRod need => p.s0.awaitRod need
    | .bad c sb fs => if standsAtTepc c then p.s0.trapAt c sb fs else p.s0.trapQueue i c sb fs p.parts p.ops
    | .ok s1 entered lost =>
      let s2 := s1.settleIssue i p.parts
      let s3 := if s.cur.cap.isSome then s2
        else s2.modGang p.e.g.gid fun g => g.advance (s.cur.mask.filter fun t => t ∉ p.parts) s.cur.next
      let s4 := s3.jump p.e.g.gid (entered.filterMap fun t => (s3.thread? p.e.g.gid t).map fun x => (t, x.pc))
      (after p s4).trapLost p.e.g.gid s.cur.cap (lost.map fun t => (t, (req p t).eff)) s.cur.pc

/-- R181, R184: PERFORM. System effect numbers are not for programs: PRIV in the L form. -/
def execPerform (g : Guard) (d : Reg) (eff : Opnd) (a : Reg) (s : State) : Host.Outcome State Fault Refusal :=
  let i := Instr.perform g d eff a
  match prepare i s with
  | .error s' => .next s'
  | .ok p =>
    match p.check i fun t => if 0xFF00 ≤ bits (p.b t).toNat 15 0 then some (cPRIV, 0) else none with
    | some s' => .next s'
    | none => performExec i s (fun _ s => s) fun p t => ⟨t, bits (p.b t).toNat 15 0, p.a t, p.s.cur.pc, false⟩

/-- A stop of the launch's queue is requested (R389): in a launch whose effective PERM has DEBUG set. -/
def brkStop (p : Prep) (s : State) : State :=
  if p.parts.isEmpty ∨ p.e.l.rcb.perm % 2 = 0 then s
  else { s with queues := s.queues.map fun q => if q.kick = p.e.l.kick then { q with stopped := true } else q }

/-- R115, R389: BRK performs DEBUG, then may request a stop. -/
def execBrk (g : Guard) (code : BitVec 14) (s : State) : Host.Outcome State Fault Refusal :=
  performExec (.brk g code) s brkStop fun p t => ⟨t, 0xFF05, code.setWidth 64, p.s.cur.pc, false⟩

/-! ### HPUSH and HPOP (R182) -/

/-- Checks of HPUSH in the order of R150: alignment, translation, access. -/
def hpushCheck (p : Prep) (multi : Bool) (hpc xpc t : Nat) : Option (Nat × Nat) :=
  let f := (p.a t).toNat
  let sv := (p.c t).toNat
  let range (n : Need) (ea len : Nat) : Option (Nat × Nat) :=
    match accessRange p.e.c (some p.e.b) n ea len with | .error x => some x | .ok _ => none
  let r1 := range frameNeed f 32
  let r2 := if multi then range frameNeed sv 1928 else none
  let tr (r : Option (Nat × Nat)) : Option (Nat × Nat) := r.filter fun x => x.1 == cTRANSLATION
  if f % 32 ≠ 0 then some (cALIGN, f)
  else if multi ∧ sv % 64 ≠ 0 then some (cALIGN, sv)
  else (tr r1).or ((tr r2).or
    (if 2 ^ 48 ≤ f then some (cACCESS, f)
     else if 2 ^ 48 ≤ hpc then some (cACCESS, hpc)
     else if 2 ^ 48 ≤ xpc then some (cACCESS, xpc)
     else if multi ∧ 2 ^ 48 ≤ sv then some (cACCESS, sv)
     else r1.or r2))

/-- The ACCESS of a thread whose write finds no line of the board (R349). -/
def Prep.boardFail (p : Prep) (ws : List (Nat × Nat × Nat)) (t : Nat) : Option (Nat × Nat) :=
  (alGet (p.s.boardFails p.e ws) t).map fun a => (cACCESS, a)

/-- R182: HPUSH. DEDUCED, log entry 30. -/
def execHpush (g : Guard) (multi window : Bool) (a d c : Reg) (exitOff : BitVec 14) (handlerOff : W32) (s : State) :
    Host.Outcome State Fault Refusal :=
  let i := Instr.hpush g multi window a d c exitOff handlerOff
  withPrep i s fun p =>
    let hpc := (BitVec.ofNat 64 p.s.cur.pc + handlerOff.signExtend 64).toNat
    let xpc := (BitVec.ofNat 64 p.s.cur.pc + exitOff.signExtend 64 * 4).toNat
    match p.check i fun t => (hpushCheck p multi hpc xpc t).or (p.boardFail (p.parts.map fun t => (t, (p.a t).toNat, 32)) t) with
    | some s' => s'
    | none =>
      if p.parts.any fun t => !p.s.mayTouch p.e t (p.a t).toNat 32 then p.s0.stallAt p.s.cur.mask .held
      else
        let id := p.s.nextId
        let one (s : State) (t : Nat) : State :=
          let f := (p.a t).toNat
          let x := (s.thread? p.e.g.gid t).map (·.hsp.toNat) |>.getD 0
          let gen := match s.frameAt p.e t f with | .ok fr => nextGen fr.gen | .error _ => 1
          let m := (p.d t).toNat
          let fr : Frame := ⟨gen, x, 0, bits m 15 0, hpc, bits m 31 16, xpc, idleSt, false, multi, window, if multi then (p.c t).toNat else 0⟩
          ((s.noteVa p.e t id f 32).putFrame p.e t id f fr).modThread p.e.g.gid t fun x => { x with hsp := BitVec.ofNat 64 f }
        (p.parts.foldl one { p.s with nextId := id + 1 }).complete i p.parts

/-- R182, R282: HPOP pops the top frame, which is not HANDLING, and kills its tokens. -/
def execHpop (g : Guard) (a : Reg) (s : State) : Host.Outcome State Fault Refusal :=
  let i := Instr.hpop g a
  withPrep i s fun p =>
    let hsp (t : Nat) : Word := ((p.e.g.thread? t).map (·.hsp)).getD 0
    match p.check i fun t =>
      if p.a t ≠ hsp t then some (cACCESS, (p.a t).toNat)
      else match p.s.frameAt p.e t (p.a t).toNat with
        | .error x => some x.pair
        | .ok fr => if fr.st = handlingSt then some (cACCESS, (p.a t).toNat) else p.boardFail (p.parts.map fun t => (t, (p.a t).toNat, 32)) t with
    | some s' => s'
    | none =>
      if p.parts.any fun t => !p.s.mayTouch p.e t (p.a t).toNat 32 then p.s0.stallAt p.s.cur.mask .held
      else
        let id := p.s.nextId
        let one (s : State) (t : Nat) : State :=
          let f := (p.a t).toNat
          match s.frameAt p.e t f with
          | .error _ => s
          | .ok fr =>
            ((s.noteVa p.e t id f 32).putFrame p.e t id f { fr with gen := nextGen fr.gen, st := idleSt, sys := false }).modThread p.e.g.gid t fun x =>
              { x with hsp := BitVec.ofNat 64 fr.parent }
        (p.parts.foldl one { p.s with nextId := id + 1 }).complete i p.parts

/-! ### Tokens (R180, R282) -/

/-- A token's frame address. -/
def tokFrame (w : Word) : Nat := bits w.toNat 47 4 * 16

/-- Another thread of the context made this token, as far as that is known: an exited one too, whose tokens are dead (R109). -/
def State.foreignToken (s : State) (e : Env) (t : Nat) (w : Word) : Bool :=
  s.gangs.any fun g => s.ctxNum g == e.c.num &&
    g.threads.any fun x => !(g.gid == e.g.gid && x.thr == t) && x.toks.any fun k => k.word == w

/-- A thread's own PERFORM made this token (R180, R284). A thread that came with an image made the token in its %etok; an earlier one, which the
image does not name and no thread is known to have made, is of one thread, and of which is open (R289). DEDUCED, log entry 49. -/
def State.ownToken (s : State) (e : Env) (t : Nat) (w : Word) : Bool :=
  ((e.g.thread? t).map fun x => (x.toks.any fun k => k.word == w) ||
    (x.restored && !s.foreignToken e t w && (Config.freeWord (2 ^ 200 + w.toNat)).toNat == 32 * e.g.gid + t)).getD false

/-- The frame of a token whose use is allowed by `okSt`, or the failing check (R180, R285). -/
def State.tokenFrame (s : State) (e : Env) (t : Nat) (w : Word) (okSt : Frame → Bool) : Except FetchErr Frame :=
  let f := tokFrame w
  if w.toNat % 32 ≠ 0 ∨ !s.ownToken e t w then .error ⟨cSTALE, 0, f⟩
  else match s.frameAt e t f with
    | .error x => .error x
    | .ok fr => if fr.gen = bits w.toNat 63 48 ∧ okSt fr then .ok fr else .error ⟨cSTALE, 0, f⟩

/-- A continuation: PC, predicates, SYS (R183). -/
structure Cont where
  pc : Nat
  preds : Nat
  sys : Bool
  regs : List Word
  deriving DecidableEq, Repr

/-- Bytes of a save area that RESUME and RESUMEM read (R183, R185). -/
def savedLen (m : Bool) : Nat := if m then 1928 else 8

/-- Read the continuation of a frame; RESUMEM reads g0 to g239 as well. -/
def State.contOf (s : State) (e : Env) (t : Nat) (m : Bool) (fr : Frame) : Except FetchErr Cont :=
  if fr.multi then
    match s.readVa e t frameNeed fr.save (savedLen m) with
    | .error x => .error x
    | .ok bs =>
      let v := rbVals bs
      let w := fieldAt v 0 8
      .ok ⟨bits w 55 0, bits w 62 56, bits w 63 63 = 1,
        if m then (List.range 240).map fun k => BitVec.ofNat 64 (fieldAt v (8 + 8 * k) 8) else []⟩
  else .ok ⟨fr.save / 4 * 4, fr.save % 4 + 4 * fr.cp2, fr.sys, []⟩

/-- Where a resumed thread goes, and the result register of the PERFORM it resumes (R185): the continuation PC is redirected first
(R289), then the next instruction is taken. -/
def resumePoint (s : State) (e : Env) (t : Nat) (k : Cont) : Except FetchErr (Nat × Option Reg) :=
  let us := (e.place t).units
  match checkTarget s e.c us false k.pc with
  | .error x => .error x
  | .ok pc =>
    if k.sys then .ok (pc, none)
    else match fetch s e.c us e.g.gid pc with
      | .error x => .error x
      | .ok f => match f.instr with
        | some (.perform _ d _ _) => .ok (f.next, some d)
        | _ => .ok (f.next, none)

/-- What RESUME or RESUMEM of one thread needs. -/
structure Resume where
  fr : Frame
  k : Cont
  pc : Nat
  dst : Option Reg
  deriving DecidableEq, Repr

def State.readyResume (s : State) (e : Env) (t : Nat) (w : Word) (m : Bool) : Except FetchErr Resume :=
  match s.tokenFrame e t w (fun fr => if m then fr.multi && (fr.st == handlingSt || fr.st == resumedSt) else fr.st == handlingSt) with
  | .error x => .error x
  | .ok fr => match s.contOf e t m fr with
    | .error x => .error x
    | .ok k => match resumePoint s e t k with
      | .error x => .error x
      | .ok (pc, d) => .ok ⟨fr, k, pc, d⟩

/-- Does a CAPPEND stand at a PC? -/
def cappendAt (s : State) (e : Env) (t pc : Nat) : Bool :=
  match fetch s e.c (e.place t).units e.g.gid pc with
  | .ok f => match f.instr with
    | some (.cappend ..) => true
    | _ => false
  | .error _ => false

/-- The list address that is due where a resumed thread goes on: the value, where the token is of LISTFULL, else what was due when the token
was made (R286). Of an earlier token than %etok, which an image brought, it is open whether a SYS continuation at a CAPPEND is of LISTFULL.
DEDUCED, log entry 64. -/
def relistOf (s : State) (e : Env) (x : Thread) (w v : Word) (sys : Bool) (pc : Nat) : Option (Word × Nat) :=
  match x.toks.find? fun k => k.word == w with
  | some k => if sys ∧ k.eff = 0xFF03 then some (v, pc) else k.relist.map fun r => (r.1, pc)
  | none => if sys ∧ cappendAt s e x.thr pc ∧ (s.freeAt [x.thr]).getLsbD 0 then some (v, pc) else none

/-- Resume one thread (R185). -/
def resumeOne (p : Prep) (m : Bool) (id : Nat) (s : State) (t : Nat) : State :=
  match p.s.readyResume p.e t (p.a t) m, s.thread? p.e.g.gid t with
  | .ok r, some x =>
    let f := tokFrame (p.a t)
    let handling := r.fr.st == handlingSt
    let fr1 := { r.fr with parent := if handling then x.hsp.toNat else r.fr.parent, st := if r.fr.multi then resumedSt else idleSt }
    let fr2 := if r.fr.multi then fr1 else { fr1 with save := 0, cp2 := 0, sys := false }
    let s0 := if r.fr.multi then s.noteVa p.e t id r.fr.save (savedLen m) else s
    let s1 := (s0.noteVa p.e t id f 32).putFrame p.e t id f fr2
    let dests := (if m then savedRegs else []) ++ r.dst.toList
    let s2 := (s1.overwrite p.e.g.gid [t] dests fun _ => true).modThread p.e.g.gid t fun x =>
      { x with hsp := BitVec.ofNat 64 (if handling then r.fr.parent else f), preds := BitVec.ofNat 7 r.k.preds, pc := r.pc,
               relist := relistOf p.s p.e x (p.a t) (p.b t) r.k.sys r.pc }
    s2.modGang p.e.g.gid fun g0 =>
      let g := g0.touch s.cycle (g0.rodsOf dests)
      let g1 := if m then (r.k.regs.zip (List.range 240)).foldl (fun g v => g.writeReg (BitVec.ofNat 8 v.2) t v.1) g else g
      match r.dst with
      | some d => g1.writeReg d t (p.b t)
      | none => g1
  | _, _ => s

/-- The registers that a resumption writes. -/
def resumeDests (p : Prep) (m : Bool) : List Reg :=
  ((if m ∧ !p.parts.isEmpty then savedRegs else []) ++
    p.parts.filterMap fun t => match p.s.readyResume p.e t (p.a t) m with | .ok r => r.dst | .error _ => none).dedup

def resumeExec (i : Instr) (m : Bool) (s : State) : Host.Outcome State Fault Refusal :=
  withPrep i s fun p =>
    let gid := p.e.g.gid
    match p.check i fun t => match p.s.readyResume p.e t (p.a t) m with
      | .error x => some x.pair
      | .ok _ => p.boardFail (p.parts.map fun t => (t, tokFrame (p.a t), 32)) t with
    | some s' => s'
    | none =>
      let busy (t : Nat) : Bool := !p.s.mayTouch p.e t (tokFrame (p.a t)) 32 ||
        (match p.s.readyResume p.e t (p.a t) m with
         | .ok r => r.fr.multi && !p.s.mayTouch p.e t r.fr.save (savedLen m)
         | .error _ => false)
      if p.parts.any busy then p.s0.stallAt p.s.cur.mask .held
      else match beforeWrite p.s p.e (p.e.g.rodsOf (resumeDests p m)) with
        | .wait => p.s0.stallAt p.s.cur.mask .held
        | .noRod need => p.s0.awaitRod need
        | .fault fs => p.s0.trapQueue i cREGEN ((fs.head?.map fun f => bits f.tslice.toNat 59 56).getD 0) fs p.parts p.ops
        | .ok s0 =>
          let id := s0.nextId
          let made := p.e.g.regenSet (p.e.g.toMaterialise (p.e.g.rodsOf (resumeDests p m)))
          let s1 := p.parts.foldl (resumeOne p m id) (State.regens { s0 with nextId := id + 1, free := s0.free + 1 } made)
          let pcs := p.parts.filterMap fun t => (s1.thread? gid t).map fun x => (t, x.pc)
          (s1.complete i p.parts).jump gid pcs

/-- R185: RESUME. -/
def execResume (g : Guard) (a : Reg) (b : Opnd) (s : State) : Host.Outcome State Fault Refusal := resumeExec (.resume g a b) false s

/-- R185: RESUMEM restores g0 to g239 as well. -/
def execResumem (g : Guard) (a : Reg) (b : Opnd) (s : State) : Host.Outcome State Fault Refusal := resumeExec (.resumem g a b) true s

/-- R186: DROP abandons a continuation. DEDUCED, log entry 33. -/
def execDrop (g : Guard) (a : Reg) (s : State) : Host.Outcome State Fault Refusal :=
  let i := Instr.drop g a
  withPrep i s fun p =>
    let gid := p.e.g.gid
    let ready (t : Nat) : Except FetchErr (Frame × Option Nat) :=
      match p.s.tokenFrame p.e t (p.a t) (fun fr => fr.st == handlingSt || (fr.st == resumedSt && fr.multi)) with
      | .error x => .error x
      | .ok fr =>
        if fr.st = handlingSt then
          match checkTarget p.s p.e.c (p.e.place t).units true fr.xpc with
          | .error x => .error x
          | .ok pc => .ok (fr, some pc)
        else .ok (fr, none)
    match p.check i fun t => match ready t with
      | .error x => some x.pair
      | .ok _ => p.boardFail (p.parts.map fun t => (t, tokFrame (p.a t), 32)) t with
    | some s' => s'
    | none =>
      if p.parts.any fun t => !p.s.mayTouch p.e t (tokFrame (p.a t)) 32 then p.s0.stallAt p.s.cur.mask .held
      else
        let id := p.s.nextId
        let one (s : State) (t : Nat) : State :=
          match ready t, s.thread? gid t with
          | .ok (fr, some _), some x =>
            let f := tokFrame (p.a t)
            let fr1 := { fr with parent := x.hsp.toNat, st := idleSt, sys := false }
            let fr2 := if fr.multi then fr1 else { fr1 with save := 0, cp2 := 0 }
            ((s.noteVa p.e t id f 32).putFrame p.e t id f fr2).modThread gid t fun x => { x with hsp := BitVec.ofNat 64 f, relist := none }
          | .ok (fr, none), _ =>
            (s.noteVa p.e t id (tokFrame (p.a t)) 32).putFrame p.e t id (tokFrame (p.a t))
              { fr with gen := nextGen fr.gen, st := idleSt, sys := false }
          | .error _, _ => s
          | _, none => s
        let s1 := p.parts.foldl one { p.s with nextId := id + 1 }
        let pcs := p.parts.filterMap fun t => match ready t with | .ok (_, some pc) => some (t, pc) | _ => none
        (s1.complete i p.parts).jump gid pcs

/-- R186: TOKST reports a token's state. -/
def execTokst (g : Guard) (d a : Reg) (s : State) : Host.Outcome State Fault Refusal :=
  let i := Instr.tokst g d a
  withPrep i s fun p =>
    let look (t : Nat) : Except FetchErr Nat :=
      let w := p.a t
      if w.toNat % 32 ≠ 0 then .ok 0
      else match p.s.frameAt p.e t (tokFrame w) with
        | .error x => .error x
        | .ok fr =>
          if fr.gen ≠ bits w.toNat 63 48 ∨ !p.s.ownToken p.e t w then .ok 0
          else if fr.st = handlingSt then .ok (if fr.multi then 2 else 1)
          else if fr.st = resumedSt ∧ fr.multi then .ok 3 else .ok 0
    match p.check i fun t => match look t with | .error x => some x.pair | .ok _ => none with
    | some s' => s'
    | none =>
      if p.parts.any fun t => !p.s.mayRead p.e t (tokFrame (p.a t)) 32 then p.s0.stallAt p.s.cur.mask .held
      else
        let id := p.s.nextId
        let s1 := p.parts.foldl (fun s t => s.noteVa p.e t id (tokFrame (p.a t)) 32) { p.s with nextId := id + 1 }
        State.complete (s1.modGang p.e.g.gid fun g =>
          p.parts.foldl (fun g t => match look t with | .ok v => g.writeReg d t (BitVec.ofNat 64 v) | .error _ => g) g) i p.parts

/-! ### System effects of operations and of the timer (R286, R287) -/

/-- The replay queue of a trap that a held operation takes for some of its threads, and the %tepc of a queue cause: the second of a pair
stands in the queue too; PARTIAL, where the instruction has taken effect for threads outside (R47, R373). -/
def Hold.queue (h : Hold) (thrs : List Nat) : List RqEntry × Nat :=
  ({ h.entry with partialDone := h.entry.mask.any (· ∉ thrs) } :: (h.second.map (·.1)).toList, (h.second.map (·.2)).getD h.next)

/-- A held operation is over for some of its threads; the others are still held. -/
def State.dropFor (s : State) (o : Op) (thrs : List Nat) : State :=
  if o.thrs.all (· ∈ thrs) then s.dropOp o.id else s.modOp o.id fun o => { o with thrs := o.thrs.filter (· ∉ thrs) }

/-- A trap of some threads of a held operation: at the instruction, or with its queue; of a re-injected entry as that entry's (R116). -/
def State.trapHeld (s : State) (gid cause sub : Nat) (fails : List Fail) (h : Option Hold) (pc : Nat) : State :=
  let ts := fails.map (·.thr)
  match h with
  | none => s.deliver gid cause sub fails [] fun _ => pc
  | some h =>
    if h.again then s.deliverAgain gid cause sub fails
      ({ h.entry with mask := ts, partialDone := h.entry.mask.any (· ∉ ts) } :: (((s.gang? gid).bind (·.reinj)).map (·.entries)).getD [])
    else if standsAtTepc cause then s.deliver gid cause sub fails [] fun _ => pc
    else s.deliver gid cause sub fails (h.queue ts).1 fun _ => (h.queue ts).2

/-- The threads of a held operation perform a system effect; the operation is over. A thread without a frame traps UNHANDLED_EFFECT at
the instruction; a failing check of a frame traps as the instruction does (R158, R286, R288). What its gang did under speculation is
squashed first (R215). Answers none while it must wait. -/
def State.systemEffect (s : State) (o : Op) (eff : Nat) (arg : Word) : Option State :=
  let gid := o.place.gid
  let sq := s.squash gid
  match ({ sq.dropOp o.id with cur := { s.cur with regens := [] } } : State).perform gid (o.thrs.map fun t => ⟨t, eff, arg, o.pc, true⟩) with
  | .wait => none
  | .noRod _ => some (sq.toPending gid)
  | .ok s1 _ lost =>
    let s2 := s1.countRegens gid
    some (if lost.isEmpty then s2 else s2.trapHeld gid cUNHANDLED 0 (lost.map fun t => ⟨t, BitVec.ofNat 64 eff, 0⟩) o.hold o.pc)
  | .bad c sb fs => some ((sq.dropFor o (fs.map (·.thr))).trapHeld gid c sb fs o.hold o.pc)

/-- A gang whose domain is being removed, or that has stopped, takes no further step (R375, R384). -/
def State.halted (s : State) (g : Gang) : Bool :=
  g.stopped || (s.env? g.gid).any fun e => s.removing e.c.num e.rcb.fdom

/-- R81: GANG_TIMER_FIRE: the deadline is reached; %tmr becomes 0 and every thread has TIMER to perform. -/
def execGangTimerFire (gid : Nat) (s : State) : Host.Outcome State Fault Refusal :=
  .next (match s.gang? gid with
    | none => s
    | some g =>
      match s.blockOf g with
      | some b =>
        if g.tmr ≠ 0 ∧ g.tmr.toNat ≤ s.wall b.die ∧ !s.halted g then
          (s.squash gid).modGang gid fun g =>
            { g with tmr := 0, threads := g.threads.map fun x => if x.exited then x else { x with timers := x.timers ++ [g.tmr.toNat] } }
        else s
      | none => s)

/-- The oldest expiry has been performed, or discarded. -/
def Thread.popTimer (x : Thread) : Thread := { x with timers := x.timers.tail }

/-- TIMER of one thread whose gang is not under speculation; a failing check of a frame leaves it due (R287). -/
def State.timerStep (s : State) (g : Gang) (x : Thread) (deadline : Nat) : State :=
  let held := s.ops.any fun o => o.place.gid == g.gid && o.hold.isSome && x.thr ∈ o.thrs
  if x.exited then s.modThread g.gid x.thr fun x => { x with timers := [] }
  else if g.trap.isSome ∨ g.reinj.isSome ∨ held ∨ s.halted g then s
  else
    let s0 : State := { s.modThread g.gid x.thr Thread.popTimer with cur := { s.cur with regens := [] } }
    match s0.perform g.gid [⟨x.thr, 0xFF04, BitVec.ofNat 64 deadline, x.pc, true⟩] with
    | .wait => s
    | .noRod _ => s.toPending g.gid
    | .ok s1 entered _ =>
      let s2 := s1.countRegens g.gid
      if entered.isEmpty then s2 else s2.modThread g.gid x.thr fun x => { x with wtime := none, bwait := none }
    | .bad c sb fs => s.deliver g.gid c sb fs [] fun _ => x.pc

/-- R287: TIMER: a thread performs TIMER at its instruction boundary; without a frame it is discarded. A held thread, and a gang in
trap mode, wait. -/
def execTimer (gid thr : Nat) (s : State) : Host.Outcome State Fault Refusal :=
  .next (match ((s.thread? gid thr).map (·.timers)).getD [] with
    | [] => s
    | deadline :: _ =>
      let s1 := s.squash gid
      match s1.gang? gid with
      | none => s1
      | some g => match g.thread? thr with
        | none => s1
        | some x => s1.timerStep g x deadline)

end Sys2Proof.Machine
end

