-- ==== Sys2Proof/Machine/Keep.lean ====
section
/-! DEFINITION. Instructions on sibling-keeping memory: LDK, STK, LDSIB, RCN (R155 to R161), and the Home step of every access to a KEEP
page (R165, R255). -/

namespace Sys2Proof.Machine
open Host

/-! ### LDK, STK, LDSIB, RCN (R156, R157, R160, R161) -/

/-- A thread's KEEP store would need a 4,097th line, after those of the lower threads of the instruction (R349). Log entry 60. -/
def boardFull (p : Prep) (ea : Nat → Nat) (t loc : Nat) : Bool :=
  let low := (p.parts.filter (· < t)).filterMap fun u => match access p.e.c (some p.e.b) {} (ea u) with
    | .ok r => some (r.loc / 64)
    | .error _ => none
  let held := (p.s.boardLines p.e.b.bid ++ low).dedup
  Config.boardLines ≤ held.length && loc / 64 ∉ held

/-- The checks of an instruction that names a cell: alignment, translation, permission and KEEP, then the token or ATOM_DET. -/
def cellCheck (p : Prep) (need : Need) (ea : Nat → Nat) (tok : Option (Nat → Word)) (atomic : Bool) (t : Nat) : Option (Nat × Nat) :=
  let a := ea t
  if a % 32 ≠ 0 then some (cALIGN, a)
  else match access p.e.c (some p.e.b) { need with keep := true } a with
    | .error c => some (c, a)
    | .ok r =>
      if p.s.cells.any fun k => k.slot == r.loc && k.unreadable then some (cMEMUE, a)
      else if need.w && p.e.l.det && !atomic && boardFull p ea t r.loc then some (cACCESS, a)
      else match tok with
        | some w => if bits (w t).toNat 63 48 ≠ hash16 a then some (cKEEPTOKEN, a) else none
        | none => if atomic ∧ p.e.l.det then some (cATOMDET, a) else none

/-- What the address of a cell names, once it has been checked. -/
def cellAt (p : Prep) (ea : Nat) : Resolved :=
  match access p.e.c (some p.e.b) {} ea with
  | .ok r => r
  | .error _ => .scratch 0

/-- Post a Home operation for each participating thread. -/
def cellExec (i : Instr) (s : State) (need : Need) (m : Addr) (tok : Prep → Option (Nat → Word)) (atomic : Bool) (cls cnt : Cls) (hold : Bool)
    (kind : Prep → Nat → Resolved → Word → OpKind) : Host.Outcome State Fault Refusal :=
  withPrep i s fun p =>
    match p.check i (cellCheck p need (p.ea m) (tok p) atomic) with
    | some s' => s'
    | none =>
      let full := p.fullFor cnt
      let go := p.parts.filter (· ∉ full)
      let one (s : State) (t : Nat) : State :=
        let r := cellAt p (p.ea m t)
        s.post p.e [t] cls (some cnt) (kind p t r (BitVec.ofNat 64 (p.ea m t))) r.pageAt (if hold && !p.e.l.det then p.holdEntry i else none)
      (go.foldl one p.s).completePart i p.parts full .short

/-- R156: LDK reads the oldest sibling and a token. -/
def execLdk (g : Guard) (d : Reg) (addr : Addr) (s : State) : Host.Outcome State Fault Refusal :=
  cellExec (.ldk g d addr) s { r := true } addr (fun _ => none) false .ld .ld false fun _ _ r ea => .ldk r.loc d ea

/-- R157, R158: STK checks its token and is held until the home accepts or refuses it. -/
def execStk (g : Guard) (d : Reg) (addr : Addr) (c : Reg) (s : State) : Host.Outcome State Fault Refusal :=
  cellExec (.stk g d addr c) s { w := true } addr (fun p => some p.c) false .st .st true
    fun p t r ea => .keepStore r.loc (bits (p.c t).toNat 31 0) (p.d t) false ea r.policy.1 r.policy.2

/-- R160: LDSIB reads a snapshot of siblings. -/
def execLdsib (g : Guard) (n : BitVec 3) (d : Reg) (addr : Addr) (s : State) : Host.Outcome State Fault Refusal :=
  cellExec (.ldsib g n d addr) s { r := true } addr (fun _ => none) false .ld .ld false fun _ _ r ea => .ldsib r.loc (n.toNat + 1) d ea

/-- R161: RCN folds the siblings; held, since a refusal executes it again (R278, R286). Log entry 18. -/
def execRcn (g : Guard) (op : RcnOp) (ty : Ty) (d : Reg) (addr : Addr) (s : State) : Host.Outcome State Fault Refusal :=
  cellExec (.rcn g op ty d addr) s { r := true, w := true } addr (fun _ => none) true .atom .ld true fun _ _ r ea => .rcn r.loc op ty d ea

/-! ### The Home step (R255) -/

/-- %earg of SIBFULL and SIBPRES (R158). -/
def sibArg (sub : Nat) (ea : Word) : Word := BitVec.ofNat 64 (ea.toNat % 2 ^ 56 + 2 ^ 56 * sub)

/-- A store at its home: accepted, folded, or refused with SIBFULL (R157, R158); OVF and MERGE are those of the page that it was issued
through (R311, R312). -/
def State.homeStore (s : State) (e : Env) (o : Op) (slot gen : Nat) (val : Word) (ea : Word) (ovf : Bool) (mop : RcnOp) : State :=
  let k := s.cell slot
  let rg := (e.c.num, e.l.region)
  let actor := e.actor o.place.thr
  match refusal s.cells k gen (e.c.quotaFull s.cells e.l.region) true with
  | none => (s.dropOp o.id).changeCell (some o.launch) (k.accept gen val actor (some rg))
  | some r =>
    if r ≠ subGEN ∧ ovf then
      (s.dropOp o.id).changeCell (some o.launch) (k.merge gen val actor (some rg) mop)
    else (s.systemEffect o 0xFF01 (sibArg r ea)).getD s

/-- RCN at its home (R161). -/
def State.homeRcn (s : State) (e : Env) (o : Op) (slot : Nat) (op : RcnOp) (ty : Ty) (d : Reg) (ea : Word) : State :=
  let k := s.cell slot
  let t := o.place.thr
  let give (s : State) (k : KeepCell) (v : Word) (bad : Bool) : State :=
    (s.dropOp o.id).deliverRegs o t [(d, v, if bad then some (1, ea) else none), (d + 1, k.token ea.toNat, none)]
  if k.sibs.length ≤ 1 then give s k k.head.val k.head.poison
  else if k.gen = maxGen then (s.systemEffect o 0xFF01 (sibArg subGEN ea)).getD s
  else
    let v := foldSibs op ty k.sibs
    let bad := k.sibs.any (·.poison)
    let k1 : KeepCell := { k with gen := k.gen + 1, sibs := [⟨v, k.gen + 1, e.actor t, none, bad⟩], mrg := false, ue := k.ue && bad }
    give (s.changeCell (some o.launch) k1) k1 v bad

/-- An atomic at its home (R165): on one sibling it acts; with more, SIBPRES; with an exhausted generation, SIBFULL. -/
def State.homeAtomic (s : State) (e : Env) (o : Op) (slot : Nat) (d : Option Reg) (ty : Ty) (ea : Word) (keeps : Bool)
    (f : Nat → Nat × List (Nat × Nat)) : State :=
  let k := s.cell slot
  if 1 < k.sibs.length then (s.systemEffect o 0xFF02 (sibArg 0 ea)).getD s
  else if k.gen = maxGen then (s.systemEffect o 0xFF01 (sibArg subGEN ea)).getD s
  else
    let (new, rs) := f k.head.val.toNat
    let bad := k.head.poison
    let k1 : KeepCell := { k with gen := k.gen + 1, mrg := false, ue := k.ue && bad && keeps,
                                  sibs := [⟨BitVec.ofNat 64 new, k.gen + 1, e.actor o.place.thr, none, bad && keeps⟩] }
    atomRegs o ty d ea 1 bad ((s.dropOp o.id).changeCell (some o.launch) k1) rs

/-- LDSIB's beads (R160). -/
def sibRegs (k : KeepCell) (n : Nat) (d : Reg) (ea : Word) : List (Reg × Word × Option (Nat × Word)) :=
  (d, k.token ea.toNat, none) :: (List.range n).flatMap fun i =>
    let r1 := d + BitVec.ofNat 8 (1 + 2 * i)
    match k.sibs[i]? with
    | some x => [(r1, x.val, if x.poison then some (1, ea) else none), (r1 + 1, BitVec.ofNat 64 (x.birth + 2 ^ 32 * x.actor.toNat), none)]
    | none => [(r1, 0, none), (r1 + 1, 0, none)]

/-- Results of a load of a cell that an agent outside a deterministic launch has changed: free values (R348). -/
def State.loosenRegs (s : State) : Bool → List (Reg × Word × Option (Nat × Word)) → List (Reg × Word × Option (Nat × Word)) × State
  | false, vs => (vs, s)
  | true, [] => ([], s)
  | true, v :: vs =>
    let (w, s1) := s.freeVal
    let (ws, s2) := s1.loosenRegs true vs
    ((v.1, w, v.2.2) :: ws, s2)

/-- The effective address of an operation on a KEEP page. -/
def OpKind.cellEa : OpKind → Word
  | .keepLoad _ _ _ _ _ ea | .ldk _ _ ea | .ldsib _ _ _ ea | .keepStore _ _ _ _ ea _ _ | .rcn _ _ _ _ ea | .keepAtomic _ _ _ _ _ ea
  | .keepCas _ _ _ _ ea => ea
  | _ => 0

/-- A cell whose metadata cannot be read: a held instruction traps MEM_UE, and a load's results are poisoned (R317). -/
def State.homeLost (s : State) (o : Op) : State :=
  let ea := o.kind.cellEa
  if o.hold.isSome then (s.dropOp o.id).trapHeld o.place.gid cMEMUE 1 (o.thrs.map fun t => ⟨t, ea, 0⟩) o.hold o.pc
  else (s.dropOp o.id).deliverRegs o o.place.thr (o.kind.dests.map fun d => (d, 0, some (1, ea)))

/-- The Home step of an operation on a KEEP page. -/
def State.homeKeep (s0 : State) (o : Op) : State :=
  match s0.env? o.place.gid with
  | none => s0.dropOp o.id
  | some e =>
    let s := match o.kind.range with
      | some (slot, _) => s0.markCell e slot
      | none => s0
    let t := o.place.thr
    let busy := e.g.trap.any fun m => o.thrs.any (· ∉ m.mask)
    let give (slot : Nat) (vs : List (Reg × Word × Option (Nat × Word))) : State :=
      let (ws, s1) := (s.dropOp o.id).loosenRegs (s.upsetBy e true slot) vs
      s1.deliverRegs o t ws
    if (o.kind.range.any fun r => s.cells.any fun k => k.slot == r.1 && k.unreadable) && !(e.l.det && o.cls == .st) then
      (if busy && o.hold.isSome then s else s.homeLost o)
    else match o.kind with
    | .keepLoad slot off n d sext ea =>
      let k := s.cellFor e slot
      let bs := ((k.slotBytes.zip (List.range 32)).map fun x => RByte.mk x.1 (decide (x.2 < 8) && k.head.poison) none).drop off |>.take n
      give slot (loadRegs d sext ea 1 bs)
    | .ldk slot d ea =>
      let k := s.cellFor e slot
      give slot [(d, k.head.val, if k.head.poison then some (1, ea) else none), (d + 1, k.token ea.toNat, none)]
    | .ldsib slot n d ea => give slot (sibRegs (s.cellFor e slot) n d ea)
    | .keepStore slot gen val bad ea ovf mop =>
      if e.l.det then
        (s.dropOp o.id).modBlock e.b.bid fun b => { b with staged := stage b.staged (.keep o.id (e.place t) slot gen val (e.actor t) mop bad) }
      else if busy then s else s.homeStore e o slot gen val ea ovf mop
    | .rcn slot op ty d ea => if busy then s else s.homeRcn e o slot op ty d ea
    | .keepAtomic slot aop ty d vals ea =>
      if busy then s else s.homeAtomic e o slot d ty ea (aop != .exch) fun old => aggregate aop ty old vals
    | .keepCas slot ty d vals ea => if busy then s else s.homeAtomic e o slot (some d) ty ea true fun old => casSteps ty old vals
    | _ => s

end Sys2Proof.Machine
end

