-- ==== Sys2Proof/Machine/Copies.lean ====
section
/-! DEFINITION. The copy engine (R167, R168, R239, R256): descriptors read at issue, CPY and CPYG, and the transitions of a copy. -/

namespace Sys2Proof.Machine
open Host

/-! ### Ranges resolved at issue (R303) -/

/-- A range resolved at issue: its parts with the address at which each begins, and the pages pinned. -/
structure Span where
  segs : List (Nat × Seg)
  pages : List (Nat × Nat)
  deriving DecidableEq, Repr

/-- Translate and check a range of generic addresses (R168, R303): cause and first failing address, or its parts. -/
def spanOf (e : Env) (need : Need) (ea n : Nat) : Except (Nat × Nat) Span :=
  match accessRange e.c (some e.b) need ea n with
  | .error x => .error x
  | .ok l => .ok ⟨l.map fun x => (x.1, x.2.seg (partEnd ea n x.1 - x.1)), (l.flatMap fun x => x.2.pageAt).dedup⟩

/-- A range of the block's scratchpad by offset (R147). -/
def scratchSpan (e : Env) (off n : Nat) : Except (Nat × Nat) Span :=
  if e.b.ssize < off + n then .error (cACCESS, max off e.b.ssize) else .ok ⟨[(off, ⟨scratchLoc e.b.bid off, n, false⟩)], []⟩

/-! ### The descriptor (R167) -/

structure CopyDesc where
  toGeneric : Bool
  rowb : Nat
  gaddr : Nat
  soff : Nat
  rows : Nat
  gstr : Nat
  sstr : Nat
  padded : Nat
  index : Option Nat
  deriving DecidableEq, Repr

/-- Extension fields of a structure, each with its address: id, must-understand flag, payload (R68). -/
def extFields (bs : List Byte) (at_ n : Nat) : List (Nat × Nat × Bool × Nat) :=
  (List.range n).map fun k =>
    let h := fieldAt bs (8 * k) 1
    (at_ + 8 * k, h % 128, decide (128 ≤ h), fieldAt bs (8 * k + 1) 7)

/-- The first check of a list that fails: its cause and address. -/
def firstFail : List (Bool × Nat × Nat) → Option (Nat × Nat)
  | [] => none
  | (bad, c, a) :: r => if bad then some (c, a) else firstFail r

/-- Decode a descriptor's bytes at `a` (R167): first what concerns codes (ILLEGAL), then alignment. %taddr of an ILLEGAL is 0 (R370), but for a
reserved byte, where it is the word that holds it (R3). Log entry 20. Payload bytes that the table does not assign are ignored, a field is
known by its id whatever its must-understand flag, and of several fields of one id the first counts. DESIGN CHOICE, log entry 97. -/
def copyDesc (gather : Bool) (a : Nat) (d ext : List Byte) : Except (Nat × Nat) CopyDesc :=
  let f := fieldAt d
  let dir := f 0 1
  let rowb := f 4 4
  let fs := extFields ext (a + 32) (f 1 1)
  let zpad := fs.find? fun x => x.2.1 == 2
  let index := fs.find? fun x => x.2.1 == 3
  let p := (zpad.map fun x => bits x.2.2.2 31 0).getD rowb
  let code (b : Bool) : Bool × Nat × Nat := (b, cILLEGAL, 0)
  let align (b : Bool) (off : Nat) : Bool × Nat × Nat := (b, cALIGN, a + off)
  match firstFail [code (1 < dir || 4 < f 1 1), (f 2 2 != 0, cILLEGAL, a), code (rowb < 16 || 65536 < rowb),
      code (f 20 4 == 0 || (if gather then 1024 else 65536) < f 20 4),
      code (fs.any fun x => (3 < x.2.1 && x.2.2.1) || (x.2.1 == 3 && !gather) || (x.2.1 == 2 && dir == 1)), code (gather && index.isNone),
      code (decide (p < rowb)), align (rowb % 16 != 0) 4, align (f 8 8 % 16 != 0) 8,
      align (f 16 4 % 16 != 0) 16, align (f 24 4 % 16 != 0) 24, align (f 28 4 % 16 != 0) 28,
      (p % 16 != 0, cALIGN, (zpad.map (·.1)).getD 0),
      ((index.any fun x => x.2.2.2 % 4 != 0), cALIGN, (index.map (·.1)).getD 0)] with
  | some x => .error x
  | none => .ok ⟨dir == 1, rowb, f 8 8, f 16 4, f 20 4, f 24 4, f 28 4, p, index.map fun x => x.2.2.2⟩

/-- Read and decode the descriptor at a generic address (R173). -/
def State.readCopyDesc (s : State) (e : Env) (t a : Nat) (gather : Bool) : Except (Nat × Nat) CopyDesc :=
  if a % 32 ≠ 0 then .error (cALIGN, a)
  else match s.readStruct e t a 32 with
    | .error x => .error x.pair
    | .ok d =>
      match s.readStruct e t (a + 32) (if 4 < fieldAt d 1 1 then 0 else 8 * fieldAt d 1 1) with
      | .error x => .error x.pair
      | .ok ext => copyDesc gather a d ext

/-! ### Rows (R168) -/

/-- What a copy needs of its generic side. A write of 16-byte rows to a KEEP page meets metadata: KEEP_META (R154, R316). -/
def copyNeed (toGeneric : Bool) : Need := if toGeneric then { w := true, peer := true } else { r := true, peer := true }

/-- A piece of a row. -/
def CopyRow.mk' (src : Option Seg) (dst len : Nat) : CopyRow := ⟨src, dst, len, [], false, false, false, false, none⟩

/-- Pieces of a gathered row: generic parts to consecutive scratchpad bytes. -/
def gatherPieces : List (Nat × Seg) → Nat → List CopyRow
  | [], _ => []
  | (_, g) :: gs, dst => CopyRow.mk' (some g) dst g.len :: gatherPieces gs (dst + g.len)

/-- Pieces of a scattered row: consecutive scratchpad bytes to generic parts. -/
def scatterPieces : List (Nat × Seg) → Nat → List CopyRow
  | [], _ => []
  | (_, g) :: gs, src => CopyRow.mk' (some ⟨src, g.len, false⟩) g.loc g.len :: scatterPieces gs (src + g.len)

/-- A copy resolved at issue: its pieces, pinned pages, and the generic writes it will make, with their addresses. -/
structure CopyPlan where
  toGeneric : Bool
  pieces : List CopyRow
  pages : List (Nat × Nat)
  writes : List (Nat × Nat × Nat)
  deriving DecidableEq, Repr

/-- Generic address of a row (R168): its index entry is none in CPY. -/
def CopyDesc.generic (d : CopyDesc) (r : Nat) (ix : Option Nat) : Nat := (d.gaddr + d.gstr * (ix.getD r)) % 2 ^ 64

/-- The index entry of a row that is not moved: a gather writes zeros, a scatter skips it (R168). -/
def skipIndex (ix : Option Nat) : Bool := ix == some 0xFFFFFFFF

/-- What fails in a row (R150, R154, R168). -/
def rowFails (s : State) (e : Env) (d : CopyDesc) (r : Nat) (ix : Option Nat) : List (Nat × Nat) :=
  if skipIndex ix && d.toGeneric then []
  else
    (match scratchSpan e (d.soff + d.sstr * r) d.padded with | .error x => [x] | .ok _ => []) ++
      (if skipIndex ix then []
       else match spanOf e (copyNeed d.toGeneric) (d.generic r ix) d.rowb with
        | .error x => [x]
        | .ok sn => ((sn.segs.find? fun x => s.linkBars x.2.loc).map fun x => (cACCESS, x.1)).toList ++
            (if d.toGeneric then ((sn.segs.find? fun x => x.2.keep).map fun x => (cKEEPMETA, x.1)).toList else []) ++
            ((sn.segs.findSome? (unreadableIn s)).map fun a => (cMEMUE, a)).toList)

/-- Resolve one row that has passed its checks (R168). -/
def planRow (e : Env) (d : CopyDesc) (p : CopyPlan) (r : Nat) (ix : Option Nat) : CopyPlan :=
  let loc := scratchLoc e.b.bid (d.soff + d.sstr * r)
  let pad := if d.rowb < d.padded then [CopyRow.mk' none (loc + d.rowb) (d.padded - d.rowb)] else []
  if skipIndex ix then (if d.toGeneric then p else { p with pieces := p.pieces ++ CopyRow.mk' none loc d.rowb :: pad })
  else match spanOf e (copyNeed d.toGeneric) (d.generic r ix) d.rowb with
    | .error _ => p
    | .ok sn =>
      if d.toGeneric then
        { p with pieces := p.pieces ++ scatterPieces sn.segs loc, pages := p.pages ++ sn.pages,
                 writes := p.writes ++ (sn.segs.filter fun x => !isScratch x.2.loc).map fun x => (x.2.loc, x.2.len, x.1) }
      else { p with pieces := p.pieces ++ gatherPieces sn.segs loc ++ pad, pages := p.pages ++ sn.pages }

/-- Every row is checked, in the order of R150, before the copy is resolved. -/
def planRows (s : State) (e : Env) (d : CopyDesc) (rows : List (Nat × Option Nat)) : Except (Nat × Nat) CopyPlan :=
  match firstCause (rows.flatMap fun r => rowFails s e d r.1 r.2) with
  | some x => .error x
  | none => .ok (rows.foldl (fun p r => planRow e d p r.1 r.2) ⟨d.toGeneric, [], [], []⟩)

/-- The rows of a copy, each with its index entry in CPYG (R168). -/
def State.copyRows (s : State) (e : Env) (t : Nat) (d : CopyDesc) : Except (Nat × Nat) (List (Nat × Option Nat)) :=
  match d.index with
  | none => .ok ((List.range d.rows).map fun r => (r, none))
  | some ia => match s.readStruct e t ia (4 * d.rows) with
    | .error x => .error x.pair
    | .ok bs => .ok ((List.range d.rows).map fun r => (r, some (fieldAt bs (4 * r) 4)))

/-- A thread's copy: descriptor, index list, both sides (R168). -/
def State.planCopy (s : State) (e : Env) (t a : Nat) (gather : Bool) : Except (Nat × Nat) CopyPlan :=
  match s.readCopyDesc e t a gather with
  | .error x => .error x
  | .ok d => match s.copyRows e t d with
    | .error x => .error x
    | .ok rows => planRows s e d rows

/-! ### CPY and CPYG -/

def Op.isCopy (o : Op) : Bool := match o.kind with | .copy .. => true | _ => false

/-- Copies in flight on a core (R239). -/
def State.copiesOn (s : State) (die core : Nat) : Nat :=
  (s.ops.filter fun o => o.isCopy && o.place.die == die && o.place.core == core).length

/-- Where a thread stands: at its PC, or, in a re-injection, at the entry that is due where that is one of its own (R116). -/
def Gang.standsAt (g : Gang) (x : Thread) : Option Nat :=
  match g.reinj with
  | some r => if x.thr ∈ r.mask then (r.entries.head?.filter fun e => x.thr ∈ e.mask).map (·.pc) else some x.pc
  | none => some x.pc

/-- A thread still stands where its copy stalled. -/
def State.stillWaits (s : State) (w : Nat × Nat × Nat) : Bool :=
  (s.gang? w.1).any fun g => (g.thread? w.2.1).any fun x => !x.exited && g.standsAt x == some w.2.2

/-- May a thread's copy enter the engine: fewer than 64 in flight, and no thread of the core stalled before it (R168, R239)? -/
def State.copyRoom (s : State) (e : Env) (t : Nat) : Bool :=
  decide (s.copiesOn e.b.die e.b.core < Config.copiesInFlight) && decide (s.wcnt e.g.gid t .cp < Cls.maxCount .cp) &&
    match (s.copyWait.filter fun w => s.stillWaits w && ((s.placeOf w.1 w.2.1).die == e.b.die && (s.placeOf w.1 w.2.1).core == e.b.core)).head? with
    | some w => w.1 == e.g.gid && w.2.1 == t
    | none => true

/-- The checks of a copy that do not depend on other threads: alignment and place of the barrier object, the copy itself. -/
def copyCheck (p : Prep) (nb gather : Bool) (t : Nat) : Option (Nat × Nat) :=
  let obj := if nb then none else objCheck p.e.b (p.b t).toNat
  match obj.filter fun x => x.1 == cALIGN with
  | some x => some x
  | none => match p.s.planCopy p.e t (p.a t).toNat gather with
    | .error (c, a) => if c = cALIGN ∨ c = cILLEGAL ∨ c = cTRANSLATION then some (c, a) else (obj.or (some (c, a)))
    | .ok _ => obj

/-- Lines of the counting board that the lower threads of the instruction claim, then this thread's (R349). -/
def copyBoard (p : Prep) (gather : Bool) (t : Nat) : Option (Nat × Nat) :=
  if !p.e.l.det then none
  else
    let ws (u : Nat) : List (Nat × Nat × Nat) := match p.s.planCopy p.e u (p.a u).toNat gather with | .ok q => q.writes | .error _ => []
    let low := (p.parts.filter (· < t)).flatMap fun u => (ws u).flatMap fun w => linesOf w.1 w.2.1
    match claimLines ((p.s.boardLines p.e.b.bid ++ low).dedup) (ws t) with
    | .error a => some (cACCESS, a)
    | .ok _ => none

/-- First uses of the barrier objects of threads whose copies issue (R168, R175): the threads for which it fails. -/
def copyFirstUses (p : Prep) (nb : Bool) : List (Nat × Nat × Nat) :=
  if nb then []
  else (p.parts.foldl (fun (k : State × List (Nat × Nat × Nat)) t =>
    match k.1.firstUse p.e.b.bid (p.b t).toNat with
    | some s => (s, k.2)
    | none => (k.1, k.2 ++ [(t, cACCESS, (p.b t).toNat)])) (p.s, [])).2

/-- Issue one thread's copy, or add it to the core's stalled copies. -/
def issueCopy (p : Prep) (nb gather : Bool) (k : State × List Nat) (t : Nat) : State × List Nat :=
  let (s, stalled) := k
  match s.planCopy p.e t (p.a t).toNat gather with
  | .error _ => k
  | .ok q =>
    if s.copyRoom p.e t then
      let s0 := if nb then s else (s.firstUse p.e.b.bid (p.b t).toNat).getD s
      let s1 := { s0 with copyWait := s0.copyWait.filter fun w => !(w.1 == p.e.g.gid && w.2.1 == t) }
      (s1.post p.e [t] .cp (some .cp) (.copy q.toGeneric (if nb then none else some (p.b t).toNat) q.pieces) q.pages.dedup none, stalled)
    else
      let here := (p.e.g.gid, t, s.cur.pc)
      let s1 := if here ∈ s.copyWait then s
        else { s with copyWait := (s.copyWait.filter fun w => s.stillWaits w && !(w.1 == p.e.g.gid && w.2.1 == t)) ++ [here] }
      (s1, stalled ++ [t])

def copyExec (i : Instr) (nb gather : Bool) (s : State) : Host.Outcome State Fault Refusal :=
  withPrep i s fun p =>
    let fu := copyFirstUses p nb
    match p.check i fun t =>
        (copyCheck p nb gather t).or ((copyBoard p gather t).or ((fu.find? fun f => f.1 == t).map (·.2))) with
    | some s' => s'
    | none =>
      let (s1, stalled) := p.parts.foldl (issueCopy p nb gather) (p.s, [])
      s1.completePart i p.parts stalled .held

/-- R167, R168: CPY. -/
def execCpy (g : Guard) (nb : Bool) (a b : Reg) (s : State) : Host.Outcome State Fault Refusal :=
  copyExec (.cpy g nb a b) nb false s

/-- R167, R168: CPYG, whose rows an index list names. -/
def execCpyg (g : Guard) (nb : Bool) (a b : Reg) (s : State) : Host.Outcome State Fault Refusal :=
  copyExec (.cpyg g nb a b) nb true s

/-! ### Transitions of a copy (R250, R256) -/

/-- Copies of a core start in the order in which they entered (R239). -/
def State.copyMayStart (s : State) (o : Op) : Bool :=
  s.ops.all fun x => !(x.isCopy && x.place.die == o.place.die && x.place.core == o.place.core && x.id < o.id) || x.queued

def Op.setPiece (o : Op) (bar : Option Nat) (tg : Bool) (rows : List CopyRow) : Op := { o with kind := .copy tg bar rows }

/-- Bytes of a piece as a piece of its own. -/
def CopyRow.sub (r : CopyRow) (off n : Nat) : CopyRow :=
  { r with src := r.src.map fun g => { g with loc := g.loc + off, len := n }, dst := r.dst + off, len := n, data := (r.data.drop off).take n }

/-- The pieces of a copy with its k-th byte as a piece of its own, and the place of that. -/
def isolate : List CopyRow → Nat → Option (List CopyRow × Nat)
  | [], _ => none
  | r :: rs, k =>
    if k < r.len then
      some ((if k = 0 then [] else [r.sub 0 k]) ++ r.sub k 1 :: (if k + 1 < r.len then [r.sub (k + 1) (r.len - (k + 1))] else []) ++ rs, min k 1)
    else (isolate rs (k - r.len)).map fun x => (r :: x.1, x.2 + 1)

/-- The piece that a transition takes: one of the pieces, or, past them, a single byte of the copy: bytes are read and written in no
defined order, each by itself (R168, R256). -/
def pieceOf (rows : List CopyRow) (idx : Nat) : List CopyRow × Nat :=
  if idx < rows.length then (rows, idx) else (isolate rows (idx - rows.length)).getD (rows, idx)

/-- Lengths of the runs of bytes that are all poisoned or none. -/
def badRuns : List RByte → List (Nat × Bool)
  | [] => []
  | b :: bs => match badRuns bs with
    | (n, p) :: r => if p = b.bad then (n + 1, p) :: r else (1, b.bad) :: (n, p) :: r
    | [] => [(1, b.bad)]

/-- A piece that has been read, cut into runs: a poisoned byte lands poisoned, and no other (R168). -/
def CopyRow.runs (r : CopyRow) : Nat → List (Nat × Bool) → List CopyRow
  | _, [] => []
  | off, (n, p) :: rs => { r.sub off n with poison := p } :: r.runs (off + n) rs

/-- Read a piece's source (R256): what a load of the thread returns now; zeros have none. A link that is down gives poison (R366). -/
def State.copyRead (s : State) (o : Op) (tg : Bool) (bar : Option Nat) (rows0 : List CopyRow) (idx0 : Nat) : State :=
  let (rows, idx) := pieceOf rows0 idx0
  match rows[idx]?, s.env? o.place.gid with
  | some r, some e =>
    if !o.queued || r.readDone then s
    else
      let (bs, s1) := match r.src with
        | some g => if g.keep then
              let bs := s.segBytes e o.place.thr o.id g
              (bs, s.markRead e g bs)
            else s.unlanded (e.place o.place.thr) false g.loc (s.segBytes e o.place.thr o.id g)
        | none => (List.replicate r.len ⟨0, false, none⟩, s)
      let down := (r.src.map fun g => s.linkDown g.loc).getD false
      let got := { r with readDone := true, data := rbVals bs }
      s1.modOp o.id fun o => o.setPiece bar tg (rows.take idx ++
        (if down then [{ got with poison := true }] else got.runs 0 (badRuns bs)) ++ rows.drop (idx + 1))
  | _, _ => s

/-- Write a piece (R168, R256): to scratchpad for its whole block; to generic memory for its thread, or staged. Rows that write one
byte are written in ascending order. A write over a link that is down is lost, with a record (R366). -/
def State.copyWrite (s : State) (o : Op) (tg : Bool) (bar : Option Nat) (rows0 : List CopyRow) (idx0 : Nat) : State :=
  let (rows, idx) := pieceOf rows0 idx0
  match rows[idx]?, s.env? o.place.gid with
  | some r, some e =>
    if !o.queued || !r.readDone || r.writeDone ||
        (rows.take idx).any (fun x => !x.writeDone && overlap (x.dst, x.len) (r.dst, r.len)) then s
    else
      let mark (s : State) (wid : Option Nat) : State :=
        s.modOp o.id fun o => o.setPiece bar tg (modNth rows idx fun r => { r with writeDone := true, wid := wid })
      let t := o.place.thr
      if s.linkDown r.dst then (s.lostWrite e r.dst r.len).modOp o.id fun o => o.setPiece bar tg (modNth rows idx fun r =>
          { r with writeDone := true, landDone := true })
      else if tg && !(isScratch r.dst) then
        let s1 := s.storeNow e t o.id .cp r.dst r.data r.poison
        let s2 := if r.poison && !e.l.det then s1.poisonRecord e r.dst r.len [s.nextId] else s1
        mark s2 (if e.l.det then none else some s.nextId)
      else
        let (s1, wid) := s.append r.dst r.data r.poison (if tg then [.thread e.g.gid t] else [.block o.place.bid]) (some o.id)
        mark (((s1.note e.g.gid t o.id .cp [wid]).spoil s r.dst r.data.length).soil o.id r.dst r.data.length) (some wid)
  | _, _ => s

/-- Has a piece's write landed (R168): in scratchpad, or at the block scope of its thread? -/
def State.pieceLands (s : State) (o : Op) (r : CopyRow) : Bool :=
  r.writeDone && !r.landDone && (match r.wid with | some w => s.reached w o.place Scope.block.level | none => true)

/-- Bytes land and count into the barrier object (R168, R177). -/
def State.copyLand (s : State) (o : Op) (tg : Bool) (bar : Option Nat) (rows : List CopyRow) (idx : Nat) : State :=
  match rows[idx]? with
  | some r =>
    if s.pieceLands o r then
      let s1 := s.modOp o.id fun o => o.setPiece bar tg (modNth rows idx fun r => { r with landDone := true })
      match bar with
      | some off => s1.landAt o.place.bid off r.len
      | none => s1
    else s
  | none => s

/-- A copy is complete when every byte has landed (R168). -/
def copyDone (rows : List CopyRow) : Bool := rows.all fun r => r.landDone

end Sys2Proof.Machine
end

