-- ==== Sys2Proof/Machine/Compaction.lean ====
section
/-! DEFINITION. Ragged work: work lists and domains, CCLOSE, CAPPEND, CTAKE, CDONE, CQUIET (R191 to R195, R290 to R294), the HOME step
of every operation that has one (R255), and the quiescence detector's arrival (R260). -/

namespace Sys2Proof.Machine
open Host

/-! ### Structures (R191) -/

/-- What a list or domain needs of its page. -/
def workNeed : Need := { r := true, w := true, noKeep := true, noBank := true, noScratch := true }

/-- A work list as an instruction reads it at issue. -/
structure WorkList where
  hdr : Nat
  dom : Option Nat
  base : Nat
  cap : Nat
  items : List (Nat × Seg)
  deriving DecidableEq, Repr

def Span.loc (sn : Span) : Nat := (sn.segs.head?.map fun x => x.2.loc).getD 0

/-- A domain block's location, checked (R191); %taddr of a misaligned one is its address. DESIGN CHOICE, log entry 116. -/
def domainLoc (e : Env) (a : Nat) : Except (Nat × Nat) Nat :=
  if a % 64 ≠ 0 then .error (cALIGN, a)
  else match spanOf e workNeed a 64 with
    | .error x => .error x
    | .ok sn => .ok sn.loc

/-- A list header read and checked with its domain and item array (R191, R173). -/
def State.workList (s : State) (e : Env) (t a : Nat) : Except (Nat × Nat) WorkList :=
  if a % 64 ≠ 0 then .error (cALIGN, a)
  else
    match s.readVa e t { workNeed with w := false } a 64 with
    | .error x => .error x.pair
    | .ok rb =>
      let bs := rbVals rb
      let base := fieldAt bs 0 8
      let dom := fieldAt bs 8 8
      let cap := fieldAt bs 16 4
      if cap = 0 ∨ 2 ^ 24 < cap then .error (cILLEGAL, a)
      else if base % 8 ≠ 0 then .error (cALIGN, a)
      else if dom % 64 ≠ 0 then .error (cALIGN, dom)
      else
        let hs := spanOf e workNeed a 64
        let ds := spanOf e workNeed dom (if dom = 0 then 0 else 64)
        let is := spanOf e workNeed base (8 * cap)
        match firstCause ([hs, ds, is].filterMap fun x => match x with | .error y => some y | .ok _ => none), hs, ds, is with
        | none, .ok h, .ok d, .ok items => .ok ⟨h.loc, if dom = 0 then none else some d.loc, base, cap, items.segs⟩
        | x, _, _, _ => .error (x.getD (cACCESS, a))

/-- Location of item slot k. -/
def itemLoc (items : List (Nat × Seg)) (base k : Nat) : Nat :=
  let a := base + 8 * k
  match (items.filter fun x => x.1 ≤ a).getLast? with
  | some (va, g) => g.loc + (a - va)
  | none => a

/-! ### Instructions (R192 to R195) -/

/-- The checks of a compaction instruction, then ATOM_DET in deterministic mode (R172, R150). -/
def cxCheck {α : Type} (p : Prep) (look : Nat → Except (Nat × Nat) α) (ea : Nat → Word) (t : Nat) : Option (Nat × Nat) :=
  match look t with
  | .error x => some x
  | .ok _ => if p.e.l.det then some (cATOMDET, (ea t).toNat) else none

/-- Post a held compaction operation for each participating thread, in ascending order (R172, R193). -/
def cxExec {α : Type} (i : Instr) (s : State) (ea : Prep → Nat → Word) (look : Prep → Nat → Except (Nat × Nat) α)
    (kind : Prep → Nat → α → OpKind) : Host.Outcome State Fault Refusal :=
  withPrep i s fun p =>
    match p.check i (cxCheck p (look p) (ea p)) with
    | some s' => s'
    | none =>
      let one (s : State) (t : Nat) : State :=
        match look p t with
        | .ok x => s.post p.e [t] .cx none (kind p t x) [] (p.holdEntry i)
        | .error _ => s
      (p.parts.foldl one p.s).complete i p.parts

/-- The list that a thread's CAPPEND names: the address that RESUME of LISTFULL gave, for one execution, else bead(a) (R193, R286). -/
def Prep.listAddr (p : Prep) (t : Nat) : Word :=
  match (p.e.g.thread? t).bind (·.relist) with
  | some (v, pc) => if pc = p.s.cur.pc then v else p.a t
  | none => p.a t

/-- R192, R194: CCLOSE. -/
def execCclose (g : Guard) (a : Reg) (s : State) : Host.Outcome State Fault Refusal :=
  cxExec (.cclose g a) s Prep.a (fun p t => domainLoc p.e (p.a t).toNat) fun _ _ d => .cclose d

/-- R192, R193: CAPPEND. -/
def execCappend (g : Guard) (a b : Reg) (s : State) : Host.Outcome State Fault Refusal :=
  cxExec (.cappend g a b) s Prep.listAddr (fun p t => p.s.workList p.e t (p.listAddr t).toNat) fun p t w =>
    .cappend w.hdr w.dom w.base w.cap w.items (p.b t) (p.listAddr t)

/-- R192, R194: CTAKE. -/
def execCtake (g : Guard) (d : Reg) (pc : Pred) (a : Reg) (s : State) : Host.Outcome State Fault Refusal :=
  cxExec (.ctake g d pc a) s Prep.a (fun p t => p.s.workList p.e t (p.a t).toNat) fun _ _ w => .ctake w.hdr w.base w.cap w.items d pc

/-- R192, R194: CDONE. -/
def execCdone (g : Guard) (a : Reg) (s : State) : Host.Outcome State Fault Refusal :=
  cxExec (.cdone g a) s Prep.a (fun p t => p.s.workList p.e t (p.a t).toNat) fun _ _ w => .cdone w.hdr w.dom

/-- R192, R195: CQUIET. -/
def execCquiet (g : Guard) (a b : Reg) (s : State) : Host.Outcome State Fault Refusal :=
  cxExec (.cquiet g a b) s Prep.a (fun p t =>
    match objCheck p.e.b (p.b t).toNat, domainLoc p.e (p.a t).toNat with
    | some (c, x), .ok _ => .error (c, x)
    | some (c, x), .error y => .error (if c = cALIGN then (c, x) else y)
    | none, r => r) fun p t d => .cquiet d (p.b t).toNat

/-! ### Steps at the unit (R193 to R195, R255, R293) -/

/-- A step's write has reached every scope (R255); what it writes stands under the key of what stood there (R297). -/
def State.put (s : State) (loc n v : Nat) : State := s.pokeAs loc (leBytes n (v % 2 ^ (8 * n))) (s.keyHere loc)

/-- The detector's check after a step that changed a domain (R195, R293). -/
def State.detect (s : State) (dom : Nat) : State :=
  if s.quiescent dom then { s with arms := s.arms.map fun a => if a.dom = dom then { a with fired := true } else a } else s

def State.setFlag (s : State) (dom bit : Nat) (v : Bool) : State :=
  let f := s.field (dom + 4) 4
  s.put (dom + 4) 4 (f - f / 2 ^ bit % 2 * 2 ^ bit + v.toNat * 2 ^ bit)

/-- Blocks that end take their armings with them: ARMED is cleared without an arrival (R195). -/
def State.disarm (s : State) (bids : List Nat) : State :=
  let gone := s.arms.filter fun a => a.bid ∈ bids
  gone.foldl (fun s a => s.setFlag a.dom 1 false) { s with arms := s.arms.filter fun a => a.bid ∉ bids }

/-- An item is appended (R193), in the domain too. -/
def State.appendItem (s : State) (hdr : Nat) (dom : Option Nat) (slot cap tail : Nat) (item : Word) : State :=
  let s1 := (s.pokeAs slot (leBytes 8 item.toNat) (s.keyHere hdr)).put (hdr + 28) 4 ((tail + 1) % (2 * cap))
  match dom with
  | some d => (s1.put (d + 8) 8 (s1.field (d + 8) 8 + 1)).detect d
  | none => s1

/-- A list whose items and counts are unpredictable: its counters are outside their range, or differed before its first step (R191). DESIGN
CHOICE, log entry 62. -/
def State.looseList (s : State) (hdr cap : Nat) : Bool :=
  let head := s.field (hdr + 24) 4
  let tail := s.field (hdr + 28) 4
  decide (2 * cap ≤ head) || decide (2 * cap ≤ tail) ||
    match s.work.find? fun w => w.loc == hdr && !w.dom with
    | some w => w.loose
    | none => head != tail

/-- Structures at which the unit takes a step. -/
def State.workOn (s : State) (k : OpKind) : State :=
  let list (hdr : Nat) (loose : Bool) : WorkUse := ⟨hdr, false, loose, false⟩
  let dom (d : Nat) : WorkUse := ⟨d, true, false, false⟩
  let new : List WorkUse := match k with
    | .cclose d | .cquiet d _ => [dom d]
    | .cappend hdr d _ cap .. => list hdr (s.looseList hdr cap) :: (d.map dom).toList
    | .ctake hdr _ cap .. => [list hdr (s.looseList hdr cap)]
    | .cdone _ d => (d.map dom).toList
    | _ => []
  { s with work := (s.work.filter fun w => new.all fun x => !(x.loc == w.loc && x.dom == w.dom)) ++ new }

/-- CTAKE's results reach its thread: what its gang did under speculation is squashed, since it read the predicate as it was (R215). -/
def State.taken (s : State) (o : Op) (d : Reg) (pc : Pred) (v : Word) (ok : Bool) (bad : Option (Nat × Word)) : State :=
  (((s.squash o.place.gid).dropOp o.id).deliverRegs o o.place.thr [(d, v, bad)]).modThread o.place.gid o.place.thr fun x => x.setPred pc ok

/-- The detector arrives at a barrier, once, as an unregistered arrival (R195, R293). -/
def State.arrive (s : State) (bid off : Nat) : State := (s.arriveFree bid off).1

/-- Armings in use at a die's unit (R293). -/
def State.armsOn (s : State) (die : Nat) : Nat := (s.arms.filter fun a => a.die == die).length

/-- The indivisible step of a compaction operation (R193 to R195, R255). DESIGN CHOICE, log entry 32. -/
def State.homeCx (s0 : State) (o : Op) : State :=
  let s := s0.workOn o.kind
  match o.kind with
  | .cclose d =>
    let n := s.field d 4
    ((if 0 < n then s.put d 4 (n - 1) else s.setFlag d 0 true).detect d).dropOp o.id
  | .cappend hdr dom base cap items item list =>
    let head := s.field (hdr + 24) 4
    let tail := s.field (hdr + 28) 4
    if s0.looseList hdr cap then
      let (full, s1) := s.freeFlag
      if full then (s1.systemEffect o 0xFF03 list).getD s0
      else
        let (k, s2) := s1.freeVal
        ((s2.appendItem hdr dom (itemLoc items base (k.toNat % cap)) cap tail item).spoilUnit hdr false).dropOp o.id
    else if (tail + 2 * cap - head) % (2 * cap) = cap then
      let busy := ((s.gang? o.place.gid).bind (·.trap)).any fun m => o.thrs.any (· ∉ m.mask)
      if busy then s0 else (s.systemEffect o 0xFF03 list).getD s0
    else (s.appendItem hdr dom (itemLoc items base (tail % cap)) cap tail item).dropOp o.id
  | .ctake hdr base cap items d pc =>
    let head := s.field (hdr + 24) 4
    let tail := s.field (hdr + 28) 4
    if s0.looseList hdr cap then
      let (v, s1) := (s.spoilUnit hdr false).freeVal
      let (b, s2) := s1.freeFlag
      s2.taken o d pc v b none
    else if head = tail then s.taken o d pc 0xFFFFFFFFFFFFFFFF false none
    else
      let loc := itemLoc items base (head % cap)
      let bs := s.lastBytes loc 8
      (s.put (hdr + 24) 4 ((head + 1) % (2 * cap))).taken o d pc (BitVec.ofNat 64 (rbNat bs)) true
        (if rbBad bs then some (1, BitVec.ofNat 64 (base + 8 * (head % cap))) else none)
  | .cdone _ dom =>
    match dom with
    | none => s.dropOp o.id
    | some d =>
      let n := (s.field (d + 16) 8 + 1) % 2 ^ 64
      let s1 := s.put (d + 16) 8 n
      ((if s.field (d + 8) 8 < n then s1.setFlag d 0 true else s1).detect d).dropOp o.id
  | .cquiet d bar =>
    let die := dieOf d
    let armed := s.arms.any fun a => a.dom == d
    if !armed ∧ 64 ≤ s.armsOn die then s0
    else
      let rest : List Arming := s.arms.filter fun a => a.dom != d
      let (v, s1) := s.freeVal
      let s2 := s1.put (d + 24) 8 v.toNat
      (if s.quiescent d then (({ s2 with arms := rest }).setFlag d 1 false).arrive o.place.bid bar
        else ({ s2 with arms := rest ++ [Arming.mk die d o.place.bid bar false] }).setFlag d 1 true).dropOp o.id
  | _ => s0

def OpKind.isCx : OpKind → Bool
  | .cclose _ | .cappend .. | .ctake .. | .cdone .. | .cquiet .. => true
  | _ => false

/-- The structure that a compaction operation names. -/
def OpKind.unitKey (k : OpKind) : Option Nat := k.unitKeys.head?

/-- Threads of one issue group that name one structure are served in ascending order (R193, R194, R290). -/
def State.cxTurn (s : State) (o : Op) : Bool :=
  s.ops.all fun x => !(x.kind.isCx && x.place.gid == o.place.gid && x.posted == o.posted && x.pc == o.pc && x.kind.unitKey == o.kind.unitKey &&
    x.id < o.id)

/-- R255: HOME: one indivisible step at a KEEP page's home or at a compaction unit. -/
def execHome (op : Nat) (s : State) : Host.Outcome State Fault Refusal :=
  s.ifEnabled op fun o =>
    if o.kind.isCx then (if s.cxTurn o then s.homeCx o else s) else s.homeKeep o

/-- R195, R260: QUIESCENCE_ARRIVAL: the detector arrives once at the armed barrier and clears ARMED. -/
def execQuiescenceArrival (domain : Nat) (s : State) : Host.Outcome State Fault Refusal :=
  .next (match s.arms.find? fun a => a.dom == domain && a.fired with
    | some a =>
      let s1 := { s with arms := s.arms.filter fun x => x.dom != domain }
      (s1.setFlag domain 1 false).arrive a.bid a.off
    | none => s)

end Sys2Proof.Machine
end

