-- ==== Sys2Proof/Machine/Matrix.lean ====
section
/-! DEFINITION. The matrix engine (R196 to R201, R257, R265 to R277): planes and tiles, the arithmetic of a pass, the reservation table
and its grants, MLDW, MSWAP, MPASS, MZERO, MMOV and MSTA. A granted operation takes its whole effect at its DONE, in grant order. -/

namespace Sys2Proof.Machine
open Host

/-! ### Planes (R198, R266) -/

def Plane.empty : Plane := ⟨1, [], []⟩

/-- The 64-byte blocks of a run. -/
def blocksOf : Nat → List Byte → List (List Byte)
  | 0, _ => []
  | n + 1, bs => bs.take 64 :: blocksOf n (bs.drop 64)

/-- Blocks of a run of 224 elements of a format (R198). -/
def runBlocks (code : Nat) : Nat := if blkCount code = 0 then 0 else 224 / blkCount code

def isIntCode (code : Nat) : Bool := code == 5 || code == 6

/-- A plane's column: its blocks, none where it was not loaded. -/
def Plane.blocks (p : Plane) (n : Nat) : List (List Byte) :=
  match alGet p.cols n with
  | some bs => blocksOf (runBlocks p.wfmt) bs
  | none => []

/-- Column n as exact values, and whether it is FMT-pending (R198). -/
def Plane.floats (p : Plane) (n : Nat) : List Fp × Bool :=
  let bl := p.blocks n
  match runFormat bl with
  | none => (List.replicate 224 (.fin false 0 0), false)
  | some c =>
    if c = p.wfmt then ((bl.flatMap (blkInRun c)).take 224, false)
    else if isIntCode p.wfmt then (List.replicate 224 (.fin false 0 0), true)
    else (List.replicate 224 (.nan false), false)

/-- A block's elements as integers (R273): markers and blocks of another code are 0; the latter, unless zero blocks, set FMT. -/
def blkInts (code : Nat) (bs : List Byte) : List Int × Bool :=
  if blkCode bs = code then
    ((List.range (blkCount code)).map fun i => match blkElem code bs i with
      | some (.fin neg m e) => (if neg then -1 else 1) * ((m * 2 ^ e.toNat : Nat) : Int)
      | _ => 0, false)
  else (List.replicate (blkCount code) 0, blkCode bs != 0)

/-- A run of an expected integer format (R199, R273): 0 for a run of another format, with FMT; +0 for one of no format. -/
def runInts (code : Nat) (bl : List (List Byte)) : List Int × Bool :=
  match runFormat bl with
  | none => (List.replicate 224 0, false)
  | some c =>
    if c = code then
      let xs := bl.map (blkInts code)
      ((xs.flatMap (·.1)).take 224, xs.any (·.2))
    else (List.replicate 224 0, true)

/-! ### Passes (R199, R272 to R274) -/

/-- The class of a pass: S32 or FP32 accumulation and the block of R37; none for a pair that forms no class (R199). -/
def passClass (a w : Nat) : Option (Bool × Nat) :=
  let half (c : Nat) : Bool := c == 1 || c == 2
  let byte (c : Nat) : Bool := c == 3 || c == 4 || c == 5
  if half a && half w then some (false, 28)
  else if byte a && byte w then some (a == 5 && w == 5, 56)
  else if byte a && w == 6 then some (a == 5, 56)
  else if a == 6 && byte w then some (w == 5, 56)
  else if a == 6 && w == 6 then some (true, 112)
  else none

/-- Bytes of an activation row (R199). -/
def actBytes (raw : Bool) (afmt : Nat) : Nat :=
  if raw then (if afmt ≤ 2 then 448 else if afmt ≤ 5 then 224 else 112) else 64 * runBlocks afmt

/-- A raw element, scale 1 and no markers (R199). -/
def rawElem (afmt : Nat) (bs : List Byte) (i : Nat) : Fp :=
  let byte (j : Nat) : Nat := (bs.getD j 0).toNat
  match afmt with
  | 1 => fmtBf16.unpack (byte (2 * i) + 256 * byte (2 * i + 1))
  | 2 => fmt16.unpack (byte (2 * i) + 256 * byte (2 * i + 1))
  | 3 => fmtE4m3.unpack (byte i)
  | 4 => fmtE5m2.unpack (byte i)
  | 5 => fpOfInt (toSigned 8 (byte i))
  | _ =>
    let v := byte (i / 2) / (if i % 2 = 0 then 1 else 16) % 16
    if v = 8 then .fin false 0 0 else fpOfInt (toSigned 4 v)

/-- An activation row for a float class. -/
def actFloats (raw : Bool) (afmt : Nat) (bs : List Byte) : List Fp :=
  if raw then (List.range 224).map fun i => (rawElem afmt bs i).quiet
  else
    let bl := blocksOf (runBlocks afmt) bs
    match runFormat bl with
    | none => List.replicate 224 (.fin false 0 0)
    | some c => if c = afmt then (bl.flatMap (blkInRun c)).take 224 else List.replicate 224 (.nan false)

/-- An activation row for an integer class, and whether it sets FMT. -/
def actInts (raw : Bool) (afmt : Nat) (bs : List Byte) : List Int × Bool :=
  if raw then
    ((List.range 224).map fun i => match rawElem afmt bs i with
      | .fin neg m _ => (if neg then -1 else 1) * (m : Int)
      | _ => 0, false)
  else runInts afmt (blocksOf (runBlocks afmt) bs)

/-- Split into pieces of n. -/
def piecesOf {α : Type} (n : Nat) : Nat → List α → List (List α)
  | 0, _ => []
  | k + 1, xs => if xs.isEmpty then [] else xs.take n :: piecesOf n k (xs.drop n)

/-- R37: a dot product by blocks of n. -/
def dotBlocks (n : Nat) (x w : List Fp) (a0 : W32) : W32 := (piecesOf n x.length (x.zip w)).foldl blockStep a0

/-- R274: an integer accumulation by blocks; the result and whether it saturated. -/
def sumBlocks (n : Nat) (x w : List Int) (a0 : Int) : Int × Bool :=
  (piecesOf n x.length (x.zip w)).foldl (fun (acc, sat) ps =>
    let v := acc + (ps.map fun p => p.1 * p.2).sum
    if 2 ^ 31 - 1 < v then (2 ^ 31 - 1, true) else if v < -2 ^ 31 then (-2 ^ 31, true) else (v, sat)) (a0, false)

/-! ### Rows of tiles (R199, R200) -/

def condFlag (b : Bool) (f : BitVec 4) : BitVec 4 := if b then f else 0

/-- A pass into one row (R199, R200, R272 to R274), from the bytes of its activation row. -/
def passRow (pl : Plane) (t : Tile) (row afmt : Nat) (raw acc : Bool) (bs : List Byte) : Tile :=
  let old := t.flag row
  let start (c : Nat) : W32 := if acc then t.word row c else 0
  match passClass afmt pl.wfmt with
  | none => t.setRow row (List.replicate 128 (BitVec.ofNat 32 fmt32.nan)) ((old &&& ~~~flINT) ||| flFMT)
  | some (true, n) =>
    let (x, bad) := actInts raw afmt bs
    let rs := (List.range 128).map fun c =>
      let (w, pend) := runInts pl.wfmt (pl.blocks c)
      let (v, sat) := sumBlocks n x w (start c).toInt
      (BitVec.ofInt 32 v, pend, sat)
    t.setRow row (rs.map (·.1)) (old ||| flINT ||| condFlag (bad || rs.any fun r => r.2.1) flFMT ||| condFlag (rs.any fun r => r.2.2) flSAT)
  | some (false, n) =>
    let x := actFloats raw afmt bs
    let rs := (List.range 128).map fun c =>
      let (w, pend) := pl.floats c
      (dotBlocks n x w (start c), pend)
    t.setRow row (rs.map (·.1)) ((old &&& ~~~flINT) ||| condFlag (rs.any (·.2)) flFMT)

/-! ### Free rows (R199, R267) -/

/-- A pass whose row has unpredictable values (R199, R267): free words. Its class sets INT; clean FMT-pending columns, and in an integer class an
activation row that is known (`sure`), set FMT; what an unknown row or column decides (FMT, and SAT of an integer class) is free; `ue`
marks an uncorrectable operand (R200, R273, R274). -/
def State.freeRow (s : State) (bid : Nat) (pl : Plane) (tile row afmt : Nat) (raw acc : Bool) (bs : List Byte) (sure ue : Bool) : State :=
  let (f, s1) := s.freeVal
  let (ws, s2) := s1.freeWords 128
  let int := (passClass afmt pl.wfmt).any (·.1)
  let loose (t : Tile) : Tile :=
    let t1 := passRow pl t row afmt raw acc bs
    let pend (c : Nat) : Bool := if int then (runInts pl.wfmt (pl.blocks c)).2 else (pl.floats c).2
    let fmt := ((List.range 128).any fun c => c ∉ pl.poison && pend c) || (!pl.poison.isEmpty && f.getLsbD 2) ||
      (int && (if sure then (actInts raw afmt bs).2 else !raw && f.getLsbD 0))
    let fl := (t.flag row &&& ~~~flINT) ||| condFlag int flINT ||| condFlag fmt flFMT ||| condFlag (int && f.getLsbD 1) flSAT
    if (passClass afmt pl.wfmt).isNone then t1.setFlag row (t1.flag row ||| condFlag ue flUE)
    else t.setRow row ws (fl ||| condFlag ue flUE)
  s2.modBlock bid fun b => { b with tiles := modNth b.tiles tile loose }

def State.freeBytes (s : State) : Nat → List Byte × State
  | 0 => ([], s)
  | n + 1 =>
    let (v, s1) := s.freeVal
    let (vs, s2) := s1.freeBytes n
    (v.setWidth 8 :: vs, s2)

/-! ### Operand records (R198) -/

structure LoadRec where
  wfmt : Nat
  runs : List (List Seg)
  pages : List (Nat × Nat)
  deriving DecidableEq, Repr

/-- The failures, and the answers, of a list of checks. -/
def errsOf {α : Type} (rs : List (Except (Nat × Nat) α)) : List (Nat × Nat) := rs.filterMap fun r => match r with | .error x => some x | .ok _ => none
def oksOf {α : Type} (rs : List (Except (Nat × Nat) α)) : List α := rs.filterMap fun r => match r with | .error _ => none | .ok x => some x

/-- The runs of the columns (R198, R303), checked in the order of R150; `own` are the pages of the record, pinned too (R196). -/
def loadRuns (e : Env) (scratch : Bool) (addr cstr n cols wfmt : Nat) (own : List (Nat × Nat)) : Except (Nat × Nat) LoadRec :=
  let rs := (List.range cols).map fun c =>
    let ea := (addr + cstr * c) % 2 ^ 64
    if scratch then scratchSpan e ea n else spanOf e { r := true } ea n
  match firstCause (errsOf rs) with
  | some x => .error x
  | none => .ok ⟨wfmt, (oksOf rs).map fun sn => sn.segs.map (·.2), (own ++ (oksOf rs).flatMap (·.pages)).dedup⟩

/-- The pages of a structure that an operation has read. -/
def pagesOf (e : Env) (a n : Nat) : List (Nat × Nat) :=
  match spanOf e { r := true } a n with
  | .ok sn => sn.pages
  | .error _ => []

/-- Read and check an operand record at a generic address (R198, R173). The payload of a null or NOALLOC field, to which R198 assigns no byte, is
ignored (DESIGN CHOICE, log entry 97), and a CSTR that is no multiple of 64 is a misalignment (DESIGN CHOICE, log entry 115). -/
def State.loadRec (s : State) (e : Env) (t a : Nat) : Except (Nat × Nat) LoadRec :=
  if a % 32 ≠ 0 then .error (cALIGN, a)
  else match s.readStruct e t a 32 with
    | .error x => .error x.pair
    | .ok d =>
      match s.readStruct e t (a + 32) (if 4 < fieldAt d 1 1 then 0 else 8 * fieldAt d 1 1) with
      | .error x => .error x.pair
      | .ok ext =>
        let f := fieldAt d
        let run := 64 * runBlocks (f 0 1)
        let badExt := (extFields ext (a + 32) (f 1 1)).find? fun x => 1 < x.2.1 && x.2.2.1
        match firstFail [(f 0 1 == 0 || 6 < f 0 1 || 4 < f 1 1 || 1 < f 2 1 || f 3 1 != 0, cILLEGAL, a),
            (f 16 4 == 0 || 128 < f 16 4, cILLEGAL, a + 16), (f 20 4 != 0, cILLEGAL, a + 20), (f 24 4 != 0, cILLEGAL, a + 24),
            (f 28 4 != 0, cILLEGAL, a + 28), (decide (f 4 4 < run), cILLEGAL, a + 4),
            (badExt.isSome, cILLEGAL, (badExt.map (·.1)).getD 0), (f 4 4 % 64 != 0, cALIGN, a + 4), (f 8 8 % 64 != 0, cALIGN, a + 8)] with
        | some x => .error x
        | none => loadRuns e (f 2 1 == 1) (f 8 8) (f 4 4) run (f 16 4) (f 0 1) (pagesOf e a (32 + 8 * f 1 1))

/-! ### Posting requests (R196, R268) -/

def Op.cluster (o : Op) : Nat × Nat := (o.place.die, o.place.core / 4)

/-- Requests in the reservation table of a cluster. -/
def State.tableOf (s : State) (die cl : Nat) : List Op := s.ops.filter fun o => o.entry.isSome && o.cluster == (die, cl)

/-- Room for one more request of a core: a free entry, and fewer than 8 of the core's own (R268). -/
def State.tableRoom (s : State) (b : Block) : Bool :=
  let tb := s.tableOf b.die (b.core / 4)
  decide (tb.length < 16) && decide ((tb.filter fun o => o.place.core == b.core).length < 8)

/-- The lowest free entry (R268). -/
def State.freeEntry (s : State) (b : Block) : Nat :=
  ((List.range 16).find? fun n => (s.tableOf b.die (b.core / 4)).all fun o => o.entry != some n).getD 0

/-- A trap's %taddr where the spec names no address. Log entry 22. -/
def Prep.openAddr (p : Prep) (t : Nat) : Nat := (Config.freeWord (p.s.free + t)).toNat

/-- A tile or pair number that the block does not hold (R196, R271). -/
def Prep.noTile (p : Prep) (t n : Nat) : Option (Nat × Nat) := if p.e.b.tiles.length ≤ n then some (cACCESS, p.openAddr t) else none
def Prep.noPair (p : Prep) (t n : Nat) : Option (Nat × Nat) := if p.e.b.pairs.length ≤ n then some (cACCESS, p.openAddr t) else none

/-- Check, then post one request for the issue group; a full table or counter stalls the whole group (R85, R196, R268). -/
def mxExec (i : Instr) (s : State) (uniform : Bool) (chk : Prep → Nat → Option (Nat × Nat)) (held : Bool)
    (kind : Prep → Option (OpKind × List (Nat × Nat))) : Host.Outcome State Fault Refusal :=
  withPrep i s fun p =>
    let who := if uniform then p.parts.take 1 else p.parts
    match p.check i fun t => if t ∈ who then chk p t else none with
    | some s' => { s' with free := s'.free + 32 }
    | none =>
      match kind p with
      | none => p.s.complete i p.parts
      | some (k, pages) =>
        if p.parts.isEmpty then p.s.complete i p.parts
        else if !held && !(p.fullFor .mx).isEmpty then p.s0.stallAt p.s.cur.mask .short
        else if !p.s.tableRoom p.e.b then p.s0.stallAt p.s.cur.mask .held
        else
          let id := p.s.nextId
          let s1 := p.s.post p.e p.parts .mx (if held then none else some .mx) k pages (if held then p.holdEntry i else none)
          (s1.modOp id fun o => { o with entry := some (p.s.freeEntry p.e.b) }).complete i p.parts

/-- R197, R198: MLDW. -/
def execMldw (g : Guard) (pair : BitVec 1) (a : Reg) (s : State) : Host.Outcome State Fault Refusal :=
  mxExec (.mldw g pair a) s true (fun p t => match p.s.loadRec p.e t (p.a t).toNat with
      | .error (c, x) => some (c, x)
      | .ok _ => p.noPair t pair.toNat) false
    fun p => match p.s.loadRec p.e (p.parts.headD 0) (p.a (p.parts.headD 0)).toNat with
      | .ok r => some (.mldw pair.toNat r.wfmt r.runs, r.pages)
      | .error _ => none

/-- R197, R198: MSWAP. -/
def execMswap (g : Guard) (pair : BitVec 1) (s : State) : Host.Outcome State Fault Refusal :=
  mxExec (.mswap g pair) s true (fun p t => p.noPair t pair.toNat) false fun _ => some (.mswap pair.toNat, [])

/-- A row's scratchpad offset: alignment, then its place (R199, R201). -/
def rowCheck (e : Env) (off n al : Nat) : Option (Nat × Nat) :=
  if off % al ≠ 0 then some (cALIGN, off) else if e.b.ssize < off + n then some (cACCESS, off) else none

/-- R197, R199: MPASS. -/
def execMpass (g : Guard) (afmt : BitVec 4) (raw acc : Bool) (pair : BitVec 1) (tile : BitVec 6) (a : Reg) (s : State) :
    Host.Outcome State Fault Refusal :=
  let n := actBytes raw afmt.toNat
  mxExec (.mpass g afmt raw acc pair tile a) s false
    (fun p t => (rowCheck p.e (p.a t).toNat n (if raw then 16 else 64)).or ((p.noTile t tile.toNat).or (p.noPair t pair.toNat))) false
    fun p => some (.mpass pair.toNat tile.toNat acc raw afmt.toNat
      (p.parts.map fun t => (t, ⟨scratchLoc p.e.b.bid (p.a t).toNat, n, false⟩)), [])

/-- R197, R201: MZERO. -/
def execMzero (g : Guard) (tile nm1 : BitVec 6) (s : State) : Host.Outcome State Fault Refusal :=
  mxExec (.mzero g tile nm1) s true (fun p t => p.noTile t (tile.toNat + nm1.toNat)) false fun _ => some (.mzero tile.toNat (nm1.toNat + 1), [])

/-- R197, R201: MMOV, held until its beads are written. -/
def execMmov (g : Guard) (ty : Ty) (n : BitVec 2) (d : Reg) (tile q : BitVec 6) (s : State) : Host.Outcome State Fault Refusal :=
  mxExec (.mmov g ty n d tile q) s false (fun p t => p.noTile t tile.toNat) true
    fun _ => some (.mmov (ty == .b32) (2 ^ n.toNat) d tile.toNat q.toNat, [])

/-- R197, R201: MSTA. -/
def execMsta (g : Guard) (bf16 : Bool) (a : Reg) (tile : BitVec 6) (s : State) : Host.Outcome State Fault Refusal :=
  mxExec (.msta g bf16 a tile) s false
    (fun p t => (rowCheck p.e (p.a t).toNat (if bf16 then 256 else 512) 16).or (p.noTile t tile.toNat)) false
    fun p => some (.msta bf16 tile.toNat (p.parts.map fun t => (t, scratchLoc p.e.b.bid (p.a t).toNat)), [])

/-! ### Grants (R268 to R270) -/

/-- An entry is eligible when it is the oldest of its gang, and its fences let it be enqueued (R253, R269). -/
def State.eligible (s : State) (o : Op) : Bool :=
  o.queued && (s.tableOf o.place.die (o.place.core / 4)).all fun x => !(x.place.gid == o.place.gid && x.id < o.id)

def State.score (s : State) (o : Op) : Nat := 4 * o.prio + min ((s.cycle - o.posted) / 256) 28

/-- One request is granted before another: the higher score, then the lower core, then the lower entry (R269). -/
def State.grantBefore (s : State) (a b : Op) : Bool :=
  if s.score a ≠ s.score b then decide (s.score b < s.score a)
  else if a.place.core ≠ b.place.core then decide (a.place.core < b.place.core)
  else decide (a.entry.getD 0 < b.entry.getD 0)

def State.bestRequest (s : State) : List Op → Option Op
  | [] => none
  | o :: os =>
    match s.bestRequest os with
    | some b => if s.grantBefore o b then some o else some b
    | none => some o

/-- Operations of a cluster's engine that are granted and not yet done. -/
def State.grantedOf (s : State) (die cl : Nat) : List Op := s.ops.filter fun o => o.grant.isSome && o.cluster == (die, cl)

/-- The request that the arbiter of a cluster grants now: at most four are granted and not done (R268). -/
def State.nextGrant (s : State) (die cl : Nat) : Option Op :=
  if 4 ≤ (s.grantedOf die cl).length then none else s.bestRequest ((s.tableOf die cl).filter s.eligible)

/-- R269: MATRIX_GRANT: the arbiter grants one eligible request; its entry frees. -/
def execMatrixGrant (die cluster : Nat) (s : State) : Host.Outcome State Fault Refusal :=
  .next (match s.nextGrant die cluster with
    | some o =>
      let n := s.nextId
      (State.modOp { s with nextId := n + 1 } o.id fun o => { o with grant := some n, entry := none }).count die (1400 + 3 * cluster + 2) 1
    | none => s)

/-! ### Effects at DONE, in grant order (R198 to R201, R267) -/

/-- Every operation of the engine that was granted earlier is done. -/
def State.grantTurn (s : State) (o : Op) : Bool :=
  match o.grant with
  | some n => (s.grantedOf o.place.die (o.place.core / 4)).all fun x => n ≤ x.grant.getD n
  | none => false

/-- What a matrix operation of a thread reads of a range (R257); `k` names its first byte among those that the operation reads. A KEEP page's slots are read at
their home, and generic memory in deterministic mode through the block's view. -/
def State.mxBytes (s : State) (e : Env) (t id k : Nat) (g : Seg) : List RByte :=
  if g.keep || (e.l.det && !isScratch g.loc) then s.segBytes e t id g
  else
    let x := ((e.g.thread? t).map (·.snap)).getD ⟨0, []⟩
    s.seenBy (some e.c.num) g.loc ((List.range g.len).map fun i => s.mxByte x (k + i) (g.loc + i))

/-- The parts of a run, each with the place of its first byte in the run. -/
def placedFrom : Nat → List Seg → List (Nat × Seg)
  | _, [] => []
  | n, g :: gs => (n, g) :: placedFrom (n + g.len) gs

/-- Load one column (R198, R267): a column written meanwhile is unpredictable, a poisoned one poisoned, with a record of each line. -/
def State.loadColumn (s : State) (e : Env) (o : Op) (k : State × Plane) (x : Nat × List Seg) : State × Plane :=
  let (s1, pl) := k
  let segs := (placedFrom (65536 * x.1) x.2).map fun g => (g.2, s.mxBytes e o.place.thr o.id g.1 g.2)
  let bs := segs.flatMap (·.2)
  let (data, s2) := if x.1 ∈ o.dirty then s1.freeBytes bs.length else (rbVals bs, s1)
  let s3 := segs.foldl (fun s y => (s.badRecords e y.1.loc y.2).markRead e y.1 y.2) s2
  (s3, { pl with cols := alSet pl.cols x.1 data, poison := if rbBad bs then x.1 :: pl.poison else pl.poison })

/-- MPASS of one row (R199, R267): unpredictable where an operand was written meanwhile or holds an uncorrectable error. -/
def State.passOne (s : State) (e : Env) (o : Op) (pl : Plane) (tile afmt : Nat) (raw acc : Bool) (x : Nat × Seg) : State :=
  let bs := s.mxBytes e x.1 o.id (65536 * x.1) x.2
  let sure := !rbBad bs && x.1 ∉ o.dirty
  if rbBad bs || !pl.poison.isEmpty then ((s.badRecords e x.2.loc bs).markRead e x.2 bs).freeRow o.place.bid pl tile x.1 afmt raw acc (rbVals bs) sure true
  else if x.1 ∈ o.dirty then s.freeRow o.place.bid pl tile x.1 afmt raw acc (rbVals bs) false false
  else s.modBlock o.place.bid fun b => { b with tiles := modNth b.tiles tile fun t => passRow pl t x.1 afmt raw acc (rbVals bs) }

/-- A word of a row as BF16, nearest-even: FP32 rounded, S32 converted (R201). -/
def tileBf16 (int : Bool) (w : W32) : Nat :=
  if int then (fmtBf16.ofInt .ne w.toInt).bits else (fmtBf16.ofFp .ne (fmt32.unpack w.toNat).quiet).bits

/-- The bytes that MSTA writes of a row (R201). -/
def staBytes (bf16 : Bool) (t : Tile) (row : Nat) : List Byte :=
  (List.range 128).flatMap fun c =>
    let w := t.word row c
    if bf16 then leBytes 2 (tileBf16 ((t.flag row).getLsbD 3) w) else leBytes 4 w.toNat

/-- The beads that MMOV writes of a row (R201). -/
def movRegs (flags : Bool) (n : Nat) (d : Reg) (q : Nat) (t : Tile) (row : Nat) : List (Reg × Word × Option (Nat × Word)) :=
  if flags then [(d, (t.flag row).setWidth 64, none)]
  else (List.range n).map fun j =>
    (d + BitVec.ofNat 8 j, BitVec.ofNat 64 ((t.word row (2 * (q + j))).toNat + 2 ^ 32 * (t.word row (2 * (q + j) + 1)).toNat), none)

/-- The tiles that a matrix operation updates. -/
def OpKind.updates (k : OpKind) (tile : Nat) : Bool :=
  match k with
  | .mpass _ t _ _ _ _ => t == tile
  | .mzero t n => decide (t ≤ tile) && decide (tile < t + n)
  | _ => false

/-- Another gang's operation, granted after this one, updates the tile while this one reads it (R201). -/
def State.tileRaced (s : State) (o : Op) (tile : Nat) : Bool :=
  s.ops.any fun x => x.grant.isSome && o.grant.getD 0 < x.grant.getD 0 && x.place.bid == o.place.bid && x.place.gid != o.place.gid && x.kind.updates tile

/-- A tile of unpredictable contents. -/
def State.freeTile (s : State) (t : Tile) (rows : List Nat) : Tile × State :=
  rows.foldl (fun (t, s) row =>
    let (f, s1) := s.freeVal
    let (ws, s2) := s1.freeWords 128
    (t.setRow row ws (f.setWidth 4), s2)) (t, s)

/-- The tile that a join reads. -/
def State.joinTile (s : State) (o : Op) (t : Tile) (tile : Nat) : Tile × State :=
  if s.tileRaced o tile then s.freeTile t o.thrs else (t, s)

/-- A matrix operation that TL counts is done: until a WAIT of its threads covers it, a pass's rows depend on its activation rows (R199). Rows
that it writes anew no longer depend on earlier ones. -/
def Block.passDone (b : Block) (o : Op) : Block :=
  let fresh (x : Passed) : Bool := match o.kind, x.row with
    | .mzero t n, some (tile, _, _) => decide (t ≤ tile) && decide (tile < t + n)
    | .mpass _ t acc _ _ rows, some (tile, _, _) => !acc && tile == t && rows.any fun r => r.1 == x.thr
    | _, _ => false
  let row (t : Nat) : Option (Nat × Nat × Nat) := match o.kind with
    | .mpass _ tile _ _ _ rows => (rows.find? fun r => r.1 == t).map fun r => (tile, r.2.loc, r.2.len)
    | _ => none
  if o.cnt.isNone then b
  else { b with passed := (b.passed.map fun x => if fresh x then { x with row := none } else x) ++ o.thrs.map fun t => ⟨o.id, o.place.gid, t, row t⟩ }

/-- One row of an MSTA is written (R201, R250). -/
def State.storeRow (s : State) (e : Env) (o : Op) (bf16 : Bool) (tl : Tile) (x : Nat × Nat) : State :=
  let data := staBytes bf16 tl x.1
  let (s1, wid) := s.append x.2 data false [.thread e.g.gid x.1] (some o.id)
  ((s1.note e.g.gid x.1 o.id .mx [wid]).spoil s x.2 data.length).soil o.id x.2 data.length

/-- R250, R258: the WRITE of one of the rows that a granted MSTA has still to write. -/
def State.mxWrite (s : State) (o : Op) (bf16 : Bool) (t : Nat) (rows : List (Nat × Nat)) (idx : Nat) : State :=
  match s.env? o.place.gid, rows[idx]? with
  | some e, some x =>
    if s.grantTurn o then
      let (tl, s1) := State.joinTile { s with free := s.free + 1 } o (e.b.tiles.getD t Tile.zero) t
      (s1.storeRow e o bf16 tl x).modOp o.id fun o => { o with kind := .msta bf16 t (rows.eraseIdx idx) }
    else s
  | _, _ => s

/-- The effect of a granted matrix operation, or what is left of it, and its end. -/
def State.mxDone (s00 : State) (o : Op) : State :=
  match s00.env? o.place.gid with
  | none => s00.dropOp o.id
  | some e =>
    let bid := o.place.bid
    let s := { s00 with free := s00.free + 1, blocks := s00.blocks.map fun b => if b.bid = bid then b.passDone o else b }
    let tile (n : Nat) : Tile := e.b.tiles.getD n Tile.zero
    match o.kind with
    | .mldw pair wfmt runs =>
      let (s1, pl) := ((List.range runs.length).zip runs).foldl (s.loadColumn e o) (s, ⟨wfmt, [], []⟩)
      (s1.modBlock bid fun b => { b with pairs := modNth b.pairs pair fun p => { p with shadow := pl } }).dropOp o.id
    | .mswap pair => (s.modBlock bid fun b => { b with pairs := modNth b.pairs pair fun p => ⟨p.shadow, p.active⟩ }).dropOp o.id
    | .mpass pair t acc raw afmt rows =>
      let pl := ((e.b.pairs[pair]?).map (·.active)).getD Plane.empty
      (rows.foldl (fun s x => s.passOne e o pl t afmt raw acc x) s).dropOp o.id
    | .mzero t n =>
      (s.modBlock bid fun b =>
        { b with tiles := (List.range b.tiles.length).map fun k => if t ≤ k ∧ k < t + n then Tile.zero else b.tiles.getD k Tile.zero }).dropOp o.id
    | .mmov flags n d t q =>
      let (tl, s1) := s.joinTile o (tile t) t
      o.thrs.foldl (fun s u => s.deliverRegs o u (movRegs flags n d q tl u)) (s1.dropOp o.id)
    | .msta bf16 t rows =>
      let (tl, s1) := s.joinTile o (tile t) t
      rows.foldl (fun s x => s.storeRow e o bf16 tl x) (s1.dropOp o.id)
    | _ => s

end Sys2Proof.Machine
end

