-- ==== Sys2Proof/Machine/Bank.lean ====
section
/-! DEFINITION. The bank units (R202 to R204, R258, R320 to R332): descriptors, BKMV, BKGTH and BKST, and the row tasks. -/

namespace Sys2Proof.Machine
open Host

/-! ### The descriptor (R202) -/

structure BankDesc where
  gather : Bool
  rfmt : Nat
  acc : Bool
  nvec : Nat
  rows : Nat
  cols : Nat
  wbase : Nat
  xbase : Nat
  xstr : Nat
  ystr : Nat
  ybase : Nat
  qpri : Nat
  deriving DecidableEq, Repr

/-- Bytes of one result of BKMV, or of one element of BKGTH's decoded rows. -/
def BankDesc.size (d : BankDesc) : Nat := if d.gather then (if d.rfmt = 1 then 2 else 4) else (if d.rfmt = 1 then 2 else 4)

/-- Decode the 64 bytes of a descriptor at `a` (R202): first what concerns codes and ranges (ILLEGAL), then alignment (R300 for WBASE);
with the address of the word that fails (R173). Decoded rows must fit YSTR (R324). Log entry 20. Payload bytes that the table does not assign
(58 to 63, and those of a null or NOALLOC field) are ignored. DESIGN CHOICE, log entry 97. -/
def bankDesc (gather : Bool) (a : Nat) (bs : List Byte) : Except (Nat × Nat) BankDesc :=
  let f := fieldAt bs
  let fl := f 3 1
  let size := if f 2 1 = 1 then 2 else 4
  let bad (c : Nat) (b : Bool) (off : Nat) : Bool × Nat × Nat := (b, c, a + off)
  let id := f 56 1 % 128
  match firstFail [bad cILLEGAL (f 0 1 != (if gather then 2 else 1)) 0, bad cILLEGAL (f 1 1 != 0) 0,
      bad cILLEGAL ((if gather then 2 else 1) < f 2 1) 0, bad cILLEGAL ((if gather then 0 else 15) < fl) 0,
      bad cILLEGAL (f 4 4 == 0 || (if gather then 65536 else 2 ^ 20) < f 4 4) 4, bad cILLEGAL (f 8 4 == 0 || 28672 < f 8 4) 8,
      bad cILLEGAL (f 12 4 != 0) 12, bad cILLEGAL (if gather then f 32 4 != 0 else decide (f 32 4 < 2 * f 8 4)) 32,
      bad cILLEGAL (gather && f 2 1 != 0 && f 36 4 < size * f 8 4) 36,
      bad cILLEGAL (f 48 4 != 0) 48, bad cILLEGAL (f 52 4 != 0) 52, bad cILLEGAL (1 < id && 128 ≤ f 56 1) 56, bad cILLEGAL (id == 1 && 7 < f 57 1) 56,
      bad cALIGN (f 16 8 % 16384 != 0) 16, bad cALIGN (f 24 8 % (if gather then 4 else 16) != 0) 24,
      bad cALIGN (f 32 4 % 16 != 0) 32, bad cALIGN (f 36 4 % (if gather then 16 else size) != 0) 36,
      bad cALIGN (f 40 8 % (if gather then 16 else size) != 0) 40] with
  | some x => .error x
  | none => .ok ⟨gather, f 2 1, fl % 2 == 1, fl / 2 + 1, f 4 4, f 8 4, f 16 8, f 24 8, f 32 4, f 36 4, f 40 8, if id = 1 then f 57 1 else 0⟩

def State.readBankDesc (s : State) (e : Env) (t a : Nat) (gather : Bool) : Except (Nat × Nat) BankDesc :=
  if a % 64 ≠ 0 then .error (cALIGN, a)
  else match s.readStruct e t a 64 with
    | .error x => .error x.pair
    | .ok bs => bankDesc gather a bs

/-! ### Stripes and rows (R299, R300, R35) -/

/-- A row's stripe: the unit that holds it, and its location. -/
structure Stripe where
  die : Nat
  vault : Nat
  loc : Nat
  deriving DecidableEq, Repr

/-- The stripe at an address of a bank-layout page (R299, R300). -/
def stripeAt (e : Env) (ea : Nat) : Except (Nat × Nat) (Stripe × (Nat × Nat)) :=
  match access e.c (some e.b) { r := true, bank := true } ea with
  | .error c => .error (c, ea)
  | .ok (.page p pa) => .ok (⟨dieOf pa, (ea - p.va) / 16384 % 128, pa⟩, (p.va, p.size))
  | .ok (.scratch _) => .error (cACCESS, ea)

/-- ⌈COLS/E⌉. -/
def rowBlocks (cols elems : Nat) : Nat := (cols + elems - 1) / elems

/-- Blocks of a stripe that can belong to a row of some format: at most 256. -/
def maxBlocks (cols : Nat) : Nat := min 256 (rowBlocks cols 14)

/-- A row's format (R35): that of its first block with a valid code that stands within a run of that format. -/
def rowFormat (cols : Nat) (bl : List (List Byte)) : Option Nat :=
  (((bl.zip (List.range bl.length)).find? fun x => 1 ≤ blkCode x.1 && blkCode x.1 ≤ 7).filter
    fun x => x.2 < rowBlocks cols (blkCount (blkCode x.1))).map fun x => blkCode x.1

/-! ### What a unit reads (R258, R203) -/

/-- A byte as an agent of the bank units reads it, with what its row task has read before: the latest write visible to it; in deterministic mode
the view of R203, unpredictable where an agent outside the launch has written (R348). -/
def State.bankByte (s : State) (e : Env) (us : List ScopeUnit) (seen : List (Nat × Byte × Bool)) (id loc : Nat) : RByte :=
  match seen.find? fun x => x.1 == loc with
  | some x => ⟨x.2.1, x.2.2, none⟩
  | none =>
    if e.l.det then
      let b := s.detByte e.l e.b .bk id loc
      if s.disturbed e.l loc then { b with val := (s.freeAt [loc]).setWidth 8 } else b
    else s.seenByte (some e.c.num) loc (s.byteFrom (s.latest us loc) loc)

def State.bankSegs (s : State) (e : Env) (us : List ScopeUnit) (seen : List (Nat × Byte × Bool)) (id : Nat) (gs : List Seg) : List RByte :=
  gs.flatMap fun g => (List.range g.len).map fun i => s.bankByte e us seen id (g.loc + i)

/-- The first n blocks of a stripe. -/
def State.stripeBytes (s : State) (e : Env) (die vault id loc n : Nat) : List RByte :=
  s.bankSegs e (bankUnits die vault) [] id [⟨loc, 64 * n, false⟩]

/-- Elements per block of a row whose format the spec does not give: a free choice among those that need at most 256 blocks. Log entry 23. -/
def openElems (cols n : Nat) : Nat :=
  let l := [14, 28, 56, 112].filter fun k => rowBlocks cols k ≤ 256
  l.getD ((Config.freeWord n).toNat % l.length) 112

/-- Blocks of a raw destination row (R324), from the row's format as its unit sees it at issue; `elems` where it has none. -/
def State.rawBlocks (s : State) (e : Env) (cols elems : Nat) (st : Option Stripe) : Nat :=
  let fmt := st.bind fun st => rowFormat cols (blocksOf (maxBlocks cols) (rbVals (s.stripeBytes e st.die st.vault s.nextId st.loc (maxBlocks cols))))
  rowBlocks cols ((fmt.map blkCount).getD elems)

/-- Locations of some segments. -/
def segLocs (gs : List Seg) : List Nat := gs.flatMap fun g => (List.range g.len).map (g.loc + ·)

/-! ### Planning at issue (R303, R321, R327) -/

/-- A bank operation resolved at issue: what it does, its pinned pages, and its writes with their addresses. -/
structure BankPlan where
  kind : OpKind
  rows : List BankRow
  pages : List (Nat × Nat)
  writes : List (Nat × Nat × Nat)
  deriving DecidableEq, Repr

def bankXNeed : Need := { r := true, noKeep := true, noScratch := true }
def bankYNeed (acc : Bool) : Need := { r := acc, w := true, noKeep := true, noScratch := true }

/-- The location of an address in a span. -/
def Span.at (sn : Span) (ea : Nat) : Nat :=
  match (sn.segs.filter fun x => x.1 ≤ ea).getLast? with
  | some (va, g) => g.loc + (ea - va)
  | none => ea

def Span.writes (sn : Span) : List (Nat × Nat × Nat) := sn.segs.map fun x => (x.2.loc, x.2.len, x.1)

/-- A BKMV resolved at issue, every range checked in the order of R150; `own` are the pages of the descriptor. -/
def planBkmv (e : Env) (d : BankDesc) (own : List (Nat × Nat)) : Except (Nat × Nat) BankPlan :=
  let wr := (List.range d.rows).map fun r => stripeAt e ((d.wbase + 16384 * r) % 2 ^ 64)
  let xr := (List.range d.nvec).map fun v => spanOf e bankXNeed ((d.xbase + d.xstr * v) % 2 ^ 64) (2 * d.cols)
  let yr := (List.range d.nvec).map fun v => spanOf e (bankYNeed d.acc) ((d.ybase + d.ystr * v) % 2 ^ 64) (d.size * d.rows)
  match firstCause (errsOf wr ++ errsOf xr ++ errsOf yr) with
  | some x => .error x
  | none =>
    let ws := oksOf wr
    let xs := oksOf xr
    let ys := oksOf yr
    let rows := (ws.zip (List.range d.rows)).map fun w =>
      BankRow.mk w.1.1.die w.1.1.vault (some w.1.1.loc)
        ((ys.zip (List.range d.nvec)).map fun y => ⟨y.1.at ((d.ybase + d.ystr * y.2) % 2 ^ 64 + d.size * w.2), d.size, false⟩) 56 [] [] false
    .ok ⟨.bkmv (d.rfmt == 1) d.acc d.cols d.qpri (xs.map fun x => x.segs.map (·.2)) rows, rows,
      (own ++ (ws.map (·.2)) ++ (xs.flatMap (·.pages)) ++ (ys.flatMap (·.pages))).dedup, ys.flatMap Span.writes⟩

/-- An index list as it is read at issue: what its entries are, one that cannot be read being unknown; its place; and what fails. -/
structure IndexList where
  entries : List (Option Nat)
  segs : List Seg
  pages : List (Nat × Nat)
  fails : List (Nat × Nat)
  deriving DecidableEq, Repr

/-- A byte of an index list at issue: as a bank unit's agent reads it, or as the thread does, a free choice where they differ; in deterministic
mode as the bank units do (R203, R258, R321, R324). DESIGN CHOICE, log entry 104. -/
def State.indexByte (s : State) (e : Env) (t loc : Nat) : RByte :=
  let bank := s.bankByte e (dieUnits e.b.die) [] s.nextId loc
  match if e.l.det then [] else s.viewBytes (e.place t) s.nextId loc 1 with
  | [b] => if b = bank then bank else if (s.freeAt [loc]).getLsbD 0 then b else bank
  | _ => bank

/-- The index list of a BKGTH, which its issue reads whole (R324). -/
def State.bankIndex (s : State) (e : Env) (t : Nat) (d : BankDesc) : IndexList :=
  match spanOf e bankXNeed d.xbase (4 * d.rows) with
  | .error x => ⟨List.replicate d.rows none, [], [], [x]⟩
  | .ok ix =>
    let segs := ix.segs.map (·.2)
    let bs := (segLocs segs).map (s.indexByte e t)
    let word (i : Nat) : List RByte := (bs.drop (4 * i)).take 4
    let bad := (List.range d.rows).find? fun i => rbBad (word i)
    ⟨(List.range d.rows).map fun i => if rbBad (word i) then none else some (rbNat (word i)), segs, ix.pages,
      (bad.map fun i => (cMEMUE, d.xbase + 4 * i)).toList⟩

/-- A BKGTH resolved at issue (R324): a raw row's blocks must fit YSTR; then every range in the order of R150, an uncorrectable index last. Of a
row whose index is unknown, only its place is checked, of a raw row one block. -/
def State.planBkgth (s : State) (e : Env) (t : Nat) (d : BankDesc) (a : Nat) (own : List (Nat × Nat)) : Except (Nat × Nat) BankPlan :=
    let ix := s.bankIndex e t d
    let wr : List (Except (Nat × Nat) (Option Stripe × List (Nat × Nat))) := ix.entries.map fun k =>
      if k = none ∨ k = some 0xFFFFFFFF then .ok (none, [])
      else (stripeAt e ((d.wbase + 16384 * k.getD 0) % 2 ^ 64)).map fun x => (some x.1, [x.2])
    let elems (i : Nat) : Nat := openElems d.cols (s.free + i)
    let lens := ((wr.zip ix.entries).zip (List.range d.rows)).map fun x => match x.1.1 with
      | .ok w => if d.rfmt ≠ 0 then d.size * d.cols else if x.1.2.isNone then 64 else 64 * s.rawBlocks e d.cols (elems x.2) w.1
      | .error _ => if d.rfmt ≠ 0 then d.size * d.cols else 64
    let yr := (lens.zip (List.range d.rows)).map fun x => spanOf e (bankYNeed false) ((d.ybase + d.ystr * x.2) % 2 ^ 64) x.1
    if (errsOf wr ++ ix.fails).isEmpty && lens.any fun n => decide (d.ystr < n) then .error (cILLEGAL, a + 36)
    else match firstCause ((ix.fails.filter fun x => x.1 != cMEMUE) ++ errsOf wr ++ errsOf yr ++ ix.fails) with
      | some x => .error x
      | none =>
        let ws := oksOf wr
        let ys := oksOf yr
        let rows := ((ws.zip ys).zip (List.range d.rows)).map fun x => match x.1.1.1 with
          | some st => BankRow.mk st.die st.vault (some st.loc) (x.1.2.segs.map (·.2)) (elems x.2) [] [] false
          | none => BankRow.mk e.b.die 0 none (x.1.2.segs.map (·.2)) (elems x.2) [] [] false
        .ok ⟨.bkgth d.rfmt d.cols d.qpri ix.segs rows, rows,
          (own ++ ix.pages ++ (ws.flatMap (·.2)) ++ (ys.flatMap (·.pages))).dedup, ys.flatMap Span.writes⟩

def State.planBank (s : State) (e : Env) (t a : Nat) (gather : Bool) : Except (Nat × Nat) BankPlan :=
  match s.readBankDesc e t a gather with
  | .error x => .error x
  | .ok d => if gather then s.planBkgth e t d a (pagesOf e a 64) else planBkmv e d (pagesOf e a 64)

/-! ### Limits (R321, R85) -/

/-- The rows of a bank operation. -/
def OpKind.bankRows : OpKind → List BankRow
  | .bkmv _ _ _ _ _ rows | .bkgth _ _ _ _ rows => rows
  | _ => []

def OpKind.qpri : OpKind → Nat
  | .bkmv _ _ _ q _ _ | .bkgth _ _ q _ _ => q
  | _ => 0

/-- Tasks of an operation that wait at a unit: a zero row waits at none. -/
def Op.waitsAt (o : Op) (die vault : Nat) : Bool :=
  o.kind.bankRows.any fun r => r.die == die && r.vault == vault && r.w.isSome && !r.taken

/-- Operations that wait at a unit. -/
def State.unitOps (s : State) (die vault : Nat) : List Op := s.ops.filter fun o => o.cls == .bk && o.waitsAt die vault

/-- Room for a thread's operation: its counter, the die's limit, the queues of its units (R321). -/
def State.bankRoom (s : State) (e : Env) (t : Nat) (rows : List BankRow) : Bool :=
  decide (s.wcnt e.g.gid t .bk < Cls.maxCount .bk) &&
    decide ((s.ops.filter fun o => o.cls == .bk && o.place.die == e.b.die).length < Config.bankInFlight) &&
    ((rows.filter fun r => r.w.isSome).map fun r => (r.die, r.vault)).dedup.all fun u => decide ((s.unitOps u.1 u.2).length < 64)

/-! ### BKMV and BKGTH (R203) -/

/-- Lines of the counting board that the lower threads of the instruction claim, then this thread's (R349). -/
def bankBoard (p : Prep) (gather : Bool) (t : Nat) : Option (Nat × Nat) :=
  if !p.e.l.det then none
  else
    let ws (u : Nat) : List (Nat × Nat × Nat) := match p.s.planBank p.e u (p.a u).toNat gather with | .ok q => q.writes | .error _ => []
    let low := (p.parts.filter (· < t)).flatMap fun u => (ws u).flatMap fun w => linesOf w.1 w.2.1
    match claimLines ((p.s.boardLines p.e.b.bid ++ low).dedup) (ws t) with
    | .error a => some (cACCESS, a)
    | .ok _ => none

/-- Issue one thread's operation, or stall it. -/
def issueBank (p : Prep) (gather : Bool) (k : State × List Nat) (t : Nat) : State × List Nat :=
  let (s, stalled) := k
  match p.s.planBank p.e t (p.a t).toNat gather with
  | .error _ => k
  | .ok q =>
    if s.bankRoom p.e t q.rows then (s.post p.e [t] .bk (some .bk) q.kind q.pages none, stalled) else (s, stalled ++ [t])

/-- Both instructions advance the free counter past what they may have used. -/
def bankExec (i : Instr) (gather : Bool) (s : State) : Host.Outcome State Fault Refusal :=
  withPrep i s fun p =>
    match p.check i fun t => match p.s.planBank p.e t (p.a t).toNat gather with
      | .error x => some x
      | .ok _ => bankBoard p gather t with
    | some s' => s'
    | none =>
      let (s1, stalled) := p.parts.foldl (issueBank p gather) (p.s, [])
      State.completePart { s1 with free := s1.free + 65536 } i p.parts stalled .held

/-- R203: BKMV. -/
def execBkmv (g : Guard) (a : Reg) (s : State) : Host.Outcome State Fault Refusal := bankExec (.bkmv g a) false s

/-- R203: BKGTH. -/
def execBkgth (g : Guard) (a : Reg) (s : State) : Host.Outcome State Fault Refusal := bankExec (.bkgth g a) true s

/-! ### BKST (R204, R331) -/

/-- Operations of a context that a unit has completed. -/
def Context.bankCount (c : Context) (die vault : Nat) : Nat := ((c.bankDone.find? fun x => x.1 == (die, vault)).map (·.2)).getD 0

/-- BKST's word; `busy` is whether a unit that has tasks computes at this moment. -/
def State.bkst (s : State) (e : Env) (die vault : Nat) (busy : Bool) : Word :=
  let work := s.unitOps die vault
  if e.c.confidential && work.any (fun o => o.ctx != e.c.num) then 0
  else
    let own := (work.filter fun o => o.ctx == e.c.num && o.queued).length
    let isBusy := busy && work.any (·.queued)
    let ret := decide (UnitId.bank die vault ∈ s.sup.retired)
    BitVec.ofNat 64 (min own 255 + 2 ^ 8 * isBusy.toNat + 2 ^ 9 * ret.toNat + 2 ^ 32 * (e.c.bankCount die vault % 2 ^ 32))

/-- R204: BKST. DESIGN CHOICE, log entry 58. -/
def execBkst (g : Guard) (d a : Reg) (s : State) : Host.Outcome State Fault Refusal :=
  let i := Instr.bkst g d a
  withPrep i s fun p =>
    let one (s : State) (t : Nat) : State :=
      let v := (p.a t).toNat
      let (busy, s1) := s.freeFlag
      s1.modGang p.e.g.gid fun g => g.writeReg d t (p.s.bkst p.e (bits v 10 8) (bits v 6 0) busy)
    (p.parts.foldl one p.s).complete i p.parts

/-! ### Arithmetic (R322, R324) -/

/-- BF16 values of an activation vector, read exactly. -/
def bf16s (n : Nat) (bs : List Byte) : List Fp := (List.range n).map fun i => (fmtBf16.unpack (fieldAt bs (2 * i) 2)).quiet

/-- BKMV's accumulation of one row and vector (R322); none marks a bad row. -/
def bankDot (cols : Nat) (bl : List (List Byte)) (x : List Fp) (a0 : W32) : Option W32 :=
  match rowFormat cols bl with
  | none => some (dotBlocks 56 x (List.replicate cols (.fin false 0 0)) a0)
  | some c =>
    let n := rowBlocks cols (blkCount c)
    if c < 3 ∨ c = 7 ∨ 256 < n then none
    else some (dotBlocks (blkCount c) x (((bl.take n).flatMap (blkInRun c)).take cols) a0)

/-- The bytes of a result of BKMV. -/
def bankResult (bf16 : Bool) (r : Option W32) : List Byte :=
  match r with
  | none => if bf16 then leBytes 2 fmtBf16.nan else leBytes 4 fmt32.nan
  | some v => if bf16 then leBytes 2 (fmtBf16.ofFp .ne (fmt32.unpack v.toNat).quiet).bits else leBytes 4 v.toNat

/-- A prior result widened to FP32 (R322). -/
def bankPrior (bf16 : Bool) (bs : List Byte) : W32 := BitVec.ofNat 32 (leNat bs * (if bf16 then 2 ^ 16 else 1))

/-- Blocks that a row's results are computed from, with poison: those of its run, or all that show it to have no format. -/
def runLen (cols : Nat) (bl : List (List Byte)) : Nat :=
  match rowFormat cols bl with
  | some c => min bl.length (rowBlocks cols (blkCount c))
  | none => bl.length

/-- Bytes of one decoded element of BKGTH. -/
def elemBytes (rfmt : Nat) (x : Fp) : List Byte :=
  if rfmt = 1 then leBytes 2 (fmtBf16.ofFp .ne x).bits else leBytes 4 (fmt32.ofFp .ne x).bits

/-- The bytes of a gathered row (R324), `elems` per block where the row has no format; a block's poison goes with what it gives. -/
def gatherRow (rfmt cols elems : Nat) (bl : List (List RByte)) : List RByte :=
  let vals := bl.map rbVals
  let mk (bad : Bool) (bs : List Byte) : List RByte := bs.map fun b => ⟨b, bad, none⟩
  let raw (n : Nat) : List RByte := (bl.take n).flatMap fun b => mk (rbBad b) (rbVals b)
  let bad := (bl.take (runLen cols vals)).any rbBad
  match rowFormat cols vals with
  | none =>
    if rfmt = 0 then raw (rowBlocks cols elems) else (List.range cols).flatMap fun _ => mk bad (elemBytes rfmt (.fin false 0 0))
  | some c =>
    let n := rowBlocks cols (blkCount c)
    if 256 < n then
      if rfmt = 0 then (List.range n).flatMap fun _ => mk bad ((255 : Byte) :: List.replicate 63 0)
      else (List.range cols).flatMap fun _ => mk bad (elemBytes rfmt (.nan false))
    else if rfmt = 0 then raw n
    else (((bl.take n).flatMap fun b => (blkInRun c (rbVals b)).map fun x => mk (rbBad b) (elemBytes rfmt x)).take cols).flatten

/-- A zero row (R203): blocks of code 0 whose byte 1 is their element count, or +0 values. -/
def zeroRow (rfmt cols elems : Nat) : List RByte :=
  let bs := if rfmt = 0 then (List.range (rowBlocks cols elems)).flatMap fun _ => (0 : Byte) :: BitVec.ofNat 8 elems :: List.replicate 62 0
    else (List.range cols).flatMap fun _ => elemBytes rfmt (.fin false 0 0)
  bs.map fun b => ⟨b, false, none⟩

/-! ### Row tasks (R258, R325, R327, R330) -/

/-- A record of an uncorrectable operand: the vault, or the home of x or of a prior result (R327). -/
def State.vaultRecord (s : State) (e : Env) (die vault loc : Nat) : State :=
  s.faultRecord { e.record s with engine := engineWord die 6 vault, addr := loc / 64 * 64 }

/-- Records of the poisoned blocks among those of a stripe. -/
def State.badBlocks (s : State) (e : Env) (die vault loc : Nat) (bl : List (List RByte)) : State :=
  ((bl.zip (List.range bl.length)).filter fun x => rbBad x.1).foldl (fun s x => s.vaultRecord e die vault (loc + 64 * x.2)) s

/-- Split bytes into runs of equal poison. -/
def poisonRuns : List RByte → List (Bool × List Byte)
  | [] => []
  | b :: bs => match poisonRuns bs with
    | (p, l) :: r => if p = b.bad then (p, b.val :: l) :: r else (b.bad, [b.val]) :: (p, l) :: r
    | [] => [(b.bad, [b.val])]

/-- Write a unit's result bytes at a location: visible to the unit, or staged (R258, R330). -/
def State.bankWrite (s : State) (e : Env) (o : Op) (die vault : Nat) : Nat → List (Bool × List Byte) → State
  | _, [] => s
  | loc, (bad, data) :: rest =>
    let t := o.place.thr
    let s1 := if e.l.det then s.modBlock e.b.bid fun b => { b with staged := stage b.staged (.bytes o.id .bk o.place loc data bad) }
      else
        let (s1, wid) := s.append loc data bad [.bank die vault] (some o.id) (s.keyAt (some e.c.num) loc)
        ((s1.note e.g.gid t o.id .bk [wid]).spoil s loc data.length).soil o.id loc data.length
    s1.bankWrite e o die vault (loc + data.length) rest

/-- Ranges of an operation's results other than one of them, and of its operands: bytes in them are unpredictable (R325). -/
def State.bankClash (s : State) (e : Env) (o : Op) (row k : Nat) : List (Nat × Nat) :=
  let rows := o.kind.bankRows
  let others := (rows.zip (List.range rows.length)).flatMap fun r =>
    ((r.1.dst.zip (List.range r.1.dst.length)).filter fun d => !(r.2 == row && d.2 == k)).map fun d => (d.1.loc, d.1.len)
  let weights (cols : Nat) : List (Nat × Nat) := rows.filterMap fun r => r.w.map fun loc =>
    (loc, 64 * runLen cols (blocksOf (maxBlocks cols) (rbVals (s.stripeBytes e r.die r.vault o.id loc (maxBlocks cols)))))
  match o.kind with
  | .bkmv _ _ cols _ xs _ => others ++ weights cols ++ xs.flatMap fun x => x.map fun g => (g.loc, g.len)
  | .bkgth _ cols _ idx _ => others ++ weights cols ++ idx.map fun g => (g.loc, g.len)
  | _ => others

/-- Free values where a result clashes. -/
def State.clashBytes (s : State) (rs : List (Nat × Nat)) : Nat → List RByte → List RByte × State
  | _, [] => ([], s)
  | loc, b :: bs =>
    let (b1, s1) := if rs.any fun r => r.1 ≤ loc && loc < r.1 + r.2 then let (v, s1) := s.freeVal; ({ b with val := v.setWidth 8 }, s1) else (b, s)
    let (bs1, s2) := s1.clashBytes rs (loc + 1) bs
    (b1 :: bs1, s2)

/-- Write one result of a row. -/
def State.bankPut (s : State) (e : Env) (o : Op) (r : BankRow) (row k loc : Nat) (bs : List RByte) : State :=
  let (bs1, s1) := s.clashBytes (s.bankClash e o row k) loc bs
  s1.bankWrite e o r.die r.vault loc (poisonRuns bs1)

/-- What a row task reads: its stripe, the activation vectors and the prior results of BKMV (R325). -/
def OpKind.rowReads (k : OpKind) (r : BankRow) : List Seg :=
  let stripe (cols : Nat) : List Seg := (r.w.map fun loc => ⟨loc, 64 * maxBlocks cols, false⟩).toList
  match k with
  | .bkmv _ acc cols _ xs _ => stripe cols ++ xs.flatten ++ (if acc then r.dst else [])
  | .bkgth _ cols _ _ _ => stripe cols
  | _ => []

/-- Operand bytes of a row as its unit reads them now, or has read them. -/
def State.rowSegs (s : State) (e : Env) (o : Op) (r : BankRow) (gs : List Seg) : List RByte :=
  s.bankSegs e (bankUnits r.die r.vault) r.seen o.id gs

/-- The blocks of a row's stripe. -/
def State.rowStripe (s : State) (e : Env) (o : Op) (r : BankRow) (cols loc : Nat) : List (List RByte) :=
  let bs := s.rowSegs e o r [⟨loc, 64 * maxBlocks cols, false⟩]
  (List.range (maxBlocks cols)).map fun k => (bs.drop (64 * k)).take 64

/-- A part of a row's results: the segment of the destination that it belongs to, its location, its bytes. -/
structure RowPart where
  seg : Nat
  loc : Nat
  data : List RByte
  deriving DecidableEq, Repr

/-- Some results of one row of BKMV, by vector, and the state after the records of bad operands (R327). -/
def State.bkmvRow (s : State) (e : Env) (o : Op) (bf16 acc : Bool) (cols : Nat) (xs : List (List Seg)) (r : BankRow) (which : Nat → Bool) :
    List RowPart × State :=
  let loc := r.w.getD 0
  let bl := s.rowStripe e o r cols loc
  let run := bl.take (runLen cols (bl.map rbVals))
  let one (k : List RowPart × State) (v : (List Seg × Seg) × Nat) : List RowPart × State :=
    let (x, y) := v.1
    let xb := x.map fun g => (g.loc, s.rowSegs e o r [g])
    let xv := xb.flatMap (·.2)
    let yb := if acc then s.rowSegs e o r [y] else []
    let a0 := if acc then bankPrior bf16 (rbVals yb) else 0
    let res := bankResult bf16 (bankDot cols (bl.map rbVals) (bf16s cols (rbVals xv)) a0)
    let bad := run.any rbBad || rbBad xv || rbBad yb
    (k.1 ++ [⟨v.2, y.loc, res.map fun b => ⟨b, bad, none⟩⟩], (xb.foldl (fun s z => s.badRecords e z.1 z.2) k.2).badRecords e y.loc yb)
  (((xs.zip r.dst).zip (List.range xs.length)).filter fun v => which v.2).foldl one
    ([], if r.written.isEmpty then s.badBlocks e r.die r.vault loc run else s)

/-- The bytes of a row from one position to another, along its destination, whose segments are numbered from k and whose first begins at
`pos`. -/
def cutRow : List Seg → Nat → Nat → Nat → Nat → List RByte → List RowPart
  | [], _, _, _, _, _ => []
  | g :: gs, k, pos, lo, hi, bs =>
    let a := max lo pos
    let b := min hi (pos + g.len)
    (if a < b then [⟨k, g.loc + (a - pos), (bs.drop a).take (b - a)⟩] else []) ++ cutRow gs (k + 1) (pos + g.len) lo hi bs

/-- Bytes of a gathered row that are one result: an element, or a raw block. -/
def gatherUnit (rfmt : Nat) : Nat := if rfmt = 0 then 64 else if rfmt = 1 then 2 else 4

/-- Results of a row (R203). -/
def OpKind.results (k : OpKind) (r : BankRow) : Nat :=
  match k with
  | .bkgth rfmt .. => ((r.dst.map (·.len)).sum + gatherUnit rfmt - 1) / gatherUnit rfmt
  | _ => r.dst.length

/-- Some results of one row of BKGTH. -/
def State.bkgthRow (s : State) (e : Env) (o : Op) (rfmt cols : Nat) (r : BankRow) (which : Nat → Bool) : List RowPart × State :=
  let bl := s.rowStripe e o r cols (r.w.getD 0)
  let bytes := if r.w.isNone then zeroRow rfmt cols r.elems else gatherRow rfmt cols r.elems bl
  let n := (OpKind.bkgth rfmt cols 0 [] []).results r
  let u := gatherUnit rfmt
  let parts := if (List.range n).all which then cutRow r.dst 0 0 0 bytes.length bytes
    else ((List.range n).filter which).flatMap fun j => cutRow r.dst 0 0 (u * j) (u * j + u) bytes
  (parts, match r.w with
    | some loc => if r.written.isEmpty then s.badBlocks e r.die r.vault loc (bl.take (runLen cols (bl.map rbVals))) else s
    | none => s)

/-- A unit serves the rows of one operation in ascending order (R321). -/
def rowTurn (rows : List BankRow) (row : Nat) (r : BankRow) : Bool :=
  (rows.take row).all fun x => x.taken || x.die != r.die || x.vault != r.vault

/-- The unit has finished an operation: its context's count rises (R331). -/
def State.countUnit (s : State) (o : Op) (die vault : Nat) : State :=
  match s.op? o.id with
  | some o1 =>
    if o1.waitsAt die vault then s
    else s.modCtx o.ctx fun c =>
      { c with bankDone := ((die, vault), (c.bankCount die vault + 1) % 2 ^ 32) :: c.bankDone.filter fun x => x.1 != (die, vault) }
  | none => s

/-- Some results of one row of an operation, and the state after the records of bad operands. -/
def State.rowResults (s : State) (e : Env) (o : Op) (r : BankRow) (which : Nat → Bool) : List RowPart × State :=
  match o.kind with
  | .bkmv bf16 acc cols _ xs _ => s.bkmvRow e o bf16 acc cols xs r which
  | .bkgth rfmt cols _ _ _ => s.bkgthRow e o rfmt cols r which
  | _ => ([], s)

/-- Change a row of a bank operation. -/
def OpKind.modRow (k : OpKind) (row : Nat) (f : BankRow → BankRow) : OpKind :=
  match k with
  | .bkmv b a c q xs rows => .bkmv b a c q xs (modNth rows row f)
  | .bkgth f' c q ix rows => .bkgth f' c q ix (modNth rows row f)
  | k => k

/-- A row task that its unit may work on: queued, not yet written, and the unit's earlier rows of the operation taken (R321). -/
def Op.rowAt (o : Op) (row : Nat) : Option BankRow :=
  (o.kind.bankRows[row]?).filter fun r => o.queued && !r.taken && rowTurn o.kind.bankRows row r

/-- Read operands of a row task (R258, R325): all of row idx, or, past the rows, one byte of row `k mod rows`: each byte that was not read
before is read by itself. -/
def State.rowRead (s : State) (o : Op) (idx : Nat) : State :=
  let n := o.kind.bankRows.length
  let (row, byte) := if idx < n then (idx, none) else ((idx - n) % n, some ((idx - n) / n))
  match o.rowAt row, s.env? o.place.gid with
  | some r, some e =>
    let all := segLocs (o.kind.rowReads r)
    let locs := match byte with
      | some k => (all[k]?).toList
      | none => all
    let new := (locs.filter fun a => r.seen.all fun x => x.1 != a).map fun a =>
      let b := s.bankByte e (bankUnits r.die r.vault) [] o.id a
      (a, b.val, b.bad)
    s.modOp o.id fun o => { o with kind := o.kind.modRow row fun r => { r with seen := r.seen ++ new } }
  | _, _ => s

/-- Compute results of a row task and write them: operands that were not read before are read now (R321, R322, R324). The row is done with
the last. -/
def State.rowPut (s : State) (o : Op) (row : Nat) (which : Nat → Bool) : State :=
  match o.rowAt row, s.env? o.place.gid with
  | some r, some e =>
    let all := List.range (o.kind.results r)
    let new := all.filter fun j => which j && j ∉ r.written
    let (res, s1) := s.rowResults e o r (· ∈ new)
    let s2 := res.foldl (fun s x => s.bankPut e o r row x.seg x.loc x.data) s1
    if all.all fun j => j ∈ r.written ++ new then
      let s3 := s2.modOp o.id fun o => { o with kind := o.kind.modRow row fun r => { r with taken := true } }
      if r.w.isSome then ((s3.countUnit o r.die r.vault).count r.die (1550 + 2 * r.vault + 1) 1).serve o.ctx r.die (1550 + 2 * r.vault) else s3
    else s2.modOp o.id fun o => { o with kind := o.kind.modRow row fun r => { r with written := r.written ++ new } }
  | _, _ => s

/-- Every result of a row that is still to be written. -/
def State.rowWrite (s : State) (o : Op) (row : Nat) : State := s.rowPut o row fun _ => true

/-- WRITE of piece idx of a bank operation: of row idx all results, or, past the rows, one result of row `k mod rows` (R250). -/
def State.pieceWrite (s : State) (o : Op) (idx : Nat) : State :=
  let n := o.kind.bankRows.length
  if idx < n then s.rowWrite o idx else s.rowPut o ((idx - n) % n) (· == (idx - n) / n)

/-- R321, R322, R324: ROW_TASK: a unit computes one row of a queued operation and writes the results that are left. DEDUCED, log entry 57. -/
def execRowTask (op row : Nat) (s : State) : Host.Outcome State Fault Refusal :=
  .next (match s.op? op with
    | none => s
    | some o => s.rowWrite o row)

/-- A bank operation is done when every result has been written (R203). -/
def bankDone (rows : List BankRow) : Bool := rows.all (·.taken)

end Sys2Proof.Machine
end

