-- ==== Sys2Proof/Machine/Control.lean ====
section
/-! DEFINITION. Special-register moves, transfers of control, ending, waiting, traps and the replay queue (R104 to R119), and
lane-serialised turns (R144, R245). -/

namespace Sys2Proof.Machine
open Host

/-! ### Special-register moves (R77, R78, R82 to R84, R104) -/

def isReserved (n : Nat) : Bool := 0x25 < n
def isTrapReg (n : Nat) : Bool := 0x20 ≤ n && n ≤ 0x25
def isWritable (n : Nat) : Bool := n ∈ [0x12, 0x13, 0x14, 0x15, 0x19, 0x21, 0x22]

/-- R104, R78: MOVS reads a special register. -/
def execMovs (g : Guard) (d : Reg) (sr : BitVec 8) (s : State) : Host.Outcome State Fault Refusal :=
  let i := Instr.movs g d sr
  withPrep i s fun p =>
    let n := sr.toNat
    let bad := if isReserved n then some cILLEGAL else if isTrapReg n ∧ p.e.g.trap.isNone then some cPRIV else none
    match p.check i fun _ => bad.map fun c => (c, 0) with
    | some s' => s'
    | none =>
      State.complete (p.s.modGang p.e.g.gid fun g =>
        p.parts.foldl (fun g t => g.writeReg d t ((p.s.sreg p.e t n).getD 0)) g) i p.parts

/-- A MOVSW to %fpc of bits that name no rounding mode (R83). -/
def badRounding (v : Word) : Bool := v.toNat % 8 = 0 ∨ 4 < v.toNat % 8

/-- What MOVSW writes for one thread (R81 to R84). -/
def Thread.writeSreg (x : Thread) (n : Nat) (v : Word) : Thread :=
  match n with
  | 0x13 => { x with fpc := v &&& 7 }
  | 0x14 => { x with fst := v &&& 0x1F }
  | 0x15 => { x with hsp := v &&& ~~~0x1F }
  | 0x19 => { x with olth := (v.setWidth 32).setWidth 64 }
  | 0x21 => { x with tepc := v }
  | _ => x

/-- Threads leave trap mode: they resume at their own %tepc; trap mode ends when no thread is left (R374, R376). -/
def Gang.leaveTrap (g : Gang) (out : List Nat) (resume : Bool) : Gang :=
  match g.trap with
  | none => g
  | some m =>
    let mask := m.mask.filter (· ∉ out)
    { g with trap := if mask.isEmpty then none else some { m with mask := mask },
             threads := if resume then g.threads.map fun x =>
                 if x.thr ∈ m.mask ∧ x.thr ∈ out then { x with pc := x.tepc.toNat, stall := .none } else x
               else g.threads }

/-- R104, R78: MOVSW writes a special register; a gang-scope register takes the highest participating thread's value. DEDUCED, log entry 52.
A read-only trap-mode register outside trap mode is both PRIV and ILLEGAL (R78, R104), and the rule gives no order: PRIV. DESIGN CHOICE, log entry 94. -/
def execMovsw (g : Guard) (sr : BitVec 8) (src : Opnd) (s : State) : Host.Outcome State Fault Refusal :=
  let i := Instr.movsw g sr src
  withPrep i s fun p =>
    let n := sr.toNat
    let bad (t : Nat) : Option (Nat × Nat) :=
      if isReserved n ∨ (!isWritable n ∧ !isTrapReg n) then some (cILLEGAL, 0)
      else if isTrapReg n ∧ p.e.g.trap.isNone then some (cPRIV, 0)
      else if !isWritable n then some (cILLEGAL, 0)
      else if n = 0x13 ∧ badRounding (p.a t) then some (cILLEGAL, 0) else none
    match p.check i bad with
    | some s' => s'
    | none =>
      let s1 := p.s.modGang p.e.g.gid fun g => p.parts.foldl (fun g t => g.modThread t fun x => x.writeSreg n (p.a t)) g
      let s2 := s1.complete i p.parts
      match p.parts.getLast? with
      | none => s2
      | some t =>
        if n = 0x12 then s2.modGang p.e.g.gid fun g => { g with tmr := p.a t }
        else if n = 0x22 then s2.modGang p.e.g.gid fun g =>
          g.leaveTrap (((g.trap.map (·.mask)).getD []).filter fun u => !(p.a t).getLsbD u) true
        else s2

/-! ### Transfers of control (R105 to R108) -/

/-- The targets of a transfer, checked in every participating thread. -/
def Prep.targets (p : Prep) (target : Nat → Nat) : List (Nat × Except FetchErr Nat) :=
  p.parts.map fun t => (t, checkTarget p.s p.e.c (p.e.place t).units true (target t))

/-- A thread's failing target (R45). -/
def badTarget (ts : List (Nat × Except FetchErr Nat)) (t : Nat) : Option (Nat × Nat) :=
  ts.findSome? fun x => match x.2 with
    | .error e => if x.1 = t then some e.pair else none
    | .ok _ => none

/-- A branch, call or return: every target checked first, the return address written, each thread to its own target (R105, R108).
A failing read of a safe-point map (R52) stands, as a queue cause, in the replay queue. DEDUCED, log entry 95. -/
def transfer (i : Instr) (s : State) (link : Option Reg) (target : Prep → Nat → Nat) : Host.Outcome State Fault Refusal :=
  withPrep i s fun p =>
    let ts := p.targets (target p)
    match p.check i fun t => badTarget ts t with
    | some s' => s'
    | none =>
      let s1 := match link with
        | some d => p.s.modGang p.e.g.gid fun g => p.parts.foldl (fun g t => g.writeReg d t (BitVec.ofNat 64 p.s.cur.next)) g
        | none => p.s
      (s1.complete i p.parts).jump p.e.g.gid (ts.filterMap fun x => match x.2 with | .ok a => some (x.1, a) | .error _ => none)

/-- The address of a PC-relative target (R106). -/
def Target.addr (pc : Nat) : Target → Nat
  | .parcels off => (BitVec.ofNat 64 pc + off.signExtend 64 * 4).toNat
  | .bytes off => (BitVec.ofNat 64 pc + off.signExtend 64).toNat

/-- R106: BRA. -/
def execBra (g : Guard) (target : Target) (s : State) : Host.Outcome State Fault Refusal :=
  transfer (.bra g target) s none fun p _ => Target.addr p.s.cur.pc target

/-- R107: BRX. -/
def execBrx (g : Guard) (a : Reg) (b : Opnd) (s : State) : Host.Outcome State Fault Refusal :=
  transfer (.brx g a b) s none fun p t => (p.a t + p.b t).toNat

/-- R106, R108: CALL. -/
def execCall (g : Guard) (d : Reg) (target : Target) (s : State) : Host.Outcome State Fault Refusal :=
  transfer (.call g d target) s (some d) fun p _ => Target.addr p.s.cur.pc target

/-- R107, R108: CALLX; the target is read before the link register is written. -/
def execCallx (g : Guard) (d a : Reg) (b : Opnd) (s : State) : Host.Outcome State Fault Refusal :=
  transfer (.callx g d a b) s (some d) fun p t => (p.a t + p.b t).toNat

/-- R107: RET. -/
def execRet (g : Guard) (a : Reg) (s : State) : Host.Outcome State Fault Refusal :=
  transfer (.ret g a) s none fun p t => (p.a t).toNat

/-- R55: S-form RET. -/
def execRetS (a : Reg) (s : State) : Host.Outcome State Fault Refusal :=
  transfer (.retS a) s none fun p t => (p.a t).toNat

/-! ### Ending (R109) -/

/-- The end of a thread's LSER turn (R144, R245). -/
def State.endTurn (s : State) (gid t : Nat) : State :=
  if ((s.thread? gid t).map fun x => x.lser == .turn).getD false then
    State.modGang { s with nextId := s.nextId + 1 } gid fun g =>
      { g.modThread t (fun x => { x with lser := .none }) with lastTurn := some (t, s.nextId) }
  else s.modThread gid t fun x => { x with lser := .none }

/-- EXIT of one thread: it drops from its barriers, ends its turn, and leaves trap mode; its tokens are dead (R109, R144, R376). -/
def State.exitThread (s : State) (e : Env) (t : Nat) (saved : Bool) : State :=
  match s.thread? e.g.gid t, s.block? e.b.bid with
  | some x, some b =>
    let s1 := (b.regsOf x).foldl (fun s off => s.dropFrom e t off) s
    let s2 := (s1.endTurn e.g.gid t).modThread e.g.gid t fun x => { x with exited := true, saved := saved, wtime := none, bwait := none, timers := [] }
    s2.modGang e.g.gid fun g => g.leaveTrap [t] false
  | _, _ => s

def exitExec (i : Instr) (saved : Bool) (s : State) : Host.Outcome State Fault Refusal :=
  withPrep i s fun p =>
    match (if saved ∧ (p.e.g.trap.all fun m => m.cause != cPREEMPT) then p.failAll i cPRIV else none) with
    | some s' => s'
    | none =>
      let s1 := p.s.complete i p.parts
      let s2 := p.parts.foldl (fun s t => s.exitThread p.e t saved) s1
      if saved ∧ !p.parts.isEmpty then s2.modBlock p.e.b.bid fun b => { b with saved := true } else s2

/-- R109: EXIT. -/
def execExit (g : Guard) (s : State) : Host.Outcome State Fault Refusal := exitExec (.exit g) false s

/-- R55: S-form EXIT. -/
def execExitS (s : State) : Host.Outcome State Fault Refusal := exitExec .exitS false s

/-- R109: EXIT.saved, legal in a PREEMPT trap only; it marks the block SAVED. -/
def execExitSaved (g : Guard) (s : State) : Host.Outcome State Fault Refusal := exitExec (.exitSaved g) true s

/-! ### Pacing and waiting (R110 to R113) -/

/-- Move the PC that the group reaches to the back of the rotation (R208). -/
def Gang.toBack (g : Gang) (pc : Nat) : Gang := { g with rotation := (g.rotation.filter fun w => w.pc != pc) ++ [⟨pc, 0, true⟩] }

def yieldExec (i : Instr) (s : State) : Host.Outcome State Fault Refusal :=
  withPrep i s fun p => (p.s.complete i p.parts).modGang p.e.g.gid fun g => if p.parts.isEmpty then g else g.toBack p.s.cur.next

/-- R110: YIELD. -/
def execYield (g : Guard) (s : State) : Host.Outcome State Fault Refusal := yieldExec (.yield g) s

/-- R55: S-form YIELD. -/
def execYieldS (s : State) : Host.Outcome State Fault Refusal := yieldExec .yieldS s

/-- R110: NOP. -/
def execNop (g : Guard) (s : State) : Host.Outcome State Fault Refusal :=
  withPrep (.nop g) s fun p => p.s.complete (.nop g) p.parts

/-- A counter is at or below its limit, or is not waited on (R111). -/
def limitOk (count limit off : Nat) : Bool := limit == off || count ≤ limit

/-- The condition of WAIT for a thread (R111). -/
def State.waitOk (s : State) (gid t : Nat) (ld st cp tl bk : Nat) : Bool :=
  limitOk (s.wcnt gid t .ld) ld 0xFF && limitOk (s.wcnt gid t .st) st 0xFF && limitOk (s.wcnt gid t .cp) cp 0xFF
    && limitOk (s.wcnt gid t .mx) tl 0xFF && limitOk (s.wcnt gid t .bk) bk 0xF

/-- Matrix operations of threads that are done and that a WAIT covers: all but the last of them, as many as its limit allows beside those
outstanding (R111, R199). -/
def State.coverPasses (s : State) (e : Env) (ts : List Nat) (limit : Nat) : State :=
  if limit = 0xFF ∨ e.b.passed.isEmpty then s
  else
    let stays (ps : List Passed) (x : Passed) : Bool :=
      !(x.gid == e.g.gid && x.thr ∈ ts) ||
        decide ((ps.filter fun y => y.gid == x.gid && y.thr == x.thr && x.op < y.op).length < limit - s.wcnt e.g.gid x.thr .mx)
    s.modBlock e.b.bid fun b => { b with passed := b.passed.filter (stays b.passed) }

/-- The threads that meet their limits go on; in deterministic mode the group stays together, so that latency never reorders it (R208). -/
def waitExec (i : Instr) (ld st cp tl bk : Nat) (s : State) : Host.Outcome State Fault Refusal :=
  withPrep i s fun p =>
    let waits := p.parts.filter fun t => !p.s.waitOk p.e.g.gid t ld st cp tl bk
    if p.e.l.det && !waits.isEmpty then p.s0.stallAt p.s.cur.mask .held
    else (p.s.coverPasses p.e (p.parts.filter (· ∉ waits)) tl).completePart i p.parts waits .held

/-- R111: WAIT stalls until every counter is at or below its limit. -/
def execWait (g : Guard) (ld st cp tl : BitVec 8) (bk : BitVec 4) (s : State) : Host.Outcome State Fault Refusal :=
  waitExec (.wait g ld st cp tl bk) ld.toNat st.toNat cp.toNat tl.toNat bk.toNat s

/-- A nibble of the S form as a field of the L form (R56). -/
def nibLimit (n : BitVec 4) : Nat := if n.toNat = 15 then 0xFF else n.toNat

/-- R56: S-form WAIT. -/
def execWaitS (ld st cp tl : BitVec 4) (s : State) : Host.Outcome State Fault Refusal :=
  waitExec (.waitS ld st cp tl) (nibLimit ld) (nibLimit st) (nibLimit cp) (nibLimit tl) 0xF s

/-- R112: WTIME stalls until %wall reaches the deadline; d receives %wall as the thread leaves the stall. -/
def execWtime (g : Guard) (d a : Reg) (s : State) : Host.Outcome State Fault Refusal :=
  let i := Instr.wtime g d a
  withPrep i s fun p =>
    let wall := p.s.wall p.e.b.die
    let waits := p.parts.filter fun t => wall < (p.a t).toNat
    let ends := p.parts.filter (· ∉ waits)
    let s1 := p.s.modGang p.e.g.gid fun g =>
      let g1 := ends.foldl (fun g t => (g.writeReg d t (BitVec.ofNat 64 wall)).modThread t fun x => { x with wtime := none }) g
      waits.foldl (fun g t => g.modThread t fun x => { x with wtime := some (d, (p.a t).toNat) }) g1
    s1.completePart i p.parts waits .poll

/-- R112: WTIME_DEADLINE: %wall has reached the deadline; the thread leaves its stall, and WTIME ends when it issues again. -/
def execWtimeDeadline (gid thr : Nat) (s : State) : Host.Outcome State Fault Refusal :=
  .next (match s.gang? gid with
    | some g =>
      match g.thread? thr, s.blockOf g with
      | some x, some b =>
        match x.wtime with
        | some (_, deadline) => if x.stall ≠ .none ∧ deadline ≤ s.wall b.die then s.modThread gid thr fun x => { x with stall := .none } else s
        | none => s
      | _, _ => s
    | none => s)

/-! ### Traps and the replay queue (R114, R116, R117) -/

/-- R114: TRAP. -/
def execTrap (g : Guard) (code : BitVec 14) (s : State) : Host.Outcome State Fault Refusal :=
  let i := Instr.trap g code
  withPrep i s fun p =>
    match p.check i fun _ => some (cTRAP, code.toNat) with
    | some s' => s'
    | none => p.s.complete i p.parts

/-- R116: RTT leaves trap mode: its whole mask goes to %tepc, and the queue's entries are run first. -/
def execRtt (g : Guard) (s : State) : Host.Outcome State Fault Refusal :=
  let i := Instr.rtt g
  withPrep i s fun p =>
    match p.parts, p.e.g.trap with
    | [], _ => p.s.complete i p.parts
    | _, none => (p.failAll i cPRIV).getD p.s
    | _, some m =>
      let ts := m.mask.map fun t => (t, checkTarget p.s p.e.c (p.e.place t).units false (((p.e.g.thread? t).map (·.tepc.toNat)).getD 0))
      let bad := ts.filterMap fun x => match x.2 with | .error e => some (x.1, e) | .ok _ => none
      match bad with
      | (_, e) :: _ =>
        p.s0.trapAt e.cause e.sub ((bad.filter fun x => x.2.cause == e.cause).map fun x => ⟨x.1, BitVec.ofNat 64 x.2.addr, 0⟩)
      | [] =>
        let pcs := ts.filterMap fun x => match x.2 with | .ok a => some (x.1, a) | .error _ => none
        (p.s.settleIssue i p.parts).modGang p.e.g.gid fun g =>
          { g with trap := none, reinj := if m.queue.isEmpty then none else some ⟨m.queue, m.mask⟩,
                   threads := g.threads.map fun x => match alGet pcs x.thr with
                     | some a => { x with pc := a, stall := .none }
                     | none => x }

/-- A selected operand of a thread in an entry. -/
def RqEntry.opnd (q : RqEntry) (t : Nat) (k : Slot) : Cap := (((q.ops.find? fun o => o.thr == t)).map fun o => o.get k).getD .none

def slotOf (sel : Nat) : Option Slot :=
  match sel with
  | 4 => some .a | 5 => some .b | 6 => some .c | 7 => some .d | _ => none

def RqEntry.stateNat (q : RqEntry) : Nat := q.faulted.toNat + 2 * q.partialDone.toNat + 4 * q.skip.toNat

/-- What RQRD reads (R117). -/
def RqEntry.read (q : RqEntry) (t sel : Nat) : Cap :=
  let w (n : Nat) : Cap := .val (BitVec.ofNat 64 n)
  match sel with
  | 0 => w q.pc
  | 1 => .val q.enc
  | 2 => w q.lit.toNat
  | 3 => w (maskNat q.mask)
  | 8 => w q.stateNat
  | n => match slotOf n with | some k => q.opnd t k | none => .none

/-- Write a captured value to a register: poison travels whole (R151). -/
def Gang.writeCap (g : Gang) (r : Reg) (t : Nat) (c : Cap) : Gang :=
  match c with
  | .bad v code addr => (g.writeReg r t v).poisonReg r t code addr
  | c => g.writeReg r t c.word

/-- RQRD and RQWR prepare without tripping on poison (R151). Outside trap mode a sel that is ILLEGAL traps so, not PRIV: the rule gives no
order (R117). DESIGN CHOICE, log entry 96. -/
def withRq (i : Instr) (sel : BitVec 4) (s : State) (k : Prep → TrapMode → State) : Host.Outcome State Fault Refusal :=
  .next (match prepareWith true i s with
    | .error s' => s'
    | .ok p =>
      let bad := if 8 < sel.toNat then some cILLEGAL else if p.e.g.trap.isNone then some cPRIV else none
      match p.check i fun _ => bad.map fun c => (c, 0) with
      | some s' => s'
      | none => match p.e.g.trap with
        | some m => (k p m).complete i p.parts
        | none => p.s.complete i p.parts)

/-- R117: RQRD reads an entry of the replay queue; 0 past its end. -/
def execRqrd (g : Guard) (d a : Reg) (sel : BitVec 4) (s : State) : Host.Outcome State Fault Refusal :=
  withRq (.rqrd g d a sel) sel s fun p m =>
    p.s.modGang p.e.g.gid fun g =>
      p.parts.foldl (fun g t => match m.queue[(p.a t).toNat]? with
        | some q => g.writeCap d t (q.read t sel.toNat)
        | none => g.writeReg d t 0) g

/-- What RQWR writes for one thread (R117): read-only fields stay; MASK only clears; STATE takes SKIP. -/
def RqEntry.write (q : RqEntry) (t sel : Nat) (v : Cap) : RqEntry :=
  match sel with
  | 3 => { q with mask := q.mask.filter fun u => v.word.getLsbD u }
  | 8 => { q with skip := v.word.getLsbD 2 }
  | n => match slotOf n with
    | some k => { q with ops := q.ops.map fun o => if o.thr = t then o.set k v else o }
    | none => q

/-- R117: RQWR edits an entry; a gang-wide field takes the highest participating thread's write. DEDUCED, log entry 51. -/
def execRqwr (g : Guard) (a b : Reg) (sel : BitVec 4) (s : State) : Host.Outcome State Fault Refusal :=
  withRq (.rqwr g a b sel) sel s fun p m =>
    let queue := p.parts.foldl (fun q t =>
      if sel = 3 ∧ (p.parts.any fun u => t < u ∧ p.a u = p.a t) then q
      else modNth q (p.a t).toNat fun e => e.write t sel.toNat ((p.op t).get .b)) m.queue
    p.s.modGang p.e.g.gid fun g => { g with trap := g.trap.map fun m => { m with queue := queue } }

/-- R119: TLBINV, in trap mode only. Translations are never held stale here, so nothing is left to drop. -/
def execTlbinv (g : Guard) (a b : Reg) (s : State) : Host.Outcome State Fault Refusal :=
  let i := Instr.tlbinv g a b
  withPrep i s fun p =>
    match (if p.e.g.trap.isNone then p.failAll i cPRIV else none) with
    | some s' => s'
    | none => State.complete { p.s with line := none } i p.parts

/-! ### Lane-serialised turns (R144, R245) -/

/-- The turn that ended last has completed its loads, stores and atomics (R245). -/
def State.turnFree (s : State) (e : Env) (g : Gang) : Bool :=
  (g.threads.all fun x => x.lser != .turn) &&
  (match g.lastTurn with
   | some (t, id) => s.completedAt (e.place t) id arriveSet Scope.gang.level
   | none => true)

/-- LSER of one thread: it is inside a turn, begins one, or waits. -/
def lserOne (s : State) (e : Env) (g : Gang) (t : Nat) : Gang :=
  match g.thread? t with
  | some x =>
    if x.lser = .turn then g
    else if s.turnFree e g && g.threads.all fun y => !(y.thr < t && y.lser == .waiting && y.live) then
      g.modThread t fun x => { x with lser := .turn }
    else g.modThread t fun x => { x with lser := .waiting }
  | none => g

/-- R144: LSER: threads of a gang take turns in ascending order. -/
def execLser (g : Guard) (s : State) : Host.Outcome State Fault Refusal :=
  let i := Instr.lser g
  withPrep i s fun p =>
    let g1 := p.parts.foldl (lserOne p.s p.e) p.e.g
    let waits := p.parts.filter fun t => ((g1.thread? t).map fun x => x.lser == .waiting).getD false
    (p.s.modGang p.e.g.gid fun _ => g1).completePart i p.parts waits .poll

/-- R144: LSEND ends the turn of a thread that is in one. -/
def execLsend (g : Guard) (s : State) : Host.Outcome State Fault Refusal :=
  let i := Instr.lsend g
  withPrep i s fun p =>
    let s1 := p.parts.foldl (fun s t =>
      if ((s.thread? p.e.g.gid t).map fun x => x.lser == .turn).getD false then s.endTurn p.e.g.gid t else s) p.s
    s1.complete i p.parts

end Sys2Proof.Machine
end

