-- ==== Sys2Proof/Machine/Engines.lean ====
section
/-! DEFINITION. The transitions of engine operations (R250, R253, R256 to R258): ENQUEUE, READ, WRITE, LAND and DONE of a copy, a
matrix operation or a bank operation. A matrix operation reads at its DONE, where a free choice stands for its Reads before (R257), and MSTA
writes at DONE the rows that no WRITE has taken before; a bank operation reads operands of a row at READ and the others at its row's task. -/

namespace Sys2Proof.Machine
open Host

/-- Requests of a gang enter the granted order of a matrix engine in program order (R269). -/
def State.mxInOrder (s : State) (o : Op) : Bool :=
  s.ops.all fun x => !(x.cls == .mx && x.place.gid == o.place.gid && x.id < o.id) || x.queued

/-- May an operation enter its engine now (R253, R239, R269)? -/
def State.mayEnqueue (s : State) (o : Op) : Bool :=
  !o.queued && s.enabled o && (match o.cls with
    | .cp => s.copyMayStart o
    | .mx => s.mxInOrder o
    | .bk => true
    | _ => false)

/-- R250: ENQUEUE: an operation leaves its issue buffer for its engine. -/
def execEnqueue (op : Nat) (s : State) : Host.Outcome State Fault Refusal :=
  .next (match s.op? op with
    | some o => if s.mayEnqueue o then s.modOp op fun o => { o with queued := true } else s
    | none => s)

/-- R250, R256, R258: READ of piece idx of a copy, or of operands of a bank operation. -/
def execRead (op idx : Nat) (s : State) : Host.Outcome State Fault Refusal :=
  .next (match s.op? op with
    | some o => match o.kind with
      | .copy tg bar rows => s.copyRead o tg bar rows idx
      | .bkmv .. | .bkgth .. => s.rowRead o idx
      | _ => s
    | none => s)

/-- R250, R256, R258: WRITE of piece idx of a copy, of results of a bank operation, or of a row that an MSTA has still to write. -/
def execWrite (op idx : Nat) (s : State) : Host.Outcome State Fault Refusal :=
  .next (match s.op? op with
    | some o => match o.kind with
      | .copy tg bar rows => s.copyWrite o tg bar rows idx
      | .msta bf16 t rows => s.mxWrite o bf16 t rows idx
      | .bkmv .. | .bkgth .. => s.pieceWrite o idx
      | _ => s
    | none => s)

/-- R168, R177, R250: LAND: the bytes of piece idx of a copy have landed, and count. -/
def execLand (op idx : Nat) (s : State) : Host.Outcome State Fault Refusal :=
  .next (match s.op? op with
    | some o => match o.kind with
      | .copy tg bar rows => s.copyLand o tg bar rows idx
      | _ => s
    | none => s)

/-- Is an engine operation ready to be done (R168, R199, R203)? -/
def State.mayFinish (s : State) (o : Op) : Bool :=
  match o.kind with
  | .copy _ _ rows => o.queued && copyDone rows
  | .bkmv .. | .bkgth .. => o.queued && bankDone o.kind.bankRows
  | .mldw .. | .mswap .. | .mpass .. | .mzero .. | .mmov .. | .msta .. => s.grantTurn o
  | _ => false

/-- The operation of a deterministic block keeps what it translated through until the block's results are released (R304). -/
def State.pin (s : State) (o : Op) : State :=
  if (s.env? o.place.gid).any fun e => e.l.det then s.modBlock o.place.bid fun b => { b with pins := b.pins ++ [(o.id, o.pages)] } else s

/-- R250: DONE: an engine operation is complete: it leaves its counters and releases its pins. DEDUCED, log entry 55. -/
def execDone (op : Nat) (s : State) : Host.Outcome State Fault Refusal :=
  .next (match s.op? op with
    | some o =>
      if s.mayFinish o then (if o.cls = .mx then s.withRods o (s.mxDone o) else (s.pin o).dropOp op) else s
    | none => s)

end Sys2Proof.Machine
end

