-- ==== Sys2Proof/Machine/Threads.lean ====
section
/-! DEFINITION. Transitions of gangs: fetching ahead (R48, R49), running ahead of a WAIT and its confirmation (R213 to R215), traps
that are due (R353, R359), swaps (R209 to R211), and the ends of gangs and blocks (R109). -/

namespace Sys2Proof.Machine
open Host

/-! ### Running ahead (R213, R214) -/

/-- The limits of the WAIT that a gang has run past: LD, ST, CP, TL, BK. -/
def State.specLimits (s : State) (e : Env) (sp : Spec) : Option (Nat × Nat × Nat × Nat × Nat) :=
  match fetchGo s e.c (e.place (sp.thrs.headD 0)).units 2 sp.pc with
  | .error _ => none
  | .ok f =>
    match f.instr with
    | some (.wait _ ld st cp tl bk) => some (ld.toNat, st.toNat, cp.toNat, tl.toNat, bk.toNat)
    | some (.waitS ld st cp tl) => some (nibLimit ld, nibLimit st, nibLimit cp, nibLimit tl, 0xF)
    | _ => none

/-- Speculation whose unresolved point has resolved, for the operations before it, is confirmed; the WAIT itself counts as issued (R213, R387). -/
def State.confirmGang (s : State) (g : Gang) : State :=
  match g.spec, s.env? g.gid with
  | some sp, some e =>
    let sure (s : State) : State := (s.count e.b.die (7 * e.b.core) 1).modGang g.gid fun g => { g with spec := none }
    let s0 := { s with ops := s.ops.filter fun o => decide (o.id < sp.first) }
    match s.specLimits e sp with
    | none => sure s
    | some (ld, st, cp, tl, bk) => if sp.thrs.all fun t => s0.waitOk g.gid t ld st cp tl bk then sure (s.coverPasses e sp.thrs tl) else s
  | some _, none => s.modGang g.gid fun g => { g with spec := none }
  | none, _ => s

def State.confirm (s : State) : State := s.gangs.foldl State.confirmGang s

def isWait (i : Instr) : Bool := match i with | .wait .. | .waitS .. => true | _ => false

/-- A gang runs past the WAIT at which threads of it stand stalled, which is not the first of a pair: what a squash restores is kept, and the
threads go on; the WAIT is one issue step (R208, R212, R213). -/
def State.runAhead (s : State) (g : Gang) (f : Fetched) : State :=
  let ts := (g.threads.filter fun x => !x.exited && x.pc == f.pc && x.stall != .none).map (·.thr)
  if !(f.instr.map isWait).getD false || f.pair.isSome || ts.isEmpty || g.spec.isSome || g.trap.isSome || g.reinj.isSome || !g.pend.isEmpty || g.stopped then s
  else
    s.modGang g.gid fun g =>
      { g.rotate (s.heldThreads g.gid) f.pc with
               early := [],
               spec := some ⟨f.pc, ts, s.nextId, 0, g.threads, g.rods, g.descs, g.pendRcp, g.poison, g.regen, g.tmr, g.rotation⟩,
               threads := g.threads.map fun x => if x.thr ∈ ts then { x with pc := f.next, stall := .none } else x }

/-- R48, R49, R213: FETCH: a line is fetched for a gang before it is needed; a line that cannot be read raises nothing. With `spec`,
the gang begins to issue past the WAIT at `pc`. DEDUCED, log entry 41. -/
def execFetch (gid pc : Nat) (spec : Bool) (s : State) : Host.Outcome State Fault Refusal :=
  .next (match s.env? gid with
    | none => s
    | some e =>
      let us := (e.place 0).units
      match readLine s e.c us pc with
      | .error _ => s
      | .ok l =>
        let s1 := { s with line := some ⟨gid, lineOf pc, l⟩ }
        if spec then (match fetchGo s e.c us 2 pc with
          | .ok f => s1.runAhead e.g f
          | .error _ => s1)
        else s1)

/-- R215: SQUASH: a gang's speculative instructions leave no trace but timing. -/
def execSquash (gid : Nat) (s : State) : Host.Outcome State Fault Refusal := .next (s.squash gid)

/-! ### Traps that are due (R353, R359, R372) -/

/-- Threads of a gang that held operations keep at their instruction (R289). -/
def State.heldOf (s : State) (gid : Nat) : List Nat := (s.ops.filter fun o => o.place.gid == gid && o.hold.isSome).flatMap (·.thrs)

/-- The threads of a due trap that have not exited. -/
def Gang.pendLive (g : Gang) (p : PendTrap) : List Nat := p.thrs.filter fun t => (g.thread? t).any Thread.live

/-- Something of a gang is under way that no image holds (R355): a re-injection, a trap or a TIMER that is due, a CAPPEND with the list that
LISTFULL gave, an arrival that its phase has no room for. -/
def State.midway (s : State) (g : Gang) : Bool :=
  g.reinj.isSome || (g.pend.any fun p => !(g.pendLive p).isEmpty) || (g.threads.any fun x => !x.exited && (x.relist.isSome || !x.timers.isEmpty)) ||
    (s.ops.any fun o => o.place.gid == g.gid && o.hold.any (·.again)) ||
    s.arrivals.any fun a => a.place.gid == g.gid && !s.countable a && s.completedAt a.place a.id arriveSet Scope.block.level

/-- While its context halts, a gang goes on until nothing of that kind is left in its block (R354). DEDUCED, log entry 76. -/
def State.goesOn (s : State) (g : Gang) : Bool := s.gangs.any fun h => h.bid == g.bid && s.midway h

/-- Those of them inside the gang's trap mode, which a trap that cannot wait reaches at once. -/
def Gang.pendInside (g : Gang) (p : PendTrap) : List Nat :=
  match g.trap with
  | some m => if p.cause = cPREEMPT then [] else (g.pendLive p).filter (· ∈ m.mask)
  | none => []

/-- The due trap of a gang that is delivered now: CODE_GONE and BADTARGET reach threads in trap mode at once; any other waits for the end of
trap mode, and for the held operations of its threads. -/
def State.pendNow (s : State) (g : Gang) : Option PendTrap :=
  g.pend.find? fun p => (g.pendLive p).isEmpty || !(g.pendInside p).isEmpty ||
    (g.trap.isNone && g.reinj.isNone && (g.pendLive p).all fun t => t ∉ s.heldOf g.gid)

/-- Deliver a due trap; the PDL of its region runs from the delivery of PREEMPT (R353). -/
def State.deliverPend (s : State) (g : Gang) (p : PendTrap) : State :=
  let who := if (g.pendInside p).isEmpty then g.pendLive p else g.pendInside p
  let tepc (t : Nat) : Nat := ((g.thread? t).map (·.pc)).getD 0
  let s1 := s.modGang g.gid fun g =>
    { g with pend := g.pend.erase p, preempted := if p.cause = cPREEMPT ∧ !who.isEmpty then some (s.wall 0) else g.preempted }
  if who.isEmpty then s1
  else s1.deliver g.gid p.cause 0 (who.map fun t => ⟨t, if p.cause = cBADTARGET then BitVec.ofNat 64 (tepc t) else 0, 0⟩) [] tepc

/-- R372: TRAP_DELIVERY: PREEMPT, CODE_GONE, or BADTARGET of a saved or entry PC, is delivered at an instruction boundary. DESIGN CHOICE, log entry 88. -/
def execTrapDelivery (gid : Nat) (s : State) : Host.Outcome State Fault Refusal :=
  let s1 := s.squash gid
  .next (match (s.gang? gid).bind s.pendNow, s1.gang? gid with
    | some p, some g => s1.deliverPend g p
    | _, _ => s)

/-! ### Swaps (R209, R210, R211) -/

def State.sameCore (s : State) (a b : Gang) : Bool :=
  match s.blockOf a, s.blockOf b with
  | some x, some y => x.die == y.die && x.core == y.core
  | _, _ => false

def State.activeOn (s : State) (g : Gang) : Nat := (s.gangs.filter fun h => h.active && s.sameCore g h).length

/-- Threads held by an operation whose end counts as a long-latency dependence (R210): a store at a KEEP home, a compaction operation. -/
def State.longHeld (s : State) (gid : Nat) : List Nat :=
  (s.ops.filter fun o => o.place.gid == gid && o.hold.isSome && (o.kind.isCx || (match o.kind with | .keepStore .. => true | _ => false))).flatMap
    (·.thrs)

/-- Every live thread of a gang waits on a long-latency dependence; any other stall keeps the gang in the active set (R210). -/
def State.allWait (s : State) (g : Gang) : Bool :=
  let held := s.longHeld g.gid
  g.spec.isNone && g.threads.all fun x => x.exited || x.stall == .poll || x.stall == .held || x.thr ∈ held || (g.trap.any fun m => x.thr ∉ m.mask)

/-- A gang has a ready thread, or an entry ready to be re-injected (R206, R210). -/
def State.hasReady (s : State) (g : Gang) : Bool :=
  match g.reinj with
  | some r => g.threads.all fun x => x.thr ∉ r.mask || x.stall == .none
  | none => !(g.able (s.heldThreads g.gid) false).isEmpty

/-- A pending gang is the one of its core that has had a ready thread longest (R210). -/
def State.entersNext (s : State) (h : Gang) : Bool :=
  !h.active && s.hasReady h && s.gangs.all fun x =>
    !(!x.active && s.sameCore x h && s.hasReady x && (x.readySince < h.readySince || (x.readySince == h.readySince && x.gid < h.gid)))

/-- R210: GANG_SWAP: a gang whose threads all wait leaves the active set for the pending gang that has had a ready thread longest; with
room in the set, that gang enters it. A swap changes no architectural state (R211). -/
def execGangSwap (out inn : Nat) (s : State) : Host.Outcome State Fault Refusal :=
  .next (match s.gang? inn with
    | none => s
    | some h =>
      if !s.entersNext h then s
      else if s.activeOn h < Config.activeGangs then s.modGang inn fun g => { g with active := true, readySince := s.cycle }
      else match s.gang? out with
        | some g =>
          if g.active && s.sameCore g h && s.allWait g then
            let p := s.placeOf out 0
            ((s.modGang out fun g => { g with active := false, readySince := s.cycle }).modGang inn fun g =>
              { g with active := true, readySince := s.cycle }).count p.die (7 * p.core + 5) 1
          else s
        | none => s)

/-! ### Ends (R109) -/

/-- A launch belongs to what a removal removes: of a fault domain, what was kicked before it ended (R378). -/
def State.doomed (s : State) (r : Removal) (l : Launch) : Bool :=
  l.ctx == r.ctx && (match r.fdom with
    | none => true
    | some f => l.replay < r.id && (((s.ctx? l.ctx).bind fun c => c.effective l.region).map (·.fdom)) == some f)

/-- A removal that has begun takes the launch with it: its gangs, blocks and itself end by the removal's last step only, FAULTED (R378, R384). -/
def State.ending (s : State) (l : Launch) : Bool := s.removals.any fun r => s.doomed r l

/-- A gang has ended: its threads have exited and nothing of it is outstanding. -/
def State.gangOver (s : State) (g : Gang) : Bool :=
  g.threads.all (·.exited) && (s.ops.all fun o => o.place.gid != g.gid) && s.arrivals.all fun a => a.place.gid != g.gid

/-- Writes of a gang that have still to reach every scope. -/
def State.pendingWrites (s : State) (g : Gang) : List Nat :=
  ((g.threads.flatMap (·.seen)).filterMap fun e => if e.cls != .ld && s.writes.any fun w => w.wid == e.wid then some e.wid else none).dedup

/-- R109: GANG_END: its rods and recipe descriptors are freed. -/
def execGangEnd (gid : Nat) (s : State) : Host.Outcome State Fault Refusal :=
  .next (match s.gang? gid with
    | none => s
    | some g =>
      if s.gangOver g && !((s.launchOf g).any s.ending) then
        let ws := s.pendingWrites g
        let s1 := s.modBlock g.bid fun b => { b with wids := (b.wids ++ ws).dedup }
        { s1 with gangs := s1.gangs.filter fun h => h.gid != gid,
                  fences := s1.fences.filter fun f => f.place.gid != gid || s1.isDetBlock f.place.bid,
                  line := s1.line.filter fun l => l.gid != gid }
      else s)

/-- A block's scratchpad, its armings and its entry in the block list are released (R235, R237, R294). -/
def State.freeBlock (s0 : State) (bid : Nat) (keep : Bool) : State :=
  let s := s0.disarm [bid]
  let mine (loc : Nat) : Bool := scratchLoc bid 0 ≤ loc && loc < scratchLoc bid 0 + 2 ^ 20
  { s with mem := s.mem.filter fun e => !mine e.1, writes := s.writes.filter fun w => !mine w.loc,
           poison := s.poison.filter fun a => !mine a,
           blocks := if keep then s.blocks.map fun b => if b.bid = bid then
               { b with ended := true, ssize := 0, tags := [], recency := [], tiles := [], pairs := [], wblist := [] } else b
             else s.blocks.filter fun b => b.bid != bid }

/-- The trace record of a block's start or end (R388). -/
def State.traceBlock (s : State) (b : Block) (l : Launch) (wall : Nat) : State := s.trace l 1 (engineWord b.die 0 b.core) wall l.seq

/-- A block ran longer than its node's maximum block time (R351). -/
def Launch.overran (l : Launch) (b : Block) (wall : Nat) : Bool := l.det && l.nd.maxbt != 0 && l.nd.maxbt < wall - b.startWall

/-- R109: BLOCK_END: every gang of a block has ended; its resources are released. A SAVED block counts as unstarted (R353), and firmware
keeps its tiles and planes (R276); one of a deterministic launch waits for its release (R350). DEDUCED, log entry 110. -/
def execBlockEnd (bid : Nat) (s : State) : Host.Outcome State Fault Refusal :=
  .next (match s.block? bid with
    | none => s
    | some b =>
      if b.ended || s.gangs.any fun g => g.bid == bid then s
      else match s.launch? b.launch with
        | none => s.freeBlock bid false
        | some l =>
          let wall := s.wall b.die
          let s1 := (s.freeBlock bid l.det).traceBlock b l wall
          if s.ending l then s
          else if b.saved then s1.modLaunch l.num fun l =>
            { l with started := l.started.filter (· ≠ b.linear), kept := (b.linear, b.tiles, b.pairs) :: l.kept.filter fun k => k.1 != b.linear }
          else s1.modLaunch l.num fun l =>
            { l with ended := l.ended ++ [b.linear], overtime := l.overtime || l.overran b wall,
                     writes := l.writes ++ (b.wids.filter fun w => s.writes.any fun x => x.wid == w).map fun w => (b.linear, w) })

end Sys2Proof.Machine
end

