-- ==== Sys2Proof/Machine/Launch.lean ====
section
/-! DEFINITION. Launches (R338, R341 to R351, R408): dependences, resources and budgets, the scheduler's choice, block starts, tile flags,
the life of a launch, release of staged writes, kicks and parameter blocks. -/

namespace Sys2Proof.Machine
open Host

/-! ### Dependences (R261, R341) -/

def Node.blocks (n : Node) : Nat := n.nb.1 * n.nb.2.1 * n.nb.2.2
def Node.gangs (n : Node) : Nat := (n.threads + 31) / 32
def round256 (n : Nat) : Nat := (n + 255) / 256 * 256

def State.graph? (s : State) (h : Nat) : Option Graph := s.graphs.find? fun g => g.handle == h
def State.code? (s : State) (h : Nat) : Option CodeObj := s.codes.find? fun c => c.handle == h

/-- A write has reached module scope. -/
def State.atModule (s : State) (wid : Nat) : Bool :=
  match s.writes.find? fun w => w.wid == wid with
  | some w => ScopeUnit.module ∈ w.vis || w.full
  | none => true

/-- The launch of a node in the same replay. -/
def State.mate (s : State) (l : Launch) (node : Nat) : Option Launch := s.launches.find? fun x => x.replay == l.replay && x.node == node

/-- A set of a launch's blocks has ended, and been released if it is deterministic. -/
def Launch.blocksOver (l : Launch) (bs : List Nat) : Bool := bs.all fun b => b ∈ l.ended && (!l.det || b < l.released)

/-- Every block of a producer has ended and its writes have reached module scope (R341). -/
def State.allOver (s : State) (p : Launch) : Bool :=
  decide (p.ended.length = p.nd.blocks) && (!p.det || decide (p.released = p.nd.blocks)) && p.writes.all fun w => s.atModule w.2

/-- The virtual addresses of a location in a context: one for each page that maps it. -/
def Context.vasOf (c : Context) (loc : Nat) : List Nat :=
  (c.pages.filter fun p => p.pa ≤ loc && loc < p.pa + p.size).map fun p => p.va + (loc - p.pa)

/-- Flag(f) is enabled (R261): its producer blocks have ended, and their writes in its range, by whichever mapping, have reached module
scope. -/
def State.flagReady (s : State) (p : Launch) (t : EdgeTile) (k : Nat) : Bool :=
  let bs := (List.range t.pb).filterMap fun i => if k * t.pb + i < p.nd.blocks then some (k * t.pb + i) else none
  let inRange (loc : Nat) : Bool :=
    let vas := ((s.ctx? p.ctx).map fun c => c.vasOf loc).getD []
    vas.isEmpty || vas.any fun va => t.base + t.tstr * k ≤ va && va < t.base + t.tstr * k + t.tlen
  !bs.isEmpty && p.blocksOver bs && p.writes.all fun w =>
    w.1 ∉ bs || s.atModule w.2 || (match s.writes.find? fun x => x.wid == w.2 with
      | some x => (List.range x.data.length).all fun i => !inRange (x.loc + i)
      | none => true)

def tileCount (p : Launch) (t : EdgeTile) : Nat := (p.nd.blocks + t.pb - 1) / t.pb

/-- R261: FLAG: tile `tile` of edge `edge` of a launch's graph, which it produces, is ready. -/
def execFlag (launch edge tile : Nat) (s : State) : Host.Outcome State Fault Refusal :=
  .next (match s.launch? launch with
    | none => s
    | some l => match ((s.graph? l.graph).bind fun g => g.edges[edge]?) with
      | some e => match e.tile with
        | some t =>
          if e.src = l.node ∧ tile < tileCount l t ∧ (edge, tile) ∉ l.flagged ∧ s.flagReady l t tile then
            s.modLaunch launch fun l => { l with flagged := l.flagged ++ [(edge, tile)] }
          else s
        | none => s
      | none => s)

/-- The condition of one incoming edge for a consumer block (R341). -/
def State.edgeOk (s : State) (l : Launch) (idx : Nat) (e : Edge) (b : Nat) : Bool :=
  match s.mate l e.src with
  | none => true
  | some p => match e.tile with
    | none => s.allOver p
    | some t =>
      let k := b / t.cb
      if k < tileCount p t then (idx, k) ∈ p.flagged else s.allOver p

/-- Every incoming edge condition of a block holds. -/
def State.depsOk (s : State) (l : Launch) (b : Nat) : Bool :=
  match s.graph? l.graph with
  | none => true
  | some g => ((g.edges.zip (List.range g.edges.length)).filter fun x => x.1.dst == l.node).all fun x => s.edgeOk l x.2 x.1 b

/-- The lowest unstarted block whose dependences hold; in deterministic mode blocks start in ascending order (R346, R348). -/
def State.nextBlock (s : State) (l : Launch) : Option Nat :=
  match (List.range l.nd.blocks).find? fun b => b ∉ l.started with
  | none => none
  | some b0 =>
    if s.depsOk l b0 then some b0
    else if l.det then none
    else (List.range l.nd.blocks).find? fun b => b ∉ l.started && s.depsOk l b

/-! ### Resources and budgets (R10, R235, R271, R338, R349) -/

/-- A core may take a block: its cluster is enabled and not about to retire (R9, R395). -/
def State.coreOn (s : State) (die core : Nat) : Bool :=
  decide (die < 8) && s.clusterOn die (core / 4) && UnitId.cluster die (core / 4) ∉ s.sup.retiring && die ∉ s.sup.silent

/-- A core has every feature that a launch's code needs (R347). -/
def State.featuresOn (s : State) (l : Launch) (die : Nat) : Bool :=
  l.cfeat &&& ((s.feat die).toNat % 2 ^ 32) == l.cfeat

/-- Some enabled core has a launch's features. -/
def State.someCore (s : State) (l : Launch) : Bool :=
  (List.range 8).any fun d => s.featuresOn l d && (List.range 50).any fun n => s.coreOn d (4 * n)

/-- Blocks that hold resources. -/
def State.live (s : State) : List Block := s.blocks.filter fun b => !b.ended

def Block.gangs (b : Block) : Nat := (b.nthreads + 31) / 32

/-- Rods reserved for a block (R74). -/
def State.rodsOfBlock (s : State) (b : Block) : Nat := b.gangs * (((s.launch? b.launch).map (·.cmin)).getD 0)

def sumOf (bs : List Block) (f : Block → Nat) : Nat := (bs.map f).sum

/-- The lowest free 256-byte-aligned range of a core's scratchpad (R235). -/
def freeRange (bs : List Block) (n : Nat) : Option Nat :=
  let used := (bs.filter fun b => b.ssize != 0).map fun b => (b.sbase, b.ssize)
  let fits (o : Nat) : Bool := decide (o + n ≤ Config.scratchBytes) && used.all fun u => !(o < u.1 + u.2 && u.1 < o + n)
  ((0 :: used.map fun u => u.1 + u.2).filter fits).min?

/-- A block of a launch fits a core and its cluster: gangs, tag entries, reserved rods, tiles and pairs, and a scratchpad range. -/
def State.coreFits (s : State) (l : Launch) (die core : Nat) : Option Nat :=
  let nd := l.nd
  let here := s.live.filter fun b => b.die == die && b.core == core
  let cl := s.live.filter fun b => b.die == die && b.core / 4 == core / 4
  if sumOf here Block.gangs + nd.gangs ≤ Config.residentGangs ∧ sumOf here (·.tags.length) + nd.tags ≤ Config.tagEntries ∧
      sumOf here s.rodsOfBlock + nd.gangs * l.cmin ≤ Config.physRods ∧
      sumOf cl (·.tiles.length) + nd.tiles ≤ Config.clusterTiles ∧ sumOf cl (·.pairs.length) + nd.pairs ≤ Config.clusterPairs then
    freeRange here (round256 nd.spad)
  else none

/-- Blocks of launches of a region or of its descendants. -/
def State.heldBy (s : State) (c : Context) (num : Nat) : List Block :=
  s.live.filter fun b => match s.launch? b.launch with
    | some l => l.ctx == c.num && (c.path l.region).any fun r => r.num == num
    | none => false

/-- A block fits every budget on its region's path to the root (R338). -/
def State.budgetOk (s : State) (l : Launch) (die core : Nat) : Bool :=
  match s.ctx? l.ctx with
  | none => false
  | some c => (c.path l.region).all fun r => match c.effective r.num with
    | none => false
    | some e =>
      let bs := s.heldBy c r.num
      let clusters := ((die, core / 4) :: bs.map fun b => (b.die, b.core / 4)).dedup.length
      decide (clusters ≤ e.clu) && decide (sumOf bs s.rodsOfBlock + l.nd.gangs * l.cmin ≤ e.rods) &&
        decide (sumOf bs (fun b => round256 b.ssize) + round256 l.nd.spad ≤ e.spad) &&
        decide (sumOf bs (·.tiles.length) + l.nd.tiles ≤ e.tiles) && decide (sumOf bs (·.pairs.length) + l.nd.pairs ≤ e.pairs)

/-- A die's counting board has a reservation free (R349). DEDUCED, log entry 71. -/
def State.boardRoom (s : State) (die : Nat) : Bool :=
  decide ((s.blocks.filter fun b => b.die == die && s.isDetBlock b.bid).length < 256)

/-! ### The scheduler (R345, R346) -/

def State.preempting (s : State) (ctx region : Nat) : Bool :=
  (s.region? ctx region).any fun r => r.preempt != .none

def State.queueStopped (s : State) (kick : Nat) : Bool := s.queues.any fun q => q.kick == kick && q.stopped

/-- The abandon bound of a launch: of the version that it became READY with, and of the one in force now while it is PENDING (R339). -/
def State.abndOf (s : State) (l : Launch) : Nat :=
  if l.state == .pending then (((s.ctx? l.ctx).bind fun c => c.effective l.region).map (·.abnd)).getD l.rcb.abnd else l.rcb.abnd

/-- A launch that has not started has passed deadline + ABND (R345). -/
def State.pastAbandon (s : State) (l : Launch) : Bool := l.deadline != 0 && decide (l.deadline + s.abndOf l ≤ s.wall 0)

/-- Nothing holds a launch's blocks back: pre-emption, a halted context, a removal, a stopped queue, its abandon bound. -/
def State.mayStart (s : State) (l : Launch) : Bool :=
  (l.state == .ready || l.state == .running) && !s.preempting l.ctx l.region && !s.removing l.ctx l.rcb.fdom &&
    ((s.ctx? l.ctx).map fun c => !c.halted && !c.restricted).getD false &&
    (l.state == .running || (!s.queueStopped l.kick && !s.pastAbandon l))

/-- The block of a launch that a core could take now, and the place of its scratchpad. -/
def State.placeable (s : State) (l : Launch) (die core : Nat) : Option (Nat × Nat) :=
  if s.mayStart l && s.coreOn die core && s.featuresOn l die && s.budgetOk l die core && (!l.det || s.boardRoom die) then
    match s.nextBlock l, s.coreFits l die core with
    | some b, some o => some (b, o)
    | _, _ => none
  else none

/-- The scheduler's keys (R346): deadline, priority, kick, node. -/
def launchBefore (a b : Launch) : Bool :=
  let d (l : Launch) : Nat := if l.deadline = 0 then 2 ^ 64 else l.deadline
  if d a ≠ d b then decide (d a < d b)
  else if a.rcb.pri ≠ b.rcb.pri then decide (b.rcb.pri < a.rcb.pri)
  else if a.replay ≠ b.replay then decide (a.replay < b.replay)
  else decide (a.node < b.node)

def firstLaunch : List Launch → Option Launch
  | [] => none
  | l :: ls => match firstLaunch ls with
    | some m => if launchBefore m l then some m else some l
    | none => some l

/-- The launch whose block a core takes next. DEDUCED, log entry 70. -/
def State.choose (s : State) (die core : Nat) : Option Launch :=
  firstLaunch (s.launches.filter fun l => (s.placeable l die core).isSome)

/-! ### Starting a block (R19, R77, R237, R271, R348) -/

/-- A thread at launch (R76, R77, R88). -/
def Thread.fresh (t pc : Nat) : Thread :=
  ⟨t, pc, false, false, 0, 1, 0, 0, 0, 0, 0, 0x7F800000, 0, 0, 0, List.replicate 8 0, .none, .none, [], [], [], none, [], false, [], none, none, ⟨0, []⟩⟩

def Gang.fresh (gid bid idx n pc : Nat) (active : Bool) (cycle : Nat) : Gang :=
  ⟨gid, bid, idx, (List.range n).map fun t => Thread.fresh t pc, [], [], [], [], [], 0, 0, none, none, [], active, cycle, [], false, none, [], 0,
    none, 0, none⟩

/-- Memory with every write of the coherence order in it, and its poison: what a kernel start sees (R263). -/
def State.memoryNow (s : State) : List Cell × List Nat :=
  let t := s.writes.foldl State.settle s
  (t.mem, t.poison)

/-- The gangs of a block, named from `gid` up; the first eight of a core are active. -/
def blockGangs (bid n pc gid room cycle : Nat) : List Gang :=
  (List.range ((n + 31) / 32)).map fun i => Gang.fresh (gid + i) bid i (min 32 (n - 32 * i)) pc (decide (i < room)) cycle

/-- Start block `b` of a launch on a core, its scratchpad at `off`; one that ended SAVED has its tiles and planes again (R276). Log entry 110. -/
def State.startBlock (s : State) (l : Launch) (b die core off : Nat) : State :=
  let nd := l.nd
  let wall := s.wall die
  let bid := s.nextId
  let first := l.state == .ready
  let now := if l.det then s.memoryNow else ([], [])
  let s0 := if first then (s.modLaunch l.num fun l =>
      { l with state := .running, late := l.deadline != 0 && decide (l.deadline < s.wall 0), startWall := s.wall 0, first := s.nextId,
               kstart := now.1, kpoison := now.2, kcells := if l.det then s.cells else [] }).forgetWrites
    else s
  let s1 := s0.modLaunch l.num fun l => { l with started := l.started ++ [b], kept := l.kept.filter fun k => k.1 != b }
  let entry := l.cva + nd.entry
  let kept := (l.kept.find? fun k => k.1 == b).map (·.2)
  let blk : Block := ⟨bid, l.num, b, b % nd.nb.1, b / nd.nb.1 % nd.nb.2.1, b / nd.nb.1 / nd.nb.2.1, die, core, off, round256 nd.spad, nd.threads,
    List.replicate nd.tags 0xFFFFFFFFFFFFFFFF, List.range nd.tags, [], (kept.map (·.1)).getD (List.replicate nd.tiles Tile.zero),
    (kept.map (·.2)).getD (List.replicate nd.pairs ⟨Plane.empty, Plane.empty⟩), [], false, [], false, [], wall, []⟩
  let us : List ScopeUnit := [.block bid, .cluster die (core / 4), .die die, .module, .system]
  let target : Except FetchErr Nat := match s.ctx? l.ctx with
    | some c => checkTarget s c us true entry
    | none => .ok entry
  let pc := match target with | .ok a => a | .error _ => entry
  let room := Config.activeGangs - (s.gangs.filter fun g => g.active && (s.blockOf g).any fun x => x.die == die && x.core == core).length
  let gs := blockGangs bid nd.threads pc (bid + 1) room s.cycle
  let begin_ (g : Gang) : Gang :=
    { g with threads := g.threads.map fun x => { x with snap := s.snapAt us },
             pend := match target with
               | .ok _ => []
               | .error x => [⟨x.cause, g.threads.map (·.thr)⟩] }
  let s2 := { s1 with nextId := bid + 1 + gs.length, blocks := s1.blocks ++ [blk], gangs := s1.gangs ++ gs.map begin_ }
  let s3 := if first then s2.trace l 0 (engineWord die 8 0) (s.wall 0) l.seq else s2
  (s3.serveCore l.ctx die core).trace l 1 (engineWord die 0 core) wall l.seq

/-- R346: BLOCK_START: a core takes the next block of the launch that the scheduler chooses for it. -/
def execBlockStart (launch die core : Nat) (s : State) : Host.Outcome State Fault Refusal :=
  .next (match s.choose die core with
    | none => s
    | some l =>
      if l.num ≠ launch then s
      else match s.placeable l die core with
        | some (b, off) => s.startBlock l b die core off
        | none => s)

/-! ### The life of a launch (R345) -/

/-- A launch has become READY: PRI, PERM, ABND and PDL are those of now (R339). -/
def State.makeReady (s : State) (l : Launch) : State :=
  match (s.ctx? l.ctx).bind fun c => c.effective l.region with
  | some r => s.modLaunch l.num fun l => { l with state := if s.someCore l then .ready else .featureWait, rcb := r, det := r.perm / 4 % 2 == 1 }
  | none => s

/-- R345, R347: LAUNCH_READY: an edge condition holds for some block; or a launch begins or ends to wait for a core with its features. -/
def execLaunchReady (launch : Nat) (s : State) : Host.Outcome State Fault Refusal :=
  .next (match s.launch? launch with
    | none => s
    | some l =>
      match l.state with
      | .pending => if (List.range l.nd.blocks).any fun b => s.depsOk l b then s.makeReady l else s
      | .ready => if s.someCore l then s else s.modLaunch launch fun l => { l with state := .featureWait }
      | .featureWait => if s.someCore l then s.makeReady l else s
      | _ => s)

/-- The deterministic word of a completion record (R351). -/
def Launch.detWord (l : Launch) : Word :=
  if l.det then BitVec.ofNat 64 (min l.folds 0xFFFF + 2 ^ 16 * min l.discards 0xFFFF + 2 ^ 32 * l.overtime.toNat) else 0

/-- A queue's completion record, its interrupt (R345, R362), and its number. -/
def State.report (s : State) (kick : Nat) (r : Nat → Report) : State :=
  match s.queues.find? fun q => q.kick == kick with
  | none => { s with reports := s.reports ++ [r 0] }
  | some q =>
    let s1 := { s with reports := s.reports ++ [r q.count],
                       queues := s.queues.map fun x => if x.kick = kick then { x with count := x.count + 1 } else x }
    if q.vector = 0 then s1 else s1.interrupt q.vector

/-- Launches of a replay that is over leave the machine. -/
def State.dropReplay (s : State) (replay : Nat) : State :=
  if s.launches.all fun l => l.replay != replay || l.state == .complete then
    { s with launches := s.launches.filter fun l => l.replay != replay || s.blocks.any fun b => b.launch == l.num }
  else s

/-- A launch is DONE: its completion record is written. -/
def State.finish (s : State) (l : Launch) (st : LStatus) : State :=
  let wall := s.wall 0
  let s1 := s.modLaunch l.num fun l => { l with state := .complete, status := st, endWall := wall, kstart := [], kpoison := [], kcells := [],
                                                      own := [], outside := [], kept := [] }
  let s2 := (s1.forgetWrites.trace l 0 (engineWord 0 8 0) wall l.seq).report l.kick fun seq => .launch l.kick seq l.seq st l.late l.startWall wall l.detWord
  s2.dropReplay l.replay

/-- R345: LATE_ABANDONED: a launch has not started by deadline + ABND. -/
def execLateAbandoned (launch : Nat) (s : State) : Host.Outcome State Fault Refusal :=
  .next (match s.launch? launch with
    | none => s
    | some l =>
      if (l.state == .pending || l.state == .ready || l.state == .featureWait) && s.pastAbandon l && !s.ending l then s.finish l .lateAbandoned else s)

/-- A producer of a launch ended abandoned. -/
def State.lostProducer (s : State) (l : Launch) : Bool :=
  match s.graph? l.graph with
  | none => false
  | some g => g.edges.any fun e => e.dst == l.node && (s.mate l e.src).any fun p =>
      p.state == .complete && (p.status == .lateAbandoned || p.status == .abandonedDep)

/-- R345: LAUNCH_COMPLETE: every block has ended (and been released, R350); or a producer was abandoned. -/
def execLaunchComplete (launch : Nat) (s : State) : Host.Outcome State Fault Refusal :=
  .next (match s.launch? launch with
    | none => s
    | some l =>
      if s.ending l then s
      else match l.state with
      | .running =>
        if l.ended.length = l.nd.blocks ∧ (!l.det || l.released = l.nd.blocks) then s.finish l .ok else s
      | .pending => if s.lostProducer l then s.finish l .abandonedDep else s
      | _ => s)

/-! ### Release (R319, R350) -/

/-- What release knows of a block's changes to a cell: the view's cell, and the generations its changes received. -/
structure RelCell where
  slot : Nat
  view : KeepCell
  gens : List Nat
  deriving DecidableEq, Repr

/-- Release one staged KEEP store, with the merge op of the page through which it was staged (R159, R319); poison of its line goes with it, and
its home marks the cell (R317, R382). -/
def State.releaseKeep (s : State) (l : Launch) (c : Context) (e : Rcb) (rs : List RelCell) (slot gen : Nat) (val : Word) (actor : W32) (op : RcnOp)
    (bad : Bool) : State × List RelCell :=
  let start := s.startCell l slot
  let g0 := start.gen
  let r := (rs.find? fun r => r.slot == slot).getD ⟨slot, start, []⟩
  let g := if gen ≤ g0 then gen else r.gens.getD (gen - g0 - 1) gen
  let k := s.cell slot
  let rg := (c.num, l.region)
  let (k1, folds, disc) := match refusal s.cells k g (c.quotaFull s.cells l.region) true with
    | none => (k.accept g val actor (some rg) bad, 0, 0)
    | some x => if x = subGEN then (k, 0, 1) else (k.merge g val actor (some rg) op bad, 1, 0)
  let view := match refusal [] r.view gen false false with
    | none => some (r.view.accept gen val actor none)
    | some x => if x = subGEN then none else some (r.view.merge gen val actor none op)
  let r1 := match view with
    | some v => { r with view := v, gens := r.gens ++ [k1.gen] }
    | none => r
  (((s.changeCell (some l.num) k1).markAs (launchRecord c l e.fdom (s.wall 0)) slot).modLaunch l.num fun l =>
      { l with folds := l.folds + folds, discards := l.discards + disc },
    r1 :: rs.filter fun x => x.slot != slot)

/-- Perform a block's staged writes in program order. What would go over a link that is down is lost (R366); poison leaves a record (R383). -/
def State.releaseGo (s : State) (l : Launch) (c : Context) (e : Rcb) : List RelCell → List Staged → State
  | _, [] => s
  | rs, .bytes op _ _ loc data bad :: ws =>
    let r := launchRecord c l e.fdom (s.wall 0)
    if s.linkDown loc then (s.lostLines r loc data.length).releaseGo l c e rs ws
    else
      let (s1, wid) := s.append loc data bad [.system] (some op) (s.keyAt (some c.num) loc)
      let s2 := s1.modLaunch l.num fun l => { l with own := wid :: l.own }
      (if bad then s2.poisonLines r loc data.length [wid] else s2).releaseGo l c e rs ws
  | rs, .keep _ _ slot gen val actor op bad :: ws =>
    let (s1, rs1) := s.releaseKeep l c e rs slot gen val actor op bad
    s1.releaseGo l c e rs1 ws

/-- R350: RELEASE: the staged writes of a deterministic launch's lowest unreleased block, once it has ended. -/
def execRelease (launch blk : Nat) (s : State) : Host.Outcome State Fault Refusal :=
  .next (match s.launch? launch with
    | none => s
    | some l =>
      match s.blocks.find? fun b => b.launch == launch && b.linear == blk && b.ended, s.ctx? l.ctx with
      | some b, some c =>
        if l.det ∧ l.released = blk ∧ l.state = .running ∧ !s.ending l then
          let e := (c.effective l.region).getD l.rcb
          let s1 := s.releaseGo l c e [] b.staged
          let s2 := s1.modLaunch launch fun l => { l with released := blk + 1 }
          { s2 with blocks := s2.blocks.filter fun x => x.bid != b.bid, fences := s2.fences.filter fun f => f.place.bid != b.bid }
        else s
      | _, _ => s)

/-! ### Kicks (R343, R344, R408) -/

/-- The first address of a range that is not mapped with R (R334). -/
def Context.unread (c : Context) (va n : Nat) : Option Nat :=
  (rangePoints va n).find? fun a => match access c none { r := true } a with | .ok _ => false | .error _ => true

/-- Bytes of a context's virtual range as firmware reads them, whatever its pages permit; 0 where no page is. -/
def State.bytesAt (s : State) (c : Context) (va n : Nat) : List Byte :=
  (rangePoints va n).flatMap fun a =>
    let k := partEnd va n a - a
    match translate c none a with
    | .ok r => rbVals (s.fwBytes (some c.num) (r.seg k))
    | .error _ => List.replicate k 0

/-- Bytes of a context's virtual range as firmware reads them; none and the first address that is not mapped with R (R334). -/
def State.readCtx (s : State) (c : Context) (va n : Nat) : Except Nat (List Byte) :=
  match c.unread va n with
  | some a => .error a
  | none => .ok (s.bytesAt c va n)

/-- Bytes of physical memory, or of a block's scratchpad, outside every context. -/
def State.readPhys (s : State) (pa n : Nat) : List Byte := rbVals (s.seenBy none pa (s.lastBytes pa n))

/-- A page may hold a part of a parameter ring (R408). -/
def ringPage (p : Page) : Bool := p.r && p.w && !p.x && !p.keep && !p.bank

/-- The pages of a parameter ring: some are not mapped, some break its rule. -/
def Context.ringBad (c : Context) (va n : Nat) : Option Bool :=
  let ps := (rangePoints va n).map fun a => c.page? a
  if ps.any (·.isNone) then some true
  else if ps.any fun p => (p.map fun p => !ringPage p).getD true then some false else none

/-- Apply the patches of a launch packet in order (R344): none if one names a missing node or an offset outside its block. -/
def patchAll (ps : List (List Byte)) : List (Nat × Nat × List Byte) → Option (List (List Byte))
  | [] => some ps
  | (node, off, v) :: rest =>
    match ps[node]? with
    | some b => if off % 8 = 0 ∧ off + 8 ≤ b.length then patchAll (setAt ps node (b.take off ++ v ++ b.drop (off + 8))) rest else none
    | none => none

def round64 (n : Nat) : Nat := (n + 63) / 64 * 64

/-- A kick that is accepted (R343, R344, R408), or none: the packet is read whole now. A host that rewrites it before its replay is over, or
writes parameter space that a live launch holds, breaks a rule of R344 or R408. DESIGN CHOICE, log entry 98. -/
def State.acceptKick (s : State) (q : Queue) (w : Word) : Option Replay :=
  let poff := bits w.toNat 47 16 * 64
  match s.graph? (bits w.toNat 15 0), s.ctx? q.ctx with
  | some g, some c =>
    let pk := s.readPhys (q.arena + poff) 16
    let m := fieldAt pk 10 2
    let rg := fieldAt pk 8 2
    let ps := s.readPhys (q.arena + poff + 16) (16 * m)
    let patches := (List.range m).map fun j => (fieldAt ps (16 * j) 2, fieldAt ps (16 * j + 4) 4, (ps.drop (16 * j + 8)).take 8)
    match c.effective rg, patchAll (g.nodes.map (·.template)) patches with
    | some e, some params =>
      let det := e.perm / 4 % 2 == 1
      if bits w.toNat 63 48 ≠ 0 ∨ g.ctx ≠ q.ctx ∨ !g.usable ∨ c.restricted ∨ q.asize < poff + 16 + 16 * m ∨ 4095 < m ∨
          (det ∧ g.nodes.any fun n => n.maxbt == 0) ∨ (c.ringBad q.pring q.psize).isSome ∨
          q.psize < (params.map fun p => round64 p.length).sum then none
      else some ⟨s.nextId, q.kick, q.ctx, rg, g.handle, fieldAt pk 0 8, params⟩
    | _, _ => none
  | _, _ => none

/-- R343: KICK: a 64-bit write to a kick register requests a replay; a bad one is answered with BAD_VALUE. DESIGN CHOICE, log entry 69. -/
def execKick (reg : Nat) (word : Word) (s : State) : Host.Outcome State Fault Refusal :=
  .next (match s.queues.find? fun q => q.kick == reg with
    | none => s.report reg fun seq => .badKick reg seq
    | some q => match s.acceptKick q word with
      | some r => { s with replays := s.replays ++ [r], nextId := s.nextId + 1 }
      | none => s.report reg fun seq => .badKick reg seq)

/-- Ranges of a queue's parameter ring that launches hold (R408). -/
def State.ringHeld (s : State) (q : Queue) : List (Nat × Nat) :=
  (s.launches.filter fun l => l.kick == q.kick && l.ctx == q.ctx && l.state != .complete && l.ksize != 0).map fun l =>
    (l.kparm - q.pring, round64 l.ksize)

/-- The next free place of a block in ring order from `from_`. -/
def ringPlace (psize from_ n : Nat) (used : List (Nat × Nat)) : Option Nat :=
  let fits (o : Nat) : Bool := decide (o + n ≤ psize) && used.all fun u => !(o < u.1 + u.2 && u.1 < o + n)
  let cands := (from_ % psize :: 0 :: used.map fun u => (u.1 + u.2) % psize).filter fits
  (cands.map fun o => (o + psize - from_ % psize) % psize).min?.map fun d => (from_ % psize + d) % psize

/-- Places of a replay's blocks, one after another; none while they do not all fit. -/
def ringPlaces (psize : Nat) : Nat → List Nat → List (Nat × Nat) → Option (List Nat × Nat)
  | nxt, [], _ => some ([], nxt)
  | nxt, n :: ns, used =>
    match ringPlace psize nxt (round64 n) used with
    | none => none
    | some o =>
      match ringPlaces psize ((o + round64 n) % psize) ns (if n = 0 then used else (o, round64 n) :: used) with
      | some (os, e) => some (o :: os, e)
      | none => none

/-- Firmware writes bytes at a context's virtual address; they reach module scope (R408). -/
def State.pokeVa (s : State) (c : Context) (va : Nat) (data : List Byte) : State :=
  (rangePoints va data.length).foldl (fun s a =>
    match translate c none a with
    | .ok r => s.pokeAs r.loc ((data.drop (a - va)).take (partEnd va data.length a - a)) (s.keyAt (some c.num) r.loc)
    | .error _ => s) s

/-- The launches of a replay, one per node (R345). -/
def State.makeLaunches (s : State) (c : Context) (r : Replay) (g : Graph) (q : Queue) (offs : List Nat) : List Launch :=
  let e := (c.effective r.region).getD ⟨0, 0, 0, 0, 0, 0, 0, 0, 0, 0, 0, 0, 0, 0, 0⟩
  (g.nodes.zip (List.range g.nodes.length)).map fun x =>
    let o := s.code? x.1.code
    ⟨s.nextLaunch + x.2, r.ctx, r.region, r.kick, r.id, g.handle, x.2, x.1, .pending, .ok, false, r.deadline, false, e, q.pring + offs.getD x.2 0,
      ((r.params[x.2]?).map (·.length)).getD 0, [], [], 0, [], [], [], [], 0, 0, false, 0, 0, 0, [], s.nextLaunch + x.2,
      (o.map (·.va)).getD 0, (o.map (·.feat)).getD 0, (o.map (·.minrods)).getD 0, [], [], []⟩

/-- R408: PARAMETER_PLACE: the parameter blocks of a queue's first waiting replay are placed and written when they fit, and its launches
exist. -/
def execParameterPlace (replay : Nat) (s : State) : Host.Outcome State Fault Refusal :=
  .next (match s.replays.find? fun r => r.id == replay with
    | none => s
    | some r =>
      match s.queues.find? fun q => q.kick == r.kick, s.ctx? r.ctx, s.graph? r.graph with
      | some q, some c, some g =>
        if q.stopped ∨ (s.replays.any fun x => x.kick == r.kick && x.id < r.id) then s
        else match ringPlaces q.psize q.pnext (r.params.map (·.length)) (s.ringHeld q) with
          | none => s
          | some (offs, nxt) =>
            let s1 := (r.params.zip offs).foldl (fun s x => s.pokeVa c (q.pring + x.2) x.1) s
            { s1 with launches := s1.launches ++ s1.makeLaunches c r g q offs, nextLaunch := s1.nextLaunch + g.nodes.length,
                      replays := s1.replays.filter fun x => x.id != replay,
                      queues := s1.queues.map fun x => if x.kick = q.kick then { x with pnext := nxt } else x }
      | _, _, _ => { s with replays := s.replays.filter fun x => x.id != replay })

end Sys2Proof.Machine
end

