-- ==== Sys2Proof/Machine/Commands.lean ====
section
/-! DEFINITION. The administrative commands (R333 to R336) that concern contexts, regions and pages: packets and their checks, CTX_CREATE,
REGION_DEFINE, MAP, UNMAP, PROTECT, and CBSYNC, which takes a rewritten region control block into force (R118, R339). -/

namespace Sys2Proof.Machine
open Host

/-! ### Statuses (R334) -/

def stOK : Nat := 0
def stBUSY : Nat := 1
def stBADVALUE : Nat := 2
def stUNKNOWN : Nat := 3
def stMISSING : Nat := 4
def stBADATTR : Nat := 5
def stOVERLAP : Nat := 6
def stNOTMAPPED : Nat := 7
def stNORESOURCE : Nat := 8
def stDENIED : Nat := 9
def stNOANNEX : Nat := 10
def stBADOPC : Nat := 11

/-! ### Packets (R333, R335, R336) -/

/-- A field that a command knows: its id, payload lengths, whether it is required, whether its header must carry MU, and whether a
value can be honoured. DEDUCED, log entry 65. -/
structure FieldSpec where
  id : Nat
  lens : List Nat
  req : Bool := true
  mu : Bool := false
  ok : List Byte → Bool := fun _ => true

/-- Fields of a packet that a command uses, those of them with OPT, whether one was ignored (R333), and its NOTIFY. -/
structure Parsed where
  fields : List (Nat × List Byte)
  opts : List Nat
  ignored : Bool
  notify : Option (Nat × Nat × Option (Nat × Nat))
  deriving DecidableEq, Repr

def Parsed.has (p : Parsed) (id : Nat) : Bool := p.fields.any fun f => f.1 == id
def Parsed.get (p : Parsed) (id : Nat) : List Byte := (alGet p.fields id).getD []
def Parsed.nat (p : Parsed) (id : Nat) : Nat := leNat (p.get id)

/-- The fields without some that cannot be honoured, those that OPT lets the firmware ignore (R333). -/
def Parsed.trim (p : Parsed) (ids : List Nat) : Parsed :=
  let out := ids.filter fun i => i ∈ p.opts && p.has i
  { p with fields := p.fields.filter fun f => f.1 ∉ out, ignored := p.ignored || !out.isEmpty }

/-- NOTIFY's payload (R335): context, address, block key. -/
def notifyOf (bs : List Byte) : Nat × Nat × Option (Nat × Nat) :=
  (fieldAt bs 0 4, fieldAt bs 4 8, if bs.length = 24 then some (fieldAt bs 12 8, fieldAt bs 20 4) else none)

/-- A value that is never honoured. -/
def never : List Byte → Bool := fun _ => false

/-- A field that chooses another form of a command where it can be honoured: in this form it is only ever ignored (OPT). -/
def noFlag (id : Nat) (len : Nat := 0) : FieldSpec := { id := id, lens := [len], req := false, ok := never }

def notifySpec : FieldSpec := { id := 1, lens := [12, 24], req := false, ok := fun bs => fieldAt bs 4 8 % 16 == 0 }

/-- Is a field's value one that the firmware can honour? -/
def FieldSpec.honours (x : FieldSpec) (f : Field) : Bool := f.payload.length ∈ x.lens && (!x.mu || f.mu) && x.ok f.payload

/-- A range of physical addresses in which something stands (R296). -/
def inMap (pa n : Nat) : Bool := inDram pa n || inHost pa n

/-- Check a packet's fields (R333, R336): a status, or the fields in use; a payload of another length than the table's is never ignored. -/
def parsePacket (specs : List FieldSpec) (p : Packet) : Except Nat Parsed :=
  let known := notifySpec :: specs
  let find (f : Field) : Option FieldSpec := known.find? fun x => x.id == f.id
  let mine := p.fields.filter fun f => (find f).isSome
  let good (f : Field) : Bool := (find f).any fun x => x.honours f
  let used := mine.filter good
  if p.fields.any fun f => (find f).isNone && f.mu then .error stUNKNOWN
  else if (mine.map (·.id)).dedup.length ≠ mine.length then .error stBADVALUE
  else if mine.any fun f => !(good f || (f.opt && (find f).any fun x => f.payload.length ∈ x.lens)) then .error stBADVALUE
  else if known.any fun x => x.req && used.all fun f => f.id != x.id then .error stMISSING
  else .ok ⟨(used.filter fun f => f.id != 1).map fun f => (f.id, f.payload), (used.filter (·.opt)).map (·.id), used.length != mine.length,
    (used.find? fun f => f.id == 1).map fun f => notifyOf f.payload⟩

/-- A rejected command's NOTIFY still arrives, unless it is itself out of range (R335). -/
def packetNotify (p : Packet) : Option (Nat × Nat × Option (Nat × Nat)) :=
  (p.fields.find? fun f => f.id == 1 && notifySpec.honours f).map fun f => notifyOf f.payload

/-! ### Running a command (R334) -/

/-- What a command comes to once it begins: a rejection, its end, or what it waits for. -/
inductive CmdResult where
  | reject (status detail : Nat)
  | done (s : State) (detail : Nat)
  | wait (s : State) (w : WaitFor) (detail : Nat := 0)
  deriving DecidableEq, Repr

/-- What a command names, by kind. -/
def nameCtx (n : Nat) : Nat × Nat := (0, n)
def nameRegion (c r : Nat) : Nat × Nat := (1, c * 2 ^ 16 + r)
def nameGraph (n : Nat) : Nat × Nat := (2, n)
def nameCode (n : Nat) : Nat × Nat := (3, n)
def nameQueue (n : Nat) : Nat × Nat := (4, n)
/-- A range of physical addresses; virtual ones lie in a context that is named. -/
def nameRange (pa n : Nat) : Nat × Nat := (16 + pa, n)

/-- Two names are of one object, or of ranges that overlap. -/
def sameName (a b : Nat × Nat) : Bool := if 16 ≤ a.1 ∧ 16 ≤ b.1 then overlap (a.1 - 16, a.2) (b.1 - 16, b.2) else a == b

/-- An earlier command that names one of these objects has not completed. -/
def State.busyNames (s : State) (ns : List (Nat × Nat)) : Bool := s.waiting.any fun w => w.names.any fun n => ns.any fun m => sameName n m

/-- n bytes of the administrative ring from its byte `at_`, which wraps (R333). -/
def State.ringBytes (s : State) (at_ n : Nat) : List Byte :=
  let size := s.bar.aqSize.toNat
  (List.range n).flatMap fun i => s.readPhys (s.bar.aqBase.toNat + (at_ + i) % size) 1

/-- The packet at the firmware's consumption point: its length and its sequence number; a length outside R333's range counts as the
header alone. A ring where nothing stands (R296) holds none. Log entry 19. -/
def State.ringHead (s : State) : Option (Nat × Nat) :=
  if s.bar.aqTail = s.bar.aqHead ∨ s.bar.aqSize = 0 ∨ !inMap s.bar.aqBase.toNat s.bar.aqSize.toNat then none
  else
    let h := s.ringBytes s.bar.aqHead.toNat 16
    let len := fieldAt h 2 2
    some (if len % 8 = 0 ∧ 16 ≤ len ∧ len ≤ 4096 then len else 16, fieldAt h 4 4)

/-- A packet leaves the ring when its command begins. -/
def State.takePacket (s : State) (seq : Nat) : State :=
  match s.ringHead with
  | some (len, n) =>
    if n = seq then { s with bar := { s.bar with aqHead := BitVec.ofNat 64 ((s.bar.aqHead.toNat + len) % s.bar.aqSize.toNat) } } else s
  | none => s

/-- It is the turn of a sequence number (R334): it stands at the firmware's consumption point, or, with nothing there, follows the last that
was taken. -/
def State.seqTurn (s : State) (seq : Nat) : Bool :=
  match s.ringHead with
  | some h => h.2 == seq
  | none => s.seqTaken.all fun n => seq == (n + 1) % 2 ^ 32

/-- A command has begun; its completion is due, or waits. -/
def State.begun (s : State) (w : Waiting) : State :=
  let s1 := s.takePacket w.seq
  { s1 with waiting := s1.waiting ++ [w], seqTaken := some w.seq }

/-- In health state FAILED only HEALTH_QUERY, ATTEST and CTX_DESTROY are accepted (R394). -/
def State.failed (s : State) : Bool := s.sup.health == .failed

/-- Run a command: one whose turn it is not, or that names an object of an unfinished command, does not begin; `always` marks what FAILED still
accepts, `trim` the fields that cannot be honoured as the machine stands. The status of a command that FAILED turns away is log entry 24. -/
def command (specs : List FieldSpec) (p : Packet) (s : State) (always : Bool) (names : Parsed → List (Nat × Nat))
    (run : Parsed → State → CmdResult) (trim : Parsed → List Nat := fun _ => []) : Host.Outcome State Fault Refusal :=
  .next (if !s.seqTurn p.seq then s else match parsePacket specs p with
    | .error st => s.begun ⟨p.seq, [], packetNotify p, .done, st, 0, 0⟩
    | .ok q0 =>
      let q := q0.trim (trim q0)
      let fl := q.ignored.toNat
      if s.busyNames (names q) then s
      else if s.failed && !always then s.begun ⟨p.seq, [], q.notify, .done, stNORESOURCE, fl, 0⟩
      else match run q s with
        | .reject st d => s.begun ⟨p.seq, names q, q.notify, .done, st, fl, d⟩
        | .done s1 d => s1.begun ⟨p.seq, names q, q.notify, .done, stOK, fl, d⟩
        | .wait s1 w d => s1.begun ⟨p.seq, names q, q.notify, w, stOK, fl, d⟩)

/-- Run a command on a context that exists; a restricted one accepts few commands (R353). Log entry 24. -/
def withCtx (s : State) (n : Nat) (restrictedOk : Bool) (k : Context → CmdResult) : CmdResult :=
  match s.ctx? n with
  | none => .reject stBADVALUE 0
  | some c => if c.restricted && !restrictedOk then .reject stDENIED 0 else k c

/-! ### Region control blocks (R337, R338, R339) -/

/-- A control block as read; none when a reserved byte or bit is not zero or a field is out of range. -/
def parseRcb (bs : List Byte) : Option Rcb :=
  let f := fieldAt bs
  if f 10 2 / 2 ^ 13 ≠ 0 ∨ 7 < f 12 1 ∨ 15 < f 13 1 ∨ f 18 2 ≠ 0 ∨ f 38 2 ≠ 0 ∨ 64 < f 36 2 ∨ (bs.drop 64).any (· ≠ 0) then none
  else some ⟨f 0 8, f 10 2, f 12 1, f 13 1, f 14 2, f 16 2, f 20 4, f 24 4, f 28 2, f 30 2, f 32 4, f 36 2, BitVec.ofNat 64 (f 40 8), f 48 8, f 56 8⟩

/-- The 128 bytes of a control block (R355). -/
def Rcb.bytes (r : Rcb) (num : Nat) : List Byte :=
  leBytes 8 r.parent ++ leBytes 2 num ++ leBytes 2 r.ovr ++ leBytes 1 r.pri ++ leBytes 1 r.perm ++ leBytes 2 r.fdom ++ leBytes 2 r.clu
    ++ leBytes 2 0 ++ leBytes 4 r.rods ++ leBytes 4 r.spad ++ leBytes 2 r.tiles ++ leBytes 2 r.pairs ++ leBytes 4 r.anxq
    ++ leBytes 2 r.bksh ++ leBytes 2 0 ++ leBytes 8 r.traph.toNat ++ leBytes 8 r.abnd ++ leBytes 8 r.pdl ++ leBytes 64 0

/-- A context's region tree keeps its rules (R338): the root overrides everything, no path is longer than 8, CONF is one for all. -/
def Context.treeOk (c : Context) : Bool :=
  c.regions.all fun r =>
    let path := c.pathGo 9 (some r.num)
    let root := path.getLast?
    decide (path.length ≤ 8) && (match root with
      | some x => x.parent.isNone && x.rcb.ovr == 0x1FFF && (effRcb path r.rcb).perm / 8 % 2 == x.rcb.perm / 8 % 2
      | none => false)

/-- Read a region's control block at a virtual address of its context: a status and detail, or its bytes (R334, R337). -/
def State.readCb (s : State) (c : Context) (va : Nat) : Except (Nat × Nat) (List Byte) :=
  if va % 64 ≠ 0 then .error (stBADVALUE, 0)
  else match s.readCtx c va 128 with
    | .error a => .error (stNOTMAPPED, a)
    | .ok bs => if (rangePoints va 128).any fun a => (c.page? a).any fun p => p.keep || p.bank then .error (stBADATTR, 0) else .ok bs

/-- The lowest region number that a context does not use. -/
def Context.freeRegion (c : Context) : Nat :=
  ((List.range (c.regions.length + 1)).find? fun n => c.regions.all fun r => r.num != n).getD 0

/-- The region that a PARENT field names: by control block address; the root by its own (R337). -/
def Context.regionAt (c : Context) (va : Nat) : Option Region :=
  c.regions.find? fun r => if r.parent.isNone then c.rootCb == va else r.blockVa == va

def Context.setRcb (c : Context) (num : Nat) (parent : Option Nat) (r : Rcb) : Context :=
  { c with regions := c.regions.map fun x => if x.num = num then { x with parent := parent, rcb := r } else x }

/-- R335, R339: REGION_DEFINE of a new region. -/
def execRegionDefine (p : Packet) (s : State) : Host.Outcome State Fault Refusal :=
  command [{ id := 2, lens := [4] }, { id := 3, lens := [8] }, noFlag 4] p s false
    (fun q => [nameCtx (q.nat 2)]) fun q s =>
    withCtx s (q.nat 2) false fun c =>
      let va := q.nat 3
      match s.readCb c va with
      | .error (st, d) => .reject st d
      | .ok bs => match parseRcb bs with
        | none => .reject stBADVALUE 0
        | some r => match c.regionAt va, c.regionAt r.parent with
          | none, some par =>
            let num := c.freeRegion
            let c1 := { c with regions := c.regions ++ [⟨num, some par.num, va, r, par.preempt⟩] }
            if 2 ^ 16 ≤ num then .reject stNORESOURCE 0
            else if c1.treeOk then .done ((s.modCtx c.num fun _ => c1).pokeVa c (va + 8) (leBytes 2 num)) num
            else .reject stBADVALUE 0
          | _, _ => .reject stBADVALUE 0

/-- A new version of a region's block, checked (R339): the context with it, or none. -/
def Context.refreshed (c : Context) (r : Region) (bs : List Byte) (fixed : Bool) : Option Context :=
  match parseRcb bs with
  | none => none
  | some n =>
    let par := if r.parent.isNone then some none else (c.regionAt n.parent).map fun x => some x.num
    match par with
    | none => none
    | some par =>
      let c1 := c.setRcb r.num par n
      if (r.parent.isNone && n.parent != 0) || (fixed && (par != r.parent || fieldAt bs 8 2 != r.num)) || !c1.treeOk then none else some c1

/-- R339: REGION_DEFINE with REFRESH; the firmware writes REGION as at every REGION_DEFINE (R337). DEDUCED, log entry 34. -/
def execRegionRefresh (p : Packet) (s : State) : Host.Outcome State Fault Refusal :=
  command [{ id := 2, lens := [4] }, { id := 3, lens := [8] }, { id := 4, lens := [0] }] p s false
    (fun q => [nameCtx (q.nat 2)]) fun q s =>
    withCtx s (q.nat 2) false fun c =>
      match c.regionAt (q.nat 3) with
      | none => .reject stBADVALUE 0
      | some r =>
        match (if r.parent.isNone then .ok (s.readPhys c.rootCb 128) else s.readCb c (q.nat 3) : Except (Nat × Nat) (List Byte)) with
        | .error (st, d) => .reject st d
        | .ok bs => match c.refreshed r bs false with
          | some c1 =>
            let s1 := s.modCtx c.num fun _ => c1
            .done (if r.parent.isNone then s1.poke (c.rootCb + 8) (leBytes 2 r.num) else s1.pokeVa c (q.nat 3 + 8) (leBytes 2 r.num)) r.num
          | none => .reject stBADVALUE 0

/-! ### CBSYNC (R118, R339) -/

/-- The thread and operation's place of a staged write, and the bytes it lies at. -/
def Staged.place : Staged → Place
  | .bytes _ _ p .. | .keep _ p .. => p

def Staged.range : Staged → Nat × Nat
  | .bytes _ _ _ loc d _ => (loc, d.length)
  | .keep _ _ slot .. => (slot, 8)

/-- Every store of a thread to a range has reached its home (R118): of a deterministic block, by its release (R350). -/
def State.storesHome (s : State) (p : Place) (rs : List (Nat × Nat)) : Bool :=
  let hits (q : Nat × Nat) : Bool := rs.any fun r => overlap r q
  (s.ops.all fun o => !(o.place.gid == p.gid && p.thr ∈ o.thrs && (o.cls == .st || o.cls == .atom) && (o.kind.range.any hits))) &&
    ((s.thread? p.gid p.thr).map fun x => x.seen.all fun e => e.cls == .ld || (match s.writes.find? fun w => w.wid == e.wid with
      | some w => !hits (w.loc, w.data.length) || w.full || ScopeUnit.module ∈ w.vis
      | none => true)).getD true &&
    s.blocks.all fun b => b.staged.all fun w => !(w.place.gid == p.gid && w.place.thr == p.thr && hits w.range)

/-- Take the control blocks that a range names into force, or leave a record of class 0x06 (R339, R380). -/
def State.syncRegions (s : State) (e : Env) (a n : Nat) : State :=
  (e.c.regions.filter fun r => r.parent.isSome && overlap (r.blockVa, 128) (a, n)).foldl (fun s r =>
    match s.ctx? e.c.num with
    | none => s
    | some c =>
      let bad : State := s.faultRecord { cls := 6, engine := engineWord e.b.die 8 0, ctx := c.num, region := r.num,
                                         fdom := ((c.effective r.num).map (·.fdom)).getD 0, wall := s.wall e.b.die, addr := r.blockVa,
                                         conf := c.confidential }
      match s.readCb c r.blockVa with
      | .error _ => bad
      | .ok bs => match c.refreshed r bs true with
        | some c1 => s.modCtx c.num fun _ => c1
        | none => bad) s

/-- R118: CBSYNC makes a rewritten control block take effect. DEDUCED, log entry 68. -/
def execCbsync (g : Guard) (a b : Reg) (s : State) : Host.Outcome State Fault Refusal :=
  let i := Instr.cbsync g a b
  withPrep i s fun p =>
    let need : Need := { r := true, peer := true }
    let ea (t : Nat) : Nat := (p.a t).toNat
    let n (t : Nat) : Nat := (p.b t).toNat
    match p.check i fun t =>
      if n t = 0 ∨ 65536 < n t then some (cALIGN, ea t)
      else match accessRange p.e.c (some p.e.b) need (ea t) (n t) with | .error x => some x | .ok _ => none with
    | some s' => s'
    | none =>
      let ranges (t : Nat) : List (Nat × Nat) := match spanOf p.e need (ea t) (n t) with
        | .ok sn => sn.segs.map fun x => (x.2.loc, x.2.len)
        | .error _ => []
      let waits := p.parts.filter fun t => !p.s.storesHome (p.e.place t) (ranges t)
      ((p.parts.filter (· ∉ waits)).foldl (fun s t => s.syncRegions p.e (ea t) (n t)) p.s).completePart i p.parts waits .poll

/-! ### Contexts (R335, R394) -/

/-- R335: CTX_CREATE. -/
def execCtxCreate (p : Packet) (s : State) : Host.Outcome State Fault Refusal :=
  command (trim := fun q => if ((parseRcb (s.readPhys (q.nat 2) 128)).any fun r => r.perm / 8 % 2 == 1) then [] else [4]) [{ id := 2, lens := [8] }, { id := 3, lens := [8] }, { id := 4, lens := [1], req := false, ok := fun b => leNat b ≤ 63 }] p s false
      (fun q => [nameRange (q.nat 2) 128]) fun q s =>
    let root := q.nat 2
    let win := q.nat 3
    let key := q.nat 4
    match parseRcb (s.readPhys root 128) with
    | none => .reject stBADVALUE 0
    | some r =>
      let conf := r.perm / 8 % 2 == 1
      if root % 64 ≠ 0 ∨ !inDram root 128 ∨ win % windowSize ≠ 0 ∨ 2 ^ 56 ≤ win ∨ r.parent ≠ 0 ∨ r.ovr ≠ 0x1FFF ∨ (q.has 4 ∧ !conf) then
        .reject stBADVALUE 0
      else if conf && !q.has 4 then .reject stMISSING 0
      else if s.sup.health == .critical then .reject stNORESOURCE 0
      else
        let n := s.nextCtx
        .done { s with nextCtx := n + 1,
                       contexts := s.contexts ++ [⟨n, root, win, conf, key, 0, [⟨0, none, 0, r, .none⟩], [], false, false, false, [], 0⟩] } n

/-! ### Pages (R295 to R298, R304, R365) -/

def pageSize (code : Nat) : Nat := [2 ^ 12, 2 ^ 16, 2 ^ 21, 2 ^ 30, 2 ^ 35].getD code 0

def rcnOfCode (n : Nat) : RcnOp := [RcnOp.add, .min, .max, .and, .or, .xor, .first, .last].getD n .add

def codeOfRcn : RcnOp → Nat
  | .add => 0 | .min => 1 | .max => 2 | .and => 3 | .or => 4 | .xor => 5 | .first => 6 | .last => 7

/-- A page with the attributes of an attribute word (R336). -/
def pageOf (va size pa attr : Nat) (link : Option Nat) : Page :=
  let b (k : Nat) : Bool := attr / 2 ^ k % 2 == 1
  ⟨va, size, pa, b 0, b 1, b 2, b 3, b 4, b 5, b 6, b 7, b 8, rcnOfCode (bits attr 11 9), link⟩

/-- A page's attribute word. -/
def Page.attr (p : Page) : Nat :=
  p.r.toNat + 2 * p.w.toNat + 4 * p.x.toNat + 8 * p.keep.toNat + 16 * p.bank.toNat + 32 * p.spec.toNat + 64 * p.coh.toNat + 128 * p.enc.toNat
    + 256 * p.ovfMerge.toNat + 512 * codeOfRcn p.merge

/-- A combination that the attribute table forbids (R297, R363, R365); `host` is a page of host memory. -/
def badAttr (c : Context) (p : Page) (host : Bool) : Bool :=
  (p.x && p.w) || (p.keep && (host || p.x || p.bank || p.coh || p.spec)) || (p.bank && (host || p.x || p.coh || p.spec || p.size < 2 ^ 21))
    || (p.enc && (host || !c.confidential)) || (host && !p.coh)
    || (p.link.isSome && (p.x || p.keep || p.bank || p.coh || p.spec || p.enc))

/-- Ranges share a byte. -/
def Context.mappedIn (c : Context) (va n : Nat) : List Page := c.pages.filter fun p => overlap (p.va, p.size) (va, n)

/-- A physical range of a KEEP page, with the key of an ENC page. -/
abbrev KeepRange := Nat × Nat × Option (List Byte)

/-- Cells of physical ranges fall back to DRAM (R298): bytes 0 to 7 hold the oldest value, under the page's key (R297). -/
def State.flatten (s : State) (rs : List KeepRange) : State :=
  let mine (k : KeepCell) : Option KeepRange := rs.find? fun r => r.1 ≤ k.slot && k.slot < r.1 + r.2.1
  let s1 := s.cells.foldl (fun s k => match mine k with
    | some r => (s.append k.slot (leBytes 8 k.head.val.toNat) k.head.poison [.system] none r.2.2).1
    | none => s) s
  { s1 with cells := s1.cells.filter fun k => (mine k).isNone }

/-- Bytes of a write with some set to zero. -/
def zeroBytes (mine : Nat → Bool) (loc : Nat) (bs : List Byte) : List Byte :=
  (bs.zip (List.range bs.length)).map fun b => if mine (loc + b.2) then 0 else b.1

/-- Metadata bytes of slots read as zero afterwards, whatever the last write made them (R298). -/
def State.zeroMeta (s : State) (rs : List KeepRange) : State :=
  let mine (a : Nat) : Bool := 8 ≤ a % 32 && rs.any fun r => r.1 ≤ a && a < r.1 + r.2.1
  let bad (loc : Nat) (n : Nat) (p : Bool) : Bool := p && !(List.range n).any fun i => mine (loc + i)
  { s with mem := s.mem.filter fun e => !mine e.1, poison := s.poison.filter fun a => !mine a, crypt := s.crypt.filter fun a => !mine a.1,
           writes := s.writes.map fun w => { w with data := zeroBytes mine w.loc w.data, poison := bad w.loc w.data.length w.poison },
           wrote := s.wrote.map fun w => { w with data := zeroBytes mine w.loc w.data, poison := bad w.loc w.data.length w.poison } }

def peerSpec : FieldSpec := { id := 0x11, lens := [1], mu := true, ok := fun b => leNat b ≤ 15 }

def mapSpecs : List FieldSpec :=
  [{ id := 2, lens := [4] }, { id := 3, lens := [8] }, { id := 4, lens := [8] }, { id := 5, lens := [1], ok := fun b => leNat b ≤ 4 },
   { id := 6, lens := [8] }, { id := 7, lens := [2] }]

/-- MAP and MAP with PEER (R295 to R298, R365). DEDUCED, log entry 54. -/
def runMap (q : Parsed) (s : State) : CmdResult :=
  withCtx s (q.nat 2) false fun c =>
    let va := q.nat 3
    let n := q.nat 4
    let sz := pageSize (q.nat 5)
    let pa0 := q.nat 6
    let attr := q.nat 7
    let link := if q.has 0x11 then some (q.nat 0x11) else none
    let pa := match link with | some l => peerLoc l pa0 | none => pa0
    let host := inHost pa0 n && link.isNone
    if sz = 0 ∨ n = 0 ∨ n % sz ≠ 0 ∨ va % sz ≠ 0 ∨ pa0 % sz ≠ 0 ∨ 2 ^ 56 < va + n ∨ 2 ^ 12 ≤ attr ∨ overlap (va, n) (c.window, windowSize) ∨
        !(inDram pa0 n || host) then .reject stBADVALUE 0
    else if badAttr c (pageOf va sz pa attr link) host then .reject stBADATTR 0
    else if !(c.mappedIn va n).isEmpty then .reject stOVERLAP 0
    else
      let pages := (List.range (n / sz)).map fun k => pageOf (va + k * sz) sz (pa + k * sz) attr link
      let s1 := s.modCtx c.num fun c => { c with pages := c.pages ++ pages }
      .done (if attr / 8 % 2 = 1 then s1.flatten [(pa, n, s.keyAt ((s.keeperOf pa).map (·.num)) pa)] else s1) 0

/-- R335, R305: MAP. -/
def execMap (p : Packet) (s : State) : Host.Outcome State Fault Refusal :=
  command (mapSpecs ++ [noFlag 0x11 1]) p s false (fun q => [nameCtx (q.nat 2), nameRange (q.nat 6) (q.nat 4)]) runMap

/-- R365: MAP with PEER. -/
def execMapPeer (p : Packet) (s : State) : Host.Outcome State Fault Refusal :=
  command (mapSpecs ++ [peerSpec]) p s false (fun q => [nameCtx (q.nat 2)]) runMap

/-- A range cuts a mapped page in two (R304). -/
def cutsPage (ps : List Page) (va n : Nat) : Bool := ps.any fun p => p.va < va || va + n < p.va + p.size

/-- The key of a page of a context, if it is ENC. -/
def Context.keyFor (c : Context) (s : State) (p : Page) : Option (List Byte) := if p.enc then some (s.keyOf c) else none

/-- What UNMAP and PROTECT of some pages wait for (R304, step 3): operations in flight that translated there, what was staged there or by an
operation that translated there, and what the context's threads have done whose writes are still on their way. DEDUCED, log entry 87. -/
def State.oldUses (s : State) (c : Context) (ps : List Page) (unmap : Bool) : WaitFor :=
  let ranges := ps.map fun p => (p.pa, p.size)
  let out := (s.ops.filter fun o => o.ctx == c.num && o.pages.any fun g => ps.any fun p => overlap (p.va, p.size) g).map (·.id)
  let staged := s.blocks.flatMap fun b => (b.staged.filter fun w => ranges.any fun r => overlap r w.range).map (·.opId)
  let pinned := ((s.blocks.filter fun b => (s.launch? b.launch).any fun l => l.ctx == c.num).flatMap (·.pins)).filter fun x =>
    x.2.any fun g => ps.any fun p => overlap (p.va, p.size) g
  .old (out ++ staged ++ pinned.map (·.1)) s.nextId ranges (if unmap then (ps.filter (·.keep)).map fun p => (p.pa, p.size, c.keyFor s p) else [])

/-- From step 1 on, no early regeneration of the context may stand: its loads translated under the old entries (R229). -/
def State.dropEarly (s : State) (ctx : Nat) : State :=
  { s with gangs := s.gangs.map fun g => if (s.launchOf g).any fun l => l.ctx == ctx then { g with early := [] } else g }

/-- R304: UNMAP. -/
def execUnmap (p : Packet) (s : State) : Host.Outcome State Fault Refusal :=
  command (mapSpecs.take 3) p s false (fun q => [nameCtx (q.nat 2)]) fun q s =>
    withCtx s (q.nat 2) false fun c =>
      let ps := c.mappedIn (q.nat 3) (q.nat 4)
      if ps.isEmpty then .reject stNOTMAPPED (q.nat 3)
      else if cutsPage ps (q.nat 3) (q.nat 4) then .reject stBADVALUE 0
      else .wait ((s.modCtx c.num fun c => { c with pages := c.pages.filter fun p => p ∉ ps }).dropEarly c.num) (s.oldUses c ps true)

/-- Bits that PROTECT may change (R304): R, W, X, SPEC, OVF, MERGE. -/
def protectMask : Nat := 0x0F27

/-- R304: PROTECT. -/
def execProtect (p : Packet) (s : State) : Host.Outcome State Fault Refusal :=
  command (mapSpecs.take 3 ++ [{ id := 7, lens := [2] }]) p s false (fun q => [nameCtx (q.nat 2)]) fun q s =>
    withCtx s (q.nat 2) false fun c =>
      let ps := c.mappedIn (q.nat 3) (q.nat 4)
      let attr := q.nat 7
      let new (p : Page) : Page := pageOf p.va p.size p.pa attr p.link
      let fixed (a : Nat) : Nat := a - (a &&& protectMask)
      if ps.isEmpty then .reject stNOTMAPPED (q.nat 3)
      else if cutsPage ps (q.nat 3) (q.nat 4) || ps.any (fun p => fixed p.attr != fixed attr) then .reject stBADVALUE 0
      else if ps.any fun p => badAttr c (new p) (inHost p.pa p.size && p.link.isNone) then .reject stBADATTR 0
      else .wait ((s.modCtx c.num fun c => { c with pages := c.pages.map fun p => if p ∈ ps then new p else p }).dropEarly c.num) (s.oldUses c ps false)

/-- TLBs and old entries (R304): every operation that translated under them is over, released where it was staged, and its writes, and all
writes made before, have reached module scope. -/
def State.oldOver (s : State) (ops : List Nat) (mark : Nat) (ranges : List (Nat × Nat)) : Bool :=
  let there (w : PWrite) : Bool := w.full || ScopeUnit.module ∈ w.vis
  let mine (w : PWrite) : Bool := w.wid < mark || (ranges.any fun r => overlap r (w.loc, w.data.length)) || w.op.any fun o => o ∈ ops
  (s.ops.all fun o => o.id ∉ ops) && (s.blocks.all fun b => b.staged.all fun w => w.opId ∉ ops) && s.writes.all fun w => !mine w || there w

end Sys2Proof.Machine
end

