-- ==== Sys2Proof/Machine/Code.lean ====
section
/-! DEFINITION. The commands on code, graphs and queues (R335, R336, R340 to R343, R357, R359, R407, R408). -/

namespace Sys2Proof.Machine
open Host

/-- Do a check for each of a list, in order: the first failure, or all results. -/
def collect {α β ε : Type} (f : α → Except ε β) : List α → Except ε (List β)
  | [] => .ok []
  | x :: xs => match f x with
    | .error e => .error e
    | .ok y => match collect f xs with
      | .error e => .error e
      | .ok ys => .ok (y :: ys)

/-! ### Code objects (R407, R359) -/

/-- The firmware's check of pages under a range: some byte is not mapped, some page lacks what it needs. -/
def Context.rangeStatus (c : Context) (va n : Nat) (ok : Page → Bool) : Option (Nat × Nat) :=
  (rangePoints va n).findSome? fun a => match c.page? a with
    | none => some (stNOTMAPPED, a)
    | some p => if ok p then none else some (stBADATTR, a)

/-- R335, R407: CODE_LOAD copies the code lines to LOADVA, and invalidates fetched copies (R49). -/
def execCodeLoad (p : Packet) (s : State) : Host.Outcome State Fault Refusal :=
  command [{ id := 2, lens := [4] }, { id := 3, lens := [8] }, { id := 4, lens := [4] }, { id := 5, lens := [8] }] p s false
    (fun q => [nameCtx (q.nat 2), nameRange (q.nat 3) (q.nat 4)]) fun q s =>
    withCtx s (q.nat 2) false fun c =>
      let img := q.nat 3
      let n := q.nat 4
      let va := q.nat 5
      let h := s.readPhys img 64
      if !inMap img n ∨ n % 64 ≠ 0 ∨ n < 64 ∨ va % 64 ≠ 0 ∨ fieldAt h 8 8 ≠ n - 64 ∨ 256 < fieldAt h 4 2 ∨ fieldAt h 6 2 ≠ 0 ∨ (h.drop 16).any (· ≠ 0) then
        .reject stBADVALUE 0
      else match c.rangeStatus va (n - 64) (·.x) with
        | some (st, a) => .reject st a
        | none =>
          let s1 := s.pokeVa c va (s.readPhys (img + 64) (n - 64))
          .done { s1 with line := none, nextCode := s1.nextCode + 1,
                          codes := s1.codes ++ [⟨s1.nextCode, c.num, va, n - 64, fieldAt h 0 4, fieldAt h 4 2, 1⟩] } s1.nextCode

/-- An address lies in a code object. -/
def CodeObj.holds (c : CodeObj) (pc : Nat) : Bool := c.va ≤ pc && pc < c.va + c.size

/-- Resident gangs that execute in a code object. -/
def State.gangsIn (s : State) (o : CodeObj) : Nat :=
  (s.gangs.filter fun g => s.ctxNum g == o.ctx && g.threads.any fun x => !x.exited && o.holds x.pc).length

/-- References of saved contexts: saved PCs and recipe slices (R359). -/
def State.savedRefs (s : State) (o : CodeObj) : Nat :=
  ((s.saved.filter fun v => v.ctx == o.ctx).map fun v => (v.gangs.map fun g =>
    (g.threads.filter fun x => !x.exited && o.holds x.pc).length + (g.descs.filter fun d => o.holds d.slice).length).sum).sum

/-- The bytes of saved scratchpads, and their poison, come back. -/
def State.putScratch (s : State) (v : Saved) : State :=
  let s1 := v.scratch.foldl (fun s x => { s with mem := memPut s.mem (scratchLoc x.1 0) x.2 }) s
  { s1 with poison := s1.poison ++ v.poison.filter (· ∉ s1.poison) }

/-- The bytes of a range as memory holds them, a block's scratchpad at its window; none when some byte is not there. -/
def State.bytesOf (s : State) (c : Context) (b : Option Block) (va n : Nat) : Option (List Byte) :=
  match accessRange c b { r := true } va n with
  | .error _ => none
  | .ok l => some (l.flatMap fun x => rbVals (s.fwBytes (some c.num) (x.2.seg (partEnd va n x.1 - x.1))))

/-- The PC of the save-area continuation that a token stands for (R183, R282, R359): of a MULTI frame that its effect is still in. -/
def State.contPc (s : State) (c : Context) (b : Option Block) (w : Word) : Option Nat :=
  (s.bytesOf c b (tokFrame w) 32).bind fun bs =>
    let fr := Frame.ofBytes bs
    if fr.gen ≠ bits w.toNat 63 48 ∨ fr.st = idleSt ∨ !fr.multi then none
    else (s.bytesOf c b fr.save 8).map fun v => bits (fieldAt v 0 8) 55 0

/-- Save-area continuations in a code object: those of the live tokens of a context's threads, resident or saved (R359). -/
def State.contRefs (s : State) (o : CodeObj) : Nat :=
  match s.ctx? o.ctx with
  | none => 0
  | some c =>
    let count (t : State) (b : Option Block) (g : Gang) : Nat :=
      ((g.threads.filter Thread.live).map fun x => (x.toks.filter fun k => (t.contPc c b k.word).any o.holds).length).sum
    ((s.gangs.filter fun g => s.ctxNum g == o.ctx).map fun g => count s (s.blockOf g) g).sum +
      ((s.saved.filter fun v => v.ctx == o.ctx).map fun v =>
        (v.gangs.map fun g => count (s.putScratch v) (v.blocks.find? fun b => b.bid == g.bid) g).sum).sum

def Graph.names (g : Graph) (code : Nat) : Bool := g.nodes.any fun n => n.code == code

/-- What names a code object (R359). DEDUCED, log entry 67. -/
def State.codeRefs (s : State) (o : CodeObj) : Nat := (s.graphs.filter fun g => g.names o.handle).length + s.gangsIn o + s.savedRefs o + s.contRefs o

/-- R359: CODE_UNLOAD. -/
def execCodeUnload (p : Packet) (s : State) : Host.Outcome State Fault Refusal :=
  command [{ id := 2, lens := [4] }, noFlag 3] p s false (fun q => [nameCode (q.nat 2)]) fun q s =>
    match s.code? (q.nat 2) with
    | none => .reject stBADVALUE 0
    | some o =>
      if s.codeRefs o ≠ 0 then .reject stBUSY (s.codeRefs o)
      else .done { s with codes := s.codes.filter fun x => x.handle != o.handle } 0

/-- Waiting replays of unusable graphs become launches that complete FAULTED. -/
def State.faultReplay (s : State) (r : Replay) : State :=
  match s.queues.find? fun q => q.kick == r.kick, s.ctx? r.ctx, s.graph? r.graph with
  | some q, some c, some g =>
    let ls := (s.makeLaunches c r g q []).map fun l => { l with ksize := 0 }
    ls.foldl (fun s l => s.finish l .faulted) { s with launches := s.launches ++ ls, nextLaunch := s.nextLaunch + ls.length,
                                                       replays := s.replays.filter fun x => x.id != r.id }
  | _, _, _ => { s with replays := s.replays.filter fun x => x.id != r.id }

/-- A launch that has not started. -/
def Launch.waiting (l : Launch) : Bool := l.state == .pending || l.state == .ready || l.state == .featureWait

/-- R359: CODE_UNLOAD with FORCE. A thread whose saved PC lies elsewhere resumes normally, whatever its recipes name. Log entry 105. -/
def execCodeUnloadForce (p : Packet) (s : State) : Host.Outcome State Fault Refusal :=
  command [{ id := 2, lens := [4] }, { id := 3, lens := [0] }] p s false (fun q => [nameCode (q.nat 2)]) fun q s =>
    match s.code? (q.nat 2) with
    | none => .reject stBADVALUE 0
    | some o =>
      if s.gangsIn o ≠ 0 then .reject stBUSY (s.codeRefs o)
      else
        let lost := (s.graphs.filter fun g => g.names o.handle).map (·.handle)
        let gone (v : Saved) : List (Nat × Nat) := v.gangs.flatMap fun g =>
          (g.threads.filter fun x => !x.exited && o.holds x.pc).map fun x => (g.gid, x.thr)
        let s1 : State :=
          { s with codes := s.codes.filter fun x => x.handle != o.handle,
                   graphs := s.graphs.map fun g => if g.handle ∈ lost then { g with usable := false } else g,
                   saved := s.saved.map fun v => if v.ctx = o.ctx then { v with gone := v.gone ++ gone v } else v }
        let s2 : State := (s1.launches.filter fun l => l.graph ∈ lost && l.waiting).foldl (fun s l => s.finish l .faulted) s1
        .done ((s2.replays.filter fun r => r.graph ∈ lost).foldl State.faultReplay s2) 0

/-! ### Re-packing (R51, R71, R357) -/

/-- The boundaries of the lines of some code: offset of each instruction. -/
def boundaries (bs : List Byte) : List Nat :=
  (List.range (bs.length / 64)).flatMap fun k =>
    let l := bytesToLine ((bs.drop (64 * k)).take 64)
    if l.map?.isSome then [] else l.starts.map fun e => 64 * k + 4 + 4 * e.1

/-- The safe-point map of code that moved from `old` to `new` (R51). -/
def safeMap (old new n : Nat) (offs : List Nat) : List Byte :=
  leBytes 8 old ++ leBytes 8 n ++ leBytes 4 offs.length ++ leBytes 12 0 ++ offs.flatMap fun o => leBytes 4 o ++ leBytes 4 0 ++ leBytes 8 (new + o)

/-- A forwarding line (R50). -/
def forwardLine (map : Nat) : FLine :=
  makeLine 0 0x7FFF (BitVec.ofNat 32 map :: BitVec.ofNat 32 (map / 2 ^ 32) :: List.replicate 13 0xFFFFFFFF)

/-- Overwrite every line of a code object with a forwarding line (R357). -/
def State.replaceCode (s : State) (c : Context) (o : CodeObj) (map : Nat) : State :=
  (List.range (o.size / 64)).foldl (fun s k => s.pokeVa c (o.va + 64 * k) (forwardLine map).bytes) s

/-- REPACK: new code of one meaning with the old, here its copy, and the map behind it (R71, R357). Log entry 25. -/
def runRepack (replace : Bool) (q : Parsed) (s : State) : CmdResult :=
  match s.code? (q.nat 2) with
  | none => .reject stBADVALUE 0
  | some o => withCtx s o.ctx false fun c =>
    let va := q.nat 4
    if va % 64 ≠ 0 ∨ q.nat 3 = 0 then .reject stBADVALUE 0
    else match s.readCtx c o.va o.size with
      | .error a => .reject stNOTMAPPED a
      | .ok bs =>
        let m := safeMap o.va va o.size (boundaries bs)
        match c.rangeStatus va o.size (·.x) with
        | some (st, a) => .reject st a
        | none => match c.rangeStatus (va + o.size) m.length (·.r) with
          | some (st, a) => .reject st a
          | none =>
            let s1 := (s.pokeVa c va bs).pokeVa c (va + o.size) m
            let s2 := if replace then s1.replaceCode c o (va + o.size) else s1
            .done { s2 with line := none, nextCode := s2.nextCode + 1,
                            codes := s2.codes ++ [{ o with handle := s2.nextCode, va := va, revision := q.nat 3 }] } s2.nextCode

def repackSpecs : List FieldSpec := [{ id := 2, lens := [4] }, { id := 3, lens := [1] }, { id := 4, lens := [8] }]

def repackNames (s : State) (q : Parsed) : List (Nat × Nat) :=
  nameCode (q.nat 2) :: (((s.code? (q.nat 2)).map fun o => nameCtx o.ctx).toList)

/-- R357: REPACK. -/
def execRepack (p : Packet) (s : State) : Host.Outcome State Fault Refusal := command (repackSpecs ++ [noFlag 5]) p s false (repackNames s) (runRepack false)

/-- R357: REPACK with REPLACE. -/
def execRepackReplace (p : Packet) (s : State) : Host.Outcome State Fault Refusal :=
  command (repackSpecs ++ [{ id := 5, lens := [0] }]) p s false (repackNames s) (runRepack true)

/-! ### Graphs (R340, R342) -/

/-- An entry passes R45 as the code stands; an entry in a forwarding line is accepted (R340). -/
def State.entryOk (s : State) (c : Context) (o : CodeObj) (entry : Nat) : Bool :=
  decide (entry < o.size) && (match translate c none (lineOf (o.va + entry)) with
    | .ok _ =>
      let l := bytesToLine (s.bytesAt c (lineOf (o.va + entry)) 64)
      l.map?.isSome || l.targetOk true (o.va + entry)
    | .error _ => false)

/-- A node record (R340, R342): a status and detail, or the node. -/
def State.readNode (s : State) (c : Context) (bs : List Byte) : Except (Nat × Nat) Node :=
  let f := fieldAt bs
  let nb := (f 8 4, f 12 4, f 16 4)
  let inBlk (n : Nat) : Bool := 1 ≤ n && n ≤ 2 ^ 20
  match s.code? (f 0 4) with
  | none => .error (stBADVALUE, 0)
  | some o =>
    if o.ctx ≠ c.num ∨ !s.entryOk c o (f 4 4) ∨ !(inBlk nb.1 && inBlk nb.2.1 && inBlk nb.2.2) ∨ 2 ^ 32 < nb.1 * nb.2.1 * nb.2.2 ∨
        f 20 2 = 0 ∨ 1024 < f 20 2 ∨ 1024 < f 22 2 ∨ Config.scratchBytes < f 24 4 ∨ 64 < f 28 1 ∨ 2 < f 29 1 ∨ f 30 2 ≠ 0 ∨
        f 40 2 % 8 ≠ 0 ∨ 4096 < f 40 2 ∨ f 42 2 ≠ 0 ∨ (f 44 4 ≠ 0 ∧ (f 44 4 < 1000 ∨ 2000000 < f 44 4)) ∨ (bs.drop 48).any (· ≠ 0) then
      .error (stBADVALUE, 0)
    else if Config.physRods < (f 20 2 + 31) / 32 * o.minrods then .error (stNORESOURCE, 0)
    else match s.readCtx c (f 32 8) (f 40 2) with
      | .error a => .error (stNOTMAPPED, a)
      | .ok t => .ok ⟨f 0 4, f 4 4, nb, f 20 2, f 24 4, f 22 2, f 28 1, f 29 1, f 44 4, t⟩

/-- An edge record (R341, R342). -/
def readEdge (nn : Nat) (bs : List Byte) : Except (Nat × Nat) Edge :=
  let f := fieldAt bs
  if nn ≤ f 0 2 ∨ nn ≤ f 2 2 ∨ 1 < f 4 1 ∨ f 5 3 ≠ 0 ∨ (f 4 1 = 0 ∧ f 8 8 ≠ 0) ∨ (f 4 1 = 1 ∧ (f 28 2 = 0 ∨ f 30 2 = 0)) then .error (stBADVALUE, 0)
  else .ok ⟨f 0 2, f 2 2, if f 4 1 = 1 then some ⟨f 8 8, f 16 8, f 24 4, f 28 2, f 30 2⟩ else none⟩

/-- Take away, n times, the nodes that no remaining node precedes. -/
def peel (es : List Edge) : Nat → List Nat → List Nat
  | 0, ns => ns
  | k + 1, ns => peel es k (ns.filter fun n => es.any fun e => e.dst == n && e.src ∈ ns)

def acyclic (n : Nat) (es : List Edge) : Bool := (peel es n (List.range n)).isEmpty

/-- A graph object at a virtual address (R340, R342). -/
def State.readGraph (s : State) (c : Context) (va handle : Nat) : Except (Nat × Nat) Graph :=
  if va % 64 ≠ 0 then .error (stBADVALUE, 0)
  else match s.readCtx c va 64 with
    | .error a => .error (stNOTMAPPED, a)
    | .ok h =>
      let f := fieldAt h
      let nn := f 0 2
      let ne := f 4 4
      if nn = 0 ∨ 4096 < nn ∨ 16384 < ne ∨ f 2 2 ≠ 0 ∨ f 12 4 ≠ 0 ∨ f 16 8 % 64 ≠ 0 ∨ f 24 8 % 32 ≠ 0 ∨ (h.drop 40).any (· ≠ 0) ∨
          f 32 8 < 64 ∨ f 32 8 < f 16 8 + 64 * nn ∨ f 32 8 < f 24 8 + 32 * ne then .error (stBADVALUE, 0)
      else match s.readCtx c va (f 32 8) with
        | .error a => .error (stNOTMAPPED, a)
        | .ok bs => match collect (fun k => s.readNode c ((bs.drop (f 16 8 + 64 * k)).take 64)) (List.range nn) with
          | .error x => .error x
          | .ok nodes => match collect (fun k => readEdge nn ((bs.drop (f 24 8 + 32 * k)).take 32)) (List.range ne) with
            | .error x => .error x
            | .ok edges =>
              let feat := nodes.foldl (fun m n => m ||| (((s.code? n.code).map (·.feat)).getD 0)) 0
              if feat ≠ f 8 4 ∨ !acyclic nn edges then .error (stBADVALUE, 0) else .ok ⟨handle, c.num, nodes, edges, feat, true, bs⟩

/-- The lowest graph handle that is free. -/
def State.freeGraph (s : State) : Nat := ((List.range' 1 (s.graphs.length + 1)).find? fun n => s.graphs.all fun g => g.handle != n).getD 1

/-- R335, R340: GRAPH_LOAD. -/
def execGraphLoad (p : Packet) (s : State) : Host.Outcome State Fault Refusal :=
  command [{ id := 2, lens := [4] }, { id := 3, lens := [8] }] p s false (fun q => [nameCtx (q.nat 2)]) fun q s =>
    withCtx s (q.nat 2) false fun c =>
      let h := s.freeGraph
      if 2 ^ 16 ≤ h then .reject stNORESOURCE 0
      else match s.readGraph c (q.nat 3) h with
        | .error (st, d) => .reject st d
        | .ok g => .done { s with graphs := s.graphs ++ [g] } h

/-- Replays of a graph that have not completed. -/
def State.graphRefs (s : State) (h : Nat) : Nat :=
  (s.replays.filter fun r => r.graph == h).length +
    (((s.launches.filter fun l => l.graph == h && l.state != .complete).map (·.replay)).dedup).length

/-- R335: GRAPH_FREE; BUSY while a replay of it has not completed. -/
def execGraphFree (p : Packet) (s : State) : Host.Outcome State Fault Refusal :=
  command [{ id := 2, lens := [2] }] p s false (fun q => [nameGraph (q.nat 2)]) fun q s =>
    match s.graph? (q.nat 2) with
    | none => .reject stBADVALUE 0
    | some g =>
      if s.graphRefs g.handle ≠ 0 then .reject stBUSY (s.graphRefs g.handle)
      else .done { s with graphs := s.graphs.filter fun x => x.handle != g.handle } 0

/-! ### Queues (R336, R343, R408) -/

def isPow2 (lo hi n : Nat) : Bool := (List.range' lo (hi + 1 - lo)).any fun k => n == 2 ^ k

/-- Launches of a kick register that have not completed, those of waiting replays included. -/
def State.liveOf (s : State) (kick : Nat) : Nat :=
  (s.launches.filter fun l => l.kick == kick && l.state != .complete).length +
    ((s.replays.filter fun r => r.kick == kick).map fun r => ((s.graph? r.graph).map fun g => g.nodes.length).getD 0).sum

/-- R335, R336, R343, R408: QUEUE_BIND. -/
def execQueueBind (p : Packet) (s : State) : Host.Outcome State Fault Refusal :=
  command [{ id := 2, lens := [1] }, { id := 3, lens := [4] }, { id := 4, lens := [8] }, { id := 5, lens := [4] }, { id := 6, lens := [8] },
      { id := 7, lens := [4] }, { id := 8, lens := [8] }, { id := 9, lens := [4] },
      { id := 0x10, lens := [1], req := false, ok := fun b => 2 ≤ leNat b && leNat b ≤ 63 }] p s false
    (fun q => [nameQueue (q.nat 2), nameCtx (q.nat 3), nameRange (q.nat 4) (q.nat 5), nameRange (q.nat 6) (q.nat 7)]) fun q s =>
    withCtx s (q.nat 3) false fun c =>
      if !inMap (q.nat 4) (q.nat 5) ∨ !inMap (q.nat 6) (q.nat 7) ∨ q.nat 4 % 64 ≠ 0 ∨ q.nat 5 % 64 ≠ 0 ∨ q.nat 6 % 4096 ≠ 0 ∨ !isPow2 12 20 (q.nat 7) ∨ q.nat 8 % 4096 ≠ 0 ∨ !isPow2 12 26 (q.nat 9) then
        .reject stBADVALUE 0
      else if s.liveOf (q.nat 2) ≠ 0 then .reject stBUSY (s.liveOf (q.nat 2))
      else match c.rangeStatus (q.nat 8) (q.nat 9) ringPage with
        | some (st, a) => .reject st a
        | none =>
          .done { s with queues := s.queues.filter (fun x => x.kick != q.nat 2) ++
            [⟨q.nat 2, c.num, q.nat 4, q.nat 5, q.nat 6, q.nat 7, q.nat 8, q.nat 9, 0, q.nat 0x10, 0, false, false⟩] } 0

end Sys2Proof.Machine
end

