-- ==== Sys2Proof/Machine/CrossLane.lean ====
section
/-! DEFINITION. Cross-lane instructions: SHFL, SHFLI, BCAST, VOTE, REDUX, SCANX and MATCH (R138 to R143). -/

namespace Sys2Proof.Machine
open Host

/-! ### Reading another thread (R138) -/

/-- Source beads read so far: by thread, the fault or poison that a reader meets, and whether any must wait. -/
structure Sources where
  s : State
  vals : List (Nat × Word)
  faults : List (Nat × Nat × Nat × Nat × Nat)
  bads : List (Nat × Nat × Word)
  wait : Bool
  deriving DecidableEq, Repr

/-- The current bead of a source thread that does not participate (R138). -/
def readSource (p : Prep) (r : Reg) (k : Sources) (u : Nat) : Sources :=
  match p.e.g.thread? u with
  | none => { k with vals := alSet k.vals u 0 }
  | some x =>
    if k.s.loadPending p.e.g.gid u (p.e.g.regNum r) then
      let (v, s) := k.s.freeVal
      { k with s := s, vals := alSet k.vals u v }
    else match readOperand k.s p.e u r with
      | .cap (.bad _ code addr) _ _ => { k with bads := k.bads ++ [(u, code, addr)] }
      | .cap c wids _ => { k with s := k.s.note p.e.g.gid u k.s.nextId .ld wids, vals := alSet k.vals u c.word }
      | .wait => { k with wait := true }
      | .fault sl ix sb ea =>
        if x.exited then
          let (v, s) := k.s.freeVal
          { k with s := s, vals := alSet k.vals u v }
        else { k with faults := k.faults ++ [(u, sl, ix, sb, ea)] }

/-- Operand A of a thread of a re-injected instruction, as captured; none when it was not filled. -/
def Prep.filledA (p : Prep) (t : Nat) : Option Cap :=
  p.s.cur.cap.bind fun e => (e.ops.find? fun o => o.thr == t).bind fun o =>
    match o.a with
    | .val _ | .bad .. => some o.a
    | _ => none

/-- The rods that a cross-lane instruction regenerates for its sources alone: its participating threads have theirs captured (R223). -/
def Prep.sourceRods (p : Prep) (a : Reg) (needed : List Nat) : List Nat :=
  if p.e.g.kReg a || needed.all (fun u => (p.e.g.thread? u).isNone) || p.parts.any (fun t => (p.filledA t).isNone) then []
  else p.e.g.regenSet [a.toNat]

/-- What a re-injected cross-lane instruction has captured as the value that a thread reads from its source (R228). -/
def Prep.asRead (p : Prep) (t : Nat) : Option Cap :=
  if p.s.cur.cap.any (·.asRead) then p.filledA t else none

/-- What the threads of a cross-lane instruction find: the sources read, each thread's fault and poison, its own or that of the source that it
reads, and the values. `own` are faults of the threads' own beads. -/
structure Crossed where
  r : Sources
  fault : Nat → Option Fail
  bad : Nat → Option (Nat × Word)
  val : Nat → Nat → Word

/-- Read the sources; a fault or poison of a source reaches every thread that reads it, participating source or not (R138). -/
def Prep.cross (p : Prep) (a : Reg) (src : Prep → Nat → Option Nat) (own : List Fail) (ownBad : List (Nat × Nat × Word)) : Crossed :=
  let again := p.s.cur.cap.any (·.asRead)
  let readers := p.parts.filter fun t => (p.asRead t).isNone
  let needed := ((readers.filterMap (src p)).filter fun u => u ∉ p.parts || again).dedup
  let r := needed.foldl (readSource p a) ⟨{ p.s with nextId := p.s.nextId + 1 }, [], [], [], false⟩
  let failOf (t u : Nat) : Option Fail :=
    match if again then none else own.find? fun f => f.thr == u with
    | some f => some { f with thr := t }
    | none => (r.faults.find? fun f => f.1 == u).map fun f => Fail.mk t (BitVec.ofNat 64 f.2.2.2.2) (tsliceWord f.2.1 f.2.2.1 f.2.2.2.1)
  let badOf (u : Nat) : Option (Nat × Word) :=
    ((if again then none else ownBad.find? fun f => f.1 == u).or (r.bads.find? fun f => f.1 == u)).map (·.2)
  let fault (t : Nat) : Option Fail := (own.find? fun f => f.thr == t).or (if t ∈ readers then (src p t).bind (failOf t) else none)
  let bad (t : Nat) : Option (Nat × Word) :=
    ((ownBad.find? fun f => f.1 == t).map (·.2)).or (match p.asRead t with
      | some (.bad _ code addr) => some (code, addr)
      | some _ => none
      | none => (src p t).bind badOf)
  let ofSource (u : Nat) : Word := match alGet r.vals u with
    | some v => v
    | none => p.a u
  let val (t u : Nat) : Word := match p.asRead t with
    | some c => c.word
    | none => ofSource u
  ⟨r, fault, bad, val⟩

/-- Operand A of the entry is, for each thread, what it reads from its source; unfilled where that faulted (R228). -/
def Prep.crossCaps (p : Prep) (src : Prep → Nat → Option Nat) (c : Crossed) : List CapOp :=
  p.ops.map fun o => { o with a := match c.fault o.thr, c.bad o.thr, src p o.thr with
    | some _, _, _ => .unfilled
    | none, some b, some u => .bad (c.val o.thr u) b.1 b.2
    | none, none, some u => .val (c.val o.thr u)
    | none, _, none => o.a }

/-- The trap of a cross-lane instruction: of the two causes that of the lowest thread, in every thread that failed with it (R138, R372). -/
def Prep.crossTrap (p : Prep) (i : Instr) (src : Prep → Nat → Option Nat) (c : Crossed) : Option State :=
  let fs := p.parts.filterMap c.fault
  let bs := (p.parts.filter fun t => (c.fault t).isNone).filterMap fun t => (c.bad t).map fun b => (b.1, Fail.mk t b.2 0)
  match fs, bs with
  | [], [] => none
  | f :: _, _ =>
    if bs.all fun b => f.thr < b.2.thr then some (p.s0.trapQueue i cREGEN (bits f.tslice.toNat 59 56) fs p.parts (p.crossCaps src c) true)
    else some (p.s0.trapQueue i cMEMUE ((bs.head?.map (·.1)).getD 0) (bs.map (·.2)) p.parts (p.crossCaps src c) true)
  | [], b :: _ => some (p.s0.trapQueue i cMEMUE b.1 (bs.map (·.2)) p.parts (p.crossCaps src c) true)

/-- Some participating threads' own beads fault or are poisoned: the trap, with the threads that read those beads (R138); none where the
instruction must wait or nothing fails. -/
def crossOwn (i : Instr) (a : Reg) (s : State) (src : Prep → Nat → Option Nat) : Option State :=
  match s.env? s.cur.gid with
  | none => none
  | some e =>
    let parts := participants s e.g i
    let taken := parts.map fun t => takeOps s e (srcsOf i) t
    let own := taken.filterMap (·.fail)
    let ops := taken.map (·.op)
    let ownBad := (parts.filter fun t => own.all fun f => f.thr != t).filterMap fun t =>
      (firstBad e.g ((ops.find? fun o => o.thr == t).getD (CapOp.none t)) []).map fun b => (t, b)
    if (e.g.spec.isSome && (e.g.specFull || s.specWaits e i parts)) || (taken.any (·.wait)) || (own.isEmpty && ownBad.isEmpty) then none
    else
      let p : Prep := ⟨s, s, e, parts, ops, []⟩
      p.crossTrap i src (p.cross a src own ownBad)

/-- An instruction that reads bead(a) of the source that `src` gives each participating thread. A fault of a source stands in the entry as
operand A of the threads that read it (R228). -/
def crossExec (i : Instr) (a : Reg) (s : State) (src : Prep → Nat → Option Nat) (k : Prep → (Nat → Nat → Word) → Gang → Gang) :
    Host.Outcome State Fault Refusal :=
  .next (match prepare i s with
    | .error s' => (crossOwn i a s src).getD s'
    | .ok p =>
      let c := p.cross a src [] []
      match p.crossTrap i src c with
      | some s' => s'
      | none =>
        if c.r.wait then p.s0.stallAt p.s.cur.mask .held
        else
          let needed := (((p.parts.filter fun t => (p.asRead t).isNone).filterMap (src p)).filter fun u =>
            u ∉ p.parts || p.s.cur.cap.any (·.asRead)).dedup
          ((c.r.s.regens (p.sourceRods a needed)).modGang p.e.g.gid fun g => k p c.val g).complete i p.parts)

/-! ### SHFL and SHFLI (R139) -/

/-- The position that thread t reads, if it lies in its segment (R139). -/
def shflSource (mode : ShflMode) (w : Nat) (t b : Nat) : Option Nat :=
  let base := t - t % w
  let j := t % w
  match mode with
  | .idx => some (base + b % w)
  | .up => if b ≤ j then some (base + (j - b)) else none
  | .down => if j + b < w then some (base + (j + b)) else none
  | .xor => let k := j ^^^ (b % w); if k < w then some (base + k) else none

def shflExec (i : Instr) (ty : Ty) (mode : ShflMode) (w : BitVec 3) (d a : Reg) (pc : Pred) (b : Prep → Nat → Nat) (s : State) :
    Host.Outcome State Fault Refusal :=
  let src (p : Prep) (t : Nat) : Option Nat := shflSource mode (2 ^ w.toNat) t (b p t)
  crossExec i a s src fun p val g =>
    p.parts.foldl (fun g t =>
      let r := match src p t with | some u => (val t u, true) | none => (p.a t, false)
      (g.writeReg d t (valMov ty r.1)).modThread t fun x => x.setPred pc r.2) g

/-- R139: SHFL. Its shift operand is the whole bead(b) for ty 0 too. DESIGN CHOICE, log entry 113. -/
def execShfl (g : Guard) (ty : Ty) (mode : ShflMode) (w : BitVec 3) (d a b : Reg) (pc : Pred) (s : State) :
    Host.Outcome State Fault Refusal :=
  shflExec (.shfl g ty mode w d a b pc) ty mode w d a pc (fun p t => (p.b t).toNat) s

/-- R139: SHFLI. -/
def execShfli (g : Guard) (ty : Ty) (mode : ShflMode) (w : BitVec 3) (d a : Reg) (imm : BitVec 5) (pc : Pred) (s : State) :
    Host.Outcome State Fault Refusal :=
  shflExec (.shfli g ty mode w d a imm pc) ty mode w d a pc (fun _ _ => imm.toNat) s

/-! ### BCAST (R140) -/

/-- The source position of BCAST. -/
def bcastSource (src : BcastSrc) (p : Prep) : Option Nat :=
  match src with
  | .lane k => some k.toNat
  | .low => p.parts.head?

/-- R140: BCAST. -/
def execBcast (g : Guard) (ty : Ty) (d a : Reg) (src : BcastSrc) (s : State) : Host.Outcome State Fault Refusal :=
  crossExec (.bcast g ty d a src) a s (fun p _ => bcastSource src p) fun p val g =>
    p.parts.foldl (fun g t => g.writeReg d t (valMov ty (((bcastSource src p).map (val t)).getD 0))) g

/-! ### VOTE (R141) -/

/-- The predicate that VOTE reads in a thread. -/
def votePred (p : Prep) (inv : Bool) (pa : Pred) (t : Nat) : Bool := (((p.e.g.thread? t).map fun x => x.pred pa).getD false) != inv

/-- R141: VOTE. -/
def execVote (g : Guard) (mode : VoteMode) (inv : Bool) (d : Reg) (pa : Pred) (s : State) : Host.Outcome State Fault Refusal :=
  let i := Instr.vote g mode inv d pa
  withPrep i s fun p =>
    let yes := p.parts.filter (votePred p inv pa)
    let res : Bool := match mode with
      | .ballot => false
      | .all => yes.length == p.parts.length
      | .any => !yes.isEmpty
      | .eq => yes.isEmpty || yes.length == p.parts.length
    State.complete (p.s.modGang p.e.g.gid fun g =>
      p.parts.foldl (fun g t => if mode = .ballot then g.writeReg d t (BitVec.ofNat 64 (maskNat yes))
        else g.modThread t fun x => x.setPred (d.setWidth 3) res) g) i p.parts

/-! ### REDUX and SCANX (R40, R142) -/

/-- The mode of a float add: fn[2:0], or %fpc of the lowest participating thread. -/
def Prep.reduceMode (p : Prep) (rnd : Rnd) : RM :=
  RM.of rnd (((p.parts.head?.bind fun t => p.e.g.thread? t).map (·.fpc)).getD 1)

/-- R142: REDUX. -/
def execRedux (g : Guard) (op : RedOp) (ty : Ty) (rnd : Rnd) (d a : Reg) (s : State) : Host.Outcome State Fault Refusal :=
  let i := Instr.redux g op ty rnd d a
  withPrep i s fun p =>
    let r := reduce op ty (p.reduceMode rnd) (p.parts.map fun t => (t, p.a t))
    State.complete (p.s.modGang p.e.g.gid fun g =>
      p.parts.foldl (fun g t => g.putLane t { regs := [(d, valMov ty r.1)], fl := r.2 }) g) i p.parts

/-- R142: SCANX: the root over the participating positions below. -/
def execScanx (g : Guard) (op : RedOp) (ty : Ty) (rnd : Rnd) (d a : Reg) (s : State) : Host.Outcome State Fault Refusal :=
  let i := Instr.scanx g op ty rnd d a
  withPrep i s fun p =>
    State.complete (p.s.modGang p.e.g.gid fun g =>
      p.parts.foldl (fun g t =>
        let r := reduce op ty (p.reduceMode rnd) ((p.parts.filter (· < t)).map fun u => (u, p.a u))
        g.putLane t { regs := [(d, valMov ty r.1)], fl := r.2 }) g) i p.parts

/-! ### MATCH (R143) -/

/-- R143: MATCH. -/
def execMatchv (g : Guard) (ty : Ty) (d a : Reg) (pc : Pred) (s : State) : Host.Outcome State Fault Refusal :=
  let i := Instr.matchv g ty d a pc
  withPrep i s fun p =>
    State.complete (p.s.modGang p.e.g.gid fun g =>
      p.parts.foldl (fun g t =>
        let same := p.parts.filter fun u => valMov ty (p.a u) == valMov ty (p.a t)
        (g.writeReg d t (BitVec.ofNat 64 (maskNat same))).modThread t fun x => x.setPred pc (same.length == p.parts.length)) g) i p.parts

end Sys2Proof.Machine
end

