-- ==== Sys2Proof/Machine/Sections.lean ====
section
/-! DEFINITION. The sections of a saved context (R231, R244, R276, R355) that both a save area and an image hold. What the layout leaves open is log
entry 26. -/

namespace Sys2Proof.Machine
open Host

/-! ### Records (R355) -/

/-- Pad bytes with zeros to a multiple of 64. -/
def padTo64 (bs : List Byte) : List Byte := bs ++ List.replicate (round64 bs.length - bs.length) 0

/-- A section: its header, its body, and padding up to the next multiple of 64. -/
def imageSection (kind count : Nat) (body : List Byte) : List Byte :=
  padTo64 (leBytes 2 kind ++ leBytes 2 0 ++ leBytes 4 count ++ leBytes 8 body.length ++ body)

/-- Exactly n bytes, zeros behind what is there. -/
def fit (n : Nat) (bs : List Byte) : List Byte := (bs ++ List.replicate n 0).take n

def tileBytes (t : Tile) : List Byte :=
  (List.range 32).flatMap fun r => ((List.range 128).flatMap fun c => leBytes 4 (t.word r c).toNat) ++ leBytes 8 (t.flag r).toNat

def planeBytes (p : Plane) : List Byte :=
  fit 64 [BitVec.ofNat 8 p.wfmt] ++ (List.range 128).flatMap fun c => fit (64 * runBlocks p.wfmt) ((alGet p.cols c).getD [])

/-- The descriptor record of R231. -/
def descBytes (g : Gang) (d : Desc) : List Byte :=
  let st := if g.isRecipe d.rod then 2 else 1
  leBytes 8 (d.slice % 2 ^ 56) ++ leBytes 4 (maskNat d.mask) ++ leBytes 4 d.olth.toNat ++ leBytes 1 d.rod ++ leBytes 1 (st + 4 * d.mode)
    ++ leBytes 1 d.inputs.length ++ leBytes 1 0 ++ fit 4 (d.inputs.map fun r => BitVec.ofNat 8 r.toNat) ++ leBytes 8 0

/-- A rod record: none for a VOID rod. -/
def rodBytes (g : Gang) (r : Nat) : List Byte :=
  let head (k : Nat) : List Byte := leBytes 1 r ++ leBytes 1 k ++ leBytes 6 0
  match alGet g.rods r, g.desc? r with
  | some (.value bs), none => head 1 ++ bs.flatMap fun b => leBytes 8 b.toNat
  | some (.value bs), some d => head 2 ++ (bs.flatMap fun b => leBytes 8 b.toNat) ++ descBytes g d
  | some .recipe, some d => head 3 ++ descBytes g d
  | _, _ => []

/-- A replay-queue entry: 64 bytes, then the operands of threads 0 to 31. -/
def entryBytes (q : RqEntry) : List Byte :=
  let cap (k : Slot) (t : Nat) : Cap := q.opnd t k
  let slots := [Slot.a, .b, .c, .d]
  let unfilled (k : Slot) : Nat := maskNat ((List.range 32).filter fun t => cap k t == .unfilled)
  leBytes 8 q.pc ++ leBytes 8 q.enc.toNat ++ leBytes 4 q.lit.toNat ++ leBytes 4 (maskNat q.mask) ++ leBytes 4 q.stateNat
    ++ (slots.flatMap fun k => leBytes 4 (unfilled k)) ++ leBytes 20 0
    ++ slots.flatMap fun k => (List.range 32).flatMap fun t => leBytes 8 (cap k t).word.toNat

def gangBytes (bord : Nat) (g : Gang) : List Byte :=
  let rods := (g.rods.map (·.1)).map fun r => rodBytes g r
  let tr (f : TrapMode → Nat) : Nat := (g.trap.map f).getD 0
  leBytes 4 bord ++ leBytes 2 g.idx ++ leBytes 1 (!g.active).toNat ++ leBytes 1 g.trap.isSome.toNat ++ leBytes 8 g.tmr.toNat
    ++ leBytes 8 g.rcpst.toNat ++ leBytes 2 (rods.filter fun b => !b.isEmpty).length ++ leBytes 6 0
    ++ leBytes 8 (tr fun m => m.cause + 2 ^ 8 * m.code) ++ leBytes 4 (tr fun m => maskNat m.mask) ++ leBytes 1 (tr fun m => m.queue.length)
    ++ leBytes 19 0 ++ rods.flatten ++ ((g.trap.map (·.queue)).getD []).flatMap entryBytes

/-- The phase of an object in a scratchpad image. -/
def phaseIn (scr : List Byte) (off : Nat) : Nat := (BObj.ofNat (fieldAt scr off 16)).phase

/-- Registration entries: the thread's own first, then those at objects of the whole-block list, arrivals before others (R244). -/
def regBytes (b : Block) (scr : List Byte) (x : Thread) : List Byte :=
  let whole := (b.wblist.filter fun o => b.registers x o && x.regs.all fun r => r.off != o).map fun o => Reg1.mk o none
  let rs := (x.regs.filter fun r => r.off ∉ b.wblist) ++ (x.regs.filter fun r => r.off ∈ b.wblist) ++ whole
  leBytes 4 (min 16 rs.length) ++ leBytes 28 0 ++
    fit 128 ((rs.take 16).flatMap fun r => leBytes 4 r.off ++ leBytes 4 (r.arrived == some (phaseIn scr r.off)).toNat)

def threadBytes (b : Block) (scr : List Byte) (gord : Nat) (g : Gang) (x : Thread) : List Byte :=
  let fl := (g.trap.any fun m => x.thr ∈ m.mask).toNat + 2 * (x.lser == .turn).toNat + 4 * (x.lser == .waiting).toNat + 8 * x.exited.toNat
  leBytes 4 gord ++ leBytes 1 x.thr ++ leBytes 1 x.preds.toNat ++ leBytes 1 fl ++ leBytes 1 0 ++ leBytes 8 x.pc
    ++ ([x.fpc, x.fst, x.hsp, x.eff, x.earg, x.etok, x.olth, x.tepc, x.taddr, x.tslice] ++ x.k).flatMap (fun w => leBytes 8 w.toNat)
    ++ regBytes b scr x

/-- The tag entries from least to most recently used: those whose use is not known come first. -/
def Block.order (b : Block) : List Nat :=
  ((List.range b.tags.length).filter (· ∉ b.recency)) ++ b.recency.filter fun n => decide (n < b.tags.length)

def blockBytes (c : Context) (v : Saved) (seq : Nat) (b : Block) : List Byte :=
  let arms := v.arms.filter fun a => a.bid == b.bid
  let parts : List (List Byte) :=
    [fit b.ssize ((alGet v.scratch b.bid).getD []), b.wblist.flatMap fun o => leBytes 4 o,
     (b.tags.flatMap fun w => leBytes 8 w.toNat) ++ b.order.flatMap fun n => leBytes 2 n, b.tiles.flatMap tileBytes,
     b.pairs.flatMap fun p => planeBytes p.active ++ planeBytes p.shadow,
     arms.flatMap fun a => leBytes 8 ((c.vasOf a.dom).headD 0) ++ leBytes 4 a.off ++ leBytes 4 0]
  fit 64 (leBytes 8 seq ++ leBytes 4 b.linear ++ leBytes 4 b.ssize ++ leBytes 2 b.tags.length ++ leBytes 1 b.tiles.length
    ++ leBytes 1 b.pairs.length ++ leBytes 2 (v.gangs.filter fun g => g.bid == b.bid).length ++ leBytes 2 arms.length ++ leBytes 4 b.wblist.length)
    ++ parts.flatMap padTo64

/-! ### Sections (R355) -/

/-- Regions from the root down. -/
def Context.inTree (c : Context) : List Region :=
  (List.range 9).flatMap fun n => c.regions.filter fun r => (c.path r.num).length == n

def Context.regionSection (c : Context) : List Byte :=
  imageSection 2 c.regions.length (c.inTree.flatMap fun r => leBytes 2 r.num ++ leBytes 6 0 ++ r.rcb.bytes r.num)

/-- The sections of blocks, gangs and threads; barrier objects are read from `v0`, the same context with its values as they are. -/
def State.boundSections (s : State) (c : Context) (v0 v : Saved) : List Byte :=
  let blk (g : Gang) : Nat := v.blocks.findIdx fun b => b.bid == g.bid
  let threads := (v.gangs.zip (List.range v.gangs.length)).flatMap fun g => match v.blocks[blk g.1]? with
    | some b => g.1.threads.map fun x => threadBytes b ((alGet v0.scratch b.bid).getD []) g.2 g.1 x
    | none => []
  imageSection 0x8010 v.blocks.length (v.blocks.flatMap fun b => blockBytes c v (((s.launch? b.launch).map (·.seq)).getD b.launch) b)
    ++ imageSection 0x8020 v.gangs.length (v.gangs.flatMap fun g => gangBytes (blk g) g)
    ++ imageSection 0x8030 threads.length threads.flatten

/-- The context header before some sections. -/
def State.withHeader (s : State) (c : Context) (v : Saved) (body : List Byte) : List Byte :=
  let rev := (s.feat 0).toNat / 2 ^ 32 % 2 ^ 8
  let nthr := (v.gangs.map fun g => g.threads.length).sum
  let hdr (n : Nat) : List Byte := imageSection 1 1 (leBytes 4 c.num ++ leBytes 1 rev ++ leBytes 3 0 ++ leBytes 8 c.clk ++ leBytes 8 n
    ++ leBytes 4 v.blocks.length ++ leBytes 4 v.gangs.length ++ leBytes 4 nthr ++ leBytes 4 0)
  hdr ((hdr 0).length + body.length) ++ body

/-- What SWITCH writes to the save area of a context (R355); of a confidential one, a record under its key (R390). -/
def State.saveArea (s : State) (c : Context) (v : Saved) : List Byte :=
  s.sealedFor c (s.withHeader c v (c.regionSection ++ s.boundSections c v v))

/-! ### Reading sections -/

/-- A section as read. -/
structure Section where
  kind : Nat
  count : Nat
  body : List Byte
  deriving DecidableEq, Repr

def splitSections : Nat → List Byte → List Section
  | 0, _ => []
  | fuel + 1, bs =>
    if bs.length < 16 then []
    else
      let n := fieldAt bs 8 8
      ⟨fieldAt bs 0 2, fieldAt bs 4 4, (bs.drop 16).take n⟩ :: splitSections fuel (bs.drop (round64 (16 + n)))

def knownKinds : List Nat := [1, 2, 3, 4, 5, 6, 0x8010, 0x8020, 0x8030]

/-- A section that a restore must understand and does not (R355). -/
def strangeSection (ss : List Section) : Bool := ss.any fun x => x.kind ∉ knownKinds && 2 ^ 15 ≤ x.kind

end Sys2Proof.Machine
end

