-- ==== Sys2Proof/Machine/Switch.lean ====
section
/-! DEFINITION. The end of a command (R334, R335, R362), the removal of a context or a fault domain (R378, R384, R385), pre-emption
(R352, R353), and the halt, the save and the restore of a context (R354, R356). -/

namespace Sys2Proof.Machine
open Host

/-! ### Removal (R277, R294, R310, R329, R378, R384, R385) -/

/-- Blocks of a removal. -/
def State.doomedBlocks (s : State) (r : Removal) : List Nat :=
  (s.blocks.filter fun b => (s.launch? b.launch).any fun l => s.doomed r l).map (·.bid)

def State.doomedOps (s : State) (r : Removal) : List Op := s.ops.filter fun o => o.place.bid ∈ s.doomedBlocks r

def State.dropOps (s : State) (ids : List Nat) : State := { s with ops := s.ops.filter fun o => o.id ∉ ids }

/-- The state after a transition that has no other outcome. -/
def stateOf (s : State) (o : Host.Outcome State Fault Refusal) : State := match o with | .next t => t | _ => s

/-- A store or atomic issued before step 1 is performed whole or discarded whole: a free choice (R385). -/
def State.maybePerform (s : State) (o : Op) : State :=
  let (b, s1) := s.freeFlag
  let s2 := if !b then s1 else match o.cls with
    | .st => stateOf s1 (if o.hold.isSome then execHome o.id s1 else execPerformStore o.id s1)
    | .atom => stateOf s1 (if o.hold.isSome then execHome o.id s1 else execAtomic o.id s1)
    | _ => s1
  s2.dropOp o.id

/-- Launches and replays of a removal that have not started complete FAULTED. -/
def State.faultWaiting (s : State) (r : Removal) : State :=
  let s1 := (s.launches.filter fun l => s.doomed r l && l.waiting).foldl (fun s l => s.finish l .faulted) s
  (s1.replays.filter fun q => q.ctx == r.ctx && (match r.fdom with
    | none => true
    | some f => q.id < r.id && (((s1.ctx? q.ctx).bind fun c => c.effective q.region).map (·.fdom)) == some f)).foldl State.faultReplay s1

/-- Step 1: issue stops; what is still in issue buffers is discarded, but compaction steps in flight, which step 2 abandons. DESIGN CHOICE, log entry 72. -/
def State.stopIssue (s : State) (r : Removal) : State :=
  let bs := s.doomedBlocks r
  let s1 := (s.gangs.filter fun g => g.bid ∈ bs).foldl (fun s g => s.squash g.gid) s
  let s2 : State := { s1 with gangs := s1.gangs.map fun g => if g.bid ∈ bs then { g with stopped := true } else g }
  let s3 := ((s2.doomedOps r).filter fun o => !o.queued && !o.kind.isCx).foldl State.maybePerform s2
  s3.faultWaiting r

/-- Step 4, one row: each result element holds its old or its new value (R329). -/
def State.stopRow (s : State) (e : Env) (o : Op) (row : Nat) (r : BankRow) : State :=
  if r.taken then s
  else
    let pick (k : List Nat × State) (j : Nat) : List Nat × State :=
      let (b, s1) := k.2.freeFlag
      (if b then k.1 ++ [j] else k.1, s1)
    let (js, s1) := ((List.range (o.kind.results r)).filter (· ∉ r.written)).foldl pick ([], s)
    (s1.rowResults e o r (· ∈ js)).1.foldl (fun s x => s.bankPut e o r row x.seg x.loc x.data) s1

def State.stopBank (s : State) (o : Op) : State :=
  match s.env? o.place.gid with
  | none => s
  | some e => if o.queued then
      (o.kind.bankRows.zip (List.range o.kind.bankRows.length)).foldl (fun s x => s.stopRow e o x.2 x.1) s
    else s

/-- Annex entries charged to a context's regions are released (R310). -/
def State.releaseAnnex (s : State) (ctx : Nat) : State :=
  { s with cells := s.cells.map fun k => { k with sibs := k.sibs.filter fun x => (x.region.map (·.1)) != some ctx } }

/-- Step 8: blocks and gangs of a removal leave their cores, with the trace records of the blocks' ends (R388); its running launches complete FAULTED. -/
def State.clearBlocks (s : State) (r : Removal) : State :=
  let bs := s.doomedBlocks r
  let s0 := (s.blocks.filter fun b => b.bid ∈ bs && !b.ended).foldl (fun s b => match s.launch? b.launch with
    | some l => s.traceBlock b l (s.wall b.die)
    | none => s) s
  let s1 := bs.foldl (fun s b => s.freeBlock b false) s0
  let s2 : State := { s1 with gangs := s1.gangs.filter fun g => g.bid ∉ bs, arrivals := s1.arrivals.filter fun a => a.place.bid ∉ bs,
                              fences := s1.fences.filter fun f => f.place.bid ∉ bs,
                              saved := s1.saved.filter fun v => v.ctx != r.ctx || r.fdom.isSome }
  (s2.launches.filter fun l => s2.doomed r l && l.state != .complete).foldl (fun s l => s.finish l .faulted) s2

/-- The action of a step of a removal. -/
def State.removeAt (s : State) (r : Removal) : State :=
  let ops (f : Op → Bool) : List Nat := ((s.doomedOps r).filter f).map (·.id)
  match r.step with
  | 1 => s.stopIssue r
  | 2 => (s.dropOps (ops fun o => o.kind.isCx)).disarm (s.doomedBlocks r)
  | 3 => s.dropOps (ops fun o => o.cls == .mx)
  | 4 => (((s.doomedOps r).filter fun o => o.cls == .bk).foldl State.stopBank s).dropOps (ops fun o => o.cls == .bk)
  | 5 => s.dropOps (ops fun o => o.cls == .cp)
  | 7 =>
    let s1 := s.dropOps (ops fun _ => true)
    let s2 : State := { s1 with blocks := s1.blocks.map fun b => if b.bid ∈ s.doomedBlocks r then { b with staged := [] } else b }
    if r.fdom.isNone then s2.releaseAnnex r.ctx else s2
  | 8 => s.clearBlocks r
  | _ => s

/-- R384, R378: REMOVAL_STEP: the next step of a removal; every wait of a step is over once the step has acted. -/
def execRemovalStep (id : Nat) (s : State) : Host.Outcome State Fault Refusal :=
  .next (match s.removals.find? fun r => r.id == id with
    | none => s
    | some r =>
      let s1 := s.removeAt r
      if r.step < 8 then { s1 with removals := s1.removals.map fun x => if x.id = id then { x with step := x.step + 1 } else x }
      else { s1 with removals := s1.removals.filter fun x => x.id != id })

/-- A context and all that belongs to it leave the module (R384, R391, R304); memory of its KEEP pages that no other context maps falls
back to DRAM (R298). -/
def State.deleteCtx (s : State) (n : Nat) : State :=
  match s.ctx? n with
  | none => s
  | some c =>
    let shared (p : Page) : Bool := s.contexts.any fun d => d.num != n && d.pages.any fun q => q.keep && overlap (q.pa, q.size) (p.pa, p.size)
    let keep := (c.pages.filter fun p => p.keep && !shared p).map fun p => (p.pa, p.size, c.keyFor s p)
    let own (a : Nat) : Bool := (c.pages.any fun p => p.pa ≤ a && a < p.pa + p.size) &&
      s.contexts.all fun d => d.num == n || d.pages.all fun p => !(p.pa ≤ a && a < p.pa + p.size)
    let s1 := (s.flatten keep).zeroMeta keep
    let keyUsed := s1.contexts.any fun d => d.num != n && d.confidential && d.key == c.key
    { s1 with contexts := s1.contexts.filter fun d => d.num != n,
              codes := s1.codes.filter fun x => x.ctx != n, graphs := s1.graphs.filter fun x => x.ctx != n,
              queues := s1.queues.filter fun x => x.ctx != n, launches := s1.launches.filter fun x => x.ctx != n,
              replays := s1.replays.filter fun x => x.ctx != n, saved := s1.saved.filter fun x => x.ctx != n,
              traces := s1.traces.filter fun x => x.ctx != n, removals := s1.removals.filter fun x => x.ctx != n,
              work := s1.work.filter fun u => !own u.loc,
              sup := if c.confidential ∧ !keyUsed then { s1.sup with keys := alDel s1.sup.keys c.key } else s1.sup }

/-! ### CTX_DESTROY (R384) -/

/-- Launches of a context that have not completed, those of waiting replays included. -/
def State.liveLaunches (s : State) (ctx : Nat) : Nat :=
  (s.launches.filter fun l => l.ctx == ctx && l.state != .complete).length +
    ((s.replays.filter fun r => r.ctx == ctx).map fun r => ((s.graph? r.graph).map fun g => g.nodes.length).getD 0).sum

def State.hasBlocks (s : State) (ctx : Nat) : Bool := s.blocks.any fun b => (s.launch? b.launch).any fun l => l.ctx == ctx

/-- From its CTX_DESTROY on, a context accepts no kick. -/
def State.restrict (s : State) (ctx : Nat) : State := s.modCtx ctx fun c => { c with restricted := true }

/-- R384: CTX_DESTROY. DEDUCED, log entry 73. -/
def execCtxDestroy (p : Packet) (s : State) : Host.Outcome State Fault Refusal :=
  command [{ id := 2, lens := [4] }, noFlag 3] p s true (fun q => [nameCtx (q.nat 2)]) fun q s =>
    withCtx s (q.nat 2) true fun c =>
      if s.hasBlocks c.num ∨ s.liveLaunches c.num ≠ 0 then .reject stBUSY (s.liveLaunches c.num)
      else .wait (s.restrict c.num) (.removed c.num)

/-- R384: CTX_DESTROY with FORCE. -/
def execCtxDestroyForce (p : Packet) (s : State) : Host.Outcome State Fault Refusal :=
  command [{ id := 2, lens := [4] }, { id := 3, lens := [0] }] p s true (fun q => [nameCtx (q.nat 2)]) fun q s =>
    withCtx s (q.nat 2) true fun c => .wait ((s.restrict c.num).beginRemoval c.num none (some p.seq)) (.removed c.num)

/-! ### PREEMPT (R352, R353) -/

def preemptSpecs (mode : Nat) : List FieldSpec :=
  [{ id := 2, lens := [4] }, { id := 3, lens := [2] }, { id := 4, lens := [1], ok := fun b => leNat b == mode }]

/-- A region or one below it. -/
def Context.under (c : Context) (num x : Nat) : Bool := (c.path x).any fun r => r.num == num

/-- Set the pre-emption of a region and of every one below it. -/
def State.setPreempt (s : State) (c : Context) (num : Nat) (v : Preempt) : State :=
  s.modCtx c.num fun c => { c with regions := c.regions.map fun r => if c.under num r.num then { r with preempt := v } else r }

/-- Resident blocks of a region and of those below it. -/
def State.residents (s : State) (ctx num : Nat) : List Block :=
  s.live.filter fun b => (s.launch? b.launch).any fun l => l.ctx == ctx && (s.ctx? ctx).any fun c => c.under num l.region

/-- Every gang of these blocks has a PREEMPT trap due in its threads that have not exited. -/
def State.dueTraps (s : State) (bs : List Nat) : State :=
  { s with gangs := s.gangs.map fun g =>
    if g.bid ∈ bs ∧ g.pend.all (fun p => p.cause != cPREEMPT) then
      { g with pend := g.pend ++ [⟨cPREEMPT, (g.threads.filter Thread.live).map (·.thr)⟩], preempted := none }
    else g }

/-- Run a PREEMPT on a region that exists. -/
def runPreempt (q : Parsed) (s : State) (k : Context → Nat → CmdResult) : CmdResult :=
  withCtx s (q.nat 2) false fun c =>
    if c.regions.any fun r => r.num == q.nat 3 then k c (q.nat 3) else .reject stBADVALUE 0

def preemptNames (q : Parsed) : List (Nat × Nat) := [nameCtx (q.nat 2), nameRegion (q.nat 2) (q.nat 3)]

/-- R352: PREEMPT DRAIN. -/
def execPreemptDrain (p : Packet) (s : State) : Host.Outcome State Fault Refusal :=
  command (preemptSpecs 0) p s false preemptNames fun q s =>
    runPreempt q s fun c n => .wait (s.setPreempt c n .drain) (.drained c.num n)

/-- R353: PREEMPT URGENT; deterministic launches drain. -/
def execPreemptUrgent (p : Packet) (s : State) : Host.Outcome State Fault Refusal :=
  command (preemptSpecs 1) p s false preemptNames fun q s =>
    runPreempt q s fun c n =>
      let bs := (s.residents c.num n).filter fun b => !s.isDetBlock b.bid
      .wait ((s.setPreempt c n .urgent).dueTraps (bs.map (·.bid))) (.drained c.num n)

/-- R354: PREEMPT SWITCH: the whole context, by its root region; its deterministic blocks drain. -/
def execPreemptSwitch (p : Packet) (s : State) : Host.Outcome State Fault Refusal :=
  command (preemptSpecs 2) p s false preemptNames fun q s =>
    runPreempt q s fun c n =>
      if n ≠ 0 then .reject stBADVALUE 0
      else .wait ((s.setPreempt c 0 .drain).modCtx c.num fun c => { c with halted := true, featureWait := false }) (.switched c.num)

/-- The save area of a context, plain, holds a section that the restore must understand and does not (R355). -/
def State.badArea (s : State) (c : Context) : Bool :=
  !c.confidential && s.saved.any fun v => v.ctx == c.num && strangeSection (splitSections (v.area.length / 64) v.area)

/-- R352, R355: PREEMPT LIFT. -/
def execPreemptLift (p : Packet) (s : State) : Host.Outcome State Fault Refusal :=
  command (preemptSpecs 3) p s false preemptNames fun q s =>
    runPreempt q s fun c n =>
      let s1 := s.setPreempt c n .none
      if n ≠ 0 ∨ !c.halted then .done s1 0
      else if s.badArea c then .reject stBADVALUE 0
      else .wait s1 (.restored c.num)

/-- PDL has passed since PREEMPT was delivered to a gang of a region that an URGENT pre-emption acts on, and a block is still resident (R353).
DEDUCED, log entry 74. -/
def State.overdue (s : State) (ctx num : Nat) : Bool :=
  ((s.region? ctx num).any fun r => r.preempt == .urgent) && s.gangs.any fun g => (s.launchOf g).any fun l =>
    l.ctx == ctx && l.region == num && !l.det && g.preempted.any fun t => decide (t + l.rcb.pdl ≤ s.wall 0)

/-- R353: PDL_EXPIRY: the firmware removes the whole context. -/
def execPdlExpiry (ctx region : Nat) (s : State) : Host.Outcome State Fault Refusal :=
  .next (match s.ctx? ctx with
    | none => s
    | some c =>
      if s.overdue ctx region && s.removals.all fun r => r.ctx != ctx || r.fdom.isSome then
        let s1 := s.faultRecord { cls := 3, engine := engineWord 0 8 0, ctx := ctx, region := region,
                                  fdom := ((c.effective region).map (·.fdom)).getD 0, wall := s.wall 0, conf := c.confidential }
        (s1.restrict ctx).beginRemoval ctx none none
      else s)

/-! ### Halt and save (R354, R231, R244, R276, R289, R294) -/

/-- Gangs of a context. -/
def State.gangsOf (s : State) (ctx : Nat) : List Gang := s.gangs.filter fun g => s.ctxNum g == ctx
def State.blocksOf (s : State) (ctx : Nat) : List Block := s.blocks.filter fun b => (s.launch? b.launch).any fun l => l.ctx == ctx

/-- A context may be saved: what it has in flight is over, held instructions but MMOV, whose request is posted (R276), apart, nothing that no
image holds is under way, and no deterministic block is left. -/
def State.mayHalt (s : State) (c : Context) : Bool :=
  c.halted && (s.saved.all fun v => v.ctx != c.num) && (s.ops.all fun o => o.ctx != c.num || (o.hold.isSome && o.cls != .mx)) &&
    ((s.blocksOf c.num).all fun b => !s.isDetBlock b.bid) && (s.removals.all fun r => r.ctx != c.num) &&
    ((s.gangsOf c.num).all fun g => !s.goesOn g) && s.arrivals.all fun a => (s.blocksOf c.num).all fun b => b.bid != a.place.bid

/-- The list address with which a held CAPPEND executes again (R286). -/
def Op.relist (o : Op) (pc : Nat) : Option (Word × Nat) := match o.kind with
  | .cappend _ _ _ _ _ _ list => some (list, pc)
  | _ => none

/-- Held instructions stand at their boundary again: they execute after the restore (R289). DEDUCED, log entry 76. -/
def State.backHeld (s : State) (ctx : Nat) : State :=
  (s.ops.filter fun o => o.ctx == ctx).foldl (fun s o => match o.hold with
    | some h => (s.dropOp o.id).modThreads o.place.gid o.thrs fun x =>
        { x with pc := h.entry.pc, stall := .none, relist := (o.relist h.entry.pc).or x.relist }
    | none => s) s

/-- Threads stand at instruction boundaries: a stalled instruction has not executed (R113). No early regeneration is kept (R231). -/
def Gang.atBoundary (g : Gang) : Gang :=
  { g with threads := g.threads.map fun x => { x with stall := .none, wtime := none, bwait := none }, rotation := [], early := [], reserved := 0 }

/-- Poisoned bytes of the scratchpads of some blocks. -/
def State.badScratch (s : State) (bs : List Block) : List Nat :=
  bs.flatMap fun b => (List.range b.ssize).filterMap fun i =>
    let loc := scratchLoc b.bid i
    if (s.byteFrom (s.lastOf loc) loc).bad then some loc else none

/-- R354, R355: CONTEXT_HALT: a drained context is saved, its sections in the firmware's save area, and leaves its cores. -/
def execContextHalt (ctx : Nat) (s : State) : Host.Outcome State Fault Refusal :=
  .next (match s.ctx? ctx with
    | none => s
    | some c =>
      if !s.mayHalt c then s
      else
        let s0 := (s.gangsOf ctx).foldl (fun s g => s.squash g.gid) s
        let s1 := s0.backHeld ctx
        let bs := s1.blocksOf ctx
        let ids := bs.map (·.bid)
        let v0 : Saved :=
          ⟨ctx, [], bs, (s1.gangsOf ctx).map Gang.atBoundary, bs.map fun b => (b.bid, s1.readPhys (scratchLoc b.bid 0) b.ssize),
            s1.badScratch bs, s1.arms.filter fun a => a.bid ∈ ids,
            s1.arrivals.filter fun a => a.place.bid ∈ ids, []⟩
        let v := { v0 with area := s1.saveArea c v0 }
        let gids := v.gangs.map (·.gid)
        let s1a := if c.confidential then s1.modCtx ctx fun c => { c with sealedRecs := c.sealedRecs + 1 } else s1
        let s2 := ids.foldl (fun s b => s.freeBlock b false) { s1a with arms := s1a.arms.filter fun a => a.bid ∉ ids }
        { s2 with saved := s2.saved ++ [v], gangs := s2.gangs.filter fun g => g.gid ∉ gids,
                  arrivals := s2.arrivals.filter fun a => a.place.bid ∉ ids, copyWait := s2.copyWait.filter fun w => w.1 ∉ gids,
                  line := s2.line.filter fun l => l.gid ∉ gids })

/-! ### Restore (R347, R354, R356, R359) -/

/-- Is a range of a core's scratchpad free? -/
def rangeFree (bs : List Block) (o n : Nat) : Bool := n == 0 || bs.all fun b => b.ssize == 0 || !overlap (o, n) (b.sbase, b.ssize)

/-- The place of a saved block that is tied to no place in the scratchpad. -/
def anyBase : Nat := 2 ^ 20

/-- A core that can take a saved block, and its place in the scratchpad there: where it was, unless it is tied to no place. -/
def State.coreFor (s : State) (l : Launch) (b : Block) : Option (Nat × Nat × Nat) :=
  ((List.range 8).flatMap fun d => (List.range 200).map fun k => (d, k)).findSome? fun p =>
    if s.coreOn p.1 p.2 && s.featuresOn l p.1 then
      match s.coreFits l p.1 p.2 with
      | none => none
      | some o =>
        if b.sbase = anyBase then some (p.1, p.2, o)
        else if rangeFree (s.live.filter fun x => x.die == p.1 && x.core == p.2) b.sbase b.ssize then some (p.1, p.2, b.sbase) else none
    else none

/-- Place saved blocks one after another; none if one finds no core. -/
def State.placeAll (s : State) : List Block → Option State
  | [] => some s
  | b :: bs => match s.launch? b.launch with
    | none => s.placeAll bs
    | some l => match s.coreFor l b with
      | none => none
      | some (d, k, o) => State.placeAll (State.serveCore { s with blocks := s.blocks ++ [{ b with die := d, core := k, sbase := o }] } l.ctx d k) bs

/-- Active gangs on the core of a gang. -/
def State.roomFor (s : State) (g : Gang) : Bool := s.activeOn g < Config.activeGangs

/-- A saved gang resumes: its PCs are checked and redirected (R45, R52); a thread whose code is gone traps CODE_GONE first (R359). -/
def State.resumeGang (s : State) (c : Context) (gone : List (Nat × Nat)) (g : Gang) : State :=
  let s1 := { s with gangs := s.gangs ++ [{ g with active := false, readySince := s.cycle }] }
  let lost := (gone.filter fun x => x.1 == g.gid).map (·.2)
  let check (x : Thread) : Except FetchErr Nat := checkTarget s c ((s1.placeOf g.gid x.thr).units) false x.pc
  let bad := (g.threads.filter fun x => !x.exited && x.thr ∉ lost && (match check x with | .ok _ => false | .error e => e.cause == cBADTARGET)).map (·.thr)
  s1.modGang g.gid fun g =>
    { g with active := s1.roomFor g,
             threads := g.threads.map fun x => if x.thr ∈ lost ∨ x.exited then x else match check x with
               | .ok pc => x.redirect pc
               | .error _ => x,
             pend := (if lost.isEmpty then [] else [⟨cCODEGONE, lost⟩]) ++ (if bad.isEmpty then [] else [⟨cBADTARGET, bad⟩]) ++
               g.pend.filter fun p => p.cause != cBADTARGET }

/-- An arming is restored; a domain that is quiescent by then arrives at once (R294). -/
def State.rearm (s : State) (a : Arming) : State :=
  if a.fired || s.quiescent a.dom then (s.setFlag a.dom 1 false).arrive a.bid a.off
  else State.setFlag { s with arms := s.arms ++ [a] } a.dom 1 true

/-- Rebuild a context from what was saved; none while a block finds no core (R347). -/
def State.rebuild (s : State) (c : Context) (v : Saved) : Option State :=
  match s.placeAll v.blocks with
  | none => none
  | some s1 =>
    let s2 := (v.gangs.filter (·.active) ++ v.gangs.filter fun g => !g.active).foldl (fun s g => s.resumeGang c v.gone g) (s1.putScratch v)
    let s3 := { s2 with saved := s2.saved.filter fun x => x.ctx != c.num, arrivals := s2.arrivals ++ v.arrivals }
    some ((v.arms.foldl State.rearm s3).modCtx c.num fun c => { c with halted := false, featureWait := false })

/-- A command waits for a context's restore. -/
def State.wantsRestore (s : State) (ctx : Nat) : Bool := s.waiting.any fun w => w.wait == .restored ctx

/-- No enabled core has the features that some saved block needs (R347). -/
def State.lacksFeatures (s : State) (v : Saved) : Bool := v.blocks.any fun b => (s.launch? b.launch).any fun l => !s.someCore l

/-- CONTEXT_RESTORE would change the machine. -/
def State.mayRestore (s : State) (c : Context) : Bool :=
  (s.wantsRestore c.num || c.featureWait) && s.saved.any fun v => v.ctx == c.num && ((s.rebuild c v).isSome || (s.lacksFeatures v && !c.featureWait))

/-- R347, R355: CONTEXT_RESTORE: a saved context is placed and resumes, once LIFT or MIGRATE_IN asks for it; where no enabled core has the features
that it needs, it stays suspended with status FEATURE_WAIT, and resumes when one is enabled. -/
def execContextRestore (ctx : Nat) (s : State) : Host.Outcome State Fault Refusal :=
  .next (match s.ctx? ctx, s.saved.find? fun v => v.ctx == ctx with
    | some c, some v =>
      if !(s.wantsRestore ctx || c.featureWait) then s
      else match s.rebuild c v with
        | some t => t
        | none => if s.lacksFeatures v then s.modCtx ctx fun c => { c with featureWait := true } else s
    | _, _ => s)

end Sys2Proof.Machine
end

