-- ==== Sys2Proof/Machine/Image.lean ====
section
/-! DEFINITION. The context image (R231, R316, R355, R358): MIGRATE_OUT writes it, MIGRATE_IN rebuilds a context from it. What the
layout leaves open, and what a rebuilt context holds that the image does not, is log entry 26. Then the end of a command (R334, R335). -/

namespace Sys2Proof.Machine
open Host

/-! ### Writing (R355) -/

def pageCode (n : Nat) : Nat := ((List.range 5).find? fun k => pageSize k == n).getD 0

def mappingBytes (p : Page) : List Byte :=
  let pa := match p.link with | some l => p.pa - peerLoc l 0 | none => p.pa
  leBytes 8 p.va ++ leBytes 8 p.size ++ leBytes 8 pa ++ leBytes 1 (pageCode p.size) ++ leBytes 1 (p.link.getD 0xFF) ++ leBytes 2 p.attr ++ leBytes 4 0

def cellBytes (va : Nat) (k : KeepCell) : List Byte :=
  leBytes 8 va ++ leBytes 4 k.gen ++ leBytes 1 k.sibs.length ++ leBytes 3 0 ++
    k.sibs.flatMap fun x => leBytes 8 x.val.toNat ++ leBytes 4 x.birth ++ leBytes 4 x.actor.toNat

/-! The poison of what is saved travels as poison of the image's bytes (R276, R383): they are the bytes in which an image of the same state
with its poisoned values complemented differs. Log entry 26. -/

/-- Complement values where a condition holds. -/
def flipWhere {n : Nat} (bad : Nat → Bool) (ws : List (BitVec n)) : List (BitVec n) :=
  (ws.zip (List.range ws.length)).map fun w => if bad w.2 then ~~~w.1 else w.1

def Cap.flipBad : Cap → Cap
  | .bad v c a => .bad (~~~v) c a
  | x => x

def RqEntry.flipBad (q : RqEntry) : RqEntry :=
  { q with ops := q.ops.map fun o => ⟨o.thr, o.a.flipBad, o.b.flipBad, o.c.flipBad, o.d.flipBad⟩ }

def Gang.flipBad (g : Gang) : Gang :=
  let bad (reg t : Nat) : Bool := g.poison.any fun p => p.reg == reg && p.thr == t
  { g with rods := g.rods.map fun r => (r.1, match r.2 with | .value bs => .value (flipWhere (bad r.1) bs) | .recipe => .recipe),
           threads := g.threads.map fun x => { x with k := flipWhere (fun i => bad (256 + i) x.thr) x.k },
           trap := g.trap.map fun m => { m with queue := m.queue.map RqEntry.flipBad } }

def Plane.flipBad (p : Plane) : Plane :=
  { p with cols := p.poison.foldl (fun l c => alSet l c ((fit (64 * runBlocks p.wfmt) ((alGet l c).getD [])).map (~~~ ·))) p.cols, poison := [] }

def Saved.flipBad (v : Saved) : Saved :=
  { v with scratch := v.scratch.map fun x => (x.1, flipWhere (fun i => scratchLoc x.1 i ∈ v.poison) x.2),
           blocks := v.blocks.map fun b => { b with pairs := b.pairs.map fun p => ⟨p.active.flipBad, p.shadow.flipBad⟩ },
           gangs := v.gangs.map Gang.flipBad }

def KeepCell.flipBad (k : KeepCell) : KeepCell :=
  { k with sibs := k.sibs.map fun x => { x with val := if x.poison then ~~~x.val else x.val } }

/-- The records of every KEEP cell of a context (R316). -/
def State.cellRecords (s : State) (c : Context) (flip : Bool) : List (List Byte) :=
  (c.pages.filter (·.keep)).flatMap fun p => (List.range (p.size / 32)).map fun i =>
    let k := s.cell (p.pa + 32 * i)
    cellBytes (p.va + 32 * i) (if flip then k.flipBad else k)

/-- The sections of a saved context, without the context header; with `flip`, poisoned values are complemented. -/
def State.imageBody (s : State) (c : Context) (v0 : Saved) (flip : Bool) : List Byte :=
  let v := if flip then v0.flipBad else v0
  let codes := s.codes.filter fun o => o.ctx == c.num
  let graphs := s.graphs.filter fun g => g.ctx == c.num
  let cells := s.cellRecords c flip
  c.regionSection
    ++ imageSection 3 codes.length (codes.flatMap fun o =>
        leBytes 4 o.handle ++ leBytes 4 0 ++ leBytes 8 o.va ++ leBytes 8 o.size ++ fit o.size (s.bytesAt c o.va o.size))
    ++ imageSection 4 graphs.length (graphs.flatMap fun g => leBytes 2 g.handle ++ leBytes 6 0 ++ g.obj ++ g.nodes.flatMap (·.template))
    ++ imageSection 5 c.pages.length (c.pages.flatMap mappingBytes)
    ++ imageSection 6 cells.length cells.flatten ++ s.boundSections c v0 v

/-- The plain bytes of the image of a saved context (R355), with their poison. -/
def State.plainImage (s : State) (c : Context) (v : Saved) : List RByte :=
  let make (flip : Bool) : List Byte := s.withHeader c v (s.imageBody c v flip)
  ((make false).zip (make true)).map fun x => ⟨x.1, x.1 != x.2, none⟩

/-- The image as it is written: of a confidential context a record under its key, in which poisoned bytes stand poisoned (R276, R390). -/
def State.image (s : State) (c : Context) (v : Saved) : List RByte :=
  let bs := s.plainImage c v
  if c.confidential then
    let bad := ((bs.zip (List.range bs.length)).filter fun x => x.1.bad).map fun x => Config.recordByte x.2
    let record := s.sealedFor c (rbVals bs)
    (record.zip (List.range record.length)).map fun x => ⟨x.1, decide (x.2 ∈ bad), none⟩
  else bs

/-! ### MIGRATE_OUT (R354, R358) -/

/-- R358: MIGRATE_OUT: the context is halted as by SWITCH; the image is written when the command completes. DEDUCED, log entry 79. -/
def execMigrateOut (p : Packet) (s : State) : Host.Outcome State Fault Refusal :=
  command [{ id := 2, lens := [4] }, { id := 3, lens := [8] }, { id := 4, lens := [8] }] p s false
    (fun q => [nameCtx (q.nat 2), nameRange (q.nat 3) (q.nat 4)]) fun q s =>
    withCtx s (q.nat 2) true fun c =>
      let w := WaitFor.migrated c.num (q.nat 3) (q.nat 4) (!c.halted || c.featureWait)
      if !inMap (q.nat 3) (q.nat 4) then .reject stBADVALUE 0
      else .wait ((if c.halted then s else s.setPreempt c 0 .drain).modCtx c.num fun c => { c with halted := true, featureWait := false }) w

/-- MIGRATE_OUT's end: the image, or, where there is too little room, its size; the context then runs on. -/
def State.migrateEnd (s : State) (w : Waiting) (ctx image room : Nat) (fresh : Bool) : State × Waiting :=
  match s.ctx? ctx, s.saved.find? fun v => v.ctx == ctx with
  | some c, some v =>
    let bs := s.image c v
    if room < bs.length then
      let w1 := { w with status := stNORESOURCE, detail := bs.length }
      if fresh then (s.setPreempt c 0 .none, { w1 with wait := .restored ctx }) else (s, { w1 with wait := .done })
    else
      let s1 := (poisonRuns bs).foldl (fun k r => ((k.1.append k.2 r.2 r.1 [.system]).1, k.2 + r.2.length)) (s, image) |>.1
      (if c.confidential then s1.modCtx ctx fun c => { c with sealedRecs := c.sealedRecs + 1 } else s1, { w with detail := bs.length, wait := .done })
  | _, _ => (s, { w with wait := .done })

/-! ### Reading an image -/

def findSection (ss : List Section) (kind : Nat) : Section := (ss.find? fun x => x.kind == kind).getD ⟨kind, 0, []⟩

/-- Read n records one after another; each reader answers its record and its length. -/
def readAll {α : Type} (f : List Byte → α × Nat) : Nat → List Byte → List α
  | 0, _ => []
  | n + 1, bs => let (x, k) := f bs; x :: readAll f n (bs.drop k)

def wordsOf (n : Nat) (bs : List Byte) : List Word := (List.range n).map fun i => BitVec.ofNat 64 (fieldAt bs (8 * i) 8)

def bitsSet (m : Nat) : List Nat := (List.range 32).filter fun i => m / 2 ^ i % 2 == 1

def tileOf (bs : List Byte) : Tile :=
  ⟨(List.range 4096).filterMap fun i =>
      let w := BitVec.ofNat 32 (fieldAt bs (520 * (i / 128) + 4 * (i % 128)) 4)
      if w = 0 then none else some (i, w),
    (List.range 32).filterMap fun r =>
      let f := BitVec.ofNat 4 (fieldAt bs (520 * r + 512) 8)
      if f = 0 then none else some (r, f)⟩

def planeLen (wfmt : Nat) : Nat := 64 + 128 * 64 * runBlocks wfmt

def planeOf (bs : List Byte) : Plane :=
  let w := fieldAt bs 0 1
  let n := 64 * runBlocks w
  ⟨w, (List.range 128).filterMap fun c =>
    let run := ((bs.drop (64 + n * c)).take n)
    if run.all (· = 0) then none else some (c, run), []⟩

def planesOf (bs : List Byte) : Nat → List Plane × Nat
  | 0 => ([], 0)
  | n + 1 =>
    let (ps, k) := planesOf bs n
    (ps ++ [planeOf (bs.drop k)], k + planeLen (fieldAt bs k 1))

def pairUp : List Plane → List Pair
  | a :: b :: ps => ⟨a, b⟩ :: pairUp ps
  | _ => []

/-- A block as the image has it: the block, its scratchpad, its armings by domain address. -/
structure BlockRec where
  launch : Nat
  linear : Nat
  size : Nat
  scratch : List Byte
  wblist : List Nat
  tags : List Word
  recency : List Nat
  tiles : List Tile
  pairs : List Pair
  arms : List (Nat × Nat)
  /-- Offsets of poisoned bytes of its scratchpad. -/
  bad : List Nat
  deriving DecidableEq, Repr

/-- Indices at which two lists differ. -/
def differs {α : Type} [DecidableEq α] (xs ys : List α) : List Nat := (List.range xs.length).filter fun i => xs[i]? != ys[i]?

/-- A plane with the columns poisoned in which it differs from another reading of it. -/
def Plane.badFrom (p q : Plane) : Plane := { p with poison := (List.range 128).filter fun c => alGet p.cols c != alGet q.cols c }

/-- A block record, and the same with poisoned image bytes complemented: what differs is poisoned. -/
def BlockRec.badFrom (a b : BlockRec) : BlockRec :=
  { a with pairs := (a.pairs.zip (List.range a.pairs.length)).map fun x => match b.pairs[x.2]? with
             | some q => ⟨x.1.active.badFrom q.active, x.1.shadow.badFrom q.shadow⟩
             | none => x.1,
           bad := differs a.scratch b.scratch }

def readBlock (bs : List Byte) : BlockRec × Nat :=
  let f := fieldAt bs
  let size := f 12 4
  let nt := f 16 2
  let o2 := 64 + round64 size
  let o3 := o2 + round64 (4 * f 24 4)
  let o4 := o3 + round64 (10 * nt)
  let o5 := o4 + round64 (16640 * f 18 1)
  let (planes, np) := planesOf (bs.drop o5) (2 * f 19 1)
  let o6 := o5 + round64 np
  (⟨f 0 8, f 8 4, size, (bs.drop 64).take size, (List.range (f 24 4)).map fun i => f (o2 + 4 * i) 4, wordsOf nt (bs.drop o3),
    (List.range nt).map fun i => f (o3 + 8 * nt + 2 * i) 2, (List.range (f 18 1)).map fun i => tileOf (bs.drop (o4 + 16640 * i)), pairUp planes,
    (List.range (f 22 2)).map fun i => (f (o6 + 16 * i) 8, f (o6 + 16 * i + 8) 4), []⟩, o6 + round64 (16 * f 22 2))

/-- The descriptor of R231, with the descriptor's place in its gang's table. -/
def descOf (idx : Nat) (bs : List Byte) : Desc :=
  let f := fieldAt bs
  ⟨idx, f 0 8, bitsSet (f 8 4), BitVec.ofNat 32 (f 12 4) |>.setWidth 64, f 16 1, (List.range (min 4 (f 18 1))).map fun i => BitVec.ofNat 8 (f (20 + i) 1),
    f 17 1 / 4 % 8⟩

structure RodRec where
  num : Nat
  rod : Rod
  desc : Option (List Byte)
  deriving DecidableEq, Repr

def readRod (bs : List Byte) : RodRec × Nat :=
  let n := fieldAt bs 0 1
  match fieldAt bs 1 1 with
  | 1 => (⟨n, .value (wordsOf 32 (bs.drop 8)), none⟩, 264)
  | 2 => (⟨n, .value (wordsOf 32 (bs.drop 8)), some ((bs.drop 264).take 32)⟩, 296)
  | _ => (⟨n, .recipe, some ((bs.drop 8).take 32)⟩, 40)

/-- Length in bytes of n rod records. -/
def rodsLen : Nat → List Byte → Nat
  | 0, _ => 0
  | n + 1, bs => let k := (readRod bs).2; k + rodsLen n (bs.drop k)

def readEntry (bs : List Byte) : RqEntry × Nat :=
  let f := fieldAt bs
  let enc := BitVec.ofNat 64 (f 8 8)
  let lit := BitVec.ofNat 32 (f 16 4)
  let (srcs, len) := match decodeParcels (BitVec.ofNat 32 enc.toNat) (BitVec.ofNat 32 (enc.toNat / 2 ^ 32)) lit with
    | some (i, n) => (srcsOf i, n)
    | none => ({}, 1)
  let cap (k t : Nat) (x : Src) : Cap :=
    if x = .none then .none
    else if f (28 + 4 * k) 4 / 2 ^ t % 2 = 1 then .unfilled else .val (BitVec.ofNat 64 (f (64 + 256 * k + 8 * t) 8))
  let mask := bitsSet (f 20 4)
  let st := f 24 4
  (⟨f 0 8, enc, lit, len, mask, st % 2 == 1, st / 2 % 2 == 1, st / 4 % 2 == 1,
    mask.map fun t => ⟨t, cap 0 t srcs.a, cap 1 t srcs.b, cap 2 t srcs.c, cap 3 t srcs.d⟩, mask.any fun t => cap 0 t srcs.a == .unfilled⟩, 1088)

/-- Poison of a bead that an image brings: SUB and %taddr as of an error of the register store (R382, R383). Log entry 26. -/
def imagePoison (reg t : Nat) : BeadPoison := ⟨reg, t, 2, BitVec.ofNat 64 (2 ^ 63 + reg)⟩

def Cap.badFrom (x y : Cap) : Cap := match x, y with
  | .val v, .val w => if v = w then x else .bad v 2 (2 ^ 63)
  | _, _ => x

/-- A replay-queue entry whose poisoned captured operands are those that differ. -/
def RqEntry.badFrom (q r : RqEntry) : RqEntry :=
  { q with ops := (q.ops.zip r.ops).map fun x => ⟨x.1.thr, x.1.a.badFrom x.2.a, x.1.b.badFrom x.2.b, x.1.c.badFrom x.2.c, x.1.d.badFrom x.2.d⟩ }

/-- A gang with the beads and captured operands poisoned in which it differs from another reading of it. -/
def Gang.badFrom (g h : Gang) : Gang :=
  { g with poison := g.rods.flatMap fun r => match r.2, alGet h.rods r.1 with
             | .value bs, some (.value cs) => (differs bs cs).map fun t => imagePoison r.1 t
             | _, _ => [],
           trap := match g.trap, h.trap with
             | some m, some n => some { m with queue := (m.queue.zip n.queue).map fun x => x.1.badFrom x.2 }
             | t, _ => t }

/-- A gang as the image has it, its block's ordinal with it. -/
def readGang (bs : List Byte) : (Nat × Gang) × Nat :=
  let f := fieldAt bs
  let nr := f 24 2
  let rods := readAll readRod nr (bs.drop 64)
  let o := 64 + rodsLen nr (bs.drop 64)
  let nq := if f 7 1 = 1 then f 44 1 else 0
  let descs := (rods.filterMap (·.desc)).zip (List.range nr)
  let cause := f 32 8
  let g := Gang.fresh 0 0 (f 4 2) 0 0 (f 6 1 == 0) 0
  ((f 0 4, { g with rods := rods.map fun r => (r.num, r.rod), descs := descs.map fun d => descOf d.2 d.1, regen := f 16 8 / 2 ^ 32 % 2 ^ 16,
                    tmr := BitVec.ofNat 64 (f 8 8),
                    trap := if f 7 1 = 1 then some ⟨cause % 256, cause / 256, bitsSet (f 40 4), readAll readEntry nq (bs.drop o)⟩ else none }),
    o + 1088 * nq)

/-- A thread as the image has it, its gang's ordinal with it; a registration's phase is that of its block's object. An object of the
whole-block list without an entry is one from which the thread has dropped, where the record has room for all; where it has none, it may be. Of
the thread's tokens the image has the last, in %etok (R289). Reserved bits of registers read as zero (R3). -/
def readThread (s : State) (block : Nat → Option BlockRec) (bs : List Byte) : (Nat × Thread) × Nat :=
  let f := fieldAt bs
  let w (k : Nat) : Word := BitVec.ofNat 64 (f k 8)
  let fl := f 6 1
  let x := Thread.fresh (f 4 1) (f 8 8)
  let whole := ((block (f 0 4)).map (·.wblist)).getD []
  let scr := ((block (f 0 4)).map (·.scratch)).getD []
  let entries : List Reg1 := (List.range (min 16 (f 160 4))).map fun i =>
    let off := f (192 + 8 * i) 4
    ⟨off, if f (196 + 8 * i) 4 % 2 = 1 then some (phaseIn scr off) else none⟩
  let gone (o : Nat) : Bool := (entries.all fun r => r.off != o) && (decide (entries.length < 16) || (s.freeAt [f 0 4, f 4 1, o]).getLsbD 0)
  ((f 0 4, { x with preds := BitVec.ofNat 7 (f 5 1), exited := fl / 8 % 2 == 1, restored := true,
                    lser := if fl / 2 % 2 = 1 then .turn else if fl / 4 % 2 = 1 then .waiting else .none,
                    fpc := w 16 &&& 7, fst := w 24 &&& 0x1F, hsp := w 32 &&& ~~~0x1F, eff := w 40, earg := w 48, etok := w 56,
                    olth := w 64 &&& 0xFFFFFFFF, toks := if w 56 = 0 then [] else [⟨w 56, (w 40).toNat, none⟩], tepc := w 72, taddr := w 80,
                    tslice := w 88, k := wordsOf 8 (bs.drop 96),
                    regs := entries.filter fun r => r.off ∉ whole || r.arrived.isSome,
                    dropped := whole.filter gone }), 320)

/-- The pages of a mapping record at a new physical base; none when it is no mapping (R295, R355). -/
def readMapping (bs : List Byte) (pa : Nat) : Option (List Page) :=
  let f := fieldAt bs
  let link := if f 25 1 = 0xFF then none else some (f 25 1)
  let sz := pageSize (f 24 1)
  let n := f 8 8
  if sz = 0 ∨ n = 0 ∨ n % sz ≠ 0 ∨ f 0 8 % sz ≠ 0 ∨ pa % sz ≠ 0 ∨ 2 ^ 56 < f 0 8 + n ∨ 2 ^ 12 ≤ f 26 2 ∨ (link.any fun l => 15 < l) then none
  else some ((List.range (n / sz)).map fun k =>
    pageOf (f 0 8 + k * sz) sz ((match link with | some l => peerLoc l pa | none => pa) + k * sz) (f 26 2) link)

structure CellRec where
  va : Nat
  gen : Nat
  sibs : List (Word × Nat × W32)
  /-- Its poisoned siblings. -/
  bad : List Nat
  deriving DecidableEq, Repr

/-- A cell whose poisoned siblings are those that differ. -/
def CellRec.badFrom (a b : CellRec) : CellRec := { a with bad := differs a.sibs b.sibs }

def readCell (bs : List Byte) : CellRec × Nat :=
  let f := fieldAt bs
  let n := f 12 1
  (⟨f 0 8, f 8 4, (List.range n).map fun i => (BitVec.ofNat 64 (f (16 + 16 * i) 8), f (24 + 16 * i) 4, BitVec.ofNat 32 (f (28 + 16 * i) 4)), []⟩, 16 + 16 * n)

/-- A code object of the image: its old handle, its address and its bytes. -/
def readCode (bs : List Byte) : (Nat × Nat × List Byte) × Nat :=
  let n := fieldAt bs 16 8
  ((fieldAt bs 0 4, fieldAt bs 8 8, (bs.drop 24).take n), 24 + n)

/-- A graph of the image (R342): its nodes with their templates behind the object, code handles through `code`. -/
def readImageGraph (ctx : Nat) (code : Nat → Nat) (bs : List Byte) : (Nat × Graph) × Nat :=
  let b := bs.drop 8
  let h := fieldAt b
  let size := h 32 8
  let node (k : Nat) : Node :=
    let f := fieldAt ((b.drop (h 16 8 + 64 * k)).take 64)
    ⟨code (f 0 4), f 4 4, (f 8 4, f 12 4, f 16 4), f 20 2, f 24 4, f 22 2, f 28 1, f 29 1, f 44 4,
      (b.drop (size + ((List.range k).map fun j => fieldAt b (h 16 8 + 64 * j + 40) 2).sum)).take (f 40 2)⟩
  let nodes := (List.range (h 0 2)).map node
  let edges := (List.range (h 4 4)).filterMap fun k => (readEdge (h 0 2) ((b.drop (h 24 8 + 32 * k)).take 32)).toOption
  ((fieldAt bs 0 2, ⟨0, ctx, nodes, edges, h 8 4, true, b.take size⟩), 8 + size + (nodes.map fun n => n.template.length).sum)

/-- The bytes of a graph of the image. -/
def graphPart (bs : List Byte) : List Byte × Nat :=
  let n := (readImageGraph 0 id bs).2
  (bs.take n, n)

/-- Every reserved byte of a graph object of the image is zero, and its edges are such (R3, R342). -/
def imageGraphOk (bs : List Byte) : Bool :=
  let b := bs.drop 8
  let h := fieldAt b
  h 2 2 == 0 && h 12 4 == 0 && ((b.drop 40).take 24).all (· == 0) &&
    ((List.range (h 0 2)).all fun k =>
      let r := (b.drop (h 16 8 + 64 * k)).take 64
      fieldAt r 30 2 == 0 && fieldAt r 42 2 == 0 && (r.drop 48).all (· == 0)) &&
    (List.range (h 4 4)).all fun k => match readEdge (h 0 2) ((b.drop (h 24 8 + 32 * k)).take 32) with | .ok _ => true | .error _ => false

/-! ### MIGRATE_IN (R316, R358) -/

/-- Free values of a rebuilt context, by purpose: what the image does not hold (log entry 26). -/
def State.fv (s : State) (k : Nat) : Nat := (Config.freeWord (s.free + k)).toNat

/-- Regions of the image; a region's parent is the one whose number stands at its PARENT address in memory, else the root (R337). -/
def State.imageRegions (s : State) (c : Context) (sec : Section) : List Region :=
  (List.range sec.count).filterMap fun k =>
    let r := (sec.body.drop (136 * k)).take 136
    let num := fieldAt r 0 2
    (parseRcb (r.drop 8)).map fun b =>
      let nums := (List.range k).map fun j => fieldAt sec.body (136 * j) 2
      let at_ := leNat (s.bytesAt c (b.parent + 8) 2)
      ⟨num, if b.parent = 0 then none else if at_ ∈ nums then some at_ else some 0, if k = 0 then 0 else s.fv (1024 + k), b, .none⟩

/-- Cells with their annex entries, charged to the root region; none when an annex cannot hold one (R316). -/
def State.imageCells (s : State) (c : Context) : List CellRec → Option State
  | [] => some s
  | r :: rs =>
    match translate c none r.va with
    | .error _ => s.imageCells c rs
    | .ok q =>
      let mk (x : (Word × Nat × W32) × Nat) : Sibling := ⟨x.1.1, x.1.2.1, x.1.2.2, some (c.num, 0), decide (x.2 ∈ r.bad)⟩
      let sibs := (r.sibs.zip (List.range r.sibs.length)).map mk
      let k : KeepCell := ⟨q.loc, r.gen, sibs, Config.freeBit (s.free + q.loc), sibs.any (·.poison), false⟩
      let others := s.cells.filter fun x => x.slot != q.loc
      if Config.annexEntries < annexUsed others q.loc + (r.sibs.length - 1) then none
      else State.imageCells { s with cells := putCell s.cells k } c rs

/-- A launch of the image, by its %launch, under a new name: RUNNING; what the image does not say of it is free (log entry 26). -/
def State.imageLaunch (s : State) (c : Context) (codes graphs : List Nat) (bs : List BlockRec) (threads : Nat) (seq num : Nat) : Launch :=
  let mine := bs.filter fun b => b.launch == seq
  let b := (mine[0]?).getD ⟨seq, 0, 0, [], [], [], [], [], [], [], []⟩
  let v (k : Nat) : Nat := s.fv (4096 + 16 * (num % 2 ^ 16) + k)
  let pick (l : List Nat) (k : Nat) : Nat := if l.isEmpty then 0 else l.getD (v k % l.length) 0
  let reg := pick (c.regions.map (·.num)) 0
  let nd : Node := ⟨pick codes 1, v 2 % 2 ^ 32, (v 3 % 2 ^ 20 + 1, v 4 % 2 ^ 20 + 1, v 5 % 2 ^ 20 + 1), threads, b.size, b.tags.length, b.tiles.length,
    b.pairs.length, 0, []⟩
  let e := (c.effective reg).getD ⟨0, 0, 0, 0, 0, 0, 0, 0, 0, 0, 0, 0, 0, 0, 0⟩
  let o := s.code? nd.code
  ⟨num, c.num, reg, 256, s.nextId, pick graphs 6, v 7 % 2 ^ 12, nd, .running, .ok, false, 0, false, e, v 8, v 9 % 4096, mine.map (·.linear), [], 0, [],
    [], [], [], 0, 0, false, s.wall 0, 0, s.nextId, [], seq,
    (o.map (·.va)).getD 0, (o.map (·.feat)).getD 0, (o.map (·.minrods)).getD 0, [], [], []⟩

/-- Features that a code object of the image may require: those of every graph that names it (R342). -/
def featBound (gs : List Graph) (handle : Nat) : Nat := ((gs.filter fun g => g.names handle).map (·.feat)).foldl Nat.land (2 ^ 32 - 1)

/-- A new code object for each of the image (R358: it is loaded and re-packed; the re-packed code is its copy, log entry 25). -/
def State.imageCodes (s : State) (c : Context) (gs : List Graph) (cs : List (Nat × Nat × List Byte)) : State :=
  let put (s : State) (x : Nat × Nat × List Byte) : State :=
    let s1 := s.pokeVa c x.2.1 x.2.2
    { s1 with codes := s1.codes ++ [⟨s1.nextCode, c.num, x.2.1, x.2.2.length, Nat.land (s1.fv (2048 + x.1 % 1024)) (featBound gs s1.nextCode), s1.fv (3072 + x.1 % 1024) % 257, 1⟩],
              nextCode := s1.nextCode + 1 }
  { cs.foldl put s with line := none }

def State.imageGraphs (s : State) (gs : List Graph) : State :=
  gs.foldl (fun s g => { s with graphs := s.graphs ++ [{ g with handle := s.freeGraph }] }) s

/-- Threads whose code is gone: the saved PC, or the slice of a recipe of theirs, lies in no code object of the image (R233, R359). DEDUCED,
log entry 105. -/
def goneThreads (cs : List (Nat × Nat × List Byte)) (gs : List Gang) : List (Nat × Nat) :=
  let there (a : Nat) : Bool := cs.any fun c => c.2.1 ≤ a && a < c.2.1 + c.2.2.length
  gs.flatMap fun g => (g.threads.filter fun x => x.live && (!there x.pc || g.descs.any fun d => x.thr ∈ d.mask && !there d.slice)).map fun x => (g.gid, x.thr)

/-- Blocks and gangs of the image as a saved context, named from `id` up. -/
def imageSaved (s : State) (c : Context) (launches : List Launch) (cs : List (Nat × Nat × List Byte)) (bs : List BlockRec) (gs : List (Nat × Gang))
    (ts : List ((Nat × Thread) × List Word)) (id : Nat) : Saved :=
  let gid (k : Nat) : Nat := id + bs.length + k
  let gangs := (gs.zip (List.range gs.length)).map fun g =>
    let mine := ts.filter fun t => t.1.1 == g.2
    let kbad := mine.flatMap fun t => (differs t.1.2.k t.2).map fun i => imagePoison (256 + i) t.1.2.thr
    { g.1.2 with gid := gid g.2, bid := id + g.1.1, threads := mine.map (·.1.2), poison := g.1.2.poison ++ kbad }
  let block (b : BlockRec) (k : Nat) : Block :=
    let mine := gangs.filter fun g => g.bid == id + k
    let n := (mine.map fun g => 32 * g.idx + g.threads.length).foldl max 0
    let l := launches.find? fun l => l.seq == b.launch
    let nb := (l.map fun l => l.nd.nb).getD (1, 1, 1)
    ⟨id + k, (l.map (·.num)).getD b.launch, b.linear, b.linear % nb.1, b.linear / nb.1 % nb.2.1, b.linear / nb.1 / nb.2.1, 0, 0, anyBase, b.size, n, b.tags, b.recency, b.wblist,
      b.tiles, b.pairs, [], false, [], false, [], s.wall 0, []⟩
  let bks := bs.zip (List.range bs.length)
  ⟨c.num, [], bks.map fun b => block b.1 b.2, gangs, bks.map fun b => (id + b.2, b.1.scratch),
    bks.flatMap fun b => b.1.bad.map fun i => scratchLoc (id + b.2) i,
    bks.flatMap fun b => b.1.arms.filterMap fun a => match translate c none a.1 with
      | .ok q => some ⟨dieOf q.loc, q.loc, id + b.2, a.2, false⟩
      | .error _ => none, [], goneThreads cs gangs⟩

/-- A page that MIGRATE_IN may map. -/
def pageFits (c : Context) (p : Page) : Bool :=
  let host := inHost p.pa p.size && p.link.isNone
  let base := match p.link with | some l => p.pa - peerLoc l 0 | none => p.pa
  (inDram base p.size || host) && !badAttr c p host

/-- Pages share no byte. -/
def disjoint : List Page → Bool
  | [] => true
  | p :: ps => (ps.all fun q => !overlap (p.va, p.size) (q.va, q.size)) && disjoint ps

/-- The window of a rebuilt context: a free base where no page lies in it, else the first place behind a page (R236, R295). Log entry 26. -/
def pickWindow (ps : List Page) (free : Nat) : Option Nat :=
  (free :: 0 :: ps.map fun p => (p.va + p.size + windowSize - 1) / windowSize * windowSize).find? fun w =>
    decide (w + windowSize ≤ 2 ^ 56) && ps.all fun p => !overlap (p.va, p.size) (w, windowSize)

/-- Complement the poisoned bytes of an image. -/
def flipImage (bs : List RByte) : List Byte := bs.map fun b => if b.bad then ~~~b.val else b.val

/-- Bytes of the image at an address, sealed or not: a plain one begins with its context header. -/
def State.imageLen (s : State) (a : Nat) : Nat :=
  let h := s.readPhys a 64
  if fieldAt h 0 2 = 1 then fieldAt h 32 8 else Config.recordLen h

/-- The image at an address: its bytes with their poison, and for a sealed one what the first key slot that opens it gives, with that slot
(R355, R390). -/
def State.imageAt (s : State) (a : Nat) : List RByte × Option Nat :=
  let bs := s.seenBy none a (s.lastBytes a (s.imageLen a))
  if fieldAt (s.readPhys a 64) 0 2 = 1 then (bs, none)
  else
    match s.sup.keys.findSome? fun k => (Config.openRecord k.2 (rbVals bs)).map fun bs => (bs, k.1) with
    | some x => ((x.1.zip (List.range x.1.length)).map fun b => ⟨b.1, (bs[Config.recordByte b.2]?).any (·.bad), none⟩, some x.2)
    | none => ([], none)

/-- Mapping records of an image. -/
def mapCount (img : List RByte × Option Nat) : Nat := (findSection (splitSections (img.1.length / 64) (rbVals img.1)) 5).count

/-- Work lists with items on the pages of a context: they travel with its memory (R294). DEDUCED, log entry 102. -/
def State.movedLists (s : State) (c : Context) : List WorkUse :=
  let lines := ((s.mem.map (·.1) ++ s.writes.map (·.loc)).map fun a => a / 64 * 64).dedup.filter fun a =>
    c.pages.any fun p => !p.keep && p.pa ≤ a && a < p.pa + p.size
  (lines.filter fun a =>
    let bs := rbVals (s.seenBy (some c.num) a (s.lastBytes a 64))
    fieldAt bs 24 4 != fieldAt bs 28 4).map fun a => ⟨a, false, false, true⟩

/-- Read a section's records twice, with poisoned bytes complemented the second time, and mark what differs. -/
def readBoth {α : Type} (f : List Byte → α × Nat) (mark : α → α → α) (x y : Section) : List α :=
  let bs := readAll f x.count y.body
  ((readAll f x.count x.body).zip bs).map fun k => mark k.1 k.2

/-- Rebuild a context from an image, with the key slot that opened it, and the new physical bases. -/
def State.migrateIn (s : State) (img : List RByte × Option Nat) (pb : Nat) : CmdResult :=
  let bs := rbVals img.1
  let ss := splitSections (bs.length / 64) bs
  let sec := findSection ss
  let alt := findSection (splitSections (bs.length / 64) (flipImage img.1))
  let n := s.nextCtx
  let ms := sec 5
  let maps := (List.range ms.count).map fun k => readMapping (ms.body.drop (32 * k)) (fieldAt (s.readPhys (pb + 8 * k) 8) 0 8)
  let pages := (maps.filterMap id).flatten
  let win := pickWindow pages (s.fv 0 % 2 ^ 37 * windowSize)
  let c0 : Context := ⟨n, s.fv 1, win.getD 0, img.2.isSome, img.2.getD 0, fieldAt (sec 1).body 8 8, [], pages, true, false, false, [], 0⟩
  let c : Context := { c0 with regions := s.imageRegions c0 (sec 2) }
  let brs := readBoth readBlock BlockRec.badFrom (sec 0x8010) (alt 0x8010)
  let grs := readBoth readGang (fun a b => (a.1, a.2.badFrom b.2)) (sec 0x8020) (alt 0x8020)
  let block (g : Nat) : Option BlockRec := (grs[g]?).bind fun x => brs[x.1]?
  let trs := (readAll (readThread s block) (sec 0x8030).count (sec 0x8030).body).zip
    ((readAll (readThread s block) (sec 0x8030).count (alt 0x8030).body).map fun t => t.2.k)
  let nums := (brs.map (·.launch)).dedup
  let crs := readAll readCode (sec 3).count (sec 3).body
  let newCode (h : Nat) : Nat := s.nextCode + crs.findIdx fun x => x.1 == h
  if fieldAt bs 0 2 ≠ 1 ∨ strangeSection ss ∨ !(readAll graphPart (sec 4).count (sec 4).body).all imageGraphOk ∨ c.regions.length ≠ (sec 2).count ∨ c.regions.isEmpty ∨ !c.treeOk ∨
      (c.regions.any fun r => r.parent.isNone && (r.rcb.perm / 8 % 2 == 1) != img.2.isSome) ∨ (maps.any (·.isNone)) ∨ (pages.any fun p => !pageFits c p) ∨
      !disjoint pages ∨ win.isNone ∨ (trs.any fun t => 32 ≤ t.1.2.thr) then .reject stBADVALUE 0
  else if s.sup.health == .critical then .reject stNORESOURCE 0
  else
    let s1 : State := { s with contexts := s.contexts ++ [c], nextCtx := n + 1 }
    let keep := (pages.filter (·.keep)).map fun p => (p.pa, p.size, c.keyFor s1 p)
    match (s1.flatten keep).imageCells c (readBoth readCell CellRec.badFrom (sec 6) (alt 6)) with
    | none => .reject stNOANNEX 0
    | some s2 =>
      let gbs := readAll (readImageGraph n newCode) (sec 4).count (sec 4).body
      let s3 := s2.imageCodes c (gbs.map (·.2)) crs
      let s4 := s3.imageGraphs (gbs.map (·.2))
      let codes := (s4.codes.filter fun o => o.ctx == n).map (·.handle)
      let graphs := (s4.graphs.filter fun g => g.ctx == n).map (·.handle)
      let size (k : Nat) : Nat := ((grs.zip (List.range grs.length)).filter fun g => (brs[g.1.1]?).any fun b => b.launch == k).foldl
        (fun m g => max m (32 * g.1.2.idx + (trs.filter fun t => t.1.1 == g.2).length)) 0
      let base := (nums.map (· + 1)).foldl max s4.nextLaunch
      let ls := (nums.zip (List.range nums.length)).map fun k => s4.imageLaunch c codes graphs brs (size k.1) k.1 (base + k.2)
      let v := imageSaved s4 c ls crs brs grs trs (s4.nextId + 1)
      .wait { s4 with work := s4.work ++ s4.movedLists c,
                      launches := s4.launches ++ ls, saved := s4.saved ++ [v], nextId := s4.nextId + 1 + brs.length + grs.length,
                      nextLaunch := base + nums.length, free := s4.free + 2 ^ 21 } (.restored n) n

/-- R358: MIGRATE_IN. -/
def execMigrateIn (p : Packet) (s : State) : Host.Outcome State Fault Refusal :=
  command [{ id := 2, lens := [8] }, { id := 3, lens := [8] }] p s false
    (fun q => [nameRange (q.nat 2) (s.imageLen (q.nat 2)), nameRange (q.nat 3) (8 * mapCount (s.imageAt (q.nat 2)))]) fun q s =>
    let img := s.imageAt (q.nat 2)
    if !inMap (q.nat 2) (s.imageLen (q.nat 2)) || !inMap (q.nat 3) (8 * mapCount img) then .reject stBADVALUE 0
    else s.migrateIn img (q.nat 3)

/-! ### The end of a command (R260, R334, R335, R362) -/

/-- What a command waits for has come about. -/
def State.waitOver (s : State) : WaitFor → Bool
  | .done => true
  | .old ops mark ranges _ => s.oldOver ops mark ranges
  | .drained c r => (s.residents c r).isEmpty
  | .removed c => (s.removals.all fun r => r.ctx != c) && (match s.ctx? c with
      | some x => s.writes.all fun w => w.full || ScopeUnit.module ∈ w.vis || x.pages.all fun p => !overlap (p.pa, p.size) (w.loc, w.data.length)
      | none => true)
  | .switched c | .migrated c _ _ _ => s.saved.any (fun v => v.ctx == c) || (s.ctx? c).isNone
  | .restored c => (s.saved.all fun v => v.ctx != c) || (s.ctx? c).any (·.featureWait)

/-- The effect of a command's end; the command may have to wait on (MIGRATE_OUT without room). -/
def State.commandEnd (s : State) (w : Waiting) : State × Waiting :=
  match w.wait with
  | .old _ _ _ keep => ((s.flatten keep).zeroMeta keep, w)
  | .removed c => (s.deleteCtx c, w)
  | .migrated c image room fresh => s.migrateEnd w c image room fresh
  | _ => (s, w)

/-- The blocks at whose barrier objects a NOTIFY arrives, with the object's offset (R335). -/
def State.notifyBlocks (s : State) (ctx addr : Nat) (key : Option (Nat × Nat)) : List (Nat × Nat) :=
  match s.ctx? ctx with
  | none => []
  | some c => (s.live.filter fun b => ((s.launch? b.launch).any fun l => l.ctx == ctx) &&
      decide (c.window + b.sbase ≤ addr ∧ addr < c.window + b.sbase + b.ssize) &&
      (match key with | some k => ((s.launch? b.launch).any fun l => l.seq == k.1) && b.linear == k.2 | none => true)).map fun b => (b.bid, addr - c.window - b.sbase)

/-- NOTIFY: one arrival at each object; whether one was lost, or none was made. -/
def State.notify (s : State) : Option (Nat × Nat × Option (Nat × Nat)) → State × Bool
  | none => (s, false)
  | some (ctx, addr, key) =>
    let bs := s.notifyBlocks ctx addr key
    bs.foldl (fun k b => let (s1, lost) := k.1.arriveFree b.1 b.2; (s1, k.2 || lost)) (s, bs.isEmpty)

/-- The administrative completion ring has room: its host has consumed what one more record would overwrite (R361). -/
def State.cqRoom (s : State) : Bool :=
  s.bar.cqSize = 0 || (s.bar.cqTail.toNat + 16) % s.bar.cqSize.toNat != s.bar.cqHead.toNat

/-- A command's completion record (R334); without a ring none is written. -/
def State.cqRecord (s : State) (w : Waiting) (lost : Bool) : State :=
  let size := s.bar.cqSize.toNat
  if size = 0 then s
  else
    let rec_ := leBytes 4 w.seq ++ leBytes 2 w.status ++ leBytes 2 (w.flags + 2 * lost.toNat) ++ leBytes 8 w.detail
    let s1 := s.pokeAt (s.bar.cqBase.toNat + s.bar.cqTail.toNat) rec_
    State.interrupt { s1 with bar := { s1.bar with cqTail := BitVec.ofNat 64 ((s1.bar.cqTail.toNat + 16) % size) } } 0

/-- A command that would end waits for a restore first. -/
def Waiting.goesOn (w1 w : Waiting) : Bool := w1.wait != w.wait && (match w1.wait with | .restored _ => true | _ => false)

def State.rewait (s : State) (w : Waiting) : State := { s with waiting := s.waiting.map fun x => if x.seq = w.seq then w else x }

/-- R334: COMMAND_COMPLETE: the first begun command of a sequence number completes: its effects, its arrival, its record. -/
def execCommandComplete (seq : Nat) (s : State) : Host.Outcome State Fault Refusal :=
  .next (match s.waiting.find? fun w => w.seq == seq with
    | none => s
    | some w =>
      if !s.waitOver w.wait || !s.cqRoom then s
      else
        let (s1, w1) := s.commandEnd w
        if w1.goesOn w then s1.rewait w1
        else
          let (s2, lost) := s1.notify w1.notify
          State.cqRecord { s2 with waiting := s2.waiting.filter fun x => x.seq != seq } w1 lost)

end Sys2Proof.Machine
end

