-- ==== Sys2Proof/Machine/Lanes.lean ====
section
/-! DEFINITION. Integer, logic, bit-field and predicate instructions, with their S forms (R55, R92 to R103). What each
thread computes is in Values.lean. -/

namespace Sys2Proof.Machine

/-- R55: S-form MOV.b64: copies register a into register d in every active thread. -/
def execMovS (d a : Reg) (s : State) : Host.Outcome State Fault Refusal :=
  laneExec (.movS d a) s
/-- R55: S-form IADD.s64: d := a + b, modulo 2^64. -/
def execIaddS (d a b : Reg) (s : State) : Host.Outcome State Fault Refusal :=
  laneExec (.iaddS d a b) s
/-- R55: S-form ISUB.s64: d := a - b, modulo 2^64. -/
def execIsubS (d a b : Reg) (s : State) : Host.Outcome State Fault Refusal :=
  laneExec (.isubS d a b) s
/-- R55: S-form AND.b64: d := a & b. -/
def execAndS (d a b : Reg) (s : State) : Host.Outcome State Fault Refusal :=
  laneExec (.andS d a b) s
/-- R55: S-form OR.b64: d := a | b. -/
def execOrS (d a b : Reg) (s : State) : Host.Outcome State Fault Refusal :=
  laneExec (.orS d a b) s
/-- R55: S-form XOR.b64: d := a ^ b. -/
def execXorS (d a b : Reg) (s : State) : Host.Outcome State Fault Refusal :=
  laneExec (.xorS d a b) s
/-- R55: S-form SHL.b64: shifts register a left by register b. -/
def execShlS (d a b : Reg) (s : State) : Host.Outcome State Fault Refusal :=
  laneExec (.shlS d a b) s
/-- R55: S-form SHR.z64: shifts register a right by register b, filling with zeros. -/
def execShrS (d a b : Reg) (s : State) : Host.Outcome State Fault Refusal :=
  laneExec (.shrS d a b) s
/-- R55: S-form IMUL.s64: d := a × b, modulo 2^64. -/
def execImulS (d a b : Reg) (s : State) : Host.Outcome State Fault Refusal :=
  laneExec (.imulS d a b) s
/-- R55: S-form FADD.f32, rounding by %fpc. -/
def execFaddF32S (d a b : Reg) (s : State) : Host.Outcome State Fault Refusal :=
  laneExec (.faddF32S d a b) s
/-- R55: S-form FMUL.f32, rounding by %fpc. -/
def execFmulF32S (d a b : Reg) (s : State) : Host.Outcome State Fault Refusal :=
  laneExec (.fmulF32S d a b) s
/-- R55: S-form FADD.f32x2, rounding by %fpc. -/
def execFaddF32x2S (d a b : Reg) (s : State) : Host.Outcome State Fault Refusal :=
  laneExec (.faddF32x2S d a b) s
/-- R55: S-form FMUL.f32x2, rounding by %fpc. -/
def execFmulF32x2S (d a b : Reg) (s : State) : Host.Outcome State Fault Refusal :=
  laneExec (.fmulF32x2S d a b) s
/-- R55: S-form FADD.bf16x4, rounding by %fpc. -/
def execFaddBf16x4S (d a b : Reg) (s : State) : Host.Outcome State Fault Refusal :=
  laneExec (.faddBf16x4S d a b) s
/-- R55: S-form FMUL.bf16x4, rounding by %fpc. -/
def execFmulBf16x4S (d a b : Reg) (s : State) : Host.Outcome State Fault Refusal :=
  laneExec (.fmulBf16x4S d a b) s
/-- R55: S-form IADD.s64 with a sign-extended imm8. -/
def execIaddImmS (d a : Reg) (imm : BitVec 8) (s : State) : Host.Outcome State Fault Refusal :=
  laneExec (.iaddImmS d a imm) s
/-- R55: S-form SHL.b64 by a zero-extended imm8. -/
def execShlImmS (d a : Reg) (imm : BitVec 8) (s : State) : Host.Outcome State Fault Refusal :=
  laneExec (.shlImmS d a imm) s
/-- R55: S-form SHR.z64 by a zero-extended imm8. -/
def execShrImmS (d a : Reg) (imm : BitVec 8) (s : State) : Host.Outcome State Fault Refusal :=
  laneExec (.shrImmS d a imm) s
/-- R92: Copies the bits of bead(a) into bead(d). -/
def execMov (g : Guard) (ty : Ty) (d a : Reg) (s : State) : Host.Outcome State Fault Refusal :=
  laneExec (.mov g ty d a) s
/-- R92: X-form move of a literal into bead(d). -/
def execMovi (g : Guard) (ty : Ty) (d : Reg) (v : W32) (s : State) : Host.Outcome State Fault Refusal :=
  laneExec (.movi g ty d v) s
/-- R92: Selects A or B into d by a predicate. -/
def execSel (g : Guard) (ty : Ty) (d a : Reg) (b : Opnd) (pc : Pred) (s : State) : Host.Outcome State Fault Refusal :=
  laneExec (.sel g ty d a b pc) s
/-- R92: Integer add, modulo the sub-element width. -/
def execIadd (g : Guard) (ty : Ty) (d a : Reg) (b : Opnd) (s : State) : Host.Outcome State Fault Refusal :=
  laneExec (.iadd g ty d a b) s
/-- R92: Integer subtract, modulo the sub-element width. -/
def execIsub (g : Guard) (ty : Ty) (d a : Reg) (b : Opnd) (s : State) : Host.Outcome State Fault Refusal :=
  laneExec (.isub g ty d a b) s
/-- R93: Add with carry-in and carry-out through predicates. -/
def execIaddc (g : Guard) (ty : Ty) (d a : Reg) (b : Opnd) (cin : Option Pred) (cout : Pred) (s : State) : Host.Outcome State Fault Refusal :=
  laneExec (.iaddc g ty d a b cin cout) s
/-- R93: Subtract with borrow through predicates. -/
def execIsubb (g : Guard) (ty : Ty) (d a : Reg) (b : Opnd) (cin : Option Pred) (cout : Pred) (s : State) : Host.Outcome State Fault Refusal :=
  laneExec (.isubb g ty d a b cin cout) s
/-- R92: Integer multiply, low bits of the product. -/
def execImul (g : Guard) (ty : Ty) (d a : Reg) (b : Opnd) (s : State) : Host.Outcome State Fault Refusal :=
  laneExec (.imul g ty d a b) s
/-- R92: High half of the exact integer product. -/
def execImulh (g : Guard) (ty : Ty) (d a : Reg) (b : Opnd) (s : State) : Host.Outcome State Fault Refusal :=
  laneExec (.imulh g ty d a b) s
/-- R92: Integer multiply-add, modulo the width. -/
def execImad (g : Guard) (ty : Ty) (d a : Reg) (b : Opnd) (c : Reg) (s : State) : Host.Outcome State Fault Refusal :=
  laneExec (.imad g ty d a b c) s
/-- R94: Integer quotient truncated toward zero, with defined division by zero. -/
def execIdiv (g : Guard) (ty : Ty) (d a : Reg) (b : Opnd) (s : State) : Host.Outcome State Fault Refusal :=
  laneExec (.idiv g ty d a b) s
/-- R94: Integer remainder with the sign of the dividend. -/
def execIrem (g : Guard) (ty : Ty) (d a : Reg) (b : Opnd) (s : State) : Host.Outcome State Fault Refusal :=
  laneExec (.irem g ty d a b) s
/-- R92: Integer negate, wrapping. -/
def execIneg (g : Guard) (ty : Ty) (d a : Reg) (s : State) : Host.Outcome State Fault Refusal :=
  laneExec (.ineg g ty d a) s
/-- R92: Integer absolute value, wrapping. -/
def execIabs (g : Guard) (ty : Ty) (d a : Reg) (s : State) : Host.Outcome State Fault Refusal :=
  laneExec (.iabs g ty d a) s
/-- R92: Smaller of two integers. -/
def execImin (g : Guard) (ty : Ty) (d a : Reg) (b : Opnd) (s : State) : Host.Outcome State Fault Refusal :=
  laneExec (.imin g ty d a b) s
/-- R92: Larger of two integers. -/
def execImax (g : Guard) (ty : Ty) (d a : Reg) (b : Opnd) (s : State) : Host.Outcome State Fault Refusal :=
  laneExec (.imax g ty d a b) s
/-- R95: Saturating integer add. -/
def execIadds (g : Guard) (ty : Ty) (d a : Reg) (b : Opnd) (s : State) : Host.Outcome State Fault Refusal :=
  laneExec (.iadds g ty d a b) s
/-- R95: Saturating integer subtract. -/
def execIsubs (g : Guard) (ty : Ty) (d a : Reg) (b : Opnd) (s : State) : Host.Outcome State Fault Refusal :=
  laneExec (.isubs g ty d a b) s
/-- R92: d := A + B × 2^sh, without memory access. -/
def execLea (g : Guard) (d a : Reg) (b : Opnd) (sh : BitVec 6) (s : State) : Host.Outcome State Fault Refusal :=
  laneExec (.lea g d a b sh) s
/-- R97: Bitwise AND. -/
def execAnd (g : Guard) (ty : Ty) (d a : Reg) (b : Opnd) (s : State) : Host.Outcome State Fault Refusal :=
  laneExec (.and g ty d a b) s
/-- R97: Bitwise OR. -/
def execOr (g : Guard) (ty : Ty) (d a : Reg) (b : Opnd) (s : State) : Host.Outcome State Fault Refusal :=
  laneExec (.or g ty d a b) s
/-- R97: Bitwise XOR. -/
def execXor (g : Guard) (ty : Ty) (d a : Reg) (b : Opnd) (s : State) : Host.Outcome State Fault Refusal :=
  laneExec (.xor g ty d a b) s
/-- R97: A AND NOT B. -/
def execAndn (g : Guard) (ty : Ty) (d a : Reg) (b : Opnd) (s : State) : Host.Outcome State Fault Refusal :=
  laneExec (.andn g ty d a b) s
/-- R97: Bitwise complement. -/
def execNot (g : Guard) (ty : Ty) (d a : Reg) (s : State) : Host.Outcome State Fault Refusal :=
  laneExec (.not g ty d a) s
/-- R98: Shift left, giving 0 for amounts at or above the width. -/
def execShl (g : Guard) (ty : Ty) (d a : Reg) (b : Opnd) (s : State) : Host.Outcome State Fault Refusal :=
  laneExec (.shl g ty d a b) s
/-- R98: Logical shift right. -/
def execShr (g : Guard) (ty : Ty) (d a : Reg) (b : Opnd) (s : State) : Host.Outcome State Fault Refusal :=
  laneExec (.shr g ty d a b) s
/-- R98: Arithmetic shift right. -/
def execSar (g : Guard) (ty : Ty) (d a : Reg) (b : Opnd) (s : State) : Host.Outcome State Fault Refusal :=
  laneExec (.sar g ty d a b) s
/-- R98: Rotate left or right by n mod w. -/
def execRot (g : Guard) (ty : Ty) (d a : Reg) (b : Opnd) (right : Bool) (s : State) : Host.Outcome State Fault Refusal :=
  laneExec (.rot g ty d a b right) s
/-- R99: Bit-field extract, signed or unsigned. -/
def execBfe (g : Guard) (ty : Ty) (d a : Reg) (b : Opnd) (s : State) : Host.Outcome State Fault Refusal :=
  laneExec (.bfe g ty d a b) s
/-- R99: Bit-field insert into C. -/
def execBfi (g : Guard) (ty : Ty) (d a : Reg) (b : Opnd) (c : Reg) (s : State) : Host.Outcome State Fault Refusal :=
  laneExec (.bfi g ty d a b c) s
/-- R97: Population count. -/
def execPopc (g : Guard) (ty : Ty) (d a : Reg) (s : State) : Host.Outcome State Fault Refusal :=
  laneExec (.popc g ty d a) s
/-- R97: Count of leading zeros. -/
def execClz (g : Guard) (ty : Ty) (d a : Reg) (s : State) : Host.Outcome State Fault Refusal :=
  laneExec (.clz g ty d a) s
/-- R97: Count of trailing zeros. -/
def execCtz (g : Guard) (ty : Ty) (d a : Reg) (s : State) : Host.Outcome State Fault Refusal :=
  laneExec (.ctz g ty d a) s
/-- R97: Bit reversal. -/
def execBrev (g : Guard) (ty : Ty) (d a : Reg) (s : State) : Host.Outcome State Fault Refusal :=
  laneExec (.brev g ty d a) s
/-- R100: Byte permute from sixteen source bytes. -/
def execBperm (g : Guard) (d a : Reg) (b : Opnd) (c : Reg) (s : State) : Host.Outcome State Fault Refusal :=
  laneExec (.bperm g d a b c) s
/-- R101: Integer compare writing a predicate, optionally combined with another. -/
def execSetp (g : Guard) (ty : Ty) (cmp : ICmp) (comb : Comb) (pd : Pred) (a : Reg) (b : Opnd) (pc : Pred) (s : State) : Host.Outcome State Fault Refusal :=
  laneExec (.setp g ty cmp comb pd a b pc) s
/-- R102: Any function of three predicates by truth table. -/
def execPlop (g : Guard) (pd pa pb pc : Pred) (lut : BitVec 8) (s : State) : Host.Outcome State Fault Refusal :=
  laneExec (.plop g pd pa pb pc lut) s
/-- R103: Moves predicates to or from a general register. -/
def execPmov (g : Guard) (dir : PmovDir) (s : State) : Host.Outcome State Fault Refusal :=
  laneExec (.pmov g dir) s

end Sys2Proof.Machine
end

