-- ==== Sys2Proof/Machine/LanesFp.lean ====
section
/-! DEFINITION. Floating-point, conversion and block instructions (R123 to R137). What each
thread computes is in Values.lean. -/

namespace Sys2Proof.Machine

/-- R123: Floating-point add. -/
def execFadd (g : Guard) (ty : Ty) (rnd : Rnd) (d a : Reg) (b : Opnd) (s : State) : Host.Outcome State Fault Refusal :=
  laneExec (.fadd g ty rnd d a b) s
/-- R123: Floating-point subtract. -/
def execFsub (g : Guard) (ty : Ty) (rnd : Rnd) (d a : Reg) (b : Opnd) (s : State) : Host.Outcome State Fault Refusal :=
  laneExec (.fsub g ty rnd d a b) s
/-- R123: Floating-point multiply. -/
def execFmul (g : Guard) (ty : Ty) (rnd : Rnd) (d a : Reg) (b : Opnd) (s : State) : Host.Outcome State Fault Refusal :=
  laneExec (.fmul g ty rnd d a b) s
/-- R123: Fused multiply-add with one rounding. -/
def execFfma (g : Guard) (ty : Ty) (rnd : Rnd) (d a : Reg) (b : Opnd) (c : Reg) (s : State) : Host.Outcome State Fault Refusal :=
  laneExec (.ffma g ty rnd d a b c) s
/-- R123: Floating-point minimum under R26. -/
def execFmin (g : Guard) (ty : Ty) (d a : Reg) (b : Opnd) (s : State) : Host.Outcome State Fault Refusal :=
  laneExec (.fmin g ty d a b) s
/-- R123: Floating-point maximum under R26. -/
def execFmax (g : Guard) (ty : Ty) (d a : Reg) (b : Opnd) (s : State) : Host.Outcome State Fault Refusal :=
  laneExec (.fmax g ty d a b) s
/-- R124: Floating-point compare writing a predicate. -/
def execFsetp (g : Guard) (ty : Ty) (cmp : FCmp) (comb : Comb) (pd : Pred) (a : Reg) (b : Opnd) (pc : Pred) (s : State) : Host.Outcome State Fault Refusal :=
  laneExec (.fsetp g ty cmp comb pd a b pc) s
/-- R125: Rounds to an integral value in the same format. -/
def execFrnd (g : Guard) (ty : Ty) (rnd : Rnd) (d a : Reg) (s : State) : Host.Outcome State Fault Refusal :=
  laneExec (.frnd g ty rnd d a) s
/-- R127: Multiplies by 2^n with one rounding. -/
def execFscale (g : Guard) (ty : Ty) (rnd : Rnd) (d a b : Reg) (s : State) : Host.Outcome State Fault Refusal :=
  laneExec (.fscale g ty rnd d a b) s
/-- R126: Writes the class mask of a value. -/
def execFclass (g : Guard) (ty : Ty) (d a : Reg) (s : State) : Host.Outcome State Fault Refusal :=
  laneExec (.fclass g ty d a) s
/-- R128: Dot product of one bead plus C, rounded once to binary32. -/
def execFdot (g : Guard) (ty : Ty) (rnd : Rnd) (d a b c : Reg) (s : State) : Host.Outcome State Fault Refusal :=
  laneExec (.fdot g ty rnd d a b c) s
/-- R123: Correctly rounded floating-point divide. -/
def execFdiv (g : Guard) (ty : Ty) (rnd : Rnd) (d a : Reg) (b : Opnd) (s : State) : Host.Outcome State Fault Refusal :=
  laneExec (.fdiv g ty rnd d a b) s
/-- R125: Correctly rounded square root. -/
def execFsqrt (g : Guard) (ty : Ty) (rnd : Rnd) (d a : Reg) (s : State) : Host.Outcome State Fault Refusal :=
  laneExec (.fsqrt g ty rnd d a) s
/-- R125: Reciprocal under R41. -/
def execFrcp (g : Guard) (ty : Ty) (d a : Reg) (s : State) : Host.Outcome State Fault Refusal :=
  laneExec (.frcp g ty d a) s
/-- R125: Reciprocal square root under R41. -/
def execFrsq (g : Guard) (ty : Ty) (d a : Reg) (s : State) : Host.Outcome State Fault Refusal :=
  laneExec (.frsq g ty d a) s
/-- R125: Base-2 exponential under R41. -/
def execFexp2 (g : Guard) (ty : Ty) (d a : Reg) (s : State) : Host.Outcome State Fault Refusal :=
  laneExec (.fexp2 g ty d a) s
/-- R125: Base-2 logarithm under R41. -/
def execFlog2 (g : Guard) (ty : Ty) (d a : Reg) (s : State) : Host.Outcome State Fault Refusal :=
  laneExec (.flog2 g ty d a) s
/-- R125: Sine under R41. -/
def execFsin (g : Guard) (ty : Ty) (d a : Reg) (s : State) : Host.Outcome State Fault Refusal :=
  laneExec (.fsin g ty d a) s
/-- R125: Cosine under R41. -/
def execFcos (g : Guard) (ty : Ty) (d a : Reg) (s : State) : Host.Outcome State Fault Refusal :=
  laneExec (.fcos g ty d a) s
/-- R125: Hyperbolic tangent under R41. -/
def execFtanh (g : Guard) (ty : Ty) (d a : Reg) (s : State) : Host.Outcome State Fault Refusal :=
  laneExec (.ftanh g ty d a) s
/-- R125: Logistic sigmoid under R41. -/
def execFsigm (g : Guard) (ty : Ty) (d a : Reg) (s : State) : Host.Outcome State Fault Refusal :=
  laneExec (.fsigm g ty d a) s
/-- R129: Converts elements between types, matched by group. -/
def execCvt (g : Guard) (dst src : Ty) (rnd : Rnd) (satf : Bool) (h : BitVec 4) (d a : Reg) (s : State) : Host.Outcome State Fault Refusal :=
  laneExec (.cvt g dst src rnd satf h d a) s
/-- R134: Quantises elements with a scale and marks outliers. -/
def execCvtq (g : Guard) (dst src : Ty) (rnd : Rnd) (satf : Bool) (h : BitVec 4) (d a b : Reg) (s : State) : Host.Outcome State Fault Refusal :=
  laneExec (.cvtq g dst src rnd satf h d a b) s
/-- R135: Writes outlier values into a header bead's side list. -/
def execOlpack (g : Guard) (dst src : Ty) (rnd : Rnd) (h : BitVec 4) (d a b c : Reg) (s : State) : Host.Outcome State Fault Refusal :=
  laneExec (.olpack g dst src rnd h d a b c) s
/-- R136: Finds the outlier markers in an element bead. -/
def execOlunpk (g : Guard) (ty : Ty) (d a : Reg) (s : State) : Host.Outcome State Fault Refusal :=
  laneExec (.olunpk g ty d a) s
/-- R133: Builds a block header bead by scale, amax or zero mode. -/
def execBlkhdr (g : Guard) (ty : Ty) (mode : BlkMode) (d a : Reg) (s : State) : Host.Outcome State Fault Refusal :=
  laneExec (.blkhdr g ty mode d a) s
/-- R137: Decodes part of an element bead of a block. -/
def execDq (g : Guard) (dst : Ty) (rnd : Rnd) (h : BitVec 4) (d a b c : Reg) (s : State) : Host.Outcome State Fault Refusal :=
  laneExec (.dq g dst rnd h d a b c) s
/-- R132: Converts a block from register split to memory order. -/
def execPack (g : Guard) (d a : Reg) (s : State) : Host.Outcome State Fault Refusal :=
  laneExec (.pack g d a) s
/-- R132: Converts a block from memory order to register split. -/
def execUnpack (g : Guard) (d a : Reg) (s : State) : Host.Outcome State Fault Refusal :=
  laneExec (.unpack g d a) s

end Sys2Proof.Machine
end

