-- ==== Sys2Proof/Machine/Observe.lean ====
section
/-! DEFINITION. What is seen from outside a kernel (spec/23): the counter time series (R386, R387, R390), trace and stops (R388, R389),
keys (R391), attestation and boot (R392, R393), health and retirement (R332, R394, R395), and the power cap (R396). -/

namespace Sys2Proof.Machine
open Host

/-! ### Telemetry (R386, R387) -/

def recordBytes : Nat := 14912

/-- R386: TELEMETRY_CFG. -/
def execTelemetryCfg (p : Packet) (s : State) : Host.Outcome State Fault Refusal :=
  command [{ id := 2, lens := [1], ok := fun b => 12 ≤ leNat b && leNat b ≤ 24 }, { id := 3, lens := [8] }, { id := 4, lens := [8], req := false }]
      p s false (fun q => [(5, 0), nameRange (q.nat 3) (q.nat 4)])
      (trim := fun q => if q.nat 3 ≠ 0 ∧ !isPow2 17 63 (q.nat 4) then [4] else []) fun q s =>
    if q.nat 3 ≠ 0 ∧ !q.has 4 then .reject stMISSING 0
    else if q.nat 3 ≠ 0 ∧ (!isPow2 17 63 (q.nat 4) ∨ !inMap (q.nat 3) (q.nat 4)) then .reject stBADVALUE 0
    else .done { s with telemetry := { s.telemetry with next := some (q.nat 2, q.nat 3, q.nat 4) } } 0

/-- Annex entries in use at a slice (R387: a level). -/
def State.annexLevel (s : State) (die slice : Nat) : Nat :=
  ((s.cells.filter fun k => dieOf k.slot == die && Config.lineSlice (k.slot / 64) % Config.slicesPerDie == slice).map fun k => k.sibs.length - 1).sum

/-- Positions whose counts depend on timing alone: what they count from tick to tick is free (log entry 28). -/
def freePosition (pos : Nat) : Bool :=
  if pos < 1400 then pos % 7 == 1 || pos % 7 == 6
  else if pos < 1550 then (pos - 1400) % 3 != 2
  else if pos < 1806 then (pos - 1550) % 2 == 0
  else (1806 ≤ pos && pos < 1854 && pos % 2 == 0) || pos == 1855

/-- CE: corrected errors of a die (R387). -/
def cePos : Nat := 1854

/-- A counter of a die as it stands. -/
def State.counter (s : State) (die pos : Nat) : Nat :=
  if pos < 1400 ∧ !s.clusterOn die (pos / 28) then 0
  else if freePosition pos then
    ((List.range (s.telemetry.tick + 1)).map fun t => Config.eventCount s.telemetry.epoch (1856 * die + pos) t).sum % 2 ^ 64
  else if 1806 ≤ pos ∧ pos < cePos then s.annexLevel die ((pos - 1806) / 2)
  else (alGet s.telemetry.counters (die * 1856 + pos)).getD 0

/-- The first position of a counter's unit; slices and the die's own counters belong to no single unit. -/
def unitPos (pos : Nat) : Nat :=
  if pos < 1400 then pos / 7 * 7
  else if pos < 1550 then 1400 + (pos - 1400) / 3 * 3
  else if pos < 1806 then 1550 + (pos - 1550) / 2 * 2
  else 1806

/-- Units that serve confidential contexts now, by resident blocks. -/
def State.servingNow (s : State) : State :=
  s.live.foldl (fun s b => match s.launch? b.launch with
    | some l => s.serveCore l.ctx b.die b.core
    | none => s) s

/-- A counter's unit served a confidential context of a list since the last tick. Slices and die counters do when any unit did. DEDUCED, log entry 81. -/
def State.hides (s : State) (die pos : Nat) (ctxs : List Nat) : Bool :=
  s.telemetry.served.any fun k => k.2 ∈ ctxs && (if 1806 ≤ pos then k.1 / 1856 == die else k.1 == die * 1856 + unitPos pos)

/-- What the plain record shows of a counter (R390). -/
def State.shownCount (s : State) (die pos : Nat) : Nat :=
  if s.hides die pos (s.telemetry.served.map (·.2)) then (alGet s.telemetry.shown (die * 1856 + pos)).getD 0 else s.counter die pos

/-- The record of a die. -/
def State.plainRecord (s : State) (die : Nat) : List Byte :=
  leBytes 8 s.telemetry.tick ++ leBytes 8 (s.wall die) ++ leBytes 1 die ++ leBytes 1 s.telemetry.k ++ leBytes 2 1856
    ++ leBytes 4 (s.telemetry.served.any fun k => k.1 / 1856 == die).toNat ++ leBytes 40 0
    ++ (List.range 1856).flatMap fun pos => leBytes 8 (s.shownCount die pos)

/-- The encrypted record of the increments of the units that served a confidential context. The spec gives it no place; log entry 16. -/
def State.sealedCounters (s : State) (c : Context) (die : Nat) : State :=
  if s.telemetry.served.all fun k => k.2 != c.num || k.1 / 1856 != die then s
  else
    let inc (pos : Nat) : Nat :=
      if s.hides die pos [c.num] then (s.counter die pos + 2 ^ 64 - (alGet s.telemetry.shown (die * 1856 + pos)).getD 0) % 2 ^ 64 else 0
    let bs := s.sealedFor c ((List.range 1856).flatMap fun pos => leBytes 8 (inc pos))
    State.modCtx { s with reports := s.reports ++ [.counters c.num die s.telemetry.tick bs] } c.num fun c => { c with sealedRecs := c.sealedRecs + 1 }

/-- Kind 4 of trace: the PC of each gang (R388): of its lowest thread that has not exited. -/
def State.samplePcs (s : State) : State :=
  s.gangs.foldl (fun s g => match s.launchOf g, s.blockOf g, g.threads.find? Thread.live with
    | some l, some b, some x => s.trace l 4 (engineWord b.die 0 b.core) (s.wall b.die) x.pc
    | _, _, _ => s) s

/-- R386: TELEMETRY_TICK: every counter latches, each die writes its record, and a new setting may take effect. -/
def execTelemetryTick (s : State) : Host.Outcome State Fault Refusal :=
  .next (if s.cycle < s.telemetry.due then s
    else
      let t := s.telemetry
      let s0 : State := match t.next with
        | some (k, base, size) =>
          if t.tick % 2 ^ (24 - t.k) = 0 then { s with telemetry := { t with k := k, base := base, size := size, next := none } } else s
        | none => s
      let s1 := s0.servingNow
      let write (s : State) (die : Nat) : State :=
        if s.telemetry.base = 0 then s
        else
          let slot := (s.telemetry.tick * 8 + die) % (s.telemetry.size / recordBytes)
          s.contexts.foldl (fun s c => if c.confidential then s.sealedCounters c die else s)
            (s.poke (s.telemetry.base + recordBytes * slot) (s1.plainRecord die))
      let s2 := (List.range 8).foldl write s1
      let shown := (List.range 8).flatMap fun die => (List.range 1856).filterMap fun pos =>
        let v := s1.shownCount die pos
        if v = 0 then none else some (die * 1856 + pos, v)
      let s3 := s2.samplePcs
      { s3 with telemetry := { s3.telemetry with tick := s3.telemetry.tick + 1, due := s3.cycle + 2 ^ s3.telemetry.k, shown := shown, served := [] } })

/-! ### Trace and stops (R388, R389) -/

def traceSpecs (req : Bool) : List FieldSpec :=
  [{ id := 2, lens := [4] }, { id := 3, lens := [2] }, { id := 4, lens := [8], req := req }, { id := 5, lens := [8], req := req },
   { id := 6, lens := [1], req := req, ok := fun b => leNat b < 32 }, { id := 7, lens := [1], req := !req }]

/-- R388: TRACE_CFG. -/
def execTraceCfg (p : Packet) (s : State) : Host.Outcome State Fault Refusal :=
  command ((traceSpecs true |>.map fun x => if x.id = 7 then { x with req := false } else x) ++ [noFlag 0x20, noFlag 0x21]) p s false
      (fun q => [nameCtx (q.nat 2), nameRegion (q.nat 2) (q.nat 3), nameRange (q.nat 4) (q.nat 5)]) fun q s =>
    withCtx s (q.nat 2) false fun c => match c.effective (q.nat 3) with
      | none => .reject stBADVALUE 0
      | some e =>
        if e.perm / 2 % 2 = 0 then .reject stDENIED 0
        else if !inMap (q.nat 4) (q.nat 5) then .reject stBADVALUE 0
        else .done { s with traces := (s.traces.filter fun t => t.ctx != c.num || t.region != q.nat 3) ++
            [⟨c.num, q.nat 3, q.nat 4, q.nat 5, q.nat 6, 0, 0, 0⟩] } 0

/-- A command on a queue of a context. DESIGN CHOICE, log entry 80. -/
def runQueue (q : Parsed) (s : State) (f : Queue → Queue) : CmdResult :=
  withCtx s (q.nat 2) false fun c =>
    if s.queues.any fun x => x.kick == q.nat 7 && x.ctx == c.num then
      .done { s with queues := s.queues.map fun x => if x.kick = q.nat 7 then f x else x } 0
    else .reject stBADVALUE 0

/-- R389: TRACE_CFG with STOP. -/
def execTraceStop (p : Packet) (s : State) : Host.Outcome State Fault Refusal :=
  command (traceSpecs false ++ [{ id := 0x20, lens := [0], mu := true }, noFlag 0x21]) p s false
    (fun q => [nameCtx (q.nat 2), nameQueue (q.nat 7)]) fun q s => runQueue q s fun x => if x.stopped then x else { x with stopped := true, told := false }

/-- R389: TRACE_CFG with RUN. -/
def execTraceRun (p : Packet) (s : State) : Host.Outcome State Fault Refusal :=
  command (traceSpecs false ++ [{ id := 0x21, lens := [0] }, noFlag 0x20]) p s false
    (fun q => [nameCtx (q.nat 2), nameQueue (q.nat 7)]) fun q s => runQueue q s fun x => { x with stopped := false, told := false }

/-- R389: QUEUE_STOPPED: the last launch that had begun has completed. -/
def execQueueStopped (kick : Nat) (s : State) : Host.Outcome State Fault Refusal :=
  .next (match s.queues.find? fun q => q.kick == kick with
    | none => s
    | some q =>
      if q.stopped && !q.told && s.launches.all fun l => l.kick != kick || l.state != .running then
        State.report { s with queues := s.queues.map fun x => if x.kick = kick then { x with told := true } else x } kick fun seq => .stopped kick seq
      else s)

/-! ### Keys (R391) -/

/-- R391: KEY_INSTALL. -/
def execKeyInstall (p : Packet) (s : State) : Host.Outcome State Fault Refusal :=
  command [{ id := 2, lens := [1], ok := fun b => leNat b ≤ 63 }, { id := 3, lens := [8] }] p s false (fun q => [(6, q.nat 2), nameRange (q.nat 3) 384]) fun q s =>
    if !inMap (q.nat 3) 384 then .reject stBADVALUE 0
    else match Config.unwrapKey (s.readPhys (q.nat 3) 384) with
    | none => .reject stDENIED 0
    | some k => .done { s with sup := { s.sup with keys := alSet s.sup.keys (q.nat 2) k } } 0

/-! ### Health (R394, R395, R332) -/

def unitCode : UnitId → Nat
  | .cluster d n => 3 * (64 * d + n)
  | .bank d v => 3 * (128 * d + v) + 1
  | .vaultRow d v r => 3 * (128 * d + v + 1024 * r) + 2

/-- A retired unit that a spare has replaced, or still can (R394): a cluster by the spare clusters of its die, a bank unit and a vault row by a
spare of their stack, of which the spec gives no number. DESIGN CHOICE, log entry 82. -/
def State.replaced (s : State) : UnitId → Bool
  | .cluster d _ => 48 ≤ s.nclu d || [UnitId.cluster d 48, .cluster d 49].any fun u => u ∉ s.sup.spares && u ∉ s.sup.retired
  | _ => true

/-- The health state by its conditions (R394). -/
def State.healthNow (s : State) : Health :=
  if !s.sup.silent.isEmpty then .failed
  else if s.sup.railFault ∨ !s.sup.lost.isEmpty ∨ (List.range 8).any fun d => s.nclu d < 40 then .critical
  else if s.sup.retired.any fun u => !s.replaced u then .serviceable
  else .healthy

/-- The health state follows its conditions; a change raises vector 1. -/
def State.updateHealth (s : State) : State :=
  let h := s.healthNow
  if h = s.sup.health then s else State.interrupt { s with sup := { s.sup with health := h } } 1

def healthCode : Health → Nat
  | .healthy => 0 | .serviceable => 1 | .critical => 2 | .failed => 3

/-- R394: HEALTH_QUERY's report: the state, a request for replacement when it is SERVICEABLE, the links, the enabled clusters, the retired units.
The spec gives no layout; log entry 16. -/
def State.healthReport (s : State) : List Byte :=
  leBytes 1 (healthCode s.sup.health) ++ leBytes 1 (s.sup.health == .serviceable).toNat ++ (s.links.map fun l => BitVec.ofNat 8 l.up.toNat)
    ++ ((List.range 8).flatMap fun d => (List.range 50).map fun n => BitVec.ofNat 8 (s.clusterOn d n).toNat)
    ++ s.sup.retired.flatMap fun u => leBytes 4 (unitCode u)

/-- Write a report into a command's buffer, or say how much room it takes. -/
def State.writeReport (s : State) (q : Parsed) (buf room : Nat) (bs : List Byte) (detail : Nat) : CmdResult :=
  if !inMap (q.nat buf) (q.nat room) then .reject stBADVALUE 0
  else if q.nat room < bs.length then .reject stNORESOURCE bs.length else .done (s.poke (q.nat buf) bs) detail

/-- R394: HEALTH_QUERY. -/
def execHealthQuery (p : Packet) (s : State) : Host.Outcome State Fault Refusal :=
  command [{ id := 2, lens := [8] }, { id := 3, lens := [4] }] p s true (fun q => [nameRange (q.nat 2) (q.nat 3)]) fun q s =>
    s.writeReport q 2 3 s.healthReport (healthCode s.sup.health)

/-- Resident blocks on a cluster. -/
def State.onCluster (s : State) (die n : Nat) : Bool := s.live.any fun b => b.die == die && b.core / 4 == n

/-- A condition of R395 holds for a unit, which makes it due; a change of the list leaves the unit in it once. -/
def State.makeDue (s : State) (u : UnitId) : State :=
  if u ∈ s.sup.due then s else { s with sup := { s.sup with due := s.sup.due ++ [u] } }

/-- The die of a unit. -/
def unitDie : UnitId → Nat
  | .cluster d _ | .bank d _ | .vaultRow d _ _ => d

/-- A corrected error of a unit (R382, R387, R395): it is counted, and more than 1,000 in 2^30 cycles make the unit due. -/
def State.correctError (s : State) (u : UnitId) : State :=
  let recent := (s.sup.corrected.filter fun x => decide (s.cycle < x.2 + 2 ^ 30)) ++ [(u, s.cycle)]
  let at_ := 1856 * unitDie u + cePos
  let s1 : State := { s with sup := { s.sup with corrected := recent },
                             telemetry := { s.telemetry with counters := alSet s.telemetry.counters at_ (((alGet s.telemetry.counters at_).getD 0 + 1) % 2 ^ 64) } }
  if 1000 < (recent.filter fun x => x.1 == u).length then s1.makeDue u else s1

/-- R395: UNIT_RETIRE, of a unit that is due: a cluster retires once its blocks have ended; a bank unit at once; a vault row is remapped to a spare
row. -/
def execUnitRetire (u : UnitId) (s : State) : Host.Outcome State Fault Refusal :=
  .next (if u ∈ s.sup.retired ∨ (u ∉ s.sup.due ∧ u ∉ s.sup.retiring) then s
    else
      let wait := match u with | .cluster d n => s.onCluster d n | _ => false
      if wait then { s with sup := { s.sup with retiring := s.sup.retiring.filter (· ≠ u) ++ [u] } }
      else
        let spare := match u with | .vaultRow .. => [u] | _ => []
        State.updateHealth { s with sup := { s.sup with retired := s.sup.retired ++ [u], retiring := s.sup.retiring.filter (· ≠ u),
                                                          spares := s.sup.spares ++ spare } })

/-- R332: SPARE_APPLIED: the spare unit of the stack serves a retired bank unit's stripes. -/
def execSpareApplied (die vault : Nat) (s : State) : Host.Outcome State Fault Refusal :=
  .next (if UnitId.bank die vault ∈ s.sup.retired ∧ UnitId.bank die vault ∉ s.sup.spares then
      State.updateHealth { s with sup := { s.sup with spares := s.sup.spares ++ [.bank die vault] } }
    else s)

/-- R394: DIE_NO_LONGER_ANSWERS: the module has failed, and every context is removed. -/
def execDieNoLongerAnswers (die : Nat) (s : State) : Host.Outcome State Fault Refusal :=
  .next (if die ∈ s.sup.silent then s
    else
      let s1 := State.updateHealth { s with sup := { s.sup with silent := s.sup.silent ++ [die] } }
      s1.contexts.foldl (fun s c => (s.restrict c.num).beginRemoval c.num none none) s1)

/-- R394: COOLANT_OR_RAIL_FAULT: the power cap is held at its floor. -/
def execCoolantOrRailFault (s : State) : Host.Outcome State Fault Refusal :=
  .next (State.updateHealth { s with sup := { s.sup with railFault := true } })

/-! ### Attestation and boot (R392, R393) -/

/-- A SHA-256 digest: 32 bytes. -/
def digest (bs : List Byte) : List Byte := fit 32 (Config.sha256 bs)

/-- R393: the report, its signature of 384 bytes, and the certificate chain, of at most 64 KiB. The spec gives no layout; log entry 16. -/
def State.attestReport (s : State) (nonce : List Byte) (ctx : Option Nat) : List Byte :=
  let image (h : Nat) (c : CodeObj) : List Byte := match s.ctx? h with
    | some x => s.bytesAt x c.va c.size
    | none => []
  let codes := match ctx with
    | some n => (s.codes.filter fun c => c.ctx == n).flatMap fun c => digest (image n c)
    | none => []
  let body := nonce ++ digest Config.rom ++ leBytes 8 (s.sup.installed.getD 0) ++ digest s.sup.image
    ++ digest (Config.configRecord (s.sup.retired.map unitCode)) ++ leBytes 1 (healthCode s.sup.health) ++ codes
  body ++ fit 384 (Config.signature body) ++ Config.certChain.take 65536

/-- R393: ATTEST. -/
def execAttest (p : Packet) (s : State) : Host.Outcome State Fault Refusal :=
  command [{ id := 2, lens := [32] }, { id := 3, lens := [8] }, { id := 4, lens := [4] }, { id := 5, lens := [4], req := false }] p s true
    (fun q => nameRange (q.nat 3) (q.nat 4) :: if q.has 5 then [nameCtx (q.nat 5)] else [])
    (trim := fun q => if (s.ctx? (q.nat 5)).isNone then [5] else []) fun q s =>
    if q.has 5 ∧ (s.ctx? (q.nat 5)).isNone then .reject stBADVALUE 0
    else
      let bs := s.attestReport (q.get 2) (if q.has 5 then some (q.nat 5) else none)
      s.writeReport q 3 4 bs bs.length

/-- R392: PACKAGE_WRITE: a package is written to flash; it takes effect at the next reset. -/
def execPackageWrite (revision : Nat) (image : List Byte) (s : State) : Host.Outcome State Fault Refusal :=
  .next { s with sup := { s.sup with flash := some (revision, image) } }

/-- Spare clusters of a die that the boot applies: as many as it has retired clusters, at most two (R392, R394). -/
def spareClusters (retired : List UnitId) (d : Nat) : List UnitId :=
  let n := (retired.filter fun u => match u with | .cluster e k => e == d && k < 48 | _ => false).length
  [UnitId.cluster d 48, .cluster d 49].take n

/-- The units of the module that can fail a boot test: its clusters and bank units. -/
def allUnits : List UnitId :=
  (List.range 8).flatMap fun d => ((List.range 50).map fun n => UnitId.cluster d n) ++ (List.range 128).map fun v => UnitId.bank d v

/-- R392: BOOT: the module after reset, with what flash and fuses keep: retired units and their spares, the package, the rollback counter. A
configuration record or a package whose signature does not hold is not taken; a unit that fails its test is due for retirement (R395). DESIGN
CHOICE, log entry 107. -/
def execBoot (s : State) : Host.Outcome State Fault Refusal :=
  let r := if Config.vendorSigned (Config.configRecord (s.sup.retired.map unitCode)) then s.sup.retired else []
  let banks := r.filter fun u => match u with | .cluster .. => false | _ => true
  let pkg := s.sup.flash.filter fun f => Config.vendorSigned f.2 && s.sup.rollback ≤ f.1
  let ok := pkg.map (·.1)
  let sup0 := State.reset.sup
  let s1 : State := { State.reset with
    free := s.free + 1
    telemetry := { Telemetry.reset with epoch := s.free + 1 }
    sup := { sup0 with retired := r, spares := banks ++ (List.range 8).flatMap (spareClusters r), flash := s.sup.flash, installed := ok,
                       image := (pkg.map (·.2)).getD [], lost := s.sup.lost, rollback := ok.getD s.sup.rollback,
                       due := allUnits.filter fun u => Config.bootFails s.free (unitCode u) } }
  .next (State.interrupt { s1 with sup := { s1.sup with health := s1.healthNow } } 1)

/-! ### Power cap (R396) -/

/-- R396: POWER_LIMIT_SET: from 2,000 W to 8,000 W. -/
def execPowerLimitSet (watts : Nat) (s : State) : Host.Outcome State Fault Refusal :=
  .next (if 2000 ≤ watts ∧ watts ≤ 8000 then { s with sup := { s.sup with limit := watts } } else s)

/-- The limit in force: a coolant or rail fault holds it at its floor (R394). DESIGN CHOICE, log entry 82. -/
def State.powerLimit (s : State) : Nat := if s.sup.railFault then 2000 else s.sup.limit

/-- R396: POWER_CAP_MEASURE: module power is measured; while it exceeds the limit the cap delays issue and grants. -/
def execPowerCapMeasure (watts : Nat) (s : State) : Host.Outcome State Fault Refusal :=
  .next { s with sup := { s.sup with watts := watts, capped := decide (s.powerLimit < watts) } }

/-! ### Scrubbing (R383) -/

/-- R383, R317: SCRUB: a line of DRAM is scrubbed; poison in it leaves a record of class 0x02 at its home, of a KEEP page for each cell. -/
def execScrub (addr : Nat) (s : State) : Host.Outcome State Fault Refusal :=
  let line := addr / 64 * 64
  .next (if (s.keeperOf line).isSome then (s.markAs { cls := 2 } line).markAs { cls := 2 } (line + 32)
    else if inDram line 64 && rbBad (s.lastBytes line 64) then
      s.faultRecord { cls := 2, engine := engineWord (dieOf line) 5 (Config.lineSlice (line / 64) % Config.slicesPerDie), wall := s.wall (dieOf line),
                      addr := line }
    else s)

/-! ### Uncorrectable errors (R382, R394) -/

/-- Bytes are poisoned where they stand, as the last write left them. -/
def State.spoilBytes (s : State) (loc n : Nat) : State := (s.append loc (rbVals (s.lastBytes loc n)) true [.system] none (s.keyHere loc)).1

/-- Is there a bead, or a k register, of this number in a thread (R72, R88)? -/
def Gang.hasBead (g : Gang) (thr reg : Nat) : Bool :=
  (g.thread? thr).isSome && (if reg < 256 then (match alGet g.rods reg with | some (.value _) => true | _ => false) else reg < 264)

/-- A staged write of a line of the counting board. -/
def Staged.spoil (w : Staged) (line : Nat) : Staged :=
  match w with
  | .bytes id cls p loc d bad => .bytes id cls p loc d (bad || overlap (loc, d.length) (line, 64))
  | .keep id p slot gen val actor mop bad => .keep id p slot gen val actor mop (bad || overlap (slot, 32) (line, 64))

/-- An uncorrectable error poisons a sibling of a cell: its home marks the cell, and a record names it (R317). -/
def State.spoilCell (s : State) (slot idx : Nat) : State :=
  let k := s.cell slot
  if (s.keeperOf slot).isNone ∨ k.sibs.length ≤ idx then s
  else ({ s with cells := putCell s.cells { k with sibs := modNth k.sibs idx fun x => { x with poison := true } } }).markAs { cls := 2 } slot

/-- The unit in which an uncorrectable error strikes (R395), of register stores, scratchpads, accumulators and tag tables the cluster, of DRAM the
vault row. -/
def State.unitOf (s : State) (u : Upset) : Option UnitId :=
  let ofBlock (bid : Nat) : Option UnitId := (s.block? bid).map fun b => .cluster b.die (b.core / 4)
  let ofLine (a : Nat) : Option UnitId := some (.vaultRow (dieOf a) (Config.lineRow (a / 64)).1 (Config.lineRow (a / 64)).2)
  match u with
  | .bead gid _ _ => (s.gang? gid).bind fun g => ofBlock g.bid
  | .scratch bid _ | .tag bid _ | .tile bid _ _ | .plane bid _ _ _ | .board bid _ => ofBlock bid
  | .line a => ofLine a
  | .sibling slot _ | .cellMeta slot => ofLine slot
  | .vault .. => none

/-- An uncorrectable error that repeats at one cell makes its unit due (R395). -/
def State.strike (s : State) (u : Upset) : State :=
  if u ∈ s.sup.struck then (match s.unitOf u with
    | some x => s.makeDue x
    | none => s)
  else { s with sup := { s.sup with struck := s.sup.struck ++ [u] } }

/-- An uncorrectable error strikes (R382): a bead, a word of scratchpad, a column, a line or an entry is poisoned where it stands; a tile's
row has UE; a tag entry becomes empty, with a record. A lost vault makes the module CRITICAL (R394). -/
def State.spoilAt (s : State) : Upset → State
  | .bead gid thr reg => s.modGang gid fun g =>
      if g.hasBead thr reg then { g with poison := imagePoison reg thr :: g.poison.filter fun p => !(p.reg == reg && p.thr == thr) } else g
  | .scratch bid off => match s.block? bid with
    | some b => if off < b.ssize then s.spoilBytes (scratchLoc bid (off / 8 * 8)) 8 else s
    | none => s
  | .tag bid entry => match s.block? bid, (s.block? bid).bind fun b => s.launch? b.launch with
    | some b, some l =>
      if entry < b.tags.length then
        (s.modBlock bid fun b => { b with tags := setAt b.tags entry 0xFFFFFFFFFFFFFFFF }).faultRecord
          { cls := 2, engine := engineWord b.die 0 b.core, ctx := l.ctx, region := l.region,
            fdom := (((s.ctx? l.ctx).bind fun c => c.effective l.region).map (·.fdom)).getD 0, wall := s.wall b.die, launch := l.seq,
            conf := ((s.ctx? l.ctx).map (·.confidential)).getD false }
      else s
    | _, _ => s
  | .tile bid tile row => s.modBlock bid fun b => { b with tiles := modNth b.tiles tile fun t => if row < 32 then t.setFlag row (t.flag row ||| flUE) else t }
  | .plane bid pair shadow col => s.modBlock bid fun b => { b with pairs := modNth b.pairs pair fun p =>
      let spoil (q : Plane) : Plane := if col < 128 ∧ col ∉ q.poison then { q with poison := col :: q.poison } else q
      if shadow then ⟨p.active, spoil p.shadow⟩ else ⟨spoil p.active, p.shadow⟩ }
  | .line addr =>
    let a := addr / 64 * 64
    if !inDram a 64 then s
    else if (s.keeperOf a).isSome then (s.spoilCell a 0).spoilCell (a + 32) 0
    else s.spoilBytes a 64
  | .sibling slot idx => s.spoilCell (slot / 32 * 32) idx
  | .cellMeta addr =>
    let slot := addr / 32 * 32
    if (s.keeperOf slot).isNone then s
    else ({ s with cells := putCell s.cells { s.cell slot with unreadable := true } }).faultRecord
      { cls := 2, engine := homeWord slot, wall := s.wall (dieOf slot), addr := slot }
  | .board bid addr => s.modBlock bid fun b => { b with staged := b.staged.map fun w => w.spoil (addr / 64 * 64) }
  | .vault die vault => if die < 8 ∧ vault < 128 then
      State.updateHealth { s with sup := { s.sup with lost := s.sup.lost.filter (· ≠ (die, vault)) ++ [(die, vault)] } }
    else s

def State.upset (s : State) (u : Upset) : State := (s.strike u).spoilAt u

end Sys2Proof.Machine
end

