-- ==== Sys2Proof/Machine/Outside.lean ====
section
/-! DEFINITION. The host, the peers and the time source (spec/21): BAR0 (R361, R379), host accesses to device memory (R360, R363),
O-links and peer accesses (R364 to R366), and the discipline of %wall (R367, R368). -/

namespace Sys2Proof.Machine
open Host

/-! ### BAR0 (R361, R379) -/

/-- A naturally aligned access of 32 or 64 bits. -/
def barAligned (off size : Nat) : Bool := (size == 4 || size == 8) && off % size == 0 && off + size ≤ 0x20000

/-- A register after a write of `size` bytes at byte `at_` of it. -/
def putPart (old : Word) (at_ size val : Nat) : Word :=
  BitVec.ofNat 64 (leNat ((leBytes 8 old.toNat).take at_ ++ leBytes size val ++ (leBytes 8 old.toNat).drop (at_ + size)))

/-- The administrative queue has packets that the firmware has not taken. -/
def Bar0.busy (b : Bar0) : Bool := b.aqTail != b.aqHead

/-- A write to the register at an offset; the bases and sizes of the administrative rings are fixed while packets wait. DEDUCED, log entry 78. -/
def Bar0.write (b : Bar0) (off size val : Nat) : Bar0 :=
  let put (old : Word) : Word := putPart old (off % 8) size val
  match off / 8 with
  | 0 => if b.busy then b else { b with aqBase := put b.aqBase }
  | 1 => if b.busy then b else { b with aqSize := put b.aqSize }
  | 2 => { b with aqTail := put b.aqTail }
  | 3 => if b.busy then b else { b with cqBase := put b.cqBase }
  | 4 => if b.busy then b else { b with cqSize := put b.cqSize }
  | 5 => { b with cqHead := put b.cqHead }
  | 6 => { b with frBase := put b.frBase }
  | 7 => { b with frSize := put b.frSize }
  | 8 => { b with frHead := put b.frHead }
  | _ => b

/-- R361: REGISTER_WRITE: a host write to BAR0. Kick registers have their own event. -/
def execRegisterWrite (off size : Nat) (val : Word) (s : State) : Host.Outcome State Fault Refusal :=
  .next (if !barAligned off size then s
    else if off < 0x50 then { s with bar := s.bar.write off size val.toNat }
    else if 0x18000 ≤ off then { s with msixTable := memPut s.msixTable off (leBytes size val.toNat) }
    else s)

/-- A register of BAR0 as the host reads it; none where it cannot be read. -/
def Bar0.read (b : Bar0) (i : Nat) : Option Word :=
  match i with
  | 0 => some b.aqBase
  | 1 => some b.aqSize
  | 3 => some b.cqBase
  | 4 => some b.cqSize
  | 5 => some b.cqHead
  | 6 => some b.frBase
  | 7 => some b.frSize
  | 8 => some b.frHead
  | 9 => some b.frTail
  | _ => none

/-- The host reads BAR0 (R361, R379): its readable registers, the MSI-X table and the PBA, as they stand; what is only written, or is no register, is
unpredictable; an access that is no naturally aligned one of 32 or 64 bits reads all ones. DESIGN CHOICE, log entry 78. -/
def State.barRead (s : State) (off size : Nat) : State :=
  let word (w : Word) : List Byte := ((leBytes 8 w.toNat).drop (off % 8)).take size
  { s with free := s.free + 1, hostData :=
      if !barAligned off size then List.replicate size 255
      else if 0x18000 ≤ off then memBytes s.msixTable off size
      else word ((s.bar.read (off / 8)).getD (Config.freeWord s.free)) }

/-! ### Host accesses (R360, R363) -/

/-- Memory that the host reaches: device DRAM, and its own memory, whose home it is (R296, R363, R264). -/
def hostReach (pa : Nat) : Bool := inDram pa 1 || inHost pa 1

/-- A byte as an agent at system scope reads it at its home: a KEEP slot gives its bytes (R154, R306), a hole reads all ones (R360); an
encrypted page shows ciphertext (R297). -/
def State.outsideByte (s : State) (pa : Nat) : Byte :=
  if !hostReach pa then 255
  else
    match s.keeperOf pa with
    | some c =>
      let slot := (s.cell (pa / 32 * 32)).slotBytes
      let key := s.keyAt (some c.num) pa
      if key.isNone then slot.getD (pa % 32) 0 else Config.xtsByte key none pa ((slot.drop (pa % 32 / 16 * 16)).take 16)
    | none => (s.seenByte none pa (s.byteFrom (s.latest hostUnits pa) pa)).val

def State.outsideRead (s : State) (pa n : Nat) : List Byte := (List.range n).map fun i => s.outsideByte (pa + i)

/-- R363, R264: HOST_READ of device memory or of host memory. -/
def execHostRead (addr n : Nat) (s : State) : Host.Outcome State Fault Refusal := .next { s with hostData := s.outsideRead addr n }

/-- The record of a host store to a KEEP page that was discarded. -/
def State.hostRecord (s : State) (c : Context) (slot : Nat) : State :=
  s.faultRecord { cls := 5, engine := homeWord slot, ctx := c.num,
                  wall := s.wall (dieOf slot), addr := slot, conf := c.confidential }

/-- The MERGE op of a context's KEEP page over a slot; the host names no page of it (R363). -/
def Context.mergeOf (c : Context) (slot : Nat) : RcnOp :=
  ((c.pages.find? fun p => p.keep && p.pa ≤ slot && slot < p.pa + p.size).map (·.merge)).getD .add

/-- A blind store of the host (R155, R363): actor 0, charged to the root region; one refused for capacity is folded in, one refused for
GEN is discarded. -/
def State.hostStore (s : State) (c : Context) (slot : Nat) (val : Word) : State :=
  let k := s.cell slot
  match refusal s.cells k 0 (c.quotaFull s.cells 0) true with
  | none => s.changeCell none (k.accept 0 val 0 (some (c.num, 0)))
  | some r =>
    if r = subGEN then s.hostRecord c slot
    else s.changeCell none (k.merge 0 val 0 (some (c.num, 0)) (c.mergeOf slot))

/-- Bytes of one write that fall into one slot: bytes 0 to 7 are a store, the others are discarded with a record. -/
def State.slotWrite (s : State) (c : Context) (slot : Nat) (bytes : List (Nat × Byte)) : State :=
  let value := (bytes.filter fun b => b.1 < slot + 8).map fun b => (b.1 - slot, b.2)
  let old := leBytes 8 (s.cell slot).head.val.toNat
  let new := (List.range 8).map fun i => (alGet value i).getD (old.getD i 0)
  let s1 := if value.isEmpty then s else s.hostStore c slot (BitVec.ofNat 64 (leNat new))
  if bytes.any fun b => slot + 8 ≤ b.1 then s1.hostRecord c slot else s1

/-- A write of an agent at system scope: bytes in holes are discarded, bytes of KEEP pages are slot writes, the others are one write. DEDUCED, log entry 84. DESIGN CHOICE, log entry 86. -/
def State.outsideWrite (s : State) (pa : Nat) (data : List Byte) : State :=
  let bs := ((List.range data.length).map (pa + ·)).zip data
  let slots := ((bs.filter fun b => hostReach b.1 && (s.keeperOf b.1).isSome).map fun b => b.1 / 32 * 32).dedup
  let s1 := slots.foldl (fun s slot => match s.keeperOf slot with
    | some c => s.slotWrite c slot (bs.filter fun b => b.1 / 32 * 32 == slot)
    | none => s) s
  let plain := bs.filter fun b => hostReach b.1 && b.1 / 32 * 32 ∉ slots
  if plain.length = bs.length then (if data.isEmpty then s1 else (s1.poke pa data).soil s1.nextId pa data.length)
  else plain.foldl (fun s b => (s.poke b.1 [b.2]).soil s.nextId b.1 1) s1

/-- R363, R264: HOST_WRITE to device memory or to host memory. -/
def execHostWrite (addr : Nat) (data : List Byte) (s : State) : Host.Outcome State Fault Refusal := .next (s.outsideWrite addr data)

/-! ### O-links and peers (R364, R365, R366) -/

def State.modLink (s : State) (i : Nat) (f : Link → Link) : State := { s with links := modNth s.links i f }

/-- A staged write over a link. -/
def Staged.overLink (w : Staged) (link : Nat) : Bool :=
  match w with
  | .bytes _ _ _ loc .. => linkOf loc == some link
  | .keep .. => false

/-- A link has gone down: what deterministic blocks have staged for its far end is lost, with a record for each line (R366). -/
def State.loseStaged (s : State) (link : Nat) : State :=
  s.blocks.foldl (fun s b => match s.launch? b.launch, (s.launch? b.launch).bind fun l => s.ctx? l.ctx with
    | some l, some c =>
      let r := launchRecord c l ((c.effective l.region).getD l.rcb).fdom (s.wall b.die)
      let s1 := (b.staged.filter (·.overLink link)).foldl (fun s w => s.lostLines r w.range.1 w.range.2) s
      s1.modBlock b.bid fun b => { b with staged := b.staged.filter fun w => !w.overLink link }
    | _, _ => s) s

/-- R364, R366: FLIT_RECEIVE: a flit that fails its check is sent again; the eighth failure in a row takes the link down. -/
def execFlitReceive (link : Nat) (crcOk : Bool) (s : State) : Host.Outcome State Fault Refusal :=
  .next (match s.links[link]? with
    | none => s
    | some l =>
      if !l.up then s
      else if crcOk then s.modLink link fun l => { l with fails := 0 }
      else if l.fails < 7 then s.modLink link fun l => { l with fails := l.fails + 1 }
      else
        let s1 := s.modLink link fun _ => ⟨false, 0⟩
        State.loseStaged { s1 with sup := { s1.sup with beacons := s1.sup.beacons.filter (· ≠ link) } } link)

/-- Does an operation have to go over a link? -/
def Op.overLink (o : Op) (link : Nat) : Bool :=
  let hit (loc : Nat) : Bool := linkOf loc == some link
  match o.kind with
  | .copy _ _ rows => rows.any fun r => !r.landDone && (hit r.dst || r.src.any fun g => hit g.loc)
  | k => (k.range.any fun r => hit r.1)

/-- R364, R366: LINK_RETRAIN: a link that is down comes up again, once what it has lost is over: nothing is replayed. -/
def execLinkRetrain (link : Nat) (s : State) : Host.Outcome State Fault Refusal :=
  .next (if s.ops.any fun o => o.overLink link then s else s.modLink link fun l => if l.up then l else ⟨true, 0⟩)

/-- Does a MAP with PEER of this module name an address for a link (R365)? -/
def State.consents (s : State) (link addr : Nat) : Bool :=
  s.contexts.any fun c => c.pages.any fun p => p.link == some link && peerLoc link addr ≥ p.pa && peerLoc link addr < p.pa + p.size

/-- Bytes of a peer's access. -/
def peerBytes : PeerOp → Nat
  | .load n => n
  | .store d => d.length
  | .atomic _ _ ty _ | .cas ty _ _ => ty.width / 8

/-- An atomic of a peer at its home (R164, R365): aligned, on memory that is not KEEP; what it reads goes back, but for RED. Log entry 84. -/
def State.peerAtomic (s : State) (addr : Nat) (ty : Ty) (ret : Bool) (f : Nat → Nat × List (Nat × Nat)) (keeps : Bool) : State :=
  let n := ty.width / 8
  if addr % n ≠ 0 ∨ (s.keeperOf addr).isSome then { s with hostData := [] }
  else
    let bs := s.seenBy none addr (s.lastBytes addr n)
    let new := (f (rbNat bs)).1
    let (s1, wid) := s.append addr (leBytes n new) (rbBad bs && keeps) [.system]
    { (s1.spoil s addr n).soil wid addr n with hostData := if ret then leBytes n (rbNat bs) else [] }

/-- R365: PEER_ACCESS: an access from the far end of a link, performed at its home at system scope; without consent it is refused, and
answers nothing. -/
def execPeerAccess (link addr : Nat) (op : PeerOp) (s : State) : Host.Outcome State Fault Refusal :=
  .next (if !((s.links[link]?).map (·.up)).getD false || !inDram addr (peerBytes op) || !(List.range (peerBytes op)).all fun i => s.consents link (addr + i) then
      { s with hostData := [] }
    else match op with
      | .load n => { s with hostData := s.outsideRead addr n }
      | .store d => s.outsideWrite addr d
      | .atomic ret aop ty v => s.peerAtomic addr ty ret (fun old => aggregate aop ty old [(0, v)]) (aop != .exch)
      | .cas ty cmp swap => s.peerAtomic addr ty true (fun old => casSteps ty old [(0, cmp, swap)]) true)

/-! ### Time (R16, R367, R368) -/

/-- The correction of %wall that slewing has to make from now on (R367). -/
def State.slewTo (s : State) (offset : Int) : State := { s with sup := { s.sup with slewLeft := offset } }

/-- R367: PTP_MESSAGE: the time transmitter is `offset` ns ahead. The first lock may step %wall forward; later corrections slew. DEDUCED, log
entry 83. -/
def execPtpMessage (offset : Int) (s : State) : Host.Outcome State Fault Refusal :=
  let s1 : State := { s with sup := { s.sup with locked := true, everLocked := true } }
  .next (if !s.sup.everLocked ∧ 0 < offset then State.slewTo { s1 with wallAdj := s.wallAdj.map (· + offset), wallLast := s.walls } 0
    else s1.slewTo offset)

/-- A module without a lock follows the beacons of the lowest-numbered link that brings some from a locked time base (R368). -/
def State.follows (s : State) (link : Nat) : Bool := !s.sup.locked && s.sup.beacons.all fun l => decide (link ≤ l)

/-- R368: TIME_BEACON: a beacon, with its %wall, of a peer whose time base is locked. -/
def execTimeBeacon (link wall : Nat) (s : State) : Host.Outcome State Fault Refusal :=
  .next (if !((s.links[link]?).map (·.up)).getD false then s
    else
      let s1 : State := { s with sup := { s.sup with beacons := s.sup.beacons.filter (· ≠ link) ++ [link] } }
      if s1.follows link then s1.slewTo ((wall : Int) - (s.wall (link / 2) : Int)) else s1)

/-- A peer sends no beacons from a locked time base any more (R368). -/
def State.loseBeacon (s : State) (link : Nat) : State := { s with sup := { s.sup with beacons := s.sup.beacons.filter (· ≠ link) } }

/-- The module sends a beacon on every link that is up (R368). -/
def State.sendBeacons (s : State) : State :=
  { s with sup := { s.sup with sent := ((List.range s.links.length).filter fun i => (s.links[i]?).any (·.up)).map fun i => (i, s.wall (i / 2)) } }

/-- R368: LOSS_OF_LOCK. -/
def execLossOfLock (s : State) : Host.Outcome State Fault Refusal := .next { s with sup := { s.sup with locked := false } }

end Sys2Proof.Machine
end

