-- ==== Sys2Proof/Machine/Recipe.lean ====
section
/-! DEFINITION. Recipes: RCP, REND, RMAT, RDROP, RSTAT (R187 to R190, R216 to R221), early regeneration (R229) and the register
store controller's drops (R220). -/

namespace Sys2Proof.Machine
open Host

/-! ### RCP (R188) -/

/-- The first instruction of a slice that breaks its form: not allowed in slices, or reading what is neither an input nor written
before it (R188, R189). -/
def sliceBreach : List (Nat × Instr) → List Reg → Option Nat
  | [], _ => none
  | (pc, i) :: is, known => if !sliceLegal i || (readsOf i).any (· ∉ known) then some pc else sliceBreach is (known ++ destsOf i)

/-- Is D eligible, and which register does it write (R188)? A k register is no general register, as destination or input (R88). DEDUCED,
log entry 50. -/
def eligibleDest (s : State) (e : Env) (parts : List Nat) (inputs : List Reg) : Option Reg :=
  match fetch s e.c (e.place (parts.headD 0)).units e.g.gid s.cur.next with
  | .ok f => match f.instr with
    | some i => match destsOf i with
      | [d] =>
        if d ∉ inputs ∧ !e.g.kReg d ∧ !inputs.any e.g.kReg ∧ s.cur.mask.any fun t => ((e.g.thread? t).map fun x => x.guard (guardOf i)).getD false then some d else none
      | _ => none
    | none => none
  | .error _ => none

/-- Recipe inputs that RCP materialises first: RECIPE rods that have a RECIPE input themselves (R188). -/
def Gang.deepInputs (g : Gang) (inputs : List Reg) : List Nat :=
  (inputs.map (·.toNat)).filter fun r => g.isRecipe r && ((g.desc? r).map fun d => d.inputs.any fun q => g.isRecipe q.toNat).getD false

/-- Rods have been materialised, and REGEN counts them; or the instruction traps REGEN, or waits (R74, R218, R223). -/
def Prep.materialised (p : Prep) (i : Instr) (rods : List Nat) (k : State → State) : State :=
  match materialiseWhen p.s p.e rods with
  | .ok s1 => k (s1.regens (p.e.g.regenSet rods))
  | .fault fs => p.s0.trapQueue i cREGEN ((fs.head?.map fun f => bits f.tslice.toNat 59 56).getD 0) fs p.parts p.ops
  | m => p.s0.awaitMat m

/-- R188: RCP checks the slice and marks the next instruction as a definition. A slice instruction that cannot be fetched is a breach.
Where a slice that is legal otherwise never writes D's register, %taddr shows the slice's address. DESIGN CHOICE, log entry 114. -/
def execRcp (g : Guard) (n : BitVec 3) (i1 i2 i3 i4 : Reg) (slice : W32) (s : State) : Host.Outcome State Fault Refusal :=
  let i := Instr.rcp g n i1 i2 i3 i4 slice
  withPrep i s fun p =>
    if p.parts.isEmpty then p.s.complete i p.parts
    else
      let inputs := [i1, i2, i3, i4].take n.toNat
      let addr := (BitVec.ofNat 64 p.s.cur.pc + slice.signExtend 64).toNat
      match readSlice p.s p.e.c (p.e.place (p.parts.headD 0)).units p.e.g.gid 8 addr [] with
      | .bad _ pc _ => p.s0.trapAll cILLEGAL p.parts (BitVec.ofNat 64 pc)
      | .ok is =>
        let written := is.flatMap fun x => destsOf x.2
        let dest := eligibleDest p.s p.e p.parts inputs
        let breach := (sliceBreach is inputs).or (match dest with
          | some d => if d ∈ written then none else some addr
          | none => none)
        match breach with
        | some pc => p.s0.trapAll cILLEGAL p.parts (BitVec.ofNat 64 pc)
        | none =>
          if p.e.g.descs.length ≥ Config.recipeDescs ∨ dest.isNone then p.s.complete i p.parts
          else p.materialised i (p.e.g.deepInputs inputs) fun s1 =>
            let pend : PendRcp := ⟨p.s.cur.next, addr, inputs, p.s.cur.mask, written, is.any fun x => usesDyn x.2,
              is.any fun x => usesThreshold x.2, p.e.g.trap.isSome⟩
            (s1.complete i p.parts).modGang p.e.g.gid fun g => { g with pendRcp := pend :: g.pendRcp }

/-- R190: REND outside a regeneration traps ILLEGAL. -/
def execRend (g : Guard) (s : State) : Host.Outcome State Fault Refusal :=
  let i := Instr.rend g
  withPrep i s fun p => (p.failAll i cILLEGAL).getD (p.s.complete i p.parts)

/-! ### RMAT, RDROP, RSTAT (R190) -/

/-- Materialise rods, then go on; the instruction acts once for the gang if any guard is true. In trap mode the fields 248 to 255 name k
registers, which are no rods: nothing happens (R88, log entry 99). -/
def rodOp (i : Instr) (s : State) (rod : Reg) (rods : Gang → List Nat) (k : Gang → Gang) : Host.Outcome State Fault Refusal :=
  withPrep i s fun p =>
    if p.parts.isEmpty || p.e.g.kReg rod then p.s.complete i p.parts
    else p.materialised i (rods p.e.g) fun s1 => State.complete (s1.modGang p.e.g.gid k) i p.parts

/-- R190: RMAT makes a RECIPE rod VALUE; it stays eligible (R217). -/
def execRmat (g : Guard) (rod : Reg) (s : State) : Host.Outcome State Fault Refusal :=
  rodOp (.rmat g rod) s rod (fun g => if g.isRecipe rod.toNat then [rod.toNat] else []) id

/-- Would a rod's drop make a chain of three RECIPE rods (R219)? -/
def Gang.dropDeep (g : Gang) (rod : Nat) : Bool :=
  let isR (r : Nat) : Bool := r == rod || g.isRecipe r
  let ins (r : Nat) : List Nat := ((g.desc? r).map fun d => (d.inputs.map (·.toNat)).filter isR).getD []
  (List.range 256).any fun x => isR x && (ins x).any fun y => !(ins y).isEmpty

/-- A write to a rod is outstanding (R220). -/
def State.writePending (s : State) (g : Gang) (rod : Nat) : Bool := g.threads.any fun x => s.loadPending g.gid x.thr rod

/-- A recipe-eligible VALUE rod that may be dropped (R219, R220, R221). -/
def State.mayDrop (s : State) (g : Gang) (rod : Nat) : Bool :=
  !g.isRecipe rod && (g.desc? rod).isSome && !s.writePending g rod && !g.dropDeep rod

def Gang.dropRod (g : Gang) (rod : Nat) : Gang :=
  { g with rods := alSet g.rods rod .recipe, poison := g.poison.filter fun p => p.reg != rod }

/-- R190, R221: RDROP turns an eligible VALUE rod into RECIPE, and declines otherwise. -/
def execRdrop (g : Guard) (rod : Reg) (s : State) : Host.Outcome State Fault Refusal :=
  rodOp (.rdrop g rod) s rod (fun _ => []) fun g => if s.mayDrop g rod.toNat then g.dropRod rod.toNat else g

/-- R190: RDROP.kill materialises the recipes that pin the rod, then makes it VOID and frees its descriptor. -/
def execRdropKill (g : Guard) (rod : Reg) (s : State) : Host.Outcome State Fault Refusal :=
  rodOp (.rdropKill g rod) s rod
    (fun g => ((g.descs.filter fun d => g.isRecipe d.rod && d.rod != rod.toNat && d.inputs.any fun r => r == rod).map (·.rod)).dedup)
    fun g => { g.freeDescs [rod.toNat] with rods := alDel g.rods rod.toNat, poison := g.poison.filter fun p => p.reg != rod.toNat }

/-- RSTAT's word (R190): a rod is eligible until a write ends it, a RECIPE rod too (R188). -/
def Gang.rstat (g : Gang) (rod : Nat) : Word :=
  let d := g.desc? rod
  let st := match alGet g.rods rod with | some (.value _) => 1 | some .recipe => 2 | none => 0
  let elig := st != 0 && d.isSome
  let pin := g.descs.any fun x => x.inputs.any fun r => r.toNat == rod
  BitVec.ofNat 64 (st + 4 * elig.toNat + 8 * pin.toNat + 2 ^ 8 * ((d.map (·.idx)).getD 0xFF)
    + 2 ^ 32 * ((d.map fun x => maskNat x.mask).getD 0))

/-- RSTAT of a field: a k register is no rod, and reads as VOID. Log entry 99. -/
def Gang.rstatOf (g : Gang) (rod : Reg) : Word := if g.kReg rod then BitVec.ofNat 64 (2 ^ 8 * 0xFF) else g.rstat rod.toNat

/-- R190: RSTAT. -/
def execRstat (g : Guard) (d rod : Reg) (s : State) : Host.Outcome State Fault Refusal :=
  let i := Instr.rstat g d rod
  withPrep i s fun p =>
    State.complete (p.s.modGang p.e.g.gid fun g =>
      p.parts.foldl (fun g t => g.writeReg d t (((s.gang? p.e.g.gid).getD p.e.g).rstatOf rod)) g) i p.parts

/-! ### Events (R220, R229) -/

/-- R229, R222: REGENERATION: a RECIPE rod's slice runs for a thread ahead of the instruction that will read it, over pages with
SPEC=1 only; a fault is held, and a slice that must wait, or whose gang has run past a WAIT, does not run (R262). -/
def execRegeneration (gid : Nat) (rod : Reg) (thr : Nat) (s : State) : Host.Outcome State Fault Refusal :=
  .next (match s.env? gid with
    | none => s
    | some e =>
      if !e.g.isRecipe rod.toNat || e.g.spec.isSome then s
      else match readBead s e true thr 4 rod.toNat with
        | .ok v wids =>
          let id := s.nextId
          (State.note { s with nextId := id + 1, free := s.free + 1 } gid thr id .ld wids).modGang gid fun g =>
            { g with early := (rod.toNat, thr, v) :: g.early.filter fun x => !(x.1 == rod.toNat && x.2.1 == thr) }
        | _ => s)

/-- The rods that the controller of a core may drop: gang, rod, cycle of last use (R220). -/
def State.dropCandidates (s : State) (die core : Nat) : List (Nat × Nat × Nat) :=
  (s.gangs.filter fun g => !g.active && (s.blockOf g).any fun b => b.die == die && b.core == core).flatMap fun g =>
    ((g.descs.map (·.rod)).filter fun r => s.mayDrop g r).map fun r => (g.gid, r, (alGet g.used r).getD 0)

/-- The candidate that is dropped first: least recently used, then lower gang, then lower rod (R220). -/
def firstDrop : List (Nat × Nat × Nat) → Option (Nat × Nat × Nat)
  | [] => none
  | x :: xs =>
    match firstDrop xs with
    | none => some x
    | some y =>
      if x.2.2 < y.2.2 ∨ (x.2.2 = y.2.2 ∧ (x.1 < y.1 ∨ (x.1 = y.1 ∧ x.2.1 ≤ y.2.1))) then some x else some y

/-- Is the controller of a core dropping: from the low watermark until the high one (R220)? -/
def State.dropsNow (s : State) (die core : Nat) : Bool :=
  let free := s.freeRods die core
  free ≤ 96 || ((die, core) ∈ s.dropping && free < 192)

/-- The controllers as the watermarks leave them (R220). -/
def State.watermarks (s : State) : State :=
  { s with dropping := ((s.blocks.map fun b => (b.die, b.core)).dedup).filter fun c => s.dropsNow c.1 c.2 }

/-- R220: ROD_DROP: under pressure the controller drops the first candidate of the core. -/
def execRodDrop (gid : Nat) (rod : Reg) (s : State) : Host.Outcome State Fault Refusal :=
  .next (match s.env? gid with
    | none => s
    | some e =>
      if s.dropsNow e.b.die e.b.core ∧ (firstDrop (s.dropCandidates e.b.die e.b.core)).map (fun x => (x.1, x.2.1)) = some (gid, rod.toNat) then
        State.watermarks (State.modGang s.watermarks gid fun g => g.dropRod rod.toNat)
      else s)

end Sys2Proof.Machine
end

