-- ==== Sys2Proof/Machine/Dispatch.lean ====
section
/-! DEFINITION. Dispatch: one arm per instruction, each a direct call of its meaning. -/

namespace Sys2Proof.Machine
open Host

def exec (i : Instr) (s : State) : Host.Outcome State Fault Refusal :=
  match i with
  | .movS d a => Sys2Proof.Machine.execMovS d a s
  | .iaddS d a b => Sys2Proof.Machine.execIaddS d a b s
  | .isubS d a b => Sys2Proof.Machine.execIsubS d a b s
  | .andS d a b => Sys2Proof.Machine.execAndS d a b s
  | .orS d a b => Sys2Proof.Machine.execOrS d a b s
  | .xorS d a b => Sys2Proof.Machine.execXorS d a b s
  | .shlS d a b => Sys2Proof.Machine.execShlS d a b s
  | .shrS d a b => Sys2Proof.Machine.execShrS d a b s
  | .imulS d a b => Sys2Proof.Machine.execImulS d a b s
  | .faddF32S d a b => Sys2Proof.Machine.execFaddF32S d a b s
  | .fmulF32S d a b => Sys2Proof.Machine.execFmulF32S d a b s
  | .faddF32x2S d a b => Sys2Proof.Machine.execFaddF32x2S d a b s
  | .fmulF32x2S d a b => Sys2Proof.Machine.execFmulF32x2S d a b s
  | .faddBf16x4S d a b => Sys2Proof.Machine.execFaddBf16x4S d a b s
  | .fmulBf16x4S d a b => Sys2Proof.Machine.execFmulBf16x4S d a b s
  | .iaddImmS d a imm => Sys2Proof.Machine.execIaddImmS d a imm s
  | .shlImmS d a imm => Sys2Proof.Machine.execShlImmS d a imm s
  | .shrImmS d a imm => Sys2Proof.Machine.execShrImmS d a imm s
  | .ldB64S d a b => Sys2Proof.Machine.execLdB64S d a b s
  | .stB64S d a b => Sys2Proof.Machine.execStB64S d a b s
  | .retS a => Sys2Proof.Machine.execRetS a s
  | .exitS => Sys2Proof.Machine.execExitS s
  | .waitS ld st cp tl => Sys2Proof.Machine.execWaitS ld st cp tl s
  | .yieldS => Sys2Proof.Machine.execYieldS s
  | .mov g ty d a => Sys2Proof.Machine.execMov g ty d a s
  | .movi g ty d v => Sys2Proof.Machine.execMovi g ty d v s
  | .sel g ty d a b pc => Sys2Proof.Machine.execSel g ty d a b pc s
  | .iadd g ty d a b => Sys2Proof.Machine.execIadd g ty d a b s
  | .isub g ty d a b => Sys2Proof.Machine.execIsub g ty d a b s
  | .iaddc g ty d a b cin cout => Sys2Proof.Machine.execIaddc g ty d a b cin cout s
  | .isubb g ty d a b cin cout => Sys2Proof.Machine.execIsubb g ty d a b cin cout s
  | .imul g ty d a b => Sys2Proof.Machine.execImul g ty d a b s
  | .imulh g ty d a b => Sys2Proof.Machine.execImulh g ty d a b s
  | .imad g ty d a b c => Sys2Proof.Machine.execImad g ty d a b c s
  | .idiv g ty d a b => Sys2Proof.Machine.execIdiv g ty d a b s
  | .irem g ty d a b => Sys2Proof.Machine.execIrem g ty d a b s
  | .ineg g ty d a => Sys2Proof.Machine.execIneg g ty d a s
  | .iabs g ty d a => Sys2Proof.Machine.execIabs g ty d a s
  | .imin g ty d a b => Sys2Proof.Machine.execImin g ty d a b s
  | .imax g ty d a b => Sys2Proof.Machine.execImax g ty d a b s
  | .iadds g ty d a b => Sys2Proof.Machine.execIadds g ty d a b s
  | .isubs g ty d a b => Sys2Proof.Machine.execIsubs g ty d a b s
  | .lea g d a b sh => Sys2Proof.Machine.execLea g d a b sh s
  | .and g ty d a b => Sys2Proof.Machine.execAnd g ty d a b s
  | .or g ty d a b => Sys2Proof.Machine.execOr g ty d a b s
  | .xor g ty d a b => Sys2Proof.Machine.execXor g ty d a b s
  | .andn g ty d a b => Sys2Proof.Machine.execAndn g ty d a b s
  | .not g ty d a => Sys2Proof.Machine.execNot g ty d a s
  | .shl g ty d a b => Sys2Proof.Machine.execShl g ty d a b s
  | .shr g ty d a b => Sys2Proof.Machine.execShr g ty d a b s
  | .sar g ty d a b => Sys2Proof.Machine.execSar g ty d a b s
  | .rot g ty d a b right => Sys2Proof.Machine.execRot g ty d a b right s
  | .bfe g ty d a b => Sys2Proof.Machine.execBfe g ty d a b s
  | .bfi g ty d a b c => Sys2Proof.Machine.execBfi g ty d a b c s
  | .popc g ty d a => Sys2Proof.Machine.execPopc g ty d a s
  | .clz g ty d a => Sys2Proof.Machine.execClz g ty d a s
  | .ctz g ty d a => Sys2Proof.Machine.execCtz g ty d a s
  | .brev g ty d a => Sys2Proof.Machine.execBrev g ty d a s
  | .bperm g d a b c => Sys2Proof.Machine.execBperm g d a b c s
  | .setp g ty cmp comb pd a b pc => Sys2Proof.Machine.execSetp g ty cmp comb pd a b pc s
  | .plop g pd pa pb pc lut => Sys2Proof.Machine.execPlop g pd pa pb pc lut s
  | .pmov g dir => Sys2Proof.Machine.execPmov g dir s
  | .movs g d sr => Sys2Proof.Machine.execMovs g d sr s
  | .movsw g sr src => Sys2Proof.Machine.execMovsw g sr src s
  | .bra g target => Sys2Proof.Machine.execBra g target s
  | .brx g a b => Sys2Proof.Machine.execBrx g a b s
  | .call g d target => Sys2Proof.Machine.execCall g d target s
  | .callx g d a b => Sys2Proof.Machine.execCallx g d a b s
  | .ret g a => Sys2Proof.Machine.execRet g a s
  | .exit g => Sys2Proof.Machine.execExit g s
  | .exitSaved g => Sys2Proof.Machine.execExitSaved g s
  | .yield g => Sys2Proof.Machine.execYield g s
  | .wait g ld st cp tl bk => Sys2Proof.Machine.execWait g ld st cp tl bk s
  | .wtime g d a => Sys2Proof.Machine.execWtime g d a s
  | .trap g code => Sys2Proof.Machine.execTrap g code s
  | .brk g code => Sys2Proof.Machine.execBrk g code s
  | .rtt g => Sys2Proof.Machine.execRtt g s
  | .rqrd g d a sel => Sys2Proof.Machine.execRqrd g d a sel s
  | .rqwr g a b sel => Sys2Proof.Machine.execRqwr g a b sel s
  | .cbsync g a b => Sys2Proof.Machine.execCbsync g a b s
  | .tlbinv g a b => Sys2Proof.Machine.execTlbinv g a b s
  | .nop g => Sys2Proof.Machine.execNop g s
  | .fadd g ty rnd d a b => Sys2Proof.Machine.execFadd g ty rnd d a b s
  | .fsub g ty rnd d a b => Sys2Proof.Machine.execFsub g ty rnd d a b s
  | .fmul g ty rnd d a b => Sys2Proof.Machine.execFmul g ty rnd d a b s
  | .ffma g ty rnd d a b c => Sys2Proof.Machine.execFfma g ty rnd d a b c s
  | .fmin g ty d a b => Sys2Proof.Machine.execFmin g ty d a b s
  | .fmax g ty d a b => Sys2Proof.Machine.execFmax g ty d a b s
  | .fsetp g ty cmp comb pd a b pc => Sys2Proof.Machine.execFsetp g ty cmp comb pd a b pc s
  | .frnd g ty rnd d a => Sys2Proof.Machine.execFrnd g ty rnd d a s
  | .fscale g ty rnd d a b => Sys2Proof.Machine.execFscale g ty rnd d a b s
  | .fclass g ty d a => Sys2Proof.Machine.execFclass g ty d a s
  | .fdot g ty rnd d a b c => Sys2Proof.Machine.execFdot g ty rnd d a b c s
  | .fdiv g ty rnd d a b => Sys2Proof.Machine.execFdiv g ty rnd d a b s
  | .fsqrt g ty rnd d a => Sys2Proof.Machine.execFsqrt g ty rnd d a s
  | .frcp g ty d a => Sys2Proof.Machine.execFrcp g ty d a s
  | .frsq g ty d a => Sys2Proof.Machine.execFrsq g ty d a s
  | .fexp2 g ty d a => Sys2Proof.Machine.execFexp2 g ty d a s
  | .flog2 g ty d a => Sys2Proof.Machine.execFlog2 g ty d a s
  | .fsin g ty d a => Sys2Proof.Machine.execFsin g ty d a s
  | .fcos g ty d a => Sys2Proof.Machine.execFcos g ty d a s
  | .ftanh g ty d a => Sys2Proof.Machine.execFtanh g ty d a s
  | .fsigm g ty d a => Sys2Proof.Machine.execFsigm g ty d a s
  | .cvt g dst src rnd satf h d a => Sys2Proof.Machine.execCvt g dst src rnd satf h d a s
  | .cvtq g dst src rnd satf h d a b => Sys2Proof.Machine.execCvtq g dst src rnd satf h d a b s
  | .olpack g dst src rnd h d a b c => Sys2Proof.Machine.execOlpack g dst src rnd h d a b c s
  | .olunpk g ty d a => Sys2Proof.Machine.execOlunpk g ty d a s
  | .blkhdr g ty mode d a => Sys2Proof.Machine.execBlkhdr g ty mode d a s
  | .dq g dst rnd h d a b c => Sys2Proof.Machine.execDq g dst rnd h d a b c s
  | .pack g d a => Sys2Proof.Machine.execPack g d a s
  | .unpack g d a => Sys2Proof.Machine.execUnpack g d a s
  | .shfl g ty mode w d a b pc => Sys2Proof.Machine.execShfl g ty mode w d a b pc s
  | .shfli g ty mode w d a imm pc => Sys2Proof.Machine.execShfli g ty mode w d a imm pc s
  | .bcast g ty d a src => Sys2Proof.Machine.execBcast g ty d a src s
  | .vote g mode inv d pa => Sys2Proof.Machine.execVote g mode inv d pa s
  | .redux g op ty rnd d a => Sys2Proof.Machine.execRedux g op ty rnd d a s
  | .scanx g op ty rnd d a => Sys2Proof.Machine.execScanx g op ty rnd d a s
  | .matchv g ty d a pc => Sys2Proof.Machine.execMatchv g ty d a pc s
  | .lser g => Sys2Proof.Machine.execLser g s
  | .lsend g => Sys2Proof.Machine.execLsend g s
  | .ld g ty w sext sp d addr => Sys2Proof.Machine.execLd g ty w sext sp d addr s
  | .st g ty w sp d addr => Sys2Proof.Machine.execSt g ty w sp d addr s
  | .ldk g d addr => Sys2Proof.Machine.execLdk g d addr s
  | .stk g d addr c => Sys2Proof.Machine.execStk g d addr c s
  | .ldsib g n d addr => Sys2Proof.Machine.execLdsib g n d addr s
  | .rcn g op ty d addr => Sys2Proof.Machine.execRcn g op ty d addr s
  | .pref g constant l2 addr => Sys2Proof.Machine.execPref g constant l2 addr s
  | .atom g sp op ty d addr c => Sys2Proof.Machine.execAtom g sp op ty d addr c s
  | .red g sp op ty addr c => Sys2Proof.Machine.execRed g sp op ty addr c s
  | .acas g sp ty d addr c => Sys2Proof.Machine.execAcas g sp ty d addr c s
  | .slook g d a => Sys2Proof.Machine.execSlook g d a s
  | .stag g a b => Sys2Proof.Machine.execStag g a b s
  | .cpy g nb a b => Sys2Proof.Machine.execCpy g nb a b s
  | .cpyg g nb a b => Sys2Proof.Machine.execCpyg g nb a b s
  | .fence g scope pred succ => Sys2Proof.Machine.execFence g scope pred succ s
  | .ofence g => Sys2Proof.Machine.execOfence g s
  | .barinit g a b c => Sys2Proof.Machine.execBarinit g a b c s
  | .arrive g d a => Sys2Proof.Machine.execArrive g d a s
  | .expect g a b => Sys2Proof.Machine.execExpect g a b s
  | .bwait g a b => Sys2Proof.Machine.execBwait g a b s
  | .bwaitTo g pd a b c => Sys2Proof.Machine.execBwaitTo g pd a b c s
  | .btest g pd a b => Sys2Proof.Machine.execBtest g pd a b s
  | .bdrop g a => Sys2Proof.Machine.execBdrop g a s
  | .hpush g multi window a d c exitOff handlerOff => Sys2Proof.Machine.execHpush g multi window a d c exitOff handlerOff s
  | .hpop g a => Sys2Proof.Machine.execHpop g a s
  | .perform g d eff a => Sys2Proof.Machine.execPerform g d eff a s
  | .resume g a b => Sys2Proof.Machine.execResume g a b s
  | .resumem g a b => Sys2Proof.Machine.execResumem g a b s
  | .drop g a => Sys2Proof.Machine.execDrop g a s
  | .tokst g d a => Sys2Proof.Machine.execTokst g d a s
  | .rcp g n i1 i2 i3 i4 slice => Sys2Proof.Machine.execRcp g n i1 i2 i3 i4 slice s
  | .rend g => Sys2Proof.Machine.execRend g s
  | .rmat g rod => Sys2Proof.Machine.execRmat g rod s
  | .rdrop g rod => Sys2Proof.Machine.execRdrop g rod s
  | .rdropKill g rod => Sys2Proof.Machine.execRdropKill g rod s
  | .rstat g d rod => Sys2Proof.Machine.execRstat g d rod s
  | .cclose g a => Sys2Proof.Machine.execCclose g a s
  | .cappend g a b => Sys2Proof.Machine.execCappend g a b s
  | .ctake g d pc a => Sys2Proof.Machine.execCtake g d pc a s
  | .cdone g a => Sys2Proof.Machine.execCdone g a s
  | .cquiet g a b => Sys2Proof.Machine.execCquiet g a b s
  | .mldw g pair a => Sys2Proof.Machine.execMldw g pair a s
  | .mswap g pair => Sys2Proof.Machine.execMswap g pair s
  | .mpass g afmt raw acc pair tile a => Sys2Proof.Machine.execMpass g afmt raw acc pair tile a s
  | .mzero g tile nm1 => Sys2Proof.Machine.execMzero g tile nm1 s
  | .mmov g ty n d tile q => Sys2Proof.Machine.execMmov g ty n d tile q s
  | .msta g bf16 a tile => Sys2Proof.Machine.execMsta g bf16 a tile s
  | .bkmv g a => Sys2Proof.Machine.execBkmv g a s
  | .bkgth g a => Sys2Proof.Machine.execBkgth g a s
  | .bkst g d a => Sys2Proof.Machine.execBkst g d a s
  | .fetch gid pc spec => Sys2Proof.Machine.execFetch gid pc spec s
  | .bind op => Sys2Proof.Machine.execBind op s
  | .performStore op => Sys2Proof.Machine.execPerformStore op s
  | .atomic op => Sys2Proof.Machine.execAtomic op s
  | .propagate wid via scope => Sys2Proof.Machine.execPropagate wid via scope s
  | .enqueue op => Sys2Proof.Machine.execEnqueue op s
  | .read op idx => Sys2Proof.Machine.execRead op idx s
  | .write op idx => Sys2Proof.Machine.execWrite op idx s
  | .done op => Sys2Proof.Machine.execDone op s
  | .home op => Sys2Proof.Machine.execHome op s
  | .count arr => Sys2Proof.Machine.execCount arr s
  | .land op idx => Sys2Proof.Machine.execLand op idx s
  | .flag launch edge tile => Sys2Proof.Machine.execFlag launch edge tile s
  | .quiescenceArrival domain => Sys2Proof.Machine.execQuiescenceArrival domain s
  | .matrixGrant die cluster => Sys2Proof.Machine.execMatrixGrant die cluster s
  | .rowTask op row => Sys2Proof.Machine.execRowTask op row s
  | .gangTimerFire gid => Sys2Proof.Machine.execGangTimerFire gid s
  | .timer gid thr => Sys2Proof.Machine.execTimer gid thr s
  | .bwaitTimeout gid thr => Sys2Proof.Machine.execBwaitTimeout gid thr s
  | .wtimeDeadline gid thr => Sys2Proof.Machine.execWtimeDeadline gid thr s
  | .trapDelivery gid => Sys2Proof.Machine.execTrapDelivery gid s
  | .regeneration gid rod thr => Sys2Proof.Machine.execRegeneration gid rod thr s
  | .squash gid => Sys2Proof.Machine.execSquash gid s
  | .gangSwap out inn => Sys2Proof.Machine.execGangSwap out inn s
  | .rodDrop gid rod => Sys2Proof.Machine.execRodDrop gid rod s
  | .blockStart launch die core => Sys2Proof.Machine.execBlockStart launch die core s
  | .gangEnd gid => Sys2Proof.Machine.execGangEnd gid s
  | .blockEnd bid => Sys2Proof.Machine.execBlockEnd bid s
  | .launchReady launch => Sys2Proof.Machine.execLaunchReady launch s
  | .lateAbandoned launch => Sys2Proof.Machine.execLateAbandoned launch s
  | .launchComplete launch => Sys2Proof.Machine.execLaunchComplete launch s
  | .release launch blk => Sys2Proof.Machine.execRelease launch blk s
  | .commandComplete seq => Sys2Proof.Machine.execCommandComplete seq s
  | .kick reg word => Sys2Proof.Machine.execKick reg word s
  | .parameterPlace replay => Sys2Proof.Machine.execParameterPlace replay s
  | .registerWrite off size val => Sys2Proof.Machine.execRegisterWrite off size val s
  | .ctxCreate p => Sys2Proof.Machine.execCtxCreate p s
  | .ctxDestroy p => Sys2Proof.Machine.execCtxDestroy p s
  | .ctxDestroyForce p => Sys2Proof.Machine.execCtxDestroyForce p s
  | .removalStep id => Sys2Proof.Machine.execRemovalStep id s
  | .regionDefine p => Sys2Proof.Machine.execRegionDefine p s
  | .regionRefresh p => Sys2Proof.Machine.execRegionRefresh p s
  | .map p => Sys2Proof.Machine.execMap p s
  | .mapPeer p => Sys2Proof.Machine.execMapPeer p s
  | .unmap p => Sys2Proof.Machine.execUnmap p s
  | .protect p => Sys2Proof.Machine.execProtect p s
  | .codeLoad p => Sys2Proof.Machine.execCodeLoad p s
  | .codeUnload p => Sys2Proof.Machine.execCodeUnload p s
  | .codeUnloadForce p => Sys2Proof.Machine.execCodeUnloadForce p s
  | .repack p => Sys2Proof.Machine.execRepack p s
  | .repackReplace p => Sys2Proof.Machine.execRepackReplace p s
  | .graphLoad p => Sys2Proof.Machine.execGraphLoad p s
  | .graphFree p => Sys2Proof.Machine.execGraphFree p s
  | .queueBind p => Sys2Proof.Machine.execQueueBind p s
  | .preemptDrain p => Sys2Proof.Machine.execPreemptDrain p s
  | .preemptUrgent p => Sys2Proof.Machine.execPreemptUrgent p s
  | .preemptSwitch p => Sys2Proof.Machine.execPreemptSwitch p s
  | .preemptLift p => Sys2Proof.Machine.execPreemptLift p s
  | .pdlExpiry ctx region => Sys2Proof.Machine.execPdlExpiry ctx region s
  | .contextHalt ctx => Sys2Proof.Machine.execContextHalt ctx s
  | .contextRestore ctx => Sys2Proof.Machine.execContextRestore ctx s
  | .migrateOut p => Sys2Proof.Machine.execMigrateOut p s
  | .migrateIn p => Sys2Proof.Machine.execMigrateIn p s
  | .telemetryCfg p => Sys2Proof.Machine.execTelemetryCfg p s
  | .telemetryTick => Sys2Proof.Machine.execTelemetryTick s
  | .traceCfg p => Sys2Proof.Machine.execTraceCfg p s
  | .traceStop p => Sys2Proof.Machine.execTraceStop p s
  | .traceRun p => Sys2Proof.Machine.execTraceRun p s
  | .queueStopped kick => Sys2Proof.Machine.execQueueStopped kick s
  | .keyInstall p => Sys2Proof.Machine.execKeyInstall p s
  | .attest p => Sys2Proof.Machine.execAttest p s
  | .healthQuery p => Sys2Proof.Machine.execHealthQuery p s
  | .unitRetire u => Sys2Proof.Machine.execUnitRetire u s
  | .boot => Sys2Proof.Machine.execBoot s
  | .packageWrite revision image => Sys2Proof.Machine.execPackageWrite revision image s
  | .powerLimitSet watts => Sys2Proof.Machine.execPowerLimitSet watts s
  | .powerCapMeasure watts => Sys2Proof.Machine.execPowerCapMeasure watts s
  | .ptpMessage offset => Sys2Proof.Machine.execPtpMessage offset s
  | .timeBeacon link wall => Sys2Proof.Machine.execTimeBeacon link wall s
  | .flitReceive link crcOk => Sys2Proof.Machine.execFlitReceive link crcOk s
  | .linkRetrain link => Sys2Proof.Machine.execLinkRetrain link s
  | .peerAccess link addr op => Sys2Proof.Machine.execPeerAccess link addr op s
  | .hostRead addr n => Sys2Proof.Machine.execHostRead addr n s
  | .hostWrite addr data => Sys2Proof.Machine.execHostWrite addr data s
  | .dieNoLongerAnswers die => Sys2Proof.Machine.execDieNoLongerAnswers die s
  | .coolantOrRailFault => Sys2Proof.Machine.execCoolantOrRailFault s
  | .spareApplied die vault => Sys2Proof.Machine.execSpareApplied die vault s
  | .lossOfLock => Sys2Proof.Machine.execLossOfLock s
  | .scrub addr => Sys2Proof.Machine.execScrub addr s

end Sys2Proof.Machine
end

