-- ==== Sys2Proof/Machine/Schedule.lean ====
section
/-! DEFINITION. What the default order of steps takes next: the group of a gang that issues (R206 to R209), the entry that RTT
re-injects (R116), and the transitions that engines, homes and firmware have to take (R254). Any other order is taken through the
agenda. Log entry 4. -/

namespace Sys2Proof.Machine
open Host

/-! ### Issue groups (R206, R207, R208) -/

/-- The thread whose PC has waited longest; a tie goes to the lower thread (R208). -/
def Gang.oldest (g : Gang) : List Thread → Option Thread
  | [] => none
  | x :: xs =>
    match g.oldest xs with
    | some y => if g.waited x.pc < g.waited y.pc then some y else some x
    | none => some x

/-- The PC that a gang issues (R208): one that has waited 64 steps; in deterministic mode else that of the lowest thread that is not
blocked, which may hold the gang; outside it the one that has waited longest. -/
def Gang.choose (g : Gang) (held : List Nat) (det : Bool) : Option Nat :=
  match g.oldest (g.able held false) with
  | none => none
  | some x =>
    if det && g.waited x.pc < 64 then
      match g.threads.find? fun y => g.mayIssue [] y && y.stall != .poll with
      | some y => if y.stall = .none ∧ y.thr ∉ held then some y.pc else none
      | none => none
    else some x.pc

/-- What a gang would issue now: a re-injected entry, or a group at a PC. -/
inductive Choice where
  | entry (gid : Nat) (e : RqEntry) (mask : List Nat)
  | group (gid pc : Nat) (mask : List Nat)
  deriving DecidableEq, Repr

/-- The issue group of a PC: every ready thread there (R206). -/
def Gang.groupAt (g : Gang) (held : List Nat) (pc : Nat) : List Nat := ((g.able held false).filter fun x => x.pc == pc).map (·.thr)

/-- The entry to re-inject next, with the threads that run it; none while one of the threads of the re-injection is stalled or held
(R47, R116, R172). -/
def Gang.nextEntry (g : Gang) (held : List Nat) (r : Reinject) : Option Choice :=
  if g.threads.any fun x => x.thr ∈ r.mask && (x.stall != .none || x.thr ∈ held) then none
  else r.entries.head?.map fun e => .entry g.gid e (e.mask.filter (· ∈ r.mask))

def Gang.choice (g : Gang) (held : List Nat) (det : Bool) : Option Choice :=
  match g.reinj with
  | some r => g.nextEntry held r
  | none => (g.choose held det).map fun pc => .group g.gid pc (g.groupAt held pc)

/-- A gang's timer has run out: it fires before anything else of the gang (R81). -/
def State.timerDue (s : State) (g : Gang) : Bool := g.tmr != 0 && (s.blockOf g).any fun b => decide (g.tmr.toNat ≤ s.wall b.die)

/-- Gangs that may issue: not stopped, no trap waiting, no timer due; of a context that halts, only those of deterministic launches and those
that go on (R352, R354). DEDUCED, log entry 75. -/
def State.mayRun (s : State) (g : Gang) : Bool :=
  !g.stopped && (g.pend.isEmpty || g.trap.isSome || g.reinj.isSome) && !s.timerDue g &&
    (s.ctxOf g).any fun c => !c.halted || s.isDet g || s.goesOn g

/-- The active gang, of some, that has waited longest, and what it would issue (R208, R209). -/
def State.pickGo (s : State) : List Gang → Option (Nat × Choice)
  | [] => none
  | g :: gs =>
    let rest := s.pickGo gs
    if !g.active || !s.mayRun g then rest
    else match g.choice (s.heldThreads g.gid) (s.isDet g) with
      | none => rest
      | some c => match rest with
        | some (since, d) => if since < g.readySince then some (since, d) else some (g.readySince, c)
        | none => some (g.readySince, c)

/-- The issue that the agenda names (R250): a ready PC of an active gang, which the hardware may choose below 64 steps of waiting, but for a
PC that a YIELD moved behind one that has waited longer; where R208 leaves no choice, only the PC that is due, or the entry to re-inject. -/
def State.issueAt (s : State) (gid pc : Nat) : Option Choice :=
  match s.gang? gid with
  | none => none
  | some g =>
    let held := s.heldThreads gid
    let ready := g.able held false
    let fixed := s.isDet g || (g.oldest ready).any fun x => decide (64 ≤ g.waited x.pc)
    let behind := g.yielded pc && ready.any fun x => decide (g.waited pc < g.waited x.pc)
    if !g.active || !s.mayRun g then none
    else if g.reinj.isSome then g.choice held (s.isDet g)
    else if (ready.any fun x => x.pc == pc) && (if fixed then g.choose held (s.isDet g) == some pc else !behind) then
      some (.group gid pc (g.groupAt held pc))
    else none

/-! ### Issuing -/

/-- Put an instruction into the issue slot. -/
def State.slot (s : State) (gid : Nat) (mask : List Nat) (f : Fetched) : State :=
  { s.modGang gid (fun g => { g with readySince := s.cycle + 1 }) with
    cur := ⟨gid, f.pc, f.next, mask, f.enc, f.lit, f.len, f.pair, none, false, [], 0⟩, line := none }

/-- Fetch and decode for a group: the instruction in its slot, or the state after the trap of the fetch or the encoding
(R48, R49, R67). A fetch that fails leaves the PC where the group stood, also in a forwarding line: %tepc shows it, and %taddr the address that
failed. DESIGN CHOICE, log entry 93. -/
def State.issueGroup (s : State) (gid pc : Nat) (mask : List Nat) : Except State (Instr × State) :=
  match s.env? gid with
  | none => .error s
  | some e =>
    let us := (e.place (mask.headD 0)).units
    match fetch s e.c us gid pc with
    | .error err =>
      let s1 := State.slot s gid mask ⟨pc, none, pc, 0, 0, 1, none⟩
      .error (s1.trapAt err.cause err.sub (mask.map fun t => ⟨t, BitVec.ofNat 64 err.addr, 0⟩))
    | .ok f =>
      let s0 := if f.pc = pc then s else s.modThreads gid mask fun x => x.redirect f.pc
      let s1 := s0.slot gid mask f
      match f.instr with
      | none => .error (s1.trapAll cILLEGAL mask 0)
      | some i => .ok (i, s1)

/-- Put a re-injected entry into the issue slot; one that is to be skipped, or has no thread left, is passed over (R116). -/
def State.issueEntry (s : State) (gid : Nat) (e : RqEntry) (mask : List Nat) : Except State (Instr × State) :=
  if e.skip ∨ mask.isEmpty then .error (s.modGang gid fun g => g.popReinj)
  else
    let next := match (s.env? gid).map fun v => fetch s v.c (v.place (mask.headD 0)).units gid e.pc with
      | some (.ok f) => f.next
      | _ => e.pc + 4 * e.len
    let s1 := { s.modGang gid (fun g => { g with readySince := s.cycle + 1 }) with
                cur := ⟨gid, e.pc, next, mask, e.enc, e.lit, e.len, none, some e, false, [], 0⟩ }
    match decodeParcels (BitVec.ofNat 32 e.enc.toNat) (BitVec.ofNat 32 (e.enc.toNat / 2 ^ 32)) e.lit with
    | some (i, _) => .ok (i, s1)
    | none => .error (s.modGang gid fun g => g.popReinj)

/-- After the first of a pair: every thread of the group stands at the second and goes on, and nothing comes before the gang's next
instruction boundary, such as a timer that the first has armed in the past (R47, R81, R212). -/
def State.secondGoes (s u : State) (c : IssueSlot) (p : PairInfo) : Bool :=
  match s.gang? c.gid, u.gang? c.gid with
  | some g, some h =>
    let held := u.heldThreads c.gid
    u.mayRun h && h.trap.isSome == g.trap.isSome && h.reinj.isSome == g.reinj.isSome &&
      c.mask.all fun t => t ∉ held && (h.thread? t).any fun x => x.live && x.pc == p.pc && x.stall == .none
  | _, _ => false

/-- Put the second of a pair into the issue slot, with the mask of the first (R212). -/
def State.issueSecond (s : State) (c : IssueSlot) (p : PairInfo) : Except State (Instr × State) :=
  let s1 := { s with cur := ⟨c.gid, p.pc, p.next, c.mask, p.enc, p.lit, p.len, none, none, true, [], c.late⟩ }
  match decodeParcels (BitVec.ofNat 32 p.enc.toNat) (BitVec.ofNat 32 (p.enc.toNat / 2 ^ 32)) p.lit with
  | some (i, _) => .ok (i, s1)
  | none => .error (s1.trapAll cILLEGAL c.mask 0)

def State.issue (s : State) : Choice → Except State (Instr × State)
  | .group gid pc mask => s.issueGroup gid pc mask
  | .entry gid e mask => s.issueEntry gid e mask

def Choice.gid : Choice → Nat
  | .entry gid .. | .group gid .. => gid

def Choice.mask : Choice → List Nat
  | .entry _ _ m | .group _ _ m => m

/-! ### Threads whose stall has ended (R206, R210) -/

/-- What the stalled threads of a gang wait at: each PC with the threads there, or the entry of a re-injection. -/
def Gang.stalledAt (g : Gang) (held : List Nat) : List Choice :=
  match g.reinj with
  | some r =>
    if g.threads.any fun x => x.thr ∈ r.mask && x.stall != .none then
      (r.entries.head?.map fun e => Choice.entry g.gid e (e.mask.filter (· ∈ r.mask))).toList
    else []
  | none =>
    let xs := g.able held true
    ((xs.map (·.pc)).dedup).map fun pc => .group g.gid pc ((xs.filter fun x => x.pc == pc).map (·.thr))

/-- The threads of a gang to make ready, of those that a choice names, given the state once its instruction has executed for them: those
that it leaves without a stall; all of a re-injection's as soon as one of them is. DEDUCED, log entry 37. -/
def State.freed (u : State) (g : Gang) (c : Choice) : List Nat :=
  let go := c.mask.filter fun t => ((u.thread? c.gid t).map fun x => x.stall == .none).getD true
  match c, g.reinj with
  | .entry .., some r => if go.isEmpty && !c.mask.isEmpty then [] else r.mask
  | _, _ => go

/-- Some threads of a gang are ready again; a pending gang has had a ready thread from now on (R210). -/
def State.ready (s : State) (g : Gang) (ts : List Nat) : State :=
  if ts.isEmpty then s
  else
    let s1 := s.modThreads g.gid ts fun x => { x with stall := .none }
    if !g.active && !s.hasReady g then s1.modGang g.gid fun g => { g with readySince := s.cycle } else s1

/-! ### Time -/

/-- A context has a gang resident. -/
def State.hasGang (s : State) (ctx : Nat) : Bool := s.gangs.any fun g => (s.launchOf g).any fun l => l.ctx == ctx

/-- Pending gangs without a ready thread have had one since this moment at the earliest (R210). -/
def State.waitingSince (s : State) : State :=
  if s.gangs.all (·.active) then s
  else { s with gangs := s.gangs.map fun g => if !g.active && !s.hasReady g then { g with readySince := s.cycle } else g }

/-- One nanosecond of a correction of %wall: at 500 parts per million it takes 2,500 cycles (R367). -/
def State.slewStep (s : State) : State :=
  if s.sup.slewLeft = 0 ∨ s.cycle % 2500 ≠ 0 then s
  else
    let d : Int := if 0 < s.sup.slewLeft then 1 else -1
    { s with wallAdj := s.wallAdj.map (· + d), wallLast := s.walls, sup := { s.sup with slewLeft := s.sup.slewLeft - d } }

/-- One cycle passes: %wall on every die, %clk of every context that has a gang resident (R16, R80). Timed waits whose deadline the cycle has
reached are decided (R243), speculation whose point has resolved is confirmed (R213), fault records whose events are over are written (R379),
and the register store controllers look at their watermarks (R220). -/
def State.tick (s00 : State) : State :=
  let s0 := { s00 with free := s00.free + 1 }
  let s := s0.slewStep.flushFaults.decideWaits
  let run (c : Context) : Context := if s.hasGang c.num then { c with clk := c.clk + 1 } else c
  let s1 := State.confirm { s with cycle := s.cycle + 1, turn := (s.turn + 1) % 4, wallLast := s.walls, contexts := s.contexts.map run }
  s1.waitingSince.watermarks

/-! ### Transitions of operations (R250, R254) -/

/-- The next transition of a piece of a copy. -/
def State.pieceEvent (s : State) (o : Op) : List (Nat × CopyRow) → Option Instr
  | [] => none
  | (k, r) :: rs =>
    if !r.readDone then some (.read o.id k)
    else if !r.writeDone then some (.write o.id k)
    else if s.pieceLands o r then some (.land o.id k)
    else s.pieceEvent o rs

/-- The first row of a bank operation that its unit may compute. -/
def nextRow (o : Op) : List (Nat × BankRow) → Option Instr
  | [] => none
  | (k, r) :: rs => if !r.taken && rowTurn o.kind.bankRows k r then some (.rowTask o.id k) else nextRow o rs

def indexed {α : Type} (l : List α) : List (Nat × α) := (List.range l.length).zip l

/-- The transition that an operation can take now. -/
def State.opEvent (s : State) (o : Op) : Option Instr :=
  match o.kind with
  | .load .. => if s.enabled o then some (.bind o.id) else none
  | .store .. => if s.enabled o then some (.performStore o.id) else none
  | .atomic .. | .cas .. => if s.enabled o then some (.atomic o.id) else none
  | .copy _ _ rows =>
    if s.mayEnqueue o then some (.enqueue o.id)
    else if s.mayFinish o then some (.done o.id)
    else if o.queued then s.pieceEvent o (indexed rows) else none
  | .bkmv .. | .bkgth .. =>
    if s.mayEnqueue o then some (.enqueue o.id)
    else if s.mayFinish o then some (.done o.id)
    else if o.queued && s.ops.all fun x => !(x.cls == .bk && x.queued && o.kind.qpri < x.kind.qpri) then nextRow o (indexed o.kind.bankRows)
    else none
  | .mldw .. | .mswap .. | .mpass .. | .mzero .. | .mmov .. | .msta .. =>
    if s.mayEnqueue o then some (.enqueue o.id)
    else if s.mayFinish o then some (.done o.id)
    else if o.queued && o.grant.isNone then some (.matrixGrant o.place.die (o.place.core / 4)) else none
  | _ => if s.enabled o then some (.home o.id) else none

def State.opEvents (s : State) : List Instr := s.ops.filterMap s.opEvent

/-- A launch whose last block has ended, or been released (R345, R350). -/
def Launch.over (l : Launch) : Bool := l.state == .running && l.ended.length == l.nd.blocks && (!l.det || l.released == l.nd.blocks)

/-- Transitions that the default order takes as soon as they are due: an arrival is counted (R178), a quiescence detector arrives
(R195), a launch is DONE (R345). DEDUCED, log entry 35. -/
def State.promptEvent (s : State) : Option Instr :=
  ((s.arrivals.find? s.countable).map fun a => Instr.count a.id).or
    (((s.arms.find? (·.fired)).map fun a => Instr.quiescenceArrival a.dom).or
      ((s.launches.find? fun l => l.over && !s.ending l).map fun l => Instr.launchComplete l.num))

/-! ### Transitions of writes, threads and gangs -/

/-- An agent that sees a write. -/
def PWrite.viewer (s : State) (w : PWrite) : Option Agent :=
  w.vis.findSome? fun u => match u with
    | .thread g t => some (.thread g t)
    | .bank d v => some (.bank d v)
    | .system | .peer _ => some .host
    | .gang gid => (s.gang? gid).bind fun g => g.threads.head?.map fun x => .thread gid x.thr
    | .block bid => (s.gangs.find? fun g => g.bid == bid).bind fun g => g.threads.head?.map fun x => .thread g.gid x.thr
    | .cluster d n => (s.gangs.find? fun g => (s.blockOf g).any fun b => b.die == d && b.core / 4 == n).bind fun g =>
        g.threads.head?.map fun x => .thread g.gid x.thr
    | .die d => some (.bank d 0)
    | .module => some (.bank 0 0)

/-- Every write on its way reaches every scope in the end (R254). -/
def State.writeEvents (s : State) : List Instr :=
  s.writes.filterMap fun w => (w.viewer s).map fun a => .propagate w.wid a .system

/-- Transitions of a thread: its timer, and the deadlines of its stalled WTIME and BWAIT. -/
def threadEvents (g : Gang) (wall : Nat) (x : Thread) : List Instr :=
  (if !x.timers.isEmpty && g.trap.isNone && g.reinj.isNone then [Instr.timer g.gid x.thr] else []) ++
    (if x.stall != .none && x.wtime.any (fun w => decide (w.2 ≤ wall)) then [Instr.wtimeDeadline g.gid x.thr] else []) ++
    (if x.stall != .none && x.bwait.any (·.verdict.isSome) then [Instr.bwaitTimeout g.gid x.thr] else [])

/-- The gang that a pending gang may replace: itself where the set has room (R210). -/
def State.swapFor (s : State) (h : Gang) : Option Nat :=
  if h.active || !s.entersNext h then none
  else if s.activeOn h < Config.activeGangs then some h.gid
  else (s.gangs.find? fun g => g.active && s.sameCore g h && s.allWait g).map (·.gid)

def State.gangEvents (s : State) (g : Gang) : List Instr :=
  let wall := ((s.blockOf g).map fun b => s.wall b.die).getD 0
  (if s.gangOver g && !(s.launchOf g).any s.ending then [Instr.gangEnd g.gid] else []) ++
    (if s.timerDue g && !s.halted g then [Instr.gangTimerFire g.gid] else []) ++
    (if (s.pendNow g).isSome then [Instr.trapDelivery g.gid] else []) ++
    (if s.halted g then [] else g.threads.flatMap (threadEvents g wall)) ++ ((s.swapFor g).map fun o => Instr.gangSwap o g.gid).toList

/-- The register store controller of a core in need (R220). -/
def State.dropEvent (s : State) (c : Nat × Nat) : Option Instr :=
  if s.dropsNow c.1 c.2 then (firstDrop (s.dropCandidates c.1 c.2)).map fun x => .rodDrop x.1 (BitVec.ofNat 8 x.2.1) else none

def State.coreEvents (s : State) : List Instr :=
  s.writeEvents ++ s.gangs.flatMap s.gangEvents ++
    (s.blocks.filter fun b => !b.ended && !(s.launch? b.launch).any s.ending && s.gangs.all fun g => g.bid != b.bid).map (fun b => .blockEnd b.bid) ++
    ((s.blocks.map fun b => (b.die, b.core)).dedup).filterMap s.dropEvent

/-! ### Transitions of the firmware -/

/-- Tiles of a launch that its FLAGs can report. -/
def State.flagEvents (s : State) (l : Launch) : List Instr :=
  match s.graph? l.graph with
  | none => []
  | some g => (indexed g.edges).flatMap fun e => match e.2.tile with
    | some t =>
      if e.2.src = l.node then
        ((List.range (tileCount l t)).filter fun k => (e.1, k) ∉ l.flagged && s.flagReady l t k).map fun k => .flag l.num e.1 k
      else []
    | none => []

def State.launchEvents (s : State) (l : Launch) : List Instr :=
  if s.ending l then []
  else (match l.state with
   | .pending =>
     if s.lostProducer l then [Instr.launchComplete l.num]
     else if (List.range l.nd.blocks).any (fun b => s.depsOk l b) then [Instr.launchReady l.num] else []
   | .ready => if s.someCore l then [] else [Instr.launchReady l.num]
   | .featureWait => if s.someCore l then [Instr.launchReady l.num] else []
   | .running =>
     if l.det && s.blocks.any (fun b => b.launch == l.num && b.linear == l.released && b.ended) then [Instr.release l.num l.released] else []
   | .complete => []) ++ (if l.waiting && s.pastAbandon l then [Instr.lateAbandoned l.num] else []) ++ s.flagEvents l

/-- The first core that takes a block, if some launch has one to start. -/
def State.startEvent (s : State) : Option Instr :=
  if s.launches.all (fun l => !s.mayStart l || (s.nextBlock l).isNone) then none
  else ((List.range 8).flatMap fun d => (List.range 200).map fun k => (d, k)).findSome? fun c => (s.choose c.1 c.2).map fun l => .blockStart l.num c.1 c.2

/-- Transitions of a context: its halt, its restore, and the deadlines of its urgent pre-emptions. -/
def State.contextEvents (s : State) (c : Context) : List Instr :=
  (if s.mayHalt c then [Instr.contextHalt c.num] else []) ++ (if s.mayRestore c then [Instr.contextRestore c.num] else []) ++
    ((c.regions.filter fun r => s.overdue c.num r.num && s.removals.all fun x => x.ctx != c.num || x.fdom.isSome).map fun r => .pdlExpiry c.num r.num)

/-- Units that the firmware can retire (R395): due ones, of clusters those whose last block has ended, or which are not yet kept from new blocks. -/
def State.retireEvents (s : State) : List Instr :=
  ((s.sup.retiring ++ s.sup.due.filter fun u => u ∉ s.sup.retiring).filter fun u => u ∉ s.sup.retired &&
    (match u with | .cluster d n => u ∉ s.sup.retiring || !s.onCluster d n | _ => true)).map fun u => .unitRetire u

def State.firmwareEvents (s : State) : List Instr :=
  (s.waiting.filter fun w => s.waitOver w.wait && s.cqRoom).map (fun w => Instr.commandComplete w.seq) ++
    s.removals.map (fun r => .removalStep r.id) ++ s.contexts.flatMap s.contextEvents ++ s.launches.flatMap s.launchEvents ++
    s.replays.map (fun r => .parameterPlace r.id) ++ s.startEvent.toList ++
    ((s.queues.filter fun q => q.stopped && !q.told && s.launches.all fun l => l.kick != q.kick || l.state != .running).map fun q => .queueStopped q.kick) ++
    (if s.telemetry.due ≤ s.cycle then [Instr.telemetryTick] else []) ++ s.retireEvents

/-! ### The administrative ring (R333) -/

/-- The fields of a packet, and whether each lies in it with zeros behind its payload (R3, R333). -/
def parseFields : Nat → List Byte → List Field × Bool
  | 0, _ => ([], true)
  | fuel + 1, bs =>
    if bs.isEmpty then ([], true)
    else
      let h := fieldAt bs 0 1
      let n := fieldAt bs 1 1
      let size := (n + 2 + 7) / 8 * 8
      if 254 < n ∨ bs.length < size then ([], false)
      else
        let (fs, ok) := parseFields fuel (bs.drop size)
        (⟨decide (128 ≤ h), h / 64 % 2 == 1, h % 64, (bs.drop 2).take n⟩ :: fs, ok && ((bs.take size).drop (n + 2)).all (· = 0))

/-- The command of an opcode (R335); flags, PEER and MODE choose among its forms, but for one marked optional that cannot be honoured (R333). -/
def commandOf (opc : Nat) (p : Packet) : Option Instr :=
  let flag (id : Nat) : Bool := p.fields.any fun f => f.id == id && (!f.opt || (if id = 0x11 then peerSpec.honours f else f.payload.isEmpty && (id ≠ 0x20 || f.mu)))
  let mode := ((p.fields.find? fun f => f.id == 4).map fun f => leNat f.payload).getD 0
  match opc with
  | 0x01 => some (.ctxCreate p)
  | 0x02 => some (if flag 3 then .ctxDestroyForce p else .ctxDestroy p)
  | 0x03 => some (if flag 4 then .regionRefresh p else .regionDefine p)
  | 0x10 => some (if flag 0x11 then .mapPeer p else .map p)
  | 0x11 => some (.unmap p)
  | 0x12 => some (.protect p)
  | 0x20 => some (.codeLoad p)
  | 0x21 => some (if flag 3 then .codeUnloadForce p else .codeUnload p)
  | 0x22 => some (if flag 5 then .repackReplace p else .repack p)
  | 0x30 => some (.graphLoad p)
  | 0x31 => some (.graphFree p)
  | 0x32 => some (.queueBind p)
  | 0x40 => some (if mode = 1 then .preemptUrgent p else if mode = 2 then .preemptSwitch p else if mode = 3 then .preemptLift p else .preemptDrain p)
  | 0x41 => some (.migrateOut p)
  | 0x42 => some (.migrateIn p)
  | 0x50 => some (.telemetryCfg p)
  | 0x51 => some (if flag 0x20 then .traceStop p else if flag 0x21 then .traceRun p else .traceCfg p)
  | 0x60 => some (.keyInstall p)
  | 0x61 => some (.attest p)
  | 0x70 => some (.healthQuery p)
  | _ => none

/-- What the firmware does with the packet at its consumption point: a command, or a rejection with its status. -/
inductive RingNext where
  | run (i : Instr)
  | refuse (p : Packet) (status : Nat)
  deriving DecidableEq, Repr

def State.ringNext (s : State) : Option RingNext :=
  match s.ringHead with
  | none => none
  | some (len, seq) =>
    let bs := s.ringBytes s.bar.aqHead.toNat len
    let opc := fieldAt bs 0 2
    let (fs, ok) := parseFields (len / 8) (bs.drop 16)
    if !ok ∨ fieldAt bs 2 2 ≠ len ∨ ((bs.drop 8).take 8).any (· ≠ 0) then some (.refuse ⟨seq, fs⟩ stBADVALUE)
    else match commandOf opc ⟨seq, fs⟩ with
      | some i => some (.run i)
      | none => some (.refuse ⟨seq, fs⟩ stBADOPC)

/-- A packet that is no command is rejected (R334). -/
def State.refusePacket (s : State) (p : Packet) (status : Nat) : State := s.begun ⟨p.seq, [], packetNotify p, .done, status, 0, 0⟩

/-! ### The default order -/

/-- What the next step does. -/
inductive Plan where
  | event (i : Instr)
  | issue (c : Choice)
  | refuse (p : Packet) (status : Nat)
  | idle
  deriving DecidableEq, Repr

/-- One entry of a list, by rotation. -/
def rotateIn (l : List Instr) (n : Nat) : Option Plan := (l[n % l.length]?).map Plan.event

/-- The firmware's next transition; it takes a packet from the ring when it has nothing else to do. -/
def State.firmwarePlan (s : State) : Option Plan :=
  match rotateIn s.firmwareEvents (s.cycle / 4) with
  | some p => some p
  | none => s.ringNext.map fun r => match r with
    | .run i => .event i
    | .refuse p st => .refuse p st

/-- The gangs that the default order lets issue: one some of whose threads are stalled while an operation of it can take a transition only in
one round of sixteen, so that threads of one issue group whose operations complete at different times mostly go on together. -/
def State.issuers (s : State) : List Gang :=
  if s.cycle / 4 % 16 = 0 then s.gangs
  else s.gangs.filter fun g =>
    (g.threads.all fun x => x.stall == .none || x.exited) || s.ops.all fun o => o.place.gid != g.gid || (s.opEvent o).isNone

def State.pick (s : State) : Option Choice := (s.pickGo s.issuers).map (·.2)

/-- The first of four kinds of step, from kind n on, that has something to do. -/
def State.planFrom (s : State) : Nat → Nat → Plan
  | 0, _ => .idle
  | fuel + 1, n =>
    let p := match n % 4 with
      | 0 => s.pick.map Plan.issue
      | 1 => rotateIn s.opEvents (s.cycle / 4)
      | 2 => rotateIn s.coreEvents (s.cycle / 4)
      | _ => s.firmwarePlan
    match p with
    | some x => x
    | none => s.planFrom fuel (n + 1)

/-- The default order: after what is due at once, issue, transitions of operations, transitions of writes and gangs, and the firmware take
turns, so that each is served (R208, R254). -/
def State.plan (s : State) : Plan :=
  match s.promptEvent with
  | some i => .event i
  | none => s.planFrom 4 s.turn

end Sys2Proof.Machine
end

