-- ==== Sys2Proof/Machine/Step.lean ====
section
/-! DEFINITION. One step of the machine: the next transition of the agenda, or what the default order takes; and a state that fetches a
given instruction next. -/

namespace Sys2Proof.Machine
open Host

/-- The second of a pair executes in the step of the first, once that has left every thread of the group at it (R47, R212). -/
def thenSecond (t : State) (o : Host.Outcome State Fault Refusal) : Host.Outcome State Fault Refusal :=
  match o, t.cur.pair with
  | .next u, some p =>
    if t.secondGoes u t.cur p then (match u.issueSecond t.cur p with
      | .error v => .next v
      | .ok (j, v) => exec j v)
    else .next u
  | o, _ => o

/-- Issue what was chosen: fetch and decode it, and execute it, with the second of its pair; `late` instructions after them may issue while
their checks are made (R373). -/
def run (s : State) (c : Choice) (late : Nat) : Host.Outcome State Fault Refusal :=
  match s.issue c with
  | .error t => .next t
  | .ok (i, t0) =>
    let t : State := { t0 with cur := { t0.cur with late := late } }
    thenSecond t (exec i t)

/-- What the agenda names is done: a transition, a cycle in which a gang issues a group that it may choose, an error, a host read of BAR0, or
beacons. -/
def take (s : State) (e : Event) : Host.Outcome State Fault Refusal :=
  match e with
  | .take i => exec i s
  | .issue gid pc => match s.tick.issueAt gid pc with
    | some c => run s.tick c 0
    | none => .next s
  | .issueLate gid pc n => match s.tick.issueAt gid pc with
    | some c => run s.tick c n
    | none => .next s
  | .upset u => .next (s.upset u)
  | .corrected u => .next (s.correctError u)
  | .barRead off size => .next (s.barRead off size)
  | .sendBeacons => .next s.sendBeacons
  | .beaconLost link => .next (s.loseBeacon link)

/-- The state once the instruction of a choice has executed, where that is a state. -/
def State.tried (s : State) (c : Choice) : State :=
  match s.issue c with
  | .error u => u
  | .ok (i, t) => match exec i t with
    | .next u => u
    | _ => s

/-- Threads of a gang whose stall has ended are ready: those whose instruction would go on now (R206, R210). DEDUCED, log entry 37. -/
def State.wakeGang (s : State) (g : Gang) : State :=
  (g.stalledAt (s.heldThreads g.gid)).foldl (fun t c => t.ready g ((s.tried c).freed g c)) s

def State.wake (s : State) : State := s.gangs.foldl State.wakeGang s

/-- One step of a state whose ready threads are known: what was put on the agenda is done first. Otherwise one cycle passes and the default
order decides: an instruction is fetched, decoded and executed, or a transition is taken, or nothing is enabled. -/
def State.go (s : State) : Host.Outcome State Fault Refusal :=
  match s.agenda with
  | e :: rest => take { s with agenda := rest } e
  | [] =>
    match s.plan with
    | .event i => exec i s.tick
    | .refuse p st => .next (s.tick.refusePacket p st)
    | .idle => .next s.tick
    | .issue c => run s.tick c 0

/-- One step. -/
def step (s : State) : Host.Outcome State Fault Refusal := s.wake.go

/-! ### A first instruction (log entry 1) -/

/-- Where the instruction's line stands, in device memory and in its context. -/
def firstLine : Nat := 0x10000

/-- A region that allows everything and has no trap handler. -/
def openRcb : Rcb := ⟨0, 0x1FFF, 0, 0, 0, 48, 3072, 393216, 64, 2, 32768, 64, 0, 0, 0⟩

/-- A context with one executable page, whose scratchpad window stands at 2^40. -/
def firstCtx (n : Nat) : Context :=
  ⟨n, 0, 2 ^ 40, false, 0, 0, [⟨0, none, 0, openRcb, .none⟩], [pageOf firstLine 65536 firstLine 5 none], false, false, false, [], 0⟩

def firstNode : Node := ⟨0, 4, (1, 1, 1), 1, 256, 0, 0, 0, 0, []⟩

def firstLaunchOf (n ctx : Nat) : Launch :=
  ⟨n, ctx, 0, 256, 0, 0, 0, firstNode, .running, .ok, false, 0, false, openRcb, 0, 0, [0], [], 0, [], [], [], [], 0, 0, false, 0, 0, 0, [], n, 0, 0, 0, [], [], []⟩

def firstBlock (bid launch : Nat) : Block := ⟨bid, launch, 0, 0, 0, 0, 0, 0, 0, 256, 1, [], [], [], [], [], [], false, [], false, [], 0, []⟩

/-- The parcels of the instruction, then pads. -/
def firstParcels (nbits w : Nat) : List W32 :=
  let v := w % 2 ^ nbits
  let ps : List W32 := [BitVec.ofNat 32 v, BitVec.ofNat 32 (v / 2 ^ 32), BitVec.ofNat 32 (v / 2 ^ 64)]
  let used := ps.take (max 1 (formLength (BitVec.ofNat 32 v)))
  used ++ List.replicate (15 - used.length) 0xFFFFFFFF

/-- The state with a one-thread gang that issues next and whose PC stands at the given instruction: what CTX_CREATE, MAP, CODE_LOAD,
GRAPH_LOAD, KICK and BLOCK_START come to. -/
def State.withFetchWord (s : State) (nbits w : Nat) : State :=
  let bid := s.nextId
  let s1 : State := s.poke firstLine (makeLine 1 0 (firstParcels nbits w)).bytes
  { s1 with agenda := [], turn := 0, line := none, nextId := s1.nextId + 2, nextCtx := s.nextCtx + 1, nextLaunch := s.nextLaunch + 1,
            contexts := firstCtx s.nextCtx :: s.contexts, launches := firstLaunchOf s.nextLaunch s.nextCtx :: s.launches,
            blocks := firstBlock bid s.nextLaunch :: s.blocks, gangs := Gang.fresh (bid + 1) bid 0 1 (firstLine + 4) true 0 :: s.gangs }

end Sys2Proof.Machine
end

