-- ==== Sys2Proof/Safety.lean ====
section
/-! DEFINITION. The terms in which claims speak of a run: what can be read of a state, the invariant that rules out states no run
reaches, when an instruction's operands are at hand, and what an instruction leaves alone. -/

namespace Sys2Proof.Machine
open Host

/-! ### Reading a state -/

/-- The key under which a location was written last (R297). -/
def State.keyLast (s : State) (a : Nat) : Option (List Byte) :=
  match s.lastOf a with
  | some w => w.key
  | none => alGet s.crypt a

/-- The byte at the end of a location's coherence order (R249), whether it is poisoned (R383), and the key under which it stands (R297). -/
def State.byteAt (s : State) (a : Nat) : Byte × Bool × Option (List Byte) :=
  let b := s.byteFrom (s.lastOf a) a
  (b.val, b.bad, s.keyLast a)

/-- Register r of a thread, as an instruction of the thread reads it (R72, R88). -/
def State.reg (s : State) (gid thr : Nat) (r : Reg) : Word := ((s.gang? gid).map fun g => g.readReg r thr).getD 0

/-- Register or bead `num` of a thread under the number that operations name it by, whatever mode its gang is in: g0 to g255, and k0 to k7 from
256 up (R72, R88). -/
def Gang.beadAt (g : Gang) (n num : Nat) : Word := if num < 256 then g.bead num n else ((g.thread? n).map fun x => x.k.getD (num - 256) 0).getD 0

def State.beadOf (s : State) (gid n num : Nat) : Word := ((s.gang? gid).map fun g => g.beadAt n num).getD 0

/-- Numbers that no register field reaches in the gang's mode: k0 to k7 outside trap mode, g248 to g255 in it (R88). -/
def Gang.hides (g : Gang) (num : Nat) : Bool := if g.trap.isSome then decide (248 ≤ num ∧ num < 256) else decide (256 ≤ num)

/-- What a thread's program can see or rely on of its thread, but its general registers: PC, predicates and special registers (R76, R79), whether
it has exited, its tokens (R180), its registrations at barrier objects and its drops (R178), and its place in LSER (R144). -/
structure View where
  pc : Nat
  exited : Bool
  preds : BitVec 7
  fpc : Word
  fst : Word
  hsp : Word
  eff : Word
  earg : Word
  etok : Word
  olth : Word
  tepc : Word
  taddr : Word
  tslice : Word
  toks : List Tok
  regs : List Reg1
  dropped : List Nat
  lser : Lser
  deriving DecidableEq, Repr

def Thread.view (x : Thread) : View :=
  ⟨x.pc, x.exited, x.preds, x.fpc, x.fst, x.hsp, x.eff, x.earg, x.etok, x.olth, x.tepc, x.taddr, x.tslice, x.toks, x.regs, x.dropped, x.lser⟩

/-- An operation without the note of the beads that were written since its issue (R91). -/
def Op.plain (o : Op) : Op := { o with clob := [] }

/-! ### The invariant -/

def Thread.sound (x : Thread) : Bool := x.thr < 32 && x.k.length == 8

def soundRods (rods : List (Nat × Rod)) : Bool :=
  rods.all fun e => match e.2 with
    | .value bs => bs.length == 32
    | .recipe => true

/-- A gang's threads have numbers below 32 and eight k registers each, and a VALUE rod has 32 beads (R72, R75, R88); so has what a
squash restores (R215). -/
def Gang.sound (g : Gang) : Bool :=
  g.threads.all Thread.sound && soundRods g.rods && (g.spec.all fun sp => sp.threads.all Thread.sound && soundRods sp.rods)

/-- Every gang, running or saved, is sound. -/
def State.gangsSound (s : State) : Bool := s.gangs.all Gang.sound && s.saved.all fun v => v.gangs.all Gang.sound

/-! ### When an instruction can take effect at once -/

/-- A register of a thread holds a value: no load is about to write it (R91), no poison (R151), no RECIPE rod (R73). -/
def State.regReady (s : State) (e : Env) (t : Nat) (r : Reg) : Bool :=
  !s.loadPending e.g.gid t (e.g.regNum r) && (e.g.poisonOf r t).isNone && (e.g.kReg r || !e.g.isRecipe r.toNat)

/-- Every source register of some threads holds a value. -/
def State.sourcesReady (s : State) (e : Env) (i : Instr) (ts : List Nat) : Bool := ts.all fun t => (readsOf i).all fun r => s.regReady e t r

/-- Some rods can be written at once: no recipe defines or reads them (R217, R218), the core has physical rods for those that are VOID, and the
gang holds none for a write that has waited (R74). -/
def State.rodsReady (s : State) (e : Env) (rods : List Nat) : Bool :=
  rods.isEmpty ||
    ((e.g.descs.all fun d => !(rods.contains d.rod) && d.inputs.all fun r => !(rods.contains r.toNat)) && e.g.reserved == 0 &&
      decide ((rods.filter fun r => (alGet e.g.rods r).isNone).length ≤ s.freeRods e.b.die e.b.core))

/-- Rods that an instruction of the issue group writes. -/
def State.rodsWritten (s : State) (e : Env) (i : Instr) : List Nat :=
  if (participants s e.g i).isEmpty then [] else e.g.rodsOf (destsOf i)

/-- The instruction in the issue slot has all that it needs: it is not re-injected and has regenerated nothing yet, speculation does not hold it
back (R214), its sources hold values and its destinations can be written. -/
structure AtHand (i : Instr) (s : State) (e : Env) : Prop where
  env : s.env? s.cur.gid = some e
  fresh : s.cur.cap = none
  noted : s.cur.regens = []
  speculation : (e.g.spec.isSome && (waitsConfirm i || e.g.specFull)) = false
  certain : s.specWaits e i (participants s e.g i) = false
  sources : s.sourcesReady e i (readers s e i) = true
  dests : s.rodsReady e (s.rodsWritten e i) = true

/-- The value of an operand of a thread. -/
def Env.operand (e : Env) (t : Nat) : Src → Word
  | .none => 0
  | .reg r => e.g.readReg r t
  | .const v => v

/-- An operand as it is captured when its register holds a value. -/
def Env.capture (e : Env) (t : Nat) : Src → Cap
  | .none => .none
  | .reg r => .val (e.g.readReg r t)
  | .const v => .val v

def Env.captures (e : Env) (i : Instr) (t : Nat) : CapOp :=
  ⟨t, e.capture t (srcsOf i).a, e.capture t (srcsOf i).b, e.capture t (srcsOf i).c, e.capture t (srcsOf i).d⟩

/-- What a lane of an instruction reads (R89). -/
def Env.laneIn (e : Env) (i : Instr) (t : Nat) : LaneIn :=
  let x := e.g.thread? t
  { a := e.operand t (srcsOf i).a, b := e.operand t (srcsOf i).b, c := e.operand t (srcsOf i).c, d := e.operand t (srcsOf i).d,
    x := (extraSrcs i).map fun r => e.g.readReg r t, preds := (x.map (·.preds)).getD 0, fpc := (x.map (·.fpc)).getD 1,
    olth := (x.map (·.olth)).getD 0 }

/-- Instructions that every lane computes from its own operands (R89). -/
def isLane (i : Instr) : Bool := (laneValue i {}).isSome

/-! ### What an instruction changes -/

/-- Every byte of memory, scratchpad included, reads as before. -/
def SameBytes (s t : State) : Prop := ∀ a, t.byteAt a = s.byteAt a

/-- Of the whole state, nothing but one gang, the notes on its operations and the event counts differs. -/
structure OnlyGang (s t : State) (gid : Nat) : Prop where
  rest : t = { s with gangs := t.gangs, ops := t.ops, telemetry := { s.telemetry with counters := t.telemetry.counters } }
  ops : t.ops.map Op.plain = s.ops.map Op.plain
  others : ∀ h, h ≠ gid → t.gang? h = s.gang? h

/-- Every bead and every k register of a gang is as before, whatever mode it was or is in. -/
def RegsSame (s t : State) (gid : Nat) : Prop := ∀ n num, t.beadOf gid n num = s.beadOf gid n num

/-- The registers of a gang after: what `f` gives, and else what they were; those that no field reaches in the gang's mode are as before. -/
structure RegsAre (s t : State) (gid : Nat) (f : Nat → Reg → Option Word) : Prop where
  shown : ∀ n r, t.reg gid n r = (f n r).getD (s.reg gid n r)
  hidden : ∀ g n num, s.gang? gid = some g → g.hides num = true → t.beadOf gid n num = s.beadOf gid n num

/-- What an instruction keeps of its gang beside registers and threads: %tmr, the trap mode with its cause, mask and replay queue, traps that are
due, the last LSER turn, and the recipe descriptors, to which the definition D of an RCP adds one (R81, R144, R188, R372). -/
structure Gang.Keeps (g g' : Gang) (pc : Nat) : Prop where
  tmr : g'.tmr = g.tmr
  trap : g'.trap = g.trap
  pend : g'.pend = g.pend
  stopped : g'.stopped = g.stopped
  lastTurn : g'.lastTurn = g.lastTurn
  descs : ∃ ds, g'.descs = ds ++ g.descs ∧ ds.length ≤ 1 ∧ ∀ d ∈ ds, ∃ p ∈ g.pendRcp, p.pc = pc ∧ d.slice = p.slice ∧ d.inputs = p.inputs

/-- The gang of the instruction in the issue slot keeps all that. -/
def GangKept (s t : State) : Prop := ∀ g, s.gang? s.cur.gid = some g → ∃ g', t.gang? s.cur.gid = some g' ∧ g.Keeps g' s.cur.pc

/-- The threads of a gang after: each as `f` says of what it was. -/
def ThreadsAre (s t : State) (gid : Nat) (f : Thread → View) : Prop :=
  ∀ n x, s.thread? gid n = some x → ∃ y, t.thread? gid n = some y ∧ y.view = f x

/-- What a lane's answer gives a register, if it writes it. -/
def LaneOut.to (o : LaneOut) (r : Reg) : Option Word := (o.regs.find? fun p => p.1 == r).map (·.2)

/-- What a lane's answer does to its thread: predicates, and sticky flags (R31, R76). -/
def LaneOut.after (o : LaneOut) (x : Thread) : Thread := { x.setPreds o.preds with fst := x.fst ||| o.fl.setWidth 64 }

/-- What a lane's answer, if it has one, makes of a thread. -/
def answered (out : Option LaneOut) (x : Thread) : View :=
  match out with
  | some o => (o.after x).view
  | none => x.view

/-- The issue group's threads stand at the next instruction; nothing else of any thread changes. -/
def wentOn (s : State) (x : Thread) : View := if x.thr ∈ s.cur.mask then { x.view with pc := s.cur.next } else x.view

/-- What an instruction leaves whose participating threads receive answers: their destination registers, predicates and sticky flags
are as answered, the issue group stands at the next instruction, and no other register, thread or byte of memory differs, and nothing else
of the gang. -/
structure Answered (i : Instr) (s t : State) (e : Env) (out : Nat → Option LaneOut) : Prop where
  bytes : SameBytes s t
  kept : GangKept s t
  regs : RegsAre s t s.cur.gid fun n r => if n ∈ participants s e.g i ∧ r ∈ destsOf i then (out n).bind fun o => o.to r else none
  threads : ThreadsAre s t s.cur.gid fun x =>
    let v := if x.thr ∈ participants s e.g i then answered (out x.thr) x else x.view
    if x.thr ∈ s.cur.mask then { v with pc := s.cur.next } else v

/-- What an instruction leaves whose whole effect is on its gang: the registers that `regs` names hold what it gives, each thread shows
what `view` gives, the issue group stands at the next instruction, and no other register, thread, gang, byte of memory or piece of
state differs. -/
structure Went (s t : State) (regs : Nat → Reg → Option Word) (view : Thread → View) : Prop where
  only : OnlyGang s t s.cur.gid
  bytes : SameBytes s t
  kept : GangKept s t
  regs : RegsAre s t s.cur.gid regs
  threads : ThreadsAre s t s.cur.gid fun x => if x.thr ∈ s.cur.mask then { view x with pc := s.cur.next } else view x

/-! ### What some instructions do -/

/-- What MOVSW writes of one thread: %fpc, %fst, %hsp, %olth, %tepc (R81 to R84). -/
def View.wrote (v : View) (sr : Nat) (w : Word) : View :=
  if sr = 0x13 then { v with fpc := BitVec.ofNat 64 (w.toNat % 8) }
  else if sr = 0x14 then { v with fst := BitVec.ofNat 64 (w.toNat % 32) }
  else if sr = 0x15 then { v with hsp := BitVec.ofNat 64 (w.toNat / 32 * 32) }
  else if sr = 0x19 then { v with olth := BitVec.ofNat 64 (w.toNat % 2 ^ 32) }
  else if sr = 0x21 then { v with tepc := w }
  else v

/-- A PC-relative target: the instruction's own PC and four times the parcel offset, or the byte offset, modulo 2^64 (R106). -/
def relativeTo (pc : Nat) : Target → Nat
  | .parcels off => (((pc : Int) + 4 * off.toInt) % 2 ^ 64).toNat
  | .bytes off => (((pc : Int) + off.toInt) % 2 ^ 64).toNat

/-- The link register of a transfer of control, if it writes one, and its target in each thread (R55, R106, R107). -/
def transferOf (s : State) (e : Env) : Instr → Option (Option Reg × (Nat → Nat))
  | .bra _ t => some (none, fun _ => relativeTo s.cur.pc t)
  | .brx _ a b => some (none, fun n => (e.g.readReg a n + e.operand n (b.src .b64)).toNat)
  | .call _ d t => some (some d, fun _ => relativeTo s.cur.pc t)
  | .callx _ d a b => some (some d, fun n => (e.g.readReg a n + e.operand n (b.src .b64)).toNat)
  | .ret _ a | .retS a => some (none, fun n => (e.g.readReg a n).toNat)
  | _ => none

/-- Does WAIT hold a thread, whose counters are below their limits (R56, R111)? Not an instruction that waits: no. -/
def waitsAt (s : State) (gid t : Nat) : Instr → Bool
  | .wait _ ld st cp tl bk =>
    (ld != 0xFF && ld.toNat < s.wcnt gid t .ld) || (st != 0xFF && st.toNat < s.wcnt gid t .st) || (cp != 0xFF && cp.toNat < s.wcnt gid t .cp)
      || (tl != 0xFF && tl.toNat < s.wcnt gid t .mx) || (bk != 0xF && bk.toNat < s.wcnt gid t .bk)
  | .waitS ld st cp tl =>
    (ld != 0xF && ld.toNat < s.wcnt gid t .ld) || (st != 0xF && st.toNat < s.wcnt gid t .st) || (cp != 0xF && cp.toNat < s.wcnt gid t .cp)
      || (tl != 0xF && tl.toNat < s.wcnt gid t .mx)
  | _ => false

/-- The limit that WAIT puts on a thread's matrix operations: 0xFF is none (R56, R111). Not an instruction that waits: none. -/
def tileLimit : Instr → Nat
  | .wait _ _ _ _ tl _ => tl.toNat
  | .waitS _ _ _ tl => if tl = 0xF then 0xFF else tl.toNat
  | _ => 0xFF

/-- The source position of SHFL, SHFLI and BCAST in a participating thread: none where it lies outside the thread's segment (R139, R140).
Not such an instruction: none. -/
def crossSource (e : Env) (ps : List Nat) (n : Nat) : Instr → Option Nat
  | .shfl _ _ mode w _ _ b _ => segment mode (2 ^ w.toNat) (e.g.readReg b n).toNat
  | .shfli _ _ mode w _ _ imm _ => segment mode (2 ^ w.toNat) imm.toNat
  | .bcast _ _ _ _ (.lane k) => some k.toNat
  | .bcast _ _ _ _ .low => ps.head?
  | _ => none
where
  segment (mode : ShflMode) (w b : Nat) : Option Nat :=
    let k : Int := match mode with
      | .idx => (b % w : Nat)
      | .up => (n % w : Nat) - (b : Int)
      | .down => (n % w + b : Nat)
      | .xor => ((n % w) ^^^ (b % w) : Nat)
    if 0 ≤ k ∧ k < w then some (n - n % w + k.toNat) else none

/-- The bead of a source position: zero where no thread was launched (R138). -/
def Env.sourceBead (e : Env) (a : Reg) (u : Nat) : Word := if (e.g.thread? u).isSome then e.g.readReg a u else 0

/-- A source position can be read at once: it takes part, was never launched, or its register holds a value. -/
def sourceReady (s : State) (e : Env) (ps : List Nat) (a : Reg) (u : Nat) : Prop :=
  u ∈ ps ∨ e.g.thread? u = none ∨ s.regReady e u a = true

/-- The part of a bead that a cross-lane instruction of type 0 or 5 moves (R90, R139). -/
def moved (ty : Ty) (v : Word) : Word := if ty = .b64 then v else BitVec.ofNat 64 (v.toNat % 2 ^ 32)

/-! ### Operations that instructions post -/

/-- An operation that an instruction leaves to the memory system or to an engine (R85, R247): its threads, class and counter, what it
does, the pages it holds, and how its instruction is told again while it is held. -/
structure Posting where
  thrs : List Nat
  cls : Cls
  cnt : Option Cls
  kind : OpKind
  pages : List (Nat × Nat)
  hold : Option Hold

/-- The operation of the instruction in the issue slot under a name. -/
def State.posting (s : State) (e : Env) (id : Nat) (x : Posting) : Op :=
  ⟨id, e.place (x.thrs.headD 0), x.thrs, e.c.num, e.l.num, x.cls, x.cnt, x.kind, false, none, none, [], s.cycle, e.l.rcb.pri, s.cur.pc, x.pages, [], [],
    x.hold, e.g.trap.isSome⟩

/-- A state with operations posted behind the others, each named after the one before it. -/
def State.posts (s : State) (e : Env) (xs : List Posting) : State :=
  { s with ops := s.ops ++ xs.mapIdx fun k x => s.posting e (s.nextId + k) x, nextId := s.nextId + xs.length }

/-- How an instruction that is held is told again (R47, R158, R373): its encoding and the captured operands of its participating threads, the
next PC, and the second of its pair with the PC after that. -/
def State.held (s : State) (e : Env) (i : Instr) : Option Hold :=
  some ⟨⟨s.cur.pc, s.cur.enc, s.cur.lit, s.cur.len, participants s e.g i, true, false, false, (participants s e.g i).map (e.captures i), false⟩,
    s.cur.next, s.cur.pair.map fun q => (pairEntry s e.g i q s.cur.mask, q.next), false⟩

/-- The effective address of a memory instruction in a thread (R146): base plus scaled index, modulo 2^64. -/
def Env.addressOf (e : Env) (n : Nat) (m : Addr) : Nat := ((e.g.readReg m.a n).toNat + (e.operand n (m.idx.src .b64)).toNat * 2 ^ m.scale.toNat) % 2 ^ 64

/-- The memory operand of an access of at most a run of registers; that of the S forms is [a + b × 8] (R55, R146). -/
def addrOf : Instr → Option Addr
  | .ld _ _ _ _ _ _ m | .st _ _ _ _ _ m | .ldk _ _ m | .stk _ _ m _ | .ldsib _ _ _ m | .rcn _ _ _ _ m | .atom _ _ _ _ _ m _
  | .red _ _ _ _ m _ | .acas _ _ _ _ m _ => some m
  | .ldB64S _ a b | .stB64S _ a b => some ⟨a, .reg b, 3⟩
  | _ => none

/-- The address of the instruction in a thread. -/
def Env.ea (e : Env) (i : Instr) (n : Nat) : Nat := ((addrOf i).map (e.addressOf n)).getD 0

/-- LD: width, sign extension, space and destination (R55, R153). -/
def loadOf : Instr → Option (Width × Bool × Space × Reg)
  | .ld _ _ w sext sp d _ => some (w, sext, sp, d)
  | .ldB64S d _ _ => some (.w64, false, .generic, d)
  | _ => none

/-- ST: width, space and the first register of its run (R55, R153). -/
def storeOf : Instr → Option (Width × Space × Reg)
  | .st _ _ w sp d _ => some (w, sp, d)
  | .stB64S d _ _ => some (.w64, .generic, d)
  | _ => none

/-- ATOM, RED and ACAS: scratchpad space, type, counter, and what the request does at a location for some threads at one address
(R163, R164). -/
def atomicOf (e : Env) : Instr → Option (Bool × Ty × Cls × (Resolved → List Nat → Word → OpKind))
  | .atom _ sp op ty d _ c => some (sp, ty, .ld, fun r ts ea => let vals := ts.map fun n => (n, e.g.readReg c n)
      if isKeep r then .keepAtomic r.loc op ty (some d) vals ea else .atomic r.loc op ty (some d) vals ea)
  | .red _ sp op ty _ c => some (sp, ty, .st, fun r ts ea => let vals := ts.map fun n => (n, e.g.readReg c n)
      if isKeep r then .keepAtomic r.loc op ty none vals ea else .atomic r.loc op ty none vals ea)
  | .acas _ sp ty d _ c => some (sp, ty, .ld, fun r ts ea => let vals := ts.map fun n => (n, e.g.readReg c n, e.g.readReg (c + 1) n)
      if isKeep r then .keepCas r.loc ty d vals ea else .cas r.loc ty d vals ea)
  | _ => none

/-- What an instruction that names a cell posts in a thread (R156 to R161): its use, class, counter, whether it is held outside
deterministic mode, and its operation at the cell; a store carries the policy of its page (R311). -/
def cellOf (e : Env) (n : Nat) : Instr → Option (Need × Cls × Cls × Bool × (Resolved → Word → OpKind))
  | .ldk _ d _ => some ({ r := true }, .ld, .ld, false, fun r ea => .ldk r.loc d ea)
  | .ldsib _ k d _ => some ({ r := true }, .ld, .ld, false, fun r ea => .ldsib r.loc (k.toNat + 1) d ea)
  | .stk _ d _ c => some ({ w := true }, .st, .st, true, fun r ea =>
      .keepStore r.loc ((e.g.readReg c n).toNat % 2 ^ 32) (e.g.readReg d n) false ea r.policy.1 r.policy.2)
  | .rcn _ op ty d _ => some ({ r := true, w := true }, .atom, .ld, true, fun r ea => .rcn r.loc op ty d ea)
  | _ => none

/-- An instruction that names a cell passes its checks at a slot in a thread: the address is that of a slot of a KEEP page with the
permission it needs, readable, and the token is the cell's (R150, R156); RCN is not for deterministic mode (R172). -/
def cellFits (s : State) (e : Env) (i : Instr) (n : Nat) (need : Need) (r : Resolved) : Prop :=
  e.ea i n % 32 = 0 ∧ access e.c (some e.b) { need with keep := true } (e.ea i n) = .ok r ∧
  (∀ k ∈ s.cells, k.slot = r.loc → k.unreadable = false) ∧
  (match i with
    | .stk _ _ _ c => (e.g.readReg c n).toNat / 2 ^ 48 = hash16 (e.ea i n) ∧
        (e.l.det = true → ¬(Config.boardLines ≤ (s.boardLines e.b.bid).length ∧ r.loc / 64 ∉ s.boardLines e.b.bid))
    | .rcn .. => e.l.det = false
    | _ => True)

/-! ### Tags, lists, engines -/

/-- SLOOK of some threads in ascending order (R166): the bead of each, the last first, and the block after them. -/
def Block.lookAll (b : Block) (tag : Nat → Word) : List Nat → List (Nat × Word) × Block
  | [] => ([], b)
  | n :: ns => (((b.slook (tag n)).2.lookAll tag ns).1 ++ [(n, (b.slook (tag n)).1)], ((b.slook (tag n)).2.lookAll tag ns).2)

/-- What a compaction instruction posts in a thread whose domain, list and barrier pass their checks (R191 to R195). -/
def listOp (s : State) (e : Env) (n : Nat) : Instr → Option OpKind
  | .cclose _ a => (domainLoc e (e.g.readReg a n).toNat).toOption.map .cclose
  | .cappend _ a b =>
    let list := match (e.g.thread? n).bind (·.relist) with
      | some (v, pc) => if pc = s.cur.pc then v else e.g.readReg a n
      | none => e.g.readReg a n
    (s.workList e n list.toNat).toOption.map fun w => .cappend w.hdr w.dom w.base w.cap w.items (e.g.readReg b n) list
  | .ctake _ d pc a => (s.workList e n (e.g.readReg a n).toNat).toOption.map fun w => .ctake w.hdr w.base w.cap w.items d pc
  | .cdone _ a => (s.workList e n (e.g.readReg a n).toNat).toOption.map fun w => .cdone w.hdr w.dom
  | .cquiet _ a b => if (objCheck e.b (e.g.readReg b n).toNat).isSome then none
      else (domainLoc e (e.g.readReg a n).toNat).toOption.map fun d => .cquiet d (e.g.readReg b n).toNat
  | _ => none

/-- Is a matrix instruction's tile, pair and row in place for a group of threads (R196 to R201, R271)? -/
def matrixFits (e : Env) (ps : List Nat) : Instr → Prop
  | .mldw _ pair _ | .mswap _ pair => pair.toNat < e.b.pairs.length
  | .mpass _ afmt raw _ pair tile a => tile.toNat < e.b.tiles.length ∧ pair.toNat < e.b.pairs.length ∧
      ∀ n ∈ ps, (e.g.readReg a n).toNat % (if raw then 16 else 64) = 0 ∧ (e.g.readReg a n).toNat + actBytes raw afmt.toNat ≤ e.b.ssize
  | .mzero _ tile nm1 => tile.toNat + nm1.toNat < e.b.tiles.length
  | .mmov _ _ _ _ tile _ => tile.toNat < e.b.tiles.length
  | .msta _ bf16 a tile => tile.toNat < e.b.tiles.length ∧
      ∀ n ∈ ps, (e.g.readReg a n).toNat % 16 = 0 ∧ (e.g.readReg a n).toNat + (if bf16 then 256 else 512) ≤ e.b.ssize
  | _ => False

/-- The request that a matrix instruction makes for a group of threads, with the pages that it holds (R196 to R201). -/
def matrixOf (s : State) (e : Env) (ps : List Nat) : Instr → Option (OpKind × List (Nat × Nat))
  | .mldw _ pair a => ps.head?.bind fun n => (s.loadRec e n (e.g.readReg a n).toNat).toOption.map fun r => (.mldw pair.toNat r.wfmt r.runs, r.pages)
  | .mswap _ pair => some (.mswap pair.toNat, [])
  | .mpass _ afmt raw acc pair tile a => some (.mpass pair.toNat tile.toNat acc raw afmt.toNat
      (ps.map fun n => (n, ⟨scratchLoc e.b.bid (e.g.readReg a n).toNat, actBytes raw afmt.toNat, false⟩)), [])
  | .mzero _ tile nm1 => some (.mzero tile.toNat (nm1.toNat + 1), [])
  | .mmov _ ty n d tile q => some (.mmov (ty == .b32) (2 ^ n.toNat) d tile.toNat q.toNat, [])
  | .msta _ bf16 a tile => some (.msta bf16 tile.toNat (ps.map fun n => (n, scratchLoc e.b.bid (e.g.readReg a n).toNat)), [])
  | _ => none

/-- A thread's copy or bank operation is in order for the counting board (R349): in a deterministic launch every line that it writes can
be claimed. -/
def boardTakes (s : State) (e : Env) (writes : List (Nat × Nat × Nat)) : Prop :=
  e.l.det = true → ∃ ls, claimLines (s.boardLines e.b.bid).dedup writes = .ok ls

/-! ### Handlers and continuations -/

/-- The effect number that an instruction performs in a thread, with its argument (R115, R184): not a system effect number. -/
def performs (e : Env) (n : Nat) : Instr → Option (Nat × Word)
  | .perform g d b a =>
    let eff := (e.operand n (srcsOf (.perform g d b a)).b).toNat % 2 ^ 16
    if eff < 0xFF00 then some (eff, e.g.readReg a n) else none
  | .brk _ code => some (0xFF05, code.setWidth 64)
  | _ => none

/-- BRK in a launch whose effective PERM has DEBUG set requests a stop of the launch's queue (R389). -/
def State.stopFor (s : State) (e : Env) : Instr → State
  | .brk .. => if e.l.rcb.perm % 2 = 1 then { s with queues := s.queues.map fun q => if q.kick = e.l.kick then { q with stopped := true } else q } else s
  | _ => s

/-- A write to a range leaves nothing else unpredictable: no barrier object in use lies there (R240), no field that a compaction unit
changes (R191), and no activation row of a pass that a WAIT is still to cover (R199). -/
def State.noObjects (s : State) (loc n : Nat) : Prop :=
  (isScratch loc = true → ∀ b ∈ s.blocks, b.bid = (loc - scratchBase) / 2 ^ 20 → ∀ off,
    off < (loc - scratchBase) % 2 ^ 20 + n → (loc - scratchBase) % 2 ^ 20 < off + 16 → s.anyRegistered b off = false ∧ s.copyCounting b.bid off = false) ∧
  (isScratch loc = false → ∀ w ∈ s.work, overlap (loc, n) w.fields = false) ∧
  ∀ b ∈ s.blocks, ∀ x ∈ b.passed, ∀ t a l, x.row = some (t, a, l) → overlap (a, l) (loc, n) = false

/-- The 32 bytes of a frame are written at its home, and no other byte, where no field of a list or domain lies there (R191): outside
deterministic mode, where writes are staged instead (R263). -/
def FrameWritten (s t : State) (e : Env) (f : Nat) (fr : Frame) : Prop :=
  e.l.det = false → ∀ r, translate e.c (some e.b) f = .ok r → isScratch r.loc = false → s.noObjects r.loc 32 →
    ∀ a, t.byteAt a = if r.loc ≤ a ∧ a < r.loc + 32 then (fr.bytes.getD (a - r.loc) 0, false, s.keyAt (some e.c.num) r.loc)
      else s.byteAt a

/-- The frame of a handler that has been entered (R183, R184): its continuation is at `pc` with the predicates of `x`. -/
def Frame.entered (fr : Frame) (x : Thread) (pc : Nat) : Frame :=
  let fr1 := { fr with gen := nextGen fr.gen, parent := x.hsp.toNat, st := handlingSt, sys := false }
  if fr.multi then fr1 else { fr1 with save := pc / 4 * 4 + x.preds.toNat % 4, cp2 := x.preds.toNat / 4 }

/-- A range of n bytes can be accessed with a need (R150). -/
def Env.reaches (e : Env) (need : Need) (ea n : Nat) : Prop := ∃ l, accessRange e.c (some e.b) need ea n = .ok l

/-- The frame that RESUME and RESUMEM leave (R185). -/
def Resume.frame (r : Resume) (hsp : Nat) : Frame :=
  let fr := if r.fr.st = handlingSt then { r.fr with parent := hsp } else r.fr
  if fr.multi then { fr with st := resumedSt } else { fr with st := idleSt, save := 0, cp2 := 0, sys := false }

/-- The registers that a resumption writes: for RESUMEM g0 to g239, and the result of the PERFORM that it resumes. -/
def Resume.dests (r : Resume) (m : Bool) : List Reg := ((if m then (List.range 240).map (BitVec.ofNat 8) else []) ++ r.dst.toList).dedup

/-- What TOKST reports of a token in a thread (R186); none where its frame cannot be read. -/
def State.tokenState (s : State) (e : Env) (n : Nat) (w : Word) : Option Nat :=
  if w.toNat % 32 ≠ 0 then some 0
  else match s.frameAt e n (tokFrame w) with
    | .error _ => none
    | .ok fr => some (
      if fr.gen ≠ w.toNat / 2 ^ 48 ∨ s.ownToken e n w = false then 0
      else if fr.st = handlingSt then (if fr.multi then 2 else 1)
      else if fr.st = resumedSt ∧ fr.multi = true then 3 else 0)

/-! ### Traps -/

/-- What TAKING A TRAP leaves (R372): the gang is in trap mode with its cause, its mask and its replay queue; each failing thread stands
at the handler, its registers %tepc, %taddr and %tslice filled, its wait for a turn over (R144); the other threads stand where they stood; no bead
and no k register changes, nor %tmr, a recipe descriptor or anything else of the gang; and but for a trace record, and free values that the queue
holds, nothing else changes. -/
structure TrapTaken (s t : State) (e : Env) (cause sub h : Nat) (fails : List Fail) (queue : List RqEntry) (tepc : Nat) : Prop where
  only : OnlyGang { s.trapTrace e cause sub with free := t.free } t s.cur.gid
  mode : ∃ g, t.gang? s.cur.gid = some g ∧ g.trap = some ⟨cause, sub, fails.map (·.thr), queue⟩ ∧ g.tmr = e.g.tmr ∧ g.pend = e.g.pend ∧
    g.stopped = e.g.stopped ∧ g.lastTurn = e.g.lastTurn ∧ g.descs = e.g.descs
  regs : RegsSame s t s.cur.gid
  threads : ThreadsAre s t s.cur.gid fun x =>
    match fails.find? fun f => f.thr == x.thr with
    | some f => { x.view with pc := h, tepc := BitVec.ofNat 64 tepc, taddr := f.addr, tslice := f.tslice,
                              lser := if x.lser = .waiting then .none else x.lser }
    | none => x.view

/-- A trap of a gang can be taken: it is not in trap mode and not under speculation, its fault domain is not being removed, and its
region's handler can be entered (R372, R374, R375, R377). -/
structure CanTrap (s : State) (e : Env) (n h : Nat) : Prop where
  mode : e.g.trap = none
  spec : e.g.spec = none
  alive : s.removing e.c.num e.rcb.fdom = false
  handler : s.handlerPc e n = some h

/-- Instructions and special registers for trap mode only (R78, R109, R116, R117, R119): outside it they raise PRIV. -/
def needsTrapMode : Instr → Bool
  | .movs _ _ sr => 0x20 ≤ sr.toNat && sr.toNat ≤ 0x25
  | .movsw _ sr _ => 0x20 ≤ sr.toNat && sr.toNat ≤ 0x25
  | .rtt _ | .tlbinv .. | .exitSaved _ => true
  | .rqrd _ _ _ sel => sel.toNat ≤ 8
  | .rqwr _ _ _ sel => sel.toNat ≤ 8
  | _ => false

/-! ### What transitions change -/

/-- What a list of results gives a bead of the operation's gang. -/
def Op.given (o : Op) (vals : List (Reg × Word × Option (Nat × Word))) (num : Nat) : Option Word :=
  (vals.find? fun v => o.destNum v.1 == num).map (·.2.1)

/-- Beads that an operation's results reach (R91, R109): each bead named holds its result; one that was written since its issue may keep
what it held; an exited thread keeps all. -/
def BeadsGot (s t : State) (o : Op) (vals : Nat → List (Reg × Word × Option (Nat × Word))) : Prop :=
  ∀ n num, let old := s.beadOf o.place.gid n num
    let new := if n ∈ o.thrs ∧ ((s.thread? o.place.gid n).map (·.exited)) = some false then (o.given (vals n) num).getD old else old
    t.beadOf o.place.gid n num = new ∨ ((num, n) ∈ o.clob ∧ t.beadOf o.place.gid n num = old)

/-- Bytes of memory after bytes were written at a location, poisoned or not, under the key of an ENC page or none (R297); and else as before. -/
def BytesPut (s t : State) (loc : Nat) (data : List Byte) (bad : Bool) (key : Option (List Byte)) : Prop :=
  ∀ a, t.byteAt a = if loc ≤ a ∧ a < loc + data.length then (data.getD (a - loc) 0, bad, key) else s.byteAt a

/-- No byte of a range is, for a block, the destination of a copy in flight, a peer's, or changed from outside its deterministic launch (R168,
R348, R365). -/
def State.settled (s : State) (bid loc n : Nat) : Prop := ∀ k < n, s.unsure bid (loc + k) = false

/-! ### Commands -/

/-- A required field of one length. -/
def fixedField (id len : Nat) : FieldSpec := { id := id, lens := [len] }

/-- The packet of an administrative command, the fields it knows (R336), what it names (R334), and whether health state FAILED still accepts
it (R394). -/
def adminOf (s : State) : Instr → Option (Packet × List FieldSpec × (Parsed → List (Nat × Nat)) × Bool)
  | .ctxCreate p => some (p, [fixedField 2 8, fixedField 3 8, { fixedField 4 1 with req := false, ok := fun b => leNat b ≤ 63 }],
      fun q => [nameRange (q.nat 2) 128], false)
  | .ctxDestroy p => some (p, [fixedField 2 4, noFlag 3], fun q => [nameCtx (q.nat 2)], true)
  | .ctxDestroyForce p => some (p, [fixedField 2 4, fixedField 3 0], fun q => [nameCtx (q.nat 2)], true)
  | .regionDefine p => some (p, [fixedField 2 4, fixedField 3 8, noFlag 4], fun q => [nameCtx (q.nat 2)], false)
  | .regionRefresh p => some (p, [fixedField 2 4, fixedField 3 8, fixedField 4 0], fun q => [nameCtx (q.nat 2)], false)
  | .map p => some (p, mapFields ++ [noFlag 0x11 1], fun q => [nameCtx (q.nat 2), nameRange (q.nat 6) (q.nat 4)], false)
  | .mapPeer p => some (p, mapFields ++ [{ fixedField 0x11 1 with mu := true, ok := fun b => leNat b ≤ 15 }], fun q => [nameCtx (q.nat 2)], false)
  | .unmap p => some (p, [fixedField 2 4, fixedField 3 8, fixedField 4 8], fun q => [nameCtx (q.nat 2)], false)
  | .protect p => some (p, [fixedField 2 4, fixedField 3 8, fixedField 4 8, fixedField 7 2], fun q => [nameCtx (q.nat 2)], false)
  | .codeLoad p => some (p, [fixedField 2 4, fixedField 3 8, fixedField 4 4, fixedField 5 8],
      fun q => [nameCtx (q.nat 2), nameRange (q.nat 3) (q.nat 4)], false)
  | .codeUnload p => some (p, [fixedField 2 4, noFlag 3], fun q => [nameCode (q.nat 2)], false)
  | .codeUnloadForce p => some (p, [fixedField 2 4, fixedField 3 0], fun q => [nameCode (q.nat 2)], false)
  | .repack p => some (p, [fixedField 2 4, fixedField 3 1, fixedField 4 8, noFlag 5], ofCode, false)
  | .repackReplace p => some (p, [fixedField 2 4, fixedField 3 1, fixedField 4 8, fixedField 5 0], ofCode, false)
  | .graphLoad p => some (p, [fixedField 2 4, fixedField 3 8], fun q => [nameCtx (q.nat 2)], false)
  | .graphFree p => some (p, [fixedField 2 2], fun q => [nameGraph (q.nat 2)], false)
  | .queueBind p => some (p, [fixedField 2 1, fixedField 3 4, fixedField 4 8, fixedField 5 4, fixedField 6 8, fixedField 7 4, fixedField 8 8, fixedField 9 4,
      { fixedField 0x10 1 with req := false, ok := fun b => 2 ≤ leNat b && leNat b ≤ 63 }], 
      fun q => [nameQueue (q.nat 2), nameCtx (q.nat 3), nameRange (q.nat 4) (q.nat 5), nameRange (q.nat 6) (q.nat 7)], false)
  | .preemptDrain p => some (p, mode 0, ofRegion, false)
  | .preemptUrgent p => some (p, mode 1, ofRegion, false)
  | .preemptSwitch p => some (p, mode 2, ofRegion, false)
  | .preemptLift p => some (p, mode 3, ofRegion, false)
  | .migrateOut p => some (p, [fixedField 2 4, fixedField 3 8, fixedField 4 8], fun q => [nameCtx (q.nat 2), nameRange (q.nat 3) (q.nat 4)], false)
  | .migrateIn p => some (p, [fixedField 2 8, fixedField 3 8], fun q => [nameRange (q.nat 2) (s.imageLen (q.nat 2)),
      nameRange (q.nat 3) (8 * mapCount (s.imageAt (q.nat 2)))], false)
  | .telemetryCfg p => some (p, [{ fixedField 2 1 with ok := fun b => 12 ≤ leNat b && leNat b ≤ 24 }, fixedField 3 8, { fixedField 4 8 with req := false }],
      fun q => [(5, 0), nameRange (q.nat 3) (q.nat 4)], false)
  | .traceCfg p => some (p, [fixedField 2 4, fixedField 3 2, fixedField 4 8, fixedField 5 8, { fixedField 6 1 with ok := fun b => leNat b < 32 },
      { fixedField 7 1 with req := false }, noFlag 0x20, noFlag 0x21], fun q => ofRegion q ++ [nameRange (q.nat 4) (q.nat 5)], false)
  | .traceStop p => some (p, stop ++ [{ fixedField 0x20 0 with mu := true }, noFlag 0x21], ofQueue, false)
  | .traceRun p => some (p, stop ++ [fixedField 0x21 0, noFlag 0x20], ofQueue, false)
  | .keyInstall p => some (p, [{ fixedField 2 1 with ok := fun b => leNat b ≤ 63 }, fixedField 3 8], fun q => [(6, q.nat 2), nameRange (q.nat 3) 384], false)
  | .attest p => some (p, [fixedField 2 32, fixedField 3 8, fixedField 4 4, { fixedField 5 4 with req := false }],
      fun q => nameRange (q.nat 3) (q.nat 4) :: if q.has 5 then [nameCtx (q.nat 5)] else [], true)
  | .healthQuery p => some (p, [fixedField 2 8, fixedField 3 4], fun q => [nameRange (q.nat 2) (q.nat 3)], true)
  | _ => none
where
  mapFields : List FieldSpec := [fixedField 2 4, fixedField 3 8, fixedField 4 8, { fixedField 5 1 with ok := fun b => leNat b ≤ 4 }, fixedField 6 8,
    fixedField 7 2]
  ofCode (q : Parsed) : List (Nat × Nat) := nameCode (q.nat 2) :: ((s.code? (q.nat 2)).map fun o => nameCtx o.ctx).toList
  ofRegion (q : Parsed) : List (Nat × Nat) := [nameCtx (q.nat 2), nameRegion (q.nat 2) (q.nat 3)]
  ofQueue (q : Parsed) : List (Nat × Nat) := [nameCtx (q.nat 2), nameQueue (q.nat 7)]
  mode (m : Nat) : List FieldSpec := [fixedField 2 4, fixedField 3 2, { fixedField 4 1 with ok := fun b => leNat b == m }]
  stop : List FieldSpec := [fixedField 2 4, fixedField 3 2, { fixedField 4 8 with req := false }, { fixedField 5 8 with req := false },
    { fixedField 6 1 with req := false, ok := fun b => leNat b < 32 }, fixedField 7 1]

/-- Fields that cannot be honoured as the machine stands (R333, R336): CTX_CREATE's KEYSLOT without CONF, ATTEST's CTX that names no context, and
TELEMETRY_CFG's BUF of a size that is none. -/
def trimOf (s : State) (i : Instr) (q : Parsed) : List Nat :=
  match i with
  | .ctxCreate _ => if ((parseRcb (s.readPhys (q.nat 2) 128)).any fun r => r.perm / 8 % 2 == 1) then [] else [4]
  | .attest _ => if (s.ctx? (q.nat 5)).isNone then [5] else []
  | .telemetryCfg _ => if q.nat 3 ≠ 0 ∧ !isPow2 17 63 (q.nat 4) then [4] else []
  | _ => []

/-- A command can begin with the fields q: it is its turn in the ring, its packet passes the checks, a field that cannot be honoured being left out
where OPT allows it (R333, R336), no command that has not completed names what it names (R334), and the module's health accepts it (R394). -/
def Begins (s : State) (i : Instr) (q : Parsed) : Prop :=
  ∃ p specs names always q0, adminOf s i = some (p, specs, names, always) ∧ s.seqTurn p.seq = true ∧ parsePacket specs p = .ok q0 ∧
    q = q0.trim (trimOf s i q0) ∧ s.busyNames (names q) = false ∧ (s.failed = false ∨ always = true)

/-- A command has begun with status OK, its effect so far the state t: its packet has left the ring, and it waits for w (R334). -/
def State.began (s : State) (i : Instr) (q : Parsed) (t : State) (w : WaitFor) (detail : Nat) : State :=
  match adminOf s i with
  | some (p, _, names, _) => t.begun ⟨p.seq, names q, q.notify, w, stOK, q.ignored.toNat, detail⟩
  | none => t

/-- What is left when a command ends (R334, R335): it waits no longer; each barrier object that its NOTIFY names is arrived at once, where a phase
expects that, the block being one of the context, with the address in its part of the scratchpad window, and of the key; and the record says
whether an arrival was lost, or none made. -/
def State.recorded (s : State) (w : Waiting) : State :=
  let objs : List (Nat × Nat) := match w.notify with
    | none => []
    | some (ctx, addr, key) => (s.blocks.filter fun b => !b.ended && (match s.ctx? ctx, s.launch? b.launch with
        | some c, some l => l.ctx == ctx && decide (c.window + b.sbase ≤ addr ∧ addr < c.window + b.sbase + b.ssize) &&
            (key.all fun k => l.seq == k.1 && b.linear == k.2)
        | _, _ => false)).map fun b => (b.bid, addr - (((s.ctx? ctx).map (·.window)).getD 0) - b.sbase)
  let (t, lost) := objs.foldl (fun (k : State × Bool) x =>
    let o := k.1.bobj x.1 x.2
    if o.rem = 0 then (k.1, true) else (k.1.putBobj x.1 x.2 (BObj.test { o with rem := o.rem - 1 }), k.2)) (s, w.notify.isSome && objs.isEmpty)
  let u := { t with waiting := t.waiting.filter fun x => x.seq != w.seq }
  let size := u.bar.cqSize.toNat
  if size = 0 then u
  else
    let at_ := u.bar.cqBase.toNat + u.bar.cqTail.toNat
    let z := if inMap at_ 16 then
        u.poke at_ (leBytes 4 w.seq ++ leBytes 2 w.status ++ leBytes 2 (w.flags + 2 * lost.toNat) ++ leBytes 8 w.detail)
      else u
    { z with bar := { z.bar with cqTail := BitVec.ofNat 64 ((z.bar.cqTail.toNat + 16) % size) }, msix := z.msix ++ [0] }

/-- The context that a command names, when it accepts commands (R353). -/
def State.open? (s : State) (n : Nat) (c : Context) : Prop := s.ctx? n = some c ∧ c.restricted = false

/-! ### What a lane computes -/

/-- With its operands at hand the instruction completes, and each participating thread's lane answers `v` of what it reads; nothing else
changes (R89). -/
def LaneGives (i : Instr) (v : LaneIn → LaneOut) : Prop :=
  ∀ (s : State) (e : Env), AtHand i s e → e.g.sound = true →
    ∃ t, exec i s = .next t ∧ OnlyGang s t s.cur.gid ∧ Answered i s t e fun n => some (v (e.laneIn i n))

/-- The lane's one register is given bit by bit below bit w, and is zero above (R90). -/
def LaneBits (i : Instr) (d : Reg) (w : Nat) (bit : LaneIn → Nat → Bool) : Prop :=
  ∃ v : LaneIn → Word, LaneGives i (fun x => { regs := [(d, v x)] }) ∧ ∀ x k, (v x).getLsbD k = (decide (k < w) && bit x k)

/-- The lane's one register holds in each sub-element an integer modulo 2^w, and is zero above them (R61, R90). -/
def LaneSubs (i : Instr) (d : Reg) (ty : Ty) (val : LaneIn → Nat → Int) : Prop :=
  ∃ v : LaneIn → Word, LaneGives i (fun x => { regs := [(d, v x)] }) ∧
    ∀ x, (v x).toNat < 2 ^ (ty.count * ty.width) ∧ ∀ k < ty.count, sub ty (v x) k = (val x k % (2 ^ ty.width : Nat)).toNat

/-- Every special register by number, as its layout gives it (R77, R79, R80, R85 to R87). -/
def State.specialOf (s : State) (e : Env) (n sr : Nat) : Nat :=
  let x : Thread := (e.g.thread? n).getD (Thread.fresh n 0)
  let m (f : TrapMode → Nat) : Nat := (e.g.trap.map f).getD 0
  let home (v : Nat) : Nat := if e.l.det then 0xFFFF else v
  let ops (c : Cls) : Nat := (s.ops.filter fun o => o.place.gid == e.g.gid && o.cnt == some c && decide (n ∈ o.thrs)).length
  let rods (recipe : Bool) : Nat := (e.g.rods.filter fun r => match r.2 with | .recipe => recipe | .value _ => !recipe).length
  let clusters : Nat := ((List.range 50).filter fun k =>
    (decide (k < 48) || decide (UnitId.cluster e.b.die k ∈ s.sup.spares)) && decide (UnitId.cluster e.b.die k ∉ s.sup.retired)).length
  let table : List Nat := [n, e.g.idx, 32 * e.g.idx + n, e.b.nthreads, e.b.bidx, e.b.bidy, e.b.bidz, e.l.nd.nb.1, e.l.nd.nb.2.1, e.l.nd.nb.2.2,
    home e.b.core, home (e.b.core / 4), home e.b.die, e.l.region, e.c.num, e.l.seq,
    e.c.clk, s.wall e.b.die, e.g.tmr.toNat, x.fpc.toNat, x.fst.toNat, x.hsp.toNat, x.eff.toNat, x.earg.toNat, x.etok.toNat, x.olth.toNat,
    63 + 2 ^ 32 + 2 ^ 40 * clusters, e.l.det.toNat, e.g.descs.length + 2 ^ 9 * rods true + 2 ^ 18 * rods false + 2 ^ 32 * (e.g.regen % 2 ^ 16),
    ops .ld + 2 ^ 8 * ops .st + 2 ^ 16 * ops .cp + 2 ^ 24 * ops .mx + 2 ^ 32 * ops .bk, e.c.window + e.b.sbase, e.l.kparm,
    m fun m => m.cause + 2 ^ 8 * m.code, x.tepc.toNat, m fun m => (m.mask.map fun i => 2 ^ i).sum, x.taddr.toNat, x.tslice.toNat, m fun m => m.queue.length]
  table.getD sr 0

/-! ### What floating-point arithmetic gives -/

/-- The magnitude of a code without its sign (R21); past the largest finite one, codes count on as if the exponent had no end. -/
def Fmt.mag (f : Fmt) (c : Nat) : ℚ :=
  let ex := c / 2 ^ f.fbits
  ((c % 2 ^ f.fbits + (if ex = 0 then 0 else 2 ^ f.fbits) : Nat) : ℚ) * 2 ^ (1 - f.bias - f.fbits + (ex - 1 : Nat) : Int)

/-- A value before rounding: NaN, from a signalling one or an invalid operation or neither; an infinity, by division by zero or not;
(−1)^neg × mag. -/
inductive FpVal where
  | nan (invalid : Bool)
  | inf (neg byZero : Bool)
  | num (neg : Bool) (mag : ℚ)
  deriving DecidableEq

/-- What a code stands for (R21, R26). -/
def FpVal.of (f : Fmt) (x : Nat) : FpVal :=
  let neg := x / f.signBit % 2 == 1
  let c := x % f.signBit
  if c ≤ f.maxCode then .num neg (f.mag c)
  else if f.hasInf && c == f.infCode then .inf neg false
  else .nan (f.hasInf && decide (c % 2 ^ f.fbits < 2 ^ (f.fbits - 1)))

def FpVal.isNan : FpVal → Bool | .nan _ => true | _ => false
def FpVal.invalid : FpVal → Bool | .nan v => v | _ => false
def FpVal.isInf (neg : Bool) : FpVal → Bool | .inf n _ => n == neg | _ => false
def FpVal.neg : FpVal → Bool | .nan _ => false | .inf n _ | .num n _ => n
def FpVal.signed : FpVal → ℚ | .num n v => if n then -v else v | _ => 0
def FpVal.negate : FpVal → FpVal | .nan v => .nan v | .inf n z => .inf (!n) z | .num n v => .num (!n) v
def FpVal.quiet : FpVal → FpVal | .nan _ => .nan false | x => x
def FpVal.abs : FpVal → FpVal | .nan v => .nan v | .inf _ z => .inf false z | .num _ v => .num false v
/-- The value times 2^k. -/
def FpVal.scale (k : Int) : FpVal → FpVal | .num n v => .num n (v * 2 ^ k) | x => x
/-- An integer. -/
def FpVal.ofInt (k : Int) : FpVal := .num (decide (k < 0)) |(k : ℚ)|

/-- The exact sum (R27, R31, R37, R39). Toward −∞ every exact zero is −0: log entry 89. -/
def FpVal.sum (md : RM) (ts : List FpVal) : FpVal :=
  let both := ts.any (FpVal.isInf true) && ts.any (FpVal.isInf false)
  let t := (ts.map FpVal.signed).sum
  if ts.any FpVal.isNan || both then .nan (ts.any FpVal.invalid || both)
  else if ts.any (FpVal.isInf true) then .inf true false
  else if ts.any (FpVal.isInf false) then .inf false false
  else if t = 0 then .num (md == .dn || ts.all FpVal.neg) 0
  else .num (decide (t < 0)) |t|

/-- The exact product (R31). -/
def FpVal.mul : FpVal → FpVal → FpVal
  | .nan v, y => .nan (v || y.invalid)
  | _, .nan v => .nan v
  | .inf m _, .inf n _ => .inf (m != n) false
  | .inf m _, .num n v | .num n v, .inf m _ => if v = 0 then .nan true else .inf (m != n) false
  | .num m u, .num n v => .num (m != n) (u * v)

/-- The exact quotient (R31). -/
def FpVal.div : FpVal → FpVal → FpVal
  | .nan v, y => .nan (v || y.invalid)
  | _, .nan v => .nan v
  | .inf _ _, .inf _ _ => .nan true
  | .inf m _, .num n _ => .inf (m != n) false
  | .num m _, .inf n _ => .num (m != n) 0
  | .num m u, .num n v => if v = 0 then (if u = 0 then .nan true else .inf (m != n) true) else .num (m != n) (u / v)

/-- a < b; −0 equals +0. -/
def FpVal.below : FpVal → FpVal → Bool
  | .nan _, _ | _, .nan _ => false
  | .inf m _, .inf n _ => m && !n
  | .inf m _, .num _ _ => m
  | .num _ _, .inf n _ => !n
  | x, y => decide (x.signed < y.signed)

/-- A magnitude v between two neighbours goes to the greater one, by the mode (R28); `odd`: the lesser one's last bit is 1. -/
def GoesUp (md : RM) (neg odd : Bool) (lo hi v : ℝ) : Prop :=
  v ≠ lo ∧ match md with
    | .ne => lo + hi < 2 * v ∨ (lo + hi = 2 * v ∧ odd = true)
    | .tz => False
    | .up => neg = false
    | .dn => neg = true

/-- The integer that a magnitude rounds to (R28). -/
def RoundsTo (md : RM) (neg : Bool) (v : ℝ) (k : Nat) : Prop :=
  ∃ j : Nat, (j : ℝ) ≤ v ∧ v < j + 1 ∧
    ((GoesUp md neg (j % 2 == 1) j (j + 1) v ∧ k = j + 1) ∨ (¬ GoesUp md neg (j % 2 == 1) j (j + 1) v ∧ k = j))

/-- Tininess (R31): the magnitude, rounded in the mode as if the exponent had no end, where its quantum is half that of the smallest normal number,
stays below that number. -/
def Fmt.Tiny (f : Fmt) (md : RM) (neg : Bool) (v : ℝ) : Prop :=
  let normal : ℝ := 2 ^ (1 - f.bias : Int)
  let q : ℝ := 2 ^ (f.qmin - 1)
  match md, neg with
  | .ne, _ => v < normal - q / 2
  | .up, false | .dn, true => v ≤ normal - q
  | _, _ => v < normal

/-- A magnitude v > 0 rounded into the format, with its flags (R28 to R31): d is the code of the lesser neighbour, c the code rounded to; past the
largest finite code the result overflows. -/
def Fmt.Rounds (f : Fmt) (md : RM) (neg : Bool) (v : ℝ) (r : FRes) : Prop :=
  ∃ c d : Nat, (f.mag d : ℝ) ≤ v ∧ v < (f.mag (d + 1) : ℝ) ∧
    ((GoesUp md neg (d % 2 == 1) (f.mag d) (f.mag (d + 1)) v ∧ c = d + 1) ∨ (¬ GoesUp md neg (d % 2 == 1) (f.mag d) (f.mag (d + 1)) v ∧ c = d)) ∧
    r.bits = f.sign neg + (if c ≤ f.maxCode then c
      else if f.hasInf && (md == .ne || (md == .up && !neg) || (md == .dn && neg)) then f.infCode else f.maxCode) ∧
    r.fl.getLsbD 4 = false ∧ r.fl.getLsbD 3 = false ∧ (r.fl.getLsbD 2 = true ↔ f.maxCode < c) ∧
    (r.fl.getLsbD 1 = true ↔ c ≤ f.maxCode ∧ v ≠ (f.mag d : ℝ) ∧ f.Tiny md neg v) ∧
    (r.fl.getLsbD 0 = true ↔ f.maxCode < c ∨ v ≠ (f.mag d : ℝ))

/-- A value delivered in a format that has infinities (R25, R29, R31). -/
def Fmt.Gives (f : Fmt) (md : RM) (x : FpVal) (r : FRes) : Prop :=
  match x with
  | .nan v => r = ⟨f.nan, flagIf v flNV⟩
  | .inf n z => r = ⟨f.sign n + f.infCode, flagIf z flDZ⟩
  | .num n v => (v = 0 → r = ⟨f.sign n, 0⟩) ∧ (v ≠ 0 → f.Rounds md n v r)

/-- A conversion's result, E4M3's NaN for an infinity and SATF among them (R29, R30, R32, R129). -/
def Fmt.Takes (f : Fmt) (md : RM) (satf : Bool) (x : FpVal) (r : FRes) : Prop :=
  if f.hasInf = false ∧ (∃ n z, x = .inf n z) then r = ⟨f.nan, flNV⟩
  else if satf = true ∧ f.hasInf = true then match x with
    | .inf n _ => r = ⟨f.sign n + f.maxCode, 0⟩
    | _ => ∃ y, f.Gives md x y ∧ r = if y.fl.getLsbD 2 then ⟨f.sign x.neg + f.maxCode, flOF ||| flNX⟩ else y
  else f.Gives md x r

/-- The square root (R31, R42). -/
def Fmt.Root (f : Fmt) (md : RM) (x : FpVal) (r : FRes) : Prop :=
  match x with
  | .nan v => r = ⟨f.nan, flagIf v flNV⟩
  | .inf n _ => r = if n then ⟨f.nan, flNV⟩ else ⟨f.infCode, 0⟩
  | .num n v => (v = 0 → r = ⟨f.sign n, 0⟩) ∧ (v ≠ 0 → n = true → r = ⟨f.nan, flNV⟩) ∧ (v ≠ 0 → n = false → f.Rounds md false (Real.sqrt v) r)

/-- FRND (R125): the integral value of the same format. -/
def Fmt.Integral (f : Fmt) (md : RM) (code : Nat) (r : FRes) : Prop :=
  match FpVal.of f code with
  | .nan v => r = ⟨f.nan, flagIf v flNV⟩
  | .inf _ _ => r = ⟨code, 0⟩
  | .num n v => ∃ k c : Nat, RoundsTo md n v k ∧ c ≤ f.maxCode ∧ f.mag c = k ∧ r = ⟨f.sign n + c, flagIf (decide (v ≠ k)) flNX⟩

/-- FMIN and FMAX (R26): −0 lies below +0. -/
def Fmt.least (f : Fmt) (max : Bool) (a b : Nat) : FRes :=
  let x := FpVal.of f a
  let y := FpVal.of f b
  let before (x y : FpVal) : Bool := x.below y || (x == .num true 0 && y == .num false 0)
  ⟨if x.isNan && y.isNan then f.nan else if x.isNan then b else if y.isNan then a
    else if (if max then before y x else before x y) then a else b, flagIf (x.invalid || y.invalid) flNV⟩

/-- Special inputs of the special functions whose result sets a flag other than NX alone (R41). -/
def sfuFlagged (fn : Sfu) (x : FpVal) : Option FRes :=
  let nan : Option FRes := some ⟨fmt32.nan, flNV⟩
  let inf (n : Bool) (fl : FlagSet) : Option FRes := some ⟨fmt32.sign n + fmt32.infCode, fl⟩
  match fn, x with
  | _, .nan v => some ⟨fmt32.nan, flagIf v flNV⟩
  | .sin, .inf _ _ | .cos, .inf _ _ => nan
  | .log2, .inf true _ | .rsq, .inf true _ => nan
  | .exp2, .num false v => if 128 ≤ v then inf false (flOF ||| flNX) else none
  | .log2, .num n v => if v = 0 then inf true flDZ else if n then nan else none
  | .rcp, .num n v => if v = 0 then inf n flDZ else none
  | .rsq, .num n v => if v = 0 then inf n flDZ else if n then nan else none
  | _, _ => none

/-- The exact cases and the special inputs without a flag (R41): the value of the result. -/
def SfuExact (fn : Sfu) (x y : FpVal) : Prop :=
  match fn, x with
  | .exp2, .num n v => ∃ k : Int, (FpVal.num n v).signed = k ∧ k < 128 ∧ y = .num false (2 ^ k)
  | .exp2, .inf n _ => y = if n then .num false 0 else .inf false false
  | .log2, .num n v => n = false ∧ ∃ k : Int, v = 2 ^ k ∧ y = .ofInt k
  | .log2, .inf n _ => n = false ∧ y = .inf false false
  | .rcp, .num n v => ∃ k : Int, v = 2 ^ k ∧ y = .num n (2 ^ (-k))
  | .rcp, .inf n _ => y = .num n 0
  | .rsq, .num n v => n = false ∧ ∃ k : Int, v = 2 ^ (2 * k) ∧ y = .num false (2 ^ (-k))
  | .rsq, .inf n _ => n = false ∧ y = .num false 0
  | .sin, .num n v => v = 0 ∧ y = .num n 0
  | .cos, .num _ v => v = 0 ∧ y = .num false 1
  | .tanh, .num n v => v = 0 ∧ y = .num n 0
  | .tanh, .inf n _ => y = .num n 1
  | .sigm, .num _ v => v = 0 ∧ y = .num false (1 / 2)
  | .sigm, .inf n _ => y = .num false (if n then 0 else 1)
  | _, _ => False

/-- The lane's one register holds in each sub-element the bits of a result, and is zero above them; the flags are the union (R31, R61, R90, R121). -/
def LaneFloats (i : Instr) (d : Reg) (ty : Ty) (res : LaneIn → Nat → FRes → Prop) : Prop :=
  ∃ (v : LaneIn → Word) (fl : LaneIn → FlagSet), LaneGives i (fun x => { regs := [(d, v x)], fl := fl x }) ∧
    ∀ x, (v x).toNat < 2 ^ (ty.count * ty.width) ∧ ∃ rs : Nat → FRes, (∀ k < ty.count, res x k (rs k) ∧ sub ty (v x) k = (rs k).bits) ∧
      ∀ j, (fl x).getLsbD j = true ↔ ∃ k < ty.count, (rs k).fl.getLsbD j = true

/-! ### Conversion, blocks, runs -/

/-- A source element's value (R22, R23, R32). -/
def FpVal.elem (ty : Ty) (x : Nat) : FpVal :=
  match Ty.fmt ty with
  | some f => .of f x
  | none => if ty = .n4x16 ∧ x = 8 then .num false 0 else .ofInt (ty.int x)

/-- The source element that position k of the destination takes; none where it keeps its value (R130). -/
def matched (dst src : Ty) (h k : Nat) : Option Nat :=
  if dst.count ≤ src.count then some (dst.count * h + k)
  else if src.count * h ≤ k ∧ k < src.count * h + src.count then some (k - src.count * h) else none

/-- Least and greatest integer of a destination (R32). -/
def intRange (ty : Ty) : Int × Int :=
  match ty with
  | .s8x8 => (-127, 127)
  | .n4x16 => (-7, 7)
  | .s16x4 => (-32768, 32767)
  | .s32 => (-2 ^ 31, 2 ^ 31 - 1)
  | .z32 => (0, 2 ^ 32 - 1)
  | .s64 => (-2 ^ 63, 2 ^ 63 - 1)
  | _ => (0, 2 ^ 64 - 1)

/-- The code of an integer in a sub-element. -/
def intCode (ty : Ty) (k : Int) : Nat := (k % (2 ^ ty.width : Nat)).toNat

/-- One element's conversion by CVT (R32, R129). -/
def Converts (dst src : Ty) (md : RM) (satf : Bool) (x : Nat) (r : FRes) : Prop :=
  match Ty.fmt dst with
  | some f => f.Takes md satf (.elem src x) r
  | none =>
    let (lo, hi) := intRange dst
    let fl (v : FlagSet) : FlagSet := if (Ty.fmt src).isSome then v else 0
    match FpVal.elem src x with
    | .nan _ => r = ⟨0, flNV⟩
    | .inf n _ => r = ⟨intCode dst (if n then lo else hi), flNV⟩
    | .num n v => ∃ k : Nat, RoundsTo md n v k ∧
      let i : Int := if n then -(k : Int) else k
      r = if i < lo then ⟨intCode dst lo, fl flNV⟩ else if hi < i then ⟨intCode dst hi, fl flNV⟩
        else ⟨intCode dst i, fl (flagIf (decide (v ≠ k)) flNX)⟩

/-- The marker of a block type that has one (R34). -/
def markerOf (ty : Ty) : Option Nat :=
  match ty with
  | .s8x8 => some 0x80
  | .n4x16 => some 8
  | _ => none

/-- Does CVTQ mark an element x, with scale byte e and threshold T (R134)? -/
def outlierOf (x : FpVal) (e : Nat) (T : FpVal) : Bool := x.isNan || e == 255 || T.below x.abs

/-- One element of CVTQ (R134). That a signalling NaN sets NV also where the scale makes the result a NaN is R26 and R31; that nothing else sets a
flag there is log entry 111. -/
def Quantises (dst : Ty) (md : RM) (satf : Bool) (e : Nat) (T x : FpVal) (r : FRes) : Prop :=
  match Ty.fmt dst, markerOf dst with
  | _, some m => if outlierOf x e T then r = ⟨m, 0⟩
    else
      let hi := (intRange dst).2
      match x.scale (127 - (e : Int)) with
      | .nan _ => False
      | .inf n _ => r = ⟨intCode dst (if n then -hi else hi), flNV⟩
      | .num n v => ∃ k : Nat, RoundsTo md n v k ∧
        r = if hi < (k : Int) then ⟨intCode dst (if n then -hi else hi), flOF ||| flNX⟩
          else ⟨intCode dst (if n then -(k : Int) else k), flagIf (decide (v ≠ k)) flNX⟩
  | some f, none => if e = 255 then r = ⟨f.nan, flagIf x.invalid flNV⟩ else f.Takes md satf (x.scale (127 - (e : Int))) r
  | none, none => False

/-- BLKHDR's scale by amax (R133): the largest finite value of each format, and the smallest power of two that covers the magnitude. -/
def Covers (ty : Ty) (m : FpVal) (e : Nat) : Prop :=
  let F : ℚ := match ty with
    | .bf16x4 => (2 - 2 ^ (-7 : Int)) * 2 ^ 127 | .f16x4 => 65504 | .e4m3x8 => 448 | .e5m2x8 => 57344 | .s8x8 => 127 | .n4x16 => 7
    | _ => (2 - 2 ^ (-23 : Int)) * 2 ^ 127
  match m with
  | .num _ v => if v = 0 then e = 127 else ∃ s : Int, v ≤ F * 2 ^ s ∧ F * 2 ^ (s - 1) < v ∧ (e : Int) = max 0 (min 254 (127 + s))
  | _ => e = 255

/-- Format code of a block type (R131, R133). -/
def codeOf (ty : Ty) : Nat :=
  match ty with
  | .bf16x4 => 1 | .f16x4 => 2 | .e4m3x8 => 3 | .e5m2x8 => 4 | .s8x8 => 5 | .n4x16 => 6 | .f32x2 => 7 | _ => 0

/-- An element under its block's scale byte, `j` markers before it and `side` the side list (R36). -/
def decoded (ty : Ty) (scale : Nat) (side : Nat → Nat) (j x : Nat) : FpVal :=
  if scale = 255 then .nan false
  else ((if markerOf ty = some x then (if j < 3 then FpVal.of fmtBf16 (side j) else .num false 0) else .elem ty x).quiet).scale ((scale : Int) - 127)

/-- The exact value of a decoded element. -/
def FpVal.ofFp : Fp → FpVal
  | .nan s => .nan s
  | .inf n => .inf n false
  | .fin n m e => .num n (m * 2 ^ e)

/-- One block of R37: acc := Round(acc + Round(s)). -/
def StepsBy (ps : List (Fp × Fp)) (acc res : W32) : Prop :=
  ∃ s r : FRes, fmt32.Gives .ne (FpVal.sum .ne (ps.map fun p => (FpVal.ofFp p.1).mul (.ofFp p.2))) s ∧
    fmt32.Gives .ne (FpVal.sum .ne [.of fmt32 acc.toNat, .of fmt32 s.bits]) r ∧ res = BitVec.ofNat 32 r.bits

end Sys2Proof.Machine
end

