-- ==== Sys2Proof/Certificates/Slice0/Obligations.lean ====
section
/-! DEFINITION. The statements for the provers. -/

open Host Sys2Proof Sys2Proof.Machine

/-! ### Instructions that every lane computes from its own operands -/

/-- Completion, result and frame of every instruction that each lane computes from its own operands (R89, R58): the S forms of moves,
arithmetic, logic and shifts (movS, iaddS, isubS, andS, orS, xorS, shlS, shrS, imulS, faddF32S, fmulF32S, faddF32x2S, fmulF32x2S,
faddBf16x4S, fmulBf16x4S, iaddImmS, shlImmS, shrImmS), mov, movi, sel, iadd, isub, iaddc, isubb, imul, imulh, imad, idiv, irem, ineg,
iabs, imin, imax, iadds, isubs, lea, and, or, xor, andn, not, shl, shr, sar, rot, bfe, bfi, popc, clz, ctz, brev, bperm, setp, plop,
pmov, fadd, fsub, fmul, ffma, fmin, fmax, fsetp, frnd, fscale, fclass, fdot, fdiv, fsqrt, frcp, frsq, fexp2, flog2, fsin, fcos, ftanh,
fsigm, cvt, cvtq, olpack, olunpk, blkhdr, dq, pack, unpack. With its operands at hand it answers a next state: in the threads of the
issue group whose guard is true the destination registers hold what the lane computes, predicates and sticky flags are updated; the
whole group stands at the next instruction; no other register, thread, gang, byte of memory or piece of state changes. -/
def Obligations.LaneCompletes : Prop :=
  ∀ (i : Instr) (s : State) (e : Env), isLane i = true → AtHand i s e → e.g.sound = true →
    ∃ t, exec i s = .next t ∧ OnlyGang s t s.cur.gid ∧ Answered i s t e fun n => laneValue i (e.laneIn i n)

/-! ### Special registers, control, pacing -/

/-- MOVS and MOVSW (R77 to R87, R104, R374). MOVS of any special register, a trap-mode register in trap mode only: every participating thread
receives what the register's layout gives (%tid, %wall, %wcnt, %feat and the others), changing nothing else. MOVSW of the private registers
%fpc, %fst, %hsp, %olth and, in trap mode, %tepc, with a legal rounding mode; of %tmr; and of %tmask in trap mode: each participating thread's
register holds its operand under the register's layout; %tmr takes the value of the highest one; threads whose bit of %tmask it clears leave
trap mode for their %tepc. Nothing else changes. -/
def Obligations.SpecialRegisters : Prop :=
  (∀ (g : Guard) (d : Reg) (sr : BitVec 8) (s : State) (e : Env), AtHand (.movs g d sr) s e → e.g.sound = true → sr.toNat ≤ 0x25 →
    (0x20 ≤ sr.toNat → e.g.trap.isSome = true) →
    ∃ t, exec (.movs g d sr) s = .next t ∧ OnlyGang s t s.cur.gid ∧
      Answered (.movs g d sr) s t e fun n => some { regs := [(d, BitVec.ofNat 64 (s.specialOf e n sr.toNat))] }) ∧
  (∀ (g : Guard) (sr : BitVec 8) (src : Opnd) (s : State) (e : Env), AtHand (.movsw g sr src) s e →
    (sr ∈ [0x13#8, 0x14#8, 0x15#8, 0x19#8] ∨ sr = 0x21#8 ∧ e.g.trap.isSome = true) →
    (sr = 0x13#8 → ∀ n ∈ participants s e.g (.movsw g sr src), 1 ≤ (e.operand n src.srcZ).toNat % 8 ∧ (e.operand n src.srcZ).toNat % 8 ≤ 4) →
    ∃ t, exec (.movsw g sr src) s = .next t ∧ Went s t (fun _ _ => none) fun x =>
      if x.thr ∈ participants s e.g (.movsw g sr src) then x.view.wrote sr.toNat (e.operand x.thr src.srcZ) else x.view) ∧
  (∀ (g : Guard) (src : Opnd) (s : State) (e : Env) (n : Nat), AtHand (.movsw g 0x12 src) s e → (participants s e.g (.movsw g 0x12 src)).getLast? = some n →
    ∃ t, exec (.movsw g 0x12 src) s = .next t ∧
      Went (s.modGang s.cur.gid fun x => { x with tmr := e.operand n src.srcZ }) t (fun _ _ => none) Thread.view) ∧
  ∀ (g : Guard) (src : Opnd) (s : State) (e : Env) (n : Nat) (m : TrapMode), AtHand (.movsw g 0x22 src) s e →
    (participants s e.g (.movsw g 0x22 src)).getLast? = some n → e.g.trap = some m →
    let stays (u : Nat) : Bool := (e.operand n src.srcZ).getLsbD u
    ∃ t, exec (.movsw g 0x22 src) s = .next t ∧ OnlyGang s t s.cur.gid ∧ RegsSame s t s.cur.gid ∧
      (ThreadsAre s t s.cur.gid fun x => if x.thr ∈ m.mask ∧ stays x.thr = false then { x.view with pc := x.tepc.toNat } else wentOn s x) ∧
      GangKept (s.modGang s.cur.gid fun x =>
        { x with trap := if m.mask.all (fun u => !stays u) then none else some { m with mask := m.mask.filter stays } }) t

/-- BRA, BRX, CALL, CALLX and RET, in both forms (R105 to R108), whose targets all pass R45: each participating thread stands at its
own target, a link register holds the address that sequential fetch would reach, the other threads of the group go on, and nothing
else changes. -/
def Obligations.TransfersComplete : Prop :=
  ∀ (i : Instr) (s : State) (e : Env) (link : Option Reg) (target dest : Nat → Nat), transferOf s e i = some (link, target) →
    AtHand i s e → e.g.sound = true →
    (∀ n ∈ participants s e.g i, checkTarget s e.c (e.place n).units true (target n) = .ok (dest n)) →
    ∃ t, exec i s = .next t ∧ OnlyGang s t s.cur.gid ∧ SameBytes s t ∧ GangKept s t ∧
      RegsAre s t s.cur.gid (fun n r => if n ∈ participants s e.g i ∧ link = some r then some (BitVec.ofNat 64 s.cur.next) else none) ∧
      ThreadsAre s t s.cur.gid fun x => if x.thr ∈ participants s e.g i then { x.view with pc := dest x.thr } else wentOn s x

/-- NOP, PREF, YIELD in both forms, WAIT in both forms with every counter at or below its limit, LSEND outside a turn, WTIME whose deadline has
passed, which gives d the current %wall, LSER of a thread that may begin its turn, and LSEND inside a turn, which ends it (R56, R110 to R112,
R144, R162, R199, R245): the issue group goes on, and nothing else changes but that a WAIT covers the passes that its limit lets it. -/
def Obligations.PacingCompletes : Prop :=
  (∀ (i : Instr) (s : State) (e : Env),
    (match i with
      | .nop _ | .pref .. | .yield _ | .yieldS | .wait .. | .waitS .. | .lsend _ => True
      | _ => False) →
    AtHand i s e → (∀ n ∈ participants s e.g i, waitsAt s s.cur.gid n i = false) →
    (∀ n ∈ participants s e.g i, ∀ g, i = .lsend g → ∀ x, e.g.thread? n = some x → x.lser ≠ .turn) →
    ∃ t, exec i s = .next t ∧ Went (s.coverPasses e (participants s e.g i) (tileLimit i)) t (fun _ _ => none) Thread.view) ∧
  (∀ (g : Guard) (d a : Reg) (s : State) (e : Env), AtHand (.wtime g d a) s e → e.g.sound = true →
    (∀ n ∈ participants s e.g (.wtime g d a), (e.g.readReg a n).toNat ≤ s.wall e.b.die) →
    ∃ t, exec (.wtime g d a) s = .next t ∧
      Went s t (fun n r => if n ∈ participants s e.g (.wtime g d a) ∧ r = d then some (BitVec.ofNat 64 (s.wall e.b.die)) else none) Thread.view) ∧
  (∀ (g : Guard) (s : State) (e : Env) (n : Nat), AtHand (.lser g) s e → participants s e.g (.lser g) = [n] →
    s.turnFree e e.g = true → (∀ y ∈ e.g.threads, y.thr < n → y.lser ≠ .waiting) →
    ∃ t, exec (.lser g) s = .next t ∧ Went s t (fun _ _ => none) fun x => if x.thr = n then { x.view with lser := .turn } else x.view) ∧
  ∀ (g : Guard) (s : State) (e : Env) (n : Nat), AtHand (.lsend g) s e → participants s e.g (.lsend g) = [n] →
    (e.g.thread? n).map (·.lser) = some .turn →
    ∃ t, exec (.lsend g) s = .next t ∧
      Went (State.modGang { s with nextId := s.nextId + 1 } s.cur.gid fun x => { x with lastTurn := some (n, s.nextId) }) t (fun _ _ => none)
        fun x => if x.thr = n then { x.view with lser := .none } else x.view

/-! ### Cross-lane instructions -/

/-- VOTE in its four modes, REDUX, SCANX and MATCH (R40, R141 to R143): ballot writes the set of threads whose predicate is true, the other modes
a predicate; every participating thread receives the root of the tree over the participating threads, SCANX over those below it; MATCH
gives the set of threads that hold the thread's own value, and whether that is all of them. -/
def Obligations.VotesComplete : Prop :=
  (∀ (g : Guard) (mode : VoteMode) (inv : Bool) (d : Reg) (pa : Pred) (s : State) (e : Env), AtHand (.vote g mode inv d pa) s e →
    e.g.sound = true →
    let ps := participants s e.g (.vote g mode inv d pa)
    let yes := ps.filter fun n => ((e.g.thread? n).map fun x => x.pred pa).getD false != inv
    let res := match mode with
      | .ballot => false
      | .all => decide (∀ n ∈ ps, n ∈ yes)
      | .any => decide (∃ n ∈ ps, n ∈ yes)
      | .eq => decide ((∀ n ∈ ps, n ∈ yes) ∨ ∀ n ∈ ps, n ∉ yes)
    ∃ t, exec (.vote g mode inv d pa) s = .next t ∧
      Went s t (fun n r => if mode = .ballot ∧ n ∈ ps ∧ r = d then some (BitVec.ofNat 64 (yes.map fun k => 2 ^ k).sum) else none)
        fun x => if mode ≠ .ballot ∧ x.thr ∈ ps then (x.setPred (d.setWidth 3) res).view else x.view) ∧
  (∀ (i : Instr) (g : Guard) (op : RedOp) (ty : Ty) (rnd : Rnd) (d a : Reg) (s : State) (e : Env),
    (i = .redux g op ty rnd d a ∨ i = .scanx g op ty rnd d a) → AtHand i s e → e.g.sound = true →
    let ps := participants s e.g i
    let mode := RM.of rnd (((ps.head?.bind fun n => e.g.thread? n).map (·.fpc)).getD 1)
    let among (n : Nat) : List Nat := if i = .redux g op ty rnd d a then ps else ps.filter (· < n)
    ∃ t, exec i s = .next t ∧ OnlyGang s t s.cur.gid ∧ Answered i s t e fun n =>
      let r := reduce op ty mode ((among n).map fun u => (u, e.g.readReg a u))
      some { regs := [(d, valMov ty r.1)], fl := r.2 }) ∧
  ∀ (g : Guard) (ty : Ty) (d a : Reg) (pc : Pred) (s : State) (e : Env), AtHand (.matchv g ty d a pc) s e → e.g.sound = true →
    let ps := participants s e.g (.matchv g ty d a pc)
    let same (n : Nat) : List Nat := ps.filter fun u => valMov ty (e.g.readReg a u) == valMov ty (e.g.readReg a n)
    ∃ t, exec (.matchv g ty d a pc) s = .next t ∧
      Went s t (fun n r => if n ∈ ps ∧ r = d then some (BitVec.ofNat 64 ((same n).map fun k => 2 ^ k).sum) else none)
        fun x => if x.thr ∈ ps then (x.setPred pc (decide (∀ n ∈ ps, n ∈ same x.thr))).view else x.view

/-- SHFL, SHFLI and BCAST whose sources can be read (R138 to R140): a participating thread receives its source's bead, or its own with the
predicate false where the source lies outside its segment. -/
def Obligations.ShufflesComplete : Prop :=
  ∀ (i : Instr) (ty : Ty) (d a : Reg) (pc : Option Pred) (s : State) (e : Env),
    (match i with
      | .shfl _ ty' _ _ d' a' _ pc' | .shfli _ ty' _ _ d' a' _ pc' => ty' = ty ∧ d' = d ∧ a' = a ∧ pc = some pc'
      | .bcast _ ty' d' a' _ => ty' = ty ∧ d' = d ∧ a' = a ∧ pc = none
      | _ => False) →
    (ty = .b32 ∨ ty = .b64) → AtHand i s e → e.g.sound = true →
    let ps := participants s e.g i
    (∀ n ∈ ps, ∀ u, crossSource e ps n i = some u → sourceReady s e ps a u) →
    ∃ t, exec i s = .next t ∧
      Went { s with nextId := t.nextId } t (fun n r => if n ∈ ps ∧ r = d then some (moved ty (match crossSource e ps n i with
          | some u => e.sourceBead a u
          | none => e.g.readReg a n)) else none)
        fun x => match pc with
          | some p => if x.thr ∈ ps then (x.setPred p (crossSource e ps x.thr i).isSome).view else x.view
          | none => x.view

/-! ### Memory -/

/-- LD and ST in both forms (R55, R85, R153, R158, R247, R349), a load not under speculation: with an address that passes the checks of R150 in
every participating thread and room in its counter, each thread posts one load, or one store of the bytes of its run, held at a KEEP page outside
deterministic mode, and the group goes on; no register, thread, byte or other piece of state changes. BIND writes a load's beads;
PERFORM_STORE, or HOME at a KEEP page, writes memory. -/
def Obligations.AccessesPost : Prop :=
  (∀ (i : Instr) (s : State) (e : Env) (w : Width) (sext : Bool) (sp : Space) (d : Reg) (r : Nat → Resolved), loadOf i = some (w, sext, sp, d) →
    AtHand i s e → e.g.spec = none →
    let use := if sp = .constant then Use.constant else Use.load
    (∀ n ∈ participants s e.g i, accessCheck s e sp use w.bytes [] (e.ea i n) = none ∧ resolveAt e sp use (e.ea i n) = .ok (r n) ∧
      s.wcnt s.cur.gid n .ld < 254) →
    ∃ t, exec i s = .next t ∧
      Went (s.posts e ((participants s e.g i).map fun n =>
        ⟨[n], .ld, some .ld, loadKind (r n) w.bytes d sext (BitVec.ofNat 64 (e.ea i n)) (sp == .constant), (r n).pageAt, none⟩)) t (fun _ _ => none) Thread.view) ∧
  ∀ (i : Instr) (s : State) (e : Env) (w : Width) (sp : Space) (d : Reg) (r : Nat → Resolved), storeOf i = some (w, sp, d) → AtHand i s e →
    let ps := participants s e.g i
    let own (n : Nat) : List Nat := (ps.filter fun u => u < n ∧ ¬isScratch (r u).loc).map fun u => (r u).loc / 64
    (∀ n ∈ ps, accessCheck s e sp .store w.bytes (if e.l.det then (s.boardLines e.b.bid ++ own n).dedup else []) (e.ea i n) = none ∧
      resolveAt e sp .store (e.ea i n) = .ok (r n) ∧ s.wcnt s.cur.gid n .st < 254) →
    let data (n : Nat) : List Byte := ((regRun d w.regs).flatMap fun q => leBytes 8 (e.g.readReg q n).toNat).take w.bytes
    ∃ t, exec i s = .next t ∧
      Went (s.posts e (ps.map fun n => if isKeep (r n)
        then ⟨[n], .st, some .st, .keepStore (r n).loc 0 (e.g.readReg d n) false (BitVec.ofNat 64 (e.ea i n)) (r n).policy.1 (r n).policy.2,
          (r n).pageAt, if e.l.det then none else s.held e i⟩
        else ⟨[n], .st, some .st, .store (r n).loc (data n) false, (r n).pageAt, none⟩)) t (fun _ _ => none) Thread.view

/-- ATOM, RED and ACAS (R163 to R165): the participating threads that name one address post one request, in the order of their lowest
threads, held at a KEEP page, and the group goes on; nothing else changes. ATOMIC or HOME does the step. -/
def Obligations.AtomicsPost : Prop :=
  ∀ (i : Instr) (s : State) (e : Env) (sp : Bool) (ty : Ty) (cnt : Cls) (kind : Resolved → List Nat → Word → OpKind) (r : Nat → Resolved),
    atomicOf e i = some (sp, ty, cnt, kind) → AtHand i s e →
    let ps := participants s e.g i
    let space := if sp then Space.scratch else .generic
    (∀ n ∈ ps, accessCheck s e space .atomic (ty.width / 8) [] (e.ea i n) = none ∧ resolveAt e space .atomic (e.ea i n) = .ok (r (e.ea i n)) ∧
      s.wcnt s.cur.gid n cnt < 254) →
    ∃ t, exec i s = .next t ∧
      Went (s.posts e ((ps.map (e.ea i)).dedup.map fun a =>
        let ts := ps.filter fun n => e.ea i n = a
        ⟨ts, .atom, some cnt, kind (r a) ts (BitVec.ofNat 64 a), (r a).pageAt, if isKeep (r a) then s.held e i else none⟩)) t
        (fun _ _ => none) Thread.view

/-- LDK, LDSIB, STK and RCN (R156 to R161): each participating thread that passes its checks posts one operation at its cell, STK and RCN
held outside deterministic mode (of RCN the model's reading of R278 and R286: log entry 18), and the group goes on; nothing else changes. HOME
does the step. -/
def Obligations.CellsPost : Prop :=
  ∀ (i : Instr) (s : State) (e : Env) (need : Need) (cls cnt : Cls) (hold : Bool) (kind : Nat → Resolved → Word → OpKind) (r : Nat → Resolved),
    (∀ n, cellOf e n i = some (need, cls, cnt, hold, kind n)) → AtHand i s e →
    (∀ n ∈ participants s e.g i, cellFits s e i n need (r n) ∧ s.wcnt s.cur.gid n cnt < 254) →
    ∃ t, exec i s = .next t ∧
      Went (s.posts e ((participants s e.g i).map fun n =>
        ⟨[n], cls, some cnt, kind n (r n) (BitVec.ofNat 64 (e.ea i n)), (r n).pageAt, if hold && !e.l.det then s.held e i else none⟩)) t
        (fun _ _ => none) Thread.view

/-- FENCE and OFENCE (R169, R170, R253, R257): FENCE of two sets that are not empty enters a marker for each participating thread behind the
fences that still hold something back, and goes on at once; OFENCE goes on when what its threads have observed is visible to the operand
readers of their clusters, and from then on what each of them sees now is the oldest that its matrix operations may read. Nothing else
changes. -/
def Obligations.FencesComplete : Prop :=
  (∀ (g : Guard) (scope : Scope) (pred succ : BitVec 7) (s : State) (e : Env), AtHand (.fence g scope pred succ) s e →
    let marks : List FenceMark := if pred = 0 ∨ succ = 0 then []
      else (participants s e.g (.fence g scope pred succ)).mapIdx fun k n => ⟨s.nextId + k, e.place n, scope, pred, succ⟩
    ∃ t, exec (.fence g scope pred succ) s = .next t ∧
      Went { s with fences := (s.fences.filter fun f => ¬s.fenceOk f ∨ s.isDetBlock f.place.bid) ++ marks, nextId := s.nextId + marks.length } t
        (fun _ _ => none) Thread.view) ∧
  ∀ (g : Guard) (s : State) (e : Env), AtHand (.ofence g) s e → (∀ n ∈ participants s e.g (.ofence g), s.observedOut (e.place n) = true) →
    ∃ t, exec (.ofence g) s = .next t ∧ Went s t (fun _ _ => none) Thread.view ∧
      ∀ n ∈ participants s e.g (.ofence g), (t.thread? s.cur.gid n).map (·.snap) = (e.g.thread? n).map fun _ => s.snapAt (e.place n).units

/-- SLOOK and STAG (R166, R237): SLOOK's threads look their tags up in ascending order, each receiving the slot of a hit or the victim of a
miss; STAG's set their slots, in ascending order. The block's tag table changes so, and nothing else does. -/
def Obligations.TagsComplete : Prop :=
  (∀ (g : Guard) (d a : Reg) (s : State) (e : Env), AtHand (.slook g d a) s e → e.g.sound = true →
    let ps := participants s e.g (.slook g d a)
    let tag (n : Nat) : Word := e.g.readReg a n
    ∃ t, exec (.slook g d a) s = .next t ∧
      Went (s.modBlock e.b.bid fun b => (b.lookAll tag ps).2) t (fun n r => if r = d then alGet (e.b.lookAll tag ps).1 n else none) Thread.view) ∧
  ∀ (g : Guard) (a b : Reg) (s : State) (e : Env), AtHand (.stag g a b) s e →
    let slot (n : Nat) : Nat := (e.g.readReg a n).toNat % 2 ^ 32
    (∀ n ∈ participants s e.g (.stag g a b), slot n < e.b.tags.length) →
    ∃ t, exec (.stag g a b) s = .next t ∧
      Went (s.modBlock e.b.bid fun x => (participants s e.g (.stag g a b)).foldl (fun x n => x.stag (slot n) (e.g.readReg b n)) x) t
        (fun _ _ => none) Thread.view

/-! ### Engines -/

/-- CCLOSE, CAPPEND, CTAKE, CDONE and CQUIET (R172, R192 to R195), outside deterministic mode, in threads whose structures pass their
checks: each thread posts one operation that holds it, in ascending order, and the group goes on; nothing else changes. HOME does the
step. -/
def Obligations.ListsPost : Prop :=
  ∀ (i : Instr) (s : State) (e : Env) (kind : Nat → OpKind), (∃ n, (listOp s e n i).isSome) → AtHand i s e → e.l.det = false →
    (∀ n ∈ participants s e.g i, listOp s e n i = some (kind n)) →
    ∃ t, exec i s = .next t ∧
      Went (s.posts e ((participants s e.g i).map fun n => ⟨[n], .cx, none, kind n, [], s.held e i⟩)) t (fun _ _ => none) Thread.view

/-- MLDW, MSWAP, MPASS, MZERO, MMOV and MSTA (R85, R196 to R201, R268): with a tile, a pair and rows of the block, an entry of the
reservation table free and room in the counter, the group's one request takes the lowest free entry and the group goes on, held by MMOV;
nothing else changes. MATRIX_GRANT and DONE do the rest. -/
def Obligations.MatrixPosts : Prop :=
  ∀ (i : Instr) (s : State) (e : Env) (kind : OpKind) (pages : List (Nat × Nat)), AtHand i s e →
    let ps := participants s e.g i
    let held : Bool := match i with | .mmov .. => true | _ => false
    ps ≠ [] → matrixFits e ps i → matrixOf s e ps i = some (kind, pages) → s.tableRoom e.b = true →
    (held = false → ∀ n ∈ ps, s.wcnt s.cur.gid n .mx < 254) →
    ∃ t, exec i s = .next t ∧
      Went ((s.posts e [⟨ps, .mx, if held then none else some .mx, kind, pages, if held then s.held e i else none⟩]).modOp s.nextId
        fun o => { o with entry := some (s.freeEntry e.b) }) t (fun _ _ => none) Thread.view

/-- CPY, CPYG, BKMV and BKGTH of one thread, whose descriptor passes its checks and whose engine has room, and BKST (R85, R167, R168, R175, R203,
R204, R239, R321, R331, R349): the operation is posted, the barrier object that a copy counts into is in use, and the thread goes on; BKST
gives each thread the unit's word, BUSY being open while operations wait there (a free bit, the model's choice: log entry 58). Nothing else
changes. Which agent reads the index list of BKGTH, and that its issue reads all of it, is the model's choice (log entry 104). READ, WRITE,
LAND, ROW_TASK and DONE do the rest. -/
def Obligations.EnginesPost : Prop :=
  (∀ (i : Instr) (gather nb : Bool) (a b : Reg) (s : State) (e : Env) (n : Nat) (q : CopyPlan) (u : State),
    (∃ g, i = if gather then .cpyg g nb a b else .cpy g nb a b) → AtHand i s e → participants s e.g i = [n] →
    s.planCopy e n (e.g.readReg a n).toNat gather = .ok q → boardTakes s e q.writes → s.copyRoom e n = true →
    (if nb then u = s else objCheck e.b (e.g.readReg b n).toNat = none ∧ s.firstUse e.b.bid (e.g.readReg b n).toNat = some u) →
    ∃ t, exec i s = .next t ∧
      Went (State.posts { u with copyWait := u.copyWait.filter fun w => ¬(w.1 = s.cur.gid ∧ w.2.1 = n) } e
        [⟨[n], .cp, some .cp, .copy q.toGeneric (if nb then none else some (e.g.readReg b n).toNat) q.pieces, q.pages.dedup, none⟩]) t
        (fun _ _ => none) Thread.view) ∧
  (∀ (i : Instr) (gather : Bool) (a : Reg) (s : State) (e : Env) (n : Nat) (q : BankPlan),
    (∃ g, i = if gather then .bkgth g a else .bkmv g a) → AtHand i s e → participants s e.g i = [n] →
    s.planBank e n (e.g.readReg a n).toNat gather = .ok q → boardTakes s e q.writes → s.bankRoom e n q.rows = true →
    ∃ t, exec i s = .next t ∧
      Went { s.posts e [⟨[n], .bk, some .bk, q.kind, q.pages, none⟩] with free := t.free } t (fun _ _ => none) Thread.view) ∧
  ∀ (g : Guard) (d a : Reg) (s : State) (e : Env), AtHand (.bkst g d a) s e → e.g.sound = true →
    let ps := participants s e.g (.bkst g d a)
    let unit (n : Nat) : Nat × Nat := ((e.g.readReg a n).toNat / 2 ^ 8 % 8, (e.g.readReg a n).toNat % 2 ^ 7)
    ∃ t, ∃ busy : Nat → Bool, exec (.bkst g d a) s = .next t ∧
      Went { s with free := s.free + ps.length } t (fun n r => if n ∈ ps ∧ r = d then some (s.bkst e (unit n).1 (unit n).2 (busy n)) else none)
        Thread.view

/-! ### Barrier objects -/

/-- BARINIT of an object that is not in use, and EXPECT, in one thread (R174, R175, R177, R178): the object's fields, which read as they were
written, hold what the rules give; its 16 bytes are the only ones that change; the thread goes on, and nothing else changes but the block's
list of whole-block objects. -/
def Obligations.BarriersSet : Prop :=
  (∀ (s : State) (bid off : Nat) (o : BObj), o.landed < 2 ^ 32 → o.expb < 2 ^ 32 → o.rem < 2 ^ 16 → o.exp < 2 ^ 15 → o.phase < 2 ^ 32 →
    (s.putBobj bid off o).bobj bid off = o ∧
      ∀ a, ¬(scratchLoc bid off ≤ a ∧ a < scratchLoc bid off + 16) → (s.putBobj bid off o).byteAt a = s.byteAt a) ∧
  (∀ (g : Guard) (a b c : Reg) (s : State) (e : Env) (n : Nat), AtHand (.barinit g a b c) s e → participants s e.g (.barinit g a b c) = [n] →
    let off := (e.g.readReg a n).toNat
    let arr := (e.g.readReg b n).toNat
    objCheck e.b off = none → arr ≤ 32767 → s.anyRegistered e.b off = false → s.copyCounting e.b.bid off = false →
    ∃ t, exec (.barinit g a b c) s = .next t ∧
      Went (((if off ∈ e.b.wblist then (s.modBlock e.b.bid fun x => { x with wblist := x.wblist.filter (· != off) }).endListed e.b.bid off
          else s.modBlock e.b.bid fun x => { x with wblist := x.wblist.filter (· != off) }).forgetDrops e.b.bid off).putBobj e.b.bid off
        ⟨0, (e.g.readReg c n).toNat % 2 ^ 32, arr, arr ≠ 0, arr, 0⟩) t (fun _ _ => none) Thread.view) ∧
  ∀ (g : Guard) (a : Reg) (b : Opnd) (s : State) (e : Env) (n : Nat) (u : State), AtHand (.expect g a b) s e →
    participants s e.g (.expect g a b) = [n] →
    let off := (e.g.readReg a n).toNat
    objCheck e.b off = none → s.firstUse e.b.bid off = some u →
    let o := u.bobj e.b.bid off
    let o1 := { o with expb := (o.expb + (e.operand n (srcsOf (.expect g a b)).b).toNat % 2 ^ 32) % 2 ^ 32 }
    ∃ t, exec (.expect g a b) s = .next t ∧
      Went (u.putBobj e.b.bid off (if o1.rem = 0 ∧ o1.expb ≤ o1.landed
        then { o1 with landed := o1.landed - o1.expb, expb := 0, phase := (o1.phase + 1) % 2 ^ 32, rem := o1.exp } else o1)) t
        (fun _ _ => none) Thread.view

/-- ARRIVE and BDROP of one thread (R176, R178, R241). ARRIVE, with arrivals left in the phase and none of the thread's own in it:
d receives the phase, the thread is registered and its arrival posted. BDROP of a registered thread that has not dropped before posts a drop;
any other does nothing. COUNT counts them. -/
def Obligations.ArrivalsPost : Prop :=
  (∀ (g : Guard) (d a : Reg) (s : State) (e : Env) (n : Nat) (u : State) (x : Thread) (b : Block), AtHand (.arrive g d a) s e →
    e.g.sound = true → participants s e.g (.arrive g d a) = [n] →
    let off := (e.g.readReg a n).toNat
    objCheck e.b off = none → s.firstUse e.b.bid off = some u → u.thread? s.cur.gid n = some x → u.block? e.b.bid = some b →
    (off ∈ b.wblist ∨ (∃ r ∈ x.regs, r.off = off) ∨ (x.regs.filter fun r => r.off ∉ b.wblist).length < 16) →
    let o := u.bobj e.b.bid off
    o.rem ≠ 0 → x.arrivedIn off o.phase = false → u.pendingArrival s.cur.gid n off = false →
    ∃ t, exec (.arrive g d a) s = .next t ∧
      Went { u with arrivals := u.arrivals ++ [⟨u.nextId, e.place n, off, false⟩], nextId := u.nextId + 1 } t
        (fun k r => if k = n ∧ r = d then some (BitVec.ofNat 64 o.phase) else none) fun y => if y.thr = n
          then { y.view with regs := ⟨off, some o.phase⟩ :: y.regs.filter (fun r => r.off != off) } else y.view) ∧
  ∀ (g : Guard) (a : Reg) (s : State) (e : Env) (n : Nat) (u : State) (x : Thread) (b : Block), AtHand (.bdrop g a) s e →
    participants s e.g (.bdrop g a) = [n] →
    let off := (e.g.readReg a n).toNat
    objCheck e.b off = none → s.firstUse e.b.bid off = some u → u.thread? s.cur.gid n = some x → u.block? e.b.bid = some b →
    ∃ t, exec (.bdrop g a) s = .next t ∧
      Went (if b.registers x off && off ∉ x.dropped then { u with arrivals := u.arrivals ++ [⟨u.nextId, e.place n, off, true⟩], nextId := u.nextId + 1 }
        else u) t (fun _ _ => none) fun y => if y.thr = n ∧ (b.registers x off && off ∉ x.dropped) = true
          then { y.view with dropped := off :: y.dropped } else y.view

/-- BWAIT, its timed form, and BTEST (R178, R243): BWAIT goes on when the phase has completed, the timed form then or when its deadline has passed
before this cycle, pd saying whether the phase has completed, or had by the end of the cycle that reached the deadline; BTEST at once with the
answer in pd. -/
def Obligations.PhaseWaits : Prop :=
  (∀ (g : Guard) (a b : Reg) (s : State) (e : Env), AtHand (.bwait g a b) s e →
    (∀ n ∈ participants s e.g (.bwait g a b), objCheck e.b (e.g.readReg a n).toNat = none ∧
      (s.bobj e.b.bid (e.g.readReg a n).toNat).done (e.g.readReg b n).toNat = true) →
    ∃ t, exec (.bwait g a b) s = .next t ∧ Went s t (fun _ _ => none) Thread.view) ∧
  (∀ (g : Guard) (pd : Pred) (a b c : Reg) (s : State) (e : Env), AtHand (.bwaitTo g pd a b c) s e →
    let done (n : Nat) : Bool := (s.bobj e.b.bid (e.g.readReg a n).toNat).done (e.g.readReg b n).toNat
    let decided (n : Nat) : Option Bool := (e.g.thread? n).bind fun x => x.bwait.bind (·.verdict)
    (∀ n ∈ participants s e.g (.bwaitTo g pd a b c), objCheck e.b (e.g.readReg a n).toNat = none ∧
      ((decided n).isSome = true ∨ done n = true ∨ (e.g.readReg c n).toNat ≤ s.wallLast.getD e.b.die 0)) →
    ∃ t, exec (.bwaitTo g pd a b c) s = .next t ∧ Went s t (fun _ _ => none) fun x =>
      if x.thr ∈ participants s e.g (.bwaitTo g pd a b c) then (x.setPred pd ((decided x.thr).getD (done x.thr))).view else x.view) ∧
  ∀ (g : Guard) (pd : Pred) (a b : Reg) (s : State) (e : Env), AtHand (.btest g pd a b) s e →
    (∀ n ∈ participants s e.g (.btest g pd a b), objCheck e.b (e.g.readReg a n).toNat = none) →
    ∃ t, exec (.btest g pd a b) s = .next t ∧ Went s t (fun _ _ => none) fun x =>
      if x.thr ∈ participants s e.g (.btest g pd a b)
      then (x.setPred pd ((s.bobj e.b.bid (e.g.readReg a x.thr).toNat).done (e.g.readReg b x.thr).toNat)).view else x.view

/-! ### Handlers, continuations -/

/-- HPUSH and HPOP of one thread (R182), with a frame that passes its checks: the frame's words are as the rules give them, %hsp moves,
the thread goes on, and nothing else changes. That HPOP's write of STATE clears its SYS bit is the model's reading (log entry 33). -/
def Obligations.FramesMove : Prop :=
  (∀ (g : Guard) (multi window : Bool) (a d c : Reg) (xo : BitVec 14) (ho : W32) (s : State) (e : Env) (n : Nat) (old : Frame),
    let i := Instr.hpush g multi window a d c xo ho
    AtHand i s e → participants s e.g i = [n] →
    let f := (e.g.readReg a n).toNat
    let sv := (e.g.readReg c n).toNat
    let hpc := (((s.cur.pc : Int) + ho.toInt) % 2 ^ 64).toNat
    let xpc := (((s.cur.pc : Int) + 4 * xo.toInt) % 2 ^ 64).toNat
    f % 32 = 0 → f < 2 ^ 48 → hpc < 2 ^ 48 → xpc < 2 ^ 48 → e.reaches frameNeed f 32 →
    (multi = true → sv % 64 = 0 ∧ sv < 2 ^ 48 ∧ e.reaches frameNeed sv 1928) →
    s.boardFails e [(n, f, 32)] = [] → s.frameAt e n f = .ok old → s.mayTouch e n f 32 = true →
    let m := (e.g.readReg d n).toNat
    let fr : Frame := ⟨nextGen old.gen, ((e.g.thread? n).map (·.hsp.toNat)).getD 0, 0, m % 2 ^ 16, hpc, m / 2 ^ 16 % 2 ^ 16, xpc, 0, false, multi,
      window, if multi then sv else 0⟩
    ∃ t, exec i s = .next t ∧ FrameWritten s t e f fr ∧
      Went (State.putFrame { s with nextId := s.nextId + 1 } e n s.nextId f fr) t (fun _ _ => none) fun x =>
        if x.thr = n then { x.view with hsp := BitVec.ofNat 64 f } else x.view) ∧
  ∀ (g : Guard) (a : Reg) (s : State) (e : Env) (n : Nat) (x : Thread) (old : Frame), AtHand (.hpop g a) s e →
    participants s e.g (.hpop g a) = [n] → e.g.thread? n = some x → e.g.readReg a n = x.hsp → x.hsp.toNat % 32 = 0 →
    s.boardFails e [(n, x.hsp.toNat, 32)] = [] → s.frameAt e n x.hsp.toNat = .ok old → old.st ≠ handlingSt → s.mayTouch e n x.hsp.toNat 32 = true →
    let fr : Frame := { old with gen := nextGen old.gen, st := 0, sys := false }
    ∃ t, exec (.hpop g a) s = .next t ∧ FrameWritten s t e x.hsp.toNat fr ∧
      Went (State.putFrame { s with nextId := s.nextId + 1 } e n s.nextId x.hsp.toNat fr) t (fun _ _ => none) fun x =>
        if x.thr = n then { x.view with hsp := BitVec.ofNat 64 old.parent } else x.view

/-- PERFORM and BRK of one thread that finds a frame and passes the checks (R115, R183, R184, R389): the thread enters the handler with
%hsp, %eff, %earg and %etok as the rules give them, a WINDOW frame's g240 to g242 too; the frame keeps the continuation; the other
threads of the group go on; and nothing else changes. -/
def Obligations.HandlersEnter : Prop :=
  ∀ (i : Instr) (s : State) (e : Env) (n eff f h : Nat) (arg : Word) (x : Thread) (fr : Frame) (path : List Nat) (regs : List Word) (wids rods : List Nat),
    performs e n i = some (eff, arg) → AtHand i s e → e.g.sound = true → participants s e.g i = [n] → e.g.thread? n = some x →
    let y : Enter := ⟨fr, f, h, path, regs, wids, rods⟩
    s.readyPerform e ⟨n, eff, arg, s.cur.pc, false⟩ x.hsp.toNat = .ok y → f % 32 = 0 → s.boardFails e ((Ready.ok y).writes n) = [] →
    s.rodsReady e (if fr.window then e.g.rodsOf [240, 241, 242] else []) = true →
    (∀ r, translate e.c (some e.b) f = .ok r → ∀ k < 32, s.upsetBy e false (r.loc + k) = false) →
    let tok := BitVec.ofNat 64 (2 ^ 48 * nextGen fr.gen + f)
    ∃ t, exec i s = .next t ∧
      OnlyGang (((State.enterHandler { s with nextId := s.nextId + 1, free := s.free + 1 } e s.nextId ⟨n, eff, arg, s.cur.pc, false⟩ [n] f h regs).trace
        e.l 3 (engineWord e.b.die 0 e.b.core) (s.wall e.b.die) eff).stopFor e i) t s.cur.gid ∧
      (fr.multi = false → e.l.rcb.perm / 2 % 2 = 0 → FrameWritten s t e f (fr.entered x s.cur.pc)) ∧
      RegsAre s t s.cur.gid (fun k r => if k = n ∧ fr.window = true
        then (if r = 240 then some arg else if r = 241 then some tok else if r = 242 then some (BitVec.ofNat 64 eff) else none) else none) ∧
      GangKept s t ∧
      ThreadsAre s t s.cur.gid fun y =>
        let live : List Tok := y.toks.filter fun k => k.word.toNat % 2 ^ 48 != f
        if y.thr = n then
          { y.view with pc := h, hsp := BitVec.ofNat 64 fr.parent, eff := BitVec.ofNat 64 eff, earg := arg, etok := tok,
                        toks := ⟨tok, eff, y.relist.filter fun r => r.2 == s.cur.pc⟩ :: live, lser := if y.lser = .waiting then .none else y.lser }
        else { wentOn s y with toks := live }

/-- RESUME and RESUMEM of one thread, with a token whose continuation can be read and taken (R185): the thread stands where the
continuation goes, with its predicates, the result register and for RESUMEM g0 to g239 restored; the frame is as the rules leave it; the
other threads go on; and nothing else changes. -/
def Obligations.ResumesContinue : Prop :=
  ∀ (g : Guard) (m : Bool) (a : Reg) (b : Opnd) (i : Instr) (s : State) (e : Env) (n : Nat) (x : Thread) (r : Resume),
    i = (if m then .resumem g a b else .resume g a b) → AtHand i s e → e.g.sound = true → participants s e.g i = [n] → e.g.thread? n = some x →
    let w := e.g.readReg a n
    let v := e.operand n (srcsOf i).b
    s.readyResume e n w m = .ok r → s.boardFails e [(n, tokFrame w, 32)] = [] → s.mayTouch e n (tokFrame w) 32 = true →
    (r.fr.multi = true → s.mayTouch e n r.fr.save (savedLen m) = true) →
    s.rodsReady e (e.g.rodsOf (r.dests m)) = true →
    ∃ t, exec i s = .next t ∧ FrameWritten s t e (tokFrame w) (r.frame x.hsp.toNat) ∧
      OnlyGang (State.putFrame { s with nextId := s.nextId + 1, free := s.free + 1 } e n s.nextId (tokFrame w) (r.frame x.hsp.toNat)) t s.cur.gid ∧
      GangKept s t ∧
      RegsAre s t s.cur.gid (fun k q => if k ≠ n then none else if r.dst = some q then some v else if m then r.k.regs[q.toNat]? else none) ∧
      ThreadsAre s t s.cur.gid fun y => if y.thr = n
        then { y.view with pc := r.pc, preds := BitVec.ofNat 7 r.k.preds,
                           hsp := BitVec.ofNat 64 (if r.fr.st = handlingSt then r.fr.parent else tokFrame w) }
        else wentOn s y

/-- DROP of one thread, and TOKST (R186). DROP of a HANDLING frame sends the thread to the exit PC with %hsp the frame; of a RESUMED MULTI
frame it only ends the continuation. That DROP's write of STATE clears its SYS bit is the model's reading (log entry 33). TOKST reports the
state of each thread's token. -/
def Obligations.TokensEnd : Prop :=
  (∀ (g : Guard) (a : Reg) (s : State) (e : Env) (n pc : Nat) (x : Thread) (fr : Frame), AtHand (.drop g a) s e →
    participants s e.g (.drop g a) = [n] → e.g.thread? n = some x →
    let w := e.g.readReg a n
    s.tokenFrame e n w (fun fr => fr.st == handlingSt || (fr.st == resumedSt && fr.multi)) = .ok fr → s.mayTouch e n (tokFrame w) 32 = true →
    s.boardFails e [(n, tokFrame w, 32)] = [] →
    (fr.st = handlingSt → checkTarget s e.c (e.place n).units true fr.xpc = .ok pc) →
    let fr0 : Frame := if fr.multi then fr else { fr with save := 0, cp2 := 0 }
    let fr1 : Frame := if fr.st = handlingSt then { fr0 with parent := x.hsp.toNat, st := idleSt, sys := false }
      else { fr with gen := nextGen fr.gen, st := idleSt, sys := false }
    ∃ t, exec (.drop g a) s = .next t ∧ FrameWritten s t e (tokFrame w) fr1 ∧
      OnlyGang (State.putFrame { s with nextId := s.nextId + 1 } e n s.nextId (tokFrame w) fr1) t s.cur.gid ∧
      GangKept s t ∧ RegsSame s t s.cur.gid ∧
      ThreadsAre s t s.cur.gid fun y => if y.thr = n ∧ fr.st = handlingSt then { y.view with pc := pc, hsp := BitVec.ofNat 64 (tokFrame w) }
        else wentOn s y) ∧
  ∀ (g : Guard) (d a : Reg) (s : State) (e : Env) (v : Nat → Nat), AtHand (.tokst g d a) s e → e.g.sound = true →
    (∀ n ∈ participants s e.g (.tokst g d a), s.tokenState e n (e.g.readReg a n) = some (v n) ∧
      s.mayRead e n (tokFrame (e.g.readReg a n)) 32 = true) →
    ∃ t, exec (.tokst g d a) s = .next t ∧
      Went { s with nextId := s.nextId + 1 } t (fun n r => if n ∈ participants s e.g (.tokst g d a) ∧ r = d then some (BitVec.ofNat 64 (v n)) else none) Thread.view

/-! ### Recipes -/

/-- RCP, RMAT, RDROP in both forms and RSTAT (R88, R188, R190, R219 to R221) complete. RCP of a legal slice whose next instruction is eligible, with
room in the recipe table, marks it as a definition; of any other legal slice it does nothing (that PERFORM and writers
of k registers are not eligible is the model's reading: log entry 50). RMAT makes a RECIPE rod VALUE; RDROP makes an eligible rod RECIPE, or does nothing; RDROP.kill makes the rod VOID and frees its descriptor; RSTAT reports the rod. The recipes that must
be materialised first are. With no guard true RCP, RMAT and RDROP do nothing; nor do RMAT and RDROP on a field that names a k register (log entry
99). The group goes on, and nothing else changes. -/
def Obligations.RecipesComplete : Prop :=
  (∀ (g : Guard) (k : BitVec 3) (i1 i2 i3 i4 : Reg) (slice : W32) (s : State) (e : Env) (is : List (Nat × Instr)),
    let i := Instr.rcp g k i1 i2 i3 i4 slice
    let ps := participants s e.g i
    let inputs := [i1, i2, i3, i4].take k.toNat
    let addr := (((s.cur.pc : Int) + slice.toInt) % 2 ^ 64).toNat
    AtHand i s e → ps ≠ [] → readSlice s e.c (e.place (ps.headD 0)).units e.g.gid 8 addr [] = .ok is → sliceBreach is inputs = none →
    (eligibleDest s e ps inputs = none ∨
        ((∀ d, eligibleDest s e ps inputs = some d → d ∈ is.flatMap fun x => destsOf x.2) ∧ Config.recipeDescs ≤ e.g.descs.length) →
      ∃ t, exec i s = .next t ∧ Went s t (fun _ _ => none) Thread.view) ∧
    ∀ d u, eligibleDest s e ps inputs = some d → d ∈ is.flatMap (fun x => destsOf x.2) → e.g.descs.length < Config.recipeDescs →
      materialiseWhen s e (e.g.deepInputs inputs) = .ok u →
      ∃ t, exec i s = .next t ∧ Went u t (fun _ _ => none) Thread.view ∧
        ∃ g', t.gang? s.cur.gid = some g' ∧ ⟨s.cur.next, addr, inputs, s.cur.mask, is.flatMap fun x => destsOf x.2, is.any fun x => usesDyn x.2,
          is.any fun x => usesThreshold x.2, e.g.trap.isSome⟩ ∈ g'.pendRcp) ∧
  (∀ (i : Instr) (g : Guard) (rod : Reg) (s : State) (e : Env),
    ((∃ k i1 i2 i3 i4 slice, i = .rcp g k i1 i2 i3 i4 slice ∧ participants s e.g i = []) ∨
      (i = .rmat g rod ∨ i = .rdrop g rod ∨ i = .rdropKill g rod) ∧ (participants s e.g i = [] ∨ e.g.kReg rod = true)) →
    AtHand i s e → ∃ t, exec i s = .next t ∧ Went s t (fun _ _ => none) Thread.view) ∧
  (∀ (g : Guard) (rod : Reg) (s : State) (e : Env) (u : State), AtHand (.rmat g rod) s e → participants s e.g (.rmat g rod) ≠ [] → e.g.kReg rod = false →
    materialiseWhen s e (if e.g.isRecipe rod.toNat then [rod.toNat] else []) = .ok u →
    ∃ t, exec (.rmat g rod) s = .next t ∧ Went u t (fun _ _ => none) Thread.view) ∧
  (∀ (g : Guard) (rod : Reg) (s : State) (e : Env), AtHand (.rdrop g rod) s e → participants s e.g (.rdrop g rod) ≠ [] → e.g.kReg rod = false →
    ∃ t, exec (.rdrop g rod) s = .next t ∧
      Went (s.modGang s.cur.gid fun x => if s.mayDrop x rod.toNat then x.dropRod rod.toNat else x) t (fun _ _ => none) Thread.view) ∧
  (∀ (g : Guard) (rod : Reg) (s : State) (e : Env) (u : State), AtHand (.rdropKill g rod) s e → participants s e.g (.rdropKill g rod) ≠ [] →
    e.g.kReg rod = false →
    let pinning := (e.g.descs.filter fun d => e.g.isRecipe d.rod && d.rod != rod.toNat && d.inputs.any fun r => r == rod).map (·.rod)
    materialiseWhen s e pinning.dedup = .ok u →
    ∃ t, exec (.rdropKill g rod) s = .next t ∧
      Went (u.modGang s.cur.gid fun x => { x.freeDescs [rod.toNat] with
        rods := alDel x.rods rod.toNat, poison := x.poison.filter fun p => p.reg != rod.toNat }) t (fun _ _ => none) Thread.view) ∧
  ∀ (g : Guard) (d rod : Reg) (s : State) (e : Env), AtHand (.rstat g d rod) s e → e.g.sound = true →
    ∃ t, exec (.rstat g d rod) s = .next t ∧
      Went s t (fun n r => if n ∈ participants s e.g (.rstat g d rod) ∧ r = d then some (e.g.rstatOf rod) else none) Thread.view

/-! ### Ending, traps -/

/-- EXIT in both forms (R55, R109, R144, R376), and EXIT.saved in a PREEMPT trap (R109, R353), complete: every participating thread has exited,
its turn is over, it drops from each barrier object at which it is registered, and it leaves trap mode; EXIT.saved marks the block SAVED; the
other threads of the group go on. Of one participating thread, no bead, k register or byte of memory changes, nor anything else; what its
tokens name stays its own, and of no use to others. -/
def Obligations.ExitsEnd : Prop :=
  (∀ (i : Instr) (s : State) (e : Env),
    (match i with
      | .exit _ | .exitS => True
      | .exitSaved _ => ∃ m, e.g.trap = some m ∧ m.cause = cPREEMPT
      | _ => False) →
    AtHand i s e →
    ∃ t, exec i s = .next t ∧ SameBytes s t ∧ ∀ n ∈ participants s e.g i, ∀ x, e.g.thread? n = some x →
      ∃ y, t.thread? s.cur.gid n = some y ∧ y.exited = true ∧ y.lser = .none) ∧
  ∀ (i : Instr) (s : State) (e : Env) (n : Nat) (x : Thread) (saved : Bool),
    (match i with
      | .exit _ | .exitS => saved = false
      | .exitSaved _ => saved = true ∧ ∃ m, e.g.trap = some m ∧ m.cause = cPREEMPT
      | _ => False) →
    AtHand i s e → participants s e.g i = [n] → e.g.thread? n = some x →
    let drops := (e.b.regsOf x).filter (· ∉ x.dropped)
    ∃ t, exec i s = .next t ∧
      t = { s with gangs := t.gangs, ops := t.ops, telemetry := { s.telemetry with counters := t.telemetry.counters },
                   arrivals := s.arrivals ++ drops.mapIdx (fun k off => ⟨s.nextId + k, e.place n, off, true⟩),
                   nextId := s.nextId + drops.length + (if x.lser = .turn then 1 else 0),
                   blocks := if saved then s.blocks.map fun b => if b.bid = e.b.bid then { b with saved := true } else b else s.blocks } ∧
      t.ops.map Op.plain = s.ops.map Op.plain ∧ SameBytes s t ∧ (∀ h, h ≠ s.cur.gid → t.gang? h = s.gang? h) ∧
      RegsSame s t s.cur.gid ∧
      ThreadsAre s t s.cur.gid (fun y => if y.thr = n
        then { y.view with exited := true, pc := s.cur.next, dropped := drops.reverse ++ y.dropped, lser := .none } else wentOn s y) ∧
      GangKept (s.modGang s.cur.gid fun y => { y with
        trap := e.g.trap.bind fun m => if m.mask.all (· == n) then none else some { m with mask := m.mask.filter (· ≠ n) },
        lastTurn := if x.lser = .turn then some (n, s.nextId + drops.length) else y.lastTurn }) t

/-- TRAP, REND outside a regeneration, and a load or store that no thread's address allows (R114, R150, R190, R370, R372, R373): the trap is
taken. TRAP and REND stand at %tepc; the load or store stands in the replay queue with its captured operands, behind it the second of its pair and
what has issued since, %tepc being the instruction after them. Instructions and special registers for trap mode only raise PRIV outside it,
and change nothing else (R78, R109, R116, R117, R119); that a read-only register of trap mode is among them for MOVSW is the model's choice (log
entry 94). -/
def Obligations.TrapsTaken : Prop :=
  (∀ (i : Instr) (s : State) (e : Env) (h : Nat) (cause : Nat) (addr : Word),
    (match i with
      | .trap _ code => cause = cTRAP ∧ addr = code.setWidth 64
      | .rend _ => cause = cILLEGAL ∧ addr = 0
      | _ => False) →
    AtHand i s e → participants s e.g i ≠ [] → CanTrap s e ((participants s e.g i).headD 0) h →
    ∃ t, exec i s = .next t ∧ TrapTaken s t e cause 0 h ((participants s e.g i).map fun n => ⟨n, addr, 0⟩) [] s.cur.pc) ∧
  (∀ (i : Instr) (s : State) (e : Env) (h : Nat), needsTrapMode i = true → AtHand i s e → participants s e.g i ≠ [] →
    CanTrap s e ((participants s e.g i).headD 0) h →
    ∃ t, exec i s = .next t ∧ TrapTaken s t e cPRIV 0 h ((participants s e.g i).map fun n => ⟨n, 0, 0⟩) [] s.cur.pc) ∧
  ∀ (i : Instr) (s : State) (e v : Env) (h cause : Nat) (sp : Space) (use : Use) (bytes : Nat) (addr : Nat → Nat),
    ((∃ w sext d, loadOf i = some (w, sext, sp, d) ∧ bytes = w.bytes ∧ use = (if sp = .constant then Use.constant else Use.load)) ∨
      ∃ w d, storeOf i = some (w, sp, d) ∧ bytes = w.bytes ∧ use = Use.store ∧ e.l.det = false) →
    AtHand i s e → participants s e.g i ≠ [] → CanTrap s e ((participants s e.g i).headD 0) h →
    (cause = cALIGN ∨ cause = cTRANSLATION ∨ cause = cACCESS) →
    (∀ n ∈ participants s e.g i, accessCheck s e sp use bytes [] (e.ea i n) = some (cause, addr n)) → s.issued.env? s.cur.gid = some v →
    ∃ t, exec i s = .next t ∧ TrapTaken s t e cause 0 h ((participants s e.g i).map fun n => ⟨n, BitVec.ofNat 64 (addr n), 0⟩)
      (⟨s.cur.pc, s.cur.enc, s.cur.lit, s.cur.len, participants s e.g i, true, false, false, (participants s e.g i).map (e.captures i), false⟩ ::
        (s.issued.queueBehind v i).1) (s.issued.queueBehind v i).2

/-- A trap without a handler, and a trap in trap mode, are unhandled (R372, R374, R377, R379, R388): the trace record of the trap is written, the
gang issues no more, the removal of the fault domain begins, and one fault record of class 0x01 waits for its end; nothing else changes. -/
def Obligations.UnhandledEnds : Prop :=
  ∀ (s : State) (gid cause sub : Nat) (fails : List Fail) (queue : List RqEntry) (tepc : Nat → Nat) (e : Env), s.env? gid = some e →
    s.removing e.c.num e.rcb.fdom = false → (e.g.trap.isSome = true ∨ s.handlerPc e ((fails.map (·.thr)).headD 0) = none) →
    let t := s.deliver gid cause sub fails queue tepc
    let u := s.trapTrace e cause sub
    (∃ g, t.gang? gid = some g ∧ g = { e.g with stopped := true }) ∧
      t = { u with gangs := t.gangs, removals := s.removals ++ [⟨u.nextId, e.c.num, some e.rcb.fdom, 1, none⟩], nextId := u.nextId + 1,
                   faults := s.faults ++ [⟨unhandledRecord e (s.wall e.b.die) cause sub fails tepc e.g.trap.isSome, [], some u.nextId⟩] } ∧
      ∀ h, h ≠ gid → t.gang? h = s.gang? h

/-- RTT, RQRD, RQWR of one thread and TLBINV, in trap mode (R116, R117, R119). TLBINV changes nothing but the line held by the fetch (log entry
45), RQWR of a read-only field nothing (log entry 51), and when CBSYNC goes on is log entry 68: the model's readings. RTT with legal %tepc in the whole mask ends trap mode: every
thread of the mask stands at its %tepc, and the queue is to be run first. RQRD reads a field of an entry, 0 past the end; RQWR edits one. CBSYNC (R118, R339) of ranges
that can be read and whose stores have reached their home: the control blocks that the ranges touch take effect or leave a fault record. -/
def Obligations.TrapModeComplete : Prop :=
  ((∀ (g : Guard) (s : State) (e : Env) (m : TrapMode) (dest : Nat → Nat), AtHand (.rtt g) s e → participants s e.g (.rtt g) ≠ [] →
    e.g.trap = some m →
    (∀ n ∈ m.mask, checkTarget s e.c (e.place n).units false (((e.g.thread? n).map (·.tepc.toNat)).getD 0) = .ok (dest n)) →
    ∃ t, exec (.rtt g) s = .next t ∧ OnlyGang s t s.cur.gid ∧ RegsSame s t s.cur.gid ∧
      ThreadsAre s t s.cur.gid (fun x => if x.thr ∈ m.mask then { x.view with pc := dest x.thr } else x.view) ∧
      GangKept (s.modGang s.cur.gid fun x => { x with trap := none }) t ∧
      ∃ g', t.gang? s.cur.gid = some g' ∧ g'.reinj = if m.queue = [] then none else some ⟨m.queue, m.mask⟩) ∧
  (∀ (g : Guard) (d a : Reg) (sel : BitVec 4) (s : State) (e : Env) (m : TrapMode), AtHand (.rqrd g d a sel) s e → e.g.sound = true →
    e.g.trap = some m → sel.toNat ≤ 8 →
    ∃ t, exec (.rqrd g d a sel) s = .next t ∧ Went s t (fun n r => if n ∈ participants s e.g (.rqrd g d a sel) ∧ r = d
      then some (match m.queue[(e.g.readReg a n).toNat]? with
        | some q => (q.read n sel.toNat).word
        | none => 0) else none) Thread.view) ∧
  (∀ (g : Guard) (a b : Reg) (sel : BitVec 4) (s : State) (e : Env) (m : TrapMode) (n : Nat), AtHand (.rqwr g a b sel) s e →
    e.g.trap = some m → sel.toNat ≤ 8 → participants s e.g (.rqwr g a b sel) = [n] →
    let edit (q : RqEntry) : RqEntry := q.write n sel.toNat (.val (e.g.readReg b n))
    let queue := m.queue.mapIdx fun k q => if k = (e.g.readReg a n).toNat then edit q else q
    ∃ t, exec (.rqwr g a b sel) s = .next t ∧
      Went (s.modGang s.cur.gid fun x => { x with trap := some { m with queue := queue } }) t (fun _ _ => none) Thread.view) ∧
  ∀ (g : Guard) (a b : Reg) (s : State) (e : Env), AtHand (.tlbinv g a b) s e → e.g.trap.isSome = true →
    ∃ t, exec (.tlbinv g a b) s = .next t ∧ Went { s with line := none } t (fun _ _ => none) Thread.view) ∧
  ∀ (g : Guard) (a b : Reg) (s : State) (e : Env), AtHand (.cbsync g a b) s e →
    let ps := participants s e.g (.cbsync g a b)
    let need : Need := { r := true, peer := true }
    (∀ n ∈ ps, 0 < (e.g.readReg b n).toNat ∧ (e.g.readReg b n).toNat ≤ 65536 ∧ ∃ sn, spanOf e need (e.g.readReg a n).toNat (e.g.readReg b n).toNat = .ok sn ∧
      s.storesHome (e.place n) (sn.segs.map fun x => (x.2.loc, x.2.len)) = true) →
    ∃ t, exec (.cbsync g a b) s = .next t ∧
      Went (ps.foldl (fun s n => s.syncRegions e (e.g.readReg a n).toNat (e.g.readReg b n).toNat) s) t (fun _ _ => none) Thread.view

/-! ### Transitions of memory and of engines -/

/-- BIND (R249, R250, R153): an enabled load of bytes that no copy is about to write, whose registers find physical rods, takes the latest
write visible to its thread at each byte; its beads receive them, and the load is complete. Nothing else changes but what its gang has
observed. Through the constant space that holds of bytes not written since its launch started (R148). -/
def Obligations.LoadsBind : Prop :=
  ∀ (s : State) (o : Op) (id loc n : Nat) (d : Reg) (sext : Bool) (ea : Word) (const : Bool), s.op? id = some o → o.thrs = [o.place.thr] →
    o.kind = .load loc n d sext ea const → s.enabled o = true → s.lacksRod o = false → s.linkDown loc = false → s.settled o.place.bid loc n →
    (const = true → ∀ k < n, s.constWritten o.place (loc + k) = false) → s.gangs.all Gang.sound = true →
    ∃ t, exec (.bind id) s = .next t ∧
      t = { s with ops := s.ops.filter (fun x => x.id != id), gangs := t.gangs, free := t.free } ∧
      (∀ h, h ≠ o.place.gid → t.gang? h = s.gang? h) ∧
      BeadsGot s t o fun _ => loadRegs d sext ea (poisonSub loc) (s.viewBytes o.place id loc n)

/-- PERFORM_STORE, ATOMIC and PROPAGATE (R164, R248 to R250, R263, R366). An enabled store puts its bytes at the end of the coherence order, stages
them in deterministic mode, or loses them with fault records at a link that is down. An enabled request of ATOM, RED or ACAS reads the last
write and appends the new value in one step, each thread receiving the value before its own operation. A write that an agent sees becomes
visible to the agent's scope unit at a level, and no byte changes. -/
def Obligations.WritesHappen : Prop :=
  (∀ (s : State) (o : Op) (e : Env) (id loc : Nat) (data : List Byte) (bad : Bool), s.op? id = some o → o.kind = .store loc data bad →
    s.enabled o = true → s.env? o.place.gid = some e →
    ∃ t, exec (.performStore id) s = .next t ∧
      (if s.linkDown loc then t = (s.dropOp id).lostWrite e loc data.length
       else if e.l.det = true ∧ isScratch loc = false then
         t = (s.dropOp id).modBlock e.b.bid fun b => { b with staged := stage b.staged (.bytes id .st (e.place o.place.thr) loc data bad) }
       else s.noObjects loc data.length →
         t = { s with mem := t.mem, writes := t.writes, wrote := t.wrote, poison := t.poison, crypt := t.crypt, ops := t.ops, gangs := t.gangs, nextId := s.nextId + 1 } ∧
         BytesPut s t loc data bad (s.keyAt (some e.c.num) loc))) ∧
  (∀ (s : State) (o : Op) (id loc : Nat) (ty : Ty) (d : Option Reg) (ea : Word) (f : Nat → Nat × List (Nat × Nat)) (keeps : Bool),
    ((∃ aop vals, o.kind = .atomic loc aop ty d vals ea ∧ f = (fun old => aggregate aop ty old vals) ∧ keeps = (aop != .exch) ∧
        o.thrs = vals.map (·.1)) ∨
      ∃ r vals, o.kind = .cas loc ty r vals ea ∧ d = some r ∧ f = (fun old => casSteps ty old vals) ∧ keeps = true ∧ o.thrs = vals.map (·.1)) →
    s.op? id = some o → s.enabled o = true → o.thrs.Nodup → s.lacksRod o = false → s.linkDown loc = false →
    let n := ty.width / 8
    s.settled o.place.bid loc n → s.noObjects loc n → s.gangs.all Gang.sound = true →
    let old := rbNat (s.seenBy (some o.ctx) loc (s.lastBytes loc n))
    let bad := rbBad (s.seenBy (some o.ctx) loc (s.lastBytes loc n)) && keeps
    ∃ t u : State, exec (.atomic id) s = .next t ∧ t = u.badStore o.place.gid loc n bad s.nextId ∧
      u = { s with mem := u.mem, writes := u.writes, wrote := u.wrote, poison := u.poison, crypt := u.crypt, ops := t.ops, gangs := t.gangs,
                   nextId := s.nextId + 1, free := t.free } ∧
      (∀ h, h ≠ o.place.gid → t.gang? h = s.gang? h) ∧ (∀ x ∈ t.ops, x.id ≠ id) ∧
      BytesPut s u loc (leBytes n (f old).1) bad (s.keyAt (some o.ctx) loc) ∧
      BeadsGot s t o fun u => match d, alGet (f old).2 u with
        | some r, some v => [(r, BitVec.ofNat 64 (v % 2 ^ ty.width), none)]
        | _, _ => []) ∧
  ∀ (s : State) (wid : Nat) (via : Agent) (scope : Scope) (w : PWrite) (u : ScopeUnit), s.writes.find? (fun w => w.wid == wid) = some w →
    s.agentSees via w = true → s.unitAt via scope = some u → s.writes.Pairwise (fun a b => a.wid ≠ b.wid) →
    ∃ t, exec (.propagate wid via scope) s = .next t ∧ SameBytes s t ∧
      t = { s with mem := t.mem, writes := t.writes, poison := t.poison, crypt := t.crypt } ∧ ∀ x ∈ t.writes, x.wid = wid → x = { w with vis := x.vis } ∧ u ∈ x.vis

/-- The transitions of a copy (R168, R239, R250, R256): ENQUEUE in the order of the core; READ of a piece, or of one byte by itself, takes what
the thread sees, or zeros, and cuts it so that only what was poisoned is poisoned; WRITE puts a piece without poison in memory; LAND counts
its bytes into the barrier object; DONE ends the copy. A byte that another copy has not landed, or that lies in a peer's memory, is a free
value. -/
def Obligations.CopiesProgress : Prop :=
  (∀ (s : State) (o : Op) (id : Nat), s.op? id = some o → s.mayEnqueue o = true →
    exec (.enqueue id) s = .next (s.modOp id fun o => { o with queued := true })) ∧
  (∀ (s : State) (o : Op) (e : Env) (id idx0 idx : Nat) (tg : Bool) (bar : Option Nat) (rows0 rows : List CopyRow) (r : CopyRow), s.op? id = some o →
    o.kind = .copy tg bar rows0 → pieceOf rows0 idx0 = (rows, idx) → rows[idx]? = some r → o.queued = true → s.env? o.place.gid = some e →
    let pieces (rs : List CopyRow) (o : Op) : Op := { o with kind := .copy tg bar rs }
    (r.readDone = false →
      let seen := match r.src with
        | some g => s.segBytes e o.place.thr id g
        | none => List.replicate r.len ⟨0, false, none⟩
      ∃ t bs, exec (.read id idx0) s = .next t ∧ bs.length = seen.length ∧
        (∀ (k : Nat) (b : RByte), seen[k]? = some b → ∃ v, bs[k]? = some { b with val := v } ∧
          ((∀ g, r.src = some g → g.keep = true ∨ s.unsure o.place.bid (g.loc + k) = false) → v = b.val)) ∧
        let got := { r with readDone := true, data := rbVals bs }
        let u := match r.src with
          | some g => s.markRead e g seen
          | none => s
        t = { u.modOp id (pieces (rows.take idx ++ (if (r.src.any fun g => s.linkDown g.loc) then [{ got with poison := true }]
          else got.runs 0 (badRuns bs)) ++ rows.drop (idx + 1))) with free := t.free }) ∧
    (r.readDone = true → r.writeDone = false → (∀ x ∈ rows.take idx, x.writeDone = true ∨ overlap (x.dst, x.len) (r.dst, r.len) = false) →
      s.linkDown r.dst = false → (tg = true ∧ isScratch r.dst = false → e.l.det = false ∧ r.poison = false) → s.noObjects r.dst r.data.length →
      ∃ t, exec (.write id idx0) s = .next t ∧
        t = { s with mem := t.mem, writes := t.writes, wrote := t.wrote, poison := t.poison, crypt := t.crypt, ops := t.ops, gangs := t.gangs, nextId := s.nextId + 1 } ∧
        BytesPut s t r.dst r.data r.poison (if tg && !isScratch r.dst then s.keyAt (some e.c.num) r.dst else none) ∧
        ∃ o', t.op? id = some o' ∧ o'.kind = .copy tg bar (modNth rows idx fun r => { r with writeDone := true, wid := some s.nextId }))) ∧
  ∀ (s : State) (o : Op) (id : Nat) (tg : Bool) (bar : Option Nat) (rows : List CopyRow), s.op? id = some o → o.kind = .copy tg bar rows →
    (∀ (idx : Nat) (r : CopyRow), rows[idx]? = some r → s.pieceLands o r = true →
      let s1 := s.modOp id fun o => { o with kind := .copy tg bar (modNth rows idx fun r => { r with landDone := true }) }
      exec (.land id idx) s = .next (match bar with
        | some off => let x := s1.bobj o.place.bid off
          s1.putBobj o.place.bid off (BObj.test { x with landed := (x.landed + r.len) % 2 ^ 32 })
        | none => s1)) ∧
    ((∀ x ∈ rows, x.landDone = true) → o.cls = .cp → o.queued = true → exec (.done id) s = .next ((s.pin o).dropOp id))

/-- The matrix engine (R198 to R201, R250, R257, R267 to R270): a grant takes the first eligible request and frees its entry; at DONE, in grant
order, MSWAP exchanges the planes of its pair, MZERO clears its tiles, MPASS adds its rows to its tile, MMOV delivers its beads from a tile
that no later operation updates, MLDW fills the shadow plane from operands without poison, and MSTA stores its row; a WRITE stores one of
MSTA's rows before. That an operation takes what is left of its effect at its DONE, where a free choice stands for its earlier reads, is log
entry 55; what MLDW and MPASS read of each operand byte is none older than their threads' snapshots (log entry 46). -/
def Obligations.MatrixWorks : Prop :=
  (∀ (s : State) (die cl : Nat) (o : Op), s.nextGrant die cl = some o →
    exec (.matrixGrant die cl) s = .next ((State.modOp { s with nextId := s.nextId + 1 } o.id fun o =>
      { o with grant := some s.nextId, entry := none }).count die (1400 + 3 * cl + 2) 1)) ∧
  ∀ (s : State) (o : Op) (e : Env) (id : Nat), s.op? id = some o → s.env? o.place.gid = some e → o.cls = .mx → s.grantTurn o = true →
    let bid := o.place.bid
    let u : State := { s with free := s.free + 1, blocks := s.blocks.map fun b => if b.bid = bid then b.passDone o else b }
    let kept : State := { u with ops := s.ops.filter fun x => x.id != id }
    let column (k : Nat) (x : List Seg) : List RByte := (placedFrom (65536 * k) x).flatMap fun g => u.mxBytes e o.place.thr id g.1 g.2
    (∀ pair, o.kind = .mswap pair → exec (.done id) s = .next (kept.modBlock bid fun b =>
      { b with pairs := modNth b.pairs pair fun p => ⟨p.shadow, p.active⟩ })) ∧
    (∀ t n, o.kind = .mzero t n → ∃ v, exec (.done id) s = .next v ∧ v = { kept with blocks := v.blocks } ∧
      ∀ b, u.block? bid = some b → ∃ b', v.block? bid = some b' ∧ b' = { b with tiles := b'.tiles } ∧ b'.tiles.length = b.tiles.length ∧
        ∀ k < b.tiles.length, b'.tiles.getD k Tile.zero = if t ≤ k ∧ k < t + n then Tile.zero else b.tiles.getD k Tile.zero) ∧
    (∀ pair t acc raw afmt rows, o.kind = .mpass pair t acc raw afmt rows →
      let pl := ((e.b.pairs[pair]?).map (·.active)).getD Plane.empty
      pl.poison = [] → (∀ x ∈ rows, rbBad (u.mxBytes e x.1 id (65536 * x.1) x.2) = false ∧ x.1 ∉ o.dirty) →
      exec (.done id) s = .next (kept.modBlock bid fun b => rows.foldl (fun b x =>
        { b with tiles := modNth b.tiles t fun y => passRow pl y x.1 afmt raw acc (rbVals (u.mxBytes e x.1 id (65536 * x.1) x.2)) }) b)) ∧
    (∀ flags n d t q, o.kind = .mmov flags n d t q → e.g.sound = true → o.thrs.Nodup → s.lacksRod o = false → s.tileRaced o t = false →
      ∃ v, exec (.done id) s = .next v ∧ v = { kept with gangs := v.gangs, free := v.free } ∧
        BeadsGot s v o fun k => movRegs flags n d q (e.b.tiles.getD t Tile.zero) k) ∧
    (∀ pair wfmt runs, o.kind = .mldw pair wfmt runs → o.dirty = [] → (∀ k x, runs[k]? = some x → rbBad (column k x) = false) →
      exec (.done id) s = .next (kept.modBlock bid fun b => { b with pairs := modNth b.pairs pair fun p => { p with shadow :=
        ⟨wfmt, runs.mapIdx (fun k x => (k, rbVals (column k x))), []⟩ } })) ∧
    (∀ bf16 t rows idx k loc, o.kind = .msta bf16 t rows → rows[idx]? = some (k, loc) → s.tileRaced o t = false →
      let data := staBytes bf16 (e.b.tiles.getD t Tile.zero) k
      let wrote (b v : State) : Prop := BytesPut s v loc data false none ∧ v = { b with
        mem := v.mem, writes := v.writes, wrote := v.wrote, poison := v.poison, crypt := v.crypt, ops := v.ops, gangs := v.gangs, nextId := s.nextId + 1 }
      s.noObjects loc data.length →
        (∃ v, exec (.write id idx) s = .next v ∧ wrote { s with free := s.free + 1 } v ∧
          (v.op? id).map (·.kind) = some (.msta bf16 t (rows.eraseIdx idx))) ∧
        (rows = [(k, loc)] → ∃ v, exec (.done id) s = .next v ∧ wrote u v))

/-- ROW_TASK, READ and WRITE of a bank operation (R203, R250, R258, R321 to R326): the next row of a queued operation at its unit is computed from
the operands that it has read, and those it reads now; its results are written where its rows say, all that are left or one by one, the row
is taken and counted with the last, and nothing else happens. READ takes all operands of the row, or one byte, each once (log entry 57). DONE
of an operation whose rows are all taken ends it. A zero row is counted for no unit (log entry 23). -/
def Obligations.BanksWork : Prop :=
  (∀ (s : State) (o : Op) (e : Env) (id row : Nat) (r : BankRow), s.op? id = some o → o.rowAt row = some r → s.env? o.place.gid = some e →
    let n := o.kind.bankRows.length
    let count := o.kind.results r
    let seen (new : List (Nat × Byte × Bool)) (o : Op) : Op := { o with kind := o.kind.modRow row fun r => { r with seen := r.seen ++ new } }
    let put (which : List Nat) : State := (s.rowResults e o r (· ∈ which)).1.foldl (fun s x => s.bankPut e o r row x.seg x.loc x.data)
      (s.rowResults e o r (· ∈ which)).2
    let v := (put ((List.range count).filter (· ∉ r.written))).modOp id fun o => { o with kind := o.kind.modRow row fun r => { r with taken := true } }
    let t := if r.w = none then v
      else ((v.countUnit o r.die r.vault).count r.die (1550 + 2 * r.vault + 1) 1).serve o.ctx r.die (1550 + 2 * r.vault)
    exec (.rowTask id row) s = .next t ∧ exec (.write id row) s = .next t ∧
    (∀ k < count, k ∉ r.written → (∃ j < count, j ≠ k ∧ j ∉ r.written) → exec (.write id (n + (n * k + row))) s =
      .next ((put [k]).modOp id fun o => { o with kind := o.kind.modRow row fun r => { r with written := r.written ++ [k] } })) ∧
    (∃ new, exec (.read id row) s = .next (s.modOp id (seen new)) ∧
      (∀ x ∈ new, x.1 ∈ segLocs (o.kind.rowReads r) ∧ (∀ y ∈ r.seen, y.1 ≠ x.1) ∧
        x.2 = ((s.bankByte e (bankUnits r.die r.vault) [] id x.1).val, (s.bankByte e (bankUnits r.die r.vault) [] id x.1).bad)) ∧
      ∀ a ∈ segLocs (o.kind.rowReads r), ∃ x ∈ r.seen ++ new, x.1 = a) ∧
    ∀ (k a : Nat), (segLocs (o.kind.rowReads r))[k]? = some a → (∀ x ∈ r.seen, x.1 ≠ a) →
      let b := s.bankByte e (bankUnits r.die r.vault) [] id a
      exec (.read id (n + (n * k + row))) s = .next (s.modOp id (seen [(a, b.val, b.bad)]))) ∧
  ∀ (s : State) (o : Op) (id : Nat), s.op? id = some o → (∃ b a c q xs rows, o.kind = .bkmv b a c q xs rows) ∨ (∃ f c q ix rows, o.kind = .bkgth f c q ix rows) →
    o.cls = .bk → o.queued = true → (∀ r ∈ o.kind.bankRows, r.taken = true) → exec (.done id) s = .next ((s.pin o).dropOp id)

/-- HOME at a KEEP page (R156 to R161, R165, R255, R311): LD, LDK and LDSIB receive the cell's bytes, or its oldest siblings with its token; an
accepted STK joins the cell, one that its page folds is folded, one in deterministic mode is staged; RCN folds more siblings than one; an
atomic acts on a single sibling. Nothing else changes but the mark and the record of a cell found in error (R317), which the home makes
first. The cell's metadata can be read, and no agent outside a deterministic launch has changed what the launch reads of it (R348). -/
def Obligations.CellsServed : Prop :=
  ∀ (s : State) (o : Op) (e : Env) (id slot : Nat) (ea : Word), s.op? id = some o → o.thrs = [o.place.thr] ∨ o.cls = .atom → s.enabled o = true →
    s.lacksRod o = false → s.env? o.place.gid = some e → e.g.sound = true → (∀ m, e.g.trap = some m → ∀ n ∈ o.thrs, n ∈ m.mask) →
    let u := s.markCell e slot
    (∀ k ∈ u.cells, k.slot = slot → k.unreadable = false) → s.upsetBy e true slot = false →
    let k := u.cell slot
    let rg := (e.c.num, e.l.region)
    let me := e.actor o.place.thr
    (∀ off n d sext, o.kind = .keepLoad slot off n d sext ea → o.thrs = [o.place.thr] →
      let c := u.cellFor e slot
      ∃ t, exec (.home id) s = .next t ∧ t = { u with ops := s.ops.filter (fun x => x.id != id), gangs := t.gangs, free := t.free } ∧
        BeadsGot s t o fun _ => loadRegs d sext ea 1 (((c.slotBytes.mapIdx fun i b => ⟨b, decide (i < 8) && c.head.poison, none⟩).drop off).take n)) ∧
    (∀ d, o.kind = .ldk slot d ea → o.thrs = [o.place.thr] →
      let c := u.cellFor e slot
      ∃ t, exec (.home id) s = .next t ∧ t = { u with ops := s.ops.filter (fun x => x.id != id), gangs := t.gangs, free := t.free } ∧
        BeadsGot s t o fun _ => [(d, c.head.val, none), (d + 1, c.token ea.toNat, none)]) ∧
    (∀ n d, o.kind = .ldsib slot n d ea → n ≤ 8 → o.thrs = [o.place.thr] →
      ∃ t, exec (.home id) s = .next t ∧ t = { u with ops := s.ops.filter (fun x => x.id != id), gangs := t.gangs, free := t.free } ∧
        BeadsGot s t o fun _ => sibRegs (u.cellFor e slot) n d ea) ∧
    (∀ gen val bad ovf mop, o.kind = .keepStore slot gen val bad ea ovf mop →
      (e.l.det = true → exec (.home id) s = .next ((u.dropOp id).modBlock e.b.bid fun b =>
        { b with staged := stage b.staged (.keep id (e.place o.place.thr) slot gen val me mop bad) })) ∧
      (e.l.det = false → refusal u.cells k gen (e.c.quotaFull u.cells e.l.region) true = none →
        exec (.home id) s = .next ((u.dropOp id).changeCell (some o.launch) (k.accept gen val me (some rg)))) ∧
      (∀ r, e.l.det = false → refusal u.cells k gen (e.c.quotaFull u.cells e.l.region) true = some r → r ≠ subGEN → ovf = true →
        exec (.home id) s = .next ((u.dropOp id).changeCell (some o.launch) (k.merge gen val me (some rg) mop)))) ∧
    (∀ op ty d, o.kind = .rcn slot op ty d ea → o.thrs = [o.place.thr] → k.gen ≠ maxGen →
      let k1 := if k.sibs.length ≤ 1 then k else { k with gen := k.gen + 1, mrg := false, ue := k.ue && k.sibs.any (·.poison),
                                                           sibs := [⟨foldSibs op ty k.sibs, k.gen + 1, me, none, k.sibs.any (·.poison)⟩] }
      ∃ t, exec (.home id) s = .next t ∧
        t = { (if k.sibs.length ≤ 1 then u else u.changeCell (some o.launch) k1) with
          ops := s.ops.filter (fun x => x.id != id), gangs := t.gangs, free := t.free } ∧
        BeadsGot s t o fun _ => [(d, k1.head.val, none), (d + 1, k1.token ea.toNat, none)]) ∧
    (∀ (d : Option Reg) (ty : Ty) (f : Nat → Nat × List (Nat × Nat)),
      ((∃ aop vals, o.kind = .keepAtomic slot aop ty d vals ea ∧ f = (fun old => aggregate aop ty old vals) ∧ o.thrs = vals.map (·.1)) ∨
        ∃ r vals, o.kind = .keepCas slot ty r vals ea ∧ d = some r ∧ f = (fun old => casSteps ty old vals) ∧ o.thrs = vals.map (·.1)) →
      o.thrs.Nodup → k.sibs.length ≤ 1 → k.gen ≠ maxGen → k.head.poison = false →
      let x := f k.head.val.toNat
      ∃ t, exec (.home id) s = .next t ∧
        t = { u.changeCell (some o.launch) { k with
            gen := k.gen + 1, mrg := false, ue := false, sibs := [⟨BitVec.ofNat 64 x.1, k.gen + 1, me, none, false⟩] } with
          ops := s.ops.filter (fun x => x.id != id), gangs := t.gangs, free := t.free } ∧
        BeadsGot s t o fun u => match d, alGet x.2 u with
          | some r, some v => [(r, BitVec.ofNat 64 (v % 2 ^ ty.width), none)]
          | _, _ => [])

/-- HOME at a compaction unit, and QUIESCENCE_ARRIVAL (R191 to R195, R255, R293): one indivisible step on the list and its domain, with the
detector's check; the armed barrier object receives its arrival, at once where the domain is quiescent when it is armed. -/
def Obligations.ListsServed : Prop :=
  (∀ (s : State) (o : Op) (id : Nat), s.op? id = some o → s.enabled o = true → s.cxTurn o = true →
    let w := s.workOn o.kind
    (∀ d, o.kind = .cclose d → exec (.home id) s =
      .next (((if s.field d 4 = 0 then w.setFlag d 0 true else w.put d 4 (s.field d 4 - 1)).detect d).dropOp id)) ∧
    (∀ hdr dom base cap items item list, o.kind = .cappend hdr dom base cap items item list → s.looseList hdr cap = false →
      (s.field (hdr + 28) 4 + 2 * cap - s.field (hdr + 24) 4) % (2 * cap) ≠ cap →
      let tail := s.field (hdr + 28) 4
      let u := (w.pokeAs (itemLoc items base (tail % cap)) (leBytes 8 item.toNat) (w.keyHere hdr)).put (hdr + 28) 4 ((tail + 1) % (2 * cap))
      exec (.home id) s = .next ((match dom with
        | none => u
        | some d => (u.put (d + 8) 8 (u.field (d + 8) 8 + 1)).detect d).dropOp id)) ∧
    (∀ hdr base cap items d pc, o.kind = .ctake hdr base cap items d pc → s.looseList hdr cap = false → s.lacksRod o = false →
      (∀ g, s.gang? o.place.gid = some g → g.sound = true ∧ g.spec = none) → o.thrs = [o.place.thr] →
      let head := s.field (hdr + 24) 4
      let some? := head ≠ s.field (hdr + 28) 4
      let u := if some? then w.put (hdr + 24) 4 ((head + 1) % (2 * cap)) else w
      ∃ t, exec (.home id) s = .next t ∧ t = { u with ops := s.ops.filter (fun x => x.id != id), gangs := t.gangs, free := t.free } ∧
        BeadsGot u t o (fun _ => [(d, if some? then BitVec.ofNat 64 (rbNat (s.lastBytes (itemLoc items base (head % cap)) 8)) else 0xFFFFFFFFFFFFFFFF, none)]) ∧
        ∀ x, s.thread? o.place.gid o.place.thr = some x → ∃ y, t.thread? o.place.gid o.place.thr = some y ∧ y.preds = (x.setPred pc (decide some?)).preds) ∧
    (∀ hdr dom, o.kind = .cdone hdr dom → exec (.home id) s = .next (match dom with
      | none => w.dropOp id
      | some d =>
        let n := (s.field (d + 16) 8 + 1) % 2 ^ 64
        let u := w.put (d + 16) 8 n
        ((if s.field (d + 8) 8 < n then u.setFlag d 0 true else u).detect d).dropOp id)) ∧
    (∀ d bar, o.kind = .cquiet d bar → s.armsOn (dieOf d) < 64 ∨ (∃ a ∈ s.arms, a.dom = d) →
      let rest := s.arms.filter fun a => a.dom != d
      ∃ v : Word, let u := State.put { w with free := s.free + 1 } (d + 24) 8 v.toNat
        exec (.home id) s = .next ((if s.quiescent d then
            let x := State.setFlag { u with arms := rest } d 1 false
            let b := x.bobj o.place.bid bar
            if b.rem = 0 then x else x.putBobj o.place.bid bar (BObj.test { b with rem := b.rem - 1 })
          else State.setFlag { u with arms := rest ++ [⟨dieOf d, d, o.place.bid, bar, false⟩] } d 1 true).dropOp id))) ∧
  ∀ (s : State) (dom : Nat) (a : Arming), s.arms.find? (fun a => a.dom == dom && a.fired) = some a →
    let u := State.setFlag { s with arms := s.arms.filter fun x => x.dom != dom } dom 1 false
    let x := u.bobj a.bid a.off
    exec (.quiescenceArrival dom) s = .next (if x.rem = 0 then u else u.putBobj a.bid a.off (BObj.test { x with rem := x.rem - 1 }))

/-- COUNT (R177, R178, R241) of an arrival or a drop that may be counted: the object's counts fall as the rules give them, the completion
test follows, and the thread is marked, or registered no more. -/
def Obligations.ArrivalsCount : Prop :=
  ∀ (s : State) (id : Nat) (a : Arrival) (x : Thread), s.arrivals.find? (fun a => a.id == id) = some a → s.countable a = true →
    s.thread? a.place.gid a.place.thr = some x →
    let o := s.bobj a.place.bid a.off
    let o1 : BObj := if a.dropExp then { o with exp := o.exp - 1, rem := if o.rem ≠ 0 ∧ x.arrivedIn a.off o.phase = false then o.rem - 1 else o.rem }
      else { o with rem := o.rem - 1 }
    ∃ t, exec (.count id) s = .next t ∧
      t = { State.putBobj { s with arrivals := s.arrivals.filter fun y => y.id != a.id } a.place.bid a.off
        (if o1.rem = 0 ∧ o1.expb ≤ o1.landed then { o1 with landed := o1.landed - o1.expb, expb := 0, phase := (o1.phase + 1) % 2 ^ 32, rem := o1.exp }
         else o1) with gangs := t.gangs } ∧
      (∀ h, h ≠ a.place.gid → t.gang? h = s.gang? h) ∧
      t.thread? a.place.gid a.place.thr = some { x with
        regs := (if a.dropExp then [] else [⟨a.off, some o.phase⟩]) ++ x.regs.filter fun r => r.off != a.off }

/-- The gang timer, TIMER, and the deadlines of BWAIT and WTIME (R81, R112, R243, R287): at its deadline the gang timer becomes 0 and every
thread that has not exited has TIMER to perform once more; TIMER enters the thread's handler with the deadline, or is discarded without a
frame; the end of the cycle in which %wall reaches the deadline of a timed BWAIT decides what pd will be, and the deadline of BWAIT or WTIME
ends its thread's stall. -/
def Obligations.TimersFire : Prop :=
  (∀ (s : State) (gid : Nat) (g : Gang) (b : Block), s.gang? gid = some g → s.blockOf g = some b → g.spec = none → g.tmr ≠ 0 →
    g.tmr.toNat ≤ s.wall b.die → s.halted g = false →
    exec (.gangTimerFire gid) s = .next (s.modGang gid fun g => { g with
      tmr := 0, threads := g.threads.map fun x => if x.exited then x else { x with timers := x.timers ++ [g.tmr.toNat] } })) ∧
  (∀ (s : State) (gid n deadline : Nat) (rest : List Nat) (e : Env) (x : Thread), s.env? gid = some e → e.g.thread? n = some x →
    x.timers = deadline :: rest → x.exited = false → e.g.spec = none → e.g.trap = none → e.g.reinj = none → s.halted e.g = false →
    (∀ o ∈ s.ops, o.place.gid = gid → o.hold.isSome = true → n ∉ o.thrs) →
    let q : Req := ⟨n, 0xFF04, BitVec.ofNat 64 deadline, x.pc, true⟩
    let s0 : State := { s.modThread gid n fun x => { x with timers := x.timers.tail } with cur := { s.cur with regens := [] } }
    ∀ e0, s0.env? gid = some e0 →
    let s1 : State := { s0 with nextId := s0.nextId + 1, free := s0.free + 1 }
    (s0.readyPerform e0 q x.hsp.toNat = .none → exec (.timer gid n) s = .next s1) ∧
    ∀ y, s0.readyPerform e0 q x.hsp.toNat = .ok y → s0.boardFails e0 ((Ready.ok y).writes n) = [] →
      let wins := if y.fr.window then e0.g.rodsOf [240, 241, 242] else []
      s0.rodsReady e0 wins = true →
      exec (.timer gid n) s = .next (((((s1.noteEnters e0 s0.nextId wins [(n, y)]).enterHandler e0 s0.nextId q [n] y.f y.hpc y.regs).trace e0.l 3
        (engineWord e0.b.die 0 e0.b.core) (s.wall e0.b.die) 0xFF04).countRegens gid).modThread gid n fun x => { x with wtime := none, bwait := none })) ∧
  (∀ (s : State) (gid n : Nat) (g : Gang) (b : Block) (x : Thread) (w : BWait), s.gang? gid = some g → s.blockOf g = some b →
    g.thread? n = some x → x.bwait = some w → w.verdict = none → w.deadline ≤ s.wall b.die →
    s.decideWaits.thread? gid n = some { x with bwait := some { w with verdict := some ((s.bobj b.bid w.off).done w.phase) } }) ∧
  ∀ (s : State) (gid n : Nat) (g : Gang) (b : Block) (x : Thread), s.gang? gid = some g → s.blockOf g = some b → g.thread? n = some x → x.stall ≠ .none →
    (∀ w v, x.bwait = some w → w.verdict = some v →
      exec (.bwaitTimeout gid n) s = .next (s.modThread gid n fun x => { x with stall := .none })) ∧
    ∀ d deadline, x.wtime = some (d, deadline) → deadline ≤ s.wall b.die →
      exec (.wtimeDeadline gid n) s = .next (s.modThread gid n fun x => { x with stall := .none })

/-- Transitions of gangs (R48, R210, R213, R215, R220, R229, R353, R359, R372): a line is fetched ahead; a gang runs past its WAIT, by a FETCH
there (the model's choice, log entry 41); SQUASH, which may come at any time (log entry 41), restores what speculation changed; a due trap is
delivered at a boundary, CODE_GONE and BADTARGET at once in trap mode (the due marks are the model's, log entry 88); a rod is regenerated
ahead, or dropped under pressure; a pending gang enters the active set, in place of one whose threads all wait. -/
def Obligations.GangsProgress : Prop :=
  (∀ (s : State) (gid pc : Nat) (e : Env) (l : FLine), s.env? gid = some e → readLine s e.c (e.place 0).units pc = .ok l →
    exec (.fetch gid pc false) s = .next { s with line := some ⟨gid, lineOf pc, l⟩ } ∧
    ∀ f, fetchGo s e.c (e.place 0).units 2 pc = .ok f →
      exec (.fetch gid pc true) s = .next (State.runAhead { s with line := some ⟨gid, lineOf pc, l⟩ } e.g f)) ∧
  (∀ (s : State) (gid : Nat) (g : Gang) (sp : Spec), s.gang? gid = some g → g.spec = some sp →
    ∃ t, exec (.squash gid) s = .next t ∧ (∀ o, o ∈ t.ops ↔ o ∈ s.ops ∧ ¬(o.place.gid = gid ∧ sp.first ≤ o.id)) ∧
      ∃ g', t.gang? gid = some g' ∧ g'.spec = none ∧ g'.rods = sp.rods ∧ g'.descs = sp.descs ∧ g'.poison = sp.poison ∧ g'.tmr = sp.tmr ∧
        g'.rotation = sp.rotation ∧ g'.regen = sp.regen ∧ g'.threads.map Thread.view = sp.threads.map fun x => match g.thread? x.thr with
          | some y => { x.view with regs := y.regs, dropped := y.dropped }
          | none => x.view) ∧
  (∀ (s : State) (gid : Nat) (g : Gang) (p : PendTrap) (who : List Nat), s.gang? gid = some g → g.pend.head? = some p → g.spec = none → who ≠ [] →
    let live := p.thrs.filter fun n => ((g.thread? n).map fun x => !x.exited).getD false
    let at_ (n : Nat) : Nat := ((g.thread? n).map (·.pc)).getD 0
    (g.trap = none ∧ g.reinj = none ∧ who = live ∧ (∀ o ∈ s.ops, o.place.gid = gid → o.hold.isSome = true → ∀ n ∈ o.thrs, n ∉ live)) ∨
      (∃ m, g.trap = some m ∧ p.cause ≠ cPREEMPT ∧ who = live.filter (· ∈ m.mask)) →
    exec (.trapDelivery gid) s = .next ((s.modGang gid fun g => { g with pend := g.pend.erase p }).deliver gid p.cause 0
      (who.map fun n => ⟨n, if p.cause = cBADTARGET then BitVec.ofNat 64 (at_ n) else 0, 0⟩) [] at_)) ∧
  (∀ (s : State) (gid thr : Nat) (rod : Reg) (e : Env) (v : Word) (wids : List Nat), s.env? gid = some e → e.g.isRecipe rod.toNat = true →
    readBead s e true thr 4 rod.toNat = .ok v wids →
    ∃ t, exec (.regeneration gid rod thr) s = .next t ∧ t = { s with gangs := t.gangs, nextId := s.nextId + 1, free := s.free + 1 } ∧
      (∀ n r, t.reg gid n r = s.reg gid n r) ∧ ∃ g', t.gang? gid = some g' ∧ (rod.toNat, thr, v) ∈ g'.early) ∧
  (∀ (s : State) (gid : Nat) (rod : Reg) (e : Env), s.env? gid = some e → s.dropsNow e.b.die e.b.core = true →
    (firstDrop (s.dropCandidates e.b.die e.b.core)).map (fun x => (x.1, x.2.1)) = some (gid, rod.toNat) →
    ∃ t, exec (.rodDrop gid rod) s = .next t ∧ t = { s.modGang gid (fun g => g.dropRod rod.toNat) with dropping := t.dropping }) ∧
  ∀ (s : State) (out inn : Nat) (g h : Gang), s.gang? inn = some h → s.entersNext h = true →
    (s.activeOn h < Config.activeGangs → exec (.gangSwap out inn) s = .next (s.modGang inn fun g => { g with active := true, readySince := s.cycle })) ∧
    (Config.activeGangs ≤ s.activeOn h → s.gang? out = some g → g.active = true → s.sameCore g h = true → s.allWait g = true →
      exec (.gangSwap out inn) s = .next (((s.modGang out fun g => { g with active := false, readySince := s.cycle }).modGang inn fun g =>
        { g with active := true, readySince := s.cycle }).count (s.placeOf out 0).die (7 * (s.placeOf out 0).core + 5) 1))

/-! ### Blocks, launches, kicks -/

/-- BLOCK_START (R74, R76, R77, R235, R237, R271, R346): the block that the scheduler chooses begins on the core with its scratchpad range,
empty tags, zero tiles and empty pairs, or those with which it ended SAVED (log entry 110), and its gangs of up to 32 fresh threads at the
entry PC, whose %tepc, %taddr and %tslice are 0 (the model's choice, log entry 6); its launch runs and has started it. -/
def Obligations.BlocksStart : Prop :=
  ∀ (s : State) (die core b off pc : Nat) (l : Launch) (c : Context), s.choose die core = some l → s.placeable l die core = some (b, off) →
    s.ctx? l.ctx = some c →
    checkTarget s c [.block s.nextId, .cluster die (core / 4), .die die, .module, .system] true (l.cva + l.nd.entry) = .ok pc →
    s.launch? l.num = some l →
    let kept := (l.kept.find? fun k => k.1 == b).map (·.2)
    ∃ t, exec (.blockStart l.num die core) s = .next t ∧
      (∃ x ∈ t.blocks, x = ⟨s.nextId, l.num, b, b % l.nd.nb.1, b / l.nd.nb.1 % l.nd.nb.2.1, b / l.nd.nb.1 / l.nd.nb.2.1, die, core, off, round256 l.nd.spad,
        l.nd.threads, List.replicate l.nd.tags emptyTag, List.range l.nd.tags, [], (kept.map (·.1)).getD (List.replicate l.nd.tiles Tile.zero),
        (kept.map (·.2)).getD (List.replicate l.nd.pairs ⟨Plane.empty, Plane.empty⟩), [], false, [], false, [], s.wall die, []⟩ ∧ t.blocks = s.blocks ++ [x]) ∧
      (∃ gs, t.gangs = s.gangs ++ gs ∧ gs.length = (l.nd.threads + 31) / 32 ∧ ∀ (k : Nat) (g : Gang), gs[k]? = some g →
        g.gid = s.nextId + 1 + k ∧ g.bid = s.nextId ∧ g.idx = k ∧ g.rods = [] ∧ g.descs = [] ∧ g.trap = none ∧ g.pend = [] ∧
        g.threads.map (·.thr) = List.range (min 32 (l.nd.threads - 32 * k)) ∧
        ∀ x ∈ g.threads, x.view = ⟨pc, false, 0, 1, 0, 0, 0, 0, 0, 0x7F800000, 0, 0, 0, [], [], [], .none⟩ ∧ x.k = List.replicate 8 0) ∧
      ∃ l', t.launch? l.num = some l' ∧ l'.started = l.started ++ [b] ∧ l'.state = (if l.state = .ready then .running else l.state) ∧ l'.nd = l.nd

/-- GANG_END and BLOCK_END (R109, R235, R350, R353, R384): a gang whose threads have exited with nothing outstanding leaves the machine; so does
a block without gangs, its scratchpad reading 0; its launch counts it ended, or unstarted if it was saved, its tiles and planes then kept
(log entry 110); a deterministic one waits for its release. What a removal takes ends by the removal alone: GANG_END does nothing there. -/
def Obligations.BlocksEnd : Prop :=
  (∀ (s : State) (gid : Nat) (g : Gang) (l : Launch), s.gang? gid = some g → s.launchOf g = some l → s.ending l = true →
    exec (.gangEnd gid) s = .next s) ∧
  (∀ (s : State) (gid : Nat) (g : Gang), s.gang? gid = some g → (∀ x ∈ g.threads, x.exited = true) → (∀ o ∈ s.ops, o.place.gid ≠ gid) →
    (∀ a ∈ s.arrivals, a.place.gid ≠ gid) → (∀ l, s.launchOf g = some l → s.ending l = false) → g.gid = gid →
    ∃ t, exec (.gangEnd gid) s = .next t ∧
      t = { s with gangs := s.gangs.filter fun h => h.gid != gid, fences := t.fences, line := t.line, blocks := t.blocks } ∧
      (∀ f, f ∈ t.fences ↔ f ∈ s.fences ∧ (f.place.gid ≠ gid ∨ s.isDetBlock f.place.bid = true)) ∧
      t.blocks.map (fun b => { b with wids := [] }) = s.blocks.map (fun b => { b with wids := [] })) ∧
  (∀ (s : State) (bid : Nat) (b : Block) (l : Launch), s.block? bid = some b → b.ended = false → (∀ g ∈ s.gangs, g.bid ≠ bid) →
    s.launch? b.launch = some l → s.ending l = false →
    let u := (s.freeBlock bid l.det).trace l 1 (engineWord b.die 0 b.core) (s.wall b.die) l.seq
    ∃ t, exec (.blockEnd bid) s = .next t ∧ t = { u with launches := t.launches } ∧
      ∃ l', t.launch? b.launch = some l' ∧ l'.started = (if b.saved then l.started.filter (· ≠ b.linear) else l.started) ∧
        l'.ended = (if b.saved then l.ended else l.ended ++ [b.linear]) ∧ (b.saved = true → (b.linear, b.tiles, b.pairs) ∈ l'.kept)) ∧
  ∀ (s : State) (bid : Nat) (keep : Bool), (∀ a ∈ s.arms, a.bid ≠ bid) →
    (∀ w ∈ s.writes, overlap (w.loc, w.data.length) (scratchLoc bid 0, 2 ^ 20) = true →
      scratchLoc bid 0 ≤ w.loc ∧ w.loc + w.data.length ≤ scratchLoc bid 0 + 2 ^ 20) →
    let t := s.freeBlock bid keep
    (∀ a, if scratchLoc bid 0 ≤ a ∧ a < scratchLoc bid 0 + 2 ^ 20 then (t.byteAt a).1 = 0 ∧ (t.byteAt a).2.1 = false else t.byteAt a = s.byteAt a) ∧
      (∀ b ∈ t.blocks, b.bid = bid → keep = true ∧ b.ended = true ∧ b.ssize = 0 ∧ b.tiles = [] ∧ b.pairs = [] ∧ b.tags = [])

/-- The life of a launch (R261, R339, R341, R345, R347, R350, R366): FLAG marks a tile whose blocks have ended; LAUNCH_READY when an edge condition
holds for a block, or when a core with its features comes or goes, and a launch that becomes READY takes PRI, PERM, ABND and PDL of that moment;
it ends LATE_ABANDONED, ABANDONED_DEP or OK with its completion record (the record's place in its ring is the model's, log entry 16); RELEASE
puts the staged bytes of the lowest unreleased block of a deterministic launch in memory, in order, and a staged KEEP store into its cell. -/
def Obligations.LaunchesProgress : Prop :=
  (∀ (s : State) (n edge tile : Nat) (l : Launch) (g : Graph) (e : Edge) (t : EdgeTile), s.launch? n = some l → s.graph? l.graph = some g →
    g.edges[edge]? = some e → e.tile = some t → e.src = l.node → tile < tileCount l t → (edge, tile) ∉ l.flagged → s.flagReady l t tile = true →
    exec (.flag n edge tile) s = .next (s.modLaunch n fun l => { l with flagged := l.flagged ++ [(edge, tile)] })) ∧
  (∀ (s : State) (n : Nat) (l : Launch), s.launch? n = some l →
    (∀ c r, (l.state = .pending ∧ ∃ b < l.nd.blocks, s.depsOk l b = true) ∨ (l.state = .featureWait ∧ s.someCore l = true) → s.ctx? l.ctx = some c →
      c.effective l.region = some r →
      exec (.launchReady n) s = .next (s.modLaunch l.num fun l => { l with
        state := if s.someCore l then .ready else .featureWait, rcb := r, det := r.perm / 4 % 2 == 1 })) ∧
    (l.state = .ready → s.someCore l = false → exec (.launchReady n) s = .next (s.modLaunch n fun l => { l with state := .featureWait }))) ∧
  (∀ (s : State) (i : Instr) (n : Nat) (l : Launch) (st : LStatus), s.launch? n = some l → s.ending l = false →
    (i = .lateAbandoned n ∧ l.state ∈ [.pending, .ready, .featureWait] ∧ s.pastAbandon l = true ∧ st = .lateAbandoned) ∨
      (i = .launchComplete n ∧ l.state = .running ∧ l.ended.length = l.nd.blocks ∧ (l.det = true → l.released = l.nd.blocks) ∧ st = .ok) ∨
      (i = .launchComplete n ∧ l.state = .pending ∧ s.lostProducer l = true ∧ st = .abandonedDep) →
    ∃ t, exec i s = .next t ∧ (∀ x ∈ t.launches, x.num = n → x.state = .complete ∧ x.status = st) ∧
      t.reports = s.reports ++ [.launch l.kick (((s.queues.find? fun q => q.kick == l.kick).map (·.count)).getD 0) l.seq st l.late l.startWall
        (s.wall 0) l.detWord]) ∧
  ∀ (s : State) (n blk : Nat) (l : Launch) (b : Block) (c : Context), s.launch? n = some l → s.ending l = false →
    s.blocks.find? (fun b => b.launch == n && b.linear == blk && b.ended) = some b → s.ctx? l.ctx = some c → l.det = true → l.released = blk →
    l.state = .running →
    ∃ t, exec (.release n blk) s = .next t ∧ t.blocks = s.blocks.filter (fun x => x.bid != b.bid) ∧
      (∃ l', t.launch? n = some l' ∧ l'.released = blk + 1) ∧
      ((∀ w ∈ b.staged, ∃ id k p loc data, w = .bytes id k p loc data false ∧ s.linkDown loc = false) →
        t.cells = s.cells ∧ ∀ a, t.byteAt a = b.staged.foldl (fun v w => match w with
          | .bytes _ _ _ loc data _ => if loc ≤ a ∧ a < loc + data.length then (data.getD (a - loc) 0, false, s.keyAt (some l.ctx) loc) else v
          | .keep .. => v) (s.byteAt a)) ∧
      ∀ id p slot gen val actor op, b.staged = [.keep id p slot gen val actor op false] → gen ≤ (s.startCell l slot).gen →
        refusal s.cells (s.cell slot) gen (c.quotaFull s.cells l.region) true = none → (∀ x ∈ (s.cell slot).sibs, x.poison = false) →
        SameBytes s t ∧ t.cells = putCell s.cells ((s.cell slot).accept gen val actor (some (l.ctx, l.region)) false)

/-- KICK and PARAMETER_PLACE (R343, R344, R408): an accepted kick waits as a replay, a bad one is answered with BAD_VALUE (a report that the spec
gives no layout, log entries 16 and 69); the parameter blocks of a queue's first replay are written where they fit, and its launches, one
per node, are pending. -/
def Obligations.KicksLaunch : Prop :=
  (∀ (s : State) (reg : Nat) (w : Word) (q : Queue) (r : Replay), s.queues.find? (fun q => q.kick == reg) = some q → s.acceptKick q w = some r →
    exec (.kick reg w) s = .next { s with replays := s.replays ++ [r], nextId := s.nextId + 1 } ∧
      r.kick = q.kick ∧ r.ctx = q.ctx ∧ r.graph = w.toNat % 2 ^ 16) ∧
  (∀ (s : State) (reg : Nat) (w : Word), (∀ q, s.queues.find? (fun q => q.kick == reg) = some q → s.acceptKick q w = none) →
    ∃ t seq, exec (.kick reg w) s = .next t ∧ t.reports = s.reports ++ [.badKick reg seq] ∧ t = { s with reports := t.reports, queues := t.queues, msix := t.msix }) ∧
  ∀ (s : State) (id nxt : Nat) (r : Replay) (q : Queue) (c : Context) (g : Graph) (offs : List Nat), s.replays.find? (fun r => r.id == id) = some r →
    s.queues.find? (fun q => q.kick == r.kick) = some q → s.ctx? r.ctx = some c → s.graph? r.graph = some g → q.stopped = false →
    (∀ x ∈ s.replays, x.kick = r.kick → r.id ≤ x.id) →
    ringPlaces q.psize q.pnext (r.params.map (·.length)) (s.ringHeld q) = some (offs, nxt) →
    let u := (r.params.zip offs).foldl (fun s x => s.pokeVa c (q.pring + x.2) x.1) s
    ∃ t ls, exec (.parameterPlace id) s = .next t ∧ ls.length = g.nodes.length ∧
      t = { u with launches := s.launches ++ ls, nextLaunch := s.nextLaunch + g.nodes.length, replays := s.replays.filter fun x => x.id != id,
                   queues := s.queues.map fun x => if x.kick = q.kick then { x with pnext := nxt } else x } ∧
      ∀ (k : Nat) (l : Launch) (nd : Node), ls[k]? = some l → g.nodes[k]? = some nd →
        l.num = s.nextLaunch + k ∧ l.seq = s.nextLaunch + k ∧ l.node = k ∧ l.nd = nd ∧ l.state = .pending ∧ l.kparm = q.pring + offs.getD k 0 ∧ l.deadline = r.deadline ∧ l.replay = id ∧
          ∀ o, s.code? nd.code = some o → l.cva = o.va ∧ l.cfeat = o.feat ∧ l.cmin = o.minrods

/-! ### Administrative commands -/

/-- Every administrative command (R333 to R336, R394): one whose turn it is not does not begin; a packet that fails its checks leaves the ring with
its status and no effect; one that names what a command not yet completed names does not begin (the model's reading of R334: log entry 34 and
73 say what a command names); in health state FAILED only CTX_DESTROY, ATTEST and HEALTH_QUERY begin with an
effect (NO_RESOURCE for the others is the model's choice, log entry 24). -/
def Obligations.CommandsChecked : Prop :=
  ∀ (i : Instr) (s : State) (p : Packet) (specs : List FieldSpec) (names : Parsed → List (Nat × Nat)) (always : Bool),
    adminOf s i = some (p, specs, names, always) →
    (s.seqTurn p.seq = false → exec i s = .next s) ∧
    (s.seqTurn p.seq = true → ∀ st, parsePacket specs p = .error st → exec i s = .next (s.begun ⟨p.seq, [], packetNotify p, .done, st, 0, 0⟩)) ∧
    (s.seqTurn p.seq = true → ∀ q0, parsePacket specs p = .ok q0 → let q := q0.trim (trimOf s i q0)
      (s.busyNames (names q) = true → exec i s = .next s) ∧
      (s.busyNames (names q) = false → s.failed = true → always = false →
        exec i s = .next (s.begun ⟨p.seq, [], q.notify, .done, stNORESOURCE, q.ignored.toNat, 0⟩)))

/-- CTX_CREATE, CTX_DESTROY, with FORCE, REGION_DEFINE, with REFRESH, and a step of a removal (R335, R337 to R339, R378, R384): the context or
region exists as its control block says; a context without blocks and launches is destroyed; FORCE begins its removal, whose steps follow
one another. -/
def Obligations.ContextsManaged : Prop :=
  (∀ (p : Packet) (s : State) (q : Parsed) (r : Rcb), Begins s (.ctxCreate p) q → parseRcb (s.readPhys (q.nat 2) 128) = some r → q.nat 2 % 64 = 0 →
    inDram (q.nat 2) 128 = true → q.nat 3 % windowSize = 0 → q.nat 3 < 2 ^ 56 → r.parent = 0 → r.ovr = 0x1FFF →
    q.has 4 = (r.perm / 8 % 2 == 1) → s.sup.health ≠ .critical →
    exec (.ctxCreate p) s = .next (s.began (.ctxCreate p) q { s with
      nextCtx := s.nextCtx + 1,
      contexts := s.contexts ++ [⟨s.nextCtx, q.nat 2, q.nat 3, r.perm / 8 % 2 == 1, q.nat 4, 0, [⟨0, none, 0, r, .none⟩], [], false, false, false, [], 0⟩] }
      .done s.nextCtx)) ∧
  (∀ (p : Packet) (s : State) (q : Parsed) (c : Context), Begins s (.ctxDestroy p) q → s.ctx? (q.nat 2) = some c → s.hasBlocks c.num = false →
    s.liveLaunches c.num = 0 →
    exec (.ctxDestroy p) s = .next (s.began (.ctxDestroy p) q (s.modCtx c.num fun c => { c with restricted := true }) (.removed c.num) 0)) ∧
  (∀ (p : Packet) (s : State) (q : Parsed) (c : Context), Begins s (.ctxDestroyForce p) q → s.ctx? (q.nat 2) = some c →
    exec (.ctxDestroyForce p) s = .next (s.began (.ctxDestroyForce p) q { s.modCtx c.num (fun c => { c with restricted := true }) with
      removals := s.removals ++ [⟨s.nextId, c.num, none, 1, some p.seq⟩], nextId := s.nextId + 1 } (.removed c.num) 0)) ∧
  (∀ (p : Packet) (s : State) (q : Parsed) (c : Context) (bs : List Byte) (r : Rcb) (par : Region), Begins s (.regionDefine p) q → s.open? (q.nat 2) c →
    s.readCb c (q.nat 3) = .ok bs → parseRcb bs = some r → c.regionAt (q.nat 3) = none → c.regionAt r.parent = some par → c.freeRegion < 2 ^ 16 →
    let c1 := { c with regions := c.regions ++ [⟨c.freeRegion, some par.num, q.nat 3, r, par.preempt⟩] }
    c1.treeOk = true →
    exec (.regionDefine p) s = .next (s.began (.regionDefine p) q ((s.modCtx c.num fun _ => c1).pokeVa c (q.nat 3 + 8) (leBytes 2 c.freeRegion)) .done
      c.freeRegion)) ∧
  (∀ (p : Packet) (s : State) (q : Parsed) (c c1 : Context) (bs : List Byte) (r : Region), Begins s (.regionRefresh p) q → s.open? (q.nat 2) c →
    c.regionAt (q.nat 3) = some r → (if r.parent = none then .ok (s.readPhys c.rootCb 128) else s.readCb c (q.nat 3)) = .ok bs →
    c.refreshed r bs false = some c1 →
    let u := s.modCtx c.num fun _ => c1
    exec (.regionRefresh p) s = .next (s.began (.regionRefresh p) q
      (if r.parent = none then u.poke (c.rootCb + 8) (leBytes 2 r.num) else u.pokeVa c (q.nat 3 + 8) (leBytes 2 r.num)) .done r.num)) ∧
  ∀ (s : State) (id : Nat) (r : Removal), s.removals.find? (fun r => r.id == id) = some r →
    exec (.removalStep id) s = .next (if r.step < 8
      then { s.removeAt r with removals := (s.removeAt r).removals.map fun x => if x.id = id then { x with step := x.step + 1 } else x }
      else { s.removeAt r with removals := (s.removeAt r).removals.filter fun x => x.id != id })

/-- MAP, MAP with PEER, UNMAP and PROTECT (R295 to R298, R304, R365): the pages of the range exist with their attributes, KEEP pages beginning
as cells of what DRAM holds (which slots MAP and UNMAP reset is log entry 54); or they are gone, or changed, with the context's early regenerations
(R229), and the command waits for what translated under the old ones (what that is, is log entry 87). -/
def Obligations.PagesManaged : Prop :=
  (∀ (i : Instr) (p : Packet) (s : State) (q : Parsed) (c : Context), i = .map p ∨ i = .mapPeer p → Begins s i q → s.open? (q.nat 2) c →
    let va := q.nat 3
    let n := q.nat 4
    let sz := [2 ^ 12, 2 ^ 16, 2 ^ 21, 2 ^ 30, 2 ^ 35].getD (q.nat 5) 0
    let attr := q.nat 7
    let link := if q.has 0x11 then some (q.nat 0x11) else none
    let pa := match link with | some l => peerLoc l (q.nat 6) | none => q.nat 6
    let host := inHost (q.nat 6) n && link.isNone
    sz ≠ 0 → n ≠ 0 → n % sz = 0 → va % sz = 0 → q.nat 6 % sz = 0 → va + n ≤ 2 ^ 56 → attr < 2 ^ 12 → overlap (va, n) (c.window, windowSize) = false →
    (inDram (q.nat 6) n || host) = true → badAttr c (pageOf va sz pa attr link) host = false → c.mappedIn va n = [] →
    let u := s.modCtx c.num fun c => { c with pages := c.pages ++ (List.range (n / sz)).map fun k => pageOf (va + k * sz) sz (pa + k * sz) attr link }
    exec i s = .next (s.began i q (if attr / 8 % 2 = 1 then u.flatten [(pa, n, s.keyAt ((s.keeperOf pa).map (·.num)) pa)] else u) .done 0)) ∧
  (∀ (p : Packet) (s : State) (q : Parsed) (c : Context), Begins s (.unmap p) q → s.open? (q.nat 2) c →
    let ps := c.mappedIn (q.nat 3) (q.nat 4)
    ps ≠ [] → cutsPage ps (q.nat 3) (q.nat 4) = false →
    exec (.unmap p) s = .next (s.began (.unmap p) q ((s.modCtx c.num fun c => { c with pages := c.pages.filter fun p => p ∉ ps }).dropEarly c.num)
      (s.oldUses c ps true) 0)) ∧
  ∀ (p : Packet) (s : State) (q : Parsed) (c : Context), Begins s (.protect p) q → s.open? (q.nat 2) c →
    let ps := c.mappedIn (q.nat 3) (q.nat 4)
    let attr := q.nat 7
    let new (x : Page) : Page := pageOf x.va x.size x.pa attr x.link
    let fixed (a : Nat) : Nat := a - (a &&& 0x0F27)
    ps ≠ [] → cutsPage ps (q.nat 3) (q.nat 4) = false → (∀ x ∈ ps, fixed x.attr = fixed attr) →
    (∀ x ∈ ps, badAttr c (new x) (inHost x.pa x.size && x.link.isNone) = false) →
    exec (.protect p) s = .next (s.began (.protect p) q
      ((s.modCtx c.num fun c => { c with pages := c.pages.map fun x => if x ∈ ps then new x else x }).dropEarly c.num) (s.oldUses c ps false) 0)

/-- CODE_LOAD, CODE_UNLOAD, with FORCE, REPACK, with REPLACE, GRAPH_LOAD, GRAPH_FREE and QUEUE_BIND (R340, R342, R343, R357, R359, R407, R408): code,
graphs and queues exist as loaded, copied or bound, or are gone; FORCE makes graphs unusable and their launches that wait FAULTED; REPLACE
leaves forwarding lines. That REPACK's code is a copy is the model's choice (log entry 25). -/
def Obligations.CodeManaged : Prop :=
  (∀ (p : Packet) (s : State) (q : Parsed) (c : Context), Begins s (.codeLoad p) q → s.open? (q.nat 2) c →
    let n := q.nat 4
    let h := s.readPhys (q.nat 3) 64
    (inDram (q.nat 3) n || inHost (q.nat 3) n) = true → n % 64 = 0 → 64 ≤ n → q.nat 5 % 64 = 0 → fieldAt h 8 8 = n - 64 → fieldAt h 4 2 ≤ 256 → fieldAt h 6 2 = 0 → (∀ b ∈ h.drop 16, b = 0) →
    c.rangeStatus (q.nat 5) (n - 64) (·.x) = none →
    let u := s.pokeVa c (q.nat 5) (s.readPhys (q.nat 3 + 64) (n - 64))
    exec (.codeLoad p) s = .next (s.began (.codeLoad p) q
      { u with line := none, nextCode := s.nextCode + 1,
               codes := s.codes ++ [⟨s.nextCode, c.num, q.nat 5, n - 64, fieldAt h 0 4, fieldAt h 4 2, 1⟩] } .done s.nextCode)) ∧
  (∀ (p : Packet) (s : State) (q : Parsed) (o : CodeObj), Begins s (.codeUnload p) q → s.code? (q.nat 2) = some o → s.codeRefs o = 0 →
    exec (.codeUnload p) s = .next (s.began (.codeUnload p) q { s with codes := s.codes.filter fun x => x.handle != o.handle } .done 0)) ∧
  (∀ (p : Packet) (s : State) (q : Parsed) (o : CodeObj), Begins s (.codeUnloadForce p) q → s.code? (q.nat 2) = some o → s.gangsIn o = 0 →
    let lost := (s.graphs.filter fun g => g.names o.handle).map (·.handle)
    ∃ t, exec (.codeUnloadForce p) s = .next (s.began (.codeUnloadForce p) q t .done 0) ∧ t.codes = s.codes.filter (fun x => x.handle != o.handle) ∧
      t.graphs = s.graphs.map (fun g => if g.handle ∈ lost then { g with usable := false } else g) ∧
      (∀ l ∈ t.launches, l.graph ∈ lost → l.waiting = false) ∧ ∀ r ∈ t.replays, r.graph ∉ lost) ∧
  (∀ (replace : Bool) (p : Packet) (s : State) (q : Parsed) (o : CodeObj) (c : Context) (bs : List Byte),
    let i := if replace then Instr.repackReplace p else .repack p
    Begins s i q → s.code? (q.nat 2) = some o → s.open? o.ctx c → q.nat 4 % 64 = 0 → q.nat 3 ≠ 0 → s.readCtx c o.va o.size = .ok bs →
    let m := safeMap o.va (q.nat 4) o.size (boundaries bs)
    c.rangeStatus (q.nat 4) o.size (·.x) = none → c.rangeStatus (q.nat 4 + o.size) m.length (·.r) = none →
    let u := (s.pokeVa c (q.nat 4) bs).pokeVa c (q.nat 4 + o.size) m
    let w := if replace then (List.range (o.size / 64)).foldl (fun s k => s.pokeVa c (o.va + 64 * k) (forwardLine (q.nat 4 + o.size)).bytes) u else u
    exec i s = .next (s.began i q
      { w with line := none, nextCode := s.nextCode + 1,
               codes := s.codes ++ [{ o with handle := s.nextCode, va := q.nat 4, revision := q.nat 3 }] } .done s.nextCode)) ∧
  (∀ (p : Packet) (s : State) (q : Parsed) (c : Context) (g : Graph), Begins s (.graphLoad p) q → s.open? (q.nat 2) c → s.freeGraph < 2 ^ 16 →
    s.readGraph c (q.nat 3) s.freeGraph = .ok g →
    exec (.graphLoad p) s = .next (s.began (.graphLoad p) q { s with graphs := s.graphs ++ [g] } .done s.freeGraph)) ∧
  (∀ (p : Packet) (s : State) (q : Parsed) (g : Graph), Begins s (.graphFree p) q → s.graph? (q.nat 2) = some g → s.graphRefs g.handle = 0 →
    exec (.graphFree p) s = .next (s.began (.graphFree p) q { s with graphs := s.graphs.filter fun x => x.handle != g.handle } .done 0)) ∧
  ∀ (p : Packet) (s : State) (q : Parsed) (c : Context), Begins s (.queueBind p) q → s.open? (q.nat 3) c →
    (inDram (q.nat 4) (q.nat 5) || inHost (q.nat 4) (q.nat 5)) = true → (inDram (q.nat 6) (q.nat 7) || inHost (q.nat 6) (q.nat 7)) = true →
    q.nat 4 % 64 = 0 → q.nat 5 % 64 = 0 →
    q.nat 6 % 4096 = 0 → (∃ k, 12 ≤ k ∧ k ≤ 20 ∧ q.nat 7 = 2 ^ k) → q.nat 8 % 4096 = 0 → (∃ k, 12 ≤ k ∧ k ≤ 26 ∧ q.nat 9 = 2 ^ k) → s.liveOf (q.nat 2) = 0 →
    c.rangeStatus (q.nat 8) (q.nat 9) ringPage = none →
    exec (.queueBind p) s = .next (s.began (.queueBind p) q { s with
      queues := s.queues.filter (fun x => x.kick != q.nat 2) ++ [⟨q.nat 2, c.num, q.nat 4, q.nat 5, q.nat 6, q.nat 7, q.nat 8, q.nat 9, 0, q.nat 0x10, 0, false, false⟩] } .done 0)

/-- Pre-emption, switching and moving (R347, R352 to R356, R358, R394): DRAIN, URGENT, SWITCH and LIFT set the region and those below it; URGENT makes
PREEMPT due in the blocks that are not deterministic; a region past its PDL has its context removed (log entry 74); a halted context is saved
(where the sections stand is the model's, log entry 77), and restored when asked, or waits for a core with its features; MIGRATE_OUT halts a
context, and MIGRATE_IN rebuilds one from its image, not in health state CRITICAL. -/
def Obligations.PreemptionWorks : Prop :=
  (∀ (i : Instr) (p : Packet) (s : State) (q : Parsed) (c : Context), Begins s i q → s.open? (q.nat 2) c → (∃ r ∈ c.regions, r.num = q.nat 3) →
    let n := q.nat 3
    (i = .preemptDrain p → exec i s = .next (s.began i q (s.setPreempt c n .drain) (.drained c.num n) 0)) ∧
    (i = .preemptUrgent p → exec i s = .next (s.began i q ((s.setPreempt c n .urgent).dueTraps
      (((s.residents c.num n).filter fun b => !s.isDetBlock b.bid).map (·.bid))) (.drained c.num n) 0)) ∧
    (i = .preemptSwitch p → n = 0 → exec i s = .next (s.began i q ((s.setPreempt c 0 .drain).modCtx c.num fun c => { c with halted := true, featureWait := false })
      (.switched c.num) 0)) ∧
    (i = .preemptLift p → (n = 0 → c.halted = true → s.badArea c = false) →
      exec i s = .next (s.began i q (s.setPreempt c n .none) (if n = 0 ∧ c.halted = true then .restored c.num else .done) 0)) ∧
    (i = .preemptLift p → n = 0 → c.halted = true → s.badArea c = true → ∃ w, exec i s = .next (s.begun w) ∧ w.seq = p.seq ∧ w.status = stBADVALUE)) ∧
  (∀ (s : State) (ctx region : Nat) (c : Context), s.ctx? ctx = some c → s.overdue ctx region = true →
    (∀ r ∈ s.removals, r.ctx = ctx → r.fdom ≠ none) →
    let u := s.faultRecord { cls := 3, engine := engineWord 0 8 0, ctx := ctx, region := region, fdom := ((c.effective region).map (·.fdom)).getD 0,
                             wall := s.wall 0, conf := c.confidential }
    exec (.pdlExpiry ctx region) s = .next { u.modCtx ctx (fun c => { c with restricted := true }) with
      removals := s.removals ++ [⟨u.nextId, ctx, none, 1, none⟩], nextId := u.nextId + 1 }) ∧
  (∀ (s : State) (ctx : Nat) (c : Context), s.ctx? ctx = some c → s.mayHalt c = true →
    ∃ t v, exec (.contextHalt ctx) s = .next t ∧ t.saved = s.saved ++ [v] ∧ v.ctx = ctx ∧ (s.gangsOf ctx).map (·.gid) = v.gangs.map (·.gid) ∧
      v.area = (((s.gangsOf ctx).foldl (fun s g => s.squash g.gid) s).backHeld ctx).saveArea c { v with area := [] } ∧
      (∀ g ∈ t.gangs, ∀ h ∈ s.gangsOf ctx, g.gid ≠ h.gid) ∧ ∀ b ∈ t.blocks, ∀ x ∈ s.blocksOf ctx, b.bid ≠ x.bid) ∧
  (∀ (s t : State) (ctx : Nat) (c : Context) (v : Saved), s.ctx? ctx = some c → s.saved.find? (fun v => v.ctx == ctx) = some v →
    s.wantsRestore ctx = true ∨ c.featureWait = true → s.rebuild c v = some t → exec (.contextRestore ctx) s = .next t ∧ ∀ x ∈ t.saved, x.ctx ≠ ctx) ∧
  (∀ (s : State) (ctx : Nat) (c : Context) (v : Saved), s.ctx? ctx = some c → s.saved.find? (fun v => v.ctx == ctx) = some v →
    s.wantsRestore ctx = true ∨ c.featureWait = true → s.rebuild c v = none → s.lacksFeatures v = true →
    exec (.contextRestore ctx) s = .next (s.modCtx ctx fun c => { c with featureWait := true })) ∧
  (∀ (p : Packet) (s : State) (q : Parsed) (c : Context), Begins s (.migrateOut p) q → s.ctx? (q.nat 2) = some c →
    (inDram (q.nat 3) (q.nat 4) || inHost (q.nat 3) (q.nat 4)) = true →
    exec (.migrateOut p) s = .next (s.began (.migrateOut p) q
      ((if c.halted then s else s.setPreempt c 0 .drain).modCtx c.num fun c => { c with halted := true, featureWait := false })
      (.migrated c.num (q.nat 3) (q.nat 4) (!c.halted || c.featureWait)) 0)) ∧
  ∀ (p : Packet) (s t : State) (q : Parsed) (w : WaitFor) (d : Nat), Begins s (.migrateIn p) q →
    inMap (q.nat 2) (s.imageLen (q.nat 2)) = true → inMap (q.nat 3) (8 * mapCount (s.imageAt (q.nat 2))) = true →
    s.migrateIn (s.imageAt (q.nat 2)) (q.nat 3) = .wait t w d →
    exec (.migrateIn p) s = .next (s.began (.migrateIn p) q t w d) ∧ w = .restored s.nextCtx ∧ d = s.nextCtx ∧ s.sup.health ≠ .critical ∧ ∃ v, t.saved = s.saved ++ [v] ∧ v.ctx = s.nextCtx

/-- COMMAND_COMPLETE (R334, R335, R354, R358): a command whose wait is over, with room for its record, has its last effect and leaves the machine;
its NOTIFY arrives at its barrier objects; its 16-byte record is written where the completion ring ends (what CQ_SIZE 0 means is log entry 78), with
interrupt 0. MIGRATE_OUT ends with the
image in the buffer; where that is too small it answers its size, and a context that it has halted runs on first. -/
def Obligations.CommandsComplete : Prop :=
  (∀ (s : State) (seq : Nat) (w : Waiting), s.waiting.find? (fun w => w.seq == seq) = some w → s.waitOver w.wait = true → s.cqRoom = true →
    (∀ c a n f, w.wait ≠ .migrated c a n f) →
    exec (.commandComplete seq) s = .next ((match w.wait with
      | .old _ _ _ keep => (s.flatten keep).zeroMeta keep
      | .removed c => s.deleteCtx c
      | _ => s).recorded w)) ∧
  ∀ (s : State) (seq ctx image room : Nat) (fresh : Bool) (w : Waiting) (c : Context) (v : Saved), s.waiting.find? (fun w => w.seq == seq) = some w →
    s.waitOver w.wait = true → s.cqRoom = true → w.wait = .migrated ctx image room fresh → s.ctx? ctx = some c →
    s.saved.find? (fun v => v.ctx == ctx) = some v →
    let bs := s.image c v
    (bs.length ≤ room → ∃ u, exec (.commandComplete seq) s = .next (State.recorded u { w with detail := bs.length, wait := .done }) ∧
      u = { s with mem := u.mem, crypt := u.crypt, poison := u.poison, writes := u.writes, wrote := u.wrote, nextId := u.nextId, contexts := u.contexts } ∧
      u.contexts = (if c.confidential then s.modCtx ctx fun c => { c with sealedRecs := c.sealedRecs + 1 } else s).contexts ∧
      ∀ a, u.byteAt a = match bs[a - image]? with
        | some b => if image ≤ a then (b.val, b.bad, none) else s.byteAt a
        | none => s.byteAt a) ∧
    (room < bs.length →
      let w1 := { w with status := stNORESOURCE, detail := bs.length }
      exec (.commandComplete seq) s = .next (if fresh then
          { s.setPreempt c 0 .none with waiting := s.waiting.map fun x => if x.seq = seq then { w1 with wait := .restored ctx } else x }
        else s.recorded { w1 with wait := .done }))

/-! ### Supervision, host, peers, time -/

/-- Telemetry, trace, stops, keys, reports, health, boot, power (R332, R379, R382, R383, R386, R388, R389, R391 to R396): each setting takes the
values that its rule allows; reports, whose layout is the model's (log entry 16), are written where there is room; too many corrected errors,
or an uncorrectable one that repeats at a cell, make a unit due, and a due unit retires when no block holds it; BOOT keeps flash, fuses and
what they say, and nothing else (which checks it makes, and free values that count on, are log entries 5 and 107); a die that answers no more
fails the module; the power cap of a rail fault is log entry 82. -/
def Obligations.SupervisionWorks : Prop :=
  (∀ (p : Packet) (s : State) (q : Parsed),
    (Begins s (.telemetryCfg p) q → q.nat 3 = 0 ∨ (q.has 4 = true ∧ inMap (q.nat 3) (q.nat 4) = true ∧ ∃ k, 17 ≤ k ∧ k ≤ 63 ∧ q.nat 4 = 2 ^ k) →
      exec (.telemetryCfg p) s = .next (s.began (.telemetryCfg p) q
        { s with telemetry := { s.telemetry with next := some (q.nat 2, q.nat 3, q.nat 4) } } .done 0)) ∧
    (∀ c e, Begins s (.traceCfg p) q → s.open? (q.nat 2) c → c.effective (q.nat 3) = some e → e.perm / 2 % 2 = 1 →
      inMap (q.nat 4) (q.nat 5) = true →
      exec (.traceCfg p) s = .next (s.began (.traceCfg p) q { s with
        traces := (s.traces.filter fun t => t.ctx != c.num || t.region != q.nat 3) ++ [⟨c.num, q.nat 3, q.nat 4, q.nat 5, q.nat 6, 0, 0, 0⟩] } .done 0)) ∧
    (∀ c, s.open? (q.nat 2) c → (∃ x ∈ s.queues, x.kick = q.nat 7 ∧ x.ctx = c.num) →
      (Begins s (.traceStop p) q → exec (.traceStop p) s = .next (s.began (.traceStop p) q { s with
        queues := s.queues.map fun x => if x.kick = q.nat 7 then (if x.stopped then x else { x with stopped := true, told := false }) else x } .done 0)) ∧
      (Begins s (.traceRun p) q → exec (.traceRun p) s = .next (s.began (.traceRun p) q { s with
        queues := s.queues.map fun x => if x.kick = q.nat 7 then { x with stopped := false, told := false } else x } .done 0))) ∧
    (Begins s (.keyInstall p) q → inMap (q.nat 3) 384 = true → exec (.keyInstall p) s = .next (match Config.unwrapKey (s.readPhys (q.nat 3) 384) with
      | some k => s.began (.keyInstall p) q { s with sup := { s.sup with keys := alSet s.sup.keys (q.nat 2) k } } .done 0
      | none => s.begun ⟨p.seq, [(6, q.nat 2), nameRange (q.nat 3) 384], q.notify, .done, stDENIED, q.ignored.toNat, 0⟩)) ∧
    (Begins s (.healthQuery p) q → inMap (q.nat 2) (q.nat 3) = true → s.healthReport.length ≤ q.nat 3 →
      exec (.healthQuery p) s = .next (s.began (.healthQuery p) q (s.poke (q.nat 2) s.healthReport) .done (healthCode s.sup.health))) ∧
    (Begins s (.attest p) q → inMap (q.nat 3) (q.nat 4) = true → (q.has 5 = true → (s.ctx? (q.nat 5)).isSome = true) →
      let bs := s.attestReport (q.get 2) (if q.has 5 then some (q.nat 5) else none)
      bs.length ≤ q.nat 4 → exec (.attest p) s = .next (s.began (.attest p) q (s.poke (q.nat 3) bs) .done bs.length))) ∧
  (∀ (s : State), s.telemetry.due ≤ s.cycle → ∃ t, exec .telemetryTick s = .next t ∧ t.telemetry.tick = s.telemetry.tick + 1 ∧
    t.telemetry.served = [] ∧ t.telemetry.due = s.cycle + 2 ^ t.telemetry.k ∧
    (s.telemetry.next = none → t.telemetry.k = s.telemetry.k ∧ t.telemetry.base = s.telemetry.base)) ∧
  (∀ (s : State) (kick : Nat) (x : Queue), s.queues.find? (fun x => x.kick == kick) = some x → x.stopped = true → x.told = false →
    (∀ l ∈ s.launches, l.kick = kick → l.state ≠ .running) →
    ∃ t, exec (.queueStopped kick) s = .next t ∧ t.reports = s.reports ++ [.stopped kick x.count] ∧
      ∃ y, t.queues.find? (fun x => x.kick == kick) = some y ∧ y.told = true ∧ y.stopped = true) ∧
  (∀ (s : State) (u : UnitId), 1000 ≤ (s.sup.corrected.filter fun x => x.1 == u && decide (s.cycle < x.2 + 2 ^ 30)).length →
    u ∈ (s.correctError u).sup.due) ∧
  (∀ (s : State) (x : Upset), (x ∉ s.sup.struck → x ∈ (s.upset x).sup.struck ∧ (s.upset x).sup.due = s.sup.due) ∧
    ∀ u, x ∈ s.sup.struck → s.unitOf x = some u → u ∈ (s.upset x).sup.due) ∧
  (∀ (s : State) (u : UnitId), u ∉ s.sup.retired → u ∈ s.sup.due ∨ u ∈ s.sup.retiring →
    ((∃ d n, u = .cluster d n ∧ s.onCluster d n = true) → exec (.unitRetire u) s =
      .next { s with sup := { s.sup with retiring := s.sup.retiring.filter (· ≠ u) ++ [u] } }) ∧
    ((∀ d n, u = .cluster d n → s.onCluster d n = false) → exec (.unitRetire u) s =
      .next (State.updateHealth { s with sup := { s.sup with retired := s.sup.retired ++ [u], retiring := s.sup.retiring.filter (· ≠ u),
                                                              spares := s.sup.spares ++ (match u with | .vaultRow .. => [u] | _ => []) } }))) ∧
  (∀ (s : State) (die vault : Nat), UnitId.bank die vault ∈ s.sup.retired → UnitId.bank die vault ∉ s.sup.spares →
    exec (.spareApplied die vault) s = .next (State.updateHealth { s with sup := { s.sup with spares := s.sup.spares ++ [.bank die vault] } })) ∧
  (∀ (s : State), ∃ t, exec .boot s = .next t ∧
    t = { State.reset with free := s.free + 1, telemetry := { Telemetry.reset with epoch := s.free + 1 }, sup := t.sup, msix := [1] } ∧
    t.sup.retired = (if Config.vendorSigned (Config.configRecord (s.sup.retired.map unitCode)) then s.sup.retired else []) ∧
    t.sup.flash = s.sup.flash ∧ t.sup.keys = [] ∧ t.sup.rollback = t.sup.installed.getD s.sup.rollback ∧ t.sup.lost = s.sup.lost ∧
    (t.sup.installed = s.sup.flash.bind fun f => if Config.vendorSigned f.2 && s.sup.rollback ≤ f.1 then some f.1 else none) ∧
    ∀ u, u ∈ t.sup.due ↔ u ∈ allUnits ∧ Config.bootFails s.free (unitCode u) = true) ∧
  (∀ (s : State) (rev watts : Nat) (image : List Byte),
    exec (.packageWrite rev image) s = .next { s with sup := { s.sup with flash := some (rev, image) } } ∧
    (2000 ≤ watts → watts ≤ 8000 → exec (.powerLimitSet watts) s = .next { s with sup := { s.sup with limit := watts } }) ∧
    exec (.powerCapMeasure watts) s = .next { s with sup := { s.sup with watts := watts, capped := decide (s.powerLimit < watts) } } ∧
    exec .coolantOrRailFault s = .next (State.updateHealth { s with sup := { s.sup with railFault := true } })) ∧
  (∀ (s : State) (die : Nat), die ∉ s.sup.silent → ∃ t, exec (.dieNoLongerAnswers die) s = .next t ∧ t.sup.health = .failed ∧
    (∀ c ∈ t.contexts, c.restricted = true) ∧ ∀ c ∈ s.contexts, ∃ r ∈ t.removals, r.ctx = c.num ∧ r.fdom = none) ∧
  (∀ (s : State) (gid : Nat) (g : Gang) (thr reg : Nat), s.gang? gid = some g → g.hasBead thr reg = true →
    ∃ h, (s.upset (.bead gid thr reg)).gang? gid = some h ∧ h.rods = g.rods ∧ ∃ p ∈ h.poison, p.reg = reg ∧ p.thr = thr) ∧
  (∀ (s : State) (addr : Nat), let line := addr / 64 * 64
    inDram line 64 = true → s.keeperOf line = none → (s.upset (.line addr)).wrote = s.wrote ++ [s.history line (rbVals (s.lastBytes line 64)) true]) ∧
  (∀ (s : State) (die vault : Nat), die < 8 → vault < 128 → let t := s.upset (.vault die vault)
    (die, vault) ∈ t.sup.lost ∧ (s.sup.silent = [] → t.sup.health = .critical)) ∧
  ∀ (s : State) (addr : Nat), let line := addr / 64 * 64
    let r : FaultRec :=
      { cls := 2, engine := engineWord (dieOf line) 5 (Config.lineSlice (line / 64) % Config.slicesPerDie), wall := s.wall (dieOf line), addr := line }
    (s.keeperOf line = none → inDram line 64 = true → rbBad (s.lastBytes line 64) = true → exec (.scrub addr) s = .next (s.faultRecord r)) ∧
    let u := State.faultRecord { s with cells := putCell s.cells { s.cell line with ue := true } } r
    ((s.keeperOf line).isSome = true → (s.cell line).sibs.any (·.poison) = true → (∀ x ∈ s.cells, x.slot = line → x.ue = false) →
      (u.cell (line + 32)).sibs.any (·.poison) = false → exec (.scrub addr) s = .next u)

/-- The host, the peers and the time source (R154, R155, R360, R361, R363 to R368, R379): a register write changes its register, the rings' bases and
sizes only while no packet waits (log entry 78), and a read gives a register's value, or all ones; host and peer accesses read and write the bytes
of device memory and the host's own memory, ciphertext of an encrypted page (log entry 106), a peer's atomics at their home (log entry 84); eight
failing flits in a row take a link down, and it comes up again with nothing replayed; %wall steps forward at the first lock, and is slewed by one
nanosecond in 2,500 cycles after it (log entry 83); a module without a lock follows the lowest link with beacons. Where a read of the host goes
is the model's choice (log entry 9). -/
def Obligations.OutsideWorks : Prop :=
  (∀ (s : State) (off size : Nat) (v : Word), barAligned off size = true →
    (off < 0x50 → exec (.registerWrite off size v) s = .next { s with bar := s.bar.write off size v.toNat }) ∧
    (0x18000 ≤ off → exec (.registerWrite off size v) s = .next { s with msixTable := memPut s.msixTable off (leBytes size v.toNat) })) ∧
  (∀ (b : Bar0) (off : Nat) (v : Word), off % 8 = 0 → off < 0x50 →
    b.write off 8 v.toNat = { b with
      aqTail := if off = 0x10 then v else b.aqTail
      aqBase := if off = 0 ∧ b.aqTail = b.aqHead then v else b.aqBase
      aqSize := if off = 8 ∧ b.aqTail = b.aqHead then v else b.aqSize
      cqBase := if off = 0x18 ∧ b.aqTail = b.aqHead then v else b.cqBase
      cqSize := if off = 0x20 ∧ b.aqTail = b.aqHead then v else b.cqSize
      cqHead := if off = 0x28 then v else b.cqHead
      frBase := if off = 0x30 then v else b.frBase
      frSize := if off = 0x38 then v else b.frSize
      frHead := if off = 0x40 then v else b.frHead }) ∧
  (∀ (s : State), (∀ x ∈ [(0x00, s.bar.aqBase), (0x08, s.bar.aqSize), (0x18, s.bar.cqBase), (0x20, s.bar.cqSize), (0x28, s.bar.cqHead),
      (0x30, s.bar.frBase), (0x38, s.bar.frSize), (0x40, s.bar.frHead), (0x48, s.bar.frTail)],
      s.barRead x.1 8 = { s with free := s.free + 1, hostData := leBytes 8 x.2.toNat }) ∧
    ∀ off size, (barAligned off size = false → s.barRead off size = { s with free := s.free + 1, hostData := List.replicate size 255 }) ∧
      (barAligned off size = true → 0x18000 ≤ off → s.barRead off size = { s with free := s.free + 1, hostData := memBytes s.msixTable off size })) ∧
  (∀ (s : State) (addr n : Nat),
    let at_ (a : Nat) : RByte := s.byteFrom (s.latest hostUnits a) a
    (∀ k < n, match s.keeperOf (addr + k) with
      | some c => s.keyAt (some c.num) (addr + k) = none
      | none => s.keyIn (addr + k) (at_ (addr + k)) = none) →
    let byte (a : Nat) : Byte := if inDram a 1 = false ∧ inHost a 1 = false then 255
      else if (s.keeperOf a).isSome then (s.cell (a / 32 * 32)).slotBytes.getD (a % 32) 0
      else (at_ a).val
    exec (.hostRead addr n) s = .next { s with hostData := (List.range n).map fun k => byte (addr + k) }) ∧
  (∀ (s : State) (a : Nat) (key : List Byte), s.keeperOf a = none → inDram a 1 = true →
    s.keyIn a (s.byteFrom (s.latest hostUnits a) a) = some key →
    exec (.hostRead a 1) s = .next { s with hostData := [Config.xtsByte (some key) none a (rbVals (s.lastBytes (a / 16 * 16) 16))] }) ∧
  (∀ (s : State) (addr : Nat) (data : List Byte), data ≠ [] → s.noObjects addr data.length →
    (∀ k < data.length, (inDram (addr + k) 1 = true ∨ inHost (addr + k) 1 = true) ∧ s.keeperOf (addr + k) = none) →
    ∃ t, exec (.hostWrite addr data) s = .next t ∧ BytesPut s t addr data false none ∧
      t = { s with mem := t.mem, crypt := t.crypt, writes := t.writes, wrote := t.wrote, poison := t.poison, nextId := s.nextId + 1, ops := t.ops }) ∧
  (∀ (s : State) (link addr : Nat) (op : PeerOp) (l : Link), s.links[link]? = some l → l.up = true → inDram addr (peerBytes op) = true →
    (∀ k < peerBytes op, s.consents link (addr + k) = true) →
    (∀ n, op = .load n → exec (.peerAccess link addr op) s = .next { s with hostData := s.outsideRead addr n }) ∧
    (∀ d, op = .store d → exec (.peerAccess link addr op) s = .next (s.outsideWrite addr d)) ∧
    (s.keeperOf addr = none → s.noObjects addr (peerBytes op) → addr % peerBytes op = 0 →
      let bs := s.seenBy none addr (s.lastBytes addr (peerBytes op))
      (∀ ret aop ty v, op = .atomic ret aop ty v → ∃ t, exec (.peerAccess link addr op) s = .next t ∧
        t.hostData = (if ret then leBytes (ty.width / 8) (rbNat bs) else []) ∧
        BytesPut s t addr (leBytes (ty.width / 8) (atomStep aop ty (rbNat bs) (v.toNat % 2 ^ ty.width))) (rbBad bs && aop != .exch) none) ∧
      ∀ ty cmp swap, op = .cas ty cmp swap → ∃ t, exec (.peerAccess link addr op) s = .next t ∧ t.hostData = leBytes (ty.width / 8) (rbNat bs) ∧
        BytesPut s t addr (leBytes (ty.width / 8) (if rbNat bs = cmp.toNat % 2 ^ ty.width then swap.toNat % 2 ^ ty.width else rbNat bs)) (rbBad bs) none)) ∧
  (∀ (s : State) (link : Nat) (l : Link), s.links[link]? = some l → l.up = true →
    exec (.flitReceive link true) s = .next { s with links := modNth s.links link fun l => { l with fails := 0 } } ∧
    (l.fails < 7 → exec (.flitReceive link false) s = .next { s with links := modNth s.links link fun l => { l with fails := l.fails + 1 } }) ∧
    (7 ≤ l.fails → exec (.flitReceive link false) s = .next (State.loseStaged { s with
      links := modNth s.links link fun _ => ⟨false, 0⟩, sup := { s.sup with beacons := s.sup.beacons.filter (· ≠ link) } } link))) ∧
  (∀ (s : State) (link : Nat), (∀ o ∈ s.ops, o.overLink link = false) →
    exec (.linkRetrain link) s = .next { s with links := modNth s.links link fun l => if l.up then l else ⟨true, 0⟩ }) ∧
  (∀ (s : State) (offset : Int),
    (s.sup.everLocked = false → 0 < offset → exec (.ptpMessage offset) s = .next { s with
      wallAdj := s.wallAdj.map (· + offset), wallLast := s.walls,
      sup := { s.sup with locked := true, everLocked := true, slewLeft := 0 } }) ∧
    (s.sup.everLocked = true ∨ offset ≤ 0 → exec (.ptpMessage offset) s = .next { s with
      sup := { s.sup with locked := true, everLocked := true, slewLeft := offset } }) ∧
    (s.sup.slewLeft = 0 ∨ s.cycle % 2500 ≠ 0 → s.slewStep = s) ∧
    (∀ d : Int, s.cycle % 2500 = 0 → (d = 1 ∧ 0 < s.sup.slewLeft) ∨ (d = -1 ∧ s.sup.slewLeft < 0) → s.slewStep = { s with
      wallAdj := s.wallAdj.map (· + d), wallLast := s.walls, sup := { s.sup with slewLeft := s.sup.slewLeft - d } })) ∧
  ∀ (s : State) (link wall : Nat) (l : Link),
    let ks := s.sup.beacons.filter (· ≠ link) ++ [link]
    (s.links[link]? = some l → l.up = true → s.sup.locked = false → (∀ k ∈ s.sup.beacons, link ≤ k) → exec (.timeBeacon link wall) s =
      .next { s with sup := { s.sup with beacons := ks, slewLeft := (wall : Int) - (s.wall (link / 2) : Int) } }) ∧
    (s.links[link]? = some l → l.up = true → s.sup.locked = true ∨ (∃ k ∈ s.sup.beacons, k < link) → exec (.timeBeacon link wall) s =
      .next { s with sup := { s.sup with beacons := ks } }) ∧
    s.loseBeacon link = { s with sup := { s.sup with beacons := s.sup.beacons.filter (· ≠ link) } } ∧
    (∀ i w, (i, w) ∈ s.sendBeacons.sup.sent ↔ (∃ l, s.links[i]? = some l ∧ l.up = true) ∧ w = s.wall (i / 2)) ∧
    exec .lossOfLock s = .next { s with sup := { s.sup with locked := false } }

/-! ### What the lanes compute -/

/-- Bit by bit: AND, OR, XOR, ANDN, NOT and BREV, and the S forms of the first three (R55, R97); MOV, MOVI and SEL (R60, R90, R92) copy the bits of
their operand, MOVI those of its literal; POPC, CLZ and CTZ count. SHL, SHR, SAR, ROT, BFE and BFI, and the S forms of SHL and SHR with their imm8 forms (R55, R98, R99): n is operand B as an
unsigned integer of the type's width; bits shifted in are 0, or A's sign for SAR; BFE and BFI take pos from B[7:0] and len from B[15:8], cut at
the width. -/
def Obligations.BitsAndFields : Prop :=
  (∀ (g : Guard) (ty : Ty) (d a : Reg) (b : Opnd) (c rb : Reg) (right : Bool), ty.count = 1 →
    let w := ty.width
    let n (x : LaneIn) : Nat := x.b.toNat % 2 ^ w
    let pos (x : LaneIn) : Nat := x.b.toNat % 256
    let len (x : LaneIn) : Nat := if w ≤ pos x then 0 else min (x.b.toNat / 256 % 256) (w - pos x)
    let left (x : LaneIn) (n k : Nat) : Bool := decide (n ≤ k) && x.a.getLsbD (k - n)
    let down (w : Nat) (x : LaneIn) (n k : Nat) : Bool := decide (k + n < w) && x.a.getLsbD (k + n)
    LaneBits (.shl g ty d a b) d w (fun x k => left x (n x) k) ∧
    LaneBits (.shr g ty d a b) d w (fun x k => down w x (n x) k) ∧
    LaneBits (.sar g ty d a b) d w (fun x k => x.a.getLsbD (min (k + n x) (w - 1))) ∧
    LaneBits (.rot g ty d a b right) d w (fun x k => x.a.getLsbD ((if right then k + n x else k + (w - n x % w)) % w)) ∧
    (ty.isInt = true → LaneBits (.bfe g ty d a b) d w fun x k => len x != 0 &&
      (if k < len x then x.a.getLsbD (pos x + k) else ty.isSigned && x.a.getLsbD (pos x + len x - 1))) ∧
    LaneBits (.bfi g ty d a b c) d w (fun x k =>
      if pos x ≤ k ∧ k < pos x + len x then x.a.getLsbD (k - pos x) else x.c.getLsbD k) ∧
    LaneBits (.shlS d a rb) d 64 (fun x k => left x x.b.toNat k) ∧ LaneBits (.shlImmS d a rb) d 64 (fun x k => left x x.b.toNat k) ∧
    LaneBits (.shrS d a rb) d 64 (fun x k => down 64 x x.b.toNat k) ∧ LaneBits (.shrImmS d a rb) d 64 (fun x k => down 64 x x.b.toNat k) ∧
    (let and (x : LaneIn) (k : Nat) : Bool := x.a.getLsbD k && x.b.getLsbD k
     let or (x : LaneIn) (k : Nat) : Bool := x.a.getLsbD k || x.b.getLsbD k
     let xor (x : LaneIn) (k : Nat) : Bool := x.a.getLsbD k != x.b.getLsbD k
     let ones (x : LaneIn) (P : Nat → Bool) : Nat := ((List.range w).filter fun k => x.a.getLsbD k && P k).length
     LaneBits (.and g ty d a b) d w and ∧ LaneBits (.andS d a rb) d 64 and ∧ LaneBits (.or g ty d a b) d w or ∧ LaneBits (.orS d a rb) d 64 or ∧
     LaneBits (.xor g ty d a b) d w xor ∧ LaneBits (.xorS d a rb) d 64 xor ∧
     LaneBits (.andn g ty d a b) d w (fun x k => x.a.getLsbD k && !x.b.getLsbD k) ∧ LaneBits (.not g ty d a) d w (fun x k => !x.a.getLsbD k) ∧
     LaneBits (.brev g ty d a) d w (fun x k => x.a.getLsbD (w - 1 - k)) ∧
     LaneGives (.popc g ty d a) (fun x => { regs := [(d, BitVec.ofNat 64 (ones x fun _ => true))] }) ∧
     (∃ v : LaneIn → Nat, LaneGives (.clz g ty d a) (fun x => { regs := [(d, BitVec.ofNat 64 (v x))] }) ∧
       ∀ x, v x ≤ w ∧ (∀ k, k < v x → x.a.getLsbD (w - 1 - k) = false) ∧ (v x < w → x.a.getLsbD (w - 1 - v x) = true)) ∧
     ∃ v : LaneIn → Nat, LaneGives (.ctz g ty d a) (fun x => { regs := [(d, BitVec.ofNat 64 (v x))] }) ∧
       ∀ x, v x ≤ w ∧ (∀ k, k < v x → x.a.getLsbD k = false) ∧ (v x < w → x.a.getLsbD (v x) = true))) ∧
  ∀ (g : Guard) (ty : Ty) (d a : Reg) (b : Opnd) (pc : Pred) (v : W32),
    let w : Nat := if ty ∈ [Ty.b32, .s32, .z32, .f32] then 32 else 64
    LaneBits (.mov g ty d a) d w (fun x k => x.a.getLsbD k) ∧ LaneBits (.movS d a) d 64 (fun x k => x.a.getLsbD k) ∧
    LaneBits (.sel g ty d a b pc) d w (fun x k => if pc = 7 ∨ x.preds.getLsbD pc.toNat = true then x.a.getLsbD k else x.b.getLsbD k) ∧
    ∃ u : Word, LaneGives (.movi g ty d v) (fun _ => { regs := [(d, u)] }) ∧
      if ty = .f64 then FpVal.of fmt64 u.toNat = (FpVal.of fmt32 v.toNat).quiet ∧ ((FpVal.of fmt32 v.toNat).isNan = true → u.toNat = fmt64.nan)
      else ∀ k < 64, u.getLsbD k = v.getLsbD (if ty = .s64 ∨ ty = .b64 then min k 31 else if 1 < ty.count then k % ty.width else k)

/-- Integer arithmetic (R55, R92, R93, R95, R100 to R103) in every sub-element, modulo 2^w: sums, differences, products, the high half of a
product, negation, absolute value, the smaller and the larger, saturation at the ends of the type's range; carry and borrow; LEA; comparison
with its combining operation; PLOP's table and PMOV both ways; BPERM's source bytes. IDIV and IREM (R94): the quotient truncated toward zero, and the
remainder, which takes the sign of the dividend; by zero, all ones and the dividend; of the most negative value by −1, that value and 0: the
instruction completes, so neither case traps, and no flag is set. -/
def Obligations.IntegersWrap : Prop :=
  (∀ (g : Guard) (ty : Ty) (d a : Reg) (b : Opnd) (c rb : Reg), ty.isArith = true →
    let w := ty.width
    let A (x : LaneIn) (k : Nat) : Int := ty.int (sub ty x.a k)
    let B (x : LaneIn) (k : Nat) : Int := ty.int (sub ty x.b k)
    let C (x : LaneIn) (k : Nat) : Int := ty.int (sub ty x.c k)
    let lo : Int := if ty.isSigned then -(2 ^ (w - 1) : Nat) else 0
    let hi : Int := if ty.isSigned then (2 ^ (w - 1) : Nat) - 1 else (2 ^ w : Nat) - 1
    LaneSubs (.iadd g ty d a b) d ty (fun x k => A x k + B x k) ∧
    LaneSubs (.isub g ty d a b) d ty (fun x k => A x k - B x k) ∧
    LaneSubs (.imul g ty d a b) d ty (fun x k => A x k * B x k) ∧
    LaneSubs (.imad g ty d a b c) d ty (fun x k => A x k * B x k + C x k) ∧
    LaneSubs (.imulh g ty d a b) d ty (fun x k => A x k * B x k / (2 ^ w : Nat)) ∧
    LaneSubs (.ineg g ty d a) d ty (fun x k => -A x k) ∧
    LaneSubs (.iabs g ty d a) d ty (fun x k => if A x k < 0 then -A x k else A x k) ∧
    LaneSubs (.imin g ty d a b) d ty (fun x k => min (A x k) (B x k)) ∧
    LaneSubs (.imax g ty d a b) d ty (fun x k => max (A x k) (B x k)) ∧
    LaneSubs (.iadds g ty d a b) d ty (fun x k => max lo (min hi (A x k + B x k))) ∧
    LaneSubs (.isubs g ty d a b) d ty (fun x k => max lo (min hi (A x k - B x k))) ∧
    LaneSubs (.iaddS d a rb) d .s64 (fun x _ => (x.a.toNat : Int) + x.b.toNat) ∧
    LaneSubs (.isubS d a rb) d .s64 (fun x _ => (x.a.toNat : Int) - x.b.toNat) ∧
    LaneSubs (.imulS d a rb) d .s64 (fun x _ => (x.a.toNat : Int) * x.b.toNat)) ∧
  (∀ (g : Guard) (ty : Ty) (d a : Reg) (b : Opnd) (cin : Option Pred) (cout : Pred), ty = .z32 ∨ ty = .z64 →
    let w := ty.width
    let carry (x : LaneIn) : Nat := match cin with
      | none => 0
      | some p => if p = 7 ∨ x.preds.getLsbD p.toNat = true then 1 else 0
    LaneGives (.iaddc g ty d a b cin cout) (fun x => let k := x.a.toNat % 2 ^ w + x.b.toNat % 2 ^ w + carry x
      { regs := [(d, BitVec.ofNat 64 (k % 2 ^ w))], preds := [(cout, decide (2 ^ w ≤ k))] }) ∧
    LaneGives (.isubb g ty d a b cin cout) (fun x => let k : Int := (x.a.toNat % 2 ^ w : Nat) - (x.b.toNat % 2 ^ w : Nat) - (carry x : Nat)
      { regs := [(d, BitVec.ofNat 64 (k % (2 ^ w : Nat)).toNat)], preds := [(cout, decide (k < 0))] })) ∧
  (∀ (g : Guard) (ty : Ty) (cmp : ICmp) (comb : Comb) (pd pc : Pred) (a : Reg) (b : Opnd), ty.isInt = true ∨ ty.isBits = true →
    LaneGives (.setp g ty cmp comb pd a b pc) fun x =>
      let A : Int := ty.int (sub ty x.a 0)
      let B : Int := ty.int (sub ty x.b 0)
      let r : Bool := match cmp with
        | .eq => decide (A = B) | .ne => decide (A ≠ B) | .lt => decide (A < B) | .le => decide (A ≤ B) | .gt => decide (A > B)
        | .ge => decide (A ≥ B)
      let p : Bool := decide (pc = 7) || x.preds.getLsbD pc.toNat
      { preds := [(pd, match comb with | .plain => r | .and => r && p | .or => r || p | .xor => r ^^ p)] }) ∧
  (∀ (g : Guard) (d a c : Reg) (b : Opnd) (sh : BitVec 6),
    LaneSubs (.lea g d a b sh) d .b64 (fun x _ => (x.a.toNat : Int) + x.b.toNat * 2 ^ sh.toNat) ∧
    LaneBits (.bperm g d a b c) d 64 (fun x k =>
      let j := x.b.toNat / 2 ^ (4 * (k / 8)) % 16
      if j < 8 then x.a.getLsbD (8 * j + k % 8) else x.c.getLsbD (8 * (j - 8) + k % 8))) ∧
  (∀ (g : Guard) (pd pa pb pc : Pred) (lut : BitVec 8) (d a : Reg) (mask : BitVec 7),
    let is (x : LaneIn) (p : Pred) : Bool := decide (p = 7) || x.preds.getLsbD p.toNat
    LaneGives (.plop g pd pa pb pc lut) (fun x =>
      { preds := [(pd, lut.getLsbD ((if is x pa then 4 else 0) + (if is x pb then 2 else 0) + if is x pc then 1 else 0))] }) ∧
    LaneBits (.pmov g (.toReg d)) d 8 (fun x k => is x (BitVec.ofNat 3 k)) ∧
    LaneGives (.pmov g (.fromReg a mask)) (fun x =>
      { preds := ((List.range 7).filter fun i => mask.getLsbD i).map fun i => (BitVec.ofNat 3 i, x.a.getLsbD i) })) ∧
  ∀ (g : Guard) (ty : Ty) (d a : Reg) (b : Opnd), ty.isInt = true →
    let w := ty.width
    let A (x : LaneIn) : Int := ty.int (sub ty x.a 0)
    let B (x : LaneIn) : Int := ty.int (sub ty x.b 0)
    let edge (x : LaneIn) : Prop := ty.isSigned = true ∧ A x = -(2 ^ (w - 1) : Nat) ∧ B x = -1
    let bead (k : Int) : Word := BitVec.ofNat 64 (k % (2 ^ w : Nat)).toNat
    ∃ q r : LaneIn → Int,
      LaneGives (.idiv g ty d a b) (fun x => { regs := [(d, bead (q x))] }) ∧
      LaneGives (.irem g ty d a b) (fun x => { regs := [(d, bead (r x))] }) ∧
      ∀ x, (B x = 0 → q x = -1 ∧ r x = A x) ∧ (edge x → q x = -(2 ^ (w - 1) : Nat) ∧ r x = 0) ∧
        (B x ≠ 0 → ¬ edge x → A x = q x * B x + r x ∧ (r x).natAbs < (B x).natAbs ∧ (r x ≠ 0 → (r x < 0 ↔ A x < 0)) ∧
          (q x).natAbs * (B x).natAbs ≤ (A x).natAbs)

/-- Floating-point arithmetic (R21, R25 to R31, R42, R55, R121, R123, R125, R127, R128): in every sub-element FADD, FSUB, FMUL, FFMA, FDIV and
FSQRT, the S forms of FADD and FMUL, FSCALE and FDOT give their exact result rounded once in the mode, with its flags; NaNs are canonical,
infinities and zeros as the rules give them; FRND gives an integral value. The sign of an exact zero toward −∞ is log entry 89, FDOT's special
inputs are log entry 29. -/
def Obligations.FloatsRound : Prop :=
  (∀ (g : Guard) (ty : Ty) (rnd : Rnd) (d a : Reg) (b : Opnd) (c n : Reg), ty.isFp = true →
    let f := Ty.fm ty
    let md (x : LaneIn) : RM := RM.of rnd x.fpc
    let A (x : LaneIn) (k : Nat) : FpVal := .of f (sub ty x.a k)
    let B (x : LaneIn) (k : Nat) : FpVal := .of f (sub ty x.b k)
    let C (x : LaneIn) (k : Nat) : FpVal := .of f (sub ty x.c k)
    LaneFloats (.fadd g ty rnd d a b) d ty (fun x k => f.Gives (md x) (.sum (md x) [A x k, B x k])) ∧
    LaneFloats (.fsub g ty rnd d a b) d ty (fun x k => f.Gives (md x) (.sum (md x) [A x k, (B x k).negate])) ∧
    LaneFloats (.fmul g ty rnd d a b) d ty (fun x k => f.Gives (md x) ((A x k).mul (B x k))) ∧
    LaneFloats (.ffma g ty rnd d a b c) d ty (fun x k => f.Gives (md x) (.sum (md x) [(A x k).mul (B x k), C x k])) ∧
    LaneFloats (.fdiv g ty rnd d a b) d ty (fun x k => f.Gives (md x) ((A x k).div (B x k))) ∧
    LaneFloats (.fsqrt g ty rnd d a) d ty (fun x k => f.Root (md x) (A x k)) ∧
    LaneFloats (.frnd g ty rnd d a) d ty (fun x k => f.Integral (md x) (sub ty x.a k)) ∧
    LaneFloats (.fscale g ty rnd d a n) d ty (fun x k => f.Gives (md x) ((A x k).scale (x.b.setWidth 32).toInt))) ∧
  (∀ (g : Guard) (ty : Ty) (rnd : Rnd) (d a b c : Reg), (Ty.fmt ty).isSome = true →
    LaneFloats (.fdot g ty rnd d a b c) d .f32 (fun x _ => fmt32.Gives (RM.of rnd x.fpc) (.sum (RM.of rnd x.fpc)
      (.of fmt32 (sub .f32 x.c 0) :: (List.range ty.count).map fun k => (FpVal.of (Ty.fm ty) (sub ty x.a k)).mul (.of (Ty.fm ty) (sub ty x.b k)))))) ∧
  ∀ (d a b : Reg),
    let S (i : Instr) (ty : Ty) (mul : Bool) : Prop := LaneFloats i d ty fun x k =>
      let A := FpVal.of (Ty.fm ty) (sub ty x.a k)
      let B := FpVal.of (Ty.fm ty) (sub ty x.b k)
      (Ty.fm ty).Gives (RM.ofFpc x.fpc) (if mul then A.mul B else .sum (RM.ofFpc x.fpc) [A, B])
    S (.faddF32S d a b) .f32 false ∧ S (.fmulF32S d a b) .f32 true ∧ S (.faddF32x2S d a b) .f32x2 false ∧ S (.fmulF32x2S d a b) .f32x2 true ∧
    S (.faddBf16x4S d a b) .bf16x4 false ∧ S (.fmulBf16x4S d a b) .bf16x4 true

/-- FMIN, FMAX, FSETP, FCLASS and, in .f32, the special inputs and exact cases of FRCP, FRSQ, FEXP2, FLOG2, FSIN, FCOS, FTANH and FSIGM (R26, R31,
R41, R123 to R126): the lesser or greater operand, −0 below +0, a number before a NaN; FSETP's comparisons with their NaN rules and the
combining operation; the one class of a value; each special function's table. -/
def Obligations.FloatsCompare : Prop :=
  (∀ (g : Guard) (ty : Ty) (d a : Reg) (b : Opnd), ty.isFp = true →
    LaneFloats (.fmin g ty d a b) d ty (fun x k r => r = (Ty.fm ty).least false (sub ty x.a k) (sub ty x.b k)) ∧
    LaneFloats (.fmax g ty d a b) d ty (fun x k r => r = (Ty.fm ty).least true (sub ty x.a k) (sub ty x.b k))) ∧
  (∀ (g : Guard) (ty : Ty) (cmp : FCmp) (comb : Comb) (pd pc : Pred) (a : Reg) (b : Opnd), ty = .f32 ∨ ty = .f64 →
    LaneGives (.fsetp g ty cmp comb pd a b pc) fun x =>
      let A := FpVal.of (Ty.fm ty) (sub ty x.a 0)
      let B := FpVal.of (Ty.fm ty) (sub ty x.b 0)
      let none : Bool := !A.isNan && !B.isNan
      let r : Bool := match cmp with
        | .eq => none && !A.below B && !B.below A | .ne => !none || A.below B || B.below A | .lt => none && A.below B | .le => none && !B.below A
        | .gt => none && B.below A | .ge => none && !A.below B | .num => none | .nan => !none
      let p : Bool := decide (pc = 7) || x.preds.getLsbD pc.toNat
      { preds := [(pd, match comb with | .plain => r | .and => r && p | .or => r || p | .xor => r ^^ p)],
        fl := flagIf (A.invalid || B.invalid || (!none && cmp ∈ [FCmp.lt, .le, .gt, .ge])) flNV }) ∧
  (∀ (g : Guard) (ty : Ty) (d a : Reg), ty = .f32 ∨ ty = .f64 → LaneGives (.fclass g ty d a) fun x =>
    { regs := [(d, BitVec.ofNat 64 (2 ^ match FpVal.of (Ty.fm ty) (sub ty x.a 0) with
      | .nan v => if v then 0 else 1
      | .inf n _ => if n then 2 else 9
      | .num n v => if v = 0 then (if n then 5 else 6) else if v < 2 ^ (1 - (Ty.fm ty).bias : Int) then (if n then 4 else 7) else if n then 3 else 8))] }) ∧
  ∀ (g : Guard) (d a : Reg) (fn : Sfu),
    let i : Instr := match fn with
      | .rcp => .frcp g .f32 d a | .rsq => .frsq g .f32 d a | .exp2 => .fexp2 g .f32 d a | .log2 => .flog2 g .f32 d a
      | .sin => .fsin g .f32 d a | .cos => .fcos g .f32 d a | .tanh => .ftanh g .f32 d a | .sigm => .fsigm g .f32 d a
    LaneFloats i d .f32 fun x _ r =>
      let A := FpVal.of fmt32 (sub .f32 x.a 0)
      (∀ v, sfuFlagged fn A = some v → r = v) ∧
      (∀ y, SfuExact fn A y → (∃ c < 2 ^ 32, FpVal.of fmt32 c = y) → FpVal.of fmt32 r.bits = y ∧ r.fl = 0)

/-- Conversions and blocks in registers (R22 to R26, R29 to R34, R36, R129 to R137): CVT's elements, matched by group; CVTQ's elements, outliers
and mask (its bits where the destination has no element keep: log entry 91; which flags a NaN threshold and an infinity under scale 0xFF set:
log entry 111); OLPACK's side entries; OLUNPK; BLKHDR in its three modes; DQ; PACK and UNPACK, which undo each other. -/
def Obligations.FormatsConvert : Prop :=
  (∀ (g : Guard) (dst src : Ty) (rnd : Rnd) (satf : Bool) (h : BitVec 4) (d a : Reg), (Instr.cvt g dst src rnd satf h d a).wf = true →
    LaneFloats (.cvt g dst src rnd satf h d a) d dst fun x k r => match matched dst src h.toNat k with
      | some j => Converts dst src (RM.of rnd x.fpc) satf (sub src x.a j) r
      | none => r = ⟨sub dst x.d k, 0⟩) ∧
  (∀ (g : Guard) (dst src : Ty) (rnd : Rnd) (satf : Bool) (h : BitVec 4) (d a b : Reg), (Instr.cvtq g dst src rnd satf h d a b).wf = true →
    ∃ (v m : LaneIn → Word) (fl : LaneIn → FlagSet),
      LaneGives (.cvtq g dst src rnd satf h d a b) (fun x => { regs := [(d, v x), (d + 1, m x)], fl := fl x }) ∧
      ∀ x, let el (j : Nat) : FpVal := .elem src (sub src x.a j)
        let e := x.b.toNat % 256
        let T := FpVal.of fmt32 (sub .f32 x.olth 0)
        (∀ k, (m x).getLsbD k = (decide (k < 16) && match (if k < dst.count then matched dst src h.toNat k else none) with
          | some j => outlierOf (el j) e T
          | none => (x.x.headD 0).getLsbD k)) ∧
        ∃ rs : Nat → FRes, (∀ k < dst.count, sub dst (v x) k = (rs k).bits ∧ match matched dst src h.toNat k with
            | some j => Quantises dst (RM.of rnd x.fpc) satf e T (el j) (rs k)
            | none => rs k = ⟨sub dst x.d k, 0⟩) ∧
          ∀ j, (fl x).getLsbD j = true ↔ ∃ k < dst.count, (rs k).fl.getLsbD j = true) ∧
  (∀ (g : Guard) (dst src : Ty) (rnd : Rnd) (h : BitVec 4) (d a b c : Reg), (Instr.olpack g dst src rnd h d a b c).wf = true →
    ∃ (v : LaneIn → Word) (fl : LaneIn → FlagSet), LaneGives (.olpack g dst src rnd h d a b c) (fun x => { regs := [(d, v x)], fl := fl x }) ∧
      ∀ x, let slot (k : Nat) : Nat := x.c.toNat + ((List.range k).filter fun i => x.b.getLsbD i).length
        let put (k : Nat) (j : Nat) : Prop := k < dst.count ∧ matched dst src h.toNat k = some j ∧ x.b.getLsbD k = true ∧ slot k < 3
        ∃ rs : Nat → FRes, sub .bf16x4 (v x) 0 = sub .bf16x4 x.d 0 ∧
          (∀ k j, put k j → sub .bf16x4 (v x) (slot k + 1) = (rs k).bits ∧ fmtBf16.Gives (RM.of rnd x.fpc)
            ((FpVal.elem src (sub src x.a j)).scale (127 - (x.d.toNat / 256 % 256 : Nat))) (rs k)) ∧
          (∀ i < 3, (∀ k j, put k j → slot k ≠ i) → sub .bf16x4 (v x) (i + 1) = sub .bf16x4 x.d (i + 1)) ∧
          ∀ i, (fl x).getLsbD i = true ↔ ∃ k j, put k j ∧ (rs k).fl.getLsbD i = true) ∧
  (∀ (g : Guard) (ty : Ty) (d a : Reg), LaneBits (.olunpk g ty d a) d 64 fun x k => decide (k < ty.count) && decide (markerOf ty = some (sub ty x.a k))) ∧
  (∀ (g : Guard) (ty : Ty) (d a : Reg), (ty.isBlk = true →
      LaneGives (.blkhdr g ty .scale d a) (fun x => { regs := [(d, BitVec.ofNat 64 (codeOf ty + 256 * (x.a.toNat % 256)))] }) ∧
      ∃ e : LaneIn → Nat, LaneGives (.blkhdr g ty .amax d a) (fun x => { regs := [(d, BitVec.ofNat 64 (codeOf ty + 256 * e x))] }) ∧
        ∀ x, Covers ty (.of fmt32 (sub .f32 x.a 0)) (e x)) ∧
    LaneGives (.blkhdr g .b32 .zero d a) fun x => { regs := [(d, BitVec.ofNat 64 (256 * (x.a.toNat % 256)))] }) ∧
  (∀ (g : Guard) (dst : Ty) (rnd : Rnd) (h : BitVec 4) (d a b c : Reg), dst.isFp = true →
    LaneFloats (.dq g dst rnd h d a b c) d dst fun x j => (Ty.fm dst).Gives (RM.of rnd x.fpc)
      (let i := dst.count * h.toNat + j
       match (List.find? (fun ty => codeOf ty == x.b.toNat % 256) [.bf16x4, .f16x4, .e4m3x8, .e5m2x8, .s8x8, .n4x16, .f32x2]) with
       | some ty => if ty.count ≤ i then .num false 0
         else decoded ty (x.b.toNat / 256 % 256) (fun j => sub .bf16x4 x.b (j + 1))
           (x.c.toNat + ((List.range i).filter fun k => markerOf ty = some (sub ty x.a k)).length) (sub ty x.a i)
       | none => .num false 0)) ∧
  (∀ (g : Guard) (d a : Reg),
    LaneGives (.pack g d a) (fun x => { regs := (packBlock (x.a :: x.x)).mapIdx fun k v => (d + BitVec.ofNat 8 k, v) }) ∧
    LaneGives (.unpack g d a) (fun x => { regs := (unpackBlock (x.a :: x.x)).mapIdx fun k v => (d + BitVec.ofNat 8 k, v) })) ∧
  ∀ es : List Word, es.length = 8 →
    (packBlock es).length = 8 ∧ (∀ j < 512, ((packBlock es).getD (j / 64) 0).getLsbD (j % 64) =
      if j < 16 then (es.getD 7 0).getLsbD j else if j < 464 then (es.getD ((j - 16) / 64) 0).getLsbD ((j - 16) % 64) else (es.getD 7 0).getLsbD (j - 448)) ∧
    unpackBlock (packBlock es) = es ∧ packBlock (unpackBlock es) = es

/-- Runs, blocks and passes (R35 to R38, R199, R200, R272 to R274, R322): a block's elements decode with its scale and side list; a floating-point
dot product goes on block by block, each block's exact sum rounded and then added; an integer one clamps after each block and tells that it
did; a pass writes one row of its tile and that row's INT, FMT and SAT, no other; BKMV's dot product is that of its run's format, and its result is
the canonical NaN for a bad row, else the sum, or the sum rounded to BF16. -/
def Obligations.RunsAccumulate : Prop :=
  (∀ (code : Nat) (bs : List Byte) (ty : Ty), ty.isBlk = true → codeOf ty = code →
    let elem (i : Nat) : Nat := leNat ((bs.drop 2).take 56) / 2 ^ (ty.width * i) % 2 ^ ty.width
    bs.length = 64 → (blkDecode code bs).map FpVal.ofFp = (List.range (448 / ty.width)).map fun i =>
      decoded ty (bs.getD 1 0).toNat (fun j => leNat ((bs.drop (58 + 2 * j)).take 2))
        ((List.range i).filter fun k => markerOf ty = some (elem k)).length (elem i)) ∧
  (∀ (n : Nat) (x w xs ws : List Fp) (acc : W32), 0 < n → x.length = n ∨ 0 < x.length ∧ x.length ≤ n ∧ xs = [] →
    w.length = x.length → xs.length = ws.length →
    ∃ next, StepsBy (x.zip w) acc next ∧ dotBlocks n (x ++ xs) (w ++ ws) acc = dotBlocks n xs ws next ∧ dotBlocks n [] [] acc = acc) ∧
  (∀ (n : Nat) (x w xs ws : List Int) (acc : Int), 0 < n → x.length = n ∨ 0 < x.length ∧ x.length ≤ n ∧ xs = [] →
    w.length = x.length → xs.length = ws.length →
    let v := acc + ((x.zip w).map fun p => p.1 * p.2).sum
    let next := max (-2 ^ 31) (min (2 ^ 31 - 1) v)
    sumBlocks n (x ++ xs) (w ++ ws) acc = ((sumBlocks n xs ws next).1, decide (v ≠ next) || (sumBlocks n xs ws next).2) ∧
      sumBlocks n [] [] acc = (acc, false)) ∧
  (∀ (pl : Plane) (t : Tile) (row afmt : Nat) (raw acc : Bool) (bs : List Byte), row < 32 → afmt ∈ [1, 2, 3, 4, 5, 6] → pl.wfmt ∈ [1, 2, 3, 4, 5, 6] →
    let u := passRow pl t row afmt raw acc bs
    let start (c : Nat) : W32 := if acc then t.word row c else 0
    let W (c : Nat) : List Int × Bool := runInts pl.wfmt (pl.blocks c)
    let halves : Bool := decide (afmt ≤ 2) && decide (pl.wfmt ≤ 2)
    let mixed : Bool := decide (afmt ≤ 2) != decide (pl.wfmt ≤ 2)
    let ints : Bool := decide (5 ≤ afmt) && decide (5 ≤ pl.wfmt) || decide (afmt = 5 ∧ pl.wfmt = 6) || decide (afmt = 6 ∧ pl.wfmt = 5)
    let n : Nat := if halves then 28 else if afmt = 6 ∧ pl.wfmt = 6 then 112 else 56
    (∀ r c, r ≠ row → u.word r c = t.word r c ∧ u.flag r = t.flag r) ∧ (u.flag row).getLsbD 2 = (t.flag row).getLsbD 2 ∧
    (mixed = true → (∀ c < 128, u.word row c = BitVec.ofNat 32 fmt32.nan) ∧ (u.flag row).getLsbD 3 = false ∧ (u.flag row).getLsbD 1 = true ∧
      (u.flag row).getLsbD 0 = (t.flag row).getLsbD 0) ∧
    (ints = true → let S (c : Nat) : Int × Bool := sumBlocks n (actInts raw afmt bs).1 (W c).1 (start c).toInt
      (∀ c < 128, u.word row c = BitVec.ofInt 32 (S c).1) ∧ (u.flag row).getLsbD 3 = true ∧
      ((u.flag row).getLsbD 1 = true ↔ (t.flag row).getLsbD 1 = true ∨ (actInts raw afmt bs).2 = true ∨ ∃ c < 128, (W c).2 = true) ∧
      ((u.flag row).getLsbD 0 = true ↔ (t.flag row).getLsbD 0 = true ∨ ∃ c < 128, (S c).2 = true)) ∧
    (mixed = false → ints = false →
      (∀ c < 128, u.word row c = dotBlocks n (actFloats raw afmt bs) (pl.floats c).1 (start c)) ∧ (u.flag row).getLsbD 3 = false ∧
      ((u.flag row).getLsbD 1 = true ↔ (t.flag row).getLsbD 1 = true ∨ ∃ c < 128, (pl.floats c).2 = true) ∧
      (u.flag row).getLsbD 0 = (t.flag row).getLsbD 0)) ∧
  (∀ (cols c : Nat) (bl : List (List Byte)) (x : List Fp) (a0 : W32), rowFormat cols bl = some c →
    let n := (cols + blkCount c - 1) / blkCount c
    (c ∈ [3, 4, 5, 6] → n ≤ 256 → bankDot cols bl x a0 = some (dotBlocks (blkCount c) x (((bl.take n).flatMap fun b =>
      if blkCode b = c then blkDecode c b else List.replicate (blkCount c) (if blkCode b = 0 then .fin false 0 0 else .nan false)).take cols) a0)) ∧
    (c ∉ [3, 4, 5, 6] ∨ 256 < n → bankDot cols bl x a0 = none)) ∧
  (∀ bf16, bankResult bf16 none = if bf16 then leBytes 2 fmtBf16.nan else leBytes 4 fmt32.nan) ∧
  ∀ v : W32, bankResult false (some v) = leBytes 4 v.toNat ∧
    ∃ r, fmtBf16.Gives .ne (FpVal.of fmt32 v.toNat).quiet r ∧ bankResult true (some v) = leBytes 2 r.bits

/-! ### Encodings, the step, the invariant -/

/-- Words written out from the spec's encodings (R46, R54, R55, R57, R60, R65, R93, R101, R106, R121, R178, R251) decode to what they stand
for. -/
def Obligations.DecodeWords : Prop :=
  decodeList [0x14000091, 0x00091C00] = some (.setp ⟨7, false⟩ .z64 .lt .plain 0 0 (.reg 5) 0, 2) ∧
  decodeList [0x08001019, 0x00251C00] = some (.iaddc ⟨7, false⟩ .z64 4 0 (.reg 2) none 1, 2) ∧
  decodeList [0x00000115, 0x00002000] = some (.exit ⟨0, true⟩, 2) ∧
  decodeList [0xFFE80101, 0x000007FF] = some (.bra ⟨1, false⟩ (.parcels (-6)), 2) ∧
  decodeList [0x201C2581, 0x00059C00] = some (.fadd ⟨7, false⟩ .f32 .rn 9 7 (.reg 8), 2) ∧
  decodeList [0x00002C0A, 0x00015C00, 0] = some (.movi ⟨7, false⟩ .b64 11 0, 3) ∧
  decodeList [0x001C059A, 0x00419C00, 0] = some (.fsetp ⟨7, false⟩ .f32 .lt .plain 1 7 (.lit 0) 0, 3) ∧
  decodeList [0x002C2B45, 0x00001C00] = some (.arrive ⟨7, false⟩ 10 11, 2) ∧
  decodeList [0x282C034D, 0x00001C00] = some (.bwait ⟨7, false⟩ 11 10, 2) ∧
  decodeList [0x000012B9, 0x40081C00] = some (.fence ⟨7, false⟩ .die 2 32, 2) ∧
  decodeList [0x00202362, 0x00000400, 0x42] = some (.perform ⟨1, false⟩ 8 (.lit 0x42) 8, 3) ∧
  decodeList [0xFFFFFFFF] = none ∧ decodeList [3] = none ∧ decodeList [0x00000000] = none

/-- Decoding and encoding agree (R53 to R67): every well-formed instruction of the opcode table decodes from its own parcels, whatever follows
them, with its length; and parcels that decode to an instruction are that instruction's encoding, so no two words mean the same. -/
def Obligations.RoundTrip : Prop :=
  (∀ (i : Instr) (rest : List W32), i.wf = true → encode i ≠ [] → decodeList (encode i ++ rest) = some (i, (encode i).length)) ∧
  ∀ (p0 p1 p2 : W32) (i : Instr) (n : Nat), decodeParcels p0 p1 p2 = some (i, n) → i.wf = true ∧ encode i = [p0, p1, p2].take n

/-- A step runs what it fetches (R43 to R49, R53, R206, R208, R212, R250): first the threads whose stall has ended are ready, which changes nothing
else of any thread or register; then, where the default order chooses an issue group and the parcels of its fetch line, which reads and passes
parity, decode at the group's PC to an instruction, the step is that instruction's execution, one cycle later, with it in the issue slot, and then
that of the second of its pair with the same mask, where every thread of the group stands at it. What stands on the agenda is done as it is: a
transition is executed, an issue issues the group that it names, if the gang may choose it. The order of steps is log entry 4's, and when a stall
ends log entry 37's. -/
def Obligations.StepRunsDecoded : Prop :=
  (∀ (s : State), let bare (g : Gang) : Gang := { g with readySince := 0, threads := g.threads.map fun x => { x with stall := .none } }
    s.wake = { s with gangs := s.wake.gangs } ∧ s.wake.gangs.map bare = s.gangs.map bare) ∧
  (∀ (s : State) (gid pc : Nat) (mask : List Nat) (e : Env) (l : FLine) (i : Instr) (n : Nat), let t := s.wake.tick
    let us := (e.place (mask.headD 0)).units
    s.agenda = [] → s.wake.plan = .issue (.group gid pc mask) → t.env? gid = some e → t.line = none → readLine t e.c us pc = .ok l → l.map? = none →
    parcelOf pc + n ≤ 15 → decodeList (l.parcels.drop (parcelOf pc)) = some (i, n) →
    let v : State := { t.modGang gid (fun g => { g with readySince := t.cycle + 1 }) with
      line := none, cur := ⟨gid, pc, nextPc t e.c us l (lineOf pc) (parcelOf pc) n, mask, (l.encAt (parcelOf pc)).1,
        (l.encAt (parcelOf pc)).2.1, n, (fetchIn t e.c us l pc).pair, none, false, [], 0⟩ }
    (v.cur.pair = none → step s = exec i v) ∧
    ∀ u p, v.cur.pair = some p → exec i v = .next u →
      (v.secondGoes u v.cur p = false → step s = .next u) ∧
      ∀ j k, v.secondGoes u v.cur p = true → decodeParcels (BitVec.ofNat 32 p.enc.toNat) (BitVec.ofNat 32 (p.enc.toNat / 2 ^ 32)) p.lit = some (j, k) →
        step s = exec j { u with cur := ⟨gid, p.pc, p.next, mask, p.enc, p.lit, p.len, none, none, true, [], 0⟩ }) ∧
  ∀ (s : State) (rest : List Event), let t : State := { s.wake with agenda := rest }
    (∀ i, s.agenda = .take i :: rest → step s = exec i t) ∧
    (∀ gid pc, s.agenda = .issue gid pc :: rest →
      (∀ c, t.tick.issueAt gid pc = some c → step s = run t.tick c 0) ∧ (t.tick.issueAt gid pc = none → step s = .next t)) ∧
    (∀ gid pc n, s.agenda = .issueLate gid pc n :: rest →
      (∀ c, t.tick.issueAt gid pc = some c → step s = run t.tick c n) ∧ (t.tick.issueAt gid pc = none → step s = .next t)) ∧
    (∀ x, s.agenda = .upset x :: rest → step s = .next (t.upset x)) ∧
    (∀ x, s.agenda = .corrected x :: rest → step s = .next (t.correctError x)) ∧
    (∀ off size, s.agenda = .barRead off size :: rest → step s = .next (t.barRead off size)) ∧
    (s.agenda = .sendBeacons :: rest → step s = .next t.sendBeacons) ∧
    ∀ link, s.agenda = .beaconLost link :: rest → step s = .next (t.loseBeacon link)

/-- What reset leaves, of what the spec gives (R361, R367, R387): %wall is 0 on every die, the BAR0 registers and every event count
are 0, no context, code, queue, launch, block, gang or outstanding operation exists; memory lists nothing and is in its canonical form,
and no gang is unsound. -/
def Obligations.ResetState : Prop :=
  let s := State.reset
  (∀ die < 8, s.wall die = 0) ∧ s.bar = ⟨0, 0, 0, 0, 0, 0, 0, 0, 0, 0, 0, 0⟩ ∧ s.telemetry.counters = [] ∧ s.contexts = [] ∧ s.codes = [] ∧
    s.graphs = [] ∧ s.queues = [] ∧ s.launches = [] ∧ s.blocks = [] ∧ s.gangs = [] ∧ s.ops = [] ∧ s.mem = [] ∧ Memory.wf s.mem = true ∧ s.gangsSound = true

/-- Every step keeps memory in its canonical form, so that equal memories are equal data (R2, R247, R249): addresses strictly rising, and no
listed byte equal to what an unlisted address reads as (that value is log entry 5's). -/
def Obligations.MemoryStaysCanonical : Prop := ∀ s t : State, Memory.wf s.mem = true → step s = .next t → Memory.wf t.mem = true

/-- Every step keeps every gang sound, running or saved: threads of numbers below 32 with eight k registers each, and VALUE rods of 32 beads,
also in what a squash restores (R72, R73, R75, R88, R215). -/
def Obligations.GangsStaySound : Prop := ∀ s t : State, s.gangsSound = true → step s = .next t → t.gangsSound = true
end

