-- ==== Sys2Proof/Laws/State.lean ====
section
/-! SUPPORT. What each update of the state leaves alone, field by field, so that no later proof unfolds a record update. -/

namespace Sys2Proof.Machine

variable (s : State)

@[simp] theorem State.modGang_cycle (gid : Nat) (f : Gang → Gang) : (s.modGang gid f).cycle = s.cycle := rfl
@[simp] theorem State.modGang_turn (gid : Nat) (f : Gang → Gang) : (s.modGang gid f).turn = s.turn := rfl
@[simp] theorem State.modGang_wallAdj (gid : Nat) (f : Gang → Gang) : (s.modGang gid f).wallAdj = s.wallAdj := rfl
@[simp] theorem State.modGang_wallLast (gid : Nat) (f : Gang → Gang) : (s.modGang gid f).wallLast = s.wallLast := rfl
@[simp] theorem State.modGang_agenda (gid : Nat) (f : Gang → Gang) : (s.modGang gid f).agenda = s.agenda := rfl
@[simp] theorem State.modGang_free (gid : Nat) (f : Gang → Gang) : (s.modGang gid f).free = s.free := rfl
@[simp] theorem State.modGang_nextId (gid : Nat) (f : Gang → Gang) : (s.modGang gid f).nextId = s.nextId := rfl
@[simp] theorem State.modGang_cur (gid : Nat) (f : Gang → Gang) : (s.modGang gid f).cur = s.cur := rfl
@[simp] theorem State.modGang_line (gid : Nat) (f : Gang → Gang) : (s.modGang gid f).line = s.line := rfl
@[simp] theorem State.modGang_mem (gid : Nat) (f : Gang → Gang) : (s.modGang gid f).mem = s.mem := rfl
@[simp] theorem State.modGang_writes (gid : Nat) (f : Gang → Gang) : (s.modGang gid f).writes = s.writes := rfl
@[simp] theorem State.modGang_poison (gid : Nat) (f : Gang → Gang) : (s.modGang gid f).poison = s.poison := rfl
@[simp] theorem State.modGang_cells (gid : Nat) (f : Gang → Gang) : (s.modGang gid f).cells = s.cells := rfl
@[simp] theorem State.modGang_ops (gid : Nat) (f : Gang → Gang) : (s.modGang gid f).ops = s.ops := rfl
@[simp] theorem State.modGang_fences (gid : Nat) (f : Gang → Gang) : (s.modGang gid f).fences = s.fences := rfl
@[simp] theorem State.modGang_arrivals (gid : Nat) (f : Gang → Gang) : (s.modGang gid f).arrivals = s.arrivals := rfl
@[simp] theorem State.modGang_blocks (gid : Nat) (f : Gang → Gang) : (s.modGang gid f).blocks = s.blocks := rfl
@[simp] theorem State.modGang_contexts (gid : Nat) (f : Gang → Gang) : (s.modGang gid f).contexts = s.contexts := rfl
@[simp] theorem State.modGang_codes (gid : Nat) (f : Gang → Gang) : (s.modGang gid f).codes = s.codes := rfl
@[simp] theorem State.modGang_graphs (gid : Nat) (f : Gang → Gang) : (s.modGang gid f).graphs = s.graphs := rfl
@[simp] theorem State.modGang_queues (gid : Nat) (f : Gang → Gang) : (s.modGang gid f).queues = s.queues := rfl
@[simp] theorem State.modGang_launches (gid : Nat) (f : Gang → Gang) : (s.modGang gid f).launches = s.launches := rfl
@[simp] theorem State.modGang_replays (gid : Nat) (f : Gang → Gang) : (s.modGang gid f).replays = s.replays := rfl
@[simp] theorem State.modGang_saved (gid : Nat) (f : Gang → Gang) : (s.modGang gid f).saved = s.saved := rfl
@[simp] theorem State.modGang_bar (gid : Nat) (f : Gang → Gang) : (s.modGang gid f).bar = s.bar := rfl
@[simp] theorem State.modGang_telemetry (gid : Nat) (f : Gang → Gang) : (s.modGang gid f).telemetry = s.telemetry := rfl
@[simp] theorem State.modGang_sup (gid : Nat) (f : Gang → Gang) : (s.modGang gid f).sup = s.sup := rfl
@[simp] theorem State.modGang_wrote (gid : Nat) (f : Gang → Gang) : (s.modGang gid f).wrote = s.wrote := rfl
@[simp] theorem State.modGang_reports (gid : Nat) (f : Gang → Gang) : (s.modGang gid f).reports = s.reports := rfl
@[simp] theorem State.modGang_removals (gid : Nat) (f : Gang → Gang) : (s.modGang gid f).removals = s.removals := rfl
@[simp] theorem State.modGang_waiting (gid : Nat) (f : Gang → Gang) : (s.modGang gid f).waiting = s.waiting := rfl
@[simp] theorem State.modGang_traces (gid : Nat) (f : Gang → Gang) : (s.modGang gid f).traces = s.traces := rfl
@[simp] theorem State.modGang_nextCtx (gid : Nat) (f : Gang → Gang) : (s.modGang gid f).nextCtx = s.nextCtx := rfl
@[simp] theorem State.modGang_nextCode (gid : Nat) (f : Gang → Gang) : (s.modGang gid f).nextCode = s.nextCode := rfl
@[simp] theorem State.modGang_nextLaunch (gid : Nat) (f : Gang → Gang) : (s.modGang gid f).nextLaunch = s.nextLaunch := rfl
@[simp] theorem State.modGang_arms (gid : Nat) (f : Gang → Gang) : (s.modGang gid f).arms = s.arms := rfl
@[simp] theorem State.modGang_work (gid : Nat) (f : Gang → Gang) : (s.modGang gid f).work = s.work := rfl
@[simp] theorem State.modGang_dropping (gid : Nat) (f : Gang → Gang) : (s.modGang gid f).dropping = s.dropping := rfl
@[simp] theorem State.modGang_copyWait (gid : Nat) (f : Gang → Gang) : (s.modGang gid f).copyWait = s.copyWait := rfl
@[simp] theorem State.modGang_msixTable (gid : Nat) (f : Gang → Gang) : (s.modGang gid f).msixTable = s.msixTable := rfl
@[simp] theorem State.modGang_msix (gid : Nat) (f : Gang → Gang) : (s.modGang gid f).msix = s.msix := rfl
@[simp] theorem State.modGang_hostData (gid : Nat) (f : Gang → Gang) : (s.modGang gid f).hostData = s.hostData := rfl
@[simp] theorem State.modGang_faultSeq (gid : Nat) (f : Gang → Gang) : (s.modGang gid f).faultSeq = s.faultSeq := rfl
@[simp] theorem State.modGang_faultLost (gid : Nat) (f : Gang → Gang) : (s.modGang gid f).faultLost = s.faultLost := rfl
@[simp] theorem State.modGang_links (gid : Nat) (f : Gang → Gang) : (s.modGang gid f).links = s.links := rfl

@[simp] theorem State.modThread_cycle (gid n : Nat) (f : Thread → Thread) : (s.modThread gid n f).cycle = s.cycle := rfl
@[simp] theorem State.modThread_turn (gid n : Nat) (f : Thread → Thread) : (s.modThread gid n f).turn = s.turn := rfl
@[simp] theorem State.modThread_wallAdj (gid n : Nat) (f : Thread → Thread) : (s.modThread gid n f).wallAdj = s.wallAdj := rfl
@[simp] theorem State.modThread_wallLast (gid n : Nat) (f : Thread → Thread) : (s.modThread gid n f).wallLast = s.wallLast := rfl
@[simp] theorem State.modThread_agenda (gid n : Nat) (f : Thread → Thread) : (s.modThread gid n f).agenda = s.agenda := rfl
@[simp] theorem State.modThread_free (gid n : Nat) (f : Thread → Thread) : (s.modThread gid n f).free = s.free := rfl
@[simp] theorem State.modThread_nextId (gid n : Nat) (f : Thread → Thread) : (s.modThread gid n f).nextId = s.nextId := rfl
@[simp] theorem State.modThread_cur (gid n : Nat) (f : Thread → Thread) : (s.modThread gid n f).cur = s.cur := rfl
@[simp] theorem State.modThread_line (gid n : Nat) (f : Thread → Thread) : (s.modThread gid n f).line = s.line := rfl
@[simp] theorem State.modThread_mem (gid n : Nat) (f : Thread → Thread) : (s.modThread gid n f).mem = s.mem := rfl
@[simp] theorem State.modThread_writes (gid n : Nat) (f : Thread → Thread) : (s.modThread gid n f).writes = s.writes := rfl
@[simp] theorem State.modThread_poison (gid n : Nat) (f : Thread → Thread) : (s.modThread gid n f).poison = s.poison := rfl
@[simp] theorem State.modThread_cells (gid n : Nat) (f : Thread → Thread) : (s.modThread gid n f).cells = s.cells := rfl
@[simp] theorem State.modThread_ops (gid n : Nat) (f : Thread → Thread) : (s.modThread gid n f).ops = s.ops := rfl
@[simp] theorem State.modThread_fences (gid n : Nat) (f : Thread → Thread) : (s.modThread gid n f).fences = s.fences := rfl
@[simp] theorem State.modThread_arrivals (gid n : Nat) (f : Thread → Thread) : (s.modThread gid n f).arrivals = s.arrivals := rfl
@[simp] theorem State.modThread_blocks (gid n : Nat) (f : Thread → Thread) : (s.modThread gid n f).blocks = s.blocks := rfl
@[simp] theorem State.modThread_contexts (gid n : Nat) (f : Thread → Thread) : (s.modThread gid n f).contexts = s.contexts := rfl
@[simp] theorem State.modThread_codes (gid n : Nat) (f : Thread → Thread) : (s.modThread gid n f).codes = s.codes := rfl
@[simp] theorem State.modThread_graphs (gid n : Nat) (f : Thread → Thread) : (s.modThread gid n f).graphs = s.graphs := rfl
@[simp] theorem State.modThread_queues (gid n : Nat) (f : Thread → Thread) : (s.modThread gid n f).queues = s.queues := rfl
@[simp] theorem State.modThread_launches (gid n : Nat) (f : Thread → Thread) : (s.modThread gid n f).launches = s.launches := rfl
@[simp] theorem State.modThread_replays (gid n : Nat) (f : Thread → Thread) : (s.modThread gid n f).replays = s.replays := rfl
@[simp] theorem State.modThread_saved (gid n : Nat) (f : Thread → Thread) : (s.modThread gid n f).saved = s.saved := rfl
@[simp] theorem State.modThread_bar (gid n : Nat) (f : Thread → Thread) : (s.modThread gid n f).bar = s.bar := rfl
@[simp] theorem State.modThread_telemetry (gid n : Nat) (f : Thread → Thread) : (s.modThread gid n f).telemetry = s.telemetry := rfl
@[simp] theorem State.modThread_sup (gid n : Nat) (f : Thread → Thread) : (s.modThread gid n f).sup = s.sup := rfl
@[simp] theorem State.modThread_wrote (gid n : Nat) (f : Thread → Thread) : (s.modThread gid n f).wrote = s.wrote := rfl
@[simp] theorem State.modThread_reports (gid n : Nat) (f : Thread → Thread) : (s.modThread gid n f).reports = s.reports := rfl
@[simp] theorem State.modThread_removals (gid n : Nat) (f : Thread → Thread) : (s.modThread gid n f).removals = s.removals := rfl
@[simp] theorem State.modThread_waiting (gid n : Nat) (f : Thread → Thread) : (s.modThread gid n f).waiting = s.waiting := rfl
@[simp] theorem State.modThread_traces (gid n : Nat) (f : Thread → Thread) : (s.modThread gid n f).traces = s.traces := rfl
@[simp] theorem State.modThread_nextCtx (gid n : Nat) (f : Thread → Thread) : (s.modThread gid n f).nextCtx = s.nextCtx := rfl
@[simp] theorem State.modThread_nextCode (gid n : Nat) (f : Thread → Thread) : (s.modThread gid n f).nextCode = s.nextCode := rfl
@[simp] theorem State.modThread_nextLaunch (gid n : Nat) (f : Thread → Thread) : (s.modThread gid n f).nextLaunch = s.nextLaunch := rfl
@[simp] theorem State.modThread_arms (gid n : Nat) (f : Thread → Thread) : (s.modThread gid n f).arms = s.arms := rfl
@[simp] theorem State.modThread_work (gid n : Nat) (f : Thread → Thread) : (s.modThread gid n f).work = s.work := rfl
@[simp] theorem State.modThread_dropping (gid n : Nat) (f : Thread → Thread) : (s.modThread gid n f).dropping = s.dropping := rfl
@[simp] theorem State.modThread_copyWait (gid n : Nat) (f : Thread → Thread) : (s.modThread gid n f).copyWait = s.copyWait := rfl
@[simp] theorem State.modThread_msixTable (gid n : Nat) (f : Thread → Thread) : (s.modThread gid n f).msixTable = s.msixTable := rfl
@[simp] theorem State.modThread_msix (gid n : Nat) (f : Thread → Thread) : (s.modThread gid n f).msix = s.msix := rfl
@[simp] theorem State.modThread_hostData (gid n : Nat) (f : Thread → Thread) : (s.modThread gid n f).hostData = s.hostData := rfl
@[simp] theorem State.modThread_faultSeq (gid n : Nat) (f : Thread → Thread) : (s.modThread gid n f).faultSeq = s.faultSeq := rfl
@[simp] theorem State.modThread_faultLost (gid n : Nat) (f : Thread → Thread) : (s.modThread gid n f).faultLost = s.faultLost := rfl
@[simp] theorem State.modThread_links (gid n : Nat) (f : Thread → Thread) : (s.modThread gid n f).links = s.links := rfl

@[simp] theorem State.modThreads_cycle (gid : Nat) (ts : List Nat) (f : Thread → Thread) : (s.modThreads gid ts f).cycle = s.cycle := rfl
@[simp] theorem State.modThreads_turn (gid : Nat) (ts : List Nat) (f : Thread → Thread) : (s.modThreads gid ts f).turn = s.turn := rfl
@[simp] theorem State.modThreads_wallAdj (gid : Nat) (ts : List Nat) (f : Thread → Thread) : (s.modThreads gid ts f).wallAdj = s.wallAdj := rfl
@[simp] theorem State.modThreads_wallLast (gid : Nat) (ts : List Nat) (f : Thread → Thread) : (s.modThreads gid ts f).wallLast = s.wallLast := rfl
@[simp] theorem State.modThreads_agenda (gid : Nat) (ts : List Nat) (f : Thread → Thread) : (s.modThreads gid ts f).agenda = s.agenda := rfl
@[simp] theorem State.modThreads_free (gid : Nat) (ts : List Nat) (f : Thread → Thread) : (s.modThreads gid ts f).free = s.free := rfl
@[simp] theorem State.modThreads_nextId (gid : Nat) (ts : List Nat) (f : Thread → Thread) : (s.modThreads gid ts f).nextId = s.nextId := rfl
@[simp] theorem State.modThreads_cur (gid : Nat) (ts : List Nat) (f : Thread → Thread) : (s.modThreads gid ts f).cur = s.cur := rfl
@[simp] theorem State.modThreads_line (gid : Nat) (ts : List Nat) (f : Thread → Thread) : (s.modThreads gid ts f).line = s.line := rfl
@[simp] theorem State.modThreads_mem (gid : Nat) (ts : List Nat) (f : Thread → Thread) : (s.modThreads gid ts f).mem = s.mem := rfl
@[simp] theorem State.modThreads_writes (gid : Nat) (ts : List Nat) (f : Thread → Thread) : (s.modThreads gid ts f).writes = s.writes := rfl
@[simp] theorem State.modThreads_poison (gid : Nat) (ts : List Nat) (f : Thread → Thread) : (s.modThreads gid ts f).poison = s.poison := rfl
@[simp] theorem State.modThreads_cells (gid : Nat) (ts : List Nat) (f : Thread → Thread) : (s.modThreads gid ts f).cells = s.cells := rfl
@[simp] theorem State.modThreads_ops (gid : Nat) (ts : List Nat) (f : Thread → Thread) : (s.modThreads gid ts f).ops = s.ops := rfl
@[simp] theorem State.modThreads_fences (gid : Nat) (ts : List Nat) (f : Thread → Thread) : (s.modThreads gid ts f).fences = s.fences := rfl
@[simp] theorem State.modThreads_arrivals (gid : Nat) (ts : List Nat) (f : Thread → Thread) : (s.modThreads gid ts f).arrivals = s.arrivals := rfl
@[simp] theorem State.modThreads_blocks (gid : Nat) (ts : List Nat) (f : Thread → Thread) : (s.modThreads gid ts f).blocks = s.blocks := rfl
@[simp] theorem State.modThreads_contexts (gid : Nat) (ts : List Nat) (f : Thread → Thread) : (s.modThreads gid ts f).contexts = s.contexts := rfl
@[simp] theorem State.modThreads_codes (gid : Nat) (ts : List Nat) (f : Thread → Thread) : (s.modThreads gid ts f).codes = s.codes := rfl
@[simp] theorem State.modThreads_graphs (gid : Nat) (ts : List Nat) (f : Thread → Thread) : (s.modThreads gid ts f).graphs = s.graphs := rfl
@[simp] theorem State.modThreads_queues (gid : Nat) (ts : List Nat) (f : Thread → Thread) : (s.modThreads gid ts f).queues = s.queues := rfl
@[simp] theorem State.modThreads_launches (gid : Nat) (ts : List Nat) (f : Thread → Thread) : (s.modThreads gid ts f).launches = s.launches := rfl
@[simp] theorem State.modThreads_replays (gid : Nat) (ts : List Nat) (f : Thread → Thread) : (s.modThreads gid ts f).replays = s.replays := rfl
@[simp] theorem State.modThreads_saved (gid : Nat) (ts : List Nat) (f : Thread → Thread) : (s.modThreads gid ts f).saved = s.saved := rfl
@[simp] theorem State.modThreads_bar (gid : Nat) (ts : List Nat) (f : Thread → Thread) : (s.modThreads gid ts f).bar = s.bar := rfl
@[simp] theorem State.modThreads_telemetry (gid : Nat) (ts : List Nat) (f : Thread → Thread) : (s.modThreads gid ts f).telemetry = s.telemetry := rfl
@[simp] theorem State.modThreads_sup (gid : Nat) (ts : List Nat) (f : Thread → Thread) : (s.modThreads gid ts f).sup = s.sup := rfl
@[simp] theorem State.modThreads_wrote (gid : Nat) (ts : List Nat) (f : Thread → Thread) : (s.modThreads gid ts f).wrote = s.wrote := rfl
@[simp] theorem State.modThreads_reports (gid : Nat) (ts : List Nat) (f : Thread → Thread) : (s.modThreads gid ts f).reports = s.reports := rfl
@[simp] theorem State.modThreads_removals (gid : Nat) (ts : List Nat) (f : Thread → Thread) : (s.modThreads gid ts f).removals = s.removals := rfl
@[simp] theorem State.modThreads_waiting (gid : Nat) (ts : List Nat) (f : Thread → Thread) : (s.modThreads gid ts f).waiting = s.waiting := rfl
@[simp] theorem State.modThreads_traces (gid : Nat) (ts : List Nat) (f : Thread → Thread) : (s.modThreads gid ts f).traces = s.traces := rfl
@[simp] theorem State.modThreads_nextCtx (gid : Nat) (ts : List Nat) (f : Thread → Thread) : (s.modThreads gid ts f).nextCtx = s.nextCtx := rfl
@[simp] theorem State.modThreads_nextCode (gid : Nat) (ts : List Nat) (f : Thread → Thread) : (s.modThreads gid ts f).nextCode = s.nextCode := rfl
@[simp] theorem State.modThreads_nextLaunch (gid : Nat) (ts : List Nat) (f : Thread → Thread) : (s.modThreads gid ts f).nextLaunch = s.nextLaunch := rfl
@[simp] theorem State.modThreads_arms (gid : Nat) (ts : List Nat) (f : Thread → Thread) : (s.modThreads gid ts f).arms = s.arms := rfl
@[simp] theorem State.modThreads_work (gid : Nat) (ts : List Nat) (f : Thread → Thread) : (s.modThreads gid ts f).work = s.work := rfl
@[simp] theorem State.modThreads_dropping (gid : Nat) (ts : List Nat) (f : Thread → Thread) : (s.modThreads gid ts f).dropping = s.dropping := rfl
@[simp] theorem State.modThreads_copyWait (gid : Nat) (ts : List Nat) (f : Thread → Thread) : (s.modThreads gid ts f).copyWait = s.copyWait := rfl
@[simp] theorem State.modThreads_msixTable (gid : Nat) (ts : List Nat) (f : Thread → Thread) : (s.modThreads gid ts f).msixTable = s.msixTable := rfl
@[simp] theorem State.modThreads_msix (gid : Nat) (ts : List Nat) (f : Thread → Thread) : (s.modThreads gid ts f).msix = s.msix := rfl
@[simp] theorem State.modThreads_hostData (gid : Nat) (ts : List Nat) (f : Thread → Thread) : (s.modThreads gid ts f).hostData = s.hostData := rfl
@[simp] theorem State.modThreads_faultSeq (gid : Nat) (ts : List Nat) (f : Thread → Thread) : (s.modThreads gid ts f).faultSeq = s.faultSeq := rfl
@[simp] theorem State.modThreads_faultLost (gid : Nat) (ts : List Nat) (f : Thread → Thread) : (s.modThreads gid ts f).faultLost = s.faultLost := rfl
@[simp] theorem State.modThreads_links (gid : Nat) (ts : List Nat) (f : Thread → Thread) : (s.modThreads gid ts f).links = s.links := rfl

@[simp] theorem State.modBlock_cycle (bid : Nat) (f : Block → Block) : (s.modBlock bid f).cycle = s.cycle := rfl
@[simp] theorem State.modBlock_turn (bid : Nat) (f : Block → Block) : (s.modBlock bid f).turn = s.turn := rfl
@[simp] theorem State.modBlock_wallAdj (bid : Nat) (f : Block → Block) : (s.modBlock bid f).wallAdj = s.wallAdj := rfl
@[simp] theorem State.modBlock_wallLast (bid : Nat) (f : Block → Block) : (s.modBlock bid f).wallLast = s.wallLast := rfl
@[simp] theorem State.modBlock_agenda (bid : Nat) (f : Block → Block) : (s.modBlock bid f).agenda = s.agenda := rfl
@[simp] theorem State.modBlock_free (bid : Nat) (f : Block → Block) : (s.modBlock bid f).free = s.free := rfl
@[simp] theorem State.modBlock_nextId (bid : Nat) (f : Block → Block) : (s.modBlock bid f).nextId = s.nextId := rfl
@[simp] theorem State.modBlock_cur (bid : Nat) (f : Block → Block) : (s.modBlock bid f).cur = s.cur := rfl
@[simp] theorem State.modBlock_line (bid : Nat) (f : Block → Block) : (s.modBlock bid f).line = s.line := rfl
@[simp] theorem State.modBlock_mem (bid : Nat) (f : Block → Block) : (s.modBlock bid f).mem = s.mem := rfl
@[simp] theorem State.modBlock_writes (bid : Nat) (f : Block → Block) : (s.modBlock bid f).writes = s.writes := rfl
@[simp] theorem State.modBlock_poison (bid : Nat) (f : Block → Block) : (s.modBlock bid f).poison = s.poison := rfl
@[simp] theorem State.modBlock_cells (bid : Nat) (f : Block → Block) : (s.modBlock bid f).cells = s.cells := rfl
@[simp] theorem State.modBlock_ops (bid : Nat) (f : Block → Block) : (s.modBlock bid f).ops = s.ops := rfl
@[simp] theorem State.modBlock_fences (bid : Nat) (f : Block → Block) : (s.modBlock bid f).fences = s.fences := rfl
@[simp] theorem State.modBlock_arrivals (bid : Nat) (f : Block → Block) : (s.modBlock bid f).arrivals = s.arrivals := rfl
@[simp] theorem State.modBlock_gangs (bid : Nat) (f : Block → Block) : (s.modBlock bid f).gangs = s.gangs := rfl
@[simp] theorem State.modBlock_contexts (bid : Nat) (f : Block → Block) : (s.modBlock bid f).contexts = s.contexts := rfl
@[simp] theorem State.modBlock_codes (bid : Nat) (f : Block → Block) : (s.modBlock bid f).codes = s.codes := rfl
@[simp] theorem State.modBlock_graphs (bid : Nat) (f : Block → Block) : (s.modBlock bid f).graphs = s.graphs := rfl
@[simp] theorem State.modBlock_queues (bid : Nat) (f : Block → Block) : (s.modBlock bid f).queues = s.queues := rfl
@[simp] theorem State.modBlock_launches (bid : Nat) (f : Block → Block) : (s.modBlock bid f).launches = s.launches := rfl
@[simp] theorem State.modBlock_replays (bid : Nat) (f : Block → Block) : (s.modBlock bid f).replays = s.replays := rfl
@[simp] theorem State.modBlock_saved (bid : Nat) (f : Block → Block) : (s.modBlock bid f).saved = s.saved := rfl
@[simp] theorem State.modBlock_bar (bid : Nat) (f : Block → Block) : (s.modBlock bid f).bar = s.bar := rfl
@[simp] theorem State.modBlock_telemetry (bid : Nat) (f : Block → Block) : (s.modBlock bid f).telemetry = s.telemetry := rfl
@[simp] theorem State.modBlock_sup (bid : Nat) (f : Block → Block) : (s.modBlock bid f).sup = s.sup := rfl
@[simp] theorem State.modBlock_wrote (bid : Nat) (f : Block → Block) : (s.modBlock bid f).wrote = s.wrote := rfl
@[simp] theorem State.modBlock_reports (bid : Nat) (f : Block → Block) : (s.modBlock bid f).reports = s.reports := rfl
@[simp] theorem State.modBlock_removals (bid : Nat) (f : Block → Block) : (s.modBlock bid f).removals = s.removals := rfl
@[simp] theorem State.modBlock_waiting (bid : Nat) (f : Block → Block) : (s.modBlock bid f).waiting = s.waiting := rfl
@[simp] theorem State.modBlock_traces (bid : Nat) (f : Block → Block) : (s.modBlock bid f).traces = s.traces := rfl
@[simp] theorem State.modBlock_nextCtx (bid : Nat) (f : Block → Block) : (s.modBlock bid f).nextCtx = s.nextCtx := rfl
@[simp] theorem State.modBlock_nextCode (bid : Nat) (f : Block → Block) : (s.modBlock bid f).nextCode = s.nextCode := rfl
@[simp] theorem State.modBlock_nextLaunch (bid : Nat) (f : Block → Block) : (s.modBlock bid f).nextLaunch = s.nextLaunch := rfl
@[simp] theorem State.modBlock_arms (bid : Nat) (f : Block → Block) : (s.modBlock bid f).arms = s.arms := rfl
@[simp] theorem State.modBlock_work (bid : Nat) (f : Block → Block) : (s.modBlock bid f).work = s.work := rfl
@[simp] theorem State.modBlock_dropping (bid : Nat) (f : Block → Block) : (s.modBlock bid f).dropping = s.dropping := rfl
@[simp] theorem State.modBlock_copyWait (bid : Nat) (f : Block → Block) : (s.modBlock bid f).copyWait = s.copyWait := rfl
@[simp] theorem State.modBlock_msixTable (bid : Nat) (f : Block → Block) : (s.modBlock bid f).msixTable = s.msixTable := rfl
@[simp] theorem State.modBlock_msix (bid : Nat) (f : Block → Block) : (s.modBlock bid f).msix = s.msix := rfl
@[simp] theorem State.modBlock_hostData (bid : Nat) (f : Block → Block) : (s.modBlock bid f).hostData = s.hostData := rfl
@[simp] theorem State.modBlock_faultSeq (bid : Nat) (f : Block → Block) : (s.modBlock bid f).faultSeq = s.faultSeq := rfl
@[simp] theorem State.modBlock_faultLost (bid : Nat) (f : Block → Block) : (s.modBlock bid f).faultLost = s.faultLost := rfl
@[simp] theorem State.modBlock_links (bid : Nat) (f : Block → Block) : (s.modBlock bid f).links = s.links := rfl

@[simp] theorem State.modLaunch_cycle (n : Nat) (f : Launch → Launch) : (s.modLaunch n f).cycle = s.cycle := rfl
@[simp] theorem State.modLaunch_turn (n : Nat) (f : Launch → Launch) : (s.modLaunch n f).turn = s.turn := rfl
@[simp] theorem State.modLaunch_wallAdj (n : Nat) (f : Launch → Launch) : (s.modLaunch n f).wallAdj = s.wallAdj := rfl
@[simp] theorem State.modLaunch_wallLast (n : Nat) (f : Launch → Launch) : (s.modLaunch n f).wallLast = s.wallLast := rfl
@[simp] theorem State.modLaunch_agenda (n : Nat) (f : Launch → Launch) : (s.modLaunch n f).agenda = s.agenda := rfl
@[simp] theorem State.modLaunch_free (n : Nat) (f : Launch → Launch) : (s.modLaunch n f).free = s.free := rfl
@[simp] theorem State.modLaunch_nextId (n : Nat) (f : Launch → Launch) : (s.modLaunch n f).nextId = s.nextId := rfl
@[simp] theorem State.modLaunch_cur (n : Nat) (f : Launch → Launch) : (s.modLaunch n f).cur = s.cur := rfl
@[simp] theorem State.modLaunch_line (n : Nat) (f : Launch → Launch) : (s.modLaunch n f).line = s.line := rfl
@[simp] theorem State.modLaunch_mem (n : Nat) (f : Launch → Launch) : (s.modLaunch n f).mem = s.mem := rfl
@[simp] theorem State.modLaunch_writes (n : Nat) (f : Launch → Launch) : (s.modLaunch n f).writes = s.writes := rfl
@[simp] theorem State.modLaunch_poison (n : Nat) (f : Launch → Launch) : (s.modLaunch n f).poison = s.poison := rfl
@[simp] theorem State.modLaunch_cells (n : Nat) (f : Launch → Launch) : (s.modLaunch n f).cells = s.cells := rfl
@[simp] theorem State.modLaunch_ops (n : Nat) (f : Launch → Launch) : (s.modLaunch n f).ops = s.ops := rfl
@[simp] theorem State.modLaunch_fences (n : Nat) (f : Launch → Launch) : (s.modLaunch n f).fences = s.fences := rfl
@[simp] theorem State.modLaunch_arrivals (n : Nat) (f : Launch → Launch) : (s.modLaunch n f).arrivals = s.arrivals := rfl
@[simp] theorem State.modLaunch_blocks (n : Nat) (f : Launch → Launch) : (s.modLaunch n f).blocks = s.blocks := rfl
@[simp] theorem State.modLaunch_gangs (n : Nat) (f : Launch → Launch) : (s.modLaunch n f).gangs = s.gangs := rfl
@[simp] theorem State.modLaunch_contexts (n : Nat) (f : Launch → Launch) : (s.modLaunch n f).contexts = s.contexts := rfl
@[simp] theorem State.modLaunch_codes (n : Nat) (f : Launch → Launch) : (s.modLaunch n f).codes = s.codes := rfl
@[simp] theorem State.modLaunch_graphs (n : Nat) (f : Launch → Launch) : (s.modLaunch n f).graphs = s.graphs := rfl
@[simp] theorem State.modLaunch_queues (n : Nat) (f : Launch → Launch) : (s.modLaunch n f).queues = s.queues := rfl
@[simp] theorem State.modLaunch_replays (n : Nat) (f : Launch → Launch) : (s.modLaunch n f).replays = s.replays := rfl
@[simp] theorem State.modLaunch_saved (n : Nat) (f : Launch → Launch) : (s.modLaunch n f).saved = s.saved := rfl
@[simp] theorem State.modLaunch_bar (n : Nat) (f : Launch → Launch) : (s.modLaunch n f).bar = s.bar := rfl
@[simp] theorem State.modLaunch_telemetry (n : Nat) (f : Launch → Launch) : (s.modLaunch n f).telemetry = s.telemetry := rfl
@[simp] theorem State.modLaunch_sup (n : Nat) (f : Launch → Launch) : (s.modLaunch n f).sup = s.sup := rfl
@[simp] theorem State.modLaunch_wrote (n : Nat) (f : Launch → Launch) : (s.modLaunch n f).wrote = s.wrote := rfl
@[simp] theorem State.modLaunch_reports (n : Nat) (f : Launch → Launch) : (s.modLaunch n f).reports = s.reports := rfl
@[simp] theorem State.modLaunch_removals (n : Nat) (f : Launch → Launch) : (s.modLaunch n f).removals = s.removals := rfl
@[simp] theorem State.modLaunch_waiting (n : Nat) (f : Launch → Launch) : (s.modLaunch n f).waiting = s.waiting := rfl
@[simp] theorem State.modLaunch_traces (n : Nat) (f : Launch → Launch) : (s.modLaunch n f).traces = s.traces := rfl
@[simp] theorem State.modLaunch_nextCtx (n : Nat) (f : Launch → Launch) : (s.modLaunch n f).nextCtx = s.nextCtx := rfl
@[simp] theorem State.modLaunch_nextCode (n : Nat) (f : Launch → Launch) : (s.modLaunch n f).nextCode = s.nextCode := rfl
@[simp] theorem State.modLaunch_nextLaunch (n : Nat) (f : Launch → Launch) : (s.modLaunch n f).nextLaunch = s.nextLaunch := rfl
@[simp] theorem State.modLaunch_arms (n : Nat) (f : Launch → Launch) : (s.modLaunch n f).arms = s.arms := rfl
@[simp] theorem State.modLaunch_work (n : Nat) (f : Launch → Launch) : (s.modLaunch n f).work = s.work := rfl
@[simp] theorem State.modLaunch_dropping (n : Nat) (f : Launch → Launch) : (s.modLaunch n f).dropping = s.dropping := rfl
@[simp] theorem State.modLaunch_copyWait (n : Nat) (f : Launch → Launch) : (s.modLaunch n f).copyWait = s.copyWait := rfl
@[simp] theorem State.modLaunch_msixTable (n : Nat) (f : Launch → Launch) : (s.modLaunch n f).msixTable = s.msixTable := rfl
@[simp] theorem State.modLaunch_msix (n : Nat) (f : Launch → Launch) : (s.modLaunch n f).msix = s.msix := rfl
@[simp] theorem State.modLaunch_hostData (n : Nat) (f : Launch → Launch) : (s.modLaunch n f).hostData = s.hostData := rfl
@[simp] theorem State.modLaunch_faultSeq (n : Nat) (f : Launch → Launch) : (s.modLaunch n f).faultSeq = s.faultSeq := rfl
@[simp] theorem State.modLaunch_faultLost (n : Nat) (f : Launch → Launch) : (s.modLaunch n f).faultLost = s.faultLost := rfl
@[simp] theorem State.modLaunch_links (n : Nat) (f : Launch → Launch) : (s.modLaunch n f).links = s.links := rfl

@[simp] theorem State.modCtx_cycle (n : Nat) (f : Context → Context) : (s.modCtx n f).cycle = s.cycle := rfl
@[simp] theorem State.modCtx_turn (n : Nat) (f : Context → Context) : (s.modCtx n f).turn = s.turn := rfl
@[simp] theorem State.modCtx_wallAdj (n : Nat) (f : Context → Context) : (s.modCtx n f).wallAdj = s.wallAdj := rfl
@[simp] theorem State.modCtx_wallLast (n : Nat) (f : Context → Context) : (s.modCtx n f).wallLast = s.wallLast := rfl
@[simp] theorem State.modCtx_agenda (n : Nat) (f : Context → Context) : (s.modCtx n f).agenda = s.agenda := rfl
@[simp] theorem State.modCtx_free (n : Nat) (f : Context → Context) : (s.modCtx n f).free = s.free := rfl
@[simp] theorem State.modCtx_nextId (n : Nat) (f : Context → Context) : (s.modCtx n f).nextId = s.nextId := rfl
@[simp] theorem State.modCtx_cur (n : Nat) (f : Context → Context) : (s.modCtx n f).cur = s.cur := rfl
@[simp] theorem State.modCtx_line (n : Nat) (f : Context → Context) : (s.modCtx n f).line = s.line := rfl
@[simp] theorem State.modCtx_mem (n : Nat) (f : Context → Context) : (s.modCtx n f).mem = s.mem := rfl
@[simp] theorem State.modCtx_writes (n : Nat) (f : Context → Context) : (s.modCtx n f).writes = s.writes := rfl
@[simp] theorem State.modCtx_poison (n : Nat) (f : Context → Context) : (s.modCtx n f).poison = s.poison := rfl
@[simp] theorem State.modCtx_cells (n : Nat) (f : Context → Context) : (s.modCtx n f).cells = s.cells := rfl
@[simp] theorem State.modCtx_ops (n : Nat) (f : Context → Context) : (s.modCtx n f).ops = s.ops := rfl
@[simp] theorem State.modCtx_fences (n : Nat) (f : Context → Context) : (s.modCtx n f).fences = s.fences := rfl
@[simp] theorem State.modCtx_arrivals (n : Nat) (f : Context → Context) : (s.modCtx n f).arrivals = s.arrivals := rfl
@[simp] theorem State.modCtx_blocks (n : Nat) (f : Context → Context) : (s.modCtx n f).blocks = s.blocks := rfl
@[simp] theorem State.modCtx_gangs (n : Nat) (f : Context → Context) : (s.modCtx n f).gangs = s.gangs := rfl
@[simp] theorem State.modCtx_codes (n : Nat) (f : Context → Context) : (s.modCtx n f).codes = s.codes := rfl
@[simp] theorem State.modCtx_graphs (n : Nat) (f : Context → Context) : (s.modCtx n f).graphs = s.graphs := rfl
@[simp] theorem State.modCtx_queues (n : Nat) (f : Context → Context) : (s.modCtx n f).queues = s.queues := rfl
@[simp] theorem State.modCtx_launches (n : Nat) (f : Context → Context) : (s.modCtx n f).launches = s.launches := rfl
@[simp] theorem State.modCtx_replays (n : Nat) (f : Context → Context) : (s.modCtx n f).replays = s.replays := rfl
@[simp] theorem State.modCtx_saved (n : Nat) (f : Context → Context) : (s.modCtx n f).saved = s.saved := rfl
@[simp] theorem State.modCtx_bar (n : Nat) (f : Context → Context) : (s.modCtx n f).bar = s.bar := rfl
@[simp] theorem State.modCtx_telemetry (n : Nat) (f : Context → Context) : (s.modCtx n f).telemetry = s.telemetry := rfl
@[simp] theorem State.modCtx_sup (n : Nat) (f : Context → Context) : (s.modCtx n f).sup = s.sup := rfl
@[simp] theorem State.modCtx_wrote (n : Nat) (f : Context → Context) : (s.modCtx n f).wrote = s.wrote := rfl
@[simp] theorem State.modCtx_reports (n : Nat) (f : Context → Context) : (s.modCtx n f).reports = s.reports := rfl
@[simp] theorem State.modCtx_removals (n : Nat) (f : Context → Context) : (s.modCtx n f).removals = s.removals := rfl
@[simp] theorem State.modCtx_waiting (n : Nat) (f : Context → Context) : (s.modCtx n f).waiting = s.waiting := rfl
@[simp] theorem State.modCtx_traces (n : Nat) (f : Context → Context) : (s.modCtx n f).traces = s.traces := rfl
@[simp] theorem State.modCtx_nextCtx (n : Nat) (f : Context → Context) : (s.modCtx n f).nextCtx = s.nextCtx := rfl
@[simp] theorem State.modCtx_nextCode (n : Nat) (f : Context → Context) : (s.modCtx n f).nextCode = s.nextCode := rfl
@[simp] theorem State.modCtx_nextLaunch (n : Nat) (f : Context → Context) : (s.modCtx n f).nextLaunch = s.nextLaunch := rfl
@[simp] theorem State.modCtx_arms (n : Nat) (f : Context → Context) : (s.modCtx n f).arms = s.arms := rfl
@[simp] theorem State.modCtx_work (n : Nat) (f : Context → Context) : (s.modCtx n f).work = s.work := rfl
@[simp] theorem State.modCtx_dropping (n : Nat) (f : Context → Context) : (s.modCtx n f).dropping = s.dropping := rfl
@[simp] theorem State.modCtx_copyWait (n : Nat) (f : Context → Context) : (s.modCtx n f).copyWait = s.copyWait := rfl
@[simp] theorem State.modCtx_msixTable (n : Nat) (f : Context → Context) : (s.modCtx n f).msixTable = s.msixTable := rfl
@[simp] theorem State.modCtx_msix (n : Nat) (f : Context → Context) : (s.modCtx n f).msix = s.msix := rfl
@[simp] theorem State.modCtx_hostData (n : Nat) (f : Context → Context) : (s.modCtx n f).hostData = s.hostData := rfl
@[simp] theorem State.modCtx_faultSeq (n : Nat) (f : Context → Context) : (s.modCtx n f).faultSeq = s.faultSeq := rfl
@[simp] theorem State.modCtx_faultLost (n : Nat) (f : Context → Context) : (s.modCtx n f).faultLost = s.faultLost := rfl
@[simp] theorem State.modCtx_links (n : Nat) (f : Context → Context) : (s.modCtx n f).links = s.links := rfl

@[simp] theorem State.modOp_cycle (id : Nat) (f : Op → Op) : (s.modOp id f).cycle = s.cycle := rfl
@[simp] theorem State.modOp_turn (id : Nat) (f : Op → Op) : (s.modOp id f).turn = s.turn := rfl
@[simp] theorem State.modOp_wallAdj (id : Nat) (f : Op → Op) : (s.modOp id f).wallAdj = s.wallAdj := rfl
@[simp] theorem State.modOp_wallLast (id : Nat) (f : Op → Op) : (s.modOp id f).wallLast = s.wallLast := rfl
@[simp] theorem State.modOp_agenda (id : Nat) (f : Op → Op) : (s.modOp id f).agenda = s.agenda := rfl
@[simp] theorem State.modOp_free (id : Nat) (f : Op → Op) : (s.modOp id f).free = s.free := rfl
@[simp] theorem State.modOp_nextId (id : Nat) (f : Op → Op) : (s.modOp id f).nextId = s.nextId := rfl
@[simp] theorem State.modOp_cur (id : Nat) (f : Op → Op) : (s.modOp id f).cur = s.cur := rfl
@[simp] theorem State.modOp_line (id : Nat) (f : Op → Op) : (s.modOp id f).line = s.line := rfl
@[simp] theorem State.modOp_mem (id : Nat) (f : Op → Op) : (s.modOp id f).mem = s.mem := rfl
@[simp] theorem State.modOp_writes (id : Nat) (f : Op → Op) : (s.modOp id f).writes = s.writes := rfl
@[simp] theorem State.modOp_poison (id : Nat) (f : Op → Op) : (s.modOp id f).poison = s.poison := rfl
@[simp] theorem State.modOp_cells (id : Nat) (f : Op → Op) : (s.modOp id f).cells = s.cells := rfl
@[simp] theorem State.modOp_fences (id : Nat) (f : Op → Op) : (s.modOp id f).fences = s.fences := rfl
@[simp] theorem State.modOp_arrivals (id : Nat) (f : Op → Op) : (s.modOp id f).arrivals = s.arrivals := rfl
@[simp] theorem State.modOp_blocks (id : Nat) (f : Op → Op) : (s.modOp id f).blocks = s.blocks := rfl
@[simp] theorem State.modOp_gangs (id : Nat) (f : Op → Op) : (s.modOp id f).gangs = s.gangs := rfl
@[simp] theorem State.modOp_contexts (id : Nat) (f : Op → Op) : (s.modOp id f).contexts = s.contexts := rfl
@[simp] theorem State.modOp_codes (id : Nat) (f : Op → Op) : (s.modOp id f).codes = s.codes := rfl
@[simp] theorem State.modOp_graphs (id : Nat) (f : Op → Op) : (s.modOp id f).graphs = s.graphs := rfl
@[simp] theorem State.modOp_queues (id : Nat) (f : Op → Op) : (s.modOp id f).queues = s.queues := rfl
@[simp] theorem State.modOp_launches (id : Nat) (f : Op → Op) : (s.modOp id f).launches = s.launches := rfl
@[simp] theorem State.modOp_replays (id : Nat) (f : Op → Op) : (s.modOp id f).replays = s.replays := rfl
@[simp] theorem State.modOp_saved (id : Nat) (f : Op → Op) : (s.modOp id f).saved = s.saved := rfl
@[simp] theorem State.modOp_bar (id : Nat) (f : Op → Op) : (s.modOp id f).bar = s.bar := rfl
@[simp] theorem State.modOp_telemetry (id : Nat) (f : Op → Op) : (s.modOp id f).telemetry = s.telemetry := rfl
@[simp] theorem State.modOp_sup (id : Nat) (f : Op → Op) : (s.modOp id f).sup = s.sup := rfl
@[simp] theorem State.modOp_wrote (id : Nat) (f : Op → Op) : (s.modOp id f).wrote = s.wrote := rfl
@[simp] theorem State.modOp_reports (id : Nat) (f : Op → Op) : (s.modOp id f).reports = s.reports := rfl
@[simp] theorem State.modOp_removals (id : Nat) (f : Op → Op) : (s.modOp id f).removals = s.removals := rfl
@[simp] theorem State.modOp_waiting (id : Nat) (f : Op → Op) : (s.modOp id f).waiting = s.waiting := rfl
@[simp] theorem State.modOp_traces (id : Nat) (f : Op → Op) : (s.modOp id f).traces = s.traces := rfl
@[simp] theorem State.modOp_nextCtx (id : Nat) (f : Op → Op) : (s.modOp id f).nextCtx = s.nextCtx := rfl
@[simp] theorem State.modOp_nextCode (id : Nat) (f : Op → Op) : (s.modOp id f).nextCode = s.nextCode := rfl
@[simp] theorem State.modOp_nextLaunch (id : Nat) (f : Op → Op) : (s.modOp id f).nextLaunch = s.nextLaunch := rfl
@[simp] theorem State.modOp_arms (id : Nat) (f : Op → Op) : (s.modOp id f).arms = s.arms := rfl
@[simp] theorem State.modOp_work (id : Nat) (f : Op → Op) : (s.modOp id f).work = s.work := rfl
@[simp] theorem State.modOp_dropping (id : Nat) (f : Op → Op) : (s.modOp id f).dropping = s.dropping := rfl
@[simp] theorem State.modOp_copyWait (id : Nat) (f : Op → Op) : (s.modOp id f).copyWait = s.copyWait := rfl
@[simp] theorem State.modOp_msixTable (id : Nat) (f : Op → Op) : (s.modOp id f).msixTable = s.msixTable := rfl
@[simp] theorem State.modOp_msix (id : Nat) (f : Op → Op) : (s.modOp id f).msix = s.msix := rfl
@[simp] theorem State.modOp_hostData (id : Nat) (f : Op → Op) : (s.modOp id f).hostData = s.hostData := rfl
@[simp] theorem State.modOp_faultSeq (id : Nat) (f : Op → Op) : (s.modOp id f).faultSeq = s.faultSeq := rfl
@[simp] theorem State.modOp_faultLost (id : Nat) (f : Op → Op) : (s.modOp id f).faultLost = s.faultLost := rfl
@[simp] theorem State.modOp_links (id : Nat) (f : Op → Op) : (s.modOp id f).links = s.links := rfl

@[simp] theorem State.dropOp_cycle (id : Nat) : (s.dropOp id).cycle = s.cycle := rfl
@[simp] theorem State.dropOp_turn (id : Nat) : (s.dropOp id).turn = s.turn := rfl
@[simp] theorem State.dropOp_wallAdj (id : Nat) : (s.dropOp id).wallAdj = s.wallAdj := rfl
@[simp] theorem State.dropOp_wallLast (id : Nat) : (s.dropOp id).wallLast = s.wallLast := rfl
@[simp] theorem State.dropOp_agenda (id : Nat) : (s.dropOp id).agenda = s.agenda := rfl
@[simp] theorem State.dropOp_free (id : Nat) : (s.dropOp id).free = s.free := rfl
@[simp] theorem State.dropOp_nextId (id : Nat) : (s.dropOp id).nextId = s.nextId := rfl
@[simp] theorem State.dropOp_cur (id : Nat) : (s.dropOp id).cur = s.cur := rfl
@[simp] theorem State.dropOp_line (id : Nat) : (s.dropOp id).line = s.line := rfl
@[simp] theorem State.dropOp_mem (id : Nat) : (s.dropOp id).mem = s.mem := rfl
@[simp] theorem State.dropOp_writes (id : Nat) : (s.dropOp id).writes = s.writes := rfl
@[simp] theorem State.dropOp_poison (id : Nat) : (s.dropOp id).poison = s.poison := rfl
@[simp] theorem State.dropOp_cells (id : Nat) : (s.dropOp id).cells = s.cells := rfl
@[simp] theorem State.dropOp_fences (id : Nat) : (s.dropOp id).fences = s.fences := rfl
@[simp] theorem State.dropOp_arrivals (id : Nat) : (s.dropOp id).arrivals = s.arrivals := rfl
@[simp] theorem State.dropOp_blocks (id : Nat) : (s.dropOp id).blocks = s.blocks := rfl
@[simp] theorem State.dropOp_gangs (id : Nat) : (s.dropOp id).gangs = s.gangs := rfl
@[simp] theorem State.dropOp_contexts (id : Nat) : (s.dropOp id).contexts = s.contexts := rfl
@[simp] theorem State.dropOp_codes (id : Nat) : (s.dropOp id).codes = s.codes := rfl
@[simp] theorem State.dropOp_graphs (id : Nat) : (s.dropOp id).graphs = s.graphs := rfl
@[simp] theorem State.dropOp_queues (id : Nat) : (s.dropOp id).queues = s.queues := rfl
@[simp] theorem State.dropOp_launches (id : Nat) : (s.dropOp id).launches = s.launches := rfl
@[simp] theorem State.dropOp_replays (id : Nat) : (s.dropOp id).replays = s.replays := rfl
@[simp] theorem State.dropOp_saved (id : Nat) : (s.dropOp id).saved = s.saved := rfl
@[simp] theorem State.dropOp_bar (id : Nat) : (s.dropOp id).bar = s.bar := rfl
@[simp] theorem State.dropOp_telemetry (id : Nat) : (s.dropOp id).telemetry = s.telemetry := rfl
@[simp] theorem State.dropOp_sup (id : Nat) : (s.dropOp id).sup = s.sup := rfl
@[simp] theorem State.dropOp_wrote (id : Nat) : (s.dropOp id).wrote = s.wrote := rfl
@[simp] theorem State.dropOp_reports (id : Nat) : (s.dropOp id).reports = s.reports := rfl
@[simp] theorem State.dropOp_removals (id : Nat) : (s.dropOp id).removals = s.removals := rfl
@[simp] theorem State.dropOp_waiting (id : Nat) : (s.dropOp id).waiting = s.waiting := rfl
@[simp] theorem State.dropOp_traces (id : Nat) : (s.dropOp id).traces = s.traces := rfl
@[simp] theorem State.dropOp_nextCtx (id : Nat) : (s.dropOp id).nextCtx = s.nextCtx := rfl
@[simp] theorem State.dropOp_nextCode (id : Nat) : (s.dropOp id).nextCode = s.nextCode := rfl
@[simp] theorem State.dropOp_nextLaunch (id : Nat) : (s.dropOp id).nextLaunch = s.nextLaunch := rfl
@[simp] theorem State.dropOp_arms (id : Nat) : (s.dropOp id).arms = s.arms := rfl
@[simp] theorem State.dropOp_work (id : Nat) : (s.dropOp id).work = s.work := rfl
@[simp] theorem State.dropOp_dropping (id : Nat) : (s.dropOp id).dropping = s.dropping := rfl
@[simp] theorem State.dropOp_copyWait (id : Nat) : (s.dropOp id).copyWait = s.copyWait := rfl
@[simp] theorem State.dropOp_msixTable (id : Nat) : (s.dropOp id).msixTable = s.msixTable := rfl
@[simp] theorem State.dropOp_msix (id : Nat) : (s.dropOp id).msix = s.msix := rfl
@[simp] theorem State.dropOp_hostData (id : Nat) : (s.dropOp id).hostData = s.hostData := rfl
@[simp] theorem State.dropOp_faultSeq (id : Nat) : (s.dropOp id).faultSeq = s.faultSeq := rfl
@[simp] theorem State.dropOp_faultLost (id : Nat) : (s.dropOp id).faultLost = s.faultLost := rfl
@[simp] theorem State.dropOp_links (id : Nat) : (s.dropOp id).links = s.links := rfl

@[simp] theorem State.count_cycle (die pos n : Nat) : (s.count die pos n).cycle = s.cycle := rfl
@[simp] theorem State.count_turn (die pos n : Nat) : (s.count die pos n).turn = s.turn := rfl
@[simp] theorem State.count_wallAdj (die pos n : Nat) : (s.count die pos n).wallAdj = s.wallAdj := rfl
@[simp] theorem State.count_wallLast (die pos n : Nat) : (s.count die pos n).wallLast = s.wallLast := rfl
@[simp] theorem State.count_agenda (die pos n : Nat) : (s.count die pos n).agenda = s.agenda := rfl
@[simp] theorem State.count_free (die pos n : Nat) : (s.count die pos n).free = s.free := rfl
@[simp] theorem State.count_nextId (die pos n : Nat) : (s.count die pos n).nextId = s.nextId := rfl
@[simp] theorem State.count_cur (die pos n : Nat) : (s.count die pos n).cur = s.cur := rfl
@[simp] theorem State.count_line (die pos n : Nat) : (s.count die pos n).line = s.line := rfl
@[simp] theorem State.count_mem (die pos n : Nat) : (s.count die pos n).mem = s.mem := rfl
@[simp] theorem State.count_writes (die pos n : Nat) : (s.count die pos n).writes = s.writes := rfl
@[simp] theorem State.count_poison (die pos n : Nat) : (s.count die pos n).poison = s.poison := rfl
@[simp] theorem State.count_cells (die pos n : Nat) : (s.count die pos n).cells = s.cells := rfl
@[simp] theorem State.count_ops (die pos n : Nat) : (s.count die pos n).ops = s.ops := rfl
@[simp] theorem State.count_fences (die pos n : Nat) : (s.count die pos n).fences = s.fences := rfl
@[simp] theorem State.count_arrivals (die pos n : Nat) : (s.count die pos n).arrivals = s.arrivals := rfl
@[simp] theorem State.count_blocks (die pos n : Nat) : (s.count die pos n).blocks = s.blocks := rfl
@[simp] theorem State.count_gangs (die pos n : Nat) : (s.count die pos n).gangs = s.gangs := rfl
@[simp] theorem State.count_contexts (die pos n : Nat) : (s.count die pos n).contexts = s.contexts := rfl
@[simp] theorem State.count_codes (die pos n : Nat) : (s.count die pos n).codes = s.codes := rfl
@[simp] theorem State.count_graphs (die pos n : Nat) : (s.count die pos n).graphs = s.graphs := rfl
@[simp] theorem State.count_queues (die pos n : Nat) : (s.count die pos n).queues = s.queues := rfl
@[simp] theorem State.count_launches (die pos n : Nat) : (s.count die pos n).launches = s.launches := rfl
@[simp] theorem State.count_replays (die pos n : Nat) : (s.count die pos n).replays = s.replays := rfl
@[simp] theorem State.count_saved (die pos n : Nat) : (s.count die pos n).saved = s.saved := rfl
@[simp] theorem State.count_bar (die pos n : Nat) : (s.count die pos n).bar = s.bar := rfl
@[simp] theorem State.count_sup (die pos n : Nat) : (s.count die pos n).sup = s.sup := rfl
@[simp] theorem State.count_wrote (die pos n : Nat) : (s.count die pos n).wrote = s.wrote := rfl
@[simp] theorem State.count_reports (die pos n : Nat) : (s.count die pos n).reports = s.reports := rfl
@[simp] theorem State.count_removals (die pos n : Nat) : (s.count die pos n).removals = s.removals := rfl
@[simp] theorem State.count_waiting (die pos n : Nat) : (s.count die pos n).waiting = s.waiting := rfl
@[simp] theorem State.count_traces (die pos n : Nat) : (s.count die pos n).traces = s.traces := rfl
@[simp] theorem State.count_nextCtx (die pos n : Nat) : (s.count die pos n).nextCtx = s.nextCtx := rfl
@[simp] theorem State.count_nextCode (die pos n : Nat) : (s.count die pos n).nextCode = s.nextCode := rfl
@[simp] theorem State.count_nextLaunch (die pos n : Nat) : (s.count die pos n).nextLaunch = s.nextLaunch := rfl
@[simp] theorem State.count_arms (die pos n : Nat) : (s.count die pos n).arms = s.arms := rfl
@[simp] theorem State.count_work (die pos n : Nat) : (s.count die pos n).work = s.work := rfl
@[simp] theorem State.count_dropping (die pos n : Nat) : (s.count die pos n).dropping = s.dropping := rfl
@[simp] theorem State.count_copyWait (die pos n : Nat) : (s.count die pos n).copyWait = s.copyWait := rfl
@[simp] theorem State.count_msixTable (die pos n : Nat) : (s.count die pos n).msixTable = s.msixTable := rfl
@[simp] theorem State.count_msix (die pos n : Nat) : (s.count die pos n).msix = s.msix := rfl
@[simp] theorem State.count_hostData (die pos n : Nat) : (s.count die pos n).hostData = s.hostData := rfl
@[simp] theorem State.count_faultSeq (die pos n : Nat) : (s.count die pos n).faultSeq = s.faultSeq := rfl
@[simp] theorem State.count_faultLost (die pos n : Nat) : (s.count die pos n).faultLost = s.faultLost := rfl
@[simp] theorem State.count_links (die pos n : Nat) : (s.count die pos n).links = s.links := rfl

@[simp] theorem State.interrupt_cycle (v : Nat) : (s.interrupt v).cycle = s.cycle := rfl
@[simp] theorem State.interrupt_turn (v : Nat) : (s.interrupt v).turn = s.turn := rfl
@[simp] theorem State.interrupt_wallAdj (v : Nat) : (s.interrupt v).wallAdj = s.wallAdj := rfl
@[simp] theorem State.interrupt_wallLast (v : Nat) : (s.interrupt v).wallLast = s.wallLast := rfl
@[simp] theorem State.interrupt_agenda (v : Nat) : (s.interrupt v).agenda = s.agenda := rfl
@[simp] theorem State.interrupt_free (v : Nat) : (s.interrupt v).free = s.free := rfl
@[simp] theorem State.interrupt_nextId (v : Nat) : (s.interrupt v).nextId = s.nextId := rfl
@[simp] theorem State.interrupt_cur (v : Nat) : (s.interrupt v).cur = s.cur := rfl
@[simp] theorem State.interrupt_line (v : Nat) : (s.interrupt v).line = s.line := rfl
@[simp] theorem State.interrupt_mem (v : Nat) : (s.interrupt v).mem = s.mem := rfl
@[simp] theorem State.interrupt_writes (v : Nat) : (s.interrupt v).writes = s.writes := rfl
@[simp] theorem State.interrupt_poison (v : Nat) : (s.interrupt v).poison = s.poison := rfl
@[simp] theorem State.interrupt_cells (v : Nat) : (s.interrupt v).cells = s.cells := rfl
@[simp] theorem State.interrupt_ops (v : Nat) : (s.interrupt v).ops = s.ops := rfl
@[simp] theorem State.interrupt_fences (v : Nat) : (s.interrupt v).fences = s.fences := rfl
@[simp] theorem State.interrupt_arrivals (v : Nat) : (s.interrupt v).arrivals = s.arrivals := rfl
@[simp] theorem State.interrupt_blocks (v : Nat) : (s.interrupt v).blocks = s.blocks := rfl
@[simp] theorem State.interrupt_gangs (v : Nat) : (s.interrupt v).gangs = s.gangs := rfl
@[simp] theorem State.interrupt_contexts (v : Nat) : (s.interrupt v).contexts = s.contexts := rfl
@[simp] theorem State.interrupt_codes (v : Nat) : (s.interrupt v).codes = s.codes := rfl
@[simp] theorem State.interrupt_graphs (v : Nat) : (s.interrupt v).graphs = s.graphs := rfl
@[simp] theorem State.interrupt_queues (v : Nat) : (s.interrupt v).queues = s.queues := rfl
@[simp] theorem State.interrupt_launches (v : Nat) : (s.interrupt v).launches = s.launches := rfl
@[simp] theorem State.interrupt_replays (v : Nat) : (s.interrupt v).replays = s.replays := rfl
@[simp] theorem State.interrupt_saved (v : Nat) : (s.interrupt v).saved = s.saved := rfl
@[simp] theorem State.interrupt_bar (v : Nat) : (s.interrupt v).bar = s.bar := rfl
@[simp] theorem State.interrupt_telemetry (v : Nat) : (s.interrupt v).telemetry = s.telemetry := rfl
@[simp] theorem State.interrupt_sup (v : Nat) : (s.interrupt v).sup = s.sup := rfl
@[simp] theorem State.interrupt_wrote (v : Nat) : (s.interrupt v).wrote = s.wrote := rfl
@[simp] theorem State.interrupt_reports (v : Nat) : (s.interrupt v).reports = s.reports := rfl
@[simp] theorem State.interrupt_removals (v : Nat) : (s.interrupt v).removals = s.removals := rfl
@[simp] theorem State.interrupt_waiting (v : Nat) : (s.interrupt v).waiting = s.waiting := rfl
@[simp] theorem State.interrupt_traces (v : Nat) : (s.interrupt v).traces = s.traces := rfl
@[simp] theorem State.interrupt_nextCtx (v : Nat) : (s.interrupt v).nextCtx = s.nextCtx := rfl
@[simp] theorem State.interrupt_nextCode (v : Nat) : (s.interrupt v).nextCode = s.nextCode := rfl
@[simp] theorem State.interrupt_nextLaunch (v : Nat) : (s.interrupt v).nextLaunch = s.nextLaunch := rfl
@[simp] theorem State.interrupt_arms (v : Nat) : (s.interrupt v).arms = s.arms := rfl
@[simp] theorem State.interrupt_work (v : Nat) : (s.interrupt v).work = s.work := rfl
@[simp] theorem State.interrupt_dropping (v : Nat) : (s.interrupt v).dropping = s.dropping := rfl
@[simp] theorem State.interrupt_copyWait (v : Nat) : (s.interrupt v).copyWait = s.copyWait := rfl
@[simp] theorem State.interrupt_msixTable (v : Nat) : (s.interrupt v).msixTable = s.msixTable := rfl
@[simp] theorem State.interrupt_hostData (v : Nat) : (s.interrupt v).hostData = s.hostData := rfl
@[simp] theorem State.interrupt_faultSeq (v : Nat) : (s.interrupt v).faultSeq = s.faultSeq := rfl
@[simp] theorem State.interrupt_faultLost (v : Nat) : (s.interrupt v).faultLost = s.faultLost := rfl
@[simp] theorem State.interrupt_links (v : Nat) : (s.interrupt v).links = s.links := rfl

@[simp] theorem State.freeVal_fst : s.freeVal.1 = Config.freeWord s.free := rfl
@[simp] theorem State.freeVal_cycle : s.freeVal.2.cycle = s.cycle := rfl
@[simp] theorem State.freeVal_turn : s.freeVal.2.turn = s.turn := rfl
@[simp] theorem State.freeVal_wallAdj : s.freeVal.2.wallAdj = s.wallAdj := rfl
@[simp] theorem State.freeVal_wallLast : s.freeVal.2.wallLast = s.wallLast := rfl
@[simp] theorem State.freeVal_agenda : s.freeVal.2.agenda = s.agenda := rfl
@[simp] theorem State.freeVal_nextId : s.freeVal.2.nextId = s.nextId := rfl
@[simp] theorem State.freeVal_cur : s.freeVal.2.cur = s.cur := rfl
@[simp] theorem State.freeVal_line : s.freeVal.2.line = s.line := rfl
@[simp] theorem State.freeVal_mem : s.freeVal.2.mem = s.mem := rfl
@[simp] theorem State.freeVal_writes : s.freeVal.2.writes = s.writes := rfl
@[simp] theorem State.freeVal_poison : s.freeVal.2.poison = s.poison := rfl
@[simp] theorem State.freeVal_cells : s.freeVal.2.cells = s.cells := rfl
@[simp] theorem State.freeVal_ops : s.freeVal.2.ops = s.ops := rfl
@[simp] theorem State.freeVal_fences : s.freeVal.2.fences = s.fences := rfl
@[simp] theorem State.freeVal_arrivals : s.freeVal.2.arrivals = s.arrivals := rfl
@[simp] theorem State.freeVal_blocks : s.freeVal.2.blocks = s.blocks := rfl
@[simp] theorem State.freeVal_gangs : s.freeVal.2.gangs = s.gangs := rfl
@[simp] theorem State.freeVal_contexts : s.freeVal.2.contexts = s.contexts := rfl
@[simp] theorem State.freeVal_codes : s.freeVal.2.codes = s.codes := rfl
@[simp] theorem State.freeVal_graphs : s.freeVal.2.graphs = s.graphs := rfl
@[simp] theorem State.freeVal_queues : s.freeVal.2.queues = s.queues := rfl
@[simp] theorem State.freeVal_launches : s.freeVal.2.launches = s.launches := rfl
@[simp] theorem State.freeVal_replays : s.freeVal.2.replays = s.replays := rfl
@[simp] theorem State.freeVal_saved : s.freeVal.2.saved = s.saved := rfl
@[simp] theorem State.freeVal_bar : s.freeVal.2.bar = s.bar := rfl
@[simp] theorem State.freeVal_telemetry : s.freeVal.2.telemetry = s.telemetry := rfl
@[simp] theorem State.freeVal_sup : s.freeVal.2.sup = s.sup := rfl
@[simp] theorem State.freeVal_wrote : s.freeVal.2.wrote = s.wrote := rfl
@[simp] theorem State.freeVal_reports : s.freeVal.2.reports = s.reports := rfl
@[simp] theorem State.freeVal_removals : s.freeVal.2.removals = s.removals := rfl
@[simp] theorem State.freeVal_waiting : s.freeVal.2.waiting = s.waiting := rfl
@[simp] theorem State.freeVal_traces : s.freeVal.2.traces = s.traces := rfl
@[simp] theorem State.freeVal_nextCtx : s.freeVal.2.nextCtx = s.nextCtx := rfl
@[simp] theorem State.freeVal_nextCode : s.freeVal.2.nextCode = s.nextCode := rfl
@[simp] theorem State.freeVal_nextLaunch : s.freeVal.2.nextLaunch = s.nextLaunch := rfl
@[simp] theorem State.freeVal_arms : s.freeVal.2.arms = s.arms := rfl
@[simp] theorem State.freeVal_work : s.freeVal.2.work = s.work := rfl
@[simp] theorem State.freeVal_dropping : s.freeVal.2.dropping = s.dropping := rfl
@[simp] theorem State.freeVal_copyWait : s.freeVal.2.copyWait = s.copyWait := rfl
@[simp] theorem State.freeVal_msixTable : s.freeVal.2.msixTable = s.msixTable := rfl
@[simp] theorem State.freeVal_msix : s.freeVal.2.msix = s.msix := rfl
@[simp] theorem State.freeVal_hostData : s.freeVal.2.hostData = s.hostData := rfl
@[simp] theorem State.freeVal_faultSeq : s.freeVal.2.faultSeq = s.faultSeq := rfl
@[simp] theorem State.freeVal_faultLost : s.freeVal.2.faultLost = s.faultLost := rfl
@[simp] theorem State.freeVal_links : s.freeVal.2.links = s.links := rfl

@[simp] theorem State.freeFlag_fst : s.freeFlag.1 = Config.freeBit s.free := rfl
@[simp] theorem State.freeFlag_cycle : s.freeFlag.2.cycle = s.cycle := rfl
@[simp] theorem State.freeFlag_turn : s.freeFlag.2.turn = s.turn := rfl
@[simp] theorem State.freeFlag_wallAdj : s.freeFlag.2.wallAdj = s.wallAdj := rfl
@[simp] theorem State.freeFlag_wallLast : s.freeFlag.2.wallLast = s.wallLast := rfl
@[simp] theorem State.freeFlag_agenda : s.freeFlag.2.agenda = s.agenda := rfl
@[simp] theorem State.freeFlag_nextId : s.freeFlag.2.nextId = s.nextId := rfl
@[simp] theorem State.freeFlag_cur : s.freeFlag.2.cur = s.cur := rfl
@[simp] theorem State.freeFlag_line : s.freeFlag.2.line = s.line := rfl
@[simp] theorem State.freeFlag_mem : s.freeFlag.2.mem = s.mem := rfl
@[simp] theorem State.freeFlag_writes : s.freeFlag.2.writes = s.writes := rfl
@[simp] theorem State.freeFlag_poison : s.freeFlag.2.poison = s.poison := rfl
@[simp] theorem State.freeFlag_cells : s.freeFlag.2.cells = s.cells := rfl
@[simp] theorem State.freeFlag_ops : s.freeFlag.2.ops = s.ops := rfl
@[simp] theorem State.freeFlag_fences : s.freeFlag.2.fences = s.fences := rfl
@[simp] theorem State.freeFlag_arrivals : s.freeFlag.2.arrivals = s.arrivals := rfl
@[simp] theorem State.freeFlag_blocks : s.freeFlag.2.blocks = s.blocks := rfl
@[simp] theorem State.freeFlag_gangs : s.freeFlag.2.gangs = s.gangs := rfl
@[simp] theorem State.freeFlag_contexts : s.freeFlag.2.contexts = s.contexts := rfl
@[simp] theorem State.freeFlag_codes : s.freeFlag.2.codes = s.codes := rfl
@[simp] theorem State.freeFlag_graphs : s.freeFlag.2.graphs = s.graphs := rfl
@[simp] theorem State.freeFlag_queues : s.freeFlag.2.queues = s.queues := rfl
@[simp] theorem State.freeFlag_launches : s.freeFlag.2.launches = s.launches := rfl
@[simp] theorem State.freeFlag_replays : s.freeFlag.2.replays = s.replays := rfl
@[simp] theorem State.freeFlag_saved : s.freeFlag.2.saved = s.saved := rfl
@[simp] theorem State.freeFlag_bar : s.freeFlag.2.bar = s.bar := rfl
@[simp] theorem State.freeFlag_telemetry : s.freeFlag.2.telemetry = s.telemetry := rfl
@[simp] theorem State.freeFlag_sup : s.freeFlag.2.sup = s.sup := rfl
@[simp] theorem State.freeFlag_wrote : s.freeFlag.2.wrote = s.wrote := rfl
@[simp] theorem State.freeFlag_reports : s.freeFlag.2.reports = s.reports := rfl
@[simp] theorem State.freeFlag_removals : s.freeFlag.2.removals = s.removals := rfl
@[simp] theorem State.freeFlag_waiting : s.freeFlag.2.waiting = s.waiting := rfl
@[simp] theorem State.freeFlag_traces : s.freeFlag.2.traces = s.traces := rfl
@[simp] theorem State.freeFlag_nextCtx : s.freeFlag.2.nextCtx = s.nextCtx := rfl
@[simp] theorem State.freeFlag_nextCode : s.freeFlag.2.nextCode = s.nextCode := rfl
@[simp] theorem State.freeFlag_nextLaunch : s.freeFlag.2.nextLaunch = s.nextLaunch := rfl
@[simp] theorem State.freeFlag_arms : s.freeFlag.2.arms = s.arms := rfl
@[simp] theorem State.freeFlag_work : s.freeFlag.2.work = s.work := rfl
@[simp] theorem State.freeFlag_dropping : s.freeFlag.2.dropping = s.dropping := rfl
@[simp] theorem State.freeFlag_copyWait : s.freeFlag.2.copyWait = s.copyWait := rfl
@[simp] theorem State.freeFlag_msixTable : s.freeFlag.2.msixTable = s.msixTable := rfl
@[simp] theorem State.freeFlag_msix : s.freeFlag.2.msix = s.msix := rfl
@[simp] theorem State.freeFlag_hostData : s.freeFlag.2.hostData = s.hostData := rfl
@[simp] theorem State.freeFlag_faultSeq : s.freeFlag.2.faultSeq = s.faultSeq := rfl
@[simp] theorem State.freeFlag_faultLost : s.freeFlag.2.faultLost = s.faultLost := rfl
@[simp] theorem State.freeFlag_links : s.freeFlag.2.links = s.links := rfl

end Sys2Proof.Machine
end

