-- ==== Sys2Proof/Laws/Gangs.lean ====
section
/-! SUPPORT. Looking up gangs, threads and registers after a change of one of them. -/

namespace Sys2Proof.Machine
open Host

/-! ### Lists searched by a key -/

theorem find_map_key {α : Type} (key : α → Nat) (f : α → α) (hf : ∀ x, key (f x) = key x) (l : List α) (k : Nat) :
    (l.map f).find? (fun x => key x == k) = (l.find? fun x => key x == k).map f := by
  induction l with
  | nil => rfl
  | cons x xs ih =>
    simp only [List.map_cons, List.find?_cons, hf]
    split <;> simp_all

theorem find_key {α : Type} {key : α → Nat} {l : List α} {k : Nat} {x : α} (h : l.find? (fun x => key x == k) = some x) : key x = k := by
  simpa using List.find?_some h

theorem State.gang?_gid {s : State} {gid : Nat} {g : Gang} (h : s.gang? gid = some g) : g.gid = gid := find_key (key := Gang.gid) h

theorem Gang.thread?_thr {g : Gang} {t : Nat} {x : Thread} (h : g.thread? t = some x) : x.thr = t := find_key (key := Thread.thr) h

theorem State.gang?_modGang (s : State) (gid h : Nat) (f : Gang → Gang) (hf : ∀ g, (f g).gid = g.gid) :
    (s.modGang gid f).gang? h = if h = gid then (s.gang? h).map f else s.gang? h := by
  have key : ∀ g : Gang, (if g.gid = gid then f g else g).gid = g.gid := fun g => by split <;> simp [hf]
  unfold State.gang? State.modGang
  rw [find_map_key Gang.gid _ key]
  cases hg : s.gangs.find? fun g => g.gid == h with
  | none => simp
  | some g =>
    have := find_key (key := Gang.gid) hg
    by_cases hh : h = gid <;> simp_all

theorem State.gang?_modGang_same (s : State) (gid : Nat) (f : Gang → Gang) (hf : ∀ g, (f g).gid = g.gid) :
    (s.modGang gid f).gang? gid = (s.gang? gid).map f := by rw [s.gang?_modGang gid gid f hf, if_pos rfl]

theorem State.gang?_modGang_other (s : State) {gid h : Nat} (f : Gang → Gang) (hf : ∀ g, (f g).gid = g.gid) (hh : h ≠ gid) :
    (s.modGang gid f).gang? h = s.gang? h := by rw [s.gang?_modGang gid h f hf, if_neg hh]

theorem Gang.thread?_map (g : Gang) (f : Thread → Thread) (hf : ∀ x, (f x).thr = x.thr) (t : Nat) :
    ({ g with threads := g.threads.map f } : Gang).thread? t = (g.thread? t).map f := find_map_key Thread.thr f hf g.threads t

theorem Gang.thread?_modThread (g : Gang) (t n : Nat) (f : Thread → Thread) (hf : ∀ x, (f x).thr = x.thr) :
    (g.modThread t f).thread? n = if n = t then (g.thread? n).map f else g.thread? n := by
  unfold Gang.modThread
  rw [Gang.thread?_map g _ (fun x => by split <;> simp [hf])]
  cases hx : g.thread? n with
  | none => simp
  | some x =>
    have := Gang.thread?_thr hx
    by_cases h : n = t <;> simp_all

theorem State.env?_gang {s : State} {gid : Nat} {e : Env} (h : s.env? gid = some e) : s.gang? gid = some e.g := by
  unfold State.env? at h
  cases hg : s.gang? gid with
  | none => simp [hg] at h
  | some g =>
    simp only [hg, Option.bind_some, Option.bind_eq_some_iff, Option.some.injEq] at h
    obtain ⟨b, -, l, -, c, -, rfl⟩ := h
    rfl

theorem State.env?_gid {s : State} {gid : Nat} {e : Env} (h : s.env? gid = some e) : e.g.gid = gid := State.gang?_gid (State.env?_gang h)

/-! ### Association lists -/

theorem alGet_cons {α : Type} (e : Nat × α) (m : List (Nat × α)) (j : Nat) : alGet (e :: m) j = if e.1 = j then some e.2 else alGet m j := by
  by_cases h : e.1 = j <;> simp [alGet, h]

theorem alGet_alSet {α : Type} (m : List (Nat × α)) (k j : Nat) (v : α) : alGet (alSet m k v) j = if j = k then some v else alGet m j := by
  induction m with
  | nil =>
    rw [alSet, alGet_cons]
    by_cases h : k = j
    · rw [if_pos h, if_pos h.symm]
    · rw [if_neg h, if_neg (fun q => h q.symm)]
  | cons e m ih =>
    unfold alSet
    split
    · rw [alGet_cons]
      by_cases h : k = j
      · rw [if_pos h, if_pos h.symm]
      · rw [if_neg h, if_neg (fun q => h q.symm)]
    · split
      · rename_i he
        rw [alGet_cons, alGet_cons, he]
        by_cases h : k = j
        · rw [if_pos h, if_pos h.symm]
        · rw [if_neg h, if_neg (fun q => h q.symm), if_neg h]
      · rename_i he
        rw [alGet_cons, alGet_cons, ih]
        by_cases h : e.1 = j
        · have : j ≠ k := fun q => he (h.trans q)
          rw [if_pos h, if_pos h, if_neg this]
        · rw [if_neg h, if_neg h]

theorem setAt_length {α : Type} (l : List α) (t : Nat) (v : α) : (setAt l t v).length = l.length := by
  induction l generalizing t with
  | nil => rfl
  | cons x l ih => cases t <;> simp [setAt, ih]

theorem setAt_getD {α : Type} (l : List α) (t n : Nat) (v d : α) (h : t < l.length) :
    (setAt l t v).getD n d = if n = t then v else l.getD n d := by
  induction l generalizing t n with
  | nil => simp at h
  | cons x l ih =>
    cases t with
    | zero => cases n <;> simp [setAt]
    | succ t =>
      cases n with
      | zero => simp [setAt]
      | succ n =>
        have := ih t n (by simpa using h)
        simpa [setAt] using this

theorem getD_zeros (n t : Nat) : (List.replicate n (0 : Word)).getD t 0 = 0 := by
  induction n generalizing t with
  | zero => rfl
  | succ n ih => cases t with
    | zero => rfl
    | succ t => simp [List.replicate_succ]

/-! ### Registers -/

/-- What reading a register looks at: the beads, the threads and the mask of trap mode. -/
theorem Gang.readReg_congr {g g' : Gang} (hr : g'.rods = g.rods) (ht : g'.threads = g.threads) (hm : g'.trap = g.trap) (r : Reg) (t : Nat) :
    g'.readReg r t = g.readReg r t := by
  unfold Gang.readReg Gang.kReg Gang.bead Gang.thread?
  rw [hr, ht, hm]

theorem Gang.readReg_threads {g : Gang} (f : Thread → Thread) (hf : ∀ x, (f x).thr = x.thr) (hk : ∀ x, (f x).k = x.k) (r : Reg) (t : Nat) :
    ({ g with threads := g.threads.map f } : Gang).readReg r t = g.readReg r t := by
  have h : ({ g with threads := g.threads.map f } : Gang).kReg r = g.kReg r := rfl
  have hb : ({ g with threads := g.threads.map f } : Gang).bead r.toNat t = g.bead r.toNat t := rfl
  unfold Gang.readReg
  rw [h, hb, Gang.thread?_map g f hf]
  cases g.thread? t <;> simp [hk]

theorem Gang.readReg_modThread (g : Gang) (n : Nat) (f : Thread → Thread) (hf : ∀ x, (f x).thr = x.thr) (hk : ∀ x, (f x).k = x.k)
    (r : Reg) (t : Nat) : (g.modThread n f).readReg r t = g.readReg r t :=
  Gang.readReg_threads (fun x => if x.thr = n then f x else x) (fun x => by split <;> simp [hf]) (fun x => by split <;> simp [hk]) r t

theorem Gang.sound_thread {g : Gang} (h : g.sound = true) {t : Nat} {x : Thread} (hx : g.thread? t = some x) : t < 32 ∧ x.k.length = 8 := by
  have hm : x ∈ g.threads := List.mem_of_find?_eq_some hx
  have ht := Gang.thread?_thr hx
  simp only [Gang.sound, Bool.and_eq_true, List.all_eq_true, Thread.sound, decide_eq_true_eq, beq_iff_eq] at h
  have := h.1.1 x hm
  omega

theorem alGet_mem {α : Type} {m : List (Nat × α)} {k : Nat} {v : α} (h : alGet m k = some v) : (k, v) ∈ m := by
  unfold alGet at h
  simp only [Option.map_eq_some_iff] at h
  obtain ⟨e, he, rfl⟩ := h
  have := List.mem_of_find?_eq_some he
  have hk : e.1 = k := by simpa using List.find?_some he
  subst hk; exact this

theorem Gang.sound_beads {g : Gang} (h : g.sound = true) {r : Nat} {bs : List Word} (hb : alGet g.rods r = some (.value bs)) : bs.length = 32 := by
  have hm := alGet_mem hb
  simp only [Gang.sound, Bool.and_eq_true, soundRods] at h
  have := List.all_eq_true.mp h.1.2 _ hm
  simpa using this

/-- A write to a bead or k register is read back there, and nowhere else (R73, R75, R88). -/
theorem Gang.readReg_writeReg {g : Gang} (h : g.sound = true) {n : Nat} {x : Thread} (hx : g.thread? n = some x) (d r : Reg) (t : Nat) (v : Word) :
    (g.writeReg d n v).readReg r t = if t = n ∧ r = d then v else g.readReg r t := by
  have ⟨hn, hk8⟩ := Gang.sound_thread h hx
  unfold Gang.writeReg
  split
  · rename_i hk
    have hthr : ∀ y : Thread, ({ y with k := setAt y.k (d.toNat - 248) v } : Thread).thr = y.thr := fun _ => rfl
    have hd : 248 ≤ d.toNat := by unfold Gang.kReg at hk; simp at hk; exact hk.1
    have hd2 : d.toNat < 256 := d.isLt
    have hr2 : r.toNat < 256 := r.isLt
    refine (Gang.readReg_congr (g := g.modThread n fun y => { y with k := setAt y.k (d.toNat - 248) v }) rfl rfl rfl r t).trans ?_
    have e0 : (g.modThread n fun y => { y with k := setAt y.k (d.toNat - 248) v }).kReg r = g.kReg r := rfl
    have e2 : (g.modThread n fun y => { y with k := setAt y.k (d.toNat - 248) v }).bead r.toNat t = g.bead r.toNat t := rfl
    unfold Gang.readReg
    rw [e0, e2, Gang.thread?_modThread _ _ _ _ hthr]
    by_cases hkt : g.kReg r
    · rw [if_pos hkt, if_pos hkt]
      have hr : 248 ≤ r.toNat := by unfold Gang.kReg at hkt; simp at hkt; exact hkt.1
      by_cases htn : t = n
      · subst htn
        simp only [if_true, hx, Option.map_some, Option.getD_some, true_and]
        rw [setAt_getD _ _ _ _ _ (by omega)]
        by_cases hrd : r = d
        · simp [hrd]
        · have : r.toNat - 248 ≠ d.toNat - 248 := fun q => hrd (by apply BitVec.eq_of_toNat_eq; omega)
          simp [hrd, this]
      · simp [htn]
    · rw [if_neg hkt, if_neg hkt]
      have : ¬ (t = n ∧ r = d) := by rintro ⟨rfl, rfl⟩; exact hkt hk
      rw [if_neg this]
  · rename_i hk
    have hsome : (g.thread? n).isNone = false := by simp [hx]
    have e0 : (g.setBead d.toNat n v).kReg r = g.kReg r := by unfold Gang.setBead; split <;> rfl
    have e1 : (g.setBead d.toNat n v).thread? t = g.thread? t := by unfold Gang.setBead; split <;> rfl
    unfold Gang.readReg
    rw [e0, e1]
    by_cases hkt : g.kReg r
    · rw [if_pos hkt, if_pos hkt]
      have : ¬ (t = n ∧ r = d) := by rintro ⟨rfl, rfl⟩; exact hk hkt
      rw [if_neg this]
    · rw [if_neg hkt, if_neg hkt]
      unfold Gang.setBead Gang.bead
      simp only [hsome, Bool.false_eq_true, if_false]
      rw [alGet_alSet]
      by_cases hrd : r.toNat = d.toNat
      · have hrd' : r = d := BitVec.eq_of_toNat_eq hrd
        subst hrd'
        simp only [if_true, and_true]
        cases hb : alGet g.rods r.toNat with
        | none =>
          simp only []
          rw [setAt_getD _ _ _ _ _ (by simp; omega)]
          by_cases htn : t = n
          · simp [htn]
          · simp only [htn, if_false]
            exact getD_zeros 32 t
        | some rod =>
          cases rod with
          | value bs =>
            simp only []
            rw [setAt_getD _ _ _ _ _ (by rw [Gang.sound_beads h hb]; omega)]
          | recipe =>
            simp only []
            rw [setAt_getD _ _ _ _ _ (by simp; omega)]
            by_cases htn : t = n
            · simp [htn]
            · simp only [htn, if_false]
              exact getD_zeros 32 t
      · have : r ≠ d := fun q => hrd (by rw [q])
        simp [hrd, this]

/-! ### Beads by number -/

theorem Gang.readReg_beadAt (g : Gang) (r : Reg) (n : Nat) : g.readReg r n = g.beadAt n (g.regNum r) := by
  have hr : r.toNat < 256 := r.isLt
  unfold Gang.readReg Gang.beadAt Gang.regNum
  cases h : g.kReg r with
  | true =>
    have : 248 ≤ r.toNat := by simp only [Gang.kReg, Bool.and_eq_true, decide_eq_true_eq] at h; exact h.1
    simp only [if_true]
    rw [if_neg (by omega), show r.toNat + 8 - 256 = r.toNat - 248 by omega]
  | false => simp [hr]

theorem Gang.beadAt_congr {g g' : Gang} (hr : ∀ r n, g'.bead r n = g.bead r n) (ht : ∀ n, (g'.thread? n).map (·.k) = (g.thread? n).map (·.k)) (n num : Nat) :
    g'.beadAt n num = g.beadAt n num := by
  have hk : ∀ j, ((g'.thread? n).map fun x => x.k.getD j 0) = (g.thread? n).map fun x => x.k.getD j 0 := fun j => by
    have := congrArg (Option.map fun l : List Word => l.getD j 0) (ht n)
    simpa [Option.map_map, Function.comp_def] using this
  unfold Gang.beadAt
  rw [hr, hk]

/-- A change of threads that leaves their k registers alone changes no bead. -/
theorem Gang.beadAt_threads {g : Gang} (f : Thread → Thread) (hf : ∀ x, (f x).thr = x.thr) (hk : ∀ x, (f x).k = x.k) (n num : Nat) :
    ({ g with threads := g.threads.map f } : Gang).beadAt n num = g.beadAt n num :=
by
  refine Gang.beadAt_congr (g := g) (g' := { g with threads := g.threads.map f }) (fun _ _ => rfl) (fun n => ?_) n num
  rw [Gang.thread?_map g f hf]
  cases g.thread? n <;> simp [hk]

theorem Gang.beadAt_modThread (g : Gang) (t : Nat) (f : Thread → Thread) (hf : ∀ x, (f x).thr = x.thr) (hk : ∀ x, (f x).k = x.k) (n num : Nat) :
    (g.modThread t f).beadAt n num = g.beadAt n num :=
  Gang.beadAt_threads (fun x => if x.thr = t then f x else x) (fun x => by split <;> simp [hf]) (fun x => by split <;> simp [hk]) n num

/-- What hides a number from register fields is the gang's mode alone. -/
theorem Gang.hides_congr {g g' : Gang} (h : g'.trap = g.trap) (num : Nat) : g'.hides num = g.hides num := by unfold Gang.hides; rw [h]

/-- A write of a register reaches none that its fields do not name in the gang's mode (R88). -/
theorem Gang.hidden_writeReg (g : Gang) (d : Reg) (t : Nat) (v : Word) {n num : Nat} (h : g.hides num = true) :
    (g.writeReg d t v).beadAt n num = g.beadAt n num := by
  have hd : d.toNat < 256 := d.isLt
  unfold Gang.writeReg
  split
  · rename_i hk
    simp only [Gang.kReg, Bool.and_eq_true, decide_eq_true_eq] at hk
    unfold Gang.hides at h
    rw [if_pos hk.2, decide_eq_true_eq] at h
    unfold Gang.beadAt
    rw [if_pos h.2, if_pos h.2]
    rfl
  · rename_i hk
    unfold Gang.setBead
    split
    · rfl
    · unfold Gang.beadAt
      split
      · rename_i hn
        have hne : num ≠ d.toNat := by
          rintro rfl
          unfold Gang.hides at h
          cases ht : g.trap.isSome with
          | true => rw [ht, if_pos rfl, decide_eq_true_eq] at h; exact hk (by simp [Gang.kReg, h.1, ht])
          | false => rw [ht] at h; simp at h; omega
        simp only [Gang.bead, alGet_alSet, if_neg hne]
      · rfl

theorem State.beadOf_gang {s : State} {gid : Nat} {g : Gang} (h : s.gang? gid = some g) (n num : Nat) : s.beadOf gid n num = g.beadAt n num := by
  unfold State.beadOf; rw [h]; rfl

/-! ### Effects on registers and threads alone -/

/-- What an effect on registers and threads leaves of its gang: its name, %tmr, the trap mode, traps that are due, the last LSER turn, recipes and
RCPs, and what no register field reaches. -/
structure Gang.Apart (g g' : Gang) : Prop where
  gid : g'.gid = g.gid
  tmr : g'.tmr = g.tmr
  trap : g'.trap = g.trap
  pend : g'.pend = g.pend
  stopped : g'.stopped = g.stopped
  lastTurn : g'.lastTurn = g.lastTurn
  descs : g'.descs = g.descs
  pendRcp : g'.pendRcp = g.pendRcp
  hidden : ∀ n num, g.hides num = true → g'.beadAt n num = g.beadAt n num

theorem Gang.Apart.refl (g : Gang) : g.Apart g := ⟨rfl, rfl, rfl, rfl, rfl, rfl, rfl, rfl, fun _ _ _ => rfl⟩

theorem Gang.Apart.trans {g h k : Gang} (a : g.Apart h) (b : h.Apart k) : g.Apart k :=
  ⟨b.gid.trans a.gid, b.tmr.trans a.tmr, b.trap.trans a.trap, b.pend.trans a.pend, b.stopped.trans a.stopped, b.lastTurn.trans a.lastTurn,
    b.descs.trans a.descs, b.pendRcp.trans a.pendRcp, fun n num hn =>
      (b.hidden n num (by rw [Gang.hides_congr a.trap, hn])).trans (a.hidden n num hn)⟩

theorem Gang.Apart.writeReg (g : Gang) (d : Reg) (t : Nat) (v : Word) : g.Apart (g.writeReg d t v) := by
  have hh := fun n num (h : g.hides num = true) => Gang.hidden_writeReg g d t v (n := n) h
  revert hh
  unfold Gang.writeReg Gang.setBead
  split
  · exact fun hh => ⟨rfl, rfl, rfl, rfl, rfl, rfl, rfl, rfl, hh⟩
  · split <;> exact fun hh => ⟨rfl, rfl, rfl, rfl, rfl, rfl, rfl, rfl, hh⟩

theorem Gang.Apart.threads (g : Gang) (f : Thread → Thread) (hf : ∀ x, (f x).thr = x.thr) (hk : ∀ x, (f x).k = x.k) :
    g.Apart { g with threads := g.threads.map f } :=
  ⟨rfl, rfl, rfl, rfl, rfl, rfl, rfl, rfl, fun n num _ => Gang.beadAt_threads f hf hk n num⟩

theorem Gang.Apart.modThread (g : Gang) (t : Nat) (f : Thread → Thread) (hf : ∀ x, (f x).thr = x.thr) (hk : ∀ x, (f x).k = x.k) : g.Apart (g.modThread t f) :=
  ⟨rfl, rfl, rfl, rfl, rfl, rfl, rfl, rfl, fun n num _ => Gang.beadAt_modThread g t f hf hk n num⟩

theorem Gang.Apart.foldl {α : Type} (f : Gang → α → Gang) (hf : ∀ (g : Gang) x, g.Apart (f g x)) (xs : List α) (g : Gang) : g.Apart (xs.foldl f g) := by
  induction xs generalizing g with
  | nil => exact .refl g
  | cons x xs ih => exact (hf g x).trans (ih _)

end Sys2Proof.Machine
end

