-- ==== Sys2Proof/Laws/Memory.lean ====
section
/-! SUPPORT. Memory: every operation keeps the canonical form; a read after a write gives what was written and every other byte is
as before; moving writes from the coherence order into memory changes no byte. -/

namespace Sys2Proof.Machine
open Host

/-! ### The canonical form -/

theorem Memory.wf_iff (m : List Cell) : Memory.wf m = true ↔ (∀ e ∈ m, e.2 ≠ memDefault) ∧ m.Pairwise fun a b => a.1 < b.1 := by
  induction m with
  | nil => simp [Memory.wf]
  | cons e m ih =>
    cases m with
    | nil => simp [Memory.wf]
    | cons f r =>
      have hd : Memory.wf (e :: f :: r) = (e.2 != memDefault && decide (e.1 < f.1) && Memory.wf (f :: r)) := rfl
      rw [hd, Bool.and_eq_true, Bool.and_eq_true, ih, List.pairwise_cons (a := e)]
      simp only [bne_iff_ne, ne_eq, decide_eq_true_eq, List.mem_cons, forall_eq_or_imp]
      constructor
      · rintro ⟨⟨h1, h2⟩, h3, h4⟩
        exact ⟨⟨h1, h3⟩, ⟨h2, fun x hx => h2.trans ((List.pairwise_cons.mp h4).1 x hx)⟩, h4⟩
      · rintro ⟨⟨h1, h3⟩, ⟨h2, -⟩, h4⟩
        exact ⟨⟨h1, h2⟩, h3, h4⟩

theorem alDel_sublist {α : Type} (m : List (Nat × α)) (k : Nat) : (alDel m k).Sublist m := List.filter_sublist

theorem alSet_mem {α : Type} {m : List (Nat × α)} {k : Nat} {v : α} {e : Nat × α} (h : e ∈ alSet m k v) : e = (k, v) ∨ e ∈ m := by
  induction m with
  | nil => exact .inl (by simpa [alSet] using h)
  | cons x m ih =>
    unfold alSet at h
    split at h
    · simpa using h
    · split at h
      · rcases List.mem_cons.mp h with h | h
        · exact .inl h
        · exact .inr (by simp [h])
      · rcases List.mem_cons.mp h with h | h
        · exact .inr (by simp [h])
        · rcases ih h with h | h
          · exact .inl h
          · exact .inr (by simp [h])

theorem alSet_pairwise {α : Type} {m : List (Nat × α)} (h : m.Pairwise fun a b => a.1 < b.1) (k : Nat) (v : α) :
    (alSet m k v).Pairwise fun a b => a.1 < b.1 := by
  induction m with
  | nil => simp [alSet]
  | cons x m ih =>
    obtain ⟨h1, h2⟩ := List.pairwise_cons.mp h
    unfold alSet
    split
    · rename_i hk
      refine List.pairwise_cons.mpr ⟨fun y hy => ?_, h⟩
      rcases List.mem_cons.mp hy with rfl | hy
      · exact hk
      · exact hk.trans (h1 y hy)
    · split
      · rename_i hk
        exact List.pairwise_cons.mpr ⟨fun y hy => by have := h1 y hy; simp only; omega, h2⟩
      · rename_i hk hk'
        refine List.pairwise_cons.mpr ⟨fun y hy => ?_, ih h2⟩
        rcases alSet_mem hy with rfl | hy
        · simp only; omega
        · exact h1 y hy

/-- Writing one byte keeps the canonical form. -/
theorem memSet_wf {m : List Cell} (h : Memory.wf m = true) (a : Nat) (v : Byte) : Memory.wf (memSet m a v) = true := by
  rw [Memory.wf_iff] at h ⊢
  unfold memSet
  split
  · exact ⟨fun e he => h.1 e ((alDel_sublist m a).subset he), h.2.sublist (alDel_sublist m a)⟩
  · rename_i hv
    exact ⟨fun e he => by rcases alSet_mem he with rfl | he; exacts [hv, h.1 e he], alSet_pairwise h.2 a v⟩

/-- Writing bytes keeps the canonical form. -/
theorem memPut_wf {m : List Cell} (h : Memory.wf m = true) (a : Nat) (bs : List Byte) : Memory.wf (memPut m a bs) = true := by
  induction bs generalizing m a with
  | nil => exact h
  | cons b bs ih => exact ih (memSet_wf h a b) (a + 1)

/-! ### Read after write -/

theorem alGet_alDel {α : Type} (m : List (Nat × α)) (k j : Nat) : alGet (alDel m k) j = if j = k then none else alGet m j := by
  induction m with
  | nil => simp [alDel, alGet]
  | cons e m ih =>
    unfold alDel at ih ⊢
    by_cases he : e.1 = k
    · rw [List.filter_cons_of_neg (by simp [he]), ih, alGet_cons]
      by_cases hj : j = k
      · simp [hj]
      · rw [if_neg hj, if_neg hj, if_neg (by omega)]
    · rw [List.filter_cons_of_pos (by simpa using he), alGet_cons, alGet_cons, ih]
      by_cases hj : e.1 = j
      · rw [if_pos hj, if_pos hj, if_neg (by omega)]
      · rw [if_neg hj, if_neg hj]

theorem memGet_memSet (m : List Cell) (a j : Nat) (v : Byte) : memGet (memSet m a v) j = if j = a then v else memGet m j := by
  unfold memGet memSet
  by_cases hv : v = memDefault
  · rw [if_pos hv, alGet_alDel]
    split
    · simp [hv]
    · rfl
  · rw [if_neg hv, alGet_alSet]
    split <;> rfl

/-- A read of memory after a write: the bytes written, and every other byte as before. -/
theorem memGet_memPut (m : List Cell) (a j : Nat) (bs : List Byte) :
    memGet (memPut m a bs) j = if a ≤ j ∧ j < a + bs.length then bs.getD (j - a) 0 else memGet m j := by
  induction bs generalizing m a with
  | nil => simp [memPut]
  | cons b bs ih =>
    rw [memPut, ih, memGet_memSet]
    simp only [List.length_cons]
    by_cases h1 : j = a
    · subst h1
      simp
    · by_cases h2 : a + 1 ≤ j ∧ j < a + 1 + bs.length
      · have : j - a = (j - (a + 1)) + 1 := by omega
        rw [if_pos h2, if_pos (by omega), this, List.getD_cons_succ]
      · rw [if_neg h2, if_neg h1, if_neg (by omega)]

/-! ### The coherence order -/

/-- Settling writes touches memory, its poison and keys, and the writes on their way alone. -/
theorem State.retireGo_eq (n : Nat) (s : State) : ∃ m w p c, State.retireGo n s = { s with mem := m, writes := w, poison := p, crypt := c } := by
  induction n generalizing s with
  | zero => exact ⟨s.mem, s.writes, s.poison, s.crypt, by cases s; rfl⟩
  | succ n ih =>
    unfold State.retireGo
    split
    · split
      · obtain ⟨m, w, p, c, h⟩ := ih { s.settle _ with writes := _ }
        exact ⟨m, w, p, c, h⟩
      · exact ⟨s.mem, s.writes, s.poison, s.crypt, by cases s; rfl⟩
    · exact ⟨s.mem, s.writes, s.poison, s.crypt, by cases s; rfl⟩

theorem State.retire_eq (s : State) : ∃ m w p c, s.retire = { s with mem := m, writes := w, poison := p, crypt := c } := State.retireGo_eq _ s

/-- A write touches memory, its poison and keys, the writes on their way, the record of writes and the next name alone. -/
theorem State.append_eq (s : State) (loc : Nat) (data : List Byte) (bad : Bool) (vis : List ScopeUnit) (op : Option Nat := none)
    (key : Option (List Byte) := none) :
    ∃ m w p h c, (s.append loc data bad vis op key).1 = { s with mem := m, writes := w, poison := p, wrote := h, crypt := c, nextId := s.nextId + 1 } := by
  obtain ⟨m, w, p, c, h⟩ := State.retire_eq { s with writes := s.writes ++ [⟨s.nextId, loc, data, bad, vis, op, key⟩], nextId := s.nextId + 1,
                                                     wrote := s.wrote ++ [s.history loc data bad] }
  exact ⟨m, w, p, _, c, h⟩

theorem State.retireGo_wf (n : Nat) (s : State) (h : Memory.wf s.mem = true) : Memory.wf (State.retireGo n s).mem = true := by
  induction n generalizing s with
  | zero => exact h
  | succ n ih =>
    unfold State.retireGo
    split
    · split
      · exact ih _ (memPut_wf h _ _)
      · exact h
    · exact h

theorem State.retire_wf {s : State} (h : Memory.wf s.mem = true) : Memory.wf s.retire.mem = true := State.retireGo_wf _ s h

theorem State.append_wf {s : State} (h : Memory.wf s.mem = true) (loc : Nat) (data : List Byte) (bad : Bool) (vis : List ScopeUnit) (op : Option Nat)
    (key : Option (List Byte)) : Memory.wf (s.append loc data bad vis op key).1.mem = true := State.retire_wf (s := { s with writes := _, nextId := _, wrote := _ }) h

theorem State.spread_wf {s : State} (h : Memory.wf s.mem = true) (wid : Nat) (u : ScopeUnit) : Memory.wf (s.spread wid u).mem = true :=
  State.retire_wf (s := { s with writes := _ }) h

theorem State.poke_wf {s : State} (h : Memory.wf s.mem = true) (loc : Nat) (data : List Byte) : Memory.wf (s.poke loc data).mem = true :=
  State.append_wf h _ _ _ _ _ _

/-- The memory of the machine after reset is in canonical form. -/
theorem State.reset_wf : Memory.wf State.reset.mem = true := rfl

/-! ### The byte at the end of the coherence order -/

theorem PWrite.byteAt_some (w : PWrite) (a : Nat) : w.byteAt a = if w.loc ≤ a ∧ a < w.loc + w.data.length then some (w.data.getD (a - w.loc) 0) else none := by
  unfold PWrite.byteAt
  split
  · rename_i h
    rw [List.getElem?_eq_getElem (by omega), List.getD_eq_getElem _ _ (by omega)]
  · rfl

theorem PWrite.byteAt_isSome (w : PWrite) (a : Nat) : (w.byteAt a).isSome = decide (w.loc ≤ a ∧ a < w.loc + w.data.length) := by
  rw [PWrite.byteAt_some]
  split <;> simp_all

/-- Keys of locations after some of them have been written under a key, or under none. -/
theorem alGet_keys (m : List (Nat × List Byte)) (locs : List Nat) (k : Option (List Byte)) (a : Nat) :
    alGet (match k with
      | some k => m.filter (fun e => e.1 ∉ locs) ++ locs.map fun a => (a, k)
      | none => m.filter fun e => e.1 ∉ locs) a = if a ∈ locs then k else alGet m a := by
  have hf : ∀ m : List (Nat × List Byte), (m.filter fun e => decide (e.1 ∉ locs)).find? (fun e => e.1 == a) =
      if a ∈ locs then none else m.find? fun e => e.1 == a := by
    intro m
    induction m with
    | nil => simp
    | cons e m ih =>
      by_cases he : e.1 = a
      · by_cases hl : a ∈ locs
        · rw [List.filter_cons_of_neg (by simpa [he] using hl), ih]; simp [hl]
        · rw [List.filter_cons_of_pos (by simpa [he] using hl)]; simp [hl, he]
      · have hb : (e.1 == a) = false := by simpa using he
        by_cases hl : e.1 ∈ locs
        · rw [List.filter_cons_of_neg (by simpa using hl), ih, List.find?_cons]; simp [hb]
        · rw [List.filter_cons_of_pos (by simpa using hl), List.find?_cons, List.find?_cons, ih]; simp [hb]
  cases k with
  | none =>
    unfold alGet
    dsimp only
    rw [hf]
    split <;> rfl
  | some k =>
    unfold alGet
    dsimp only
    rw [List.find?_append, hf]
    by_cases hl : a ∈ locs
    · rw [if_pos hl, if_pos hl, Option.none_or]
      have : (locs.map fun a => (a, k)).find? (fun e => e.1 == a) = some (a, k) := by
        clear hf
        induction locs with
        | nil => simp at hl
        | cons l ls ih =>
          by_cases h : l = a
          · simp [h]
          · have h1 : (l == a) = false := by simpa using h
            have h2 : a ∈ ls := by simpa [Ne.symm h] using hl
            simp [h1, ih h2]
      rw [this]; rfl
    · rw [if_neg hl, if_neg hl]
      have : (locs.map fun a => (a, k)).find? (fun e => e.1 == a) = none := by
        rw [List.find?_eq_none]
        intro x hx hq
        obtain ⟨l, hl', rfl⟩ := List.mem_map.mp hx
        exact hl (by simpa using (show l = a by simpa using hq) ▸ hl')
      rw [this, Option.or_none]

/-- Settling the first write of the coherence order changes no byte. -/
theorem State.settle_byteAt (s : State) (w : PWrite) (ws : List PWrite) (h : s.writes = w :: ws) (a : Nat) :
    State.byteAt { s.settle w with writes := ws } a = s.byteAt a := by
  unfold State.byteAt State.keyLast State.lastOf
  rw [h, List.reverse_cons, List.find?_append]
  dsimp only
  cases hf : ws.reverse.find? fun w => (w.byteAt a).isSome with
  | some x => rfl
  | none =>
    simp only [Option.none_or, List.find?_cons, List.find?_nil, PWrite.byteAt_isSome]
    have hmem : (a ∈ (List.range w.data.length).map (w.loc + ·)) ↔ (w.loc ≤ a ∧ a < w.loc + w.data.length) := by
      simp only [List.mem_map, List.mem_range]
      constructor
      · rintro ⟨i, hi, rfl⟩; omega
      · rintro ⟨h1, h2⟩; exact ⟨a - w.loc, by omega, by omega⟩
    have hkey : alGet (State.settle s w).crypt a = if w.loc ≤ a ∧ a < w.loc + w.data.length then w.key else alGet s.crypt a := by
      refine (alGet_keys s.crypt ((List.range w.data.length).map (w.loc + ·)) w.key a).trans ?_
      simp only [hmem]
    rw [hkey]
    by_cases hin : w.loc ≤ a ∧ a < w.loc + w.data.length
    · simp only [hin, and_self, decide_true, if_true]
      unfold State.byteFrom State.settle
      simp only [memGet_memPut, hin, and_self, if_true, PWrite.byteAt_some, Option.getD_some]
      cases hw : w.poison
      · have : ¬ a ∈ s.poison.filter (fun x => decide (x ∉ (List.range w.data.length).map (w.loc + ·))) := by
          simp only [List.mem_filter, decide_eq_true_eq, not_and, not_not]
          intro _; exact hmem.mpr hin
        simp only [Bool.false_eq_true, if_false]
        rw [decide_eq_false this]
      · have : a ∈ s.poison ++ ((List.range w.data.length).map (w.loc + ·)).filter (fun x => decide (x ∉ s.poison)) := by
          by_cases hp : a ∈ s.poison
          · simp [hp]
          · exact List.mem_append_right _ (List.mem_filter.mpr ⟨hmem.mpr hin, by simpa using hp⟩)
        simp only [if_true]
        rw [decide_eq_true this]
    · simp only [hin, decide_false, if_false]
      unfold State.byteFrom State.settle
      simp only [memGet_memPut, hin, if_false]
      have : (a ∈ (if w.poison = true then s.poison ++ ((List.range w.data.length).map (w.loc + ·)).filter (fun x => decide (x ∉ s.poison))
          else s.poison.filter (fun x => decide (x ∉ (List.range w.data.length).map (w.loc + ·))))) ↔ a ∈ s.poison := by
        split
        · simp only [List.mem_append, List.mem_filter, hmem]; tauto
        · simp only [List.mem_filter, decide_eq_true_eq, hmem]; tauto
      simp only [this]

theorem State.retireGo_byteAt (n : Nat) (s : State) (a : Nat) : (State.retireGo n s).byteAt a = s.byteAt a := by
  induction n generalizing s with
  | zero => rfl
  | succ n ih =>
    unfold State.retireGo
    split
    · rename_i w ws h
      split
      · rw [ih, State.settle_byteAt s w ws h a]
      · rfl
    · rfl

/-- Moving writes into memory changes no byte. -/
theorem State.retire_byteAt (s : State) (a : Nat) : s.retire.byteAt a = s.byteAt a := State.retireGo_byteAt _ s a

/-- A WRITE AT THE END OF THE COHERENCE ORDER: its bytes read as written, with its poison, under its key, and every other byte as before. -/
theorem State.append_byteAt (s : State) (loc : Nat) (data : List Byte) (bad : Bool) (vis : List ScopeUnit) (op : Option Nat) (key : Option (List Byte)) (a : Nat) :
    (s.append loc data bad vis op key).1.byteAt a =
      if loc ≤ a ∧ a < loc + data.length then (data.getD (a - loc) 0, bad, key) else s.byteAt a := by
  unfold State.append
  dsimp only
  rw [State.retire_byteAt]
  unfold State.byteAt State.keyLast State.lastOf
  dsimp only
  rw [List.reverse_append, List.reverse_singleton, List.singleton_append, List.find?_cons]
  rw [PWrite.byteAt_isSome]
  by_cases h : loc ≤ a ∧ a < loc + data.length
  · simp only [h, and_self, decide_true, if_true]
    unfold State.byteFrom
    simp only [PWrite.byteAt_some, h, and_self, if_true, Option.getD_some]
  · simp only [h, decide_false, if_false]
    rfl

theorem State.poke_byteAt (s : State) (loc : Nat) (data : List Byte) (a : Nat) :
    (s.poke loc data).byteAt a = if loc ≤ a ∧ a < loc + data.length then (data.getD (a - loc) 0, false, none) else s.byteAt a :=
  State.append_byteAt _ _ _ _ _ _ _ _

/-- A write becoming visible to one more scope changes no byte at the end of the coherence order. -/
theorem State.spread_byteAt (s : State) (wid : Nat) (u : ScopeUnit) (a : Nat) : (s.spread wid u).byteAt a = s.byteAt a := by
  unfold State.spread
  rw [State.retire_byteAt]
  unfold State.byteAt State.keyLast State.lastOf
  dsimp only
  set f : PWrite → PWrite := fun w => if w.wid = wid ∧ u ∉ w.vis then { w with vis := u :: w.vis } else w with hf
  have hb : ∀ w, (f w).byteAt a = w.byteAt a ∧ (f w).poison = w.poison ∧ (f w).wid = w.wid ∧ (f w).key = w.key := fun w => by
    rw [hf]; dsimp only; split <;> exact ⟨rfl, rfl, rfl, rfl⟩
  have : ((s.writes.map f).reverse.find? fun w => (w.byteAt a).isSome) = (s.writes.reverse.find? fun w => (w.byteAt a).isSome).map f := by
    rw [← List.map_reverse]
    induction s.writes.reverse with
    | nil => rfl
    | cons w ws ih => simp only [List.map_cons, List.find?_cons, (hb w).1]; split <;> simp_all
  rw [this]
  cases s.writes.reverse.find? fun w => (w.byteAt a).isSome with
  | none => rfl
  | some w => simp [State.byteFrom, (hb w).1, (hb w).2.1, (hb w).2.2.2]

end Sys2Proof.Machine
end

