-- ==== Sys2Proof/Laws/Commands.lean ====
section
/-! SUPPORT. Administrative commands: what one that can begin does (R333, R334), and what firmware writes and a launch's end touch, said once. -/

namespace Sys2Proof.Machine
open Host Sys2Proof

/-- A command that can begin: its checks are over. -/
theorem command_begins {specs : List FieldSpec} {p : Packet} {s : State} {always : Bool} {names : Parsed → List (Nat × Nat)}
    {run : Parsed → State → CmdResult} {i : Instr} {q : Parsed} (hi : adminOf s i = some (p, specs, names, always)) (hb : Begins s i q) :
    command specs p s always names run (trimOf s i) = .next (match run q s with
      | .reject st d => s.begun ⟨p.seq, names q, q.notify, .done, st, q.ignored.toNat, d⟩
      | .done s1 d => s1.begun ⟨p.seq, names q, q.notify, .done, stOK, q.ignored.toNat, d⟩
      | .wait s1 w d => s1.begun ⟨p.seq, names q, q.notify, w, stOK, q.ignored.toNat, d⟩) := by
  obtain ⟨p', specs', names', always', q0, h1, ht, h2, rfl, h3, h4⟩ := hb
  obtain ⟨rfl, rfl, rfl, rfl⟩ : p = p' ∧ specs = specs' ∧ names = names' ∧ always = always' := by simpa [hi] using h1
  have h5 : (s.failed && !always) = false := by rcases h4 with h | h <;> simp [h]
  unfold command
  rw [ht, h2]
  simp only [Bool.not_true, Bool.false_eq_true, if_false, h3, h5] <;> rfl

/-- A command that can begin and whose effect waits: it has begun with that effect. -/
theorem command_wait {specs : List FieldSpec} {p : Packet} {s t : State} {always : Bool} {names : Parsed → List (Nat × Nat)}
    {run : Parsed → State → CmdResult} {i : Instr} {q : Parsed} {w : WaitFor} {d : Nat} (hi : adminOf s i = some (p, specs, names, always))
    (hb : Begins s i q) (hr : run q s = .wait t w d) : command specs p s always names run (trimOf s i) = .next (s.began i q t w d) := by
  rw [command_begins hi hb, hr]
  unfold State.began
  rw [hi]

/-- A command that can begin and whose effect is whole at once. -/
theorem command_done {specs : List FieldSpec} {p : Packet} {s t : State} {always : Bool} {names : Parsed → List (Nat × Nat)}
    {run : Parsed → State → CmdResult} {i : Instr} {q : Parsed} {d : Nat} (hi : adminOf s i = some (p, specs, names, always))
    (hb : Begins s i q) (hr : run q s = .done t d) : command specs p s always names run (trimOf s i) = .next (s.began i q t .done d) := by
  rw [command_begins hi hb, hr]
  unfold State.began
  rw [hi]

/-- A command that can begin and is rejected by its effect's checks. -/
theorem command_reject {specs : List FieldSpec} {p : Packet} {s : State} {always : Bool} {names : Parsed → List (Nat × Nat)}
    {run : Parsed → State → CmdResult} {i : Instr} {q : Parsed} {st d : Nat} (hi : adminOf s i = some (p, specs, names, always))
    (hb : Begins s i q) (hr : run q s = .reject st d) :
    command specs p s always names run (trimOf s i) = .next (s.begun ⟨p.seq, names q, q.notify, .done, st, q.ignored.toNat, d⟩) := by
  rw [command_begins hi hb, hr]

/-- A packet that fails its checks. -/
theorem command_error {specs : List FieldSpec} {p : Packet} {s : State} {always : Bool} {names : Parsed → List (Nat × Nat)}
    {run : Parsed → State → CmdResult} {trim : Parsed → List Nat} {st : Nat} (ht : s.seqTurn p.seq = true) (h : parsePacket specs p = .error st) :
    command specs p s always names run trim = .next (s.begun ⟨p.seq, [], packetNotify p, .done, st, 0, 0⟩) := by
  simp [command, ht, h]

/-- A command whose turn it is not does not begin. -/
theorem command_late {specs : List FieldSpec} {p : Packet} {s : State} {always : Bool} {names : Parsed → List (Nat × Nat)}
    {run : Parsed → State → CmdResult} {trim : Parsed → List Nat} (ht : s.seqTurn p.seq = false) :
    command specs p s always names run trim = .next s := by
  simp [command, ht]

/-- A command that names what an unfinished one names does not begin. -/
theorem command_busy {specs : List FieldSpec} {p : Packet} {s : State} {always : Bool} {names : Parsed → List (Nat × Nat)}
    {run : Parsed → State → CmdResult} {trim : Parsed → List Nat} {q : Parsed} (h : parsePacket specs p = .ok q)
    (hb : s.busyNames (names (q.trim (trim q))) = true) : command specs p s always names run trim = .next s := by
  simp [command, h, hb]

/-- A command that health state FAILED turns away. -/
theorem command_failed {specs : List FieldSpec} {p : Packet} {s : State} {names : Parsed → List (Nat × Nat)}
    {run : Parsed → State → CmdResult} {trim : Parsed → List Nat} {q : Parsed} (ht : s.seqTurn p.seq = true) (h : parsePacket specs p = .ok q)
    (hb : s.busyNames (names (q.trim (trim q))) = false) (hf : s.failed = true) :
    command specs p s false names run trim = .next (s.begun ⟨p.seq, [], (q.trim (trim q)).notify, .done, stNORESOURCE, (q.trim (trim q)).ignored.toNat, 0⟩) := by
  simp [command, ht, h, hb, hf]

/-- A context that accepts commands is handed to the command. -/
theorem withCtx_open {s : State} {n : Nat} {c : Context} (h : s.open? n c) (ok : Bool) (k : Context → CmdResult) : withCtx s n ok k = k c := by
  unfold withCtx
  rw [h.1]
  simp [h.2]

/-- A context that exists is handed to a command which a restricted one accepts. -/
theorem withCtx_some {s : State} {n : Nat} {c : Context} (h : s.ctx? n = some c) (k : Context → CmdResult) : withCtx s n true k = k c := by
  unfold withCtx
  rw [h]
  simp

/-- Every administrative command is run by `command` with the fields, the names and the health rule that `adminOf` says. -/
theorem exec_command {i : Instr} {s : State} {p : Packet} {specs : List FieldSpec} {names : Parsed → List (Nat × Nat)} {always : Bool}
    (h : adminOf s i = some (p, specs, names, always)) : ∃ run, exec i s = command specs p s always names run (trimOf s i) := by
  cases i
  case ctxCreate p =>
    obtain ⟨rfl, rfl, rfl, rfl⟩ := by simpa only [adminOf, Option.some.injEq, Prod.mk.injEq] using h
    rw [show exec (.ctxCreate p) s = execCtxCreate p s from rfl]
    exact ⟨_, rfl⟩
  case ctxDestroy p =>
    obtain ⟨rfl, rfl, rfl, rfl⟩ := by simpa only [adminOf, Option.some.injEq, Prod.mk.injEq] using h
    rw [show exec (.ctxDestroy p) s = execCtxDestroy p s from rfl]
    exact ⟨_, rfl⟩
  case ctxDestroyForce p =>
    obtain ⟨rfl, rfl, rfl, rfl⟩ := by simpa only [adminOf, Option.some.injEq, Prod.mk.injEq] using h
    rw [show exec (.ctxDestroyForce p) s = execCtxDestroyForce p s from rfl]
    exact ⟨_, rfl⟩
  case regionDefine p =>
    obtain ⟨rfl, rfl, rfl, rfl⟩ := by simpa only [adminOf, Option.some.injEq, Prod.mk.injEq] using h
    rw [show exec (.regionDefine p) s = execRegionDefine p s from rfl]
    exact ⟨_, rfl⟩
  case regionRefresh p =>
    obtain ⟨rfl, rfl, rfl, rfl⟩ := by simpa only [adminOf, Option.some.injEq, Prod.mk.injEq] using h
    rw [show exec (.regionRefresh p) s = execRegionRefresh p s from rfl]
    exact ⟨_, rfl⟩
  case map p =>
    obtain ⟨rfl, rfl, rfl, rfl⟩ := by simpa only [adminOf, Option.some.injEq, Prod.mk.injEq] using h
    rw [show exec (.map p) s = execMap p s from rfl]
    exact ⟨_, rfl⟩
  case mapPeer p =>
    obtain ⟨rfl, rfl, rfl, rfl⟩ := by simpa only [adminOf, Option.some.injEq, Prod.mk.injEq] using h
    rw [show exec (.mapPeer p) s = execMapPeer p s from rfl]
    exact ⟨_, rfl⟩
  case unmap p =>
    obtain ⟨rfl, rfl, rfl, rfl⟩ := by simpa only [adminOf, Option.some.injEq, Prod.mk.injEq] using h
    rw [show exec (.unmap p) s = execUnmap p s from rfl]
    exact ⟨_, rfl⟩
  case protect p =>
    obtain ⟨rfl, rfl, rfl, rfl⟩ := by simpa only [adminOf, Option.some.injEq, Prod.mk.injEq] using h
    rw [show exec (.protect p) s = execProtect p s from rfl]
    exact ⟨_, rfl⟩
  case codeLoad p =>
    obtain ⟨rfl, rfl, rfl, rfl⟩ := by simpa only [adminOf, Option.some.injEq, Prod.mk.injEq] using h
    rw [show exec (.codeLoad p) s = execCodeLoad p s from rfl]
    exact ⟨_, rfl⟩
  case codeUnload p =>
    obtain ⟨rfl, rfl, rfl, rfl⟩ := by simpa only [adminOf, Option.some.injEq, Prod.mk.injEq] using h
    rw [show exec (.codeUnload p) s = execCodeUnload p s from rfl]
    exact ⟨_, rfl⟩
  case codeUnloadForce p =>
    obtain ⟨rfl, rfl, rfl, rfl⟩ := by simpa only [adminOf, Option.some.injEq, Prod.mk.injEq] using h
    rw [show exec (.codeUnloadForce p) s = execCodeUnloadForce p s from rfl]
    exact ⟨_, rfl⟩
  case repack p =>
    obtain ⟨rfl, rfl, rfl, rfl⟩ := by simpa only [adminOf, Option.some.injEq, Prod.mk.injEq] using h
    rw [show exec (.repack p) s = execRepack p s from rfl]
    exact ⟨_, rfl⟩
  case repackReplace p =>
    obtain ⟨rfl, rfl, rfl, rfl⟩ := by simpa only [adminOf, Option.some.injEq, Prod.mk.injEq] using h
    rw [show exec (.repackReplace p) s = execRepackReplace p s from rfl]
    exact ⟨_, rfl⟩
  case graphLoad p =>
    obtain ⟨rfl, rfl, rfl, rfl⟩ := by simpa only [adminOf, Option.some.injEq, Prod.mk.injEq] using h
    rw [show exec (.graphLoad p) s = execGraphLoad p s from rfl]
    exact ⟨_, rfl⟩
  case graphFree p =>
    obtain ⟨rfl, rfl, rfl, rfl⟩ := by simpa only [adminOf, Option.some.injEq, Prod.mk.injEq] using h
    rw [show exec (.graphFree p) s = execGraphFree p s from rfl]
    exact ⟨_, rfl⟩
  case queueBind p =>
    obtain ⟨rfl, rfl, rfl, rfl⟩ := by simpa only [adminOf, Option.some.injEq, Prod.mk.injEq] using h
    rw [show exec (.queueBind p) s = execQueueBind p s from rfl]
    exact ⟨_, rfl⟩
  case preemptDrain p =>
    obtain ⟨rfl, rfl, rfl, rfl⟩ := by simpa only [adminOf, Option.some.injEq, Prod.mk.injEq] using h
    rw [show exec (.preemptDrain p) s = execPreemptDrain p s from rfl]
    exact ⟨_, rfl⟩
  case preemptUrgent p =>
    obtain ⟨rfl, rfl, rfl, rfl⟩ := by simpa only [adminOf, Option.some.injEq, Prod.mk.injEq] using h
    rw [show exec (.preemptUrgent p) s = execPreemptUrgent p s from rfl]
    exact ⟨_, rfl⟩
  case preemptSwitch p =>
    obtain ⟨rfl, rfl, rfl, rfl⟩ := by simpa only [adminOf, Option.some.injEq, Prod.mk.injEq] using h
    rw [show exec (.preemptSwitch p) s = execPreemptSwitch p s from rfl]
    exact ⟨_, rfl⟩
  case preemptLift p =>
    obtain ⟨rfl, rfl, rfl, rfl⟩ := by simpa only [adminOf, Option.some.injEq, Prod.mk.injEq] using h
    rw [show exec (.preemptLift p) s = execPreemptLift p s from rfl]
    exact ⟨_, rfl⟩
  case migrateOut p =>
    obtain ⟨rfl, rfl, rfl, rfl⟩ := by simpa only [adminOf, Option.some.injEq, Prod.mk.injEq] using h
    rw [show exec (.migrateOut p) s = execMigrateOut p s from rfl]
    exact ⟨_, rfl⟩
  case migrateIn p =>
    obtain ⟨rfl, rfl, rfl, rfl⟩ := by simpa only [adminOf, Option.some.injEq, Prod.mk.injEq] using h
    rw [show exec (.migrateIn p) s = execMigrateIn p s from rfl]
    exact ⟨_, rfl⟩
  case telemetryCfg p =>
    obtain ⟨rfl, rfl, rfl, rfl⟩ := by simpa only [adminOf, Option.some.injEq, Prod.mk.injEq] using h
    rw [show exec (.telemetryCfg p) s = execTelemetryCfg p s from rfl]
    exact ⟨_, rfl⟩
  case traceCfg p =>
    obtain ⟨rfl, rfl, rfl, rfl⟩ := by simpa only [adminOf, Option.some.injEq, Prod.mk.injEq] using h
    rw [show exec (.traceCfg p) s = execTraceCfg p s from rfl]
    exact ⟨_, rfl⟩
  case traceStop p =>
    obtain ⟨rfl, rfl, rfl, rfl⟩ := by simpa only [adminOf, Option.some.injEq, Prod.mk.injEq] using h
    rw [show exec (.traceStop p) s = execTraceStop p s from rfl]
    exact ⟨_, rfl⟩
  case traceRun p =>
    obtain ⟨rfl, rfl, rfl, rfl⟩ := by simpa only [adminOf, Option.some.injEq, Prod.mk.injEq] using h
    rw [show exec (.traceRun p) s = execTraceRun p s from rfl]
    exact ⟨_, rfl⟩
  case keyInstall p =>
    obtain ⟨rfl, rfl, rfl, rfl⟩ := by simpa only [adminOf, Option.some.injEq, Prod.mk.injEq] using h
    rw [show exec (.keyInstall p) s = execKeyInstall p s from rfl]
    exact ⟨_, rfl⟩
  case attest p =>
    obtain ⟨rfl, rfl, rfl, rfl⟩ := by simpa only [adminOf, Option.some.injEq, Prod.mk.injEq] using h
    rw [show exec (.attest p) s = execAttest p s from rfl]
    exact ⟨_, rfl⟩
  case healthQuery p =>
    obtain ⟨rfl, rfl, rfl, rfl⟩ := by simpa only [adminOf, Option.some.injEq, Prod.mk.injEq] using h
    rw [show exec (.healthQuery p) s = execHealthQuery p s from rfl]
    exact ⟨_, rfl⟩
  all_goals cases h


theorem State.pokeAs_eq (s : State) (loc : Nat) (data : List Byte) (key : Option (List Byte)) :
    ∃ m w p h c, s.pokeAs loc data key = { s with mem := m, writes := w, poison := p, wrote := h, crypt := c, nextId := s.nextId + 1 } :=
  State.append_eq s loc data false _ none key

/-- A firmware write touches memory, its poison and keys, the writes on their way and names alone. -/
theorem State.pokeAt_eq (s : State) (loc : Nat) (data : List Byte) :
    ∃ m w p h c k, s.pokeAt loc data = { s with mem := m, writes := w, poison := p, wrote := h, crypt := c, nextId := k } := by
  unfold State.pokeAt
  split
  · obtain ⟨m, w, p, h, c, e⟩ := State.append_eq s loc data false [.system] none none
    exact ⟨m, w, p, h, c, _, e⟩
  · exact ⟨s.mem, s.writes, s.poison, s.wrote, s.crypt, s.nextId, rfl⟩

/-- A firmware write through a context's pages does no more. -/
theorem State.pokeVa_eq (s : State) (c : Context) (va : Nat) (data : List Byte) :
    ∃ m w p h x k, s.pokeVa c va data = { s with mem := m, writes := w, poison := p, wrote := h, crypt := x, nextId := k } := by
  unfold State.pokeVa
  generalize rangePoints va data.length = l
  induction l generalizing s with
  | nil => exact ⟨s.mem, s.writes, s.poison, s.wrote, s.crypt, s.nextId, rfl⟩
  | cons a l ih =>
    rw [List.foldl_cons]
    split
    · rename_i r _
      obtain ⟨m, w, p, o, x, h⟩ := State.pokeAs_eq s r.loc ((data.drop (a - va)).take (partEnd va data.length a - a)) (s.keyAt (some c.num) r.loc)
      rw [h]
      obtain ⟨m', w', p', o', x', k', h'⟩ := ih { s with mem := m, writes := w, poison := p, wrote := o, crypt := x, nextId := s.nextId + 1 }
      exact ⟨m', w', p', o', x', k', h'⟩
    · exact ih s

/-- A trace record touches memory, its buffer and the context's count of records alone. -/
theorem State.trace_eq (s : State) (l : Launch) (a b c d : Nat) :
    ∃ m w p o x k tr cs, s.trace l a b c d = { s with mem := m, writes := w, poison := p, wrote := o, crypt := x, nextId := k, traces := tr, contexts := cs } := by
  unfold State.trace
  split
  · exact ⟨s.mem, s.writes, s.poison, s.wrote, s.crypt, s.nextId, s.traces, s.contexts, rfl⟩
  · split
    · exact ⟨s.mem, s.writes, s.poison, s.wrote, s.crypt, s.nextId, s.traces, s.contexts, rfl⟩
    · dsimp only
      split
      · exact ⟨s.mem, s.writes, s.poison, s.wrote, s.crypt, s.nextId, _, s.contexts, rfl⟩
      · split
        · exact ⟨s.mem, s.writes, s.poison, s.wrote, s.crypt, s.nextId, _, s.contexts, rfl⟩
        · obtain ⟨m, w, p, o, x, k, h⟩ := State.pokeAt_eq { s with traces := _ } _ _
          split
          · rw [h]; exact ⟨m, w, p, o, x, _, _, _, rfl⟩
          · rw [h]; exact ⟨m, w, p, o, x, _, _, _, rfl⟩

theorem State.report_eq (s : State) (kick : Nat) (r : Nat → Report) :
    ∃ qs ms, s.report kick r = { s with reports := s.reports ++ [r (((s.queues.find? fun q => q.kick == kick).map (·.count)).getD 0)], queues := qs, msix := ms } := by
  unfold State.report
  cases h : s.queues.find? fun q => q.kick == kick with
  | none => exact ⟨s.queues, s.msix, rfl⟩
  | some q =>
    dsimp only
    split
    · exact ⟨_, s.msix, rfl⟩
    · exact ⟨_, _, rfl⟩

/-- The end of a launch: its state and status, its completion record, a trace record; a replay whose launches are all over leaves. -/
theorem State.finish_eq (s : State) (l : Launch) (st : LStatus) :
    ∃ m w p o c k tr cs qs ms ls, s.finish l st = { s with mem := m, writes := w, poison := p, wrote := o, crypt := c, nextId := k, traces := tr, contexts := cs, queues := qs, msix := ms, launches := ls, reports := s.reports ++ [.launch l.kick (((s.queues.find? fun q => q.kick == l.kick).map (·.count)).getD 0) l.seq st l.late l.startWall (s.wall 0) l.detWord] } ∧
      ∀ x ∈ ls, ∃ y ∈ s.launches, x = if y.num = l.num then { y with state := .complete, status := st, endWall := s.wall 0, kstart := [], kpoison := [], kcells := [], own := [], outside := [], kept := [] } else y := by
  unfold State.finish
  dsimp only
  set s1 := (s.modLaunch l.num fun l => { l with state := .complete, status := st, endWall := s.wall 0, kstart := [], kpoison := [], kcells := [], own := [], outside := [], kept := [] }).forgetWrites with hs1
  obtain ⟨m, w, p, o, c, k, tr, cs, h⟩ := State.trace_eq s1 l 0 (engineWord 0 8 0) (s.wall 0) l.seq
  rw [h]
  obtain ⟨qs, ms, h2⟩ := State.report_eq { s1 with mem := m, writes := w, poison := p, wrote := o, crypt := c, nextId := k, traces := tr, contexts := cs } l.kick
    fun seq => .launch l.kick seq l.seq st l.late l.startWall (s.wall 0) l.detWord
  rw [h2]
  unfold State.dropReplay
  split
  · refine ⟨m, w, p, o, c, k, tr, cs, qs, ms, _, rfl, ?_⟩
    intro x hx
    have := (List.mem_filter.mp hx).1
    obtain ⟨y, hy, rfl⟩ := List.mem_map.mp this
    exact ⟨y, hy, rfl⟩
  · refine ⟨m, w, p, o, c, k, tr, cs, qs, ms, _, rfl, ?_⟩
    intro x hx
    obtain ⟨y, hy, rfl⟩ := List.mem_map.mp hx
    exact ⟨y, hy, rfl⟩

end Sys2Proof.Machine
end

