-- ==== Sys2Proof/Laws/Prepare.lean ====
section
/-! SUPPORT. What preparing an instruction gives when all that it needs is at hand: nothing has changed, and every operand is the
value of its register. -/

namespace Sys2Proof.Machine
open Host

/-- What preparing gives when all that the instruction needs is at hand. -/
def plainPrep (i : Instr) (s : State) (e : Env) : Prep :=
  ⟨s, s, e, participants s e.g i, (readers s e i).map (e.captures i),
    (readers s e i).map fun t => (t, (extraSrcs i).map fun r => e.g.readReg r t)⟩

/-- But for MLDW every participating thread reads. -/
theorem readers_all {s : State} {e : Env} {i : Instr} (h : uniformOperands i = false) : readers s e i = participants s e.g i := by
  unfold readers; rw [h]; rfl

theorem readers_parts {s : State} {e : Env} {i : Instr} {t : Nat} (h : t ∈ readers s e i) : t ∈ participants s e.g i := by
  unfold readers at h
  split at h
  · exact List.mem_of_mem_take h
  · exact h

theorem Env.capture_word (e : Env) (t : Nat) (x : Src) : (e.capture t x).word = e.operand t x := by cases x <;> rfl

/-- A register holds a value that a read gives as it stands: `State.regReady` as a proposition. -/
def State.plainReg (s : State) (e : Env) (t : Nat) (r : Reg) : Prop :=
  s.loadPending e.g.gid t (e.g.regNum r) = false ∧ e.g.poisonOf r t = none ∧ (e.g.kReg r || !e.g.isRecipe r.toNat) = true

/-- A register that is ready is read as it stands. -/
theorem readOperand_value {s : State} {e : Env} {t : Nat} {r : Reg} (h : s.plainReg e t r) :
    readOperand s e t r = .cap (.val (e.g.readReg r t)) [] none := by
  obtain ⟨hl, hp, hr⟩ := h
  unfold readOperand
  rw [hl, hp]
  have : (!e.g.kReg r && e.g.isRecipe r.toNat) = false := by
    cases hk : e.g.kReg r <;> simp_all
  simp [this]

theorem readSrc_value {s : State} {e : Env} {t : Nat} {x : Src} (h : ∀ r ∈ x.regs, s.plainReg e t r) :
    readSrc s e t .none x = .cap (e.capture t x) [] none := by
  cases x with
  | none => rfl
  | const v => rfl
  | reg r =>
    have := h r (by simp [Src.regs])
    simp only [readSrc]
    exact readOperand_value this

theorem sourcesReady_reg {s : State} {e : Env} {i : Instr} {ts : List Nat} (h : s.sourcesReady e i ts = true) {t : Nat} (ht : t ∈ ts) {r : Reg} (hr : r ∈ readsOf i) :
    s.plainReg e t r := by
  unfold State.sourcesReady at h
  have := List.all_eq_true.mp (List.all_eq_true.mp h t ht) r hr
  simp only [State.regReady, Bool.and_eq_true, Bool.not_eq_true', Option.isNone_iff_eq_none, and_assoc] at this
  exact this

/-- No value that it reads is unpredictable. -/
theorem readsPending_ready {s : State} {e : Env} {i : Instr} {ts : List Nat} (h : s.sourcesReady e i ts = true) : s.readsPending e i ts = false := by
  unfold State.readsPending
  rw [List.any_eq_false]
  intro t ht
  simp only [List.any_eq_true, not_exists, not_and, Bool.not_eq_true]
  exact fun r hr => (sourcesReady_reg h ht hr).1

theorem takeOps_value {s : State} {e : Env} {i : Instr} {t : Nat} (hc : s.cur.cap = none) (h : ∀ r ∈ readsOf i, s.plainReg e t r) :
    takeOps s e (srcsOf i) t = ⟨e.captures i t, none, false, [], []⟩ := by
  have ha := readSrc_value (s := s) (e := e) (t := t) (x := (srcsOf i).a) fun r hr => h r (by simp [readsOf, hr])
  have hb := readSrc_value (s := s) (e := e) (t := t) (x := (srcsOf i).b) fun r hr => h r (by simp [readsOf, hr])
  have hcc := readSrc_value (s := s) (e := e) (t := t) (x := (srcsOf i).c) fun r hr => h r (by simp [readsOf, hr])
  have hd := readSrc_value (s := s) (e := e) (t := t) (x := (srcsOf i).d) fun r hr => h r (by simp [readsOf, hr])
  unfold takeOps
  simp only [hc, Option.bind_none, Option.getD_none]
  simp only [List.foldl_cons, List.foldl_nil, CapOp.none, CapOp.get, Srcs.get, ha, hb, hcc, hd, Taken.add, CapOp.set, Option.toList, List.append_nil]
  rfl

theorem foldl_collect {α β γ : Type} (f : α × List β → γ → α × List β) (k : α) (v : γ → β) (rs : List γ) (ws : List β)
    (h : ∀ ws, ∀ r ∈ rs, f (k, ws) r = (k, ws ++ [v r])) : rs.foldl f (k, ws) = (k, ws ++ rs.map v) := by
  induction rs generalizing ws with
  | nil => simp
  | cons r rs ih => simp [h ws r (by simp), ih _ fun ws q hq => h ws q (by simp [hq])]

theorem takeExtra_value {s : State} {e : Env} {k : Taken} (rs : List Reg) (h : ∀ r ∈ rs, s.plainReg e k.op.thr r) :
    takeExtra s e k rs = (k, rs.map fun r => e.g.readReg r k.op.thr) := by
  unfold takeExtra
  rw [foldl_collect _ k (fun r => e.g.readReg r k.op.thr) rs []]
  · simp
  · intro ws r hr
    simp only [readOperand_value (h r hr), Option.toList, List.append_nil, Cap.word]

theorem firstBad_value {s : State} {g : Gang} {e : Env} (hg : e.g = g) (i : Instr) (t : Nat) (extra : List Reg) (h : ∀ r ∈ extra, s.plainReg e t r) :
    firstBad g (e.captures i t) extra = none := by
  subst hg
  have hx : extra.findSome? (fun r => (e.g.poisonOf r (e.captures i t).thr).map fun p => (p.code, p.addr)) = none := by
    rw [List.findSome?_eq_none_iff]
    intro r hr
    have := (h r hr).2.1
    simp [Env.captures, this]
  unfold firstBad
  rw [hx]
  simp only [Env.captures, List.findSome?_cons, List.findSome?_nil]
  cases (srcsOf i).a <;> cases (srcsOf i).b <;> cases (srcsOf i).c <;> cases (srcsOf i).d <;> rfl

theorem find_map_thr {α : Type} (f : Nat → α) (key : α → Nat) (hk : ∀ t, key (f t) = t) (ts : List Nat) (t : Nat) (ht : t ∈ ts) :
    (ts.map f).find? (fun x => key x == t) = some (f t) := by
  induction ts with
  | nil => simp at ht
  | cons u us ih =>
    simp only [List.map_cons, List.find?_cons, hk]
    by_cases h : u = t
    · simp [h]
    · have : t ∈ us := by simpa [Ne.symm h] using ht
      have h' : (u == t) = false := by simp [h]
      simp [h', ih this]

theorem flatMap_nil {α β : Type} (l : List α) (f : α → List β) (h : ∀ x ∈ l, f x = []) : l.flatMap f = [] := by
  induction l with
  | nil => rfl
  | cons x l ih => simp [h x (by simp), ih fun y hy => h y (by simp [hy])]

/-- Rods that are ready need no materialisation. -/
theorem toMaterialise_ready {s : State} {e : Env} {rods : List Nat} (h : s.rodsReady e rods = true) : e.g.toMaterialise rods = [] := by
  have hno : ∀ d ∈ e.g.descs, (decide (d.rod ∈ rods) || d.inputs.any fun r => decide (r.toNat ∈ rods)) = false := by
    intro d hd
    unfold State.rodsReady at h
    by_cases hr : rods.isEmpty = true
    · have : rods = [] := by simpa using hr
      subst this; simp
    · simp only [hr, Bool.false_or, Bool.and_eq_true] at h
      have := List.all_eq_true.mp h.1.1 d hd
      simp only [Bool.and_eq_true, Bool.not_eq_true', List.contains_eq_mem, decide_eq_false_iff_not, List.all_eq_true] at this
      simp only [Bool.or_eq_false_iff, decide_eq_false_iff_not, List.any_eq_false, decide_eq_true_eq]
      exact ⟨this.1, fun r hr' => this.2 r hr'⟩
  unfold Gang.toMaterialise
  have : (e.g.descs.filter fun d => e.g.isRecipe d.rod && (decide (d.rod ∈ rods) || d.inputs.any fun r => decide (r.toNat ∈ rods))) = [] := by
    rw [List.filter_eq_nil_iff]
    intro d hd
    simp [hno d hd]
  rw [this]; rfl

theorem Gang.regenSet_nil (g : Gang) : g.regenSet [] = [] := rfl
theorem State.regenerate_nil (s : State) (e : Env) (ks : List Taken) : s.regenerate e ks [] = s := rfl

/-- Writing rods that are ready changes nothing before the write. -/
theorem beforeWrite_ready {s : State} {e : Env} {gid : Nat} {rods : List Nat} (he : s.env? gid = some e) (h : s.rodsReady e rods = true) :
    beforeWrite s e rods = .ok s := by
  have hgid := State.env?_gid he
  have hg := State.env?_gang he
  have hm := toMaterialise_ready h
  unfold beforeWrite
  unfold State.rodsReady at h
  by_cases hr : rods.isEmpty = true
  · simp [hr]
  · simp only [hr, Bool.false_eq_true, if_false] at h ⊢
    simp only [Bool.false_or, Bool.and_eq_true, decide_eq_true_eq] at h
    obtain ⟨⟨hd, hres⟩, hn⟩ := h
    have hres : e.g.reserved = 0 := by simpa using hres
    have hno : ∀ d ∈ e.g.descs, (decide (d.rod ∈ rods) || d.inputs.any fun r => decide (r.toNat ∈ rods)) = false := by
      intro d hd'
      have := List.all_eq_true.mp hd d hd'
      simp only [Bool.and_eq_true, Bool.not_eq_true', List.contains_eq_mem, decide_eq_false_iff_not, List.all_eq_true] at this
      simp only [Bool.or_eq_false_iff, decide_eq_false_iff_not, List.any_eq_false, decide_eq_true_eq]
      exact ⟨this.1, fun r hr' => this.2 r hr'⟩
    have ha : (e.g.descs.all fun d => !(decide (d.rod ∈ rods) || d.inputs.any fun r => decide (r.toNat ∈ rods))) = true := by
      rw [List.all_eq_true]; intro d hd'; simp [hno d hd']
    have hnd : ¬ s.freeRods e.b.die e.b.core + e.g.reserved < e.g.rodNeed rods := by
      unfold Gang.rodNeed
      rw [hm, hres]
      simpa using hn
    rw [hm, if_neg hnd]
    simp only [materialiseAll, hres, ha, if_true]

/-- PREPARING AN INSTRUCTION that has all that it needs changes nothing and gives its operands. -/
theorem prepareWith_atHand {i : Instr} {s : State} {e : Env} (h : AtHand i s e) (keep : Bool) : prepareWith keep i s = .ok (plainPrep i s e) := by
  obtain ⟨he, hc, -, hs, hsw, hsrc, hd⟩ := h
  have hgid := State.env?_gid he
  set who := readers s e i with hwho
  have hreg : ∀ t ∈ who, ∀ r ∈ readsOf i, s.plainReg e t r := fun t ht r hr => sourcesReady_reg hsrc ht hr
  have hex : ∀ t ∈ who, ∀ r ∈ extraSrcs i, s.plainReg e t r := fun t ht r hr => hreg t ht r (by simp [readsOf, hr])
  have htk : who.map (fun t => takeExtra s e (takeOps s e (srcsOf i) t) (extraSrcs i)) =
      who.map fun t => (⟨e.captures i t, none, false, [], []⟩, (extraSrcs i).map fun r => e.g.readReg r t) := by
    apply List.map_congr_left
    intro t ht
    rw [takeOps_value hc (hreg t ht), takeExtra_value (k := ⟨e.captures i t, none, false, [], []⟩) _ (hex t ht)]
    rfl
  have hops : ∀ t ∈ who, (who.map (e.captures i)).find? (fun o => o.thr == t) = some (e.captures i t) :=
    fun t ht => find_map_thr (e.captures i) CapOp.thr (fun _ => rfl) _ t ht
  have hall : who.filter (fun t => ([] : List Fail).all fun f => f.thr != t) = who := by simp
  have hbad : who.filterMap (fun t => (firstBad e.g (((who.map (e.captures i)).find? fun o => o.thr == t).getD (CapOp.none t))
      (extraSrcs i)).map fun p => (t, p)) = [] := by
    rw [List.filterMap_eq_nil_iff]
    intro t ht
    rw [hops t ht]
    simp [firstBad_value rfl i t _ (hex t ht)]
  have hfl : who.flatMap (fun _ => ([] : List Nat)) = [] := flatMap_nil _ _ fun _ _ => rfl
  have hfm : who.filterMap (fun _ => (none : Option Fail)) = [] := by simp
  have hbw : beforeWrite s e (if (participants s e.g i).isEmpty = true then [] else e.g.rodsOf (destsOf i)) = .ok s := beforeWrite_ready he hd
  have htm : e.g.toMaterialise (if (participants s e.g i).isEmpty = true then [] else e.g.rodsOf (destsOf i)) = [] := toMaterialise_ready hd
  have hrp := readsPending_ready hsrc
  unfold prepareWith
  simp only [he, hs, hsw, ← hwho, hrp, htm, Bool.false_eq_true, if_false, htk, List.map_map, List.filterMap_map, List.any_map, List.flatMap_map, Function.comp_def]
  have e1 : who.map (fun x => e.captures i x) = who.map (e.captures i) := rfl
  rw [hfm, hall, e1, hbad, hfl]
  have hany : ∀ f : Fail → Bool, ([] : List Fail).any f = false := fun _ => rfl
  have hno : who.any (fun _ => false) = false := by simp
  simp only [hany, hno, ite_self, Bool.false_eq_true, if_false]
  have hd0 : ([] ++ [] : List Nat) = [] := rfl
  cases keep <;>
    simp only [hd0, Gang.regenSet_nil, State.regenerate_nil, hbw, hgid, he] <;> rfl

theorem prepare_atHand {i : Instr} {s : State} {e : Env} (h : AtHand i s e) : prepare i s = .ok (plainPrep i s e) := prepareWith_atHand h false

/-- An instruction that has all that it needs takes the effect that it prepares for. -/
theorem withPrep_atHand {i : Instr} {s : State} {e : Env} (h : AtHand i s e) (k : Prep → State) : withPrep i s k = .next (k (plainPrep i s e)) := by
  unfold withPrep
  rw [prepare_atHand h]

/-! ### What the prepared instruction reads -/

theorem plainPrep_val {i : Instr} {s : State} {e : Env} {t : Nat} (ht : t ∈ readers s e i) (k : Slot) :
    (plainPrep i s e).val t k = e.operand t ((srcsOf i).get k) := by
  unfold Prep.val Prep.op plainPrep
  rw [find_map_thr (e.captures i) CapOp.thr (fun _ => rfl) _ t ht, ← Env.capture_word]
  cases k <;> rfl

theorem plainPrep_x {i : Instr} {s : State} {e : Env} {t : Nat} (ht : t ∈ readers s e i) :
    (plainPrep i s e).x t = (extraSrcs i).map fun r => e.g.readReg r t := by
  unfold Prep.x plainPrep alGet
  rw [find_map_thr (fun t => (t, (extraSrcs i).map fun r => e.g.readReg r t)) Prod.fst (fun _ => rfl) _ t ht]
  rfl

/-- A lane of a prepared instruction reads the values of its registers. -/
theorem plainPrep_lane {i : Instr} {s : State} {e : Env} {t : Nat} (ht : t ∈ readers s e i) : (plainPrep i s e).lane t = e.laneIn i t := by
  have h := fun k => plainPrep_val (i := i) (s := s) (e := e) ht k
  unfold Prep.lane Env.laneIn Prep.a Prep.b Prep.c Prep.d
  rw [h .a, h .b, h .c, h .d, plainPrep_x ht]
  rfl

end Sys2Proof.Machine
end

