-- ==== Sys2Proof/Laws/Complete.lean ====
section
/-! SUPPORT. What completing an instruction does: its bookkeeping touches no register, no byte and no other gang, and the issue group
goes on. -/

namespace Sys2Proof.Machine
open Host

theorem OnlyGang.refl (s : State) (gid : Nat) : OnlyGang s s gid := ⟨by cases s; rfl, rfl, fun _ _ => rfl⟩

theorem OnlyGang.trans {s t u : State} {gid : Nat} (h1 : OnlyGang s t gid) (h2 : OnlyGang t u gid) : OnlyGang s u gid := by
  obtain ⟨r1, o1, g1⟩ := h1
  obtain ⟨r2, o2, g2⟩ := h2
  refine ⟨?_, o2.trans o1, fun h hh => (g2 h hh).trans (g1 h hh)⟩
  rw [r2, r1]

theorem OnlyGang.modGang (s : State) (gid : Nat) (f : Gang → Gang) (hf : ∀ g, (f g).gid = g.gid) : OnlyGang s (s.modGang gid f) gid :=
  ⟨by cases s; rfl, rfl, fun _ hh => s.gang?_modGang_other f hf hh⟩

theorem OnlyGang.count (s : State) (gid die pos n : Nat) : OnlyGang s (s.count die pos n) gid := ⟨by cases s; rfl, rfl, fun _ _ => rfl⟩

theorem OnlyGang.clobber (s : State) (gid : Nat) (ts : List Nat) (rs : List Reg) : OnlyGang s (s.clobber gid ts rs) gid := by
  unfold State.clobber State.overwrite
  split
  · exact OnlyGang.refl s gid
  · split
    · exact OnlyGang.refl s gid
    · refine ⟨by cases s; rfl, ?_, fun _ _ => rfl⟩
      simp only [List.map_map]
      apply List.map_congr_left
      intro o _
      simp only [Function.comp_apply]
      split <;> rfl

theorem OnlyGang.rotate_gid (g : Gang) (held : List Nat) (pc : Nat) : (g.rotate held pc).gid = g.gid := rfl

@[simp] theorem Gang.touch_gid (g : Gang) (c : Nat) (rs : List Nat) : (g.touch c rs).gid = g.gid := rfl

/-- Nothing was regenerated: nothing is counted. -/
theorem State.countRegens_nil {s : State} (h : s.cur.regens = []) (gid : Nat) : s.countRegens gid = s := by
  unfold State.countRegens; rw [h]; rfl

theorem Gang.bead_valued (g : Gang) (r q n : Nat) : (g.valued r).bead q n = g.bead q n := by
  unfold Gang.valued
  split
  · rfl
  · rename_i h
    unfold Gang.bead
    rw [alGet_alSet]
    by_cases hq : q = r
    · subst hq
      rw [if_pos rfl, Option.not_isSome_iff_eq_none.mp h]
      exact getD_zeros 32 n
    · rw [if_neg hq]

/-- DEFINING A RECIPE adds one descriptor, of an RCP that is pending there, or none; a rod that was VOID holds zeros (R188). -/
theorem Gang.define_eq (g : Gang) (i : Instr) (pc : Nat) (parts : List Nat) : ∃ ds rods, g.define i pc parts = { g with descs := ds ++ g.descs, rods := rods } ∧
    (∀ r n, (g.define i pc parts).bead r n = g.bead r n) ∧
    ds.length ≤ 1 ∧ ∀ d ∈ ds, ∃ p ∈ g.pendRcp, p.pc = pc ∧ d.slice = p.slice ∧ d.inputs = p.inputs := by
  have none : ∃ ds rods, g = { g with descs := ds ++ g.descs, rods := rods } ∧ (∀ r n, g.bead r n = g.bead r n) ∧
      ds.length ≤ 1 ∧ ∀ d ∈ ds, ∃ p ∈ g.pendRcp, p.pc = pc ∧ d.slice = p.slice ∧ d.inputs = p.inputs :=
    ⟨[], g.rods, rfl, fun _ _ => rfl, by simp, by simp⟩
  unfold Gang.define
  split
  · rename_i p d idx hp _ _
    dsimp only
    split
    · exact none
    · split
      · exact none
      · rename_i x xs _
        split
        · exact none
        · refine ⟨[⟨idx, p.slice, parts, x.olth, d.toNat, p.inputs, x.fpc.toNat % 8⟩],
            (Gang.valued { g with descs := ⟨idx, p.slice, parts, x.olth, d.toNat, p.inputs, x.fpc.toNat % 8⟩ :: g.descs } d.toNat).rods,
            ?_, fun r n => ?_, by simp, ?_⟩
          · unfold Gang.valued; split <;> rfl
          · rw [Gang.bead_valued]; rfl
          · intro q hq
            rw [List.mem_singleton] at hq
            subst hq
            have h2 := List.find?_some hp
            simp only [Bool.and_eq_true, beq_iff_eq, and_assoc] at h2
            exact ⟨p, List.mem_of_find?_eq_some hp, h2.1, rfl, rfl⟩
  · exact none

theorem Gang.endRcp_eq (g : Gang) (mask : List Nat) : ∃ ps, g.endRcp mask = { g with pendRcp := ps } := by
  exact ⟨_, rfl⟩

theorem Gang.countSpec_eq (g : Gang) : ∃ sp n, g.countSpec = { g with spec := sp, specCount := n } ∧ sp.isSome = g.spec.isSome := by
  unfold Gang.countSpec
  split
  · rename_i sp h; exact ⟨_, _, rfl, by rw [h]; rfl⟩
  · exact ⟨_, _, rfl, rfl⟩

/-- A gang's threads but for the list addresses that RESUME gave them. -/
def Gang.SameThreads (g g' : Gang) : Prop := ∃ f : Thread → Option (Word × Nat), g'.threads = g.threads.map fun x => { x with relist := f x }

theorem Gang.SameThreads.of_eq {g g' : Gang} (h : g'.threads = g.threads) : g.SameThreads g' := ⟨(·.relist), by rw [h]; simp⟩

theorem Gang.SameThreads.trans {g h k : Gang} (a : g.SameThreads h) (b : h.SameThreads k) : g.SameThreads k := by
  obtain ⟨f1, h1⟩ := a
  obtain ⟨f2, h2⟩ := b
  exact ⟨fun x => f2 { x with relist := f1 x }, by rw [h2, h1, List.map_map]; rfl⟩

theorem Gang.endRelist_eq (g : Gang) (i : Instr) (mask : List Nat) :
    ∃ ts, g.endRelist i mask = { g with threads := ts } ∧ g.SameThreads (g.endRelist i mask) := by
  have hs : ∃ ts, (if g.trap.isSome = true ∨ (g.threads.all fun x => x.relist.isNone) = true then g
        else { g with threads := g.threads.map fun x => if x.thr ∈ mask then { x with relist := none } else x }) = { g with threads := ts } ∧
      g.SameThreads (if g.trap.isSome = true ∨ (g.threads.all fun x => x.relist.isNone) = true then g
        else { g with threads := g.threads.map fun x => if x.thr ∈ mask then { x with relist := none } else x }) := by
    split
    · exact ⟨_, rfl, .of_eq rfl⟩
    · refine ⟨_, rfl, fun x => if x.thr ∈ mask then none else x.relist, ?_⟩
      apply List.map_congr_left
      intro x _
      dsimp only
      split <;> rfl
  unfold Gang.endRelist
  split
  · exact ⟨_, rfl, .of_eq rfl⟩
  · exact ⟨_, rfl, .of_eq rfl⟩
  · exact hs

/-- What the bookkeeping of an instruction issued at `pc` keeps of its gang. -/
structure Gang.Kept (g g' : Gang) (pc : Nat) : Prop where
  gid : g'.gid = g.gid
  threads : g.SameThreads g'
  beads : ∀ n num, g'.beadAt n num = g.beadAt n num
  keeps : g.Keeps g' pc
  poison : g'.poison = g.poison
  active : g'.active = g.active
  reinj : g'.reinj = g.reinj

theorem Gang.Keeps.refl (g : Gang) (pc : Nat) : g.Keeps g pc := ⟨rfl, rfl, rfl, rfl, rfl, [], rfl, by simp, by simp⟩

theorem Gang.Kept.settle (g : Gang) (i : Instr) (cyc pc : Nat) (rods parts mask : List Nat) :
    g.Kept (((((g.touch cyc rods).define i pc parts).endRcp mask).endEarly mask).endRelist i mask).countSpec pc := by
  obtain ⟨ds, rs, h1, hb, hl, hd⟩ := Gang.define_eq (g.touch cyc rods) i pc parts
  rw [h1] at hb ⊢
  obtain ⟨ps, h2⟩ := Gang.endRcp_eq ({ g.touch cyc rods with descs := ds ++ (g.touch cyc rods).descs, rods := rs }) mask
  rw [h2]
  obtain ⟨ts, h4, f, hf⟩ := Gang.endRelist_eq (({ ({ g.touch cyc rods with descs := ds ++ (g.touch cyc rods).descs, rods := rs } : Gang) with pendRcp := ps } : Gang).endEarly mask) i mask
  obtain ⟨sp, n, h3, -⟩ := Gang.countSpec_eq ((({ ({ g.touch cyc rods with descs := ds ++ (g.touch cyc rods).descs, rods := rs } : Gang) with pendRcp := ps } : Gang).endEarly mask).endRelist i mask)
  rw [h3]
  rw [h4] at hf ⊢
  have hts : ts = g.threads.map fun x => { x with relist := f x } := hf
  refine ⟨rfl, ⟨f, hf⟩, fun n num => ?_, ⟨rfl, rfl, rfl, rfl, rfl, ds, rfl, hl, hd⟩, rfl, rfl, rfl⟩
  refine Eq.trans (b := ({ g with threads := ts, rods := rs } : Gang).beadAt n num) rfl ?_
  refine Gang.beadAt_congr (g := g) (g' := { g with threads := ts, rods := rs }) (fun r n => hb r n) (fun m => ?_) n num
  show (Gang.thread? { g with threads := ts } m).map _ = _
  rw [hts, Gang.thread?_map g (fun x => { x with relist := f x }) fun _ => rfl]
  cases g.thread? m <;> rfl

/-- A gang whose rotation of ready PCs may differ. -/
def Gang.Rotated (g g' : Gang) : Prop := ∃ ro, g' = { g with rotation := ro }

theorem Gang.Kept.after {g h k : Gang} {pc : Nat} (a : g.Rotated h) (b : h.Kept k pc) : g.Kept k pc := by
  obtain ⟨ro, rfl⟩ := a
  exact ⟨b.gid, b.threads, b.beads, ⟨b.keeps.tmr, b.keeps.trap, b.keeps.pend, b.keeps.stopped, b.keeps.lastTurn, b.keeps.descs⟩, b.poison, b.active, b.reinj⟩

theorem State.issued_only (s : State) : OnlyGang s s.issued s.cur.gid := by
  unfold State.issued
  dsimp only
  split
  · exact OnlyGang.refl _ _
  · exact (OnlyGang.count s s.cur.gid _ _ _).trans (OnlyGang.modGang _ _ _ fun g => by split <;> rfl)

theorem State.issued_cur (s : State) : s.issued.cur = s.cur := by unfold State.issued; dsimp only; split <;> rfl

theorem State.issued_gang {s : State} {g : Gang} (hg : s.gang? s.cur.gid = some g) : ∃ g', s.issued.gang? s.cur.gid = some g' ∧ g.Rotated g' := by
  unfold State.issued
  dsimp only
  by_cases hsec : s.cur.second = true
  · rw [if_pos hsec]; exact ⟨g, hg, g.rotation, rfl⟩
  rw [if_neg hsec, State.gang?_modGang_same _ _ _ fun g => by split <;> rfl]
  have : (s.count (s.placeOf s.cur.gid 0).die (7 * (s.placeOf s.cur.gid 0).core) 1).gang? s.cur.gid = some g := hg
  rw [this]
  refine ⟨_, rfl, ?_⟩
  split
  · exact ⟨g.rotation, rfl⟩
  · exact ⟨_, rfl⟩

theorem State.clobber_gang (s : State) (gid : Nat) (ts : List Nat) (rs : List Reg) (h : Nat) : (s.clobber gid ts rs).gang? h = s.gang? h := by
  unfold State.clobber State.overwrite
  split
  · rfl
  · split <;> rfl

theorem State.settleFor_only {s : State} (hc : s.cur.cap = none) (hr : s.cur.regens = []) (i : Instr) (parts mask : List Nat) : OnlyGang s (s.settleFor i parts mask) s.cur.gid := by
  unfold State.settleFor
  dsimp only
  rw [State.countRegens_nil (by rw [State.issued_cur, hr]), State.issued_cur]
  refine OnlyGang.trans (s.issued_only.trans ?_) (OnlyGang.modGang _ _ _ fun g => ?_)
  · refine OnlyGang.trans ?_ (OnlyGang.clobber _ _ _ _)
    split
    · exact OnlyGang.count _ _ _ _ _
    · exact OnlyGang.refl _ _
  · rw [hc]
    exact (Gang.Kept.settle g i _ _ _ _ _).gid

theorem State.settleFor_gang {s : State} (hc : s.cur.cap = none) (hr : s.cur.regens = []) {g : Gang} (hg : s.gang? s.cur.gid = some g) (i : Instr) (parts mask : List Nat) :
    ∃ g', (s.settleFor i parts mask).gang? s.cur.gid = some g' ∧ g.Kept g' s.cur.pc := by
  unfold State.settleFor
  dsimp only
  rw [State.countRegens_nil (by rw [State.issued_cur, hr]), State.issued_cur]
  obtain ⟨g1, h1, k1⟩ := State.issued_gang hg
  rw [State.gang?_modGang_same _ _ _ fun g => by rw [hc]; exact (Gang.Kept.settle g i _ _ _ _ _).gid, State.clobber_gang]
  have h2 : ∀ s0 : State, s0 = (if ((s.issued.gang? s.cur.gid).bind (·.spec)).isSome = true then
      s.issued.count (s.issued.placeOf s.cur.gid 0).die (7 * (s.issued.placeOf s.cur.gid 0).core + 2) 1 else s.issued) → s0.gang? s.cur.gid = some g1 := by
    intro s0 h0; rw [h0]; split <;> exact h1
  rw [h2 _ rfl]
  refine ⟨_, rfl, ?_⟩
  rw [hc]
  exact .after k1 (Gang.Kept.settle g1 i _ _ _ _ _)

/-- COMPLETING AN INSTRUCTION changes nothing but its gang and the event counts. -/
theorem State.complete_only {s : State} (hc : s.cur.cap = none) (hr : s.cur.regens = []) (i : Instr) (parts : List Nat) : OnlyGang s (s.complete i parts) s.cur.gid := by
  unfold State.complete State.settleIssue
  dsimp only
  rw [hc]
  exact (State.settleFor_only hc hr i parts _).trans (OnlyGang.modGang _ _ _ fun _ => rfl)

/-- COMPLETING AN INSTRUCTION keeps its gang's registers, and its group stands at the next instruction. -/
theorem State.complete_gang {s : State} (hc : s.cur.cap = none) (hr : s.cur.regens = []) {g : Gang} (hg : s.gang? s.cur.gid = some g) (i : Instr) (parts : List Nat) :
    ∃ g0, (s.complete i parts).gang? s.cur.gid = some (g0.advance s.cur.mask s.cur.next) ∧ g.Kept g0 s.cur.pc := by
  obtain ⟨g0, h0, k0⟩ := State.settleFor_gang hc hr hg i parts s.cur.mask
  unfold State.complete State.settleIssue
  dsimp only
  rw [hc]
  simp only [Option.isSome_none, Bool.false_eq_true, if_false]
  rw [State.gang?_modGang_same _ _ (fun g : Gang => g.advance s.cur.mask s.cur.next) fun _ => rfl, h0]
  exact ⟨g0, rfl, k0⟩

/-! ### Registers and threads of a gang whose instruction has completed -/

theorem Gang.SameThreads.thread? {g g' : Gang} (h : g.SameThreads g') :
    ∃ f : Thread → Option (Word × Nat), ∀ t, g'.thread? t = (g.thread? t).map fun x => { x with relist := f x } := by
  obtain ⟨f, hf⟩ := h
  refine ⟨f, fun t => ?_⟩
  have := Gang.thread?_map g (fun x => { x with relist := f x }) (fun _ => rfl) t
  rw [← this]
  unfold Gang.thread?
  rw [hf]

theorem Gang.Kept.thread? {g g' : Gang} {pc : Nat} (h : g.Kept g' pc) :
    ∃ f : Thread → Option (Word × Nat), ∀ t, g'.thread? t = (g.thread? t).map fun x => { x with relist := f x } := h.threads.thread?

theorem Gang.regNum_congr {g g' : Gang} (h : g'.trap = g.trap) (r : Reg) : g'.regNum r = g.regNum r := by
  unfold Gang.regNum Gang.kReg; rw [h]

theorem Gang.Kept.readReg {g g' : Gang} {pc : Nat} (h : g.Kept g' pc) (r : Reg) (t : Nat) : g'.readReg r t = g.readReg r t := by
  rw [Gang.readReg_beadAt, Gang.readReg_beadAt, Gang.regNum_congr h.keeps.trap, h.beads]

theorem Gang.advance_beadAt (g : Gang) (mask : List Nat) (next n num : Nat) : (g.advance mask next).beadAt n num = g.beadAt n num :=
  Gang.beadAt_threads (fun x => if x.thr ∈ mask then { x with pc := next, stall := .none } else x) (fun x => by split <;> rfl) (fun x => by split <;> rfl) n num

theorem Gang.advance_readReg (g : Gang) (mask : List Nat) (next : Nat) (r : Reg) (t : Nat) : (g.advance mask next).readReg r t = g.readReg r t :=
  Gang.readReg_threads (fun x => if x.thr ∈ mask then { x with pc := next, stall := .none } else x) (fun x => by split <;> rfl) (fun x => by split <;> rfl) r t

theorem Gang.advance_thread? (g : Gang) (mask : List Nat) (next t : Nat) :
    (g.advance mask next).thread? t = (g.thread? t).map fun x => if x.thr ∈ mask then { x with pc := next, stall := .none } else x :=
  Gang.thread?_map g _ (fun x => by split <;> rfl) t

theorem State.complete_reg {s : State} (hc : s.cur.cap = none) (hr : s.cur.regens = []) {g : Gang} (hg : s.gang? s.cur.gid = some g) (i : Instr) (parts : List Nat) (t : Nat) (r : Reg) :
    (s.complete i parts).reg s.cur.gid t r = g.readReg r t := by
  obtain ⟨g0, h0, k0⟩ := State.complete_gang hc hr hg i parts
  unfold State.reg
  rw [h0, Option.map_some, Option.getD_some, Gang.advance_readReg, k0.readReg]

/-- A thread once its instruction has completed: one of the issue group stands at the next instruction; a list address is used up (R286). -/
def Thread.went (x : Thread) (cur : IssueSlot) (l : Option (Word × Nat)) : Thread :=
  { (if x.thr ∈ cur.mask then { x with pc := cur.next, stall := .none } else x) with relist := l }

theorem Thread.went_view (x : Thread) (cur : IssueSlot) (l : Option (Word × Nat)) :
    (x.went cur l).view = if x.thr ∈ cur.mask then { x.view with pc := cur.next } else x.view := by
  unfold Thread.went Thread.view
  split <;> rfl

theorem State.complete_thread? {s : State} (hc : s.cur.cap = none) (hr : s.cur.regens = []) {g : Gang} (hg : s.gang? s.cur.gid = some g) (i : Instr) (parts : List Nat) :
    ∃ f : Thread → Option (Word × Nat), ∀ t, (s.complete i parts).thread? s.cur.gid t = (g.thread? t).map fun x => x.went s.cur (f x) := by
  obtain ⟨g0, h0, k0⟩ := State.complete_gang hc hr hg i parts
  obtain ⟨f, hf⟩ := k0.thread?
  refine ⟨f, fun t => ?_⟩
  unfold State.thread?
  rw [h0, Option.bind_some, Gang.advance_thread?, hf, Option.map_map]
  congr 1
  funext x
  unfold Thread.went
  simp only [Function.comp_apply]
  split <;> rfl

/-- The bytes of memory depend on memory, its poison and the writes on their way alone. -/
theorem SameBytes.of_eq {s t : State} (hm : t.mem = s.mem) (hw : t.writes = s.writes) (hp : t.poison = s.poison) (hk : t.crypt = s.crypt) : SameBytes s t := by
  intro a
  unfold State.byteAt State.keyLast State.byteFrom State.lastOf
  rw [hm, hw, hp, hk]

theorem OnlyGang.sameBytes {s t : State} {gid : Nat} (h : OnlyGang s t gid) : SameBytes s t := by
  have := h.rest
  exact .of_eq (by rw [this]) (by rw [this]) (by rw [this]) (by rw [this])

/-- A completed instruction whose effect on its gang keeps the gang's name. -/
theorem complete_after_modGang {s : State} {g : Gang} (hg : s.gang? s.cur.gid = some g) (hc : s.cur.cap = none) (hr : s.cur.regens = []) (i : Instr)
    (parts : List Nat) (f : Gang → Gang) (hf : ∀ g, (f g).gid = g.gid) :
    OnlyGang s ((s.modGang s.cur.gid f).complete i parts) s.cur.gid ∧
      (∃ g', ((s.modGang s.cur.gid f).complete i parts).gang? s.cur.gid = some g' ∧ (f g).Keeps g' s.cur.pc ∧ ∀ n num, g'.beadAt n num = (f g).beadAt n num) ∧
      ∃ l : Thread → Option (Word × Nat), ∀ n, ((s.modGang s.cur.gid f).complete i parts).thread? s.cur.gid n =
        ((f g).thread? n).map fun x => x.went s.cur (l x) := by
  have hg' : (s.modGang s.cur.gid f).gang? s.cur.gid = some (f g) := by rw [s.gang?_modGang_same _ f hf, hg]; rfl
  have hc' : (s.modGang s.cur.gid f).cur.cap = none := hc
  have hr' : (s.modGang s.cur.gid f).cur.regens = [] := hr
  obtain ⟨g0, h0, k0⟩ := State.complete_gang hc' hr' hg' i parts
  refine ⟨(OnlyGang.modGang s _ f hf).trans (State.complete_only hc' hr' i parts), ⟨_, h0, ?_, fun n num => ?_⟩, State.complete_thread? hc' hr' hg' i parts⟩
  · exact ⟨k0.keeps.tmr, k0.keeps.trap, k0.keeps.pend, k0.keeps.stopped, k0.keeps.lastTurn, k0.keeps.descs⟩
  · rw [Gang.advance_beadAt, k0.beads]

/-- Registers of a state whose gang's beads and mode are those of another. -/
theorem State.reg_of_beads {t : State} {gid : Nat} {g g' : Gang} (hg : t.gang? gid = some g') (ht : g'.trap = g.trap)
    (hb : ∀ n num, g'.beadAt n num = g.beadAt n num) (n : Nat) (r : Reg) : t.reg gid n r = g.readReg r n := by
  unfold State.reg
  rw [hg, Option.map_some, Option.getD_some, Gang.readReg_beadAt, Gang.readReg_beadAt, Gang.regNum_congr ht, hb]

end Sys2Proof.Machine
end

