-- ==== Sys2Proof/Laws/Lanes.lean ====
section
/-! SUPPORT. What an instruction that every lane computes from its own operands does to a gang. -/

namespace Sys2Proof.Machine
open Host

/-! ### Soundness is kept by writes -/

theorem all_map {α : Type} (l : List α) (f : α → α) (p : α → Bool) (h : ∀ x, p x = true → p (f x) = true) (ha : l.all p = true) :
    (l.map f).all p = true := by
  rw [List.all_map]
  rw [List.all_eq_true] at *
  exact fun x hx => h x (ha x hx)

theorem soundRods_alSet {m : List (Nat × Rod)} (h : soundRods m = true) (k : Nat) (v : Rod) (hv : soundRods [(k, v)] = true) : soundRods (alSet m k v) = true := by
  induction m with
  | nil => exact hv
  | cons e m ih =>
    unfold soundRods at *
    simp only [List.all_cons, List.all_nil, Bool.and_true, Bool.and_eq_true] at h hv ih
    unfold alSet
    split
    · simp only [List.all_cons, Bool.and_eq_true]; exact ⟨hv, h⟩
    · split
      · simp only [List.all_cons, Bool.and_eq_true]; exact ⟨hv, h.2⟩
      · simp only [List.all_cons, Bool.and_eq_true]; exact ⟨h.1, ih h.2⟩

/-- Soundness looks at threads' numbers and k registers, the rods, and what a squash restores. -/
theorem Gang.sound_iff (g : Gang) : g.sound = true ↔ g.threads.all Thread.sound = true ∧ soundRods g.rods = true ∧
    (g.spec.all fun sp => sp.threads.all Thread.sound && soundRods sp.rods) = true := by
  simp only [Gang.sound, Bool.and_eq_true, and_assoc]

theorem Gang.sound_modThread {g : Gang} (h : g.sound = true) (n : Nat) (f : Thread → Thread) (hf : ∀ x, x.sound = true → (f x).sound = true) :
    (g.modThread n f).sound = true := by
  rw [Gang.sound_iff] at *
  refine ⟨?_, h.2.1, h.2.2⟩
  exact all_map _ _ _ (fun x hx => by split; exact hf x hx; exact hx) h.1

theorem Gang.sound_setBead {g : Gang} (h : g.sound = true) (r n : Nat) (v : Word) : (g.setBead r n v).sound = true := by
  unfold Gang.setBead
  split
  · exact h
  · rw [Gang.sound_iff] at *
    refine ⟨h.1, ?_, h.2.2⟩
    refine soundRods_alSet h.2.1 r _ ?_
    unfold soundRods
    simp only [List.all_cons, List.all_nil, Bool.and_true, beq_iff_eq, setAt_length]
    cases hb : alGet g.rods r with
    | none => simp
    | some rod => cases rod with
      | value bs => exact Gang.sound_beads (Gang.sound_iff g |>.mpr h) hb
      | recipe => simp

theorem Gang.sound_writeReg {g : Gang} (h : g.sound = true) (r : Reg) (n : Nat) (v : Word) : (g.writeReg r n v).sound = true := by
  unfold Gang.writeReg
  split
  · have := Gang.sound_modThread h n (fun x => { x with k := setAt x.k (r.toNat - 248) v }) fun x hx => by
      simpa [Thread.sound, setAt_length] using hx
    rw [Gang.sound_iff] at this ⊢
    exact this
  · exact Gang.sound_setBead h _ _ _

theorem Gang.writeReg_thread? {g : Gang} (d : Reg) (n t : Nat) (v : Word) :
    ∃ f : Thread → Thread, (∀ x, (f x).thr = x.thr ∧ (f x).view = x.view ∧ (f x).stall = x.stall) ∧ (g.writeReg d n v).thread? t = (g.thread? t).map f := by
  unfold Gang.writeReg
  split
  · refine ⟨fun x => if t = n then { x with k := setAt x.k (d.toNat - 248) v } else x, fun x => by dsimp only; split <;> exact ⟨rfl, rfl, rfl⟩, ?_⟩
    refine (Gang.thread?_modThread g n t (fun x => { x with k := setAt x.k (d.toNat - 248) v }) fun _ => rfl).trans ?_
    split <;> simp
  · refine ⟨id, fun x => ⟨rfl, rfl, rfl⟩, ?_⟩
    unfold Gang.setBead
    split <;> simp [Gang.thread?]

theorem Gang.writeReg_gid (g : Gang) (d : Reg) (n : Nat) (v : Word) : (g.writeReg d n v).gid = g.gid := by
  unfold Gang.writeReg Gang.setBead
  split
  · rfl
  · split <;> rfl

theorem Gang.writeReg_isSome {g : Gang} (d : Reg) (n t : Nat) (v : Word) : ((g.writeReg d n v).thread? t).isSome = (g.thread? t).isSome := by
  obtain ⟨f, -, h⟩ := Gang.writeReg_thread? (g := g) d n t v
  rw [h]; cases g.thread? t <;> rfl

/-! ### A lane's registers -/

/-- Writing a list of different registers of a thread. -/
theorem writeRegs {g : Gang} (h : g.sound = true) {n : Nat} (hx : (g.thread? n).isSome = true) (ps : List (Reg × Word)) (hn : (ps.map (·.1)).Nodup) :
    (ps.foldl (fun g p => g.writeReg p.1 n p.2) g).sound = true ∧
      (∀ r t, (ps.foldl (fun g p => g.writeReg p.1 n p.2) g).readReg r t =
        if t = n then ((ps.find? fun p => p.1 == r).map (·.2)).getD (g.readReg r t) else g.readReg r t) ∧
      (ps.foldl (fun g p => g.writeReg p.1 n p.2) g).gid = g.gid ∧
      ∀ t, ∃ f : Thread → Thread, (∀ x, (f x).thr = x.thr ∧ (f x).view = x.view ∧ (f x).stall = x.stall) ∧
        (ps.foldl (fun g p => g.writeReg p.1 n p.2) g).thread? t = (g.thread? t).map f := by
  induction ps generalizing g with
  | nil => exact ⟨h, fun r t => by simp, rfl, fun t => ⟨id, fun _ => ⟨rfl, rfl, rfl⟩, by simp⟩⟩
  | cons p ps ih =>
    obtain ⟨d, v⟩ := p
    simp only [List.map_cons, List.nodup_cons] at hn
    simp only [List.foldl_cons]
    obtain ⟨x, hx'⟩ := Option.isSome_iff_exists.mp hx
    obtain ⟨i1, i2, i3, i4⟩ := ih (g := g.writeReg d n v) (Gang.sound_writeReg h d n v) (by rw [Gang.writeReg_isSome]; exact hx) hn.2
    refine ⟨i1, fun r t => ?_, i3.trans (Gang.writeReg_gid g d n v), fun t => ?_⟩
    · rw [i2, Gang.readReg_writeReg h hx' d r t v]
      by_cases ht : t = n
      · simp only [ht, true_and, if_true]
        by_cases hr : r = d
        · subst hr
          have : ps.find? (fun p => p.1 == r) = none := by
            rw [List.find?_eq_none]
            intro p hp hq
            have hq' : p.1 = r := by simpa using hq
            exact hn.1 (List.mem_map.mpr ⟨p, hp, hq'⟩)
          simp [this]
        · have : (d == r) = false := by simpa using fun q => hr q.symm
          simp [hr, this]
      · simp [ht]
    · obtain ⟨f1, p1, e1⟩ := Gang.writeReg_thread? (g := g) d n t v
      obtain ⟨f2, p2, e2⟩ := i4 t
      refine ⟨f2 ∘ f1, fun x => ⟨(p2 _).1.trans (p1 _).1, (p2 _).2.1.trans (p1 _).2.1, (p2 _).2.2.trans (p1 _).2.2⟩, ?_⟩
      rw [e2, e1, Option.map_map]

/-- A lane writes the registers that its instruction names as destinations, and no others. -/
theorem laneValue_dests {i : Instr} {x : LaneIn} {o : LaneOut} (h : laneValue i x = some o) : o.regs.map (·.1) = destsOf i := by
  cases i
  case pmov g dir => cases dir <;> (injection h with h; subst h; rfl)
  case cvtq => injection h with h; subst h; simp [destsOf, regRun, List.range_succ]
  all_goals first | exact (nomatch (show none = some o from h)) | (injection h with h; subst h; rfl)

theorem regRun_nodup (d : Reg) : (regRun d 8).Nodup := by
  unfold regRun
  rw [List.nodup_map_iff_inj_on List.nodup_range]
  intro a ha b hb hab
  have h1 : a < 8 := by simpa using ha
  have h2 : b < 8 := by simpa using hb
  have h3 := congrArg BitVec.toNat hab
  simp only [BitVec.toNat_add, BitVec.toNat_ofNat] at h3
  omega

/-- A lane's instruction names different registers. -/
theorem laneDests_nodup {i : Instr} {x : LaneIn} {o : LaneOut} (h : laneValue i x = some o) : (destsOf i).Nodup := by
  have h8 := fun d => regRun_nodup d
  cases i with
  | pack g d a => exact h8 d
  | unpack g d a => exact h8 d
  | cvtq g dst src rnd satf hh d a b => simp [destsOf, regRun, List.range_succ]
  | pmov g dir => cases dir <;> simp [destsOf]
  | _ => first | exact (nomatch (show none = some o from h)) | simp [destsOf]

theorem laneValue_nodup {i : Instr} {x : LaneIn} {o : LaneOut} (h : laneValue i x = some o) : (o.regs.map (·.1)).Nodup := by
  rw [laneValue_dests h]; exact laneDests_nodup h

/-! ### A lane instruction in a gang -/

theorem Thread.setPred_view (x : Thread) (p : Pred) (v : Bool) :
    (x.setPred p v).thr = x.thr ∧ (x.setPred p v).k = x.k ∧ (x.setPred p v).view = { x.view with preds := (x.setPred p v).preds } := by
  unfold Thread.setPred
  split <;> exact ⟨rfl, rfl, rfl⟩

theorem Thread.setPreds_view (x : Thread) (ps : List (Pred × Bool)) :
    (x.setPreds ps).thr = x.thr ∧ (x.setPreds ps).k = x.k ∧ (x.setPreds ps).view = { x.view with preds := (x.setPreds ps).preds } := by
  unfold Thread.setPreds
  induction ps generalizing x with
  | nil => exact ⟨rfl, rfl, rfl⟩
  | cons p ps ih =>
    obtain ⟨a, b, c⟩ := ih (x.setPred p.1 p.2)
    obtain ⟨a', b', c'⟩ := Thread.setPred_view x p.1 p.2
    simp only [List.foldl_cons]
    exact ⟨a.trans a', b.trans b', by rw [c, c']⟩

theorem LaneOut.after_thr (o : LaneOut) (x : Thread) : (o.after x).thr = x.thr := (Thread.setPreds_view x o.preds).1
theorem LaneOut.after_k (o : LaneOut) (x : Thread) : (o.after x).k = x.k := (Thread.setPreds_view x o.preds).2.1

/-- PUTTING A LANE'S ANSWER into a gang. -/
theorem putLane_spec {g : Gang} (h : g.sound = true) {n : Nat} (hx : (g.thread? n).isSome = true) (o : LaneOut) (hn : (o.regs.map (·.1)).Nodup) :
    (g.putLane n o).sound = true ∧ (g.putLane n o).gid = g.gid ∧
      (∀ r t, (g.putLane n o).readReg r t = if t = n then (o.to r).getD (g.readReg r t) else g.readReg r t) ∧
      ∀ t, ∃ f : Thread → Thread, (∀ x, (f x).thr = x.thr ∧ (f x).view = x.view ∧ (f x).stall = x.stall) ∧
        (g.putLane n o).thread? t = (g.thread? t).map fun x => if t = n then o.after (f x) else f x := by
  obtain ⟨w1, w2, w3, w4⟩ := writeRegs h hx o.regs hn
  have hthr : ∀ x : Thread, (o.after x).thr = x.thr := o.after_thr
  have hput : g.putLane n o = (o.regs.foldl (fun g p => g.writeReg p.1 n p.2) g).modThread n o.after := rfl
  rw [hput]
  refine ⟨?_, w3, fun r t => ?_, fun t => ?_⟩
  · exact Gang.sound_modThread w1 n _ fun x hx => by
      unfold Thread.sound at *; rw [o.after_thr, o.after_k]; exact hx
  · rw [Gang.readReg_modThread _ n _ hthr o.after_k]
    exact w2 r t
  · obtain ⟨f, p, e⟩ := w4 t
    refine ⟨f, p, ?_⟩
    rw [Gang.thread?_modThread _ n t _ hthr, e]
    by_cases ht : t = n <;> simp [ht, Option.map_map, Function.comp_def]

/-! ### Predicates (R76) -/

theorem packAt_one_testBit (l : List Nat) (i : Nat) : (packAt 1 l).testBit i = (l.getD i 0 % 2 == 1) := by
  induction l generalizing i with
  | nil => simp [packAt]
  | cons v vs ih =>
    cases i with
    | zero =>
      have : (v % 2 ^ 1 + 2 ^ 1 * packAt 1 vs) % 2 = v % 2 := by omega
      rw [packAt, Nat.testBit_zero, this]
      rfl
    | succ i =>
      have : (v % 2 ^ 1 + 2 ^ 1 * packAt 1 vs) / 2 = packAt 1 vs := by omega
      rw [packAt, Nat.testBit_succ, this, ih]
      simp

/-- A WRITE OF A PREDICATE changes that predicate alone, and none where it names p7 (R76). -/
theorem Thread.setPred_bit (x : Thread) (p : Pred) (v : Bool) (i : Nat) :
    (x.setPred p v).preds.getLsbD i = if i < 7 ∧ i = p.toNat then v else x.preds.getLsbD i := by
  have hp : p.toNat < 8 := p.isLt
  unfold Thread.setPred
  split
  · rename_i h; subst h
    have : ¬ (i < 7 ∧ i = (7 : Pred).toNat) := by rintro ⟨a, b⟩; simp at b; omega
    rw [if_neg this]
  · rename_i h
    have h7 : p.toNat ≠ 7 := fun q => h (BitVec.eq_of_toNat_eq q)
    simp only [BitVec.getLsbD_ofNat]
    by_cases hi : i < 7
    · rw [packAt_one_testBit]
      have : ((List.range 7).map fun k => if k = p.toNat then v.toNat else (x.preds.getLsbD k).toNat).getD i 0
          = if i = p.toNat then v.toNat else (x.preds.getLsbD i).toNat := by
        rw [List.getD_eq_getElem?_getD]
        simp [hi]
      rw [this]
      by_cases hq : i = p.toNat
      · subst hq; simp [hi]; cases v <;> rfl
      · simp only [hi, hq, and_false, if_false, decide_true, Bool.true_and]
        cases x.preds.getLsbD i <;> rfl
    · simp [hi, BitVec.getLsbD_of_ge x.preds i (by omega)]

/-- What a list of writes leaves in predicate i: the last write to it, if there is one. -/
def lastPred (ps : List (Pred × Bool)) (i : Nat) : Option Bool := (ps.reverse.find? fun p => decide (i < 7 ∧ i = p.1.toNat)).map (·.2)

theorem Thread.setPreds_bit (x : Thread) (ps : List (Pred × Bool)) (i : Nat) :
    (x.setPreds ps).preds.getLsbD i = (lastPred ps i).getD (x.preds.getLsbD i) := by
  unfold Thread.setPreds
  induction ps generalizing x with
  | nil => rfl
  | cons p ps ih =>
    rw [List.foldl_cons, ih, Thread.setPred_bit]
    unfold lastPred
    rw [List.reverse_cons, List.find?_append]
    cases h : ps.reverse.find? fun p => decide (i < 7 ∧ i = p.1.toNat) with
    | some q => simp
    | none =>
      by_cases hq : i < 7 ∧ i = p.1.toNat
      · rw [List.find?_cons_of_pos (by simpa using hq), if_pos hq]; rfl
      · rw [List.find?_cons_of_neg (by simpa using hq), if_neg hq]; rfl

theorem LaneOut.after_view (o : LaneOut) (x : Thread) :
    (o.after x).view = { x.view with preds := (x.setPreds o.preds).preds, fst := x.fst ||| o.fl.setWidth 64 } := by
  have h := (Thread.setPreds_view x o.preds).2.2
  have : (o.after x).view = { (x.setPreds o.preds).view with fst := x.fst ||| o.fl.setWidth 64 } := rfl
  rw [this, h]

/-- The answer depends on what the thread shows alone. -/
theorem LaneOut.after_congr (o : LaneOut) {x y : Thread} (h : x.view = y.view) : (o.after x).view = (o.after y).view := by
  have hp : x.preds = y.preds := congrArg View.preds h
  have hf : x.fst = y.fst := congrArg View.fst h
  have hs : (x.setPreds o.preds).preds = (y.setPreds o.preds).preds := by
    apply BitVec.eq_of_getLsbD_eq; intro i _; rw [Thread.setPreds_bit, Thread.setPreds_bit, hp]
  rw [o.after_view, o.after_view, h, hs, hf]

/-- Giving a thread the same answer twice is giving it once. -/
theorem LaneOut.after_twice (o : LaneOut) (x : Thread) : (o.after (o.after x)).view = (o.after x).view := by
  have hs : ((o.after x).setPreds o.preds).preds = (x.setPreds o.preds).preds := by
    have h0 : (o.after x).preds = (x.setPreds o.preds).preds := rfl
    apply BitVec.eq_of_getLsbD_eq; intro i _
    rw [Thread.setPreds_bit, h0, Thread.setPreds_bit]
    cases lastPred o.preds i <;> rfl
  have hf : (o.after x).fst ||| o.fl.setWidth 64 = x.fst ||| o.fl.setWidth 64 := by
    have : (o.after x).fst = x.fst ||| o.fl.setWidth 64 := rfl
    rw [this, BitVec.or_assoc, BitVec.or_self]
  rw [o.after_view (o.after x), hs, hf, o.after_view x]

/-- EVERY LANE'S ANSWER put into a gang. -/
theorem putLanes_spec {g : Gang} (h : g.sound = true) (out : Nat → Option LaneOut) (hn : ∀ t o, out t = some o → (o.regs.map (·.1)).Nodup)
    (ts : List Nat) (hts : ∀ t ∈ ts, (g.thread? t).isSome = true) :
    (ts.foldl (fun g t => match out t with | some o => g.putLane t o | none => g) g).sound = true ∧
      (ts.foldl (fun g t => match out t with | some o => g.putLane t o | none => g) g).gid = g.gid ∧
      (∀ r t, (ts.foldl (fun g t => match out t with | some o => g.putLane t o | none => g) g).readReg r t =
        if t ∈ ts then ((out t).bind (·.to r)).getD (g.readReg r t) else g.readReg r t) ∧
      ∀ t, ∃ f : Thread → Thread, (∀ x, (f x).thr = x.thr ∧ (f x).stall = x.stall ∧ (f x).view = if t ∈ ts then answered (out t) x else x.view) ∧
        (ts.foldl (fun g t => match out t with | some o => g.putLane t o | none => g) g).thread? t = (g.thread? t).map f := by
  induction ts generalizing g with
  | nil => exact ⟨h, rfl, fun r t => by simp, fun t => ⟨id, fun x => ⟨rfl, rfl, by simp⟩, by simp⟩⟩
  | cons n ts ih =>
    simp only [List.foldl_cons]
    cases ho : out n with
    | none =>
      obtain ⟨a, b, c, d⟩ := ih h fun t ht => hts t (by simp [ht])
      refine ⟨a, b, fun r t => ?_, fun t => ?_⟩
      · rw [c]
        by_cases h1 : t ∈ ts
        · simp [h1]
        · by_cases h2 : t = n
          · subst h2; simp [h1, ho]
          · simp [h1, h2]
      · obtain ⟨f, p, e⟩ := d t
        refine ⟨f, fun x => ⟨(p x).1, (p x).2.1, ?_⟩, e⟩
        rw [(p x).2.2]
        by_cases h1 : t ∈ ts
        · simp [h1]
        · by_cases h2 : t = n
          · subst h2; simp [h1, ho, answered]
          · simp [h1, h2]
    | some o =>
      obtain ⟨q1, q2, q3, q4⟩ := putLane_spec h (hts n (by simp)) o (hn n o ho)
      have hts' : ∀ t ∈ ts, ((g.putLane n o).thread? t).isSome = true := by
        intro t ht
        obtain ⟨f, -, e⟩ := q4 t
        have := hts t (by simp [ht])
        rw [e]
        cases hc : g.thread? t with
        | none => simp [hc] at this
        | some x => rfl
      obtain ⟨a, b, c, d⟩ := ih q1 hts'
      refine ⟨a, b.trans q2, fun r t => ?_, fun t => ?_⟩
      · rw [c, q3]
        by_cases h2 : t = n
        · subst h2
          by_cases h1 : t ∈ ts
          · simp only [h1, if_true, ho, Option.bind_some, List.mem_cons, true_or]; cases o.to r <;> rfl
          · simp [h1, ho]
        · simp [h2]
      · obtain ⟨f1, p1, e1⟩ := q4 t
        obtain ⟨f2, p2, e2⟩ := d t
        refine ⟨fun x => f2 (if t = n then o.after (f1 x) else f1 x), fun x => ?_, ?_⟩
        · by_cases h2 : t = n
          · subst h2
            simp only [if_true, List.mem_cons, true_or, ho, answered]
            refine ⟨(p2 _).1.trans ((o.after_thr _).trans (p1 x).1), ?_, ?_⟩
            · rw [(p2 _).2.1]
              have : (o.after (f1 x)).stall = (f1 x).stall := by
                unfold LaneOut.after Thread.setPreds
                have : ∀ (ps : List (Pred × Bool)) (y : Thread), (ps.foldl (fun t p => t.setPred p.1 p.2) y).stall = y.stall := by
                  intro ps
                  induction ps with
                  | nil => intro y; rfl
                  | cons p ps ih => intro y; rw [List.foldl_cons, ih]; unfold Thread.setPred; split <;> rfl
                exact this o.preds (f1 x)
              rw [this, (p1 x).2.2]
            · rw [(p2 _).2.2]
              have hv := o.after_congr (p1 x).2.1
              split
              · rw [ho]; exact (o.after_twice (f1 x)).trans hv
              · exact hv
          · simp only [h2, if_false, List.mem_cons, false_or]
            refine ⟨(p2 _).1.trans (p1 x).1, (p2 _).2.1.trans (p1 x).2.2, ?_⟩
            rw [(p2 _).2.2]
            have hv := (p1 x).2.1
            split
            · unfold answered
              cases ho' : out t with
              | none => exact hv
              | some o' => exact o'.after_congr hv
            · exact hv
        · rw [e2, e1, Option.map_map]; rfl

/-! ### The instruction -/

/-- What exec does with an instruction of a lane. -/
theorem exec_lane {i : Instr} (h : isLane i = true) (s : State) : exec i s = laneExec i s := by
  cases i <;> first | exact Bool.noConfusion h | rfl

/-- A thread that takes part exists. -/
theorem participants_isSome {s : State} {e : Env} {i : Instr} (hc : s.cur.cap = none) {t : Nat} (ht : t ∈ participants s e.g i) :
   (e.g.thread? t).isSome = true := by
  unfold participants at ht
  rw [List.mem_filter, hc] at ht
  cases h : e.g.thread? t with
  | none => simp [h] at ht
  | some x => rfl

/-- Answers for the threads that take part, put into their gang. -/
def putAnswers (out : Nat → Option LaneOut) (ts : List Nat) (g : Gang) : Gang :=
  ts.foldl (fun g t => match out t with | some o => g.putLane t o | none => g) g

theorem writeRegs_gid (ps : List (Reg × Word)) (n : Nat) (g : Gang) : (ps.foldl (fun g p => g.writeReg p.1 n p.2) g).gid = g.gid := by
  induction ps generalizing g with
  | nil => rfl
  | cons p ps ih => rw [List.foldl_cons, ih, Gang.writeReg_gid]

theorem putAnswers_gid (out : Nat → Option LaneOut) (ts : List Nat) (g : Gang) : (putAnswers out ts g).gid = g.gid := by
  unfold putAnswers
  induction ts generalizing g with
  | nil => rfl
  | cons t ts ih =>
    rw [List.foldl_cons, ih]
    split
    · exact writeRegs_gid _ t g
    · rfl

theorem LaneOut.putLane_apart (o : LaneOut) (g : Gang) (n : Nat) : g.Apart (g.putLane n o) :=
  (Gang.Apart.foldl (fun g (p : Reg × Word) => g.writeReg p.1 n p.2) (fun g p => .writeReg g p.1 n p.2) o.regs g).trans
    (.modThread _ n o.after o.after_thr o.after_k)

theorem putAnswers_apart (out : Nat → Option LaneOut) (ts : List Nat) (g : Gang) : g.Apart (putAnswers out ts g) :=
  .foldl _ (fun g t => by split; exact LaneOut.putLane_apart _ g t; exact .refl g) ts g

/-- A completed instruction keeps its gang. -/
theorem keeps_apart {g g' g'' : Gang} {pc : Nat} (a : g.Apart g') (k : g'.Keeps g'' pc) : g.Keeps g'' pc := by
  obtain ⟨ds, h1, h2, h3⟩ := k.descs
  exact ⟨k.tmr.trans a.tmr, k.trap.trans a.trap, k.pend.trans a.pend, k.stopped.trans a.stopped, k.lastTurn.trans a.lastTurn, ds,
    by rw [h1, a.descs], h2, by rw [← a.pendRcp]; exact h3⟩

/-- AN INSTRUCTION THAT ANSWERS its threads, and completes. -/
theorem answers_complete {i : Instr} {s : State} {e : Env} (ha : AtHand i s e) (hs : e.g.sound = true) (out : Nat → Option LaneOut)
    (hN : ∀ t o, out t = some o → (o.regs.map (·.1)).Nodup) (hD : ∀ t o, out t = some o → ∀ r ∈ o.regs.map (·.1), r ∈ destsOf i) :
    let t := (s.modGang s.cur.gid (putAnswers out (participants s e.g i))).complete i (participants s e.g i)
    OnlyGang s t s.cur.gid ∧ Answered i s t e out := by
  obtain ⟨he, hc, hr, -, -, -, -⟩ := id ha
  have hp : ∀ t ∈ participants s e.g i, (e.g.thread? t).isSome = true := fun t ht => participants_isSome hc ht
  obtain ⟨-, -, q3', q4'⟩ := putLanes_spec hs out hN (participants s e.g i) hp
  have q3 : ∀ (r : Reg) (t : Nat), (putAnswers out (participants s e.g i) e.g).readReg r t =
      if t ∈ participants s e.g i then ((out t).bind (·.to r)).getD (e.g.readReg r t) else e.g.readReg r t := q3'
  have q4 : ∀ t, ∃ f : Thread → Thread, (∀ x, (f x).thr = x.thr ∧ (f x).stall = x.stall ∧
      (f x).view = if t ∈ participants s e.g i then answered (out t) x else x.view) ∧
        (putAnswers out (participants s e.g i) e.g).thread? t = (e.g.thread? t).map f := q4'
  obtain ⟨c1, ⟨g', hg', ck, cb⟩, l, c3⟩ := complete_after_modGang (State.env?_gang he) hc hr i (participants s e.g i) (putAnswers out (participants s e.g i)) (putAnswers_gid _ _)
  have hg := State.env?_gang he
  have hap := putAnswers_apart out (participants s e.g i) e.g
  refine ⟨c1, c1.sameBytes, fun g hgg => ?_, ⟨?_, fun g n num hgg hn => ?_⟩, ?_⟩
  · rw [hg] at hgg; cases hgg
    exact ⟨g', hg', keeps_apart hap ck⟩
  · intro n r
    have : s.reg s.cur.gid n r = e.g.readReg r n := by unfold State.reg; rw [hg]; rfl
    rw [State.reg_of_beads hg' ck.trap cb, q3, this]
    by_cases hn : n ∈ participants s e.g i
    · simp only [hn, if_true, true_and]
      split
      · rfl
      · rename_i hr
        cases ho : out n with
        | none => rfl
        | some o =>
          have : o.to r = none := by
            unfold LaneOut.to
            rw [Option.map_eq_none_iff, List.find?_eq_none]
            intro p hp hq
            exact hr (hD n o ho r (List.mem_map.mpr ⟨p, hp, by simpa using hq⟩))
          simp [this]
    · simp [hn]
  · rw [hg] at hgg; cases hgg
    rw [State.beadOf_gang hg', State.beadOf_gang hg, cb, hap.hidden n num hn]
  · intro n x hx
    have hx' : e.g.thread? n = some x := by unfold State.thread? at hx; rw [hg] at hx; exact hx
    have hn := Gang.thread?_thr hx'
    obtain ⟨f, p, e4⟩ := q4 n
    rw [c3, e4, hx']
    refine ⟨_, rfl, ?_⟩
    rw [Thread.went_view, (p x).1, (p x).2.2, ← hn]

/-- Putting one register and one predicate is an answer. -/
theorem putLane_reg (g : Gang) (t : Nat) (d : Reg) (v : Word) : g.putLane t { regs := [(d, v)] } = g.writeReg d t v := by
  have : ∀ g : Gang, (g.modThread t fun x => { x.setPreds [] with fst := x.fst ||| (0 : FlagSet).setWidth 64 }) = g := by
    intro g
    unfold Gang.modThread
    have : g.threads.map (fun x => if x.thr = t then { x.setPreds [] with fst := x.fst ||| (0 : FlagSet).setWidth 64 } else x) = g.threads := by
      rw [List.map_congr_left (g := id), List.map_id]
      intro x _
      split
      · simp [Thread.setPreds]
      · rfl
    rw [this]
  exact this (g.writeReg d t v)

end Sys2Proof.Machine
end

