-- ==== Sys2Proof/Laws/Went.lean ====
section
/-! SUPPORT. Instructions whose effect is on their own gang: what the effect does to registers and threads, and what stands once the
instruction has completed. -/

namespace Sys2Proof.Machine
open Host

/-! ### What an effect does to its gang -/

/-- An effect on a gang: the registers that it writes, and what it makes of each thread. -/
structure Gang.Effect (g g' : Gang) (regs : Nat → Reg → Option Word) (view : Thread → View) : Prop where
  apart : g.Apart g'
  regs : ∀ n r, g'.readReg r n = (regs n r).getD (g.readReg r n)
  threads : ∀ n, ∃ f : Thread → Thread, (∀ x, x.thr = n → (f x).thr = x.thr ∧ (f x).view = view x) ∧ g'.thread? n = (g.thread? n).map f

theorem Gang.Effect.refl (g : Gang) : g.Effect g (fun _ _ => none) Thread.view :=
  ⟨.refl g, fun _ _ => rfl, fun _ => ⟨id, fun _ _ => ⟨rfl, rfl⟩, by simp⟩⟩

/-- A change of threads that leaves their names and k registers alone. -/
theorem Gang.Effect.mapThreads (g : Gang) (f : Thread → Thread) (hf : ∀ x, (f x).thr = x.thr ∧ (f x).k = x.k) (view : Thread → View)
    (hv : ∀ x, (f x).view = view x) : g.Effect { g with threads := g.threads.map f } (fun _ _ => none) view :=
  ⟨.threads g f (fun x => (hf x).1) fun x => (hf x).2, fun n r => Gang.readReg_threads f (fun x => (hf x).1) (fun x => (hf x).2) r n,
    fun n => ⟨f, fun x _ => ⟨(hf x).1, hv x⟩, Gang.thread?_map g f (fun x => (hf x).1) n⟩⟩

/-- The threads of a list, each changed by a function of its own. -/
theorem foldl_modThread (ts : List Nat) (f : Nat → Thread → Thread) (hf : ∀ t x, (f t x).thr = x.thr ∧ (f t x).k = x.k)
    (hi : ∀ t x, f t (f t x) = f t x) (g : Gang) :
    ∃ h : Thread → Thread, (∀ x, (h x).thr = x.thr ∧ (h x).k = x.k ∧ h x = if x.thr ∈ ts then f x.thr x else x) ∧
      ts.foldl (fun g t => g.modThread t (f t)) g = { g with threads := g.threads.map h } := by
  induction ts generalizing g with
  | nil => exact ⟨id, fun x => ⟨rfl, rfl, by simp⟩, by simp⟩
  | cons t ts ih =>
    obtain ⟨h, p, e⟩ := ih (g.modThread t (f t))
    refine ⟨fun x => h (if x.thr = t then f t x else x), fun x => ?_, ?_⟩
    · dsimp only
      by_cases hx : x.thr = t
      · rw [if_pos hx]
        refine ⟨(p _).1.trans (hf t x).1, (p _).2.1.trans (hf t x).2, ?_⟩
        rw [(p _).2.2, (hf t x).1, hx]
        simp only [List.mem_cons, true_or, if_true]
        split
        · exact hi t x
        · rfl
      · rw [if_neg hx]
        refine ⟨(p x).1, (p x).2.1, ?_⟩
        rw [(p x).2.2]
        simp [hx]
    · rw [List.foldl_cons, e]
      unfold Gang.modThread
      simp [List.map_map, Function.comp_def]

/-- An effect that gives each participating thread an answer. -/
theorem Gang.Effect.answers {g : Gang} (h : g.sound = true) (out : Nat → Option LaneOut) (hn : ∀ t o, out t = some o → (o.regs.map (·.1)).Nodup)
    (ts : List Nat) (hts : ∀ t ∈ ts, (g.thread? t).isSome = true) :
    g.Effect (putAnswers out ts g) (fun n r => if n ∈ ts then (out n).bind fun o => o.to r else none)
      fun x => if x.thr ∈ ts then answered (out x.thr) x else x.view := by
  obtain ⟨-, -, b, c⟩ := putLanes_spec h out hn ts hts
  refine ⟨putAnswers_apart out ts g, fun n r => ?_, fun n => ?_⟩
  · have := b r n
    show Gang.readReg _ r n = _
    unfold putAnswers
    rw [this]
    split <;> rfl
  · obtain ⟨f, p, e⟩ := c n
    refine ⟨f, fun x hx => ⟨(p x).1, ?_⟩, e⟩
    rw [(p x).2.2, hx]

/-- An effect that writes, for each thread of a list, different registers of it, and changes the thread. -/
theorem Gang.Effect.steps {g : Gang} (h : g.sound = true) (rs : Nat → List (Reg × Word)) (hn : ∀ t, ((rs t).map (·.1)).Nodup)
    (f : Nat → Thread → Thread) (hf : ∀ t x, (f t x).thr = x.thr ∧ (f t x).k = x.k) (u : Nat → View → View)
    (hu : ∀ t x, (f t x).view = u t x.view) (hi : ∀ t x, u t (u t (Thread.view x)) = u t (Thread.view x)) (ts : List Nat)
    (hts : ∀ t ∈ ts, (g.thread? t).isSome = true) :
    (ts.foldl (fun g t => ((rs t).foldl (fun g p => g.writeReg p.1 t p.2) g).modThread t (f t)) g).sound = true ∧
    g.Effect (ts.foldl (fun g t => ((rs t).foldl (fun g p => g.writeReg p.1 t p.2) g).modThread t (f t)) g)
      (fun n r => if n ∈ ts then ((rs n).find? fun p => p.1 == r).map (·.2) else none)
      fun x => if x.thr ∈ ts then u x.thr x.view else x.view := by
  induction ts generalizing g with
  | nil => exact ⟨h, .refl g, fun n r => by simp, fun n => ⟨id, fun x hx => ⟨rfl, by simp⟩, by simp⟩⟩
  | cons t ts ih =>
    obtain ⟨w1, w2, w3, w4⟩ := writeRegs h (hts t (by simp)) (rs t) (hn t)
    have hs1 := Gang.sound_modThread w1 t (f t) fun x hx => by unfold Thread.sound at *; rw [(hf t x).1, (hf t x).2]; exact hx
    have hts' : ∀ n ∈ ts, ((((rs t).foldl (fun g p => g.writeReg p.1 t p.2) g).modThread t (f t)).thread? n).isSome = true := by
      intro n hn'
      obtain ⟨q, -, e⟩ := w4 n
      have := hts n (by simp [hn'])
      rw [Gang.thread?_modThread _ t n _ fun x => (hf t x).1, e]
      cases hc : g.thread? n with
      | none => simp [hc] at this
      | some x => by_cases hh : n = t <;> simp [hh]
    obtain ⟨a, b, c, d⟩ := ih hs1 hts'
    simp only [List.foldl_cons]
    refine ⟨a, Gang.Apart.trans ((Gang.Apart.foldl (fun g (p : Reg × Word) => g.writeReg p.1 t p.2) (fun g p => .writeReg g p.1 t p.2) (rs t) g).trans
      (.modThread _ t (f t) (fun x => (hf t x).1) fun x => (hf t x).2)) b, fun n r => ?_, fun n => ?_⟩
    · rw [c, Gang.readReg_modThread _ t _ (fun x => (hf t x).1) (fun x => (hf t x).2), w2]
      by_cases h2 : n = t
      · subst h2
        by_cases h1 : n ∈ ts
        · simp only [h1, if_true, List.mem_cons, true_or]; cases (rs n).find? fun p => p.1 == r <;> rfl
        · simp [h1]
      · simp [h2]
    · obtain ⟨q1, p1, e1⟩ := w4 n
      obtain ⟨q2, p2, e2⟩ := d n
      refine ⟨fun x => q2 (if n = t then f t (q1 x) else q1 x), fun x hx => ?_, ?_⟩
      · by_cases h2 : n = t
        · subst h2
          simp only [if_true, List.mem_cons, hx, true_or]
          have ht : (f n (q1 x)).thr = n := ((hf n _).1.trans (p1 x).1).trans hx
          obtain ⟨z1, z2⟩ := p2 (f n (q1 x)) ht
          refine ⟨z1.trans (ht), ?_⟩
          rw [z2, ht, hu, (p1 x).2.1]
          split
          · exact hi n x
          · rfl
        · have ht : (q1 x).thr = n := (p1 x).1.trans hx
          obtain ⟨z1, z2⟩ := p2 (q1 x) ht
          simp only [h2, if_false, List.mem_cons, hx, false_or]
          refine ⟨z1.trans ht, ?_⟩
          rw [z2, ht, (p1 x).2.1]
      · rw [e2, Gang.thread?_modThread _ t n _ fun x => (hf t x).1, e1]
        by_cases h2 : n = t <;> simp [h2, Option.map_map, Function.comp_def]

theorem Gang.Effect.trans {a b c : Gang} {r1 r2 : Nat → Reg → Option Word} {v : Thread → View} {h : Thread → Thread}
    (e1 : a.Effect b r1 v) (hh : ∀ x, (h x).thr = x.thr ∧ (h x).k = x.k) {u : View → Nat → View} (hu : ∀ x, (h x).view = u x.view x.thr)
    (e2 : c = { b with threads := b.threads.map h }) (e3 : r1 = r2) : a.Effect c r2 fun x => u (v x) x.thr := by
  subst e3
  obtain ⟨g2, q2, t2⟩ := Gang.Effect.mapThreads b h hh (fun x => u x.view x.thr) hu
  subst e2
  refine ⟨e1.apart.trans g2, fun n r => (q2 n r).trans (e1.regs n r), fun n => ?_⟩
  obtain ⟨f1, p1, z1⟩ := e1.threads n
  obtain ⟨f2, p2, z2⟩ := t2 n
  refine ⟨f2 ∘ f1, fun x hx => ?_, ?_⟩
  · have h1 := p1 x hx
    have h2 := p2 (f1 x) (h1.1.trans hx)
    exact ⟨h2.1.trans h1.1, by rw [Function.comp_apply, h2.2, h1.2, h1.1]⟩
  · rw [z2, z1, Option.map_map]

/-! ### An instruction that does no more -/

/-- An instruction whose effect is on its gang, and that completes. -/
theorem effect_completes {i : Instr} {s : State} {g : Gang} (hg : s.gang? s.cur.gid = some g) (hc : s.cur.cap = none) (hr : s.cur.regens = []) (parts : List Nat)
    {f : Gang → Gang} (hf : ∀ g, (f g).gid = g.gid) {regs : Nat → Reg → Option Word} {view : Thread → View}
    (h : g.Effect (f g) regs view) : Went s ((s.modGang s.cur.gid f).complete i parts) regs view := by
  obtain ⟨c1, ⟨g', hg', ck, cb⟩, l, c3⟩ := complete_after_modGang hg hc hr i parts f hf
  refine ⟨c1, c1.sameBytes, fun g0 hgg => ?_, ⟨fun n r => ?_, fun g0 n num hgg hn => ?_⟩, fun n x hx => ?_⟩
  · rw [hg] at hgg; cases hgg
    exact ⟨g', hg', keeps_apart h.apart ck⟩
  · have : s.reg s.cur.gid n r = g.readReg r n := by unfold State.reg; rw [hg]; rfl
    rw [State.reg_of_beads hg' ck.trap cb, h.regs, this]
  · rw [hg] at hgg; cases hgg
    rw [State.beadOf_gang hg', State.beadOf_gang hg, cb, h.apart.hidden n num hn]
  · have hx' : g.thread? n = some x := by unfold State.thread? at hx; rw [hg] at hx; exact hx
    obtain ⟨f', p, ht⟩ := h.threads n
    rw [c3, ht, hx']
    have := p x (Gang.thread?_thr hx')
    refine ⟨_, rfl, ?_⟩
    rw [Thread.went_view, this.1, this.2]

/-- An instruction that has all it needs, whose effect is on its gang, and that completes. -/
theorem effect_complete {i : Instr} {s : State} {e : Env} (he : s.env? s.cur.gid = some e) (hc : s.cur.cap = none) (hr : s.cur.regens = []) (parts : List Nat)
    {f : Gang → Gang} (hf : ∀ g, (f g).gid = g.gid) {regs : Nat → Reg → Option Word} {view : Thread → View}
    (h : e.g.Effect (f e.g) regs view) : Went s ((s.modGang s.cur.gid f).complete i parts) regs view :=
  effect_completes (State.env?_gang he) hc hr parts hf h

theorem State.modGang_id (s : State) (gid : Nat) : s.modGang gid id = s := by
  unfold State.modGang
  simp

/-- An instruction that changes nothing completes. -/
theorem nothing_completes {i : Instr} {s : State} {g : Gang} (hg : s.gang? s.cur.gid = some g) (hc : s.cur.cap = none) (hr : s.cur.regens = []) (parts : List Nat) :
    Went s (s.complete i parts) (fun _ _ => none) Thread.view := by
  have := effect_completes (i := i) hg hc hr parts (f := id) (fun _ => rfl) (Gang.Effect.refl g)
  rwa [State.modGang_id] at this

theorem nothing_complete {i : Instr} {s : State} {e : Env} (he : s.env? s.cur.gid = some e) (hc : s.cur.cap = none) (hr : s.cur.regens = []) (parts : List Nat) :
    Went s (s.complete i parts) (fun _ _ => none) Thread.view := by
  have := effect_complete (i := i) he hc hr parts (f := id) (fun _ => rfl) (Gang.Effect.refl e.g)
  rwa [State.modGang_id] at this

/-- Nothing waits: the whole group completes. -/
theorem completePart_none (s : State) (i : Instr) (parts waiting : List Nat) (k : Stall) (h : waiting = []) :
    s.completePart i parts waiting k = s.complete i parts := by
  subst h; rfl

/-- No thread fails a check. -/
theorem Prep.check_none {p : Prep} {i : Instr} {f : Nat → Option (Nat × Nat)} (h : ∀ t ∈ p.parts, f t = none) : p.check i f = none := by
  unfold Prep.check
  have : (p.parts.filterMap fun t => (f t).map fun x => (t, x)) = [] := by
    rw [List.filterMap_eq_nil_iff]
    intro t ht
    rw [h t ht]; rfl
  simp only [this]

/-- Threads that participate are of the issue group. -/
theorem participants_mask {s : State} {g : Gang} {i : Instr} {t : Nat} (h : t ∈ participants s g i) : t ∈ s.cur.mask := by
  unfold participants at h
  exact (List.mem_filter.mp h).1

/-- A bookkeeping change of the gang afterwards. -/
theorem Went.mod {s t : State} {regs : Nat → Reg → Option Word} {view : Thread → View} (h : Went s t regs view) {f : Gang → Gang}
    (hfk : ∀ g, (f g).gid = g.gid ∧ (f g).threads = g.threads ∧ (f g).rods = g.rods)
    (hk : ∀ g, (f g).tmr = g.tmr ∧ (f g).trap = g.trap ∧ (f g).pend = g.pend ∧ (f g).stopped = g.stopped ∧ (f g).lastTurn = g.lastTurn ∧
      (f g).descs = g.descs) : Went s (t.modGang s.cur.gid f) regs view := by
  have hg := t.gang?_modGang_same s.cur.gid f fun g => (hfk g).1
  have ho := h.only.trans (OnlyGang.modGang t s.cur.gid f fun g => (hfk g).1)
  have hb : ∀ g n num, (f g).beadAt n num = g.beadAt n num := fun g n num =>
    Gang.beadAt_congr (fun r m => by unfold Gang.bead; rw [(hfk g).2.2]) (fun m => by unfold Gang.thread?; rw [(hfk g).2.1]) n num
  have hbo : ∀ n num, (t.modGang s.cur.gid f).beadOf s.cur.gid n num = t.beadOf s.cur.gid n num := fun n num => by
    unfold State.beadOf
    rw [hg]
    cases t.gang? s.cur.gid with
    | none => rfl
    | some g => simp [hb]
  refine ⟨ho, ho.sameBytes, fun g hgs => ?_, ⟨fun n r => ?_, fun g n num hgs hn => (hbo n num).trans (h.regs.hidden g n num hgs hn)⟩, fun n x hx => ?_⟩
  · obtain ⟨g1, h1, k1⟩ := h.kept g hgs
    refine ⟨f g1, by rw [hg, h1]; rfl, ?_⟩
    obtain ⟨a1, a2, a3, a4, a5, a6⟩ := hk g1
    exact ⟨a1.trans k1.tmr, a2.trans k1.trap, a3.trans k1.pend, a4.trans k1.stopped, a5.trans k1.lastTurn, by rw [a6]; exact k1.descs⟩
  · rw [← h.regs.shown n r]
    unfold State.reg
    rw [hg]
    cases t.gang? s.cur.gid with
    | none => rfl
    | some g => simp [Gang.readReg_congr (hfk g).2.2 (hfk g).2.1 (hk g).2.1]
  · obtain ⟨y, hy, hv⟩ := h.threads n x hx
    refine ⟨y, ?_, hv⟩
    rw [← hy]
    unfold State.thread?
    rw [hg]
    cases t.gang? s.cur.gid with
    | none => rfl
    | some g => simp [Gang.thread?, (hfk g).2.1]

theorem State.thread?_thr {s : State} {gid n : Nat} {x : Thread} (h : s.thread? gid n = some x) : x.thr = n := by
  unfold State.thread? at h
  cases hg : s.gang? gid with
  | none => simp [hg] at h
  | some g => rw [hg] at h; exact Gang.thread?_thr h

theorem OnlyGang.mapThreads {s t : State} {gid : Nat} (h : OnlyGang s t gid) (f : Thread → Thread) :
    OnlyGang s (t.modGang gid fun g => { g with threads := g.threads.map f }) gid :=
  h.trans (OnlyGang.modGang t gid (fun g => { g with threads := g.threads.map f }) fun _ => rfl)

/-- Registers after a change of a gang's threads that leaves their k registers alone. -/
theorem RegsAre.mapThreads {s t : State} {gid : Nat} {regs : Nat → Reg → Option Word} (h : RegsAre s t gid regs) (f : Thread → Thread)
    (hf : ∀ x, (f x).thr = x.thr ∧ (f x).k = x.k) : RegsAre s (t.modGang gid fun g => { g with threads := g.threads.map f }) gid regs := by
  refine ⟨fun n r => ?_, fun g n num hgs hn => ?_⟩
  case refine_2 =>
    rw [← h.hidden g n num hgs hn]
    unfold State.beadOf
    rw [t.gang?_modGang_same gid (fun g => { g with threads := g.threads.map f }) fun _ => rfl]
    cases t.gang? gid with
    | none => rfl
    | some g => simp only [Option.map_some, Option.getD_some]; exact Gang.beadAt_threads f (fun x => (hf x).1) (fun x => (hf x).2) n num
  rw [← h.shown n r]
  unfold State.reg
  rw [t.gang?_modGang_same gid (fun g => { g with threads := g.threads.map f }) fun _ => rfl]
  cases t.gang? gid with
  | none => rfl
  | some g => simp only [Option.map_some, Option.getD_some]; exact Gang.readReg_threads f (fun x => (hf x).1) (fun x => (hf x).2) r n

/-- Threads after a change of a gang's threads. -/
theorem ThreadsAre.mapThreads {s t : State} {gid : Nat} {view view' : Thread → View} (h : ThreadsAre s t gid view) (f : Thread → Thread)
    (hf : ∀ x, (f x).thr = x.thr) (hv : ∀ x y : Thread, y.thr = x.thr → y.view = view x → (f y).view = view' x) :
    ThreadsAre s (t.modGang gid fun g => { g with threads := g.threads.map f }) gid view' := by
  intro n x hx
  obtain ⟨y, hy, hyv⟩ := h n x hx
  refine ⟨f y, ?_, hv x y ((State.thread?_thr hy).trans (State.thread?_thr hx).symm) hyv⟩
  unfold State.thread? at hy ⊢
  rw [t.gang?_modGang_same gid (fun g => { g with threads := g.threads.map f }) fun _ => rfl]
  cases hg : t.gang? gid with
  | none => simp [hg] at hy
  | some g =>
    rw [hg] at hy
    simp only [Option.map_some, Option.bind_some] at hy ⊢
    rw [Gang.thread?_map g f hf, hy]; rfl

theorem foldl_gid (ts : List Nat) (f : Gang → Nat → Gang) (hf : ∀ g t, (f g t).gid = g.gid) (g : Gang) : (ts.foldl f g).gid = g.gid := by
  induction ts generalizing g with
  | nil => rfl
  | cons t ts ih => rw [List.foldl_cons, ih, hf]

/-- Writing one register of each thread is answering each thread. -/
theorem foldl_writeReg_answers (d : Reg) (v : Nat → Word) (ts : List Nat) (g : Gang) :
    ts.foldl (fun g t => g.writeReg d t (v t)) g = putAnswers (fun t => some { regs := [(d, v t)] }) ts g := by
  unfold putAnswers
  apply List.foldl_ext
  intro g t _
  rw [← putLane_reg]

/-- Saying what an instruction does in other words. -/
theorem Went.congr {s t : State} {regs regs' : Nat → Reg → Option Word} {view view' : Thread → View} (h : Went s t regs view)
    (hr : ∀ n r, regs n r = regs' n r) (hv : ∀ x, view x = view' x) : Went s t regs' view' := by
  have h1 : regs = regs' := funext fun n => funext (hr n)
  have h2 : view = view' := funext hv
  subst h1 h2
  exact h

/-- AN INSTRUCTION WHOSE THREADS WRITE REGISTERS and change their predicates or special registers, and that completes. -/
theorem steps_complete {i : Instr} {s : State} {e : Env} (ha : AtHand i s e) (hs : e.g.sound = true) (rs : Nat → List (Reg × Word))
    (hn : ∀ t, ((rs t).map (·.1)).Nodup) (f : Nat → Thread → Thread) (hf : ∀ t x, (f t x).thr = x.thr ∧ (f t x).k = x.k)
    (u : Nat → View → View) (hu : ∀ t x, (f t x).view = u t x.view) (hi : ∀ t x, u t (u t (Thread.view x)) = u t (Thread.view x))
    {F : Gang → Gang}
    (hF : ∀ g, F g = (participants s e.g i).foldl (fun g t => ((rs t).foldl (fun g p => g.writeReg p.1 t p.2) g).modThread t (f t)) g) :
    Went s (((plainPrep i s e).s.modGang (plainPrep i s e).e.g.gid F).complete i (plainPrep i s e).parts)
      (fun n r => if n ∈ participants s e.g i then ((rs n).find? fun p => p.1 == r).map (·.2) else none)
      fun x => if x.thr ∈ participants s e.g i then u x.thr x.view else x.view := by
  have hE := (Gang.Effect.steps hs rs hn f hf u hu hi (participants s e.g i) fun t ht => participants_isSome (i := i) ha.fresh ht).2
  have hgid := State.env?_gid ha.env
  have hG : ∀ g : Gang, ((participants s e.g i).foldl (fun g t => ((rs t).foldl (fun g p => g.writeReg p.1 t p.2) g).modThread t (f t)) g).gid = g.gid :=
    foldl_gid _ _ fun g t => writeRegs_gid (rs t) t g
  have h1 := effect_complete (i := i) ha.env ha.fresh ha.noted (participants s e.g i) hG hE
  rw [← funext hF] at h1
  show Went s ((s.modGang e.g.gid F).complete i (participants s e.g i)) _ _
  rw [hgid]
  exact h1

/-- The value of one register. -/
theorem find_reg (d r : Reg) (v : Word) : (([(d, v)] : List (Reg × Word)).find? fun p => p.1 == r).map (·.2) = if r = d then some v else none := by
  by_cases h : d = r
  · subst h; simp
  · have h1 : (d == r) = false := by simpa using h
    simp [h1, Ne.symm h]

end Sys2Proof.Machine
end

