-- ==== Sys2Proof/Laws/Control.lean ====
section
/-! SUPPORT. Special registers, transfers of control: the lemmas behind statements about them. -/

namespace Sys2Proof.Machine
open Host Sys2Proof

theorem View.wrote_view (x : Thread) (n : Nat) (v : Word) : (x.writeSreg n v).view = x.view.wrote n v := by
  unfold Thread.writeSreg View.wrote
  have h1 : v &&& 7#64 = BitVec.ofNat 64 (v.toNat % 8) := by
    apply BitVec.eq_of_toNat_eq; simp; rw [Nat.and_two_pow_sub_one_eq_mod _ 3]; omega
  have h2 : v &&& 31#64 = BitVec.ofNat 64 (v.toNat % 32) := by
    apply BitVec.eq_of_toNat_eq; simp; rw [Nat.and_two_pow_sub_one_eq_mod _ 5]; omega
  have h3 : v &&& ~~~31#64 = BitVec.ofNat 64 (v.toNat / 32 * 32) := by
    apply BitVec.eq_of_getLsbD_eq
    intro i hi
    rw [show v.toNat / 32 * 32 = (v.toNat >>> 5) <<< 5 by rw [Nat.shiftLeft_eq, Nat.shiftRight_eq_div_pow]]
    simp only [BitVec.getLsbD_and, BitVec.getLsbD_not, BitVec.getLsbD_ofNat, Nat.testBit_shiftLeft, Nat.testBit_shiftRight, hi, decide_true, Bool.true_and]
    by_cases h : 5 ≤ i
    · have : Nat.testBit 31 i = false := by
        apply Nat.testBit_lt_two_pow; calc 31 < 2 ^ 5 := by norm_num
          _ ≤ 2 ^ i := Nat.pow_le_pow_right (by norm_num) h
      simp [this, h, show 5 + (i - 5) = i by omega, BitVec.getLsbD]
    · have : i < 5 := by omega
      have : Nat.testBit 31 i = true := by interval_cases i <;> rfl
      simp [this, h]
  have h4 : (v.setWidth 32).setWidth 64 = BitVec.ofNat 64 (v.toNat % 2 ^ 32) := by
    apply BitVec.eq_of_toNat_eq; simp
  by_cases a1 : n = 0x13
  · subst a1; simp only [if_true]; rw [← h1]; rfl
  by_cases a2 : n = 0x14
  · subst a2; simp only [if_true]; rw [← h2]; rfl
  by_cases a3 : n = 0x15
  · subst a3; simp only [if_true]; rw [← h3]; rfl
  by_cases a4 : n = 0x19
  · subst a4; simp only [if_true]; rw [← h4]; rfl
  by_cases a5 : n = 0x21
  · subst a5; rfl
  simp only [a1, a2, a3, a4, a5, if_false]
  

theorem toNat_toInt (n : Nat) (x : BitVec n) : (x.toNat : Int) = x.toInt % 2 ^ n := by
  have h := x.isLt
  rw [BitVec.toInt_eq_toNat_bmod]
  have := Int.bmod_emod (x := (x.toNat : Int)) (m := 2 ^ n)
  push_cast at this
  rw [this, Int.emod_eq_of_lt (by omega) (by exact_mod_cast h)]

theorem relativeTo_addr (pc : Nat) (t : Target) : Target.addr pc t = relativeTo pc t := by
  cases t with
  | parcels off =>
    unfold Target.addr relativeTo
    dsimp only
    rw [BitVec.toNat_add, BitVec.toNat_mul]
    have := BitVec.toInt_signExtend_of_le (x := off) (v := 64) (by omega)
    have h2 : ((off.signExtend 64).toNat : Int) = off.toInt % 2 ^ 64 := by
      rw [← this]; exact toNat_toInt 64 _
    have : ((((BitVec.ofNat 64 pc).toNat + (off.signExtend 64).toNat * (4#64).toNat % 2 ^ 64) % 2 ^ 64 : Nat) : Int) = ((pc : Int) + 4 * off.toInt) % 2 ^ 64 := by
      push_cast
      rw [h2]
      rw [BitVec.toNat_ofNat]
      push_cast
      omega
    rw [← this]; rfl
  | bytes off =>
    unfold Target.addr relativeTo
    dsimp only
    rw [BitVec.toNat_add]
    have := BitVec.toInt_signExtend_of_le (x := off) (v := 64) (by omega)
    have h2 : ((off.signExtend 64).toNat : Int) = off.toInt % 2 ^ 64 := by
      rw [← this]; exact toNat_toInt 64 _
    have : ((((BitVec.ofNat 64 pc).toNat + (off.signExtend 64).toNat) % 2 ^ 64 : Nat) : Int) = ((pc : Int) + off.toInt) % 2 ^ 64 := by
      push_cast
      rw [h2, BitVec.toNat_ofNat]
      push_cast
      omega
    rw [← this]; rfl

theorem alGet_filterMap_ok (ts : List Nat) (f : Nat → Nat) (n : Nat) : alGet (ts.map fun t => (t, f t)) n = if n ∈ ts then some (f n) else none := by
  unfold alGet
  by_cases h : n ∈ ts
  · rw [find_map_thr (fun t => (t, f t)) Prod.fst (fun _ => rfl) ts n h]; simp [h]
  · rw [if_neg h, Option.map_eq_none_iff, List.find?_eq_none]
    intro p hp
    obtain ⟨u, hu, rfl⟩ := List.mem_map.mp hp
    simp only [beq_iff_eq]; rintro rfl; exact h hu

theorem filterMap_map_some {α β γ : Type} (l : List α) (f : α → β) (g : β → Option γ) (h : α → γ) (hh : ∀ x, g (f x) = some (h x)) :
    (l.map f).filterMap g = l.map h := by
  induction l with
  | nil => rfl
  | cons x l ih => simp [hh, ih]

theorem transfer_complete {i : Instr} {s : State} {e : Env} (ha : AtHand i s e) (hs : e.g.sound = true) (link : Option Reg) (tg : Prep → Nat → Nat) (target dest : Nat → Nat)
    (htg : ∀ n ∈ participants s e.g i, tg (plainPrep i s e) n = target n)
    (hok : ∀ n ∈ participants s e.g i, checkTarget s e.c (e.place n).units true (target n) = .ok (dest n)) :
    ∃ t, transfer i s link tg = .next t ∧ OnlyGang s t s.cur.gid ∧ SameBytes s t ∧
      RegsAre s t s.cur.gid (fun n r => if n ∈ participants s e.g i ∧ link = some r then some (BitVec.ofNat 64 s.cur.next) else none) ∧
      ThreadsAre s t s.cur.gid fun x => if x.thr ∈ participants s e.g i then { x.view with pc := dest x.thr } else wentOn s x := by
  have hgid := State.env?_gid ha.env
  unfold transfer
  rw [withPrep_atHand ha]
  refine ⟨_, rfl, ?_⟩
  have hts : (plainPrep i s e).targets (tg (plainPrep i s e)) = (participants s e.g i).map fun t => (t, .ok (dest t)) := by
    show (participants s e.g i).map _ = _
    apply List.map_congr_left
    intro n hn
    rw [htg n hn]
    show (n, checkTarget s e.c (e.place n).units true (target n)) = _
    rw [hok n hn]
  have hck := Prep.check_none (p := plainPrep i s e) (i := i) (f := fun t => badTarget ((participants s e.g i).map fun t => (t, (.ok (dest t) : Except FetchErr Nat))) t) (fun t _ => by
    unfold badTarget
    rw [List.findSome?_eq_none_iff]
    intro x hx
    obtain ⟨u, hu, rfl⟩ := List.mem_map.mp hx
    rfl)
  simp only [hts, hck]
  rw [filterMap_map_some (participants s e.g i) (fun t => (t, (.ok (dest t) : Except FetchErr Nat))) _ (fun t => (t, dest t)) (by intro x; rfl)]
  -- the link register
  have hW : Went s (State.complete (match link with
        | some d => (plainPrep i s e).s.modGang (plainPrep i s e).e.g.gid fun g => (plainPrep i s e).parts.foldl (fun g t => g.writeReg d t (BitVec.ofNat 64 (plainPrep i s e).s.cur.next)) g
        | none => (plainPrep i s e).s) i (plainPrep i s e).parts) (fun n r => if n ∈ participants s e.g i ∧ link = some r then some (BitVec.ofNat 64 s.cur.next) else none) Thread.view := by
    cases link with
    | none =>
      have := nothing_complete (i := i) ha.env ha.fresh ha.noted (participants s e.g i)
      exact this.congr (fun n r => by simp) fun _ => rfl
    | some d =>
      have hp : ∀ t ∈ participants s e.g i, (e.g.thread? t).isSome = true := fun t ht => participants_isSome ha.fresh ht
      have hE := Gang.Effect.answers hs (fun _ => some { regs := [(d, BitVec.ofNat 64 s.cur.next)] }) (by rintro _ _ ⟨⟩; simp) _ hp
      have := effect_complete (i := i) ha.env ha.fresh ha.noted (participants s e.g i) (putAnswers_gid _ _) hE
      rw [← hgid] at this
      simp only [← funext (foldl_writeReg_answers d (fun _ => BitVec.ofNat 64 s.cur.next) _)] at this
      refine this.congr (fun n r => ?_) fun x => ?_
      · by_cases hn : n ∈ participants s e.g i
        · by_cases hr : d = r
          · subst hr; simp [hn, LaneOut.to]
          · have h1 : (d == r) = false := by simpa using hr
            simp [hn, LaneOut.to, hr, h1]
        · simp [hn]
      · have : answered (some { regs := [(d, BitVec.ofNat 64 s.cur.next)] }) x = x.view := by
          rw [answered, LaneOut.after_view]
          simp [Thread.setPreds]
          rfl
        simp only [this, ite_self]
  obtain ⟨o, b, kp, c, d⟩ := hW
  generalize State.complete _ i _ = t at o b c d ⊢
  have hcur : t.cur = s.cur := by rw [o.rest]
  have hj : ∀ ts, State.jump t (plainPrep i s e).e.g.gid ts = t.modGang s.cur.gid fun g => { g with threads := g.threads.map fun x => match alGet ts x.thr with
      | some pc => { x with pc := pc, stall := .none }
      | none => x } := by
    intro ts
    show State.jump t e.g.gid ts = _
    unfold State.jump
    rw [hgid, hcur, ha.fresh]
    rfl
  rw [hj]
  refine ⟨o.mapThreads _, (o.mapThreads _).sameBytes, c.mapThreads _ (fun x => by split <;> exact ⟨rfl, rfl⟩), d.mapThreads _ (fun x => by split <;> rfl) ?_⟩
  intro x y hxy hv
  rw [alGet_filterMap_ok, hxy]
  by_cases hn : x.thr ∈ participants s e.g i
  · have hm := participants_mask hn
    rw [if_pos hn, if_pos hn]
    have h2 : ({ y with pc := dest x.thr, stall := .none } : Thread).view = { y.view with pc := dest x.thr } := rfl
    refine h2.trans ?_
    rw [hv, if_pos hm]
  · rw [if_neg hn, if_neg hn]
    show y.view = _
    rw [hv]; rfl

end Sys2Proof.Machine
end

