-- ==== Sys2Proof/Laws/CrossLane.lean ====
section
/-! SUPPORT. Votes, reductions, shuffles: what they read of other threads and what they leave. -/

namespace Sys2Proof.Machine
open Host Sys2Proof

/-- setting a predicate, on views -/
def View.setPred (p : Pred) (v : Bool) (w : View) : View :=
  { w with preds := ({ Thread.fresh 0 0 with preds := w.preds }.setPred p v).preds }

theorem setPred_preds {x y : Thread} (p : Pred) (v : Bool) (h : x.preds = y.preds) : (x.setPred p v).preds = (y.setPred p v).preds := by
  apply BitVec.eq_of_getLsbD_eq; intro i _; rw [Thread.setPred_bit, Thread.setPred_bit, h]

theorem setPred_setPred (x : Thread) (p : Pred) (v : Bool) : ((x.setPred p v).setPred p v).preds = (x.setPred p v).preds := by
  apply BitVec.eq_of_getLsbD_eq; intro i _; rw [Thread.setPred_bit]; split
  · rw [Thread.setPred_bit]; simp_all
  · rfl

theorem View.setPred_view (p : Pred) (v : Bool) (x : Thread) : (x.setPred p v).view = View.setPred p v x.view := by
  rw [(Thread.setPred_view x p v).2.2]
  unfold View.setPred
  exact congrArg (fun q => ({ x.view with preds := q } : View)) (setPred_preds p v rfl)

theorem View.setPred_twice (p : Pred) (v : Bool) (x : Thread) : View.setPred p v (View.setPred p v x.view) = View.setPred p v x.view := by
  rw [← View.setPred_view, ← View.setPred_view, View.setPred_view p v (x.setPred p v), ← View.setPred_view]
  rw [(Thread.setPred_view (x.setPred p v) p v).2.2, setPred_setPred]
  rw [(Thread.setPred_view x p v).2.2]

theorem maskNat_eq (ts : List Nat) : maskNat ts = (ts.map fun k => 2 ^ k).sum := rfl

theorem filter_length (l : List Nat) (p : Nat → Bool) : ((l.filter p).length == l.length) = decide (∀ n ∈ l, n ∈ l.filter p) := by
  by_cases h : ∀ n ∈ l, p n = true
  · have : l.filter p = l := List.filter_eq_self.mpr h
    rw [this]; simp
  · have h2 : (l.filter p).length ≠ l.length := fun hh => h (List.filter_eq_self.mp (List.filter_sublist.eq_of_length hh))
    have h3 : ¬ ∀ n ∈ l, n ∈ l.filter p := fun hh => h fun n hn => (List.mem_filter.mp (hh n hn)).2
    rw [decide_eq_false h3]; simpa using h2

/-- answers put by an instruction at its prepared state -/
theorem answers_prep {i : Instr} {s : State} {e : Env} (ha : AtHand i s e) (hs : e.g.sound = true) (out : Nat → Option LaneOut)
    (hN : ∀ t o, out t = some o → (o.regs.map (·.1)).Nodup) (hD : ∀ t o, out t = some o → ∀ r ∈ o.regs.map (·.1), r ∈ destsOf i) {F : Gang → Gang}
    (hF : ∀ g, F g = putAnswers out (participants s e.g i) g) :
    let t := ((plainPrep i s e).s.modGang (plainPrep i s e).e.g.gid F).complete i (plainPrep i s e).parts
    OnlyGang s t s.cur.gid ∧ Answered i s t e out := by
  have := answers_complete ha hs out hN hD
  rw [← funext hF] at this
  have hgid := State.env?_gid ha.env
  show OnlyGang s ((s.modGang e.g.gid F).complete i (participants s e.g i)) _ ∧ Answered _ _ ((s.modGang e.g.gid F).complete i (participants s e.g i)) _ _
  rw [hgid]
  exact this

theorem shflSource_segment (mode : ShflMode) (w n b : Nat) (hw : 0 < w) (hx : ∀ x y, x < w → y < w → x ^^^ y < w) : shflSource mode w n b = crossSource.segment n mode w b := by
  unfold shflSource crossSource.segment
  have h1 : n % w < w := Nat.mod_lt _ hw
  have h2 : b % w < w := Nat.mod_lt _ hw
  cases mode with
  | idx =>
    dsimp only
    rw [if_pos (by omega), Int.toNat_natCast]
  | up =>
    dsimp only
    by_cases h : b ≤ n % w
    · rw [if_pos h, if_pos (by omega)]; congr 2; omega
    · rw [if_neg h, if_neg (by omega)]
  | down =>
    dsimp only
    by_cases h : n % w + b < w
    · rw [if_pos h, if_pos (by omega)]; congr 2
    · rw [if_neg h, if_neg (by omega)]
  | xor =>
    dsimp only
    have := hx _ _ h1 h2
    rw [if_pos this, if_pos (by omega)]; congr 2

theorem xor_lt_pow (k x y : Nat) (hx : x < 2 ^ k) (hy : y < 2 ^ k) : x ^^^ y < 2 ^ k := Nat.xor_lt_two_pow hx hy

theorem valMov_moved (ty : Ty) (h : ty = .b32 ∨ ty = .b64) (v : Word) : valMov ty v = moved ty v := by
  rcases h with rfl | rfl
  · unfold valMov moved
    rw [if_pos (by decide), if_neg (by decide)]
    apply BitVec.eq_of_toNat_eq; simp
  · unfold valMov moved
    rw [if_neg (by decide), if_pos rfl]

/-- sources that can be read change nothing but the answer -/
theorem readSources {p : Prep} {a : Reg} (us : List Nat) (k0 : Sources)
    (hs : k0.s.ops = p.s.ops) (hgs : k0.s.gangs = p.s.gangs)
    (h : ∀ u ∈ us, p.e.g.thread? u = none ∨ p.s.plainReg p.e u a) :
    ∃ vs, us.foldl (readSource p a) k0 = { k0 with vals := vs } ∧ ∀ u, alGet vs u = if u ∈ us then some (p.e.sourceBead a u) else alGet k0.vals u := by
  induction us generalizing k0 with
  | nil => exact ⟨k0.vals, rfl, by simp⟩
  | cons u us ih =>
    have hone : readSource p a k0 u = { k0 with vals := alSet k0.vals u (p.e.sourceBead a u) } := by
      unfold readSource Env.sourceBead
      cases hx : p.e.g.thread? u with
      | none => simp
      | some x =>
        rcases h u (by simp) with h0 | ⟨h1, h2, h3⟩
        · simp [hx] at h0
        · have h4 : k0.s.loadPending p.e.g.gid u (p.e.g.regNum a) = false := by
            unfold State.loadPending State.thread? State.gang? at h1 ⊢
            rw [hs, hgs]; exact h1
          have h5 : k0.s.note p.e.g.gid u k0.s.nextId .ld [] = k0.s := rfl
          have h6 := readOperand_value (s := k0.s) ⟨h4, h2, h3⟩
          simp [h4, h6, h5, Cap.word]
    obtain ⟨vs, e, q⟩ := ih (readSource p a k0 u) (by rw [hone]; exact hs) (by rw [hone]; exact hgs) (fun v hv => h v (by simp [hv]))
    rw [List.foldl_cons, e, hone]
    refine ⟨vs, rfl, fun v => ?_⟩
    rw [q v, hone, alGet_alSet]
    by_cases h1 : v ∈ us
    · simp [h1]
    · by_cases h2 : v = u
      · subst h2; simp [h1]
      · simp [h1, h2]

theorem Went.named {s t : State} {k : Nat} {regs : Nat → Reg → Option Word} {view : Thread → View} (h : Went { s with nextId := k } t regs view) :
    Went { s with nextId := t.nextId } t regs view := by
  have hn : t.nextId = k := by rw [h.only.rest]
  rw [hn]; exact h

theorem crossExec_complete {i : Instr} {a : Reg} {s : State} {e : Env} (ha : AtHand i s e)
    (src : Prep → Nat → Option Nat) (k : Prep → (Nat → Nat → Word) → Gang → Gang)
    (hU : uniformOperands i = false) (hA : (srcsOf i).a = .reg a)
    (hsrc : ∀ n ∈ participants s e.g i, ∀ u, src (plainPrep i s e) n = some u → sourceReady s e (participants s e.g i) a u)
    {regs : Nat → Reg → Option Word} {view : Thread → View}
    (hk : ∀ val : Nat → Nat → Word, (∀ n ∈ participants s e.g i, ∀ u, src (plainPrep i s e) n = some u → val n u = e.sourceBead a u) →
      (∀ g, (k (plainPrep i s e) val g).gid = g.gid) ∧ e.g.Effect (k (plainPrep i s e) val e.g) regs view) :
    ∃ t, crossExec i a s src k = .next t ∧ Went { s with nextId := t.nextId } t regs view := by
  have hgid := State.env?_gid ha.env
  have hp : ∀ t ∈ participants s e.g i, (e.g.thread? t).isSome = true := fun t ht => participants_isSome ha.fresh ht
  unfold crossExec
  rw [prepare_atHand ha]
  refine ⟨_, rfl, ?_⟩
  dsimp only
  have e2 : (plainPrep i s e).parts = participants s e.g i := rfl
  have e3 : (plainPrep i s e).s = s := rfl
  have e4 : (plainPrep i s e).e = e := rfl
  have e5 : (s.cur.cap.any fun x => x.asRead) = false := by rw [ha.fresh]; rfl
  have e6 : ∀ t, (plainPrep i s e).asRead t = none := fun t => by unfold Prep.asRead; rw [e3, e5]; rfl
  have e7 : ((participants s e.g i).filter fun t => ((plainPrep i s e).asRead t).isNone) = participants s e.g i := by
    rw [List.filter_eq_self]; intro t _; rw [e6]; rfl
  obtain ⟨vs, e1, q⟩ := readSources (p := plainPrep i s e) (a := a) (((participants s e.g i).filterMap (src (plainPrep i s e))).filter (· ∉ participants s e.g i)).dedup
    ⟨{ s with nextId := s.nextId + 1 }, [], [], [], false⟩ rfl rfl (by
      intro u hu
      rw [List.mem_dedup, List.mem_filter, List.mem_filterMap] at hu
      obtain ⟨⟨n, hn, hnu⟩, hu2⟩ := hu
      rcases hsrc n hn u hnu with h | h | h
      · simp [h] at hu2
      · exact .inl h
      · refine .inr ?_
        simp only [State.regReady, Bool.and_eq_true, Bool.not_eq_true', Option.isNone_iff_eq_none, and_assoc] at h
        exact h)
  have hrods : ∀ us, (participants s e.g i).isEmpty = false ∨ us = [] → (plainPrep i s e).sourceRods a us = [] := by
    intro us hus
    unfold Prep.sourceRods
    rw [e4, e2]
    split
    · rfl
    · rename_i hno
      simp only [Bool.or_eq_true, not_or, Bool.not_eq_true] at hno
      have hk := hno.1.1
      rcases hus with hne | rfl
      · cases hps : participants s e.g i with
        | nil => simp [hps] at hne
        | cons t ts =>
          have := sourcesReady_reg ha.sources (t := t) (by rw [readers_all hU, hps]; simp) (r := a) (by simp [readsOf, hA, Src.regs])
          have hr : e.g.isRecipe a.toNat = false := by simpa [hk] using this.2.2
          unfold Gang.regenSet
          simp [hr]
      · simp at hno
  have hr0 := hrods ((List.filter (fun x => decide (x ∉ participants s e.g i)) (List.filterMap (src (plainPrep i s e)) (participants s e.g i))).dedup) (by
    by_cases hem : (participants s e.g i).isEmpty = true
    · right
      have : participants s e.g i = [] := by simpa using hem
      rw [this]; rfl
    · left; simpa using hem)
  have hval : ∀ n ∈ participants s e.g i, ∀ u, src (plainPrep i s e) n = some u →
      (match alGet vs u with | some v => v | none => (plainPrep i s e).a u) = e.sourceBead a u := by
    intro n hn u hu
    rw [q u]
    by_cases h1 : u ∈ participants s e.g i
    · rw [if_neg (by rw [List.mem_dedup, List.mem_filter]; simp [h1])]
      have := plainPrep_val (i := i) (s := s) (e := e) (by rw [readers_all hU]; exact h1) .a
      show (plainPrep i s e).val u .a = _
      rw [this]
      unfold Env.sourceBead
      rw [if_pos (hp u h1)]
      show e.operand u (srcsOf i).a = _
      rw [hA]; rfl
    · rw [if_pos (by rw [List.mem_dedup, List.mem_filter, List.mem_filterMap]; exact ⟨⟨n, hn, hu⟩, by simpa using h1⟩)]
      rfl
  have hcross : (plainPrep i s e).cross a src [] [] = ⟨⟨{ s with nextId := s.nextId + 1 }, vs, [], [], false⟩, fun _ => none, fun _ => none, fun _ u =>
      match alGet vs u with | some v => v | none => (plainPrep i s e).a u⟩ := by
    unfold Prep.cross
    simp only [e2, e3, e5, e6, Option.isNone_none, List.filter_true, Bool.or_false, e1, List.find?_nil, Option.map_none, Option.none_or, Bool.false_eq_true, ite_self]
    congr 1
    · funext t
      split
      · cases src (plainPrep i s e) t <;> rfl
      · rfl
    · funext t
      cases src (plainPrep i s e) t <;> rfl
  have htrap : (plainPrep i s e).crossTrap i src ((plainPrep i s e).cross a src [] []) = none := by
    have f0 : ((plainPrep i s e).cross a src [] []).fault = fun _ => none := by rw [hcross]
    have b0 : ((plainPrep i s e).cross a src [] []).bad = fun _ => none := by rw [hcross]
    unfold Prep.crossTrap
    rw [f0, b0]
    simp
  rw [htrap, hcross]
  simp only [e2, e3, e5, e6, Bool.or_false, Bool.false_eq_true, if_false, Option.isNone_none, List.filter_true, hr0]
  obtain ⟨hG, hE⟩ := hk (fun _ u => match alGet vs u with | some v => v | none => (plainPrep i s e).a u) hval
  have this := effect_complete (i := i) (s := { s with nextId := s.nextId + 1 }) (e := e) ha.env ha.fresh ha.noted (participants s e.g i) hG hE
  replace this := this.named
  rw [← hgid] at this
  exact this

end Sys2Proof.Machine
end

