-- ==== Sys2Proof/Laws/Encoding.lean ====
section
/-! SUPPORT. Fields of encoded words: the fields of an S parcel and of an L or X word read back as they were put (R54, R57, R60), and
so the words of an instruction unpack to its fields. -/

namespace Sys2Proof

/-- The fields of an S parcel (R54). -/
theorem sWord_b (b a d : BitVec 8) (op : BitVec 6) : (sWord b a d op).extractLsb' 24 8 = b := by
  unfold sWord
  simp (disch := omega) only [BitVec.extractLsb'_append_eq_of_le]
  exact BitVec.extractLsb'_eq_self
theorem sWord_a (b a d : BitVec 8) (op : BitVec 6) : (sWord b a d op).extractLsb' 16 8 = a := by
  unfold sWord
  simp (disch := omega) only [BitVec.extractLsb'_append_eq_of_le, BitVec.extractLsb'_append_eq_of_add_le]
  exact BitVec.extractLsb'_eq_self
theorem sWord_d (b a d : BitVec 8) (op : BitVec 6) : (sWord b a d op).extractLsb' 8 8 = d := by
  unfold sWord
  simp (disch := omega) only [BitVec.extractLsb'_append_eq_of_le, BitVec.extractLsb'_append_eq_of_add_le]
  exact BitVec.extractLsb'_eq_self
theorem sWord_op (b a d : BitVec 8) (op : BitVec 6) : (sWord b a d op).extractLsb' 2 6 = op := by
  unfold sWord
  simp (disch := omega) only [BitVec.extractLsb'_append_eq_of_le, BitVec.extractLsb'_append_eq_of_add_le]
  exact BitVec.extractLsb'_eq_self
theorem sWord_form (b a d : BitVec 8) (op : BitVec 6) : (sWord b a d op).extractLsb' 0 2 = 0 := by
  unfold sWord
  simp (disch := omega) only [BitVec.extractLsb'_append_eq_of_add_le]
  exact BitVec.extractLsb'_eq_self

/-- A word is its two parcels. -/
theorem parcels_append (w : BitVec 64) : w.extractLsb' 32 32 ++ w.extractLsb' 0 32 = w := by
  apply BitVec.eq_of_getLsbD_eq
  intro k hk
  simp only [BitVec.getLsbD_append, BitVec.getLsbD_extractLsb']
  split <;> simp <;> grind

/-- The first two bits of an L or X word name its form (R53). -/
theorem Raw.word_form (r : Raw) : (r.word.extractLsb' 0 32).extractLsb' 0 2 = if r.x then 2 else 1 := by
  have e : ∀ w : BitVec 64, (w.extractLsb' 0 32).extractLsb' 0 2 = w.extractLsb' 0 2 := by
    intro w
    apply BitVec.eq_of_getLsbD_eq
    intro k hk
    simp [hk]
  simp (disch := omega) only [e, Raw.word, BitVec.extractLsb'_append_eq_of_add_le, BitVec.extractLsb'_eq_self]

/-- The fields of an L or X word read back (R57, R60). -/
theorem Raw.unpack_word (r : Raw) (h : r.x = false → r.lit = 0) :
    unpackRaw r.x (r.word.extractLsb' 0 32) (r.word.extractLsb' 32 32) r.lit = r := by
  obtain ⟨x, op, d, a, b, c, gp, gneg, ty, fn, lit⟩ := r
  have hb : (BitVec.ofBool gneg).getLsbD 0 = gneg := by cases gneg <;> rfl
  have e : ∀ w : BitVec 64, w.getLsbD 45 = (w.extractLsb' 45 1).getLsbD 0 := by intro w; simp
  have self : ∀ {n : Nat} (y : BitVec n), y.extractLsb' 0 n = y := fun _ => BitVec.extractLsb'_eq_self
  simp only [unpackRaw, parcels_append, e, Raw.word]
  simp (disch := omega) only [BitVec.extractLsb'_append_eq_of_le, BitVec.extractLsb'_append_eq_of_add_le]
  cases x <;> simp_all

/-- Without a literal the third parcel is not looked at. -/
theorem unpackRaw_L (p0 p1 p2 q : W32) : unpackRaw false p0 p1 p2 = unpackRaw false p0 p1 q := rfl

/-- The words of fields that build an instruction decode to it, if it is well formed. -/
theorem Raw.decodes {r : Raw} {i : Instr} (hx : r.x = false → r.lit = 0) (hb : r.build = some i) (hw : i.wf = true) (rest : List W32) :
    decodeList (r.parcels ++ rest) = some (i, r.parcels.length) := by
  have hf := r.word_form
  have hu := r.unpack_word hx
  cases h : r.x <;> rw [h] at hf hu
  · rw [unpackRaw_L _ _ _ (rest.getD 0 0)] at hu
    have hf' : ((r.word.extractLsb' 0 32).extractLsb' 0 2).toNat = 1 := by rw [hf]; rfl
    simp only [Raw.parcels, h, decodeList, decodeParcels, Bool.false_eq_true, if_false, List.cons_append, List.nil_append,
      List.getD_cons_zero, List.getD_cons_succ, hf', List.length_cons, List.length_nil]
    rw [hu, hb]
    simp [hw]
  · have hf' : ((r.word.extractLsb' 0 32).extractLsb' 0 2).toNat = 2 := by rw [hf]; rfl
    simp only [Raw.parcels, h, decodeList, decodeParcels, if_true, List.cons_append, List.nil_append,
      List.getD_cons_zero, List.getD_cons_succ, hf', List.length_cons, List.length_nil]
    rw [hu, hb]
    simp [hw]

end Sys2Proof
end

