-- ==== Sys2Proof/Laws/Posts.lean ====
section
/-! SUPPORT. Instructions that post operations: what stands when they have been posted one after another, and once the instruction has
completed. -/

namespace Sys2Proof.Machine
open Host

theorem mapIdx_map {α β γ : Type} (f : α → β) (g : Nat → β → γ) (xs : List α) : (xs.map f).mapIdx g = xs.mapIdx fun j x => g j (f x) := by
  induction xs generalizing g with
  | nil => rfl
  | cons x xs ih => simp only [List.map_cons, List.mapIdx_cons]; rw [ih]

/-- Posting operations one after another, from a state that has already posted some. -/
theorem foldl_posts {α : Type} (e : Env) (f : α → Posting) (F : State → α → State) (xs : List α) (s0 s : State) (k : Nat)
    (hF : ∀ s, ∀ x ∈ xs, F s x = s.post e (f x).thrs (f x).cls (f x).cnt (f x).kind (f x).pages (f x).hold)
    (ops : List Op) (hs : s = { s0 with ops := ops, nextId := s0.nextId + k }) :
    xs.foldl F s = { s0 with ops := ops ++ xs.mapIdx fun j x => s0.posting e (s0.nextId + k + j) (f x), nextId := s0.nextId + k + xs.length } := by
  subst hs
  induction xs generalizing k ops with
  | nil => simp
  | cons x xs ih =>
    rw [List.foldl_cons, hF _ x (by simp)]
    have := ih (k + 1) (fun s y hy => hF s y (by simp [hy])) (ops ++ [s0.posting e (s0.nextId + k) (f x)])
    have e1 : State.post { s0 with ops := ops, nextId := s0.nextId + k } e (f x).thrs (f x).cls (f x).cnt (f x).kind (f x).pages (f x).hold =
        { s0 with ops := ops ++ [s0.posting e (s0.nextId + k) (f x)], nextId := s0.nextId + (k + 1) } := rfl
    rw [e1, this]
    have e2 : ∀ j, s0.nextId + (k + 1) + j = s0.nextId + k + (j + 1) := fun j => by omega
    simp only [List.mapIdx_cons, List.append_assoc, List.singleton_append, List.length_cons, Nat.add_zero, e2]

/-- Posting one operation after another. -/
theorem posts_foldl {α : Type} {s : State} {e : Env} (f : α → Posting) {F : State → α → State} {xs : List α}
    (hF : ∀ s, ∀ x ∈ xs, F s x = s.post e (f x).thrs (f x).cls (f x).cnt (f x).kind (f x).pages (f x).hold) :
    xs.foldl F s = s.posts e (xs.map f) := by
  rw [foldl_posts e f F xs s s 0 hF s.ops (by cases s; rfl)]
  unfold State.posts
  simp [mapIdx_map f fun k x => s.posting e (s.nextId + k) x]

/-- An instruction that has posted its operations completes. -/
theorem posts_complete {i : Instr} {s : State} {e : Env} (ha : AtHand i s e) (xs : List Posting) (parts : List Nat) :
    Went (s.posts e xs) ((s.posts e xs).complete i parts) (fun _ _ => none) Thread.view :=
  nothing_complete (s := s.posts e xs) (e := e) ha.env ha.fresh ha.noted parts

/-- Every thread has room in its counter (R85). -/
theorem fullFor_nil {i : Instr} {s : State} {e : Env} (he : s.env? s.cur.gid = some e) (c : Cls) (m : Nat) (hm : c.maxCount = m)
    (h : ∀ n ∈ participants s e.g i, s.wcnt s.cur.gid n c < m) : (plainPrep i s e).fullFor c = [] := by
  unfold Prep.fullFor
  rw [List.filter_eq_nil_iff]
  intro n hn
  have := h n hn
  have hgid := State.env?_gid he
  show ¬ (decide (c.maxCount ≤ s.wcnt e.g.gid n c)) = true
  rw [hgid, hm]
  simp; omega

/-- The effective address of a memory operand (R146). -/
theorem eaOf_addressOf (e : Env) (n : Nat) (m : Addr) : (eaOf (e.g.readReg m.a n) (e.operand n (m.idx.src .b64)) m.scale).toNat = e.addressOf n m := by
  unfold eaOf Env.addressOf
  simp

theorem filter_nil_id {α : Type} [DecidableEq α] (l : List α) : l.filter (fun x => decide (x ∉ ([] : List α))) = l := by simp

theorem holdEntry_held {i : Instr} {s : State} {e : Env} (h : AtHand i s e) (hr : readers s e i = participants s e.g i) :
    (plainPrep i s e).holdEntry i = s.held e i := by
  unfold Prep.holdEntry State.held plainPrep
  simp only [h.fresh, hr]
  rfl

end Sys2Proof.Machine
end

