-- ==== Sys2Proof/Laws/Engines.lean ====
section
/-! SUPPORT. Fences, tags, compaction, copies, matrix and bank operations: what issuing one does to the state. -/

namespace Sys2Proof.Machine
open Host Sys2Proof

theorem foldl_marks (e : Env) (scope : Scope) (pred succ : BitVec 7) (xs : List Nat) (s : State) :
    xs.foldl (fun (s : State) t => { s with fences := s.fences ++ [⟨s.nextId, e.place t, scope, pred, succ⟩], nextId := s.nextId + 1 }) s =
      { s with fences := s.fences ++ xs.mapIdx fun k n => ⟨s.nextId + k, e.place n, scope, pred, succ⟩, nextId := s.nextId + xs.length } := by
  induction xs generalizing s with
  | nil => simp
  | cons x xs ih =>
    rw [List.foldl_cons, ih]
    have e2 : ∀ j, s.nextId + 1 + j = s.nextId + (j + 1) := fun j => by omega
    simp only [List.mapIdx_cons, List.append_assoc, List.singleton_append, List.length_cons, Nat.add_zero, e2]

theorem Block.slook_bid (b : Block) (tag : Word) : (b.slook tag).2.bid = b.bid := by
  unfold Block.slook
  split <;> rfl

theorem State.block?_modBlock_same (s : State) (bid : Nat) (f : Block → Block) (hf : ∀ b, (f b).bid = b.bid) :
    (s.modBlock bid f).block? bid = (s.block? bid).map f := by
  have key : ∀ b : Block, (if b.bid = bid then f b else b).bid = b.bid := fun b => by split <;> simp [hf]
  unfold State.block? State.modBlock
  rw [find_map_key Block.bid _ key]
  cases hg : s.blocks.find? fun b => b.bid == bid with
  | none => simp
  | some b =>
    have := find_key (key := Block.bid) hg
    simp_all

theorem State.modBlock_modBlock (s : State) (bid : Nat) (f g : Block → Block) (hf : ∀ b, (f b).bid = b.bid) :
    (s.modBlock bid f).modBlock bid g = s.modBlock bid fun b => g (f b) := by
  unfold State.modBlock
  simp only [List.map_map]
  congr 1
  apply List.map_congr_left
  intro b _
  by_cases h : b.bid = bid
  · simp [h, hf]
  · simp [h]

theorem State.modGang_modGang (s : State) (gid : Nat) (f g : Gang → Gang) (hf : ∀ x, (f x).gid = x.gid) :
    (s.modGang gid f).modGang gid g = s.modGang gid fun x => g (f x) := by
  unfold State.modGang
  simp only [List.map_map]
  congr 1
  apply List.map_congr_left
  intro b _
  by_cases h : b.gid = gid
  · simp [h, hf]
  · simp [h]

theorem slook_fold (tag : Nat → Word) (d : Reg) (bid gid : Nat) (ps : List Nat) (s : State) (b : Block) (hb : s.block? bid = some b) :
    ps.foldl (fun (s : State) t => match s.block? bid with
      | none => s
      | some b => (s.modBlock bid fun b => (b.slook (tag t)).2).modGang gid fun g => g.writeReg d t (b.slook (tag t)).1) s =
    (s.modBlock bid fun b => (b.lookAll tag ps).2).modGang gid fun g => ((b.lookAll tag ps).1.reverse).foldl (fun g x => g.writeReg d x.1 x.2) g := by
  induction ps generalizing s b with
  | nil =>
    simp only [List.foldl_nil, Block.lookAll, List.reverse_nil]
    unfold State.modBlock State.modGang
    simp
  | cons t ps ih =>
    rw [List.foldl_cons, hb]
    dsimp only
    have h1 : (State.modGang (s.modBlock bid fun b => (b.slook (tag t)).2) gid fun g => g.writeReg d t (b.slook (tag t)).1).block? bid = some (b.slook (tag t)).2 := by
      show (s.modBlock bid fun b => (b.slook (tag t)).2).block? bid = _
      rw [State.block?_modBlock_same _ _ _ fun b => Block.slook_bid b _, hb]; rfl
    rw [ih _ _ h1]
    show State.modGang (State.modGang ((s.modBlock bid fun b => (b.slook (tag t)).2).modBlock bid fun b => (b.lookAll tag ps).2) gid _) gid _ = _
    rw [State.modBlock_modBlock _ _ _ _ fun b => Block.slook_bid b _, State.modGang_modGang _ _ _ _ fun g => Gang.writeReg_gid g d t _]
    simp only [Block.lookAll, List.reverse_append, List.reverse_cons, List.reverse_nil, List.nil_append, List.cons_append, List.foldl_cons]

theorem lookAll_thr (tag : Nat → Word) (ps : List Nat) (b : Block) : (b.lookAll tag ps).1.map (·.1) = ps.reverse := by
  induction ps generalizing b with
  | nil => rfl
  | cons t ps ih => simp [Block.lookAll, ih]


/-- Writing one register of some threads, one after another: the last counts. -/
theorem Gang.Effect.writes {g : Gang} (h : g.sound = true) (d : Reg) (xs : List (Nat × Word)) (hx : ∀ x ∈ xs, (g.thread? x.1).isSome = true) :
    (xs.foldr (fun x g => g.writeReg d x.1 x.2) g).sound = true ∧
    g.Effect (xs.foldr (fun x g => g.writeReg d x.1 x.2) g) (fun n r => if r = d then alGet xs n else none) Thread.view := by
  induction xs with
  | nil => exact ⟨h, .refl g, fun n r => by simp [alGet], fun n => ⟨id, fun _ _ => ⟨rfl, rfl⟩, by simp⟩⟩
  | cons x xs ih =>
    obtain ⟨i1, i2⟩ := ih fun y hy => hx y (by simp [hy])
    set g1 := xs.foldr (fun x g => g.writeReg d x.1 x.2) g with hg1
    simp only [List.foldr_cons]
    have hsome : (g1.thread? x.1).isSome = true := by
      obtain ⟨f, -, e⟩ := i2.threads x.1
      rw [e]; simpa using hx x (by simp)
    obtain ⟨y, hy⟩ := Option.isSome_iff_exists.mp hsome
    refine ⟨Gang.sound_writeReg i1 _ _ _, i2.apart.trans (.writeReg _ _ _ _), fun n r => ?_, fun n => ?_⟩
    · rw [Gang.readReg_writeReg i1 hy, i2.regs, alGet_cons]
      by_cases h1 : r = d <;> by_cases h2 : x.1 = n <;> simp_all
      rintro rfl; exact absurd rfl h2
    · obtain ⟨f, p, e⟩ := i2.threads n
      obtain ⟨f2, p2, e2⟩ := Gang.writeReg_thread? (g := g1) d x.1 n x.2
      refine ⟨f2 ∘ f, fun z hz => ?_, ?_⟩
      · have h1 := p z hz
        have h2 := p2 (f z)
        exact ⟨h2.1.trans h1.1, h2.2.1.trans h1.2⟩
      · rw [e2, e, Option.map_map]


theorem State.env?_block {s : State} {gid : Nat} {e : Env} (h : s.env? gid = some e) : s.block? e.b.bid = some e.b ∧ e.g.bid = e.b.bid := by
  unfold State.env? at h
  cases hg : s.gang? gid with
  | none => simp [hg] at h
  | some g =>
    simp only [hg, Option.bind_some, Option.bind_eq_some_iff, Option.some.injEq] at h
    obtain ⟨b, hb, l, -, c, -, rfl⟩ := h
    have : b.bid = g.bid := find_key (key := Block.bid) hb
    exact ⟨by rw [← hb, this], this.symm⟩

theorem foldl_modBlock (bid : Nat) (f : Nat → Block → Block) (hf : ∀ n b, (f n b).bid = b.bid) (ps : List Nat) (s : State) :
    ps.foldl (fun s t => s.modBlock bid (f t)) s = s.modBlock bid fun b => ps.foldl (fun b t => f t b) b := by
  induction ps generalizing s with
  | nil => simp [State.modBlock]
  | cons t ps ih => rw [List.foldl_cons, ih, State.modBlock_modBlock _ _ _ _ (hf t)]; rfl

theorem foldl_cx (gid : Nat) (e : Env) (f : Nat → Posting) (xs : List Nat) (s0 s : State) (k : Nat) (ops : List Op)
    (hs : ∃ gs, s = { s0 with ops := ops, nextId := s0.nextId + k, gangs := gs }) :
    ∃ h : Thread → Thread, (∀ x, (h x).thr = x.thr ∧ (h x).k = x.k ∧ (h x).view = x.view) ∧
      xs.foldl (fun s n => (s.post e (f n).thrs (f n).cls (f n).cnt (f n).kind (f n).pages (f n).hold).modThread gid n fun x => { x with relist := none }) s =
      { s.modGang gid (fun g => { g with threads := g.threads.map h }) with
        ops := ops ++ xs.mapIdx fun j x => s0.posting e (s0.nextId + k + j) (f x), nextId := s0.nextId + k + xs.length } := by
  obtain ⟨gs, rfl⟩ := hs
  induction xs generalizing k ops gs with
  | nil => exact ⟨id, fun x => ⟨rfl, rfl, rfl⟩, by simp [State.modGang]⟩
  | cons x xs ih =>
    rw [List.foldl_cons]
    set s1 := State.modThread (State.post { s0 with ops := ops, nextId := s0.nextId + k, gangs := gs } e (f x).thrs (f x).cls (f x).cnt (f x).kind (f x).pages (f x).hold)
      gid x fun x => { x with relist := none } with hs1
    have e1 : s1 = { s0 with ops := ops ++ [s0.posting e (s0.nextId + k) (f x)], nextId := s0.nextId + (k + 1), gangs := gs.map (fun g => if g.gid = gid then Gang.modThread g x (fun y => { y with relist := none }) else g) } := rfl
    obtain ⟨h, hp, hh⟩ := ih (k + 1) (ops ++ [s0.posting e (s0.nextId + k) (f x)]) _
    refine ⟨fun y => h (if y.thr = x then { y with relist := none } else y), fun y => ?_, ?_⟩
    · obtain ⟨p1, p2, p3⟩ := hp (if y.thr = x then { y with relist := none } else y)
      dsimp only
      rw [p1, p2, p3]
      split <;> exact ⟨rfl, rfl, rfl⟩
    · rw [e1, hh]
      have e2 : ∀ j, s0.nextId + (k + 1) + j = s0.nextId + k + (j + 1) := fun j => by omega
      unfold State.modGang Gang.modThread
      simp only [List.mapIdx_cons, List.append_assoc, List.singleton_append, List.length_cons, Nat.add_zero, e2, List.map_map]
      congr 1
      apply List.map_congr_left
      intro g' _
      by_cases hgid : g'.gid = gid <;> simp [hgid, Function.comp_def]


theorem firstUse_same {s u : State} {bid off : Nat} (h : s.firstUse bid off = some u) : u.gangs = s.gangs ∧ u.cur = s.cur := by
  unfold State.firstUse at h
  dsimp only at h
  split at h
  · cases h; exact ⟨rfl, rfl⟩
  · split at h
    · cases h; exact ⟨rfl, rfl⟩
    · split at h
      · cases h
      · cases h
        unfold State.putBobj
        obtain ⟨m, w, p, o, c, h⟩ := State.append_eq (s.modBlock bid fun b => { b with wblist := if off ∈ b.wblist then b.wblist else b.wblist ++ [off] })
          (scratchLoc bid off) (leBytes 16 (BObj.toNat { s.bobj bid off with exp := s.liveThreads bid, rem := s.liveThreads bid, init := true })) false [.block bid]
        rw [h]; exact ⟨rfl, rfl⟩

theorem bkst_fold (gid : Nat) (d : Reg) (v : Nat → Bool → Word) (ps : List Nat) (s : State) (k : Nat) :
    ps.foldl (fun (s : State) t => (s.freeFlag.2).modGang gid fun g => g.writeReg d t (v t s.freeFlag.1)) { s with free := s.free + k } =
      State.modGang { s with free := s.free + k + ps.length } gid fun g =>
        ((ps.mapIdx fun j t => (t, v t (Config.freeBit (s.free + k + j)))).reverse).foldr (fun x g => g.writeReg d x.1 x.2) g := by
  induction ps generalizing s k with
  | nil => simp [State.modGang]
  | cons t ps ih =>
    rw [List.foldl_cons]
    have e1 : (State.freeFlag { s with free := s.free + k }).2.modGang gid (fun g => g.writeReg d t (v t (State.freeFlag { s with free := s.free + k }).1)) =
      { s.modGang gid (fun g => g.writeReg d t (v t (Config.freeBit (s.free + k)))) with free := (s.modGang gid (fun g => g.writeReg d t (v t (Config.freeBit (s.free + k))))).free + (k + 1) } := rfl
    rw [e1, ih]
    show State.modGang (State.modGang { s with free := s.free + (k + 1) + ps.length } gid _) gid _ = _
    rw [State.modGang_modGang _ _ _ _ fun g => Gang.writeReg_gid g d t _]
    have e2 : s.free + (k + 1) + ps.length = s.free + k + (ps.length + 1) := by omega
    have e3 : ∀ j, s.free + (k + 1) + j = s.free + k + (j + 1) := fun j => by omega
    simp only [List.length_cons, List.mapIdx_cons, List.foldr_reverse, List.foldl_cons, State.modGang_free, e2, e3, Nat.add_zero]


theorem cellOf_peer {e : Env} {i : Instr} {need : Need} {cls cnt : Cls} {hold : Bool} {kind : Nat → Resolved → Word → OpKind}
    (hi : ∀ n, cellOf e n i = some (need, cls, cnt, hold, kind n)) : need.peer = false := by
  have := hi 0
  cases i <;> simp only [cellOf, reduceCtorEq, Option.some.injEq, Prod.mk.injEq] at this <;> obtain ⟨rfl, -⟩ := this <;> rfl

end Sys2Proof.Machine
end

