-- ==== Sys2Proof/Tests/Slice0.lean ====
section
/-! SUPPORT. Tests: words written out from the spec's encodings, ill-formed terms, one step of some instructions, and for every statement
states that meet its hypotheses. -/

namespace Sys2Proof.Tests
set_option Elab.async false
open Host Sys2Proof Sys2Proof.Machine

def gT : Guard := ⟨7, false⟩
def gN : Guard := ⟨2, true⟩
/-- Never true: not PT. -/
def gF : Guard := ⟨7, true⟩

/-! ### Decoding (R53 to R67): words written out from the encoding tables of the spec -/

def decodes (l : List (List W32 × Instr)) : Bool := l.all fun e => decodeList e.1 == some (e.2, e.1.length)

theorem test_decode_short : decodes [
  ([0xF3020108], .iaddS 1 2 0xF3),
  ([0xF302010C], .isubS 1 2 0xF3),
  ([0xF3020110], .andS 1 2 0xF3),
  ([0xF3020114], .orS 1 2 0xF3),
  ([0xF3020118], .xorS 1 2 0xF3),
  ([0xF302011C], .shlS 1 2 0xF3),
  ([0xF3020120], .shrS 1 2 0xF3),
  ([0xF3020124], .imulS 1 2 0xF3),
  ([0xF3020128], .faddF32S 1 2 0xF3),
  ([0xF302012C], .fmulF32S 1 2 0xF3),
  ([0xF3020130], .faddF32x2S 1 2 0xF3),
  ([0xF3020134], .fmulF32x2S 1 2 0xF3),
  ([0xF3020138], .faddBf16x4S 1 2 0xF3),
  ([0xF302013C], .fmulBf16x4S 1 2 0xF3),
  ([0xF3020140], .iaddImmS 1 2 0xF3),
  ([0xF3020144], .shlImmS 1 2 0xF3),
  ([0xF3020148], .shrImmS 1 2 0xF3),
  ([0xF302014C], .ldB64S 1 2 0xF3),
  ([0xF3020150], .stB64S 1 2 0xF3),
  ([0x20104], .movS 1 2),
  ([0x90054], .retS 9),
  ([0x58], .exitS),
  ([0x60], .yieldS),
  ([0x31F05C], .waitS 0 15 1 3)] = true := by decide +kernel
theorem test_decode_moves : decodes [
  ([0x80405, 0x29C00], .mov gT .e4m3x8 1 2),
  ([0x40A, 0x19C00, 0x3F800000], .movi gT .f32 1 0x3F800000),
  ([0xC08040D, 0x15C10], .sel gT .b64 1 2 (.reg 3) 4),
  ([0xC080411, 0x6800], .iadd gN .s32 1 2 (.reg 3)),
  ([0xC080415, 0xA800], .isub gN .z32 1 2 (.reg 3)),
  ([0xC080421, 0x36800], .imul gN .s16x4 1 2 (.reg 3)),
  ([0xC080425, 0xE800], .imulh gN .s64 1 2 (.reg 3)),
  ([0xC08042D, 0x12800], .idiv gN .z64 1 2 (.reg 3)),
  ([0xC080431, 0xE800], .irem gN .s64 1 2 (.reg 3)),
  ([0xC08043D, 0x3A800], .imin gN .s8x8 1 2 (.reg 3)),
  ([0xC080441, 0xA800], .imax gN .z32 1 2 (.reg 3)),
  ([0xC080445, 0x6800], .iadds gN .s32 1 2 (.reg 3)),
  ([0xC080449, 0x12800], .isubs gN .z64 1 2 (.reg 3)),
  ([0x80412, 0xDC00, 0xFFFFFFFE], .iadd gT .s64 1 2 (.lit 0xFFFFFFFE)),
  ([0x8001019, 0x251C00], .iaddc gT .z64 4 0 (.reg 2) none 1),
  ([0x800101D, 0x149C0C], .isubb gT .z32 4 0 (.reg 2) (some 3) 5),
  ([0xC080429, 0x5C10], .imad gT .s32 1 2 (.reg 3) 4),
  ([0x80435, 0xDC00], .ineg gT .s64 1 2),
  ([0x80439, 0x35C00], .iabs gT .s16x4 1 2),
  ([0xC08044D, 0x855C00], .lea gT 1 2 (.reg 3) 33)] = true := by decide +kernel
theorem test_decode_logic : decodes [
  ([0xC080451, 0x1C00], .and gT .b32 1 2 (.reg 3)),
  ([0xC080455, 0x15C00], .or gT .b64 1 2 (.reg 3)),
  ([0xC080459, 0x1C00], .xor gT .b32 1 2 (.reg 3)),
  ([0xC08045D, 0x15C00], .andn gT .b64 1 2 (.reg 3)),
  ([0xC080465, 0x1C00], .shl gT .b32 1 2 (.reg 3)),
  ([0xC080469, 0x11C00], .shr gT .z64 1 2 (.reg 3)),
  ([0xC08046D, 0x5C00], .sar gT .s32 1 2 (.reg 3)),
  ([0xC080475, 0x9C00], .bfe gT .z32 1 2 (.reg 3)),
  ([0xC080471, 0x41C00], .rot gT .b32 1 2 (.reg 3) true),
  ([0xC080479, 0x15C10], .bfi gT .b64 1 2 (.reg 3) 4),
  ([0x80461, 0x15C00], .not gT .b64 1 2),
  ([0x8047D, 0x15C00], .popc gT .b64 1 2),
  ([0x80481, 0x15C00], .clz gT .b64 1 2),
  ([0x80485, 0x15C00], .ctz gT .b64 1 2),
  ([0x80489, 0x15C00], .brev gT .b64 1 2),
  ([0x8048E, 0x15C10, 0x1234567], .bperm gT 1 2 (.lit 0x01234567) 4)] = true := by decide +kernel
theorem test_decode_predicates : decodes [
  ([0xC080491, 0x305C10], .setp gT .s32 .gt .and 1 2 (.reg 3) 4),
  ([0xC080495, 0x2581C10], .plop gT 1 2 3 4 0x96),
  ([0x2499, 0x1C00], .pmov gT (.toReg 9)),
  ([0x240099, 0x20C1C00], .pmov gT (.fromReg 9 0x41)),
  ([0x40249D, 0x1C00], .movs gT 9 0x10),
  ([0x2454A1, 0x1C00], .movsw gT 0x15 (.reg 9)),
  ([0x4CA2, 0x1C00, 0x2], .movsw gT 0x13 (.lit 2))] = true := by decide +kernel
theorem test_decode_control : decodes [
  ([0xFFE80101, 0x7FF], .bra ⟨1, false⟩ (.parcels (-6))),
  ([0x102, 0x1C00, 0x100], .bra gT (.bytes 0x100)),
  ([0xC080105, 0x1C00], .brx gT 2 (.reg 3)),
  ([0x8042109, 0x1C0C], .call gT 8 (.parcels 0x030201)),
  ([0xC08210D, 0x1C00], .callx gT 8 2 (.reg 3)),
  ([0x80111, 0x1C00], .ret gT 2),
  ([0x115, 0x2000], .exit ⟨0, true⟩),
  ([0x115, 0x41C00], .exitSaved gT),
  ([0x119, 0x1C00], .yield gT),
  ([0xBFC051D, 0x3C1C0C], .wait gT 1 0xFF 2 3 15),
  ([0x80521, 0x1C00], .wtime gT 1 2),
  ([0x125, 0xFFFC1C00], .trap gT 0x3FFF),
  ([0x129, 0x141C00], .brk gT 5),
  ([0x12D, 0x1C00], .rtt gT),
  ([0x80531, 0x201C00], .rqrd gT 1 2 8),
  ([0xC080135, 0x101C00], .rqwr gT 2 3 4),
  ([0xC080139, 0x1C00], .cbsync gT 2 3),
  ([0xC08013D, 0x1C00], .tlbinv gT 2 3),
  ([0x141, 0x1C00], .nop gT)] = true := by decide +kernel
theorem test_decode_floats : decodes [
  ([0xC080581, 0x59C00], .fadd gT .f32 .rn 1 2 (.reg 3)),
  ([0xC080585, 0x9DC00], .fsub gT .f64 .rz 1 2 (.reg 3)),
  ([0xC080589, 0xE1C00], .fmul gT .f16x4 .rp 1 2 (.reg 3)),
  ([0xC0805AD, 0x119C00], .fdiv gT .f32 .rm 1 2 (.reg 3)),
  ([0xC08058D, 0x25C10], .ffma gT .bf16x4 .dyn 1 2 (.reg 3) 4),
  ([0xC080591, 0x31C00], .fmin gT .f32x2 1 2 (.reg 3)),
  ([0xC080595, 0x31C00], .fmax gT .f32x2 1 2 (.reg 3)),
  ([0xC080599, 0x2C1DC10], .fsetp gT .f64 .num .or 1 2 (.reg 3) 4),
  ([0x8059D, 0x119C00], .frnd gT .f32 .rm 1 2),
  ([0xC0805A1, 0x59C00], .fscale gT .f32 .rn 1 2 3),
  ([0x805A5, 0x1DC00], .fclass gT .f64 1 2),
  ([0xC0805A9, 0x6DC10], .fdot gT .e5m2x8 .rn 1 2 3 4),
  ([0x805B1, 0x9DC00], .fsqrt gT .f64 .rz 1 2),
  ([0x805B5, 0x21C00], .frcp gT .f16x4 1 2),
  ([0x805B9, 0x21C00], .frsq gT .f16x4 1 2),
  ([0x805BD, 0x21C00], .fexp2 gT .f16x4 1 2),
  ([0x805C1, 0x21C00], .flog2 gT .f16x4 1 2),
  ([0x805C5, 0x21C00], .fsin gT .f16x4 1 2),
  ([0x805C9, 0x21C00], .fcos gT .f16x4 1 2),
  ([0x805CD, 0x21C00], .ftanh gT .f16x4 1 2),
  ([0x805D1, 0x21C00], .fsigm gT .f16x4 1 2)] = true := by decide +kernel
theorem test_decode_conversions : decodes [
  ([0x805D5, 0x6A61C00], .cvt gT .f16x4 .e4m3x8 .rn true 1 1 2),
  ([0xC0811D9, 0x15879C00], .cvtq gT .s8x8 .f32 .rn false 5 4 2 3),
  ([0xC0811DD, 0xA07DC14], .olpack gT .n4x16 .f16x4 .rn 2 4 2 3 5),
  ([0x805E1, 0x3DC00], .olunpk gT .n4x16 1 2),
  ([0x805E5, 0x79C00], .blkhdr gT .s8x8 .amax 1 2),
  ([0xC0805E9, 0xC059C10], .dq gT .f32 .rn 3 1 2 3 4),
  ([0x2041ED, 0x15C00], .pack gT 16 8),
  ([0x2041F1, 0x15C00], .unpack gT 16 8)] = true := by decide +kernel
theorem test_decode_lanes : decodes [
  ([0xC080641, 0x555C10], .shfl gT .b64 .up 5 1 2 3 4),
  ([0x7C080645, 0x2C1C10], .shfli gT .b32 .xor 2 1 2 31 4),
  ([0x80649, 0x441C00], .bcast gT .b32 1 2 (.lane 17)),
  ([0x80649, 0x801C00], .bcast gT .b32 1 2 .low),
  ([0x8064D, 0x1C1C00], .vote gT .eq true 1 2),
  ([0x80651, 0x59C00], .redux gT .add .f32 .rn 1 2),
  ([0x80655, 0xA11C00], .scanx gT .xor .z64 .dyn 1 2),
  ([0x80659, 0x15C0C], .matchv gT .b64 1 2 3),
  ([0x25D, 0x1C00], .lser gT),
  ([0x261, 0x1C00], .lsend gT)] = true := by decide +kernel
theorem test_decode_memory : decodes [
  ([0xC080681, 0x294DC00], .ld gT .s64 .w16 true .scratch 1 ⟨2, .reg 3, 2⟩),
  ([0x81286, 0x515C00, 0xFFFFFFF8], .st gT .b64 .w256 .generic 4 ⟨2, .lit 0xFFFFFFF8, 0⟩),
  ([0xC081289, 0x3315C00], .ldk gT 4 ⟨2, .reg 3, 3⟩),
  ([0xC08128D, 0x315C14], .stk gT 4 ⟨2, .reg 3, 0⟩ 5),
  ([0xC081291, 0x1C315C00], .ldsib gT 7 4 ⟨2, .reg 3, 0⟩),
  ([0xC081295, 0x830DC00], .rcn gT .max .s64 4 ⟨2, .reg 3, 0⟩),
  ([0xC080299, 0x5081C00], .pref gT true true ⟨2, .reg 3, 1⟩),
  ([0xC08069D, 0x219C10], .atom gT false .add .f32 1 ⟨2, .reg 3, 0⟩ 4),
  ([0xC0802A1, 0x14355C10], .red gT true .xor .b64 ⟨2, .reg 3, 0⟩ 4),
  ([0xC0806A5, 0x241C10], .acas gT true .b32 1 ⟨2, .reg 3, 0⟩ 4),
  ([0x806A9, 0x15C00], .slook gT 1 2),
  ([0xC0802AD, 0x15C00], .stag gT 2 3),
  ([0x802B1, 0x41C00], .cpy gT true 2 0),
  ([0xC0802B5, 0x1C00], .cpyg gT false 2 3),
  ([0x12B9, 0x40081C00], .fence gT .die 2 32),
  ([0x2BD, 0x1C00], .ofence gT)] = true := by decide +kernel
theorem test_decode_barriers : decodes [
  ([0xC080341, 0x1C10], .barinit gT 2 3 4),
  ([0x2C2B45, 0x1C00], .arrive gT 10 11),
  ([0x8034A, 0x1C00, 0x40], .expect gT 2 (.lit 64)),
  ([0x282C034D, 0x1C00], .bwait gT 11 10),
  ([0x282C0F4D, 0x41C30], .bwaitTo gT 3 11 10 12),
  ([0x282C0F51, 0x1C00], .btest gT 3 11 10),
  ([0x2C0355, 0x1C00], .bdrop gT 11)] = true := by decide +kernel
theorem test_decode_effects : decodes [
  ([0xC080F5A, 0xFFFC1C10, 0x40], .hpush gT true true 2 3 4 0x3FFF 0x40),
  ([0x8035D, 0x1C00], .hpop gT 2),
  ([0x202362, 0x400, 0x42], .perform ⟨1, false⟩ 8 (.lit 0x42) 8),
  ([0xC080365, 0x1C00], .resume gT 2 (.reg 3)),
  ([0xC080369, 0x1C00], .resumem gT 2 (.reg 3)),
  ([0x8036D, 0x1C00], .drop gT 2),
  ([0x80771, 0x1C00], .tokst gT 1 2)] = true := by decide +kernel
theorem test_decode_recipes : decodes [
  ([0x10080782, 0x101C0C, 0x80], .rcp gT 4 1 2 3 4 0x80),
  ([0x385, 0x1C00], .rend gT),
  ([0x240389, 0x1C00], .rmat gT 9),
  ([0x24038D, 0x1C00], .rdrop gT 9),
  ([0x24038D, 0x41C00], .rdropKill gT 9),
  ([0x240791, 0x1C00], .rstat gT 1 9),
  ([0x803A1, 0x1C00], .cclose gT 2),
  ([0xC0803A5, 0x1C00], .cappend gT 2 3),
  ([0x807A9, 0x1C0C], .ctake gT 1 3 2),
  ([0x803AD, 0x1C00], .cdone gT 2),
  ([0xC0803B1, 0x1C00], .cquiet gT 2 3)] = true := by decide +kernel
theorem test_decode_engines : decodes [
  ([0x803C1, 0x41C00], .mldw gT 1 2),
  ([0x3C5, 0x41C00], .mswap gT 1),
  ([0x803C9, 0x5A2C1C00], .mpass gT 6 true true 1 5 2),
  ([0x3CD, 0x3F01C00], .mzero gT 60 3),
  ([0x13D1, 0xBC1D5C00], .mmov gT .b64 2 4 7 60),
  ([0x803D5, 0x1241C00], .msta gT true 2 9),
  ([0x803E1, 0x1C00], .bkmv gT 2),
  ([0x803E5, 0x1C00], .bkgth gT 2),
  ([0x807E9, 0x1C00], .bkst gT 1 2)] = true := by decide +kernel

/-- The words that the spec prints: SETP (R101), IADDC (R93), EXIT and BRA (Fragment 1), FADD, MOVI, FSETP, ARRIVE and BWAIT (R178), FENCE
(R251), PERFORM (R186). -/
theorem test_decode_printed : decodes [
  ([0x14000091, 0x00091C00], .setp gT .z64 .lt .plain 0 0 (.reg 5) 0), ([0x08001019, 0x00251C00], .iaddc gT .z64 4 0 (.reg 2) none 1),
  ([0x00000115, 0x00002000], .exit ⟨0, true⟩), ([0xFFE80101, 0x000007FF], .bra ⟨1, false⟩ (.parcels (-6))),
  ([0x201C2581, 0x00059C00], .fadd gT .f32 .rn 9 7 (.reg 8)), ([0x00002C0A, 0x00015C00, 0], .movi gT .b64 11 0),
  ([0x001C059A, 0x00419C00, 0], .fsetp gT .f32 .lt .plain 1 7 (.lit 0) 0), ([0x002C2B45, 0x00001C00], .arrive gT 10 11),
  ([0x282C034D, 0x00001C00], .bwait gT 11 10), ([0x000012B9, 0x40081C00], .fence gT .die 2 32),
  ([0x00202362, 0x00000400, 0x42], .perform ⟨1, false⟩ 8 (.lit 0x42) 8)] = true := by decide +kernel

/-- Reserved encodings (R65, R67): form 11, an unassigned op8 and op6, a predicate field above 7, a rounding mode 101, a field that must be
zero, an X form of an L-only instruction. -/
theorem test_decode_reserved : ([[0x3], [0xFFFFFFFF], [0x0], [0x64], [0x3FD, 0x1C00], [0x14002091, 0x00091C00], [0x201C2581, 0x00159C00],
  [0x80405, 0x29C01], [0x80406, 0x29C00, 0]] : List (List W32)).all (fun w => decodeList w == none) = true := by decide +kernel

/-! ### Ill-formed terms, one for each check of WellFormed -/

theorem test_ill_formed : ([
  .waitS 0 4 0 0, .movi gT .f16x4 1 0x10000, .movi gT .s8x8 1 0x100, .movi gT .n4x16 1 0x10, .sel gT .s16x4 1 2 (.lit 0x10000) 0,
  .iadd gT .f32 1 2 (.reg 3), .isub gT .s8x8 1 2 (.lit 0x100), .imad gT .n4x16 1 2 (.reg 3) 4, .iaddc gT .s32 1 2 (.reg 3) none 0,
  .isubb gT .b64 1 2 (.reg 3) none 0, .imulh gT .b32 1 2 (.reg 3), .idiv gT .s16x4 1 2 (.reg 3), .ineg gT .z32 1 2, .iabs gT .b64 1 2,
  .imin gT .b32 1 2 (.reg 3), .iadds gT .b64 1 2 (.reg 3), .and gT .s32 1 2 (.reg 3), .bfi gT .z64 1 2 (.reg 3) 4, .not gT .f32 1 2,
  .shr gT .b32 1 2 (.reg 3), .sar gT .z64 1 2 (.reg 3), .bfe gT .b64 1 2 (.reg 3), .setp gT .b32 .lt .plain 0 1 (.reg 2) 0,
  .setp gT .f32 .eq .plain 0 1 (.reg 2) 0, .setp gT .s32 .eq .plain 0 1 (.reg 2) 1, .bra gT (.bytes 2), .call gT 1 (.bytes 1), .rqrd gT 1 2 9,
  .rqwr gT 1 2 15, .fadd gT .s32 .rn 1 2 (.reg 3), .fmin gT .e4m3x8 1 2 (.reg 3), .ffma gT .f16x4 .rn 1 2 (.lit 0x10000) 3,
  .fsetp gT .f16x4 .eq .plain 0 1 (.reg 2) 0, .fsetp gT .f32 .eq .plain 0 1 (.reg 2) 1, .frnd gT .b32 .rn 1 2, .fclass gT .f16x4 1 2,
  .fdot gT .f32 .rn 1 2 3 4, .frcp gT .f64 1 2, .cvt gT .b32 .f32 .rn false 0 1 2, .cvt gT .f16x4 .f32 .rn false 4 1 2,
  .cvtq gT .f32 .f32 .rn false 0 1 2 3, .cvtq gT .s8x8 .f32 .rn true 0 1 2 3, .cvtq gT .s8x8 .f32 .rn false 0 255 2 3,
  .olpack gT .f32 .f32 .rn 0 1 2 3 4, .olunpk gT .b32 1 2, .blkhdr gT .f32 .amax 1 2, .blkhdr gT .s8x8 .zero 1 2, .dq gT .s32 .rn 0 1 2 3 4,
  .pack gT 249 8, .unpack gT 8 249, .shfl gT .f32 .idx 0 1 2 3 0, .shfli gT .b32 .idx 6 1 2 3 0, .bcast gT .s64 1 2 .low, .vote gT .all false 8 0,
  .redux gT .and .f32 .dyn 1 2, .scanx gT .min .f32 .rn 1 2, .matchv gT .f32 1 2 0, .ld gT .b64 .w32 false .generic 1 ⟨2, .reg 3, 0⟩,
  .ld gT .b64 .w256 false .generic 253 ⟨2, .reg 3, 0⟩, .st gT .b64 .w64 .constant 1 ⟨2, .reg 3, 0⟩, .ldk gT 1 ⟨2, .reg 3, 1⟩,
  .ldk gT 255 ⟨2, .reg 3, 0⟩, .stk gT 1 ⟨2, .reg 3, 2⟩ 4, .ldsib gT 7 240 ⟨2, .reg 3, 0⟩, .rcn gT .min .b64 1 ⟨2, .reg 3, 0⟩,
  .rcn gT .and .f64 1 ⟨2, .reg 3, 0⟩, .atom gT false .and .s32 1 ⟨2, .reg 3, 0⟩ 4, .red gT false .add .b32 ⟨2, .reg 3, 0⟩ 4,
  .acas gT false .s32 1 ⟨2, .reg 3, 0⟩ 4, .acas gT false .b32 1 ⟨2, .reg 3, 0⟩ 255, .cpy gT true 2 1, .cpyg gT true 2 1,
  .hpush gT false false 2 3 4 0 0, .hpush gT true false 2 3 4 0 2, .perform gT 1 (.lit 0xFF00) 2, .rcp gT 5 0 0 0 0 0, .rcp gT 1 1 2 0 0 0,
  .rcp gT 0 0 0 0 0 2, .mpass gT 0 false false 0 0 2, .mpass gT 7 false false 0 0 2, .mzero gT 60 4, .mmov gT .b32 1 4 0 0, .mmov gT .f32 0 4 0 0,
  .mmov gT .b64 3 4 0 0, .mmov gT .f32x2 2 4 0 61, .mmov gT .f32x2 2 253 0 0] : List Instr).all (fun i => !i.wf) = true := by decide +kernel

/-! ### A small machine: one gang of one thread about to execute -/

/-- A context with a data page at 2^21 and a KEEP page at 2^22. -/
def ctx1 : Context :=
  { firstCtx 1 with pages := [pageOf firstLine 65536 firstLine 5 none, pageOf 0x200000 65536 0x200000 3 none, pageOf 0x400000 65536 0x400000 0xB none] }

/-- A thread 0 of gang 2, in block 1 with 4096 bytes of scratchpad, two tags, two tiles and a pair; the first fetch line, with a short YIELD and
pads; the given registers and the instruction at the line's first parcel in the issue slot. -/
def small (rs : List (Nat × Nat)) : State :=
  let s := State.reset.withFetchWord 32 0x60
  { s with
    contexts := [ctx1],
    blocks := s.blocks.map fun b => { b with ssize := 4096, tags := [BitVec.allOnes 64, BitVec.allOnes 64], recency := [0, 1], tiles := [Tile.zero, Tile.zero],
                                             pairs := [⟨Plane.empty, Plane.empty⟩] },
    gangs := s.gangs.map fun g => { g with rods := rs.map fun r => (r.1, .value (BitVec.ofNat 64 r.2 :: List.replicate 31 0)) },
    cur := { gid := 2, pc := firstLine + 4, next := firstLine + 8, mask := [0], enc := 0x60, lit := 0, len := 1, pair := none, cap := none, second := false,
             regens := [], late := 0 } }

def onGang (s : State) (f : Gang → Gang) : State := { s with gangs := s.gangs.map f }
def onThread (s : State) (f : Thread → Thread) : State := onGang s fun g => { g with threads := g.threads.map f }
def onBlock (s : State) (f : Block → Block) : State := { s with blocks := s.blocks.map f }
def onLaunch (s : State) (f : Launch → Launch) : State := { s with launches := s.launches.map f }
/-- In trap mode, with an empty replay queue. -/
def trapped (s : State) : State := onGang s fun g => { g with trap := some ⟨0x10, 0, [0], []⟩ }

/-- The instruction is at hand in the slot, and its environment meets `p`. -/
def hand (i : Instr) (s : State) (p : Env → Bool) : Bool :=
  match s.env? s.cur.gid with
  | some e => s.cur.cap.isNone && s.cur.regens.isEmpty && !(e.g.spec.isSome && (waitsConfirm i || e.g.specFull)) && !s.specWaits e i (participants s e.g i)
      && s.sourcesReady e i (readers s e i)
      && s.rodsReady e (s.rodsWritten e i) && p e
  | none => false

theorem hand_spec {i : Instr} {s : State} {p : Env → Bool} (h : hand i s p = true) : ∃ e, AtHand i s e ∧ p e = true := by
  unfold hand at h
  split at h
  next e he =>
    simp only [Bool.and_eq_true, Option.isNone_iff_eq_none, Bool.not_eq_true', List.isEmpty_iff] at h
    exact ⟨e, ⟨he, h.1.1.1.1.1.1, h.1.1.1.1.1.2, h.1.1.1.1.2, h.1.1.1.2, h.1.1.2, h.1.2⟩, h.2⟩
  next => exact absurd h (by decide)

/-- The step that the instruction takes, as a state. -/
def after (i : Instr) (s : State) : State := match exec i s with | .next t => t | _ => s

/-- Some environment has the instruction at hand and meets `p`. -/
def Meets (i : Instr) (s : State) (p : Env → Bool) : Prop := ∃ e, AtHand i s e ∧ p e = true

theorem meets {i : Instr} {s : State} {p : Env → Bool} (h : hand i s p = true) : Meets i s p := hand_spec h

def yes (_ : Env) : Bool := true
def sound (e : Env) : Bool := e.g.sound
/-- The thread that takes part is thread 0. -/
def alone (i : Instr) (s : State) (e : Env) : Bool := participants s e.g i == [0]
def isOk {ε α : Type} (x : Except ε α) : Bool := match x with | .ok _ => true | .error _ => false

/-! ### States that meet the hypotheses of the statements about instructions -/

theorem witness_LaneCompletes : Meets (.iadd gT .s64 1 2 (.reg 3)) (small [(2, 5), (3, 7)]) fun e => isLane (.iadd gT .s64 1 2 (.reg 3)) && e.g.sound :=
  meets (by decide +kernel)

theorem witness_SpecialRegisters_reads : Meets (.movs gT 1 0) (small []) sound ∧ Meets (.movs gT 1 0x1F) (small []) sound ∧ Meets (.movs gT 1 0x25) (trapped (small [])) fun e => e.g.sound && e.g.trap.isSome :=
  ⟨meets (by decide +kernel), meets (by decide +kernel), meets (by decide +kernel)⟩

def fpcOk (s : State) (v : W32) (e : Env) : Bool :=
  (participants s e.g (.movsw gT 0x13 (.lit v))).all fun n => let k := (e.operand n (Opnd.lit v).srcZ).toNat % 8; 1 ≤ k && k ≤ 4

theorem witness_SpecialRegisters_legal : Meets (.movsw gT 0x13 (.lit 1)) (small []) (fpcOk (small []) 1) ∧ Meets (.movsw gT 0x13 (.lit 4)) (small []) (fpcOk (small []) 4) ∧
    Meets (.movsw gT 0x21 (.lit 0)) (trapped (small [])) fun e => e.g.trap.isSome :=
  ⟨meets (by decide +kernel), meets (by decide +kernel), meets (by decide +kernel)⟩
theorem witness_SpecialRegisters_tmr : Meets (.movsw gT 0x12 (.lit 9)) (small []) fun e => (participants (small []) e.g (.movsw gT 0x12 (.lit 9))).getLast? == some 0 :=
  meets (by decide +kernel)
theorem witness_SpecialRegisters_tmask : Meets (.movsw gT 0x22 (.lit 0)) (trapped (small [])) fun e =>
    (participants (trapped (small [])) e.g (.movsw gT 0x22 (.lit 0))).getLast? == some 0 && e.g.trap == some ⟨0x10, 0, [0], []⟩ :=
  meets (by decide +kernel)

/-- A branch to itself, in both forms. -/
theorem witness_TransfersComplete : (∀ i ∈ [.bra gT (.parcels 0), .bra gT (.bytes 0), .ret gT 2, .retS 2, .callx gT 1 2 (.lit 0)],
    hand i (small [(2, firstLine + 4)]) (fun e => e.g.sound && (match transferOf (small [(2, firstLine + 4)]) e i with
      | some (_, target) => (participants (small [(2, firstLine + 4)]) e.g i).all fun n =>
          checkTarget (small [(2, firstLine + 4)]) e.c (e.place n).units true (target n) == .ok (firstLine + 4)
      | none => false)) = true) := by decide +kernel

theorem witness_PacingCompletes : (∀ i ∈ [.nop gT, .yieldS, .yield gT, .pref gT false false ⟨2, .lit 0, 0⟩, .waitS 0 0 15 15, .wait gT 0 0xFF 0 0 15, .lsend gT],
    hand i (small []) (fun e => (participants (small []) e.g i).all fun n => !waitsAt (small []) 2 n i && (e.g.thread? n).all fun x => x.lser != .turn) = true) := by
  decide +kernel
theorem witness_PacingCompletes_wtime : Meets (.wtime gT 1 2) (small [(2, 0)]) fun e => e.g.sound &&
    (participants (small [(2, 0)]) e.g (.wtime gT 1 2)).all fun n => (e.g.readReg 2 n).toNat ≤ (small [(2, 0)]).wall e.b.die := meets (by decide +kernel)
theorem witness_PacingCompletes_lser : Meets (.lser gT) (small []) fun e => alone (.lser gT) (small []) e && (small []).turnFree e e.g &&
    e.g.threads.all fun y => !decide (y.thr < 0) := meets (by decide +kernel)
def inTurn : State := onThread (small []) fun x => { x with lser := .turn }
theorem witness_PacingCompletes_lsend : Meets (.lsend gT) inTurn fun e => alone (.lsend gT) inTurn e && (e.g.thread? 0).map (·.lser) == some .turn :=
  meets (by decide +kernel)

theorem witness_VotesComplete : Meets (.vote gT .ballot false 1 7) (small []) sound ∧ Meets (.redux gT .add .f32 .rn 1 2) (small [(2, 0x3F800000)]) sound ∧
    Meets (.scanx gT .xor .z64 .dyn 1 2) (small [(2, 1)]) sound ∧ Meets (.matchv gT .b64 1 2 0) (small [(2, 1)]) sound :=
  ⟨meets (by decide +kernel), meets (by decide +kernel), meets (by decide +kernel), meets (by decide +kernel)⟩

/-- Sources: the thread itself; a position never launched; outside the segment. -/
theorem witness_ShufflesComplete : Meets (.shfli gT .b64 .idx 0 1 2 0 0) (small [(2, 9)]) (fun e => e.g.sound &&
      crossSource e [0] 0 (.shfli gT .b64 .idx 0 1 2 0 0) == some 0 && alone (.shfli gT .b64 .idx 0 1 2 0 0) (small [(2, 9)]) e) ∧
    Meets (.bcast gT .b32 1 2 (.lane 31)) (small [(2, 9)]) (fun e => e.g.sound && crossSource e [0] 0 (.bcast gT .b32 1 2 (.lane 31)) == some 31 &&
      (e.g.thread? 31).isNone) ∧
    Meets (.shfli gT .b64 .up 5 1 2 1 0) (small [(2, 9)]) fun e => e.g.sound && crossSource e [0] 0 (.shfli gT .b64 .up 5 1 2 1 0) == none :=
  ⟨meets (by decide +kernel), meets (by decide +kernel), meets (by decide +kernel)⟩

def data : Nat := 0x200000
def keepAt : Nat := 0x400000

def loadsAt (i : Instr) (s : State) (sp : Space) (use : Use) (bytes : Nat) (e : Env) : Bool := alone i s e && e.g.spec.isNone &&
  (participants s e.g i).all fun n => (accessCheck s e sp use bytes [] (e.ea i n)).isNone && isOk (resolveAt e sp use (e.ea i n)) && s.wcnt 2 n .ld < 254

/-- The first byte of the page; the last 32 bytes of it; the S form; the last byte of the scratchpad window's allocation; the constant space. -/
theorem witness_AccessesPost_loads :
    Meets (.ld gT .b64 .w8 false .generic 1 ⟨2, .lit 0, 0⟩) (small [(2, data)])
      (loadsAt (.ld gT .b64 .w8 false .generic 1 ⟨2, .lit 0, 0⟩) (small [(2, data)]) .generic .load 1) ∧
    Meets (.ld gT .b64 .w256 false .generic 4 ⟨2, .lit 0, 0⟩) (small [(2, data + 65504)])
      (loadsAt (.ld gT .b64 .w256 false .generic 4 ⟨2, .lit 0, 0⟩) (small [(2, data + 65504)]) .generic .load 32) ∧
    Meets (.ldB64S 1 2 3) (small [(2, data), (3, 1)]) (loadsAt (.ldB64S 1 2 3) (small [(2, data), (3, 1)]) .generic .load 8) ∧
    Meets (.ld gT .z64 .w8 false .scratch 1 ⟨2, .lit 0, 0⟩) (small [(2, 4095)])
      (loadsAt (.ld gT .z64 .w8 false .scratch 1 ⟨2, .lit 0, 0⟩) (small [(2, 4095)]) .scratch .load 1) ∧
    Meets (.ld gT .b64 .w64 false .constant 1 ⟨2, .lit 0, 0⟩) (small [(2, data)])
      (loadsAt (.ld gT .b64 .w64 false .constant 1 ⟨2, .lit 0, 0⟩) (small [(2, data)]) .constant .constant 8) :=
  ⟨meets (by decide +kernel), meets (by decide +kernel), meets (by decide +kernel), meets (by decide +kernel), meets (by decide +kernel)⟩

def storesAt (i : Instr) (s : State) (sp : Space) (bytes : Nat) (e : Env) : Bool := alone i s e && !e.l.det &&
  (participants s e.g i).all fun n => (accessCheck s e sp .store bytes [] (e.ea i n)).isNone && isOk (resolveAt e sp .store (e.ea i n)) && s.wcnt 2 n .st < 254

/-- Plain memory at the end of a page, a KEEP slot, scratchpad, the S form. -/
theorem witness_AccessesPost_stores :
    Meets (.st gT .b64 .w256 .generic 4 ⟨2, .lit 0, 0⟩) (small [(2, data + 65504)])
      (storesAt (.st gT .b64 .w256 .generic 4 ⟨2, .lit 0, 0⟩) (small [(2, data + 65504)]) .generic 32) ∧
    Meets (.st gT .b64 .w64 .generic 1 ⟨2, .lit 0, 0⟩) (small [(1, 7), (2, keepAt)])
      (storesAt (.st gT .b64 .w64 .generic 1 ⟨2, .lit 0, 0⟩) (small [(1, 7), (2, keepAt)]) .generic 8) ∧
    Meets (.st gT .z64 .w8 .scratch 1 ⟨2, .lit 0, 0⟩) (small [(2, 4095)])
      (storesAt (.st gT .z64 .w8 .scratch 1 ⟨2, .lit 0, 0⟩) (small [(2, 4095)]) .scratch 1) ∧
    Meets (.stB64S 1 2 3) (small [(2, data)]) (storesAt (.stB64S 1 2 3) (small [(2, data)]) .generic 8) :=
  ⟨meets (by decide +kernel), meets (by decide +kernel), meets (by decide +kernel), meets (by decide +kernel)⟩

def atomsAt (i : Instr) (s : State) (sp : Space) (bytes : Nat) (c : Cls) (e : Env) : Bool := alone i s e && (atomicOf e i).isSome &&
  (participants s e.g i).all fun n => (accessCheck s e sp .atomic bytes [] (e.ea i n)).isNone && isOk (resolveAt e sp .atomic (e.ea i n)) && s.wcnt 2 n c < 254

theorem witness_AtomicsPost :
    Meets (.atom gT false .add .s32 1 ⟨2, .lit 0, 0⟩ 3) (small [(2, data)]) (atomsAt (.atom gT false .add .s32 1 ⟨2, .lit 0, 0⟩ 3) (small [(2, data)]) .generic 4 .ld) ∧
    Meets (.atom gT false .xor .b64 1 ⟨2, .lit 0, 0⟩ 3) (small [(2, keepAt)]) (atomsAt (.atom gT false .xor .b64 1 ⟨2, .lit 0, 0⟩ 3) (small [(2, keepAt)]) .generic 8 .ld) ∧
    Meets (.red gT true .max .z64 ⟨2, .lit 0, 0⟩ 3) (small [(2, 4088)]) (atomsAt (.red gT true .max .z64 ⟨2, .lit 0, 0⟩ 3) (small [(2, 4088)]) .scratch 8 .st) ∧
    Meets (.acas gT false .b32 1 ⟨2, .lit 0, 0⟩ 3) (small [(2, data)]) (atomsAt (.acas gT false .b32 1 ⟨2, .lit 0, 0⟩ 3) (small [(2, data)]) .generic 4 .ld) :=
  ⟨meets (by decide +kernel), meets (by decide +kernel), meets (by decide +kernel), meets (by decide +kernel)⟩

/-- `cellFits` at the first slot of the KEEP page, part by part. -/
def cellsAt (i : Instr) (s : State) (need : Need) (c : Cls) (e : Env) : Bool := alone i s e && (cellOf e 0 i).isSome &&
  (participants s e.g i).all fun n => e.ea i n % 32 == 0 && isOk (access e.c (some e.b) { need with keep := true } (e.ea i n)) && s.cells.isEmpty &&
    (match i with | .stk _ _ _ r => (e.g.readReg r n).toNat / 2 ^ 48 == hash16 (e.ea i n) && !e.l.det | .rcn .. => !e.l.det | _ => true) && s.wcnt 2 n c < 254

theorem witness_CellsPost :
    Meets (.ldk gT 4 ⟨2, .lit 0, 0⟩) (small [(2, keepAt)]) (cellsAt (.ldk gT 4 ⟨2, .lit 0, 0⟩) (small [(2, keepAt)]) { r := true } .ld) ∧
    Meets (.ldsib gT 7 4 ⟨2, .lit 0, 0⟩) (small [(2, keepAt + 65504)])
      (cellsAt (.ldsib gT 7 4 ⟨2, .lit 0, 0⟩) (small [(2, keepAt + 65504)]) { r := true } .ld) ∧
    Meets (.stk gT 4 ⟨2, .lit 0, 0⟩ 3) (small [(2, keepAt), (3, hash16 keepAt * 2 ^ 48)])
      (cellsAt (.stk gT 4 ⟨2, .lit 0, 0⟩ 3) (small [(2, keepAt), (3, hash16 keepAt * 2 ^ 48)]) { w := true } .st) ∧
    Meets (.rcn gT .add .s64 4 ⟨2, .lit 0, 0⟩) (small [(2, keepAt)]) (cellsAt (.rcn gT .add .s64 4 ⟨2, .lit 0, 0⟩) (small [(2, keepAt)]) { r := true, w := true } .ld) :=
  ⟨meets (by decide +kernel), meets (by decide +kernel), meets (by decide +kernel), meets (by decide +kernel)⟩

theorem witness_FencesComplete : Meets (.fence gT .die 2 32) (small []) yes ∧ Meets (.fence gT .system 0 127) (small []) yes ∧
    Meets (.ofence gT) (small []) fun e => (participants (small []) e.g (.ofence gT)).all fun n => (small []).observedOut (e.place n) :=
  ⟨meets (by decide +kernel), meets (by decide +kernel), meets (by decide +kernel)⟩

/-- The last slot of the two. -/
theorem witness_TagsComplete : Meets (.slook gT 1 2) (small [(2, 9)]) sound ∧
    Meets (.stag gT 2 3) (small [(2, 1), (3, 9)]) fun e => (participants (small [(2, 1), (3, 9)]) e.g (.stag gT 2 3)).all fun n =>
      (e.g.readReg 2 n).toNat % 2 ^ 32 < e.b.tags.length := ⟨meets (by decide +kernel), meets (by decide +kernel)⟩

/-- A list header at the data page with its items in it, and a domain. -/
def lists : State := ((small [(2, data), (3, data + 0x1000)]).poke data (leBytes 8 (data + 0x1000) ++ leBytes 8 (data + 0x2000))).poke (data + 0x10) (leBytes 4 16)

def listsAt (i : Instr) (s : State) (e : Env) : Bool := alone i s e && !e.l.det && (listOp s e 0 i).isSome

theorem witness_ListsPost : (∀ i ∈ [.cappend gT 2 3, .ctake gT 1 0 2, .cdone gT 2], hand i lists (listsAt i lists) = true) ∧
    Meets (.cclose gT 2) (small [(2, data + 0x2000)]) (listsAt (.cclose gT 2) (small [(2, data + 0x2000)])) ∧
    Meets (.cquiet gT 2 3) (small [(2, data + 0x2000), (3, 4080)]) (listsAt (.cquiet gT 2 3) (small [(2, data + 0x2000), (3, 4080)])) :=
  ⟨by decide +kernel, meets (by decide +kernel), meets (by decide +kernel)⟩

/-- A load record at the data page: FP16 weights of one run. -/
def weights : State := (((small [(2, data)]).poke data [1, 0, 0, 0]).poke (data + 4) (leBytes 4 1024 ++ leBytes 8 (data + 0x1000))).poke (data + 16) (leBytes 4 1)
def scratchAt : State := small [(2, 0)]

def matrixAt (i : Instr) (s : State) (e : Env) : Bool := alone i s e && (matrixOf s e [0] i).isSome && s.tableRoom e.b && s.wcnt 2 0 .mx < 254 &&
  match i with
  | .mldw _ pair _ | .mswap _ pair => pair.toNat < e.b.pairs.length
  | .mpass _ afmt raw _ pair tile a => tile.toNat < e.b.tiles.length && pair.toNat < e.b.pairs.length &&
      (e.g.readReg a 0).toNat % (if raw then 16 else 64) == 0 && (e.g.readReg a 0).toNat + actBytes raw afmt.toNat ≤ e.b.ssize
  | .mzero _ tile nm1 => tile.toNat + nm1.toNat < e.b.tiles.length
  | .mmov _ _ _ _ tile _ => tile.toNat < e.b.tiles.length
  | .msta _ bf16 a tile => tile.toNat < e.b.tiles.length && (e.g.readReg a 0).toNat % 16 == 0 && (e.g.readReg a 0).toNat + (if bf16 then 256 else 512) ≤ e.b.ssize
  | _ => false

/-- With the last pair and the last tile of the block. -/
theorem witness_MatrixPosts : Meets (.mldw gT 0 2) weights (matrixAt (.mldw gT 0 2) weights) ∧
    (∀ i ∈ [.mswap gT 0, .mpass gT 1 false false 0 1 2, .mzero gT 0 1, .mmov gT .b64 0 4 1 63, .msta gT true 2 1],
      hand i scratchAt (matrixAt i scratchAt) = true) := ⟨meets (by decide +kernel), by decide +kernel⟩

/-- A copy descriptor at the data page: one row of 16 bytes to the end of the scratchpad, with an index list. -/
def copying : State :=
  let s := ((small [(2, data), (3, 0)]).poke (data + 4) (leBytes 4 16 ++ leBytes 8 (data + 0x1000))).poke (data + 20) (leBytes 4 1 ++ leBytes 4 4080)
  s.poke data [0, 1]
def indexed : State := copying.poke (data + 32) (3 :: leBytes 7 (data + 0x2000))

def copyAt (i : Instr) (s : State) (gather nb : Bool) (e : Env) : Bool := alone i s e && s.copyRoom e 0 && !e.l.det &&
  isOk (s.planCopy e 0 (e.g.readReg 2 0).toNat gather) && (nb || ((objCheck e.b (e.g.readReg 3 0).toNat).isNone && (s.firstUse e.b.bid (e.g.readReg 3 0).toNat).isSome))

/-- A bank descriptor: one row of 16 columns, of a bank page at 6 · 2^20. -/
def banking : State :=
  let s := { small [(2, data)] with contexts := [{ ctx1 with pages := pageOf 0x600000 (2 ^ 21) 0x600000 0x11 none :: ctx1.pages }] }
  ((s.poke data [1, 0, 0, 0]).poke (data + 4) (leBytes 4 1 ++ leBytes 4 16)).poke (data + 16)
    (leBytes 8 0x600000 ++ leBytes 8 (data + 0x1000) ++ leBytes 4 32 ++ leBytes 4 4 ++ leBytes 8 (data + 0x2000))
def gathering : State := (((banking.poke data [2, 0, 1, 0]).poke (data + 32) (leBytes 4 0)).poke (data + 36) (leBytes 4 32)).poke (data + 0x1000) (leBytes 4 127)

def bankAt (i : Instr) (s : State) (gather : Bool) (e : Env) : Bool := alone i s e && !e.l.det && match s.planBank e 0 (e.g.readReg 2 0).toNat gather with
  | .ok q => s.bankRoom e 0 q.rows
  | .error _ => false

theorem witness_EnginesPost_copies : Meets (.cpy gT false 2 3) copying (copyAt (.cpy gT false 2 3) copying false false) ∧
    Meets (.cpy gT true 2 0) copying (copyAt (.cpy gT true 2 0) copying false true) ∧
    Meets (.cpyg gT true 2 0) indexed (copyAt (.cpyg gT true 2 0) indexed true true) :=
  ⟨meets (by decide +kernel), meets (by decide +kernel), meets (by decide +kernel)⟩
theorem witness_EnginesPost_banks : Meets (.bkmv gT 2) banking (bankAt (.bkmv gT 2) banking false) ∧ Meets (.bkgth gT 2) gathering (bankAt (.bkgth gT 2) gathering true) ∧
    Meets (.bkst gT 1 2) (small [(2, 127)]) sound := ⟨meets (by decide +kernel), meets (by decide +kernel), meets (by decide +kernel)⟩

/-- An object of the workgroup's list, which the one thread has dropped. -/
def listedObj : State := onThread (onBlock (small [(2, 4080), (3, 0), (4, 0)]) fun b => { b with wblist := [4080] }) fun x => { x with dropped := [4080] }
/-- The last object of the scratchpad; the greatest number of arrivals; the greatest field values. -/
theorem witness_BarriersSet_fields : let o : BObj := ⟨2 ^ 32 - 1, 2 ^ 32 - 1, 2 ^ 16 - 1, true, 2 ^ 15 - 1, 2 ^ 32 - 1⟩
    o.landed < 2 ^ 32 ∧ o.expb < 2 ^ 32 ∧ o.rem < 2 ^ 16 ∧ o.exp < 2 ^ 15 ∧ o.phase < 2 ^ 32 := by decide
theorem witness_BarriersSet : Meets (.barinit gT 2 3 4) (small [(2, 4080), (3, 32767), (4, 0)]) (fun e => alone (.barinit gT 2 3 4) (small [(2, 4080), (3, 32767), (4, 0)]) e &&
      (objCheck e.b 4080).isNone && (e.g.readReg 3 0).toNat ≤ 32767 && !(small [(2, 4080), (3, 32767), (4, 0)]).anyRegistered e.b 4080 &&
      !(small [(2, 4080), (3, 32767), (4, 0)]).copyCounting 1 4080) ∧
    Meets (.barinit gT 2 3 4) listedObj (fun e =>
      alone (.barinit gT 2 3 4) listedObj e && (objCheck e.b 4080).isNone &&
      e.b.wblist.contains 4080 && !listedObj.anyRegistered e.b 4080 &&
      !(small [(2, 4080)]).copyCounting 1 4080) ∧
    Meets (.expect gT 2 (.lit 0)) (small [(2, 4080)]) fun e => alone (.expect gT 2 (.lit 0)) (small [(2, 4080)]) e && (objCheck e.b 4080).isNone &&
      ((small [(2, 4080)]).firstUse 1 4080).isSome := ⟨meets (by decide +kernel), meets (by decide +kernel), meets (by decide +kernel)⟩

def arrives (i : Instr) (s : State) (drop : Bool) (e : Env) : Bool := alone i s e && e.g.sound && (objCheck e.b (e.g.readReg 2 0).toNat).isNone &&
  match s.firstUse 1 (e.g.readReg 2 0).toNat with
  | some u => match u.thread? 2 0, u.block? 1 with
    | some x, some b => let o := u.bobj 1 (e.g.readReg 2 0).toNat
      drop || ((x.regs.filter fun r => r.off ∉ b.wblist).length < 16 && o.rem != 0 && !x.arrivedIn (e.g.readReg 2 0).toNat o.phase &&
        !u.pendingArrival 2 0 (e.g.readReg 2 0).toNat)
    | _, _ => false
  | none => false

theorem witness_ArrivalsPost : Meets (.arrive gT 1 2) (small [(2, 0)]) (arrives (.arrive gT 1 2) (small [(2, 0)]) false) ∧
    Meets (.bdrop gT 2) (small [(2, 0)]) (arrives (.bdrop gT 2) (small [(2, 0)]) true) := ⟨meets (by decide +kernel), meets (by decide +kernel)⟩

/-- A thread whose deadline has decided its BWAIT. -/
def decided : State := onThread (small [(2, 0), (3, 0), (4, 2 ^ 40)]) fun x => { x with bwait := some ⟨1, 0, 0, 2 ^ 40, some true⟩ }
/-- A phase that has completed, 2^31 phases back; a deadline that has passed; one that has decided. -/
theorem witness_PhaseWaits : Meets (.bwait gT 2 3) (small [(2, 0), (3, 2 ^ 32 - 1)]) (fun e => (objCheck e.b 0).isNone && ((small [(2, 0), (3, 2 ^ 32 - 1)]).bobj 1 0).done (e.g.readReg 3 0).toNat) ∧
    Meets (.bwait gT 2 3) (small [(2, 0), (3, 2 ^ 31)]) (fun e => (objCheck e.b 0).isNone && ((small [(2, 0), (3, 2 ^ 31)]).bobj 1 0).done (e.g.readReg 3 0).toNat) ∧
    Meets (.bwaitTo gT 1 2 3 4) (small [(2, 0), (3, 0), (4, 0)]) (fun e => (objCheck e.b 0).isNone && (e.g.readReg 4 0).toNat ≤ (small [(2, 0), (3, 0), (4, 0)]).wall e.b.die) ∧
    Meets (.bwaitTo gT 1 2 3 4) decided (fun e => (objCheck e.b 0).isNone && (((e.g.thread? 0).bind (·.bwait)).bind (·.verdict)) == some true) ∧
    Meets (.btest gT 1 2 3) (small [(2, 4080), (3, 0)]) (fun e => (objCheck e.b 4080).isNone) :=
  ⟨meets (by decide +kernel), meets (by decide +kernel), meets (by decide +kernel), meets (by decide +kernel), meets (by decide +kernel)⟩

/-! Frames and tokens: a frame at the data page whose handler and exit stand at the first instruction. -/

def frameOf (st save : Nat) (multi : Bool) : Frame := ⟨2, 0, 0, 0x42, firstLine + 4, 0xFFFF, firstLine + 4, st, false, multi, false, save⟩
def token : Nat := 2 ^ 48 * 2 + data
/-- The frame in memory, and a thread that made the token. -/
def withFrame (rs : List (Nat × Nat)) (hsp : Nat) (fr : Frame) : State :=
  (onThread (small rs) fun x => { x with hsp := BitVec.ofNat 64 hsp, toks := [⟨BitVec.ofNat 64 token, 0x42, none⟩] }).poke data fr.bytes

theorem witness_FramesMove_hpush : Meets (.hpush gT false false 2 3 0 0 0) (small [(2, data + 65504), (3, 0xFFFF0042)]) (fun e =>
      alone (.hpush gT false false 2 3 0 0 0) (small [(2, data + 65504), (3, 0xFFFF0042)]) e && isOk (accessRange e.c (some e.b) frameNeed (data + 65504) 32) &&
      (small [(2, data + 65504), (3, 0xFFFF0042)]).boardFails e [(0, data + 65504, 32)] == [] && isOk ((small [(2, data + 65504), (3, 0xFFFF0042)]).frameAt e 0 (data + 65504)) && (small [(2, data + 65504), (3, 0xFFFF0042)]).mayTouch e 0 (data + 65504) 32) ∧
    Meets (.hpush gT true true 2 3 4 0 0) (small [(2, data), (3, 0), (4, data + 0x1000)]) (fun e =>
      alone (.hpush gT true true 2 3 4 0 0) (small [(2, data), (3, 0), (4, data + 0x1000)]) e && isOk (accessRange e.c (some e.b) frameNeed data 32) &&
      isOk (accessRange e.c (some e.b) frameNeed (data + 0x1000) 1928) &&
      (small [(2, data), (3, 0), (4, data + 0x1000)]).boardFails e [(0, data, 32)] == [] && isOk ((small [(2, data), (3, 0), (4, data + 0x1000)]).frameAt e 0 data) && (small [(2, data), (3, 0), (4, data + 0x1000)]).mayTouch e 0 data 32) :=
  ⟨meets (by decide +kernel), meets (by decide +kernel)⟩
theorem witness_FramesMove_hpop : Meets (.hpop gT 2) (withFrame [(2, data)] data (frameOf 0 0 false)) fun e => alone (.hpop gT 2) (withFrame [(2, data)] data (frameOf 0 0 false)) e &&
    (e.g.thread? 0).map (·.hsp) == some (e.g.readReg 2 0) && (withFrame [(2, data)] data (frameOf 0 0 false)).boardFails e [(0, data, 32)] == [] && (match (withFrame [(2, data)] data (frameOf 0 0 false)).frameAt e 0 data with | .ok fr => fr.st != handlingSt | .error _ => false) &&
    (withFrame [(2, data)] data (frameOf 0 0 false)).mayTouch e 0 data 32 := meets (by decide +kernel)

def enters (i : Instr) (s : State) (e : Env) : Bool := alone i s e && e.g.sound && match performs e 0 i, e.g.thread? 0 with
  | some (eff, arg), some x => match s.readyPerform e ⟨0, eff, arg, s.cur.pc, false⟩ x.hsp.toNat with
    | .ok y => y.f % 32 == 0 && s.boardFails e ((Ready.ok y).writes 0) == [] && s.rodsReady e (if y.fr.window then e.g.rodsOf [240, 241, 242] else [])
    | _ => false
  | _, _ => false

/-- PERFORM of a frame that accepts it, one with a window, one that is MULTI; BRK. -/
theorem witness_HandlersEnter : (∀ fr ∈ [frameOf 0 0 false, { frameOf 0 0 false with window := true }, { frameOf 0 (data + 0x1000) true with window := false }],
      hand (.perform gT 1 (.lit 0x42) 2) (withFrame [(2, 5)] data fr) (enters (.perform gT 1 (.lit 0x42) 2) (withFrame [(2, 5)] data fr)) = true) ∧
    Meets (.brk gT 7) (withFrame [] data { frameOf 0 0 false with mtch := 0xFF05 }) (enters (.brk gT 7) (withFrame [] data { frameOf 0 0 false with mtch := 0xFF05 })) :=
  ⟨by decide +kernel, meets (by decide +kernel)⟩

def resumes (i : Instr) (s : State) (m : Bool) (e : Env) : Bool := alone i s e && e.g.sound && match s.readyResume e 0 (e.g.readReg 2 0) m with
  | .ok r => s.mayTouch e 0 data 32 && s.boardFails e [(0, data, 32)] == [] && (!r.fr.multi || s.mayTouch e 0 r.fr.save (savedLen m)) && s.rodsReady e (e.g.rodsOf (r.dests m))
  | .error _ => false

/-- The line's first instruction is PERFORM. -/
def performing (rs : List (Nat × Nat)) (fr : Frame) : State := (withFrame rs 0 fr).poke firstLine (makeLine 1 0 (firstParcels 64 0x00001C0000080761)).bytes

theorem witness_ResumesContinue : Meets (.resume gT 2 (.reg 3)) (performing [(2, token), (3, 9)] (frameOf 1 (firstLine + 4) false))
      (resumes (.resume gT 2 (.reg 3)) (performing [(2, token), (3, 9)] (frameOf 1 (firstLine + 4) false)) false) ∧
    Meets (.resumem gT 2 (.lit 9)) ((performing [(2, token)] (frameOf 1 (data + 0x1000) true)).poke (data + 0x1000) (leBytes 8 (firstLine + 4)))
      (resumes (.resumem gT 2 (.lit 9)) ((performing [(2, token)] (frameOf 1 (data + 0x1000) true)).poke (data + 0x1000) (leBytes 8 (firstLine + 4))) true) :=
  ⟨meets (by decide +kernel), meets (by decide +kernel)⟩

def drops (s : State) (e : Env) : Bool := alone (.drop gT 2) s e &&
  match s.tokenFrame e 0 (e.g.readReg 2 0) (fun fr => fr.st == handlingSt || (fr.st == resumedSt && fr.multi)) with
  | .ok fr => s.mayTouch e 0 data 32 && s.boardFails e [(0, data, 32)] == [] && (fr.st != handlingSt || isOk (checkTarget s e.c (e.place 0).units true fr.xpc))
  | .error _ => false

/-- One-shot HANDLING, MULTI HANDLING, MULTI RESUMED; TOKST of a live and of a dead token. -/
theorem witness_TokensEnd : (∀ fr ∈ [frameOf 1 0 false, frameOf 1 (data + 0x1000) true, frameOf 2 (data + 0x1000) true],
      hand (.drop gT 2) (withFrame [(2, token)] 0 fr) (drops (withFrame [(2, token)] 0 fr)) = true) ∧
    (∀ w ∈ [token, 3], hand (.tokst gT 1 2) (withFrame [(2, w)] 0 (frameOf 1 0 false)) (fun e => e.g.sound &&
      ((withFrame [(2, w)] 0 (frameOf 1 0 false)).tokenState e 0 (e.g.readReg 2 0)).isSome &&
      (withFrame [(2, w)] 0 (frameOf 1 0 false)).mayTouch e 0 (tokFrame (e.g.readReg 2 0)) 32) = true) := ⟨by decide +kernel, by decide +kernel⟩

/-! Recipes: a slice of one addition in the line behind the first; rod 5 is its recipe. -/

def sliced (rs : List (Nat × Nat)) : State := (small rs).poke (firstLine + 64) (makeLine 1 0 ([0x2010508, 0x385, 0x1C00] ++ List.replicate 12 0xFFFFFFFF)).bytes
def recipe : State := onGang (sliced [(1, 2), (2, 3)]) fun g => { g with rods := g.rods ++ [(5, .recipe)], descs := [⟨0, firstLine + 68, [0], 0, 5, [1, 2], 0⟩] }

def slicesAt (i : Instr) (s : State) (e : Env) : Bool := participants s e.g i == [0] && match readSlice s e.c (e.place 0).units 2 8 (firstLine + 68) [] with
  | .ok is => sliceBreach is [1, 2] == none && (match eligibleDest s e [0] [1, 2] with | some d => d ∈ is.flatMap fun x => destsOf x.2 | none => true)
  | _ => false
def matOk (s : State) (rs : List Nat) : Bool := match materialiseAll s 2 rs with | .ok _ => true | _ => false
/-- With every descriptor in use. -/
def full (s : State) : State := onGang s fun g => { g with descs := (List.range Config.recipeDescs).map fun k => ⟨k, firstLine + 68, [0], 0, 100 + k, [], 0⟩ }

/-- The line's next instruction is YIELD: no destination is eligible. -/
def yielding : State := (sliced [(1, 2), (2, 3)]).poke firstLine (makeLine 1 0 ([0x60, 0x60] ++ List.replicate 13 0xFFFFFFFF)).bytes
/-- The line's next instruction is IADD g5, g1, g2, so that g5 is eligible. -/
def defining : State := (sliced [(1, 2), (2, 3)]).poke firstLine (makeLine 1 0 ([0x60, 0x2010508] ++ List.replicate 13 0xFFFFFFFF)).bytes
/-- No eligible destination; one, with room; one, with the table full. -/
theorem witness_RecipesComplete_rcp : Meets (.rcp gT 2 1 2 0 0 64) yielding (fun e => slicesAt (.rcp gT 2 1 2 0 0 64) yielding e && (eligibleDest yielding e [0] [1, 2]).isNone) ∧
    Meets (.rcp gT 2 1 2 0 0 64) defining (fun e => slicesAt (.rcp gT 2 1 2 0 0 64) defining e && (eligibleDest defining e [0] [1, 2]).isSome &&
      decide (e.g.descs.length < Config.recipeDescs) && matOk defining (e.g.deepInputs [1, 2])) ∧
    Meets (.rcp gT 2 1 2 0 0 64) (full defining) (fun e => slicesAt (.rcp gT 2 1 2 0 0 64) (full defining) e && (eligibleDest (full defining) e [0] [1, 2]).isSome &&
      decide (Config.recipeDescs ≤ e.g.descs.length)) :=
  ⟨meets (by decide +kernel), meets (by decide +kernel), meets (by decide +kernel)⟩
/-- No guard true; a field that names a k register. -/
theorem witness_RecipesComplete_idle : (∀ i ∈ [.rcp gF 2 1 2 0 0 64, .rmat gF 5, .rdrop gF 5, .rdropKill gF 5], hand i (small []) (fun e => participants (small []) e.g i == []) = true) ∧
    (∀ i ∈ [.rmat gT 255, .rdrop gT 255, .rdropKill gT 248], hand i (trapped (small [])) (fun e => e.g.kReg 255 && e.g.kReg 248) = true) := ⟨by decide +kernel, by decide +kernel⟩
theorem witness_RecipesComplete : Meets (.rmat gT 5) recipe (fun e => alone (.rmat gT 5) recipe e && e.g.isRecipe 5 && matOk recipe [5] && !e.g.kReg 5) ∧
    Meets (.rdrop gT 5) recipe (fun e => alone (.rdrop gT 5) recipe e && !e.g.kReg 5) ∧
    Meets (.rdropKill gT 1) recipe (fun e => alone (.rdropKill gT 1) recipe e && !e.g.kReg 1 &&
      matOk recipe ((e.g.descs.filter fun d => e.g.isRecipe d.rod && d.rod != 1 && d.inputs.any fun r => r == 1).map (·.rod)).dedup) ∧
    Meets (.rstat gT 6 5) recipe sound := ⟨meets (by decide +kernel), meets (by decide +kernel), meets (by decide +kernel), meets (by decide +kernel)⟩

/-! Traps: the region's handler stands at the first instruction. -/

def handled (s : State) : State := { s with contexts := [{ ctx1 with regions := [⟨0, none, 0, { openRcb with traph := BitVec.ofNat 64 (firstLine + 4) }, .none⟩] }] }
def canTrap (i : Instr) (s : State) (e : Env) : Bool :=
  alone i s e && e.g.trap.isNone && e.g.spec.isNone && !s.removing e.c.num e.rcb.fdom && s.handlerPc e 0 == some (firstLine + 4)

/-- A gang of two threads, both of which take part. -/
def pairOf (s : State) : State := { onGang s fun g => { g with threads := g.threads ++ [Thread.fresh 1 (firstLine + 4)] } with cur := { s.cur with mask := [0, 1] } }
def preempted (s : State) : State := onGang s fun g => { g with trap := some ⟨cPREEMPT, 0, [0], []⟩ }
/-- Two threads; one, registered at an object, in its turn; one saved in a PREEMPT trap. -/
theorem witness_ExitsEnd : (∀ i ∈ [.exit gT, .exitS], hand i (pairOf (small [])) (fun e => participants (pairOf (small [])) e.g i == [0, 1]) = true) ∧
    (∀ i ∈ [.exit gT, .exitS], hand i (onThread (small []) fun x => { x with lser := .turn, regs := [⟨0, none⟩, ⟨16, none⟩], dropped := [16] })
      (fun e => (e.b.regsOf ((e.g.thread? 0).getD (Thread.fresh 0 0))) == [0, 16]) = true) ∧
    Meets (.exitSaved gT) (preempted (small [])) (fun e => alone (.exitSaved gT) (preempted (small [])) e && (e.g.trap.map (·.cause)) == some cPREEMPT) :=
  ⟨by decide +kernel, by decide +kernel, meets (by decide +kernel)⟩
/-- The instruction in the slot is the first of a pair. -/
def pairing (s : State) : State := { s with cur := { s.cur with pair := some ⟨firstLine + 8, firstLine + 12, 0x60, 0, 1⟩ } }
theorem witness_TrapsTaken : (∀ i ∈ [.trap gT 0x3FFF, .rend gT], hand i (handled (small [])) (canTrap i (handled (small []))) = true) ∧
    (∀ x ∈ [(Instr.ld gT .b64 .w64 false .generic 1 ⟨2, .lit 0, 0⟩, data + 4), (.ld gT .b64 .w64 false .generic 1 ⟨2, .lit 0, 0⟩, 2 ^ 30),
        (.st gT .b64 .w64 .generic 1 ⟨2, .lit 0, 0⟩, firstLine), (.stB64S 1 2 3, data + 4)],
      hand x.1 (handled (small [(2, x.2)])) (fun e => canTrap x.1 (handled (small [(2, x.2)])) e &&
        match accessCheck (handled (small [(2, x.2)])) e .generic (if (loadOf x.1).isSome then .load else .store) 8 [] (e.ea x.1 0) with
        | some (c, _) => c == cALIGN || c == cTRANSLATION || c == cACCESS
        | none => false) = true) ∧
    Meets (.ldB64S 1 2 3) (pairing (handled (small [(2, data + 4)]))) (fun e => canTrap (.ldB64S 1 2 3) (pairing (handled (small [(2, data + 4)]))) e &&
      (accessCheck (pairing (handled (small [(2, data + 4)]))) e .generic .load 8 [] (e.ea (.ldB64S 1 2 3) 0)).map (·.1) == some cALIGN) :=
  ⟨by decide +kernel, by decide +kernel, meets (by decide +kernel)⟩
/-- The first and last register and queue field for trap mode only. -/
theorem witness_TrapsTaken_modeOnly : (∀ i ∈ [.movs gT 1 0x20, .movs gT 1 0x25, .movsw gT 0x20 (.lit 0), .movsw gT 0x25 (.lit 0), .rtt gT, .tlbinv gT 2 3, .exitSaved gT,
      .rqrd gT 1 2 0, .rqrd gT 1 2 8, .rqwr gT 2 3 0, .rqwr gT 2 3 8],
    needsTrapMode i = true ∧ hand i (handled (small [])) (canTrap i (handled (small []))) = true) := by decide +kernel
theorem witness_UnhandledEnds : (match (small []).env? 2 with
    | some e => !(small []).removing e.c.num e.rcb.fdom && (small []).handlerPc e 0 == none
    | none => false) = true ∧ (match (trapped (handled (small []))).env? 2 with
    | some e => !(trapped (handled (small []))).removing e.c.num e.rcb.fdom && e.g.trap.isSome
    | none => false) = true := ⟨by decide +kernel, by decide +kernel⟩

def back : State := onThread (trapped (small [])) fun x => { x with tepc := BitVec.ofNat 64 (firstLine + 4) }
theorem witness_TrapModeComplete : Meets (.rtt gT) back (fun e => alone (.rtt gT) back e && e.g.trap == some ⟨0x10, 0, [0], []⟩ &&
      isOk (checkTarget back e.c (e.place 0).units false (((e.g.thread? 0).map (·.tepc.toNat)).getD 0))) ∧
    Meets (.rqrd gT 1 2 8) (trapped (small [])) (fun e => e.g.sound && e.g.trap.isSome) ∧
    Meets (.rqwr gT 2 3 8) (trapped (small [])) (fun e => alone (.rqwr gT 2 3 8) (trapped (small [])) e && e.g.trap.isSome) ∧
    Meets (.tlbinv gT 2 3) (trapped (small [])) (fun e => e.g.trap.isSome) :=
  ⟨meets (by decide +kernel), meets (by decide +kernel), meets (by decide +kernel), meets (by decide +kernel)⟩
/-- The smallest and the greatest range. -/
theorem witness_TrapModeComplete_cbsync : ∀ x ∈ [(data + 65535, 1), (data, 65536)], hand (.cbsync gT 2 3) (small [(2, x.1), (3, x.2)]) (fun e =>
    (participants (small [(2, x.1), (3, x.2)]) e.g (.cbsync gT 2 3)).all fun n => 0 < (e.g.readReg 3 n).toNat && (e.g.readReg 3 n).toNat ≤ 65536 &&
      match spanOf e { r := true, peer := true } (e.g.readReg 2 n).toNat (e.g.readReg 3 n).toNat with
      | .ok sn => (small [(2, x.1), (3, x.2)]).storesHome (e.place n) (sn.segs.map fun x => (x.2.loc, x.2.len))
      | .error _ => false) = true := by decide +kernel

/-! ### States that meet the hypotheses of the statements about transitions: what an instruction has posted -/

/-- The state has an operation, found under its name, that meets `p`, in an environment. -/
def posted (s : State) (p : Op → Env → Bool) : Bool := match s.ops.getLast?, s.env? 2 with
  | some o, some e => s.op? o.id == some o && p o e
  | _, _ => false

def settledAt (s : State) (loc n : Nat) : Bool := (List.range n).all fun k => !s.unsure 1 (loc + k)
def noObjectsAt (s : State) (loc n : Nat) : Bool := (!isScratch loc || s.blocks.all fun b => (List.range (n + 16)).all fun k =>
    let off := (loc - scratchBase) % 2 ^ 20 + k - 16
    !s.anyRegistered b off && !s.copyCounting b.bid off) &&
  (isScratch loc || s.work.all fun w => !overlap (loc, n) (if w.2 then (w.1, 24) else (w.1 + 24, 8))) &&
  s.blocks.all fun b => b.passed.all fun x => x.row.all fun r => !overlap (r.2.1, r.2.2) (loc, n)

/-- A transition of the last operation posted. -/
def fires (f : Nat → Instr) (s : State) : State := after (f ((s.ops.getLast?.map (·.id)).getD 0)) s

def loading : State := after (.ld gT .b64 .w64 false .generic 1 ⟨2, .lit 0, 0⟩) (small [(2, data)])
def binds (s : State) (const : Bool) : Bool := posted s fun o _ => o.thrs == [o.place.thr] && s.enabled o && !s.lacksRod o && s.gangs.all Gang.sound &&
  match o.kind with
  | .load loc n _ _ _ c => c == const && !s.linkDown loc && settledAt s loc n && (!c || (List.range n).all fun k => !s.constWritten o.place (loc + k))
  | _ => false
def loadingConst : State := after (.ld gT .b64 .w64 false .constant 1 ⟨2, .lit 0, 0⟩) (small [(2, data)])
theorem witness_LoadsBind : binds loading false = true ∧ binds loadingConst true = true := ⟨by decide +kernel, by decide +kernel⟩

def storing : State := after (.st gT .b64 .w64 .generic 1 ⟨2, .lit 0, 0⟩) (small [(1, 7), (2, data)])
def isStore (s : State) (det : Bool) (o : Op) (e : Env) : Bool := s.enabled o && e.l.det == det && match o.kind with
  | .store loc d _ => !s.linkDown loc && noObjectsAt s loc d.length | _ => false
/-- In memory, in scratchpad, in a deterministic launch, and at a link that is down. -/
theorem witness_WritesHappen_stores : posted storing (isStore storing false) = true ∧
    posted (after (.st gT .b64 .w64 .scratch 1 ⟨2, .lit 0, 0⟩) (small [(2, 4088)]))
      (isStore (after (.st gT .b64 .w64 .scratch 1 ⟨2, .lit 0, 0⟩) (small [(2, 4088)])) false) = true ∧
    posted (onLaunch storing fun l => { l with det := true }) (isStore (onLaunch storing fun l => { l with det := true }) true) = true ∧
    (let s : State := { storing with ops := storing.ops.map fun o => { o with kind := .store (peerLoc 0 0) [1] false }, links := [⟨false, 8⟩] }
     posted s (fun o _ => s.enabled o && s.linkDown (peerLoc 0 0))) = true := ⟨by decide +kernel, by decide +kernel, by decide +kernel, by decide +kernel⟩

def isAtomic (s : State) (o : Op) (_ : Env) : Bool := s.enabled o && o.thrs == [0] && !s.lacksRod o && s.gangs.all Gang.sound && match o.kind with
  | .atomic loc _ ty _ vals _ => o.thrs == vals.map (·.1) && !s.linkDown loc && settledAt s loc (ty.width / 8) && noObjectsAt s loc (ty.width / 8)
  | .cas loc ty _ vals _ => o.thrs == vals.map (·.1) && !s.linkDown loc && settledAt s loc (ty.width / 8) && noObjectsAt s loc (ty.width / 8)
  | _ => false
theorem witness_WritesHappen_atomics : (∀ i ∈ [.atom gT false .add .s32 1 ⟨2, .lit 0, 0⟩ 3, .red gT false .exch .b64 ⟨2, .lit 0, 0⟩ 3,
    .acas gT false .b32 1 ⟨2, .lit 0, 0⟩ 3], posted (after i (small [(2, data)])) (isAtomic (after i (small [(2, data)]))) = true) := by decide +kernel
def performed : State := fires .performStore storing
theorem witness_WritesHappen_propagate : (match performed.writes.getLast? with
    | some w => performed.writes.find? (fun x => x.wid == w.wid) == some w && performed.agentSees (.thread 2 0) w && (performed.unitAt (.thread 2 0) .module).isSome && (performed.writes.map (·.wid)).Nodup
    | none => false) = true := by decide +kernel

def copied : State := after (.cpy gT true 2 0) copying
def queuedCopy : State := fires .enqueue copied
def readCopy : State := fires (.read · 0) queuedCopy
def writtenCopy : State := fires (.write · 0) readCopy
def landedCopy : State := fires (.land · 0) writtenCopy
def firstPiece (o : Op) : Option CopyRow := match o.kind with | .copy _ _ rows => rows[0]? | _ => none
theorem witness_CopiesProgress : posted copied (fun o _ => copied.mayEnqueue o) = true ∧
    posted queuedCopy (fun o _ => o.queued && (firstPiece o).any fun r => !r.readDone) = true ∧
    posted readCopy (fun o _ => o.queued && (firstPiece o).any fun r => r.readDone && !r.writeDone && !readCopy.linkDown r.dst && !r.poison &&
      noObjectsAt readCopy r.dst r.data.length) = true ∧
    posted queuedCopy (fun o _ => match o.kind with
      | .copy _ _ rows => (let x := pieceOf rows (rows.length + 3); (x.1[x.2]?).any fun r => !r.readDone && r.len == 1 && x.1.length == 3)
      | _ => false) = true ∧
    posted writtenCopy (fun o _ => (firstPiece o).any fun r => writtenCopy.pieceLands o r) = true ∧
    posted landedCopy (fun o _ => o.cls == .cp && (firstPiece o).any fun r => r.landDone) = true :=
  ⟨by decide +kernel, by decide +kernel, by decide +kernel, by decide +kernel, by decide +kernel, by decide +kernel⟩

/-- Each matrix operation, granted and in its turn. -/
def granted (i : Instr) (s : State) : State := after (.matrixGrant 0 0) (fires .enqueue (after i s))
def inTurnMx (s : State) (p : OpKind → Bool) : Bool := posted s fun o e => o.cls == .mx && s.grantTurn o && e.g.sound && o.dirty.isEmpty && o.thrs == [0] && !s.lacksRod o && (List.range 2).all (fun t => !s.tileRaced o t) && p o.kind
theorem witness_MatrixWorks : ((fires .enqueue (after (.mswap gT 0) scratchAt)).nextGrant 0 0).isSome = true ∧
    inTurnMx (granted (.mswap gT 0) scratchAt) (fun k => k == .mswap 0) = true ∧
    inTurnMx (granted (.mzero gT 0 1) scratchAt) (fun k => k == .mzero 0 2) = true ∧
    inTurnMx (granted (.mpass gT 1 false false 0 1 2) scratchAt) (fun k => match k with | .mpass .. => true | _ => false) = true ∧
    inTurnMx (granted (.mmov gT .b64 0 4 1 63) scratchAt) (fun k => match k with | .mmov .. => true | _ => false) = true ∧
    inTurnMx (granted (.mldw gT 0 2) weights) (fun k => match k with | .mldw .. => true | _ => false) = true ∧
    inTurnMx (granted (.msta gT true 2 1) scratchAt) (fun k => match k with | .msta _ _ [_] => true | _ => false) = true :=
  ⟨by decide +kernel, by decide +kernel, by decide +kernel, by decide +kernel, by decide +kernel, by decide +kernel, by decide +kernel⟩

def banked : State := fires .enqueue (after (.bkmv gT 2) banking)
/-- The row's turn; one byte of its stripe not read yet; the operation's end. -/
theorem witness_BanksWork : posted banked (fun o _ => (o.rowAt 0).any fun r => (segLocs (o.kind.rowReads r))[5]?.any fun a => r.seen.all fun x => x.1 != a) = true ∧
    posted (fires (.rowTask · 0) banked) (fun o _ => o.cls == .bk && o.queued && o.kind.bankRows.all (·.taken)) = true :=
  ⟨by decide +kernel, by decide +kernel⟩

/-- The cell's metadata can be read, and nothing outside the launch has changed it. -/
def readable (s : State) (e : Env) : Bool := (s.markCell e keepAt).cells.all (fun k => k.slot != keepAt || !k.unreadable) && !s.upsetBy e true keepAt
def holds (s : State) (f : OpKind → Bool) : Bool := posted s fun o e => s.enabled o && !s.lacksRod o && o.thrs == [0] && e.g.sound && e.g.trap.isNone &&
  readable s e && f o.kind
def atKeep (i : Instr) (rs : List (Nat × Nat)) : State := after i (small ((2, keepAt) :: rs))
/-- A cell with two siblings. -/
def doubled (s : State) : State :=
  { s with cells := putCell s.cells { (s.cell keepAt) with gen := 5, sibs := [⟨3, 4, 0, none, false⟩, ⟨9, 5, 0, none, false⟩] } }
def stored : State := atKeep (.st gT .b64 .w64 .generic 3 ⟨2, .lit 0, 0⟩) [(3, 7)]

/-- The page folds what it refuses; the cell has eight siblings newer than the store's token. -/
def folding : State := { small [(2, keepAt), (3, 7)] with contexts := [{ ctx1 with pages := [pageOf firstLine 65536 firstLine 5 none, pageOf 0x200000 65536 0x200000 3 none, pageOf 0x400000 65536 0x400000 0x10B none] }] }
def crowded : State :=
  let s := after (.st gT .b64 .w64 .generic 3 ⟨2, .lit 0, 0⟩) folding
  { s with cells := putCell s.cells { (s.cell keepAt) with gen := 9, sibs := (List.range 8).map fun k => ⟨3, k + 2, 0, none, false⟩ } }

theorem witness_CellsServed_loads : holds (atKeep (.ld gT .b64 .w64 false .generic 1 ⟨2, .lit 0, 0⟩) []) (fun k => match k with | .keepLoad .. => true | _ => false) = true ∧
    holds (atKeep (.ldk gT 4 ⟨2, .lit 0, 0⟩) []) (fun k => match k with | .ldk .. => true | _ => false) = true ∧
    holds (atKeep (.ldsib gT 7 4 ⟨2, .lit 0, 0⟩) []) (fun k => match k with | .ldsib _ n _ _ => n == 8 | _ => false) = true := ⟨by decide +kernel, by decide +kernel, by decide +kernel⟩
def storeTo (s : State) (p : Env → Nat → Nat → Bool → Bool) : Bool := posted s fun o e => s.enabled o && o.thrs == [0] && e.g.sound && e.g.trap.isNone &&
  readable s e && match o.kind with | .keepStore slot gen _ _ _ ovf _ => slot == keepAt && p e slot gen ovf | _ => false
/-- Accepted; staged in deterministic mode; folded at a page that folds, its cell having eight siblings newer than the store's token. -/
def refused (s : State) (e : Env) (slot gen : Nat) : Option Nat :=
  refusal (s.markCell e slot).cells ((s.markCell e slot).cell slot) gen (e.c.quotaFull (s.markCell e slot).cells e.l.region) true
theorem witness_CellsServed_stores : storeTo stored (fun e slot gen _ => !e.l.det && refused stored e slot gen == none) = true ∧
    storeTo (onLaunch stored fun l => { l with det := true }) (fun e _ _ _ => e.l.det) = true ∧
    storeTo crowded (fun e slot gen ovf => !e.l.det && refused crowded e slot gen == some subCOUNT && ovf) = true :=
  ⟨by decide +kernel, by decide +kernel, by decide +kernel⟩
theorem witness_CellsServed_rcn : holds (atKeep (.rcn gT .add .s64 4 ⟨2, .lit 0, 0⟩) []) (fun k => match k with | .rcn slot _ _ _ _ => ((small []).cell slot).gen != maxGen | _ => false) = true ∧
    holds (doubled (atKeep (.rcn gT .add .s64 4 ⟨2, .lit 0, 0⟩) [])) (fun k => match k with
      | .rcn slot _ _ _ _ => ((doubled (atKeep (.rcn gT .add .s64 4 ⟨2, .lit 0, 0⟩) [])).cell slot).sibs.length == 2 | _ => false) = true := ⟨by decide +kernel, by decide +kernel⟩
theorem witness_CellsServed_atomics : (∀ i ∈ [.atom gT false .add .s64 1 ⟨2, .lit 0, 0⟩ 3, .red gT false .or .b64 ⟨2, .lit 0, 0⟩ 3, .acas gT false .b64 1 ⟨2, .lit 0, 0⟩ 3],
    holds (atKeep i []) (fun k => match k with
      | .keepAtomic slot _ _ _ vals _ => vals.map (·.1) == [0] && ((atKeep i []).cell slot).sibs.length ≤ 1 && ((atKeep i []).cell slot).gen != maxGen && !((atKeep i []).cell slot).head.poison
      | .keepCas slot _ _ vals _ => vals.map (·.1) == [0] && ((atKeep i []).cell slot).sibs.length ≤ 1 && ((atKeep i []).cell slot).gen != maxGen && !((atKeep i []).cell slot).head.poison
      | _ => false) = true) := by decide +kernel

def listTurn (s : State) (p : State → OpKind → Bool) : Bool := posted s fun o e => s.enabled o && !s.lacksRod o && s.cxTurn o && o.thrs == [0] && e.g.sound && p s o.kind
/-- An empty list, which has room and gives nothing; a count of producers of 0. -/
theorem witness_ListsServed :
    listTurn (after (.cclose gT 2) (small [(2, data + 0x2000)])) (fun s k => match k with | .cclose d => s.field d 4 == 0 | _ => false) = true ∧
    listTurn (after (.cappend gT 2 3) lists) (fun s k => match k with | .cappend hdr _ _ cap _ _ _ => !s.looseList hdr cap && s.field (hdr + 24) 4 == 0 && s.field (hdr + 28) 4 == 0 && cap == 16 | _ => false) = true ∧
    listTurn (after (.ctake gT 1 0 2) lists) (fun s k => match k with | .ctake hdr _ cap _ _ _ => !s.looseList hdr cap && s.field (hdr + 24) 4 == s.field (hdr + 28) 4 | _ => false) = true ∧
    listTurn (after (.cdone gT 2) lists) (fun _ k => match k with | .cdone .. => true | _ => false) = true ∧
    listTurn ((after (.cquiet gT 2 3) (small [(2, data + 0x2000), (3, 4080)])).poke (data + 0x2000) (leBytes 4 1)) (fun s k => match k with | .cquiet d _ => s.armsOn (dieOf d) < 64 && !s.quiescent d | _ => false) = true ∧
    listTurn ((after (.cquiet gT 2 3) (small [(2, data + 0x2000), (3, 4080)])).poke (data + 0x2000) (leBytes 4 0 ++ leBytes 4 1))
      (fun s k => match k with | .cquiet d _ => s.quiescent d | _ => false) = true :=
  ⟨by decide +kernel, by decide +kernel, by decide +kernel, by decide +kernel, by decide +kernel, by decide +kernel⟩
def armed : State := { small [] with arms := [⟨0, data, 1, 4080, true⟩] }
theorem witness_ListsServed_quiet : (armed.arms.find? fun a => a.dom == data && a.fired).isSome = true := by decide +kernel

def arrived : State := after (.arrive gT 1 2) (small [(2, 4080)])
def counted : State := match arrived.arrivals.getLast? with | some a => after (.count a.id) arrived | none => arrived
/-- The last arrival of its phase; a drop of a registered thread. -/
theorem witness_ArrivalsCount : (match arrived.arrivals.getLast? with
      | some a => arrived.countable a && (arrived.thread? a.place.gid a.place.thr).isSome && (arrived.bobj 1 a.off).rem == 1 && !a.dropExp
      | none => false) = true ∧
    (match (after (.exit gT) counted).arrivals.getLast? with
      | some a => a.dropExp && (after (.exit gT) counted).countable a && ((after (.exit gT) counted).thread? a.place.gid a.place.thr).isSome
      | none => false) = true := ⟨by decide +kernel, by decide +kernel⟩

/-! Time, gangs, blocks and launches. -/

def late5 (s : State) : State := { s with wallAdj := List.replicate 8 5 }
def timed : State := onGang (late5 (small [])) fun g => { g with tmr := 5 }
theorem witness_TimersFire_gang : (match timed.gang? 2 with
    | some g => (timed.blockOf g).isSome && g.spec.isNone && g.tmr != 0 && g.tmr.toNat == timed.wall 0 && !timed.halted g
    | none => false) = true := by decide +kernel
/-- TIMER finds no frame; it finds one. -/
def due (s : State) : State := onThread (late5 s) fun x => { x with timers := [5] }
def entersTimer (s : State) (found : Bool) : Bool :=
  let s0 : State := { s.modThread 2 0 fun x => { x with timers := x.timers.tail } with cur := { s.cur with regens := [] } }
  match s.env? 2, s0.env? 2 with
  | some e, some e0 => e.g.spec.isNone && e.g.trap.isNone && e.g.reinj.isNone && s.ops.isEmpty && !s.halted e.g && match e.g.thread? 0 with
    | some x => x.timers == [5] && !x.exited && match s0.readyPerform e0 ⟨0, 0xFF04, 5, x.pc, true⟩ x.hsp.toNat with
        | .none => !found
        | .ok y => found && s0.boardFails e0 ((Ready.ok y).writes 0) == [] && s0.rodsReady e0 (if y.fr.window then e0.g.rodsOf [240, 241, 242] else [])
        | _ => false
    | none => false
  | _, _ => false
theorem witness_TimersFire_timer : entersTimer (due (small [])) false = true ∧
    entersTimer (due (withFrame [] data { frameOf 0 0 false with mtch := 0xFF04 })) true = true := ⟨by decide +kernel, by decide +kernel⟩
/-- Deadlines that have just passed, before the verdict and after it. -/
def stalled (v : Option Bool) : State := onThread (late5 (small [])) fun x => { x with stall := .poll, bwait := some ⟨1, 4080, 0, 5, v⟩, wtime := some (1, 5) }
theorem witness_TimersFire_deadlines : (∀ v ∈ [none, some false], (match (stalled v).gang? 2 with
    | some g => ((stalled v).blockOf g).isSome && (g.thread? 0).any fun x => x.stall != .none && x.bwait == some ⟨1, 4080, 0, 5, v⟩ && x.wtime == some (1, 5)
    | none => false) = true ∧ (stalled v).wall 0 = 5) := by decide +kernel

theorem witness_GangsProgress_fetch : (match (small []).env? 2 with
    | some e => (match readLine (small []) e.c (e.place 0).units (firstLine + 4), fetchGo (small []) e.c (e.place 0).units 2 (firstLine + 4) with
      | .ok _, .ok _ => true
      | _, _ => false)
    | none => false) = true := by decide +kernel
def pastWait : State := onGang (small [(1, 7)]) fun g => { g with spec := some ⟨firstLine + 4, [0], 3, 1, g.threads, g.rods, [], [], [], 0, 0, []⟩ }
theorem witness_GangsProgress_squash : (pastWait.gang? 2).any (fun g => g.spec.isSome) = true := by decide +kernel
def trapDue (cause : Nat) : State := onGang (small []) fun g => { g with pend := [⟨cause, [0, 5]⟩, ⟨cCODEGONE, [0]⟩] }
theorem witness_GangsProgress_traps : (∀ c ∈ [cPREEMPT, cBADTARGET], (match (trapDue c).gang? 2 with
    | some g => g.pend.head? == some ⟨c, [0, 5]⟩ && g.spec.isNone && g.trap.isNone && g.reinj.isNone &&
        ([0, 5].filter fun n => ((g.thread? n).map fun x => !x.exited).getD false) == [0] && (trapDue c).ops.isEmpty
    | none => false) = true) ∧ (match (trapped (trapDue cCODEGONE)).gang? 2 with
    | some g => g.pend.head? == some ⟨cCODEGONE, [0, 5]⟩ && g.spec.isNone && g.trap.any fun m => ([0, 5].filter (· ∈ m.mask)) == [0]
    | none => false) = true := ⟨by decide +kernel, by decide +kernel⟩
theorem witness_GangsProgress_regeneration : (match recipe.env? 2 with
    | some e => e.g.isRecipe 5 && (match readBead recipe e true 0 4 5 with | .ok _ _ => true | _ => false)
    | none => false) = true := by decide +kernel
/-- 72 of the core's 3,072 physical rods are free, and rod 5 has a descriptor. -/
def pressed : State := onGang recipe fun g => { g with active := false, rods := (List.range 3000).map fun r => (r, .value []) }
theorem witness_GangsProgress_drop : (match pressed.env? 2 with
    | some e => pressed.dropsNow e.b.die e.b.core && (firstDrop (pressed.dropCandidates e.b.die e.b.core)).map (fun x => (x.1, x.2.1)) == some (2, 5)
    | none => false) = true := by decide +kernel
/-- A pending gang with room in the active set; one that takes the place of a gang whose threads all wait, the eight being active. -/
def withGangs (n : Nat) : State := { small [] with gangs := (List.range n).map (fun k => { Gang.fresh (k + 3) 1 1 1 (firstLine + 4) true 0 with
  threads := [{ Thread.fresh 0 (firstLine + 4) with stall := .poll }] }) ++ [Gang.fresh 2 1 0 1 (firstLine + 4) false 0] }
theorem witness_GangsProgress_swap : (match (withGangs 7).gang? 2 with
      | some h => (withGangs 7).entersNext h && decide ((withGangs 7).activeOn h < Config.activeGangs)
      | none => false) = true ∧
    (match (withGangs 8).gang? 2, (withGangs 8).gang? 3 with
      | some h, some g => (withGangs 8).entersNext h && decide (Config.activeGangs ≤ (withGangs 8).activeOn h) && g.active && (withGangs 8).sameCore g h && (withGangs 8).allWait g
      | _, _ => false) = true := ⟨by decide +kernel, by decide +kernel⟩

/-! A launch of two blocks of 33 threads, ready, and its code. -/

def node2 : Node := { firstNode with code := 1, nb := (2, 1, 1), threads := 33 }
def code1 : CodeObj := ⟨1, 1, firstLine, 64, 0, 64, 0⟩
def readyRun : State := onLaunch { small [] with codes := [code1] } fun l => { l with nd := node2, state := .ready, started := [] }
/-- The first block of a ready launch; the second of a running one. -/
def startable (s : State) (blk : Nat) : Bool := match s.launch? 1, s.ctx? 1 with
  | some l, some c => s.choose 0 0 == some l && (s.placeable l 0 0).map (·.1) == some blk && s.code? l.nd.code == some code1 &&
      (match checkTarget s c [.block s.nextId, .cluster 0 0, .die 0, .module, .system] true (code1.va + l.nd.entry) with | .ok _ => true | .error _ => false)
  | _, _ => false
theorem witness_BlocksStart : startable readyRun 0 = true ∧ startable (onLaunch readyRun fun l => { l with state := .running, started := [0] }) 1 = true :=
  ⟨by decide +kernel, by decide +kernel⟩

def exited : State := onThread (small []) fun x => { x with exited := true }
theorem witness_BlocksEnd_gang : (match exited.gang? 2 with
    | some g => g.threads.all (·.exited) && exited.ops.isEmpty && exited.arrivals.isEmpty && (exited.launchOf g).all fun l => !exited.ending l
    | none => false) = true ∧ (let s : State := { exited with removals := [⟨9, 1, none, 1, none⟩] }
    ((s.gang? 2).any fun g => (s.launchOf g).any fun l => s.ending l) = true) := ⟨by decide +kernel, by decide +kernel⟩
/-- A block that ended, one that EXIT.SAVED saved, one of a deterministic launch. -/
def gangless : State := { small [] with gangs := [] }
theorem witness_BlocksEnd_block : (∀ s ∈ [gangless, onBlock gangless fun b => { b with saved := true }, onLaunch gangless fun l => { l with det := true }],
    ((s.block? 1).any fun b => !b.ended && (s.launch? b.launch).any fun l => !s.ending l) = true ∧ s.gangs = []) := by decide +kernel
/-- A write of the block's scratchpad that ends with it, and one outside. -/
theorem witness_BlocksEnd_scratch : (let ws : List PWrite := [⟨1, scratchLoc 1 (2 ^ 20 - 1), [7], false, [], none, none⟩, ⟨2, data, [7], false, [], none, none⟩]
    ws.all fun w => !overlap (w.loc, w.data.length) (scratchLoc 1 0, 2 ^ 20) ||
      (decide (scratchLoc 1 0 ≤ w.loc) && decide (w.loc + w.data.length ≤ scratchLoc 1 0 + 2 ^ 20))) = true ∧
    (small []).arms = [] := ⟨by decide +kernel, rfl⟩

/-! A graph of two nodes with a full edge and a tile edge, its producer's only block ended. -/

def graph1 : Graph := ⟨1, 1, [firstNode, node2], [⟨0, 1, none⟩, ⟨0, 1, some ⟨data, 64, 64, 1, 1⟩⟩], 0, true, []⟩
def producer : State := onLaunch { small [] with graphs := [graph1], codes := [code1] } fun l => { l with graph := 1, nd := { firstNode with code := 1 }, ended := [0] }
def consumer : Launch := { firstLaunchOf 2 1 with graph := 1, node := 1, nd := node2, state := .pending, started := [] }
theorem witness_LaunchesProgress_flag : (match producer.launch? 1 with
    | some l => tileCount l ⟨data, 64, 64, 1, 1⟩ == 1 && (1, 0) ∉ l.flagged && producer.flagReady l ⟨data, 64, 64, 1, 1⟩ 0
    | none => false) = true := by decide +kernel
/-- A launch becomes ready; its features leave, and come back. -/
def consuming (st : LState) (feat : Nat) : State := { producer with launches := { consumer with state := st, cfeat := feat } :: producer.launches }
theorem witness_LaunchesProgress_ready : (match (consuming .pending 1).launch? 2, (consuming .ready (2 ^ 31)).launch? 2, (consuming .featureWait 1).launch? 2 with
    | some l, some m, some k => (List.range l.nd.blocks).any (fun b => (consuming .pending 1).depsOk l b) && (((consuming .pending 1).ctx? 1).bind fun c => c.effective l.region).isSome &&
        m.state == .ready && !(consuming .ready (2 ^ 31)).someCore m && k.state == .featureWait && (consuming .featureWait 1).someCore k
    | _, _, _ => false) = true := by decide +kernel
/-- Abandoned at its bound; over; over and released; abandoned with its producer. -/
theorem witness_LaunchesProgress_ends : (∀ st ∈ [LState.pending, .ready, .featureWait],
      (({ late5 (consuming st 1) with launches := [{ consumer with state := st, deadline := 3, rcb := { openRcb with abnd := 2 } }] } : State).launch? 2).any
        (fun l => l.state == st && (late5 (small [])).pastAbandon l && !(consuming st 1).ending l) = true) ∧
    ((producer.launch? 1).any fun l => l.state == .running && l.ended.length == l.nd.blocks && !l.det) = true ∧
    (((onLaunch producer fun l => { l with det := true, released := 1 }).launch? 1).any fun l => l.state == .running && l.ended.length == l.nd.blocks && l.released == l.nd.blocks) = true ∧
    (let s : State := { small [] with graphs := [graph1], launches := [consumer, { firstLaunchOf 1 1 with graph := 1, state := .complete, status := .lateAbandoned }] }
     (s.launch? 2).any fun l => l.state == .pending && s.lostProducer l) = true := ⟨by decide +kernel, by decide +kernel, by decide +kernel, by decide +kernel⟩
def staging (w : Staged) : State := onBlock (onLaunch producer fun l => { l with det := true }) fun b => { b with ended := true, staged := [w] }
/-- A staged byte, and a staged KEEP store of a token that its cell accepts. -/
def stagings : List Staged := [.bytes 3 .st ⟨0, 0, 1, 2, 0⟩ data [7] false, .keep 3 ⟨0, 0, 1, 2, 0⟩ keepAt 0 7 0 .add false]
theorem witness_LaunchesProgress_release : (∀ w ∈ stagings,
      ((staging w).launch? 1).any (fun l => l.det && l.released == 0 && l.state == .running && !(staging w).ending l &&
        ((staging w).ctx? l.ctx).any fun c => refusal [] ((staging w).cell keepAt) 0 (c.quotaFull [] l.region) true == none && decide (0 ≤ ((staging w).startCell l keepAt).gen)) = true ∧
      ((staging w).blocks.find? fun b => b.launch == 1 && b.linear == 0 && b.ended).any (fun b => b.staged == [w]) = true ∧
      (staging w).linkDown data = false ∧ (staging w).cells = [] ∧ ∀ x ∈ ((staging w).cell keepAt).sibs, x.poison = false) := by decide +kernel

/-! A queue on kick register 3: its arena at 0x1000, its parameter ring on the data page. -/

def queue1 : Queue := ⟨3, 1, 0x1000, 4096, 0, 0, data, 4096, 0, 2, 0, false, false⟩
def queued : State := { producer with queues := [queue1] }
/-- An accepted kick (an empty packet); a register without a queue; a word with a reserved bit. -/
theorem witness_KicksLaunch_kick : (queued.acceptKick queue1 1).isSome = true ∧ queued.queues.find? (fun q => q.kick == 4) = none ∧
    queued.acceptKick queue1 (2 ^ 48 + 1) = none := ⟨by decide +kernel, by decide +kernel, by decide +kernel⟩
/-- A replay of two nodes, whose blocks fill the ring to its end. -/
def replaying : State := { queued with replays := [⟨9, 3, 1, 0, 1, 0, [List.replicate 64 1, List.replicate 4032 2]⟩] }
theorem witness_KicksLaunch_place : ((replaying.ctx? 1).isSome && (replaying.graph? 1).isSome) = true ∧
    ringPlaces queue1.psize queue1.pnext [64, 4032] (replaying.ringHeld queue1) = some ([0, 64], 0) := ⟨by decide +kernel, by decide +kernel⟩

/-! Administrative commands: packets of fields (id, length, value). -/

def packet (fs : List (Nat × Nat × Nat)) : Packet := ⟨1, fs.map fun f => ⟨false, false, f.1, leBytes f.2.1 f.2.2⟩⟩
/-- The fields with which a command can begin. -/
def begins (s : State) (i : Instr) : Option Parsed := match adminOf s i with
  | some (p, specs, names, always) => match parsePacket specs p with
    | .ok q0 => let q := q0.trim (trimOf s i q0)
      if s.seqTurn p.seq && !s.busyNames (names q) && (!s.failed || always) then some q else none
    | .error _ => none
  | none => none
theorem begins_spec {s : State} {i : Instr} {q : Parsed} (h : begins s i = some q) : Begins s i q := by
  unfold begins at h
  split at h
  next p specs names always ha =>
    split at h
    next q0 hq =>
      dsimp only at h
      split at h
      next hc =>
        cases h
        simp only [Bool.and_eq_true, Bool.not_eq_true', Bool.or_eq_true] at hc
        exact ⟨p, specs, names, always, q0, ha, hc.1.1, hq, rfl, hc.1.2, hc.2⟩
      next => exact nomatch h
    next => exact nomatch h
  next => exact nomatch h
/-- A command begins in a state, and its fields meet `p`. -/
def Starts (s : State) (i : Instr) (p : Parsed → Bool) : Prop := ∃ q, Begins s i q ∧ p q = true
theorem starts {s : State} {i : Instr} {p : Parsed → Bool} (h : ((begins s i).map p).getD false = true) : Starts s i p := by
  cases hb : begins s i with
  | none => simp [hb] at h
  | some q => exact ⟨q, begins_spec hb, by simpa [hb] using h⟩
def open1 (s : State) (p : Context → Bool) : Bool := (s.ctx? 1).any fun c => !c.restricted && p c

/-- Its turn, and not its turn; a missing field; a busy context; a failed module. -/
theorem witness_CommandsChecked : (State.seqTurn { small [] with seqTaken := some 5 } 1 = false ∧ (small []).seqTurn 1 = true) ∧
    (match parsePacket [fixedField 2 4] (packet []) with | .error st => st == stMISSING | .ok _ => false) = true ∧
    (let s : State := { small [] with waiting := [⟨7, [nameCtx 1], none, .drained 1 0, 0, 0, 0⟩] }
     match adminOf s (.ctxDestroy (packet [(2, 4, 1)])) with
     | some (p, specs, names, _) => (match parsePacket specs p with | .ok q => s.busyNames (names q) | .error _ => false)
     | none => false) = true ∧
    (let s : State := { small [] with sup := { (small []).sup with health := .failed } }
     match adminOf s (.unmap (packet [(2, 4, 1), (3, 8, data), (4, 8, 65536)])) with
     | some (p, specs, names, always) => (match parsePacket specs p with | .ok q => !s.busyNames (names q) && s.failed && !always | .error _ => false)
     | none => false) = true := ⟨by decide +kernel, by decide +kernel, by decide +kernel, by decide +kernel⟩

/-- A control block at `at_`. -/
def withCb (at_ : Nat) (r : Rcb) (num : Nat) : State := (small []).poke at_ (r.bytes num)
def root1 : Rcb := { openRcb with parent := 0 }
def child1 : Rcb := { openRcb with parent := 0, ovr := 0, perm := 0 }
theorem witness_ContextsManaged_create : Starts (withCb data root1 0) (.ctxCreate (packet [(2, 8, data), (3, 8, 2 ^ 41)])) fun q =>
    (match parseRcb ((withCb data root1 0).readPhys (q.nat 2) 128) with | some r => r.parent == 0 && r.ovr == 0x1FFF && q.has 4 == (r.perm / 8 % 2 == 1) | none => false) &&
    q.nat 2 % 64 == 0 && inDram (q.nat 2) 128 && q.nat 3 % windowSize == 0 && decide (q.nat 3 < 2 ^ 56) && (withCb data root1 0).sup.health != .critical := starts (by decide +kernel)
def idle1 : State := { small [] with gangs := [], blocks := [], launches := [] }
theorem witness_ContextsManaged_destroy : Starts idle1 (.ctxDestroy (packet [(2, 4, 1)])) (fun _ =>
      (idle1.ctx? 1).isSome && !idle1.hasBlocks 1 && idle1.liveLaunches 1 == 0) ∧
    Starts (small []) (.ctxDestroyForce (packet [(2, 4, 1), (3, 0, 0)])) (fun _ => ((small []).ctx? 1).isSome) := ⟨starts (by decide +kernel), starts (by decide +kernel)⟩
theorem witness_ContextsManaged_define : Starts (withCb data child1 0) (.regionDefine (packet [(2, 4, 1), (3, 8, data)])) fun _ =>
    open1 (withCb data child1 0) fun c => match (withCb data child1 0).readCb c data with
      | .ok bs => (match parseRcb bs, c.regionAt 0 with
        | some r, some par => (c.regionAt data).isNone && r.parent == 0 && c.freeRegion == 1 &&
          Context.treeOk { c with regions := c.regions ++ [⟨c.freeRegion, some par.num, data, r, par.preempt⟩] }
        | _, _ => false)
      | .error _ => false := starts (by decide +kernel)
/-- The root's block, and a child's. -/
def refreshable (s : State) (va : Nat) : Bool := open1 s fun c => match c.regionAt va with
  | some r => (match (if r.parent = none then .ok (s.readPhys c.rootCb 128) else s.readCb c va : Except (Nat × Nat) (List Byte)) with
    | .ok bs => (c.refreshed r bs false).isSome
    | .error _ => false)
  | none => false
def nested : State := { withCb data child1 1 with contexts := [{ ctx1 with regions := ctx1.regions ++ [⟨1, some 0, data, child1, .none⟩] }] }
theorem witness_ContextsManaged_refresh :
    Starts (withCb 0 root1 0) (.regionRefresh (packet [(2, 4, 1), (3, 8, 0), (4, 0, 0)])) (fun _ => refreshable (withCb 0 root1 0) 0) ∧
    Starts nested (.regionRefresh (packet [(2, 4, 1), (3, 8, data), (4, 0, 0)])) (fun _ => refreshable nested data) :=
  ⟨starts (by decide +kernel), starts (by decide +kernel)⟩
theorem witness_ContextsManaged_removal : (∀ k ∈ [1, 7, 8], let s : State := { small [] with removals := [⟨9, 1, none, k, some 1⟩] }
    (s.removals.find? fun r => r.id == 9).isSome = true) := by decide

def mapPacket (va len sz pa attr : Nat) : List (Nat × Nat × Nat) := [(2, 4, 1), (3, 8, va), (4, 8, len), (5, 1, sz), (6, 8, pa), (7, 2, attr)]
def mappable (s : State) (q : Parsed) : Bool := open1 s fun c =>
  let va := q.nat 3
  let n := q.nat 4
  let sz := [2 ^ 12, 2 ^ 16, 2 ^ 21, 2 ^ 30, 2 ^ 35].getD (q.nat 5) 0
  let attr := q.nat 7
  let link := if q.has 0x11 then some (q.nat 0x11) else none
  let pa := match link with | some l => peerLoc l (q.nat 6) | none => q.nat 6
  let host := inHost (q.nat 6) n && link.isNone
  sz != 0 && n != 0 && n % sz == 0 && va % sz == 0 && q.nat 6 % sz == 0 && decide (va + n ≤ 2 ^ 56) && decide (attr < 2 ^ 12) && !overlap (va, n) (c.window, windowSize) &&
    (inDram (q.nat 6) n || host) && (link.all fun l => l ≤ 15) && !badAttr c (pageOf va sz pa attr link) host && (c.mappedIn va n).isEmpty
/-- Two pages; a KEEP page; the last page of the address space on a stack's last bytes; a page of host memory; a peer's page over the last link. -/
theorem witness_PagesManaged_map : (∀ p ∈ [mapPacket 0x600000 8192 0 0x800000 3, mapPacket 0x600000 65536 1 0x800000 0xB, mapPacket (2 ^ 56 - 4096) 4096 0 (0x30 * 2 ^ 32 - 4096) 1,
      mapPacket 0x600000 4096 0 (2 ^ 52 - 4096) 0x43], ((begins (small []) (.map (packet p))).map (mappable (small []))).getD false = true) ∧
    Starts (small []) (.mapPeer ⟨1, (packet (mapPacket 0x600000 4096 0 0 3)).fields ++ [⟨true, false, 0x11, [15]⟩]⟩) (mappable (small [])) :=
  ⟨by decide +kernel, starts (by decide +kernel)⟩
def rangeOf (q : Parsed) (p : Context → List Page → Bool) : Bool := open1 (small []) fun c =>
  let ps := c.mappedIn (q.nat 3) (q.nat 4)
  !ps.isEmpty && !cutsPage ps (q.nat 3) (q.nat 4) && p c ps
theorem witness_PagesManaged_unmap : Starts (small []) (.unmap (packet [(2, 4, 1), (3, 8, data), (4, 8, 65536)])) (fun q => rangeOf q fun _ _ => true) ∧
    Starts (small []) (.protect (packet [(2, 4, 1), (3, 8, data), (4, 8, 65536), (7, 2, 1)])) (fun q => rangeOf q fun c ps => ps.all fun x =>
      x.attr - (x.attr &&& 0x0F27) == q.nat 7 - (q.nat 7 &&& 0x0F27) && !badAttr c (pageOf x.va x.size x.pa (q.nat 7) x.link) (inHost x.pa x.size && x.link.isNone)) :=
  ⟨starts (by decide +kernel), starts (by decide +kernel)⟩

def loadable (feat : Nat) : State := (small []).poke data (leBytes 4 feat ++ leBytes 2 64 ++ leBytes 2 0 ++ leBytes 8 64 ++ leBytes 48 0 ++ (makeLine 1 0 (firstParcels 32 0x60)).bytes)
theorem witness_CodeManaged_load : Starts (loadable 0) (.codeLoad (packet [(2, 4, 1), (3, 8, data), (4, 4, 128), (5, 8, firstLine + 64)])) fun q =>
    open1 (loadable 0) fun c => let n := q.nat 4; let h := (loadable 0).readPhys (q.nat 3) 64
      inDram (q.nat 3) n && n % 64 == 0 && decide (64 ≤ n) && q.nat 5 % 64 == 0 && fieldAt h 8 8 == n - 64 && decide (fieldAt h 4 2 ≤ 256) && fieldAt h 6 2 == 0 && (h.drop 16).all (· == 0) &&
      (c.rangeStatus (q.nat 5) (n - 64) (·.x)).isNone := starts (by decide +kernel)
def coded (handle : Nat) : State := { small [] with codes := [⟨handle, 1, data, 64, 0, 64, 0⟩] }
theorem witness_CodeManaged_unload : Starts (coded 1) (.codeUnload (packet [(2, 4, 1)])) (fun q => ((coded 1).code? (q.nat 2)).any fun o => (coded 1).codeRefs o == 0) ∧
    Starts { coded 1 with graphs := [graph1] } (.codeUnloadForce (packet [(2, 4, 1), (3, 0, 0)])) (fun q =>
      (State.code? { coded 1 with graphs := [graph1] } (q.nat 2)).any fun o => State.gangsIn { coded 1 with graphs := [graph1] } o == 0) :=
  ⟨starts (by decide +kernel), starts (by decide +kernel)⟩
/-- The code of the first line, copied two lines on, with its map behind it, on a page that can be read and executed. -/
def packed (replace : Bool) : Instr := (if replace then Instr.repackReplace else .repack) (packet ([(2, 4, 1), (3, 1, 1), (4, 8, firstLine + 128)] ++ if replace then [(5, 0, 0)] else []))
theorem witness_CodeManaged_repack (replace : Bool) : Starts producer (packed replace) fun q => match producer.code? (q.nat 2), producer.ctx? 1 with
    | some o, some c => !c.restricted && o.ctx == 1 && q.nat 4 % 64 == 0 && q.nat 3 != 0 && match producer.readCtx c o.va o.size with
      | .ok bs => (c.rangeStatus (q.nat 4) o.size (·.x)).isNone && (c.rangeStatus (q.nat 4 + o.size) (safeMap o.va (q.nat 4) o.size (boundaries bs)).length (·.r)).isNone
      | .error _ => false
    | _, _ => false := by cases replace <;> exact starts (by decide +kernel)
/-- A graph object of one node, without edges or template. -/
def graphObject : List Byte := leBytes 2 1 ++ leBytes 2 0 ++ leBytes 4 0 ++ leBytes 8 0 ++ leBytes 8 64 ++ leBytes 8 128 ++ leBytes 8 128 ++ leBytes 24 0 ++
  (leBytes 4 1 ++ leBytes 4 4 ++ leBytes 4 1 ++ leBytes 4 1 ++ leBytes 4 1 ++ leBytes 2 1 ++ leBytes 42 0)
def graphable : State := ({ small [] with codes := [code1] } : State).poke data graphObject
theorem witness_CodeManaged_graphs : Starts graphable (.graphLoad (packet [(2, 4, 1), (3, 8, data)])) (fun q => open1 graphable fun c =>
      graphable.freeGraph == 1 && isOk (graphable.readGraph c (q.nat 3) 1)) ∧
    Starts { small [] with graphs := [graph1] } (.graphFree (packet [(2, 2, 1)])) (fun q =>
      (State.graph? { small [] with graphs := [graph1] } (q.nat 2)).any fun g => State.graphRefs { small [] with graphs := [graph1] } g.handle == 0) :=
  ⟨starts (by decide +kernel), starts (by decide +kernel)⟩
/-- The smallest rings, and larger ones that end with their page; the greatest vector. -/
theorem witness_CodeManaged_queue : (∀ p ∈ [[(2, 1, 0), (3, 4, 1), (4, 8, 0), (5, 4, 64), (6, 8, 0), (7, 4, 4096), (8, 8, data), (9, 4, 4096)],
      [(2, 1, 255), (3, 4, 1), (4, 8, 64), (5, 4, 4096), (6, 8, 4096), (7, 4, 2 ^ 20), (8, 8, data), (9, 4, 65536), (0x10, 1, 63)]],
    ((begins (small []) (.queueBind (packet p))).map fun q => open1 (small []) fun c => inDram (q.nat 4) (q.nat 5) && inDram (q.nat 6) (q.nat 7) && q.nat 4 % 64 == 0 && q.nat 5 % 64 == 0 && q.nat 6 % 4096 == 0 &&
      (List.range' 12 9).any (fun k => q.nat 7 == 2 ^ k) && q.nat 8 % 4096 == 0 && (List.range' 12 15).any (fun k => q.nat 9 == 2 ^ k) && (small []).liveOf (q.nat 2) == 0 &&
      (c.rangeStatus (q.nat 8) (q.nat 9) ringPage).isNone).getD false = true) := by decide +kernel

/-- A suspended context whose save area holds a section of a kind that LIFT knows, or does not. -/
def suspended (kind : Nat) : State := { small [] with contexts := [{ ctx1 with halted := true }], saved := [⟨1, imageSection kind 0 [], [], [], [], [], [], [], []⟩] }
theorem witness_PreemptionWorks_lift : (∀ x ∈ [(3, false), (0x8001, true)],
    ((begins (suspended x.1) (.preemptLift (packet [(2, 4, 1), (3, 2, 0), (4, 1, 3)]))).map fun q => q.nat 3 == 0 && open1 (suspended x.1) fun c =>
      c.halted && (suspended x.1).badArea c == x.2).getD false = true) := by decide +kernel
theorem witness_PreemptionWorks_commands : (∀ x ∈ [(Instr.preemptDrain, 0), (.preemptUrgent, 1), (.preemptSwitch, 2), (.preemptLift, 3)],
    ((begins (small []) (x.1 (packet [(2, 4, 1), (3, 2, 0), (4, 1, x.2)]))).map fun q => q.nat 3 == 0 && open1 (small []) fun c => c.regions.any fun r => r.num == 0).getD false = true) := by
  decide +kernel
def overdueRun : State := { onGang (late5 (small [])) fun g => { g with preempted := some 5 } with
  contexts := [{ ctx1 with regions := [⟨0, none, 0, openRcb, .urgent⟩] }] }
theorem witness_PreemptionWorks_pdl : (overdueRun.ctx? 1).isSome = true ∧ overdueRun.overdue 1 0 = true ∧ overdueRun.removals = [] := ⟨by decide +kernel, by decide +kernel, rfl⟩
def halting : State := { producer with contexts := [{ ctx1 with halted := true }] }
theorem witness_PreemptionWorks_halt : ((halting.ctx? 1).any fun c => halting.mayHalt c) = true ∧ (halting.gangsOf 1).length = 1 := ⟨by decide +kernel, by decide +kernel⟩
/-- The context of `halting`, saved, and a command that waits for its restore. -/
def restoring : State := { after (.contextHalt 1) halting with waiting := [⟨7, [nameCtx 1], none, .restored 1, 0, 0, 0⟩] }
theorem witness_PreemptionWorks_restore : (match restoring.ctx? 1, restoring.saved.find? fun v => v.ctx == 1 with
    | some c, some v => restoring.wantsRestore 1 && (restoring.rebuild c v).isSome && v.gangs.length == 1
    | _, _ => false) = true := by decide +kernel
/-- No core has the features that its block needs. -/
def homeless : State := { restoring with launches := restoring.launches.map fun l => { l with cfeat := 2 ^ 31 } }
theorem no_core {s : State} {l : Launch} (h : ∀ d ∈ List.range 8, s.featuresOn l d = false) (b : Block) : s.coreFor l b = none := by
  refine List.findSome?_eq_none_iff.2 fun p hp => if_neg ?_
  obtain ⟨d, hd, hk⟩ := List.mem_flatMap.1 hp
  obtain ⟨k, _, rfl⟩ := List.mem_map.1 hk
  simp [h d hd]
theorem no_place {s : State} {c : Context} {v : Saved} (hb : v.blocks ≠ []) (h : ∀ b ∈ v.blocks, (s.launch? b.launch).any (fun l => (List.range 8).all fun d => !s.featuresOn l d) = true) :
    s.rebuild c v = none ∧ s.lacksFeatures v = true := by
  obtain ⟨b, bs, hv⟩ := List.exists_cons_of_ne_nil hb
  have hl := h b (by simp [hv])
  obtain ⟨l, hl, hf⟩ := (Option.any_eq_true _ _).1 hl
  have hf : ∀ d ∈ List.range 8, s.featuresOn l d = false := fun d hd => by simpa using List.all_eq_true.1 hf d hd
  refine ⟨?_, List.any_eq_true.2 ⟨b, by simp [hv], ?_⟩⟩
  · simp only [State.rebuild, hv, State.placeAll, hl, no_core hf]
  · simp only [hl, Option.any_some, Bool.not_eq_true', State.someCore, List.any_eq_false]
    intro d hd
    simp [hf d hd]
theorem witness_PreemptionWorks_waits : ∃ c v, homeless.ctx? 1 = some c ∧ homeless.saved.find? (fun v => v.ctx == 1) = some v ∧ homeless.wantsRestore 1 = true ∧
    homeless.rebuild c v = none ∧ homeless.lacksFeatures v = true := by
  have h : (match homeless.ctx? 1, homeless.saved.find? fun v => v.ctx == 1 with
    | some _, some v => homeless.wantsRestore 1 && !v.blocks.isEmpty && v.blocks.all fun b =>
        (homeless.launch? b.launch).any fun l => (List.range 8).all fun d => !homeless.featuresOn l d
    | _, _ => false) = true := by decide +kernel
  split at h
  next c v hc hv =>
    simp only [Bool.and_eq_true, List.all_eq_true, Bool.not_eq_true', List.isEmpty_eq_false_iff] at h
    exact ⟨c, v, hc, hv, h.1.1, no_place h.1.2 fun b hb => by simpa using h.2 b hb⟩
  next => exact absurd h (by decide)
theorem witness_PreemptionWorks_out : Starts (small []) (.migrateOut (packet [(2, 4, 1), (3, 8, data), (4, 8, 65536)])) (fun q =>
    ((small []).ctx? (q.nat 2)).isSome && inDram (q.nat 3) (q.nat 4)) :=
  starts (by decide +kernel)
/-- An image with a context header and one region. -/
def imageOnly : List Byte := imageSection 1 1 (leBytes 4 7 ++ leBytes 12 0 ++ leBytes 8 0x100 ++ leBytes 16 0) ++ imageSection 2 1 (leBytes 8 0 ++ root1.bytes 0)
def importing : State := (small []).poke data imageOnly
/-- A context without a page always has room for its window, wherever its base is. -/
theorem pickWindow_nil {ps : List Page} (h : ps = []) (n : Nat) : (pickWindow ps n).isNone = false := by
  subst h
  unfold pickWindow
  rw [← Option.not_isSome, Bool.not_eq_false', List.find?_isSome]
  exact ⟨0, by simp, by decide⟩
theorem importing_image : importing.imageAt data = (imageOnly.map fun b => ⟨b, false, none⟩, none) := by decide +kernel
theorem importing_waits : ∃ t w d, importing.migrateIn (importing.imageAt data) 0 = .wait t w d := by
  rw [importing_image]
  delta State.migrateIn
  dsimp only
  rw [if_neg, if_neg]
  · split
    · rename_i h
      exact absurd (congrArg Option.isSome h) (by decide +kernel)
    · exact ⟨_, _, _, rfl⟩
  · decide +kernel
  · rintro (h | h | h | h | h | h | h | h | h | h | h | h)
    pick_goal 11
    · rw [pickWindow_nil (by decide +kernel)] at h
      cases h
    all_goals exact absurd h (by decide +kernel)
theorem witness_PreemptionWorks_in : ∃ q, Begins importing (.migrateIn (packet [(2, 8, data), (3, 8, 0)])) q ∧
    inMap (q.nat 2) (importing.imageLen (q.nat 2)) = true ∧ inMap (q.nat 3) (8 * mapCount (importing.imageAt (q.nat 2))) = true ∧
    ∃ t w d, importing.migrateIn (importing.imageAt (q.nat 2)) (q.nat 3) = .wait t w d :=
  ⟨⟨[(2, leBytes 8 data), (3, leBytes 8 0)], [], false, none⟩, begins_spec (by decide +kernel), by decide +kernel, by decide +kernel, importing_waits⟩

/-- Commands whose wait is over, without a ring and with one. -/
theorem witness_CommandsComplete : (∀ w ∈ [WaitFor.done, .old [] 0 [] [(keepAt, 65536, none)], .drained 1 7, .removed 2, .switched 2, .restored 1],
    ∀ size ∈ [0, 4096], ∀ note ∈ [none, some (1, data, none)],
      let s : State := { small [] with waiting := [⟨7, [], note, w, 0, 0, 0⟩], bar := { Bar0.reset with cqSize := BitVec.ofNat 64 size } }
      ((s.waiting.find? fun w => w.seq == 7).any fun w => s.waitOver w.wait) && s.cqRoom = true) := by decide +kernel
/-- A context without gangs whose image is to be written. -/
def leaving : State := { suspended 3 with contexts := [{ firstCtx 1 with halted := true }], waiting := [⟨7, [nameCtx 1], none, .migrated 1 data 65536 true, 0, 0, 0⟩] }
theorem witness_CommandsComplete_image : (match leaving.ctx? 1, leaving.saved.find? fun v => v.ctx == 1 with
    | some c, some v => leaving.waitOver (.migrated 1 data 65536 true) && leaving.cqRoom && 0 < (leaving.image c v).length && (leaving.image c v).length ≤ 65536
    | _, _ => false) = true := by decide +kernel

/-! Supervision, the host, peers and time. -/

theorem witness_SupervisionWorks_telemetry : (∀ p ∈ [[(2, 1, 12), (3, 8, 0)], [(2, 1, 24), (3, 8, data), (4, 8, 2 ^ 17)], [(2, 1, 24), (3, 8, 2 ^ 51), (4, 8, 2 ^ 51)]],
    ((begins (small []) (.telemetryCfg (packet p))).map fun q => q.nat 3 == 0 || (q.has 4 && inMap (q.nat 3) (q.nat 4) &&
      (List.range' 17 47).any fun k => q.nat 4 == 2 ^ k)).getD false = true) := by decide +kernel
def traced : State := { queued with contexts := [{ ctx1 with regions := [⟨0, none, 0, { openRcb with perm := 2 }, .none⟩] }] }
theorem witness_SupervisionWorks_traces : Starts traced (.traceCfg (packet [(2, 4, 1), (3, 2, 0), (4, 8, data), (5, 8, 4096), (6, 1, 31)])) (fun q =>
      inMap (q.nat 4) (q.nat 5) && open1 traced fun c => (c.effective 0).any fun e => e.perm / 2 % 2 == 1) ∧
    Starts traced (.traceStop ⟨1, (packet [(2, 4, 1), (3, 2, 0), (7, 1, 3)]).fields ++ [⟨true, false, 0x20, []⟩]⟩) (fun q => traced.queues.any fun x => x.kick == q.nat 7 && x.ctx == 1) ∧
    Starts traced (.traceRun (packet [(2, 4, 1), (3, 2, 0), (7, 1, 3), (0x21, 0, 0)])) (fun q => traced.queues.any fun x => x.kick == q.nat 7 && x.ctx == 1) :=
  ⟨starts (by decide +kernel), starts (by decide +kernel), starts (by decide +kernel)⟩
/-- The last key slot; room for exactly the health report. -/
theorem witness_SupervisionWorks_reports : Starts (small []) (.keyInstall (packet [(2, 1, 63), (3, 8, data)])) (fun q => inMap (q.nat 3) 384) ∧
    Starts (small []) (.healthQuery (packet [(2, 8, data), (3, 4, (small []).healthReport.length)])) (fun q => inMap (q.nat 2) (q.nat 3) && (small []).healthReport.length == q.nat 3) :=
  ⟨starts (by decide +kernel), starts (by decide +kernel)⟩
/-- The module's report always fits 128 KiB. -/
theorem attestReport_length (s : State) (nonce : List Byte) (h : nonce.length = 32) : (s.attestReport nonce none).length ≤ 2 ^ 17 := by
  simp only [State.attestReport, List.append_nil, List.length_append, List.length_take, digest, fit, leBytes, List.length_replicate, h]
  simp
  omega
theorem witness_SupervisionWorks_attest : ∃ q, Begins (small []) (.attest (packet [(2, 32, 7), (3, 8, data), (4, 4, 2 ^ 17)])) q ∧ q.has 5 = false ∧ inMap (q.nat 3) (q.nat 4) = true ∧
    ((small []).attestReport (q.get 2) (if q.has 5 then some (q.nat 5) else none)).length ≤ q.nat 4 := by
  refine ⟨⟨[(2, leBytes 32 7), (3, leBytes 8 data), (4, leBytes 4 (2 ^ 17))], [], false, none⟩, begins_spec (by decide +kernel), by decide +kernel, by decide +kernel, ?_⟩
  exact Nat.le_trans (attestReport_length _ _ (by decide +kernel)) (by decide +kernel)
theorem witness_SupervisionWorks_tick : (let s : State := { small [] with telemetry := { Telemetry.reset with due := 0 } }; s.telemetry.due ≤ s.cycle) := by decide +kernel
theorem witness_SupervisionWorks_stopped : (let s : State := { small [] with queues := [{ queue1 with stopped := true }] }
    (s.queues.find? fun x => x.kick == 3).any (fun x => x.stopped && !x.told) && s.launches.all fun l => l.kick != 3) = true := by decide +kernel
/-- The thousandth error of a cluster in 2^30 cycles was just before. -/
theorem witness_SupervisionWorks_errors (u : UnitId) : 1000 ≤ ((List.replicate 1000 (u, 0)).filter fun x => x.1 == u && decide (5 < x.2 + 2 ^ 30)).length := by
  rw [List.filter_replicate, if_pos (by simp), List.length_replicate]
/-- A line struck for the first time, and again. -/
theorem witness_SupervisionWorks_struck : Upset.line data ∉ (small []).sup.struck ∧ ((small []).upset (.line data)).sup.struck = [.line data] ∧
    (((small []).upset (.line data)).unitOf (.line data)).isSome = true := ⟨by decide +kernel, by decide +kernel, by decide +kernel⟩
/-- A cluster whose blocks go on, which is due, and an empty one, which retires. -/
theorem witness_SupervisionWorks_retire : (let s : State := { small [] with sup := { (small []).sup with due := [.cluster 0 0], retiring := [.cluster 7 49] } }
    UnitId.cluster 0 0 ∈ s.sup.due ∧ UnitId.cluster 7 49 ∈ s.sup.retiring) ∧ (small []).sup.retired = [] ∧ (small []).onCluster 0 0 = true ∧ (small []).onCluster 7 49 = false := ⟨by decide +kernel, rfl, by decide +kernel, by decide +kernel⟩
theorem witness_SupervisionWorks_spare : (let s : State := { small [] with sup := { Supervision.reset with retired := [.bank 7 127] } }
    UnitId.bank 7 127 ∈ s.sup.retired ∧ UnitId.bank 7 127 ∉ s.sup.spares) := by decide +kernel
theorem witness_SupervisionWorks_silent : 7 ∉ (small []).sup.silent := by decide +kernel
/-- A poisoned byte of the last line of device memory of a stack; a poisoned sibling in the first cell of a line of a KEEP page. -/
theorem witness_SupervisionWorks_scrub : (let addr := 7 * 2 ^ 38 + 0x30 * 2 ^ 32 - 1; let s : State := { small [] with poison := [addr] };
      s.keeperOf (addr / 64 * 64) == none && inDram (addr / 64 * 64) 64 && rbBad (s.lastBytes (addr / 64 * 64) 64)) = true ∧
    (let s : State := { small [] with cells := putCell [] { (small []).cell keepAt with sibs := [⟨3, 4, 0, none, true⟩] } };
      (s.keeperOf keepAt).isSome && (s.cell keepAt).sibs.any (·.poison) && !(s.cell (keepAt + 32)).sibs.any (·.poison)) = true := ⟨by decide +kernel, by decide +kernel⟩
/-- A bead of a running gang; the last line of a stack; a module all of whose dies answer. -/
theorem witness_SupervisionWorks_upset : (((small [(2, 5)]).gang? 2).any fun g => g.hasBead 0 2) = true ∧
    inDram ((7 * 2 ^ 38 + 0x30 * 2 ^ 32 - 1) / 64 * 64) 64 = true ∧ (small []).sup.silent = [] := ⟨by decide +kernel, by decide +kernel, rfl⟩

theorem witness_OutsideWorks_registers : barAligned 0 8 = true ∧ barAligned 0x4C 4 = true ∧ barAligned 0x18000 8 = true := ⟨by decide +kernel, by decide +kernel, by decide +kernel⟩
/-- Plain bytes, in memory and in a KEEP slot; a byte that stands encrypted. -/
theorem witness_OutsideWorks_read : (∀ k < 64, (small []).keeperOf (data + k) = none ∧
      (small []).keyIn (data + k) ((small []).byteFrom ((small []).latest hostUnits (data + k)) (data + k)) = none) ∧
    (((small []).keeperOf keepAt).any fun c => ((small []).keyAt (some c.num) keepAt).isNone) = true ∧
    (let s : State := { small [] with crypt := [(data, [7])] };
      s.keeperOf data = none ∧ inDram data 1 = true ∧ s.keyIn data (s.byteFrom (s.latest hostUnits data) data) = some [7]) :=
  ⟨by decide +kernel, by decide +kernel, by decide +kernel⟩
/-- The last bytes of a stack's memory; the host's own memory. -/
theorem witness_OutsideWorks_write : (∀ addr ∈ [0x30 * 2 ^ 32 - 2, 2 ^ 51], let data : List Byte := [1, 2]
    data ≠ [] ∧ isScratch addr = false ∧ ∀ k < data.length, (inDram (addr + k) 1 = true ∨ inHost (addr + k) 1 = true) ∧ (small []).keeperOf (addr + k) = none) ∧
    ∀ addr n, isScratch addr = false → (small []).noObjects addr n := by
  refine ⟨by decide +kernel, fun a n h => ⟨fun h' => ?_, fun _ w hw => ?_, fun b hb x hx => ?_⟩⟩
  · simp [h] at h'
  · exact absurd hw (by rw [show (small []).work = [] from rfl]; simp)
  · have hp : ∀ b ∈ (small []).blocks, b.passed = [] := by decide +kernel
    simp [hp b hb] at hx
def peered : State := { small [] with contexts := [{ ctx1 with pages := pageOf 0x600000 4096 (peerLoc 15 data) 3 (some 15) :: ctx1.pages }] }
theorem witness_OutsideWorks_peer : (∀ op ∈ [PeerOp.load 4096, .store [7], .atomic true .add .s32 1, .atomic false .xor .b64 1, .cas .b32 0 1], ((peered.links[15]?).any fun l => l.up) = true ∧ inDram data (peerBytes op) = true ∧
    ((List.range (peerBytes op)).all fun k => peered.consents 15 (data + k)) = true ∧ peered.keeperOf data = none ∧ data % peerBytes (.cas .b32 0 1) = 0) := by
  decide +kernel
theorem witness_OutsideWorks_links : (∀ n ∈ [0, 6, 7], let s : State := { small [] with links := List.replicate 16 ⟨true, n⟩ }
    ((s.links[15]?).any fun l => l.up && (l.fails < 7 || 7 ≤ l.fails) && s.ops.all fun o => !o.overLink 15) = true) := by decide +kernel
/-- Before the first lock and after it; a correction of one nanosecond either way, in its cycle and out of it. -/
theorem witness_OutsideWorks_time : (small []).sup.everLocked = false ∧ ({ Supervision.reset with everLocked := true } : Supervision).everLocked = true ∧
    (small []).cycle % 2500 = 0 ∧ State.cycle { small [] with cycle := 2499 } % 2500 ≠ 0 ∧ ((1 : Int) = 1 ∧ (0 : Int) < 2 ∨ (1 : Int) = -1 ∧ (2 : Int) < 0) ∧
    ((-1 : Int) = 1 ∧ (0 : Int) < -2 ∨ (-1 : Int) = -1 ∧ (-2 : Int) < 0) := ⟨rfl, rfl, by decide +kernel, by decide, by decide, by decide⟩
/-- A beacon over the lowest link that has them; over another one. -/
theorem witness_OutsideWorks_beacons : (small []).links[15]? = some ⟨true, 0⟩ ∧ (small []).sup.locked = false ∧
    (∀ k ∈ ({ Supervision.reset with beacons := [15] } : Supervision).beacons, 3 ≤ k) ∧ (∃ k ∈ ({ Supervision.reset with beacons := [3] } : Supervision).beacons, k < 15) :=
  ⟨by decide +kernel, rfl, by decide, 3, by decide, by decide⟩

/-! What the lanes compute; encodings; the step. -/

theorem witness_IntegersWrap_division : (∀ ty ∈ [Ty.s32, Ty.z32, Ty.s64, Ty.z64], Ty.isInt ty = true) ∧
    Meets (.idiv gT .s32 1 2 (.reg 3)) (small [(2, 0x80000000), (3, 0xFFFFFFFF)]) sound ∧ Meets (.irem gT .z64 1 2 (.reg 3)) (small [(2, 5)]) sound :=
  ⟨by decide, meets (by decide +kernel), meets (by decide +kernel)⟩
theorem witness_BitsAndFields_plain : Meets (.ctz gT .b32 1 2) (small [(2, 8)]) sound ∧ Meets (.movi gT .f64 1 0x7F800001) (small []) sound ∧
    Meets (.sel gT .b64 1 2 (.reg 3) 7) (small [(2, 8)]) sound := ⟨meets (by decide +kernel), meets (by decide +kernel), meets (by decide +kernel)⟩
theorem witness_BitsAndFields : Ty.count .b64 = 1 ∧ Ty.isInt .z32 = true ∧ Meets (.shl gT .b64 1 2 (.lit 64)) (small [(2, 5)]) sound ∧
    Meets (.bfe gT .z32 1 2 (.lit 0x807)) (small [(2, 5)]) sound ∧ Meets (.shlImmS 1 2 63) (small [(2, 5)]) sound :=
  ⟨by decide, by decide, meets (by decide +kernel), meets (by decide +kernel), meets (by decide +kernel)⟩
theorem witness_IntegersWrap_predicates : Meets (.plop gT 1 2 3 4 0x80) (small []) sound ∧ Meets (.pmov gT (.toReg 1)) (small []) sound ∧
    Meets (.pmov gT (.fromReg 2 0x7F)) (small [(2, 0x55)]) sound := ⟨meets (by decide +kernel), meets (by decide +kernel), meets (by decide +kernel)⟩
theorem witness_IntegersWrap : Ty.isArith .s16x4 = true ∧ Ty.isBits .b64 = true ∧ Meets (.isubs gT .z64 1 2 (.reg 3)) (small [(2, 3), (3, 5)]) sound ∧
    Meets (.iaddc gT .z32 1 2 (.reg 3) none 1) (small [(2, 3), (3, 5)]) sound ∧ Meets (.setp gT .z64 .lt .and 1 2 (.reg 3) 2) (small [(2, 3), (3, 5)]) sound ∧
    Meets (.lea gT 1 2 (.reg 3) 63) (small [(2, 3), (3, 5)]) sound ∧ (List.replicate 8 (0 : Word)).length = 8 :=
  ⟨by decide, by decide, meets (by decide +kernel), meets (by decide +kernel), meets (by decide +kernel), meets (by decide +kernel), rfl⟩

theorem witness_FloatsRound : (∀ ty ∈ [Ty.f32, .f64, .f16x4, .bf16x4, .f32x2], Ty.isFp ty = true) ∧ (Ty.fmt .bf16x4).isSome = true ∧
    (∀ i ∈ [.fdiv gT .f32 .rn 1 2 (.reg 3), .fscale gT .f32 .dyn 1 2 3, .fdot gT .bf16x4 .rn 1 2 3 4, .fmulBf16x4S 1 2 3],
      hand i (small [(2, 0x40400000), (3, 0x3F800000)]) sound = true) := ⟨by decide, by decide, by decide +kernel⟩
/-- A NaN operand; the special inputs and the exact cases of two functions. -/
theorem witness_FloatsCompare : Ty.isFp .f16x4 = true ∧ (∀ i ∈ [.fmin gT .f32 1 2 (.reg 3), .fsetp gT .f32 .lt .plain 1 2 (.reg 3) 7, .fclass gT .f32 1 2, .frcp gT .f32 1 2],
      hand i (small [(2, 0x7FC00000), (3, 0x3F800000)]) sound = true) ∧
    (sfuFlagged .rcp (.num true 0)).isSome = true ∧ SfuExact .sigm (.num false 0) (.num false (1 / 2)) ∧ FpVal.of fmt32 0x3F000000 = .num false (1 / 2) :=
  ⟨by decide, by decide +kernel, by decide +kernel, ⟨rfl, rfl⟩, by decide +kernel⟩
/-- Elements matched in groups, the first and the last; a block type; a block of eight words. -/
theorem witness_FormatsConvert : (∀ i ∈ [.cvt gT .bf16x4 .f32x2 .rn false 1 5 6, .cvtq gT .s8x8 .f32x2 .rn false 3 1 2 3, .olpack gT .s8x8 .f32x2 .rn 0 1 2 3 4],
      Instr.wf i = true ∧ hand i (small [(6, 0x3F800000)]) sound = true) ∧
    matched .bf16x4 .f32x2 1 3 = some 1 ∧ matched .bf16x4 .f32x2 1 1 = none ∧ Ty.isBlk .n4x16 = true ∧ (List.replicate 8 (0 : Word)).length = 8 :=
  ⟨by decide +kernel, by decide, by decide, by decide, rfl⟩
/-- A block; a whole block before more and a part of one at the end; each kind of pass; a format and none for a row. -/
theorem witness_RunsAccumulate : codeOf .n4x16 = 6 ∧ (List.replicate 64 (0 : Byte)).length = 64 ∧
    (let x : List Int := [1, 2]; x.length = 2 ∨ 0 < x.length ∧ x.length ≤ 2 ∧ ([] : List Int) = []) ∧
    (let x : List Int := [1]; x.length = 2 ∨ 0 < x.length ∧ x.length ≤ 2 ∧ ([] : List Int) = []) ∧
    rowFormat 16 [List.replicate 64 3] = some 3 ∧ rowFormat 16 [List.replicate 64 7] = some 7 :=
  ⟨by decide, by simp, by decide, by decide, by decide +kernel, by decide +kernel⟩

/-- A long form with a literal, an S form; a word that decodes. -/
theorem witness_RoundTrip : (∀ i ∈ [.iadd gN .b64 255 254 (.lit 0xFFFFFFFF), .ldB64S 63 62 61], i.wf = true ∧ encode i ≠ []) ∧
    decodeParcels 0x14000091 0x00091C00 0 = some (.setp ⟨7, false⟩ .z64 .lt .plain 0 0 (.reg 5) 0, 2) := ⟨by decide +kernel, by decide +kernel⟩
/-- The first step of a gang, at its line's first parcel. -/
def first (nbits w : Nat) : State := State.reset.withFetchWord nbits w
def issues (s0 : State) : Bool := let s := s0.wake; s0.agenda.isEmpty && match s.plan with
  | .issue (.group gid pc [0]) => (match s.tick.env? gid with
    | some e => s.tick.line.isNone && (match readLine s.tick e.c (e.place 0).units pc with
      | .ok l => l.map?.isNone && match decodeList (l.parcels.drop (parcelOf pc)) with
        | some (_, n) => decide (parcelOf pc + n ≤ 15)
        | none => false
      | .error _ => false)
    | none => false)
  | _ => false
/-- Two additions that are a pair, at the gang's first line. -/
def paired : State := (first 64 0).poke firstLine (makeLine 1 1 ([0x02010508, 0x02010608] ++ List.replicate 13 0xFFFFFFFF)).bytes
def issuesBoth (s0 : State) : Bool := let s := s0.wake; issues s0 && match s.plan with
  | .issue c => (match s.tick.issue c with
    | .ok (i, t) => (match t.cur.pair, exec i t with
      | some p, .next u => t.secondGoes u t.cur p && (decodeParcels (BitVec.ofNat 32 p.enc.toNat) (BitVec.ofNat 32 (p.enc.toNat / 2 ^ 32)) p.lit).isSome
      | _, _ => false)
    | .error _ => false)
  | _ => false
/-- A step without a pair, one with its second; a transition and an issue on the agenda. -/
theorem witness_StepRunsDecoded : issues (first 64 0x91C0014000091) = true ∧ issuesBoth paired = true ∧
    ({ small [] with agenda := [.take (.nop gT)] } : State).agenda = [.take (.nop gT)] ∧
    ({ small [] with agenda := [.upset (.vault 7 127)] } : State).agenda = [.upset (.vault 7 127)] ∧
    (let s : State := { first 64 0 with agenda := [.issue 2 (firstLine + 4)] }; (State.issueAt (State.tick { s with agenda := [] }) 2 (firstLine + 4)).isSome) = true :=
  ⟨by decide +kernel, by decide +kernel, rfl, rfl, by decide +kernel⟩
theorem witness_invariants : (∀ s ∈ [State.reset, first 64 0x91C0014000091, small [(2, 5)]], Memory.wf s.mem = true ∧ s.gangsSound = true ∧
    (match step s with | .next _ => true | _ => false) = true) := by decide +kernel

/-! One step of an instruction: the values are the spec's own worked values, named with their rule. -/

/-- The register of thread 0 after the instruction. -/
def gives (i : Instr) (rs : List (Nat × Nat)) (d : Reg) : Nat := ((after i (small rs)).reg 2 0 d).toNat
def predsAfter (i : Instr) (s : State) : Nat := (((after i s).thread? 2 0).map (·.preds.toNat)).getD 0

/-- R93: a carry out of 64 bits, and the next word's sum with it. -/
theorem test_iaddc : gives (.iaddc gT .z64 4 2 (.reg 3) none 1) [(2, 2 ^ 64 - 1), (3, 1)] 4 = 0 ∧
    predsAfter (.iaddc gT .z64 4 2 (.reg 3) none 1) (small [(2, 2 ^ 64 - 1), (3, 1)]) = 2 ∧
    gives (.iaddc gT .z64 4 2 (.reg 3) (some 7) 1) [(2, 5), (3, 6)] 4 = 12 := ⟨by decide +kernel, by decide +kernel, by decide +kernel⟩
/-- R93: a borrow. -/
theorem test_isubb : gives (.isubb gT .z32 4 2 (.reg 3) none 1) [(2, 0), (3, 1)] 4 = 0xFFFFFFFF ∧
    predsAfter (.isubb gT .z32 4 2 (.reg 3) none 1) (small [(2, 0), (3, 1)]) = 2 := ⟨by decide +kernel, by decide +kernel⟩
/-- R94: the quotient by zero; the most negative value by −1; truncation. -/
theorem test_idiv : gives (.idiv gT .s32 4 2 (.reg 3)) [(2, 7)] 4 = 0xFFFFFFFF ∧ gives (.idiv gT .s32 4 2 (.reg 3)) [(2, 0x80000000), (3, 0xFFFFFFFF)] 4 = 0x80000000 ∧
    gives (.idiv gT .s64 4 2 (.reg 3)) [(2, 2 ^ 64 - 7), (3, 2)] 4 = 2 ^ 64 - 3 := ⟨by decide +kernel, by decide +kernel, by decide +kernel⟩
theorem test_irem : gives (.irem gT .s64 4 2 (.reg 3)) [(2, 2 ^ 64 - 7), (3, 2)] 4 = 2 ^ 64 - 1 ∧ gives (.irem gT .z32 4 2 (.reg 3)) [(2, 7)] 4 = 7 :=
  ⟨by decide +kernel, by decide +kernel⟩
/-- R98: shifts by the width. -/
theorem test_shifts : gives (.shl gT .b64 4 2 (.lit 64)) [(2, 5)] 4 = 0 ∧ gives (.sar gT .s32 4 2 (.lit 32)) [(2, 0x80000000)] 4 = 0xFFFFFFFF ∧
    gives (.shrImmS 4 2 4) [(2, 0x50)] 4 = 5 := ⟨by decide +kernel, by decide +kernel, by decide +kernel⟩
/-- R99: pos 4, len 8 of 0xABC; a signed field; an insertion. -/
theorem test_bfe : gives (.bfe gT .z32 4 2 (.lit 0x804)) [(2, 0xABC)] 4 = 0xAB ∧ gives (.bfe gT .s32 4 2 (.lit 0x404)) [(2, 0xABC)] 4 = 0xFFFFFFFB :=
  ⟨by decide +kernel, by decide +kernel⟩
theorem test_bfi : gives (.bfi gT .b64 4 2 (.lit 0x404) 3) [(2, 0xF), (3, 0xABC)] 4 = 0xAFC := by decide +kernel
/-- R100: selector 0x01234567 reverses the bytes of A. -/
theorem test_bperm : gives (.bperm gT 4 2 (.lit 0x01234567) 3) [(2, 0x0102030405060708)] 4 = 0x0807060504030201 := by decide +kernel
/-- R92: saturation at 0. -/
theorem test_isubs : gives (.isubs gT .z64 4 2 (.reg 3)) [(2, 3), (3, 5)] 4 = 0 := by decide +kernel
/-- R102: pa and pb is 0xC0; pa or not pb is 0xF3. -/
theorem test_plop : predsAfter (.plop gT 0 1 2 3 0xC0) (onThread (small []) fun x => { x with preds := 6 }) = 7 ∧
    predsAfter (.plop gT 0 1 2 3 0xF3) (onThread (small []) fun x => { x with preds := 4 }) = 4 := ⟨by decide +kernel, by decide +kernel⟩
/-- R103: bit 7 reads 1. -/
theorem test_pmov : gives (.pmov gT (.toReg 4)) [] 4 = 0x80 := by decide +kernel

/-- R128's example of FDOT: 10.5. -/
theorem test_fdot : gives (.fdot gT .bf16x4 .rn 5 2 3 4) [(2, 0x408040404000_3F80), (3, 0x3F803F803F803F80), (4, 0x3F000000)] 5 = 0x41280000 := by decide +kernel
/-- The example of CVT to elements 2 and 3. -/
theorem test_cvt : gives (.cvt gT .bf16x4 .f32x2 .rn false 1 5 6) [(6, 0xC06000003F800000), (5, 0x40003F80)] 5 = 0xC0603F8040003F80 := by decide +kernel
/-- BLKHDR: m = 100.0 for N4 gives e = 0x83. -/
theorem test_blkhdr : gives (.blkhdr gT .n4x16 .amax 5 6) [(6, 0x42C80000)] 5 / 256 % 256 = 0x83 := by decide +kernel
/-- "A block at work": K1, K2, K4 to K6. -/
theorem test_unpack : [32, 33, 39].map (gives (.unpack gT 32 24) [(24, 0x00000088F8838006), (31, 0x3FC0BF0042C80000)]) = [0x0088F883, 0, 0x3FC0BF0042C88006] := by decide +kernel
theorem test_olunpk : gives (.olunpk gT .n4x16 41 32) [(32, 0x0088F883)] 41 = 0x36 := by decide +kernel
theorem test_dq : [0, 1, 2].map (fun h => gives (.dq gT .f32x2 .rn h 42 32 39 50) [(32, 0x0088F883), (39, 0x3FC0BF0042C88006)] 42) =
    [0x4348000040C00000, 0xC0000000BF800000, 0x40400000] := by decide +kernel

/-- Four threads whose g9 is 1.0, 2^24, 1.0, 1.0, with p2 true in threads 0, 1 and 3. -/
def four (i : Instr) : State := after i (let s := onGang (small []) fun g => { g with
    threads := (List.range 4).map fun t => { Thread.fresh t (firstLine + 4) with preds := if t = 2 then 0 else 4 },
    rods := [(9, .value ([0x3F800000, 0x4B800000, 0x3F800000, 0x3F800000] ++ List.replicate 28 0)), (11, .value (List.replicate 32 7))] }
  { s with cur := { s.cur with mask := [0, 1, 2, 3] } })
/-- R144's tree at work: T1 and T2. -/
theorem test_redux : (List.range 4).map (fun t => ((four (.redux gT .add .f32 .rn 10 9)).reg 2 t 10).toNat) = List.replicate 4 0x4B800001 := by decide +kernel
theorem test_scanx : (List.range 4).map (fun t => ((four (.scanx ⟨2, false⟩ .add .f32 .rn 11 9)).reg 2 t 11).toNat) = [0, 0x3F800000, 7, 0x4B800000] := by decide +kernel

/-- The words of the frame at `data`. -/
def frameWords (s : State) : List Nat := (List.range 4).map fun k => fieldAt (s.readPhys data 32) (8 * k) 8
def hspAfter (s : State) : Nat := ((s.thread? 2 0).map (·.hsp.toNat)).getD 1
/-- R186's trace of Fragment 6. HPUSH: GEN 1, MATCH 0x0042, MASK 0xFFFF; handler 8 bytes on, exit 4 parcels on. -/
theorem test_hpush : (let s := after (.hpush gT false false 2 3 0 4 8) (small [(2, data), (3, 0xFFFFFFFFFFFF0042)])
    hspAfter s = data ∧ frameWords s = [2 ^ 48, 0x42 * 2 ^ 48 + firstLine + 12, 0xFFFF * 2 ^ 48 + firstLine + 20, 0]) := by decide +kernel
/-- PERFORM with x = −2.0, p1 alone true: %hsp 0, GEN 2, PARENT F, SAVE P + 2. -/
theorem test_perform : (let s := after (.perform ⟨1, false⟩ 8 (.lit 0x42) 8) (onThread (withFrame [(8, 0xC0000000)] data { frameOf 0 0 false with gen := 1 }) fun x => { x with preds := 2 })
    hspAfter s = 0 ∧ (frameWords s).head? = some (2 ^ 49 + data) ∧ ((frameWords s).getD 3 0) % 2 ^ 48 = firstLine + 6 ∧
    (s.thread? 2 0).map (fun x => (x.etok.toNat, x.earg.toNat, x.eff.toNat)) = some (2 ^ 49 + data, 0xC0000000, 0x42)) := by decide +kernel
/-- HPOP: GEN 3, %hsp the parent. -/
theorem test_hpop : (let s := after (.hpop gT 2) (withFrame [(2, data)] data (frameOf 0 0 false))
    hspAfter s = 0 ∧ (frameWords s).head? = some (3 * 2 ^ 48)) := by decide +kernel
end Sys2Proof.Tests
end

/-! ## Memory stays canonical (O59)

A state is canonical when its memory is. Memory changes in four places only: a write that has reached every unit settles into it
(`State.retire`), a restored block puts its scratchpad back, a block that ends or a slot whose metadata is cleared takes cells
out, and BOOT resets it. Every other function of the model leaves it alone. So there is one lemma per function, in the model's
own order, whose proof cites the lemmas of the functions it calls along the branches of its definition; the step's lemma stands
at the end. -/

namespace Sys2Proof.Machine
open Host

section

/-- The memory of a state is in its canonical form: what O59 says of a state. -/
def State.Canonical (s : State) : Prop := Memory.wf s.mem = true

/-- What an instruction ends in is canonical: a fault or a refusal has no state to speak of. -/
def OutcomeCanonical : Host.Outcome State Fault Refusal → Prop
  | .next t => t.Canonical
  | _ => True

/-- A state that may be missing is canonical where it stands. -/
def OptionCanonical : Option State → Prop
  | some t => t.Canonical
  | none => True

/-- An instruction's preparation is canonical: the state it came from and the one it goes on with. -/
structure Prep.Canonical (p : Prep) : Prop where
  s0 : p.s0.Canonical
  s : p.s.Canonical

/-- Preparing ends in a canonical preparation, or in a canonical state where a check stopped it. -/
def PrepCanonical : Except State Prep → Prop
  | .ok p => p.Canonical
  | .error t => t.Canonical

/-- Issuing ends in a canonical state, with the instruction or without one. -/
def IssueCanonical : Except State (Instr × State) → Prop
  | .ok p => p.2.Canonical
  | .error t => t.Canonical

/-- A command's result is canonical: one that rejects leaves the state to its caller. -/
def CmdResult.Canonical : CmdResult → Prop
  | .reject .. => True
  | .done t _ => t.Canonical
  | .wait t .. => t.Canonical

/-- Materialising rods ends in a canonical state where it is done. -/
def Mat.Canonical : Mat → Prop
  | .ok t => t.Canonical
  | _ => True

/-- Performing an operation ends in a canonical state where it is performed. -/
def Performed.Canonical : Performed → Prop
  | .ok t .. => t.Canonical
  | _ => True

variable {s : State} {p : Prep} {g : Guard}

/-- What leaves `mem` alone keeps it canonical: each function that writes other fields only is one use of this. -/
theorem State.Canonical.frame {s t : State} (h : s.Canonical) (e : t.mem = s.mem) : t.Canonical :=
  show Memory.wf t.mem = true from e ▸ h

theorem State.Canonical.fst {α : Type} {p : State × α} {a : α} {t : State} (e : p = (t, a)) (h : p.1.Canonical) :
    t.Canonical := by
  subst e
  exact h

theorem OptionCanonical.of_some {o : Option State} {t : State} (e : o = some t) (h : OptionCanonical o) :
    t.Canonical := by
  subst e
  exact h

theorem OutcomeCanonical.of_next {o : Host.Outcome State Fault Refusal} {t : State} (e : o = .next t) (h : OutcomeCanonical o) :
    t.Canonical := by
  subst e
  exact h

theorem PrepCanonical.of_ok {o : Except State Prep} (e : o = .ok p) (h : PrepCanonical o) : p.Canonical := by
  subst e
  exact h

theorem PrepCanonical.of_error {o : Except State Prep} {t : State} (e : o = .error t) (h : PrepCanonical o) :
    t.Canonical := by
  subst e
  exact h

theorem IssueCanonical.of_ok {o : Except State (Instr × State)} {i : Instr} {t : State} (e : o = .ok (i, t))
    (h : IssueCanonical o) : t.Canonical := by
  subst e
  exact h

theorem IssueCanonical.of_error {o : Except State (Instr × State)} {t : State} (e : o = .error t) (h : IssueCanonical o) :
    t.Canonical := by
  subst e
  exact h

theorem CmdResult.Canonical.of_done {o : CmdResult} {t : State} {d} (e : o = .done t d) (h : CmdResult.Canonical o) :
    t.Canonical := by
  subst e
  exact h

theorem CmdResult.Canonical.of_wait {o : CmdResult} {t : State} {w d} (e : o = .wait t w d) (h : CmdResult.Canonical o) :
    t.Canonical := by
  subst e
  exact h

theorem Mat.Canonical.of_ok {o : Mat} {t : State} (e : o = .ok t) (h : o.Canonical) : t.Canonical := by
  subst e
  exact h

theorem Performed.Canonical.of_ok {o : Performed} {t : State} {l l'} (e : o = .ok t l l') (h : o.Canonical) :
    t.Canonical := by
  subst e
  exact h

theorem State.Canonical.ite {c : Prop} [Decidable c] {s t : State} (h : s.Canonical) (h' : t.Canonical) :
    (if c then s else t).Canonical := by
  split <;> assumption

theorem State.Canonical.ite_snd {α : Type} {c : Prop} [Decidable c] {p q : α × State} (h : p.2.Canonical) (h' : q.2.Canonical) :
    (if c then p else q).2.Canonical := by
  split <;> assumption

theorem OptionCanonical.ite {c : Prop} [Decidable c] {p q : Option State} (h : OptionCanonical p) (h' : OptionCanonical q) :
    OptionCanonical (if c then p else q) := by
  split <;> assumption

theorem OutcomeCanonical.ite {c : Prop} [Decidable c] {p q : Host.Outcome State Fault Refusal} (h : OutcomeCanonical p)
    (h' : OutcomeCanonical q) : OutcomeCanonical (if c then p else q) := by
  split <;> assumption

theorem CmdResult.Canonical.ite {c : Prop} [Decidable c] {p q : CmdResult} (h : p.Canonical) (h' : q.Canonical) :
    (if c then p else q).Canonical := by
  split <;> assumption

theorem OptionCanonical.none : OptionCanonical none := trivial

theorem CmdResult.Canonical.reject {st d : Nat} : (CmdResult.reject st d).Canonical := trivial

theorem CmdResult.Canonical.done {t : State} {d : Nat} (h : t.Canonical) : (CmdResult.done t d).Canonical := h

theorem CmdResult.Canonical.wait {t : State} {w : WaitFor} {d : Nat} (h : t.Canonical) : (CmdResult.wait t w d).Canonical := h

theorem OptionCanonical.getD {o : Option State} {t : State} (h : OptionCanonical o) (h' : t.Canonical) :
    (o.getD t).Canonical := by
  cases o with
  | none => exact h'
  | some u => exact h

theorem State.Canonical.foldl {α : Type} (h : s.Canonical) {f : State → α → State}
    (hf : ∀ s x, s.Canonical → (f s x).Canonical) {l : List α} : (l.foldl f s).Canonical := by
  induction l generalizing s with
  | nil => exact h
  | cons x l ih => exact ih (hf _ _ h)

theorem State.Canonical.foldl_fst {α β : Type} {p : State × β} (h : p.1.Canonical) {f : State × β → α → State × β}
    (hf : ∀ p x, p.1.Canonical → (f p x).1.Canonical) {l : List α} : (l.foldl f p).1.Canonical := by
  induction l generalizing p with
  | nil => exact h
  | cons x l ih => exact ih (hf _ _ h)

theorem State.Canonical.foldl_snd {α β : Type} {p : β × State} (h : p.2.Canonical) {f : β × State → α → β × State}
    (hf : ∀ p x, p.2.Canonical → (f p x).2.Canonical) {l : List α} : (l.foldl f p).2.Canonical := by
  induction l generalizing p with
  | nil => exact h
  | cons x l ih => exact ih (hf _ _ h)

/-- Memory from which cells go (a block's scratchpad, metadata that reads 0) stays canonical. -/
theorem Memory.wf_filter {m : List Cell} (h : Memory.wf m = true) (p : Cell → Bool) : Memory.wf (m.filter p) = true := by
  rw [Memory.wf_iff] at h ⊢
  obtain ⟨listed, rising⟩ := h
  exact ⟨fun c hc => listed c (List.mem_filter.mp hc).1, rising.filter _⟩

theorem State.Canonical.modGang {gid : Nat} {f : Gang → Gang} (h : s.Canonical) : (s.modGang gid f).Canonical :=
  h.frame (State.modGang_mem ..)

theorem State.Canonical.modThread {gid t : Nat} {f : Thread → Thread} (h : s.Canonical) : (s.modThread gid t f).Canonical :=
  h.frame (State.modThread_mem ..)

theorem State.Canonical.modThreads {gid : Nat} {ts : List Nat} {f : Thread → Thread} (h : s.Canonical) :
    (s.modThreads gid ts f).Canonical :=
  h.frame (State.modThreads_mem ..)

theorem State.Canonical.modBlock {bid : Nat} {f : Block → Block} (h : s.Canonical) : (s.modBlock bid f).Canonical :=
  h.frame (State.modBlock_mem ..)

theorem State.Canonical.modLaunch {n : Nat} {f : Launch → Launch} (h : s.Canonical) : (s.modLaunch n f).Canonical :=
  h.frame (State.modLaunch_mem ..)

theorem State.Canonical.modCtx {n : Nat} {f : Context → Context} (h : s.Canonical) : (s.modCtx n f).Canonical :=
  h.frame (State.modCtx_mem ..)

theorem State.Canonical.modOp {id : Nat} {f : Op → Op} (h : s.Canonical) : (s.modOp id f).Canonical :=
  h.frame (State.modOp_mem ..)

theorem State.Canonical.dropOp {id : Nat} (h : s.Canonical) : (s.dropOp id).Canonical :=
  h.frame (State.dropOp_mem ..)

theorem State.Canonical.freeVal (h : s.Canonical) : s.freeVal.2.Canonical :=
  h.frame (State.freeVal_mem ..)

theorem State.Canonical.freeFlag (h : s.Canonical) : s.freeFlag.2.Canonical :=
  h.frame (State.freeFlag_mem ..)

theorem State.Canonical.count {die pos n : Nat} (h : s.Canonical) : (s.count die pos n).Canonical :=
  h.frame (State.count_mem ..)

theorem State.Canonical.serve {ctx die pos : Nat} (h : s.Canonical) : (s.serve ctx die pos).Canonical :=
  (h.frame (by rfl)).ite h

theorem State.Canonical.serveCore {ctx die core : Nat} (h : s.Canonical) : (s.serveCore ctx die core).Canonical :=
  h.serve.serve

/-! ### Writes, their spreading and their settling -/

theorem State.Canonical.retire (h : s.Canonical) : s.retire.Canonical :=
  State.retire_wf h

theorem State.Canonical.append {loc : Nat} {data : List Byte} {bad : Bool} {vis : List ScopeUnit} {op : Option Nat}
    {key : Option (List Byte)} (h : s.Canonical) : (s.append loc data bad vis op key).1.Canonical :=
  State.append_wf h ..

theorem State.Canonical.forgetWrites (h : s.Canonical) : s.forgetWrites.Canonical :=
  h.frame rfl

theorem State.Canonical.spread {wid : Nat} {u : ScopeUnit} (h : s.Canonical) : (s.spread wid u).Canonical :=
  State.spread_wf h _ _

theorem State.Canonical.poke {loc : Nat} {data : List Byte} (h : s.Canonical) : (s.poke loc data).Canonical :=
  State.poke_wf h _ _

theorem State.Canonical.pokeAt {loc : Nat} {data : List Byte} (h : s.Canonical) : (s.pokeAt loc data).Canonical :=
  h.poke.ite h

theorem State.Canonical.note {gid t op : Nat} {c : Cls} {wids : List Nat} (h : s.Canonical) :
    (s.note gid t op c wids).Canonical :=
  h.ite h.modThread

theorem State.Canonical.pokeAs {loc : Nat} {data : List Byte} {key : Option (List Byte)} (h : s.Canonical) :
    (s.pokeAs loc data key).Canonical :=
  h.append

/-! ### Traps, preparation, materialising and operations -/

theorem State.Canonical.writeFault {r : FaultRec} (h : s.Canonical) : (s.writeFault r).Canonical :=
  (h.frame (by rfl)).ite (h.pokeAt.frame rfl)

theorem State.Canonical.faultRecord {r : FaultRec} {wids : List Nat} {removal : Option Nat} (h : s.Canonical) :
    (s.faultRecord r wids removal).Canonical :=
  h.writeFault.ite (h.frame rfl)

theorem State.Canonical.flushFaults (h : s.Canonical) : s.flushFaults.Canonical :=
  h.ite ((h.frame (by rfl)).foldl fun _ _ h' => h'.writeFault)

theorem State.Canonical.trace {l : Launch} {kind engine wall data : Nat} (h : s.Canonical) :
    (s.trace l kind engine wall data).Canonical := by
  unfold State.trace
  split
  · exact h
  · split
    · exact h
    · split
      · exact h
      · dsimp only
        split
        · exact h.frame rfl
        · split
          · exact (h.frame (by rfl)).pokeAt.modCtx
          · exact (h.frame (by rfl)).pokeAt

theorem State.Canonical.beginRemoval {ctx : Nat} {fdom seq : Option Nat} (h : s.Canonical) :
    (s.beginRemoval ctx fdom seq).Canonical :=
  h.frame rfl

theorem State.Canonical.squash {gid : Nat} (h : s.Canonical) : (s.squash gid).Canonical := by
  unfold State.squash
  split
  · exact h
  · split
    · exact h
    · exact h.frame rfl

theorem State.Canonical.trapTrace {e : Env} {cause sub : Nat} (h : s.Canonical) : (s.trapTrace e cause sub).Canonical :=
  h.trace

theorem State.Canonical.unhandled {e : Env} {cause sub : Nat} {fails : List Fail} {tepc : Nat → Nat} {nested : Bool}
    (h : s.Canonical) : (s.unhandled e cause sub fails tepc nested).Canonical :=
  h.trapTrace.modGang.beginRemoval.faultRecord

theorem State.Canonical.deliver {gid cause sub : Nat} {fails : List Fail} {queue : List RqEntry} {tepc : Nat → Nat}
    (h : s.Canonical) : (s.deliver gid cause sub fails queue tepc).Canonical := by
  unfold State.deliver
  split
  · exact h
  · split
    · exact h.modGang
    · dsimp only
      split
      · exact h.trapTrace.modGang
      · exact h.unhandled

theorem State.Canonical.issued (h : s.Canonical) : s.issued.Canonical :=
  h.ite h.count.modGang

theorem State.Canonical.holdTrap (h : s.Canonical) : s.holdTrap.Canonical :=
  h.modGang

theorem State.Canonical.deliverAgain {gid cause sub : Nat} {fails : List Fail} {q : List RqEntry} (h : s.Canonical) :
    (s.deliverAgain gid cause sub fails q).Canonical := by
  unfold State.deliverAgain
  split
  · exact h
  · exact h.modGang.deliver

theorem State.Canonical.trapQueue {s0 : State} {i : Instr} {cause sub : Nat} {fails : List Fail} {parts : List Nat}
    {caps : List CapOp} {asRead : Bool} (h : s0.Canonical) :
    (s0.trapQueue i cause sub fails parts caps asRead).Canonical := by
  unfold State.trapQueue
  dsimp only
  split
  · exact h.issued
  · split
    · exact h.issued.holdTrap
    · split
      · split
        · exact h.issued
        · exact (h.issued.frame (by rfl)).deliver
      · exact h.issued.deliverAgain

theorem State.Canonical.trapAt {s0 : State} {cause sub : Nat} {fails : List Fail} (h : s0.Canonical) :
    (s0.trapAt cause sub fails).Canonical := by
  unfold State.trapAt
  dsimp only
  split
  · exact h.issued
  · split
    · exact h.issued.holdTrap
    · split
      · exact h.issued.deliver
      · exact h.issued.deliverAgain

theorem State.Canonical.trapAll {cause : Nat} {ts : List Nat} {addr : Word} (h : s.Canonical) :
    (s.trapAll cause ts addr).Canonical :=
  h.trapAt

theorem State.Canonical.stallAt {ts : List Nat} {k : Stall} (h : s.Canonical) : (s.stallAt ts k).Canonical :=
  h.modThreads

theorem State.Canonical.materialise {e : Env} {rod : Nat} (h : s.Canonical) : (materialise s e rod).Canonical := by
  unfold Machine.materialise
  split
  · exact h
  · split
    · exact h
    · extract_lets step
      have hstep : ∀ acc t, acc.1.Canonical → (step acc t).1.Canonical := by
        intro acc t h'
        unfold step
        dsimp only
        split
        · exact h'
        · split
          · exact h'.note
          · exact h'
          · split
            · exact h'.frame rfl
            · exact h'
      have hfold := State.Canonical.foldl_fst (p := (s, [], [], false)) (l := List.range 32) h hstep
      split
      next heq =>
        split
        · exact trivial
        · split
          · exact trivial
          · split
            · exact trivial
            · exact (State.Canonical.fst heq hfold).frame rfl

theorem State.Canonical.materialiseAll {gid : Nat} {rods : List Nat} (h : s.Canonical) :
    (materialiseAll s gid rods).Canonical := by
  induction rods generalizing s with
  | nil => exact h
  | cons r rs ih =>
    unfold Machine.materialiseAll
    split
    · exact h
    · split
      · exact ih (Mat.Canonical.of_ok ‹_› h.materialise)
      · exact h.materialise

theorem State.Canonical.materialiseWhen {e : Env} {rods : List Nat} (h : s.Canonical) : (materialiseWhen s e rods).Canonical := by
  unfold Machine.materialiseWhen
  split
  · exact trivial
  · split
    · split
      · exact Mat.Canonical.of_ok ‹_› h.materialiseAll
      · exact (Mat.Canonical.of_ok ‹_› h.materialiseAll).modGang
    · exact h.materialiseAll

theorem State.Canonical.beforeWrite {e : Env} {rods : List Nat} (h : s.Canonical) : (beforeWrite s e rods).Canonical := by
  unfold Machine.beforeWrite
  split
  · exact h
  · split
    · exact trivial
    · split
      · dsimp only
        split
        · split
          · exact Mat.Canonical.of_ok ‹_› h.materialiseAll
          · exact (Mat.Canonical.of_ok ‹_› h.materialiseAll).modGang
        · have hm := Mat.Canonical.of_ok ‹_› h.materialiseAll
          exact (hm.ite hm.modGang).modGang
      · exact h.materialiseAll

theorem State.Canonical.toPending {gid : Nat} (h : s.Canonical) : (s.toPending gid).Canonical :=
  h.modGang

theorem State.Canonical.awaitRod {need : Nat} (h : s.Canonical) : (s.awaitRod need).Canonical :=
  h.stallAt.modGang.toPending

theorem State.Canonical.awaitMat {m : Mat} (h : s.Canonical) : (s.awaitMat m).Canonical := by
  unfold State.awaitMat
  split
  · exact h.awaitRod
  · exact h.stallAt

theorem State.Canonical.regens {rods : List Nat} (h : s.Canonical) : (s.regens rods).Canonical :=
  h.ite (h.frame rfl)

theorem State.Canonical.countRegens {gid : Nat} (h : s.Canonical) : (s.countRegens gid).Canonical :=
  h.ite (h.frame rfl)

theorem State.Canonical.regenerate {e : Env} {taken : List Taken} {rods : List Nat} (h : s.Canonical) :
    (s.regenerate e taken rods).Canonical :=
  h.ite ((h.frame (by rfl)).regens.foldl fun _ _ h' => h'.note)

theorem State.Canonical.prepareWith {keepPoison : Bool} {i : Instr} (h : s.Canonical) :
    PrepCanonical (prepareWith keepPoison i s) := by
  unfold Machine.prepareWith
  split
  · exact h
  · extract_lets parts x who taken ops fails bad dests s0 s1
    have h1 : s1.Canonical := ((h.frame (by rfl)).ite h).regenerate
    clear_value bad s1
    split
    · exact h.stallAt
    · split
      · exact h.stallAt
      · split
        · exact h.stallAt
        · split
          · exact h.trapQueue
          · split
            · exact h.trapQueue
            · split
              · exact h.trapQueue
              · have h2 := Mat.Canonical.of_ok ‹_› h1.beforeWrite
                split
                · exact h2
                · exact ⟨h, h2⟩
              · exact h.awaitMat

theorem State.Canonical.prepare {i : Instr} (h : s.Canonical) : PrepCanonical (prepare i s) :=
  h.prepareWith

theorem State.Canonical.overwrite {gid : Nat} {ts : List Nat} {rs : List Reg} {which : Op → Bool} (h : s.Canonical) :
    (s.overwrite gid ts rs which).Canonical := by
  unfold State.overwrite
  split
  · exact h
  · split
    · exact h
    · exact h.frame rfl

theorem State.Canonical.clobber {gid : Nat} {ts : List Nat} {rs : List Reg} (h : s.Canonical) : (s.clobber gid ts rs).Canonical :=
  h.overwrite

theorem State.Canonical.settleFor {s1 : State} {i : Instr} {parts mask : List Nat} (h : s1.Canonical) :
    (s1.settleFor i parts mask).Canonical :=
  (h.issued.countRegens.count.ite h.issued.countRegens).clobber.modGang

theorem State.Canonical.settleIssue {i : Instr} {parts : List Nat} (h : s.Canonical) : (s.settleIssue i parts).Canonical :=
  h.settleFor

theorem State.Canonical.complete {i : Instr} {parts : List Nat} (h : s.Canonical) : (s.complete i parts).Canonical :=
  h.settleIssue.ite h.settleIssue.modGang

theorem State.Canonical.completePart {i : Instr} {parts waiting : List Nat} {k : Stall} (h : s.Canonical) :
    (s.completePart i parts waiting k).Canonical := by
  unfold State.completePart
  dsimp only
  split
  · exact h.complete
  · split
    · exact h.stallAt
    · split <;> exact h.settleFor.modGang

theorem State.Canonical.jump {gid : Nat} {ts : List (Nat × Nat)} (h : s.Canonical) : (s.jump gid ts).Canonical :=
  h.modGang

theorem Prep.Canonical.check {i : Instr} {f : Nat → Option (Nat × Nat)} (h : p.Canonical) :
    OptionCanonical (Prep.check p i f) := by
  unfold Prep.check
  dsimp only
  split
  · exact trivial
  · split
    · exact h.s0.trapAt
    · exact h.s0.trapQueue

theorem Prep.Canonical.failAll {i : Instr} {cause : Nat} (h : p.Canonical) : OptionCanonical (Prep.failAll p i cause) :=
  h.check

theorem State.Canonical.withPrep {i : Instr} {k : Prep → State} (h : s.Canonical) (hk : ∀ p, p.Canonical → (k p).Canonical) :
    OutcomeCanonical (withPrep i s k) := by
  unfold Machine.withPrep
  split
  · exact PrepCanonical.of_error ‹_› h.prepare
  · exact hk _ (PrepCanonical.of_ok ‹_› h.prepare)

theorem Prep.Canonical.laneEffect {i : Instr} (h : p.Canonical) : (laneEffect i p).Canonical :=
  h.s.modGang

theorem State.Canonical.laneExec {i : Instr} (h : s.Canonical) : OutcomeCanonical (laneExec i s) :=
  h.withPrep fun _ hp => hp.laneEffect.complete

/-! ### Barriers -/

theorem State.Canonical.putBobj {bid off : Nat} {o : BObj} (h : s.Canonical) : (s.putBobj bid off o).Canonical :=
  h.append

theorem State.Canonical.firstUse {bid off : Nat} (h : s.Canonical) : OptionCanonical (s.firstUse bid off) := by
  unfold State.firstUse
  dsimp only
  split
  · exact h
  · split
    · exact h
    · split
      · exact trivial
      · exact h.modBlock.putBobj

theorem State.Canonical.postArrival {p : Place} {off : Nat} {drop : Bool} (h : s.Canonical) :
    (s.postArrival p off drop).Canonical :=
  h.frame rfl

theorem State.Canonical.dropFrom {e : Env} {t off : Nat} (h : s.Canonical) : (s.dropFrom e t off).Canonical := by
  unfold State.dropFrom
  split
  · split
    · exact h.postArrival.modThread
    · exact h
  · exact h

theorem State.Canonical.countStep {a : Arrival} (h : s.Canonical) : (s.countStep a).Canonical :=
  (h.frame (by rfl)).putBobj.modThread.ite (h.frame (by rfl)).putBobj.modThread

theorem State.Canonical.execCount {arr : Nat} (h : s.Canonical) : OutcomeCanonical (execCount arr s) := by
  unfold Machine.execCount
  split
  · split
    · exact h.countStep
    · exact h
  · exact h

theorem State.Canonical.arriveFree {bid off : Nat} (h : s.Canonical) : (s.arriveFree bid off).1.Canonical := by
  unfold State.arriveFree
  dsimp only
  split
  · exact h
  · exact h.putBobj

theorem State.Canonical.landAt {bid off n : Nat} (h : s.Canonical) : (s.landAt bid off n).Canonical :=
  h.putBobj

theorem State.Canonical.spoilObj {bid off : Nat} (h : s.Canonical) : (s.spoilObj bid off).Canonical :=
  h.freeVal.freeVal.append

theorem State.Canonical.spoilUnit {loc : Nat} {dom : Bool} (h : s.Canonical) : (s.spoilUnit loc dom).Canonical :=
  h.freeVal.freeVal.freeVal.pokeAs

theorem State.Canonical.spoilWork {s was : State} {loc n : Nat} (h : s.Canonical) : (s.spoilWork was loc n).Canonical :=
  h.foldl fun _ _ h' => h'.ite (h'.spoilUnit.ite (h'.frame (by rfl)))

theorem State.Canonical.spoil {s was : State} {loc n : Nat} (h : s.Canonical) : (s.spoil was loc n).Canonical := by
  unfold State.spoil
  split
  · exact h
  · split
    · exact h.spoilWork
    · dsimp only
      split
      · exact h
      · exact h.foldl fun _ _ h' => h'.spoilObj.ite h'

theorem Prep.Canonical.objCheck {i : Instr} (h : p.Canonical) : OptionCanonical (Prep.objCheck p i) :=
  h.check

theorem State.Canonical.forgetDrops {bid off : Nat} (h : s.Canonical) : (s.forgetDrops bid off).Canonical :=
  h.frame rfl

theorem State.Canonical.endListed {bid off : Nat} (h : s.Canonical) : (s.endListed bid off).Canonical :=
  h.frame rfl

theorem State.Canonical.execBarinit {a b c : Reg} (h : s.Canonical) : OutcomeCanonical (execBarinit g a b c s) := by
  refine h.withPrep ?_
  intro p hp
  split
  · exact OptionCanonical.of_some ‹_› hp.check
  · refine State.Canonical.complete ?_
    refine hp.s.foldl ?_
    intro s x h'
    dsimp only
    split
    · exact h'
    · split
      · exact (h'.modBlock.endListed.ite h'.modBlock).forgetDrops.spoilObj
      · exact (h'.modBlock.endListed.ite h'.modBlock).forgetDrops.putBobj

theorem State.Canonical.arriveOne {d : Reg} {k : Arrive} {t : Nat} (h : k.s.Canonical) : (arriveOne p d k t).s.Canonical := by
  unfold Machine.arriveOne
  dsimp only
  split
  · exact h
  · split
    · split
      · exact h
      · split
        · exact OptionCanonical.of_some ‹_› h.firstUse
        · exact (OptionCanonical.of_some ‹_› h.firstUse).postArrival.modThread.modGang
    · exact h

theorem State.Canonical.arrivals {d : Reg} {ts : List Nat} {k : Arrive} (h : k.s.Canonical) :
    (ts.foldl (Machine.arriveOne p d) k).s.Canonical := by
  induction ts generalizing k with
  | nil => exact h
  | cons t ts ih => exact ih h.arriveOne

theorem State.Canonical.execArrive {d a : Reg} (h : s.Canonical) : OutcomeCanonical (execArrive g d a s) := by
  refine h.withPrep ?_
  intro p hp
  split
  · exact OptionCanonical.of_some ‹_› hp.objCheck
  · dsimp only
    split
    · exact OptionCanonical.of_some ‹_› hp.check
    · exact (State.Canonical.arrivals hp.s).completePart

theorem Prep.Canonical.firstUses (h : p.Canonical) : (firstUses p).1.Canonical := by
  refine State.Canonical.foldl_fst h.s ?_
  intro p x h'
  split
  · exact OptionCanonical.of_some ‹_› h'.firstUse
  · exact h'

theorem State.Canonical.execExpect {a : Reg} {b : Opnd} (h : s.Canonical) : OutcomeCanonical (execExpect g a b s) := by
  refine h.withPrep ?_
  intro p hp
  split
  · exact OptionCanonical.of_some ‹_› hp.objCheck
  · dsimp only
    split
    · exact OptionCanonical.of_some ‹_› hp.check
    · exact (hp.firstUses.foldl fun _ _ h' => h'.putBobj).complete

theorem State.Canonical.execBdrop {a : Reg} (h : s.Canonical) : OutcomeCanonical (execBdrop g a s) := by
  refine h.withPrep ?_
  intro p hp
  split
  · exact OptionCanonical.of_some ‹_› hp.objCheck
  · dsimp only
    split
    · exact OptionCanonical.of_some ‹_› hp.check
    · exact (hp.firstUses.foldl fun _ _ h' => h'.dropFrom).complete

theorem State.Canonical.execBwait {a b : Reg} (h : s.Canonical) : OutcomeCanonical (execBwait g a b s) := by
  refine h.withPrep ?_
  intro p hp
  split
  · exact OptionCanonical.of_some ‹_› hp.objCheck
  · exact hp.s.completePart

theorem State.Canonical.execBwaitTo {pd : Pred} {a b c : Reg} (h : s.Canonical) :
    OutcomeCanonical (execBwaitTo g pd a b c s) := by
  refine h.withPrep ?_
  intro p hp
  split
  · exact OptionCanonical.of_some ‹_› hp.objCheck
  · exact hp.s.modGang.completePart

theorem State.Canonical.decideWaits (h : s.Canonical) : s.decideWaits.Canonical :=
  h.ite (h.frame rfl)

theorem State.Canonical.execBtest {pd : Pred} {a b : Reg} (h : s.Canonical) : OutcomeCanonical (execBtest g pd a b s) := by
  refine h.withPrep ?_
  intro p hp
  split
  · exact OptionCanonical.of_some ‹_› hp.objCheck
  · exact hp.s.modGang.complete

theorem State.Canonical.execBwaitTimeout {gid thr : Nat} (h : s.Canonical) : OutcomeCanonical (execBwaitTimeout gid thr s) := by
  unfold Machine.execBwaitTimeout
  split
  · split
    · exact h.modThread
    · exact h
  · exact h

/-! ### KEEP cells -/

theorem State.Canonical.changeCell {for_ : Option Nat} {k : KeepCell} (h : s.Canonical) : (s.changeCell for_ k).Canonical :=
  h.frame rfl

/-! ### Memory operations -/

theorem State.Canonical.freeWords {n : Nat} (h : s.Canonical) : (s.freeWords n).2.Canonical := by
  induction n generalizing s with
  | zero => exact h
  | succ n ih => exact ih (s := s.freeVal.2) (h.frame rfl)

theorem State.Canonical.looseRow {bid tile row : Nat} (h : s.Canonical) : (s.looseRow bid tile row).Canonical := by
  unfold State.looseRow
  dsimp only
  exact (State.Canonical.freeWords h.freeVal).modBlock

theorem State.Canonical.soilPassed {id loc n : Nat} (h : s.Canonical) : (s.soilPassed id loc n).Canonical := by
  refine h.foldl ?_
  intro s x h'
  refine h'.foldl ?_
  intro s x h''
  split
  · split
    · exact h''.looseRow
    · exact h''
  · exact h''

theorem State.Canonical.soil {s0 : State} {id loc n : Nat} (h : s0.Canonical) : (s0.soil id loc n).Canonical := by
  unfold State.soil
  extract_lets s
  have hs : s.Canonical := h.ite h.soilPassed
  split
  · exact hs
  · exact hs.frame rfl

theorem State.Canonical.storeNow {e : Env} {t id : Nat} {c : Cls} {loc : Nat} {data : List Byte} {bad : Bool} (h : s.Canonical) :
    (s.storeNow e t id c loc data bad).Canonical :=
  h.modBlock.ite h.append.note.spoil.soil

theorem State.Canonical.poisonLines {r : FaultRec} {loc n : Nat} {wids : List Nat} (h : s.Canonical) :
    (s.poisonLines r loc n wids).Canonical :=
  h.foldl fun _ _ h' => h'.faultRecord

theorem State.Canonical.poisonRecord {e : Env} {loc n : Nat} {wids : List Nat} (h : s.Canonical) :
    (s.poisonRecord e loc n wids).Canonical :=
  h.poisonLines

theorem State.Canonical.markAs {r : FaultRec} {slot : Nat} (h : s.Canonical) : (s.markAs r slot).Canonical :=
  h.ite (h.frame (by rfl)).faultRecord

theorem State.Canonical.markCell {e : Env} {slot : Nat} (h : s.Canonical) : (s.markCell e slot).Canonical :=
  h.markAs

theorem State.Canonical.scratchRecord {e : Env} {loc : Nat} (h : s.Canonical) : (s.scratchRecord e loc).Canonical :=
  h.faultRecord

theorem State.Canonical.markRead {e : Env} {g : Seg} {bs : List RByte} (h : s.Canonical) : (s.markRead e g bs).Canonical :=
  (h.foldl fun _ _ h' => h'.markCell).ite h

theorem State.Canonical.badRecords {e : Env} {loc : Nat} {bs : List RByte} (h : s.Canonical) :
    (s.badRecords e loc bs).Canonical :=
  h.foldl fun _ _ h' => h'.scratchRecord.ite h'.poisonRecord

theorem State.Canonical.lostLines {r : FaultRec} {loc n : Nat} (h : s.Canonical) : (s.lostLines r loc n).Canonical :=
  h.foldl fun _ _ h' => h'.faultRecord

theorem State.Canonical.lostWrite {e : Env} {loc n : Nat} (h : s.Canonical) : (s.lostWrite e loc n).Canonical :=
  h.lostLines

theorem State.Canonical.post {e : Env} {thrs : List Nat} {cls : Cls} {cnt : Option Cls} {kind : OpKind}
    {pages : List (Nat × Nat)} {hold : Option Hold} (h : s.Canonical) :
    (s.post e thrs cls cnt kind pages hold).Canonical :=
  h.frame rfl

theorem State.Canonical.withRods {o : Op} {f : State} (h : s.Canonical) (h1 : f.Canonical) : (s.withRods o f).Canonical :=
  h.toPending.ite h1

theorem State.Canonical.deliverRegs {o : Op} {t : Nat} {vals : List (Reg × Word × Option (Nat × Word))} (h : s.Canonical) :
    (s.deliverRegs o t vals).Canonical := by
  unfold State.deliverRegs
  split
  · exact h
  · refine h.foldl ?_
    intro s v h'
    dsimp only
    have h'' : State.Canonical (if (o.destNum v.1, t) ∈ o.clob then s.freeFlag else (false, s)).2 := by
      split
      · exact h'.freeFlag
      · exact h'
    exact h''.ite h''.modGang

/-! ### Loads, stores and fences -/

theorem State.Canonical.ldExec {i : Instr} {w : Width} {sext : Bool} {sp : Space} {d : Reg} {ea : Prep → Nat → Nat}
    (h : s.Canonical) : OutcomeCanonical (ldExec i w sext sp d ea s) := by
  refine h.withPrep ?_
  intro p hp
  extract_lets n u res full go s1
  have h1 : s1.Canonical := by
    refine hp.s.foldl ?_
    intro s t h'
    split
    · exact h'.post
    · exact h'
  clear_value s1
  split
  · exact OptionCanonical.of_some ‹_› hp.check
  · exact hp.s0.stallAt.ite h1.completePart

theorem State.Canonical.execLd {ty : Ty} {w : Width} {sext : Bool} {sp : Space} {d : Reg} {addr : Addr} (h : s.Canonical) :
    OutcomeCanonical (execLd g ty w sext sp d addr s) :=
  h.ldExec

theorem State.Canonical.execLdB64S {d a b : Reg} (h : s.Canonical) : OutcomeCanonical (execLdB64S d a b s) :=
  h.ldExec

theorem State.Canonical.stExec {i : Instr} {w : Width} {sp : Space} {ea : Prep → Nat → Nat} (h : s.Canonical) :
    OutcomeCanonical (stExec i w sp ea s) := by
  refine h.withPrep ?_
  intro p hp
  dsimp only
  split
  · exact OptionCanonical.of_some ‹_› hp.check
  · refine State.Canonical.completePart ?_
    refine hp.s.foldl ?_
    intro s x h'
    split
    · exact h'
    · split <;> exact h'.post

theorem State.Canonical.execSt {ty : Ty} {w : Width} {sp : Space} {d : Reg} {addr : Addr} (h : s.Canonical) :
    OutcomeCanonical (execSt g ty w sp d addr s) :=
  h.stExec

theorem State.Canonical.execStB64S {d a b : Reg} (h : s.Canonical) : OutcomeCanonical (execStB64S d a b s) :=
  h.stExec

theorem State.Canonical.execPref {constant l2 : Bool} {addr : Addr} (h : s.Canonical) :
    OutcomeCanonical (execPref g constant l2 addr s) := by
  unfold Machine.execPref
  dsimp only
  split
  · exact PrepCanonical.of_error ‹_› h.prepareWith
  · exact (PrepCanonical.of_ok ‹_› h.prepareWith).s.complete

theorem State.Canonical.atomExec {i : Instr} {sp : Bool} {ty : Ty} {cnt : Cls} {m : Addr}
    {plain : Prep → Resolved → List Nat → Word → OpKind} (h : s.Canonical) :
    OutcomeCanonical (atomExec i sp ty cnt m plain s) := by
  refine h.withPrep ?_
  intro p hp
  dsimp only
  split
  · exact OptionCanonical.of_some ‹_› hp.check
  · refine State.Canonical.completePart ?_
    refine hp.s.foldl ?_
    intro s x h'
    split
    · exact h'
    · exact h'.post

theorem State.Canonical.execAtom {sp : Bool} {op : AtomOp} {ty : Ty} {d : Reg} {addr : Addr} {c : Reg} (h : s.Canonical) :
    OutcomeCanonical (execAtom g sp op ty d addr c s) :=
  h.atomExec

theorem State.Canonical.execRed {sp : Bool} {op : AtomOp} {ty : Ty} {addr : Addr} {c : Reg} (h : s.Canonical) :
    OutcomeCanonical (execRed g sp op ty addr c s) :=
  h.atomExec

theorem State.Canonical.execAcas {sp : Bool} {ty : Ty} {d : Reg} {addr : Addr} {c : Reg} (h : s.Canonical) :
    OutcomeCanonical (execAcas g sp ty d addr c s) :=
  h.atomExec

theorem State.Canonical.execSlook {d a : Reg} (h : s.Canonical) : OutcomeCanonical (execSlook g d a s) := by
  refine h.withPrep ?_
  intro p hp
  refine State.Canonical.complete ?_
  refine hp.s.foldl ?_
  intro s x h'
  split
  · exact h'
  · exact h'.modBlock.modGang

theorem State.Canonical.execStag {a b : Reg} (h : s.Canonical) : OutcomeCanonical (execStag g a b s) := by
  refine h.withPrep ?_
  intro p hp
  dsimp only
  split
  · exact OptionCanonical.of_some ‹_› hp.check
  · exact (hp.s.foldl fun _ _ h' => h'.modBlock).complete

theorem State.Canonical.execFence {scope : Scope} {pred succ : BitVec 7} (h : s.Canonical) :
    OutcomeCanonical (execFence g scope pred succ s) :=
  h.withPrep fun _ hp => ((hp.s.frame (by rfl)).ite ((hp.s.frame (by rfl)).foldl fun _ _ h' => h'.frame (by rfl))).complete

theorem State.Canonical.execOfence (h : s.Canonical) : OutcomeCanonical (execOfence g s) :=
  h.withPrep fun _ hp => hp.s.modGang.completePart

theorem State.Canonical.ifEnabled {id : Nat} {f : Op → State} (h : s.Canonical) (h1 : ∀ x, (f x).Canonical) :
    OutcomeCanonical (s.ifEnabled id f) := by
  unfold State.ifEnabled
  split
  · split
    · exact h.withRods (h1 _)
    · exact h
  · exact h

theorem State.Canonical.loosen {f : Nat → Bool} {loc : Nat} {bs : List RByte} (h : s.Canonical) :
    (s.loosen f loc bs).2.Canonical := by
  induction bs generalizing s loc with
  | nil => exact h
  | cons b bs ih => exact ih (State.Canonical.ite_snd (h.frame rfl) h)

theorem State.Canonical.unlanded {p : Place} {const : Bool} {loc : Nat} {bs : List RByte} (h : s.Canonical) :
    (s.unlanded p const loc bs).2.Canonical :=
  h.loosen

theorem State.Canonical.execBind {op : Nat} (h : s.Canonical) : OutcomeCanonical (execBind op s) := by
  refine h.ifEnabled ?_
  intro x
  split
  · exact h.unlanded.dropOp.note.deliverRegs
  · exact h

theorem State.Canonical.execPerformStore {op : Nat} (h : s.Canonical) : OutcomeCanonical (execPerformStore op s) := by
  refine h.ifEnabled ?_
  intro x
  split
  · split
    · split
      · exact h.dropOp.lostWrite
      · exact h.dropOp.storeNow
    · exact h.dropOp.poke
  · exact h

theorem State.Canonical.atomRegs {o : Op} {ty : Ty} {d : Option Reg} {ea : Word} {sub : Nat} {bad : Bool}
    {rs : List (Nat × Nat)} (h : s.Canonical) :
    (atomRegs o ty d ea sub bad s rs).Canonical := by
  unfold Machine.atomRegs
  split
  · exact h
  · exact h.foldl fun _ _ h' => h'.deliverRegs

theorem State.Canonical.badStore {gid loc n : Nat} {bad : Bool} {wid : Nat} (h : s.Canonical) :
    (s.badStore gid loc n bad wid).Canonical := by
  unfold State.badStore
  split
  · split
    · exact h.scratchRecord
    · exact h.poisonRecord
  · exact h

theorem State.Canonical.execAtomic {op : Nat} (h : s.Canonical) : OutcomeCanonical (execAtomic op s) := by
  refine h.ifEnabled ?_
  intro x
  dsimp only
  split
  · split
    · refine State.Canonical.atomRegs ?_
      split
      · exact h.dropOp.lostWrite
      · exact h.dropOp
    · exact (h.unlanded.dropOp.append.badStore.foldl fun _ _ h' => h'.note).spoil.soil.atomRegs
  · split
    · refine State.Canonical.atomRegs ?_
      split
      · exact h.dropOp.lostWrite
      · exact h.dropOp
    · exact (h.unlanded.dropOp.append.badStore.foldl fun _ _ h' => h'.note).spoil.soil.atomRegs
  · exact h

theorem State.Canonical.execPropagate {wid : Nat} {via : Agent} {scope : Scope} (h : s.Canonical) :
    OutcomeCanonical (execPropagate wid via scope s) := by
  unfold Machine.execPropagate
  split
  · split
    · split
      · exact h.spread
      · exact h
    · exact h
  · exact h

/-! ### Handlers and effects -/

theorem State.Canonical.noteVa {e : Env} {t id ea n : Nat} (h : s.Canonical) : (s.noteVa e t id ea n).Canonical := by
  unfold State.noteVa
  split
  · exact h
  · exact h.note

theorem State.Canonical.writeVa {e : Env} {t id ea : Nat} {data : List Byte} (h : s.Canonical) :
    (s.writeVa e t id ea data).Canonical := by
  refine h.foldl ?_
  intro s x h'
  split
  · exact h'.storeNow
  · exact h'

theorem State.Canonical.putFrame {e : Env} {t id f : Nat} {fr : Frame} (h : s.Canonical) : (s.putFrame e t id f fr).Canonical :=
  h.writeVa

theorem State.Canonical.killTokens {e : Env} {t f : Nat} (h : s.Canonical) : (s.killTokens e t f).Canonical :=
  h.frame rfl

theorem State.Canonical.enterHandler {e : Env} {id : Nat} {q : Req} {mates : List Nat} {f hd : Nat} {regs : List Word}
    (h : s.Canonical) : (s.enterHandler e id q mates f hd regs).Canonical := by
  unfold State.enterHandler
  split
  · exact h
  · dsimp only
    split
    · exact (h.note.killTokens.putFrame.writeVa.ite h.note.killTokens.putFrame).modThread.modGang.overwrite.modGang
    · exact (h.note.killTokens.putFrame.writeVa.ite h.note.killTokens.putFrame).modThread.modGang

theorem State.Canonical.noteEnters {e : Env} {id : Nat} {wins : List Nat} {enters : List (Nat × Enter)} (h : s.Canonical) :
    (s.noteEnters e id wins enters).Canonical :=
  ((h.foldl fun _ _ h' => h'.note).foldl fun _ _ h' => h'.foldl fun _ _ h'' => h''.noteVa).regens

theorem State.Canonical.perform {gid : Nat} {qs : List Req} (h : s.Canonical) : (s.perform gid qs).Canonical := by
  unfold State.perform
  split
  · exact h
  · dsimp only
    split
    · exact trivial
    · split
      · exact trivial
      · split
        · exact trivial
        · exact trivial
        · exact trivial
        · have hb := Mat.Canonical.of_ok ‹_› h.beforeWrite
          exact ((hb.frame (by rfl)).noteEnters.foldl fun _ _ h' => h'.enterHandler).foldl fun _ _ h' => h'.trace

theorem State.Canonical.trapUnhandled {gid : Nat} {ts : List (Nat × Nat)} {pc : Nat} (h : s.Canonical) :
    (s.trapUnhandled gid ts pc).Canonical :=
  h.ite h.deliver

theorem State.Canonical.trapLost {gid : Nat} {cap : Option RqEntry} {ts : List (Nat × Nat)} {pc : Nat} (h : s.Canonical) :
    (s.trapLost gid cap ts pc).Canonical := by
  unfold State.trapLost
  split
  · exact h.trapUnhandled
  · split
    · exact h
    · exact h.deliverAgain

theorem State.Canonical.performExec {i : Instr} {after : Prep → State → State} {req : Prep → Nat → Req} (h : s.Canonical)
    (hk : ∀ p s, p.Canonical → s.Canonical → (after p s).Canonical) : OutcomeCanonical (performExec i s after req) := by
  refine h.withPrep ?_
  intro p hp
  split
  · exact hp.s0.stallAt
  · exact hp.s0.awaitRod
  · split
    · exact hp.s0.trapAt
    · exact hp.s0.trapQueue
  · rename_i s1 _ _ hs1
    have h1 : s1.Canonical := Performed.Canonical.of_ok hs1 hp.s.perform
    exact (hk _ _ hp (State.Canonical.ite h1.settleIssue h1.settleIssue.modGang).jump).trapLost

theorem State.Canonical.execPerform {d : Reg} {eff : Opnd} {a : Reg} (h : s.Canonical) :
    OutcomeCanonical (execPerform g d eff a s) := by
  unfold Machine.execPerform
  dsimp only
  split
  · exact PrepCanonical.of_error ‹_› h.prepare
  · split
    · exact OptionCanonical.of_some ‹_› (PrepCanonical.of_ok ‹_› h.prepare).check
    · exact h.performExec fun _ _ _ h' => h'

theorem State.Canonical.brkStop (h : s.Canonical) : (brkStop p s).Canonical :=
  h.ite (h.frame rfl)

theorem State.Canonical.execBrk {code : BitVec 14} (h : s.Canonical) : OutcomeCanonical (execBrk g code s) :=
  h.performExec fun _ _ _ h' => h'.brkStop

theorem State.Canonical.execHpush {multi window : Bool} {a d c : Reg} {exitOff : BitVec 14} {handlerOff : W32} (h : s.Canonical) :
    OutcomeCanonical (execHpush g multi window a d c exitOff handlerOff s) := by
  refine h.withPrep ?_
  intro p hp
  dsimp only
  split
  · exact OptionCanonical.of_some ‹_› hp.check
  · split
    · exact hp.s0.stallAt
    · exact ((hp.s.frame (by rfl)).foldl fun _ _ h' => h'.noteVa.putFrame.modThread).complete

theorem State.Canonical.execHpop {a : Reg} (h : s.Canonical) : OutcomeCanonical (execHpop g a s) := by
  refine h.withPrep ?_
  intro p hp
  dsimp only
  split
  · exact OptionCanonical.of_some ‹_› hp.check
  · split
    · exact hp.s0.stallAt
    · refine State.Canonical.complete ?_
      refine (hp.s.frame (by rfl)).foldl ?_
      intro s x h'
      split
      · exact h'
      · exact h'.noteVa.putFrame.modThread

theorem State.Canonical.resumeOne {m : Bool} {id : Nat} {t : Nat} (h : s.Canonical) : (resumeOne p m id s t).Canonical := by
  unfold Machine.resumeOne
  split
  · exact (h.noteVa.ite h).noteVa.putFrame.overwrite.modThread.modGang
  · exact h

theorem State.Canonical.resumeExec {i : Instr} {m : Bool} (h : s.Canonical) : OutcomeCanonical (resumeExec i m s) := by
  refine h.withPrep ?_
  intro p hp
  dsimp only
  split
  · exact OptionCanonical.of_some ‹_› hp.check
  · split
    · exact hp.s0.stallAt
    · split
      · exact hp.s0.stallAt
      · exact hp.s0.awaitRod
      · exact hp.s0.trapQueue
      · have hb := Mat.Canonical.of_ok ‹_› hp.s.beforeWrite
        exact ((hb.frame (by rfl)).regens.foldl fun _ _ h' => h'.resumeOne).complete.jump

theorem State.Canonical.execResume {a : Reg} {b : Opnd} (h : s.Canonical) : OutcomeCanonical (execResume g a b s) :=
  h.resumeExec

theorem State.Canonical.execResumem {a : Reg} {b : Opnd} (h : s.Canonical) : OutcomeCanonical (execResumem g a b s) :=
  h.resumeExec

theorem State.Canonical.execDrop {a : Reg} (h : s.Canonical) : OutcomeCanonical (execDrop g a s) := by
  refine h.withPrep ?_
  intro p hp
  dsimp only
  split
  · exact OptionCanonical.of_some ‹_› hp.check
  · split
    · exact hp.s0.stallAt
    · refine State.Canonical.jump ?_
      refine State.Canonical.complete ?_
      refine (hp.s.frame (by rfl)).foldl ?_
      intro s x h'
      split
      · exact h'.noteVa.putFrame.modThread
      · exact h'.noteVa.putFrame
      · exact h'
      · exact h'

theorem State.Canonical.execTokst {d a : Reg} (h : s.Canonical) : OutcomeCanonical (execTokst g d a s) := by
  refine h.withPrep ?_
  intro p hp
  dsimp only
  split
  · exact OptionCanonical.of_some ‹_› hp.check
  · split
    · exact hp.s0.stallAt
    · exact ((hp.s.frame (by rfl)).foldl fun _ _ h' => h'.noteVa).modGang.complete

theorem State.Canonical.dropFor {o : Op} {thrs : List Nat} (h : s.Canonical) : (s.dropFor o thrs).Canonical :=
  h.dropOp.ite h.modOp

theorem State.Canonical.trapHeld {gid cause sub : Nat} {fails : List Fail} {hold : Option Hold} {pc : Nat} (h : s.Canonical) :
    (s.trapHeld gid cause sub fails hold pc).Canonical := by
  unfold State.trapHeld
  dsimp only
  split
  · exact h.deliver
  · split
    · exact h.deliverAgain
    · split <;> exact h.deliver

theorem State.Canonical.systemEffect {o : Op} {eff : Nat} {arg : Word} (h : s.Canonical) :
    OptionCanonical (s.systemEffect o eff arg) := by
  unfold State.systemEffect
  dsimp only
  split
  · exact trivial
  · exact h.squash.toPending
  · split
    · exact (Performed.Canonical.of_ok ‹_› (h.squash.frame (by rfl)).perform).countRegens
    · exact (Performed.Canonical.of_ok ‹_› (h.squash.frame (by rfl)).perform).countRegens.trapHeld
  · exact h.squash.dropFor.trapHeld

theorem State.Canonical.execGangTimerFire {gid : Nat} (h : s.Canonical) : OutcomeCanonical (execGangTimerFire gid s) := by
  unfold Machine.execGangTimerFire
  split
  · exact h
  · split
    · split
      · exact h.squash.modGang
      · exact h
    · exact h

theorem State.Canonical.timerStep {g : Gang} {x : Thread} {deadline : Nat} (h : s.Canonical) :
    (s.timerStep g x deadline).Canonical := by
  unfold State.timerStep
  dsimp only
  split
  · exact h.modThread
  · split
    · exact h
    · split
      · exact h
      · exact h.toPending
      · split
        · exact (Performed.Canonical.of_ok ‹_› (h.frame (by rfl)).perform).countRegens
        · exact (Performed.Canonical.of_ok ‹_› (h.frame (by rfl)).perform).countRegens.modThread
      · exact h.deliver

theorem State.Canonical.execTimer {gid thr : Nat} (h : s.Canonical) : OutcomeCanonical (execTimer gid thr s) := by
  unfold Machine.execTimer
  split
  · exact h
  · dsimp only
    split
    · exact h.squash
    · split
      · exact h.squash
      · exact h.squash.timerStep

/-! ### KEEP structures -/

theorem State.Canonical.cellExec {i : Instr} {need : Need} {m : Addr} {tok : Prep → Option (Nat → Word)} {atomic : Bool}
    {cls cnt : Cls} {hold : Bool} {kind : Prep → Nat → Resolved → Word → OpKind} (h : s.Canonical) :
    OutcomeCanonical (cellExec i s need m tok atomic cls cnt hold kind) := by
  refine h.withPrep ?_
  intro p hp
  split
  · exact OptionCanonical.of_some ‹_› hp.check
  · exact (hp.s.foldl fun _ _ h' => h'.post).completePart

theorem State.Canonical.execLdk {d : Reg} {addr : Addr} (h : s.Canonical) : OutcomeCanonical (execLdk g d addr s) :=
  h.cellExec

theorem State.Canonical.execStk {d : Reg} {addr : Addr} {c : Reg} (h : s.Canonical) : OutcomeCanonical (execStk g d addr c s) :=
  h.cellExec

theorem State.Canonical.execLdsib {n : BitVec 3} {d : Reg} {addr : Addr} (h : s.Canonical) :
    OutcomeCanonical (execLdsib g n d addr s) :=
  h.cellExec

theorem State.Canonical.execRcn {op : RcnOp} {ty : Ty} {d : Reg} {addr : Addr} (h : s.Canonical) :
    OutcomeCanonical (execRcn g op ty d addr s) :=
  h.cellExec

theorem State.Canonical.homeStore {e : Env} {o : Op} {slot gen : Nat} {val ea : Word} {ovf : Bool} {mop : RcnOp}
    (h : s.Canonical) : (s.homeStore e o slot gen val ea ovf mop).Canonical := by
  unfold State.homeStore
  dsimp only
  split
  · exact h.dropOp.changeCell
  · split
    · exact h.dropOp.changeCell
    · exact h.systemEffect.getD h

theorem State.Canonical.homeRcn {e : Env} {o : Op} {slot : Nat} {op : RcnOp} {ty : Ty} {d : Reg} {ea : Word} (h : s.Canonical) :
    (s.homeRcn e o slot op ty d ea).Canonical :=
  h.dropOp.deliverRegs.ite ((h.systemEffect.getD h).ite h.changeCell.dropOp.deliverRegs)

theorem State.Canonical.homeAtomic {e : Env} {o : Op} {slot : Nat} {d : Option Reg} {ty : Ty} {ea : Word} {keeps : Bool}
    {f : Nat → Nat × List (Nat × Nat)} (h : s.Canonical) :
    (s.homeAtomic e o slot d ty ea keeps f).Canonical :=
  (h.systemEffect.getD h).ite ((h.systemEffect.getD h).ite h.dropOp.changeCell.atomRegs)

theorem State.Canonical.loosenRegs {b : Bool} {vs : List (Reg × Word × Option (Nat × Word))} (h : s.Canonical) :
    (s.loosenRegs b vs).2.Canonical := by
  induction vs generalizing s with
  | nil => cases b <;> exact h
  | cons v vs ih =>
    cases b with
    | false => exact h
    | true => exact ih (s := s.freeVal.2) (h.frame rfl)

theorem State.Canonical.homeLost {o : Op} (h : s.Canonical) : (s.homeLost o).Canonical :=
  h.dropOp.trapHeld.ite h.dropOp.deliverRegs

theorem State.Canonical.homeKeep {s0 : State} {o : Op} (h : s0.Canonical) : (s0.homeKeep o).Canonical := by
  unfold State.homeKeep
  split
  · exact h.frame rfl
  · extract_lets s t busy give
    have hs : s.Canonical := by
      unfold s
      split
      · exact h.markCell
      · exact h
    have hg : ∀ slot vs, (give slot vs).Canonical := by
      intro slot vs
      unfold give
      exact hs.dropOp.loosenRegs.deliverRegs
    clear_value s give
    split
    · split
      · exact hs
      · exact hs.homeLost
    · split
      · exact hg _ _
      · exact hg _ _
      · exact hg _ _
      · split
        · exact hs.frame rfl
        · exact hs.ite hs.homeStore
      · exact hs.ite hs.homeRcn
      · exact hs.ite hs.homeAtomic
      · exact hs.ite hs.homeAtomic
      · exact hs

/-! ### Copies -/

theorem State.Canonical.issueCopy {nb gather : Bool} {k : State × List Nat} {t : Nat} (h : k.1.Canonical) :
    (issueCopy p nb gather k t).1.Canonical := by
  unfold Machine.issueCopy
  dsimp only
  split
  · exact h
  · split
    · exact ((h.ite (h.firstUse.getD h)).frame (by rfl)).post
    · dsimp only
      split
      · exact h
      · exact h.frame rfl

theorem State.Canonical.copyExec {i : Instr} {nb gather : Bool} (h : s.Canonical) :
    OutcomeCanonical (copyExec i nb gather s) := by
  refine h.withPrep ?_
  intro p hp
  dsimp only
  split
  · exact OptionCanonical.of_some ‹_› hp.check
  · exact (hp.s.foldl_fst fun _ _ h' => State.Canonical.issueCopy h').completePart

theorem State.Canonical.execCpy {nb : Bool} {a b : Reg} (h : s.Canonical) : OutcomeCanonical (execCpy g nb a b s) :=
  h.copyExec

theorem State.Canonical.execCpyg {nb : Bool} {a b : Reg} (h : s.Canonical) : OutcomeCanonical (execCpyg g nb a b s) :=
  h.copyExec

theorem State.Canonical.copyRead {o : Op} {tg : Bool} {bar : Option Nat} {rows0 : List CopyRow} {idx0 : Nat} (h : s.Canonical) :
    (s.copyRead o tg bar rows0 idx0).Canonical := by
  unfold State.copyRead
  dsimp only
  split
  · split
    · exact h
    · refine State.Canonical.modOp ?_
      split
      · split
        · exact h.markRead
        · exact h.unlanded
      · exact h
  · exact h

theorem State.Canonical.copyWrite {o : Op} {tg : Bool} {bar : Option Nat} {rows0 : List CopyRow} {idx0 : Nat} (h : s.Canonical) :
    (s.copyWrite o tg bar rows0 idx0).Canonical := by
  unfold State.copyWrite
  dsimp only
  split
  · split
    · exact h
    · split
      · exact h.lostWrite.modOp
      · split
        · exact (h.storeNow.poisonRecord.ite h.storeNow).modOp
        · exact h.append.note.spoil.soil.modOp
  · exact h

theorem State.Canonical.copyLand {o : Op} {tg : Bool} {bar : Option Nat} {rows : List CopyRow} {idx : Nat} (h : s.Canonical) :
    (s.copyLand o tg bar rows idx).Canonical := by
  unfold State.copyLand
  split
  · split
    · dsimp only
      split
      · exact h.modOp.landAt
      · exact h.modOp
    · exact h
  · exact h

/-! ### Compaction -/

theorem State.Canonical.cxExec {α : Type} {i : Instr} {ea : Prep → Nat → Word} {look : Prep → Nat → Except (Nat × Nat) α}
    {kind : Prep → Nat → α → OpKind} (h : s.Canonical) : OutcomeCanonical (cxExec i s ea look kind) := by
  refine h.withPrep ?_
  intro p hp
  split
  · exact OptionCanonical.of_some ‹_› hp.check
  · refine State.Canonical.complete (hp.s.foldl ?_)
    intro s t h'
    split
    · exact h'.frame rfl
    · exact h'

theorem State.Canonical.execCclose {a : Reg} (h : s.Canonical) : OutcomeCanonical (execCclose g a s) :=
  h.cxExec

theorem State.Canonical.execCappend {a b : Reg} (h : s.Canonical) : OutcomeCanonical (execCappend g a b s) :=
  h.cxExec

theorem State.Canonical.execCtake {d : Reg} {pc : Pred} {a : Reg} (h : s.Canonical) : OutcomeCanonical (execCtake g d pc a s) :=
  h.cxExec

theorem State.Canonical.execCdone {a : Reg} (h : s.Canonical) : OutcomeCanonical (execCdone g a s) :=
  h.cxExec

theorem State.Canonical.execCquiet {a b : Reg} (h : s.Canonical) : OutcomeCanonical (execCquiet g a b s) :=
  h.cxExec

theorem State.Canonical.put {loc n v : Nat} (h : s.Canonical) : (s.put loc n v).Canonical :=
  h.pokeAs

theorem State.Canonical.detect {dom : Nat} (h : s.Canonical) : (s.detect dom).Canonical :=
  (h.frame (by rfl)).ite h

theorem State.Canonical.setFlag {dom bit : Nat} {v : Bool} (h : s.Canonical) : (s.setFlag dom bit v).Canonical :=
  h.put

theorem State.Canonical.disarm {bids : List Nat} (h : s.Canonical) : (s.disarm bids).Canonical :=
  (h.frame (by rfl)).foldl fun _ _ h' => h'.setFlag

theorem State.Canonical.appendItem {hdr : Nat} {dom : Option Nat} {slot cap tail : Nat} {item : Word} (h : s.Canonical) :
    (s.appendItem hdr dom slot cap tail item).Canonical := by
  unfold State.appendItem
  dsimp only
  split
  · exact h.pokeAs.put.put.detect
  · exact h.pokeAs.put

theorem State.Canonical.workOn {k : OpKind} (h : s.Canonical) : (s.workOn k).Canonical :=
  h.frame rfl

theorem State.Canonical.taken {o : Op} {d : Reg} {pc : Pred} {v : Word} {ok : Bool} {bad : Option (Nat × Word)}
    (h : s.Canonical) : (s.taken o d pc v ok bad).Canonical :=
  h.squash.dropOp.deliverRegs.modThread

theorem State.Canonical.arrive {bid off : Nat} (h : s.Canonical) : (s.arrive bid off).Canonical :=
  h.arriveFree

theorem State.Canonical.homeCx {s0 : State} {o : Op} (h : s0.Canonical) : (s0.homeCx o).Canonical := by
  unfold State.homeCx
  dsimp only
  split
  · exact (h.workOn.put.ite h.workOn.setFlag).detect.dropOp
  · split
    · split
      · exact h.workOn.freeFlag.systemEffect.getD h
      · exact h.workOn.freeFlag.freeVal.appendItem.spoilUnit.dropOp
    · split
      · split
        · exact h
        · exact h.workOn.systemEffect.getD h
      · exact h.workOn.appendItem.dropOp
  · split
    · exact h.workOn.spoilUnit.freeVal.freeFlag.taken
    · split
      · exact h.workOn.taken
      · exact h.workOn.put.taken
  · split
    · exact h.workOn.dropOp
    · exact (h.workOn.put.setFlag.ite h.workOn.put).detect.dropOp
  · split
    · exact h
    · exact ((h.workOn.freeVal.put.frame (by rfl)).setFlag.arrive.ite (h.workOn.freeVal.put.frame (by rfl)).setFlag).dropOp
  · exact h

theorem State.Canonical.execHome {op : Nat} (h : s.Canonical) : OutcomeCanonical (execHome op s) :=
  h.ifEnabled fun _ => (h.homeCx.ite h).ite h.homeKeep

theorem State.Canonical.execQuiescenceArrival {domain : Nat} (h : s.Canonical) :
    OutcomeCanonical (execQuiescenceArrival domain s) := by
  unfold Machine.execQuiescenceArrival
  split
  · exact (h.frame (by rfl)).setFlag.arrive
  · exact h

/-! ### The matrix engine -/

theorem State.Canonical.freeRow {bid : Nat} {pl : Plane} {tile row afmt : Nat} {raw acc : Bool} {bs : List Byte}
    {sure ue : Bool} (h : s.Canonical) :
    (s.freeRow bid pl tile row afmt raw acc bs sure ue).Canonical := by
  unfold State.freeRow
  dsimp only
  exact (State.Canonical.freeWords h.freeVal).modBlock

theorem State.Canonical.freeBytes {n : Nat} (h : s.Canonical) : (s.freeBytes n).2.Canonical := by
  induction n generalizing s with
  | zero => exact h
  | succ n ih => exact ih (s := s.freeVal.2) (h.frame rfl)

theorem State.Canonical.mxExec {i : Instr} {uniform : Bool} {chk : Prep → Nat → Option (Nat × Nat)} {held : Bool}
    {kind : Prep → Option (OpKind × List (Nat × Nat))} (h : s.Canonical) :
    OutcomeCanonical (mxExec i s uniform chk held kind) := by
  refine h.withPrep ?_
  intro p hp
  dsimp only
  split
  · exact (OptionCanonical.of_some ‹_› hp.check).frame (by rfl)
  · split
    · exact hp.s.complete
    · split
      · exact hp.s.complete
      · split
        · exact hp.s0.stallAt
        · split
          · exact hp.s0.stallAt
          · exact hp.s.post.modOp.complete

theorem State.Canonical.execMldw {pair : BitVec 1} {a : Reg} (h : s.Canonical) : OutcomeCanonical (execMldw g pair a s) :=
  h.mxExec

theorem State.Canonical.execMswap {pair : BitVec 1} (h : s.Canonical) : OutcomeCanonical (execMswap g pair s) :=
  h.mxExec

theorem State.Canonical.execMpass {afmt : BitVec 4} {raw acc : Bool} {pair : BitVec 1} {tile : BitVec 6} {a : Reg}
    (h : s.Canonical) : OutcomeCanonical (execMpass g afmt raw acc pair tile a s) := by
  unfold Machine.execMpass
  exact h.mxExec

theorem State.Canonical.execMzero {tile nm1 : BitVec 6} (h : s.Canonical) : OutcomeCanonical (execMzero g tile nm1 s) :=
  h.mxExec

theorem State.Canonical.execMmov {ty : Ty} {n : BitVec 2} {d : Reg} {tile q : BitVec 6} (h : s.Canonical) :
    OutcomeCanonical (execMmov g ty n d tile q s) :=
  h.mxExec

theorem State.Canonical.execMsta {bf16 : Bool} {a : Reg} {tile : BitVec 6} (h : s.Canonical) :
    OutcomeCanonical (execMsta g bf16 a tile s) :=
  h.mxExec

theorem State.Canonical.execMatrixGrant {die cluster : Nat} (h : s.Canonical) :
    OutcomeCanonical (execMatrixGrant die cluster s) := by
  unfold Machine.execMatrixGrant
  split
  · exact h.frame rfl
  · exact h

theorem State.Canonical.loadColumn {e : Env} {o : Op} {k : State × Plane} {x : Nat × List Seg} (h1 : k.1.Canonical) :
    (s.loadColumn e o k x).1.Canonical := by
  refine State.Canonical.foldl ?_ (fun s x h' => h'.badRecords.markRead)
  exact State.Canonical.ite_snd h1.freeBytes h1

theorem State.Canonical.passOne {e : Env} {o : Op} {pl : Plane} {tile afmt : Nat} {raw acc : Bool} {x : Nat × Seg}
    (h : s.Canonical) : (s.passOne e o pl tile afmt raw acc x).Canonical :=
  h.badRecords.markRead.freeRow.ite (h.freeRow.ite h.modBlock)

theorem State.Canonical.freeTile {t : Tile} {rows : List Nat} (h : s.Canonical) : (s.freeTile t rows).2.Canonical :=
  State.Canonical.foldl_snd (p := (t, s)) h fun _ _ h' => State.Canonical.freeWords h'.freeVal

theorem State.Canonical.joinTile {o : Op} {t : Tile} {tile : Nat} (h : s.Canonical) : (s.joinTile o t tile).2.Canonical := by
  unfold State.joinTile
  split
  · exact h.freeTile
  · exact h

theorem State.Canonical.storeRow {e : Env} {o : Op} {bf16 : Bool} {tl : Tile} {x : Nat × Nat} (h : s.Canonical) :
    (s.storeRow e o bf16 tl x).Canonical :=
  h.append.note.spoil.soil

theorem State.Canonical.mxWrite {o : Op} {bf16 : Bool} {t : Nat} {rows : List (Nat × Nat)} {idx : Nat} (h : s.Canonical) :
    (s.mxWrite o bf16 t rows idx).Canonical := by
  unfold State.mxWrite
  split
  · split
    · exact (h.frame (by rfl)).joinTile.storeRow.modOp
    · exact h
  · exact h

theorem State.Canonical.mxDone {o : Op} (h : s.Canonical) : (s.mxDone o).Canonical := by
  unfold State.mxDone
  split
  · exact h.dropOp
  · dsimp only
    split
    · exact ((h.frame (by rfl)).foldl_fst fun _ _ h' => h'.loadColumn).modBlock.dropOp
    · exact h.frame rfl
    · exact ((h.frame (by rfl)).foldl fun _ _ h' => h'.passOne).dropOp
    · exact h.frame rfl
    · exact (h.frame (by rfl)).joinTile.dropOp.foldl fun _ _ h' => h'.deliverRegs
    · exact (h.frame (by rfl)).joinTile.dropOp.foldl fun _ _ h' => h'.storeRow
    · exact h.frame rfl

/-! ### The banks -/

theorem State.Canonical.issueBank {gather : Bool} {k : State × List Nat} {t : Nat} (h : k.1.Canonical) :
    (issueBank p gather k t).1.Canonical := by
  unfold Machine.issueBank
  dsimp only
  split
  · exact h
  · split
    · exact h.post
    · exact h

theorem State.Canonical.bankExec {i : Instr} {gather : Bool} (h : s.Canonical) : OutcomeCanonical (bankExec i gather s) := by
  refine h.withPrep ?_
  intro p hp
  split
  · exact OptionCanonical.of_some ‹_› hp.check
  · exact ((hp.s.foldl_fst fun _ _ h' => State.Canonical.issueBank h').frame (by rfl)).completePart

theorem State.Canonical.execBkmv {a : Reg} (h : s.Canonical) : OutcomeCanonical (execBkmv g a s) :=
  h.bankExec

theorem State.Canonical.execBkgth {a : Reg} (h : s.Canonical) : OutcomeCanonical (execBkgth g a s) :=
  h.bankExec

theorem State.Canonical.execBkst {d a : Reg} (h : s.Canonical) : OutcomeCanonical (execBkst g d a s) :=
  h.withPrep fun _ hp => (hp.s.foldl fun _ _ h' => h'.freeFlag.modGang).complete

theorem State.Canonical.vaultRecord {e : Env} {die vault loc : Nat} (h : s.Canonical) :
    (s.vaultRecord e die vault loc).Canonical :=
  h.faultRecord

theorem State.Canonical.badBlocks {e : Env} {die vault loc : Nat} {bl : List (List RByte)} (h : s.Canonical) :
    (s.badBlocks e die vault loc bl).Canonical :=
  h.foldl fun _ _ h' => h'.vaultRecord

theorem State.Canonical.bankWrite {e : Env} {o : Op} {die vault loc : Nat} {runs : List (Bool × List Byte)} (h : s.Canonical) :
    (s.bankWrite e o die vault loc runs).Canonical := by
  induction runs generalizing s loc with
  | nil => exact h
  | cons r rest ih =>
    refine ih ?_
    split
    · exact h.frame rfl
    · exact h.append.note.spoil.soil

theorem State.Canonical.clashBytes {rs : List (Nat × Nat)} {loc : Nat} {bs : List RByte} (h : s.Canonical) :
    (s.clashBytes rs loc bs).2.Canonical := by
  induction bs generalizing s loc with
  | nil => exact h
  | cons b bs ih => exact ih (State.Canonical.ite_snd (h.frame rfl) h)

theorem State.Canonical.bankPut {e : Env} {o : Op} {r : BankRow} {row k loc : Nat} {bs : List RByte} (h : s.Canonical) :
    (s.bankPut e o r row k loc bs).Canonical :=
  h.clashBytes.bankWrite

theorem State.Canonical.bkmvRow {e : Env} {o : Op} {bf16 acc : Bool} {cols : Nat} {rows : List (List Seg)} {r : BankRow}
    {which : Nat → Bool} (h : s.Canonical) :
    (s.bkmvRow e o bf16 acc cols rows r which).2.Canonical :=
  (h.badBlocks.ite h).foldl_snd fun _ _ h' => (h'.foldl fun _ _ h'' => h''.badRecords).badRecords

theorem State.Canonical.bkgthRow {e : Env} {o : Op} {rfmt cols : Nat} {r : BankRow} {which : Nat → Bool} (h : s.Canonical) :
    (s.bkgthRow e o rfmt cols r which).2.Canonical := by
  unfold State.bkgthRow
  dsimp only
  split
  · split
    · exact h.badBlocks
    · exact h
  · exact h

theorem State.Canonical.countUnit {o : Op} {die vault : Nat} (h : s.Canonical) : (s.countUnit o die vault).Canonical := by
  unfold State.countUnit
  split
  · split
    · exact h
    · exact h.modCtx
  · exact h

theorem State.Canonical.rowResults {e : Env} {o : Op} {r : BankRow} {which : Nat → Bool} (h : s.Canonical) :
    (s.rowResults e o r which).2.Canonical := by
  unfold State.rowResults
  split
  · exact h.bkmvRow
  · exact h.bkgthRow
  · exact h

theorem State.Canonical.rowRead {o : Op} {idx : Nat} (h : s.Canonical) : (s.rowRead o idx).Canonical := by
  unfold State.rowRead
  dsimp only
  split
  · exact h.modOp
  · exact h

theorem State.Canonical.rowPut {o : Op} {row : Nat} {which : Nat → Bool} (h : s.Canonical) :
    (s.rowPut o row which).Canonical := by
  unfold State.rowPut
  split
  · dsimp only
    split
    · split
      · exact (h.rowResults.foldl fun _ _ h' => h'.bankPut).modOp.countUnit.count.serve
      · exact (h.rowResults.foldl fun _ _ h' => h'.bankPut).modOp
    · exact (h.rowResults.foldl fun _ _ h' => h'.bankPut).modOp
  · exact h

theorem State.Canonical.rowWrite {o : Op} {row : Nat} (h : s.Canonical) : (s.rowWrite o row).Canonical :=
  h.rowPut

theorem State.Canonical.pieceWrite {o : Op} {idx : Nat} (h : s.Canonical) : (s.pieceWrite o idx).Canonical :=
  h.rowWrite.ite h.rowPut

theorem State.Canonical.execRowTask {op row : Nat} (h : s.Canonical) : OutcomeCanonical (execRowTask op row s) := by
  unfold Machine.execRowTask
  split
  · exact h
  · exact h.rowWrite

/-! ### Control, pacing and traps -/

theorem State.Canonical.execMovs {d : Reg} {sr : BitVec 8} (h : s.Canonical) : OutcomeCanonical (execMovs g d sr s) := by
  refine h.withPrep ?_
  intro p hp
  dsimp only
  split
  · exact OptionCanonical.of_some ‹_› hp.check
  · exact hp.s.modGang.complete

theorem State.Canonical.execMovsw {sr : BitVec 8} {src : Opnd} (h : s.Canonical) : OutcomeCanonical (execMovsw g sr src s) := by
  refine h.withPrep ?_
  intro p hp
  dsimp only
  split
  · exact OptionCanonical.of_some ‹_› hp.check
  · split
    · exact hp.s.modGang.complete
    · split
      · exact hp.s.modGang.complete.modGang
      · split
        · exact hp.s.modGang.complete.modGang
        · exact hp.s.modGang.complete

theorem State.Canonical.transfer {i : Instr} {link : Option Reg} {target : Prep → Nat → Nat} (h : s.Canonical) :
    OutcomeCanonical (transfer i s link target) := by
  refine h.withPrep ?_
  intro p hp
  dsimp only
  split
  · exact OptionCanonical.of_some ‹_› hp.check
  · refine State.Canonical.jump ?_
    refine State.Canonical.complete ?_
    split
    · exact hp.s.modGang
    · exact hp.s

theorem State.Canonical.execBra {target : Target} (h : s.Canonical) : OutcomeCanonical (execBra g target s) :=
  h.transfer

theorem State.Canonical.execBrx {a : Reg} {b : Opnd} (h : s.Canonical) : OutcomeCanonical (execBrx g a b s) :=
  h.transfer

theorem State.Canonical.execCall {d : Reg} {target : Target} (h : s.Canonical) : OutcomeCanonical (execCall g d target s) :=
  h.transfer

theorem State.Canonical.execCallx {d a : Reg} {b : Opnd} (h : s.Canonical) : OutcomeCanonical (execCallx g d a b s) :=
  h.transfer

theorem State.Canonical.execRet {a : Reg} (h : s.Canonical) : OutcomeCanonical (execRet g a s) :=
  h.transfer

theorem State.Canonical.execRetS {a : Reg} (h : s.Canonical) : OutcomeCanonical (execRetS a s) :=
  h.transfer

theorem State.Canonical.endTurn {gid t : Nat} (h : s.Canonical) : (s.endTurn gid t).Canonical :=
  (h.frame (by rfl)).ite h.modThread

theorem State.Canonical.exitThread {e : Env} {t : Nat} {saved : Bool} (h : s.Canonical) : (s.exitThread e t saved).Canonical := by
  unfold State.exitThread
  split
  · exact (h.foldl fun _ _ h' => h'.dropFrom).endTurn.modThread.modGang
  · exact h

theorem State.Canonical.exitExec {i : Instr} {saved : Bool} (h : s.Canonical) : OutcomeCanonical (exitExec i saved s) := by
  refine h.withPrep ?_
  intro p hp
  split
  · exact OptionCanonical.of_some ‹_› (OptionCanonical.ite hp.failAll OptionCanonical.none)
  · dsimp only
    split
    · exact (hp.s.complete.foldl fun _ _ h' => h'.exitThread).modBlock
    · exact hp.s.complete.foldl fun _ _ h' => h'.exitThread

theorem State.Canonical.execExit (h : s.Canonical) : OutcomeCanonical (execExit g s) :=
  h.exitExec

theorem State.Canonical.execExitS (h : s.Canonical) : OutcomeCanonical (execExitS s) :=
  h.exitExec

theorem State.Canonical.execExitSaved (h : s.Canonical) : OutcomeCanonical (execExitSaved g s) :=
  h.exitExec

theorem State.Canonical.yieldExec {i : Instr} (h : s.Canonical) : OutcomeCanonical (yieldExec i s) :=
  h.withPrep fun _ hp => hp.s.complete.modGang

theorem State.Canonical.execYield (h : s.Canonical) : OutcomeCanonical (execYield g s) :=
  h.yieldExec

theorem State.Canonical.execYieldS (h : s.Canonical) : OutcomeCanonical (execYieldS s) :=
  h.yieldExec

theorem State.Canonical.execNop (h : s.Canonical) : OutcomeCanonical (execNop g s) :=
  h.withPrep fun _ hp => hp.s.complete

theorem State.Canonical.coverPasses {e : Env} {ts : List Nat} {limit : Nat} (h : s.Canonical) :
    (s.coverPasses e ts limit).Canonical :=
  h.ite h.modBlock

theorem State.Canonical.waitExec {i : Instr} {ld st cp tl bk : Nat} (h : s.Canonical) :
    OutcomeCanonical (waitExec i ld st cp tl bk s) :=
  h.withPrep fun _ hp => hp.s0.stallAt.ite hp.s.coverPasses.completePart

theorem State.Canonical.execWait {ld st cp tl : BitVec 8} {bk : BitVec 4} (h : s.Canonical) :
    OutcomeCanonical (execWait g ld st cp tl bk s) :=
  h.waitExec

theorem State.Canonical.execWaitS {ld st cp tl : BitVec 4} (h : s.Canonical) : OutcomeCanonical (execWaitS ld st cp tl s) :=
  h.waitExec

theorem State.Canonical.execWtime {d a : Reg} (h : s.Canonical) : OutcomeCanonical (execWtime g d a s) :=
  h.withPrep fun _ hp => hp.s.modGang.completePart

theorem State.Canonical.execWtimeDeadline {gid thr : Nat} (h : s.Canonical) : OutcomeCanonical (execWtimeDeadline gid thr s) := by
  unfold Machine.execWtimeDeadline
  split
  · split
    · split
      · split
        · exact h.modThread
        · exact h
      · exact h
    · exact h
  · exact h

theorem State.Canonical.execTrap {code : BitVec 14} (h : s.Canonical) : OutcomeCanonical (execTrap g code s) := by
  refine h.withPrep ?_
  intro p hp
  split
  · exact OptionCanonical.of_some ‹_› hp.check
  · exact hp.s.complete

theorem State.Canonical.execRtt (h : s.Canonical) : OutcomeCanonical (execRtt g s) := by
  refine h.withPrep ?_
  intro p hp
  split
  · exact hp.s.complete
  · exact hp.failAll.getD hp.s
  · dsimp only
    split
    · exact hp.s0.trapAt
    · exact hp.s.settleIssue.modGang

theorem State.Canonical.withRq {i : Instr} {sel : BitVec 4} {k : Prep → TrapMode → State} (h : s.Canonical)
    (hk : ∀ p m, p.Canonical → (k p m).Canonical) : OutcomeCanonical (withRq i sel s k) := by
  unfold Machine.withRq
  split
  · exact PrepCanonical.of_error ‹_› h.prepareWith
  · dsimp only
    split
    · exact OptionCanonical.of_some ‹_› (PrepCanonical.of_ok ‹_› h.prepareWith).check
    · split
      · exact (hk _ _ (PrepCanonical.of_ok ‹_› h.prepareWith)).complete
      · exact (PrepCanonical.of_ok ‹_› h.prepareWith).s.complete

theorem State.Canonical.execRqrd {d a : Reg} {sel : BitVec 4} (h : s.Canonical) : OutcomeCanonical (execRqrd g d a sel s) :=
  h.withRq fun _ _ hp => hp.s.modGang

theorem State.Canonical.execRqwr {a b : Reg} {sel : BitVec 4} (h : s.Canonical) : OutcomeCanonical (execRqwr g a b sel s) :=
  h.withRq fun _ _ hp => hp.s.modGang

theorem State.Canonical.execTlbinv {a b : Reg} (h : s.Canonical) : OutcomeCanonical (execTlbinv g a b s) := by
  refine h.withPrep ?_
  intro p hp
  split
  · exact OptionCanonical.of_some ‹_› (OptionCanonical.ite hp.failAll OptionCanonical.none)
  · exact (hp.s.frame (by rfl)).complete

theorem State.Canonical.execLser (h : s.Canonical) : OutcomeCanonical (execLser g s) :=
  h.withPrep fun _ hp => hp.s.modGang.completePart

theorem State.Canonical.execLsend (h : s.Canonical) : OutcomeCanonical (execLsend g s) :=
  h.withPrep fun _ hp => (hp.s.foldl fun _ _ h' => h'.endTurn.ite h').complete

/-! ### Events of the engines -/

theorem State.Canonical.execEnqueue {op : Nat} (h : s.Canonical) : OutcomeCanonical (execEnqueue op s) := by
  unfold Machine.execEnqueue
  split
  · split
    · exact h.modOp
    · exact h
  · exact h

theorem State.Canonical.execRead {op idx : Nat} (h : s.Canonical) : OutcomeCanonical (execRead op idx s) := by
  unfold Machine.execRead
  split
  · split
    · exact h.copyRead
    · exact h.rowRead
    · exact h.rowRead
    · exact h
  · exact h

theorem State.Canonical.execWrite {op idx : Nat} (h : s.Canonical) : OutcomeCanonical (execWrite op idx s) := by
  unfold Machine.execWrite
  split
  · split
    · exact h.copyWrite
    · exact h.mxWrite
    · exact h.pieceWrite
    · exact h.pieceWrite
    · exact h
  · exact h

theorem State.Canonical.execLand {op idx : Nat} (h : s.Canonical) : OutcomeCanonical (execLand op idx s) := by
  unfold Machine.execLand
  split
  · split
    · exact h.copyLand
    · exact h
  · exact h

theorem State.Canonical.pin {o : Op} (h : s.Canonical) : (s.pin o).Canonical :=
  h.modBlock.ite h

theorem State.Canonical.execDone {op : Nat} (h : s.Canonical) : OutcomeCanonical (execDone op s) := by
  unfold Machine.execDone
  split
  · split
    · split
      · exact h.withRods h.mxDone
      · exact h.pin.dropOp
    · exact h
  · exact h

/-! ### Gangs and blocks -/

theorem State.Canonical.confirmGang {g : Gang} (h : s.Canonical) : (s.confirmGang g).Canonical := by
  unfold State.confirmGang
  split
  · dsimp only
    split
    · exact h.count.modGang
    · split
      · exact h.coverPasses.count.modGang
      · exact h
  · exact h.modGang
  · exact h

theorem State.Canonical.confirm (h : s.Canonical) : s.confirm.Canonical :=
  h.foldl fun _ _ h' => h'.confirmGang

theorem State.Canonical.runAhead {g : Gang} {f : Fetched} (h : s.Canonical) : (s.runAhead g f).Canonical :=
  h.ite h.modGang

theorem State.Canonical.execFetch {gid pc : Nat} {spec : Bool} (h : s.Canonical) :
    OutcomeCanonical (execFetch gid pc spec s) := by
  unfold Machine.execFetch
  split
  · exact h
  · dsimp only
    split
    · exact h
    · split
      · split
        · exact (h.frame (by rfl)).runAhead
        · exact h.frame rfl
      · exact h.frame rfl

theorem State.Canonical.execSquash {gid : Nat} (h : s.Canonical) : OutcomeCanonical (execSquash gid s) :=
  h.squash

theorem State.Canonical.deliverPend {g : Gang} {p : PendTrap} (h : s.Canonical) : (s.deliverPend g p).Canonical :=
  h.modGang.ite h.modGang.deliver

theorem State.Canonical.execTrapDelivery {gid : Nat} (h : s.Canonical) : OutcomeCanonical (execTrapDelivery gid s) := by
  unfold Machine.execTrapDelivery
  dsimp only
  split
  · exact h.squash.deliverPend
  · exact h

theorem State.Canonical.execGangSwap {out inn : Nat} (h : s.Canonical) : OutcomeCanonical (execGangSwap out inn s) := by
  unfold Machine.execGangSwap
  split
  · exact h
  · split
    · exact h
    · split
      · exact h.modGang
      · split
        · split
          · exact h.modGang.modGang.count
          · exact h
        · exact h

theorem State.Canonical.execGangEnd {gid : Nat} (h : s.Canonical) : OutcomeCanonical (execGangEnd gid s) := by
  unfold Machine.execGangEnd
  split
  · exact h
  · split
    · exact h.frame rfl
    · exact h

theorem State.Canonical.freeBlock {bid : Nat} {keep : Bool} (h : s.Canonical) : (s.freeBlock bid keep).Canonical :=
  Memory.wf_filter (State.Canonical.disarm (bids := [bid]) h) _

theorem State.Canonical.traceBlock {b : Block} {l : Launch} {wall : Nat} (h : s.Canonical) : (s.traceBlock b l wall).Canonical :=
  h.trace

theorem State.Canonical.execBlockEnd {bid : Nat} (h : s.Canonical) : OutcomeCanonical (execBlockEnd bid s) := by
  unfold Machine.execBlockEnd
  split
  · exact h
  · split
    · exact h
    · split
      · exact h.freeBlock
      · dsimp only
        split
        · exact h
        · split <;> exact h.freeBlock.traceBlock.modLaunch

/-! ### Launches -/

theorem State.Canonical.execFlag {launch edge tile : Nat} (h : s.Canonical) : OutcomeCanonical (execFlag launch edge tile s) := by
  unfold Machine.execFlag
  split
  · exact h
  · split
    · split
      · split
        · exact h.modLaunch
        · exact h
      · exact h
    · exact h

theorem State.Canonical.startBlock {l : Launch} {b die core off : Nat} (h : s.Canonical) :
    (s.startBlock l b die core off).Canonical :=
  have hl := h.modLaunch.forgetWrites
  (((hl.ite h).frame (by rfl)).trace.ite ((hl.ite h).frame (by rfl))).serveCore.trace

theorem State.Canonical.execBlockStart {launch die core : Nat} (h : s.Canonical) :
    OutcomeCanonical (execBlockStart launch die core s) := by
  unfold Machine.execBlockStart
  split
  · exact h
  · split
    · exact h
    · split
      · exact h.startBlock
      · exact h

theorem State.Canonical.makeReady {l : Launch} (h : s.Canonical) : (s.makeReady l).Canonical := by
  unfold State.makeReady
  split
  · exact h.modLaunch
  · exact h

theorem State.Canonical.execLaunchReady {launch : Nat} (h : s.Canonical) : OutcomeCanonical (execLaunchReady launch s) := by
  unfold Machine.execLaunchReady
  split
  · exact h
  · split
    · split
      · exact h.makeReady
      · exact h
    · split
      · exact h
      · exact h.modLaunch
    · split
      · exact h.makeReady
      · exact h
    · exact h

theorem State.Canonical.report {kick : Nat} {r : Nat → Report} (h : s.Canonical) : (s.report kick r).Canonical := by
  unfold State.report
  split
  · exact h.frame rfl
  · dsimp only
    split <;> exact h.frame rfl

theorem State.Canonical.dropReplay {replay : Nat} (h : s.Canonical) : (s.dropReplay replay).Canonical :=
  (h.frame (by rfl)).ite h

theorem State.Canonical.finish {l : Launch} {st : LStatus} (h : s.Canonical) : (s.finish l st).Canonical :=
  h.modLaunch.forgetWrites.trace.report.dropReplay

theorem State.Canonical.execLateAbandoned {launch : Nat} (h : s.Canonical) : OutcomeCanonical (execLateAbandoned launch s) := by
  unfold Machine.execLateAbandoned
  split
  · exact h
  · split
    · exact h.finish
    · exact h

theorem State.Canonical.execLaunchComplete {launch : Nat} (h : s.Canonical) : OutcomeCanonical (execLaunchComplete launch s) := by
  unfold Machine.execLaunchComplete
  split
  · exact h
  · split
    · exact h
    · split
      · split
        · exact h.finish
        · exact h
      · split
        · exact h.finish
        · exact h
      · exact h

theorem State.Canonical.releaseKeep {l : Launch} {c : Context} {e : Rcb} {rs : List RelCell} {slot gen : Nat} {val : Word}
    {actor : W32} {op : RcnOp} {bad : Bool} (h : s.Canonical) :
    (s.releaseKeep l c e rs slot gen val actor op bad).1.Canonical :=
  h.changeCell.markAs.modLaunch

theorem State.Canonical.releaseGo {l : Launch} {c : Context} {e : Rcb} {rs : List RelCell} {ws : List Staged} (h : s.Canonical) :
    (s.releaseGo l c e rs ws).Canonical := by
  induction ws generalizing s rs with
  | nil => exact h
  | cons w ws ih =>
    cases w with
    | bytes op cls p loc data bad =>
      unfold State.releaseGo
      dsimp only
      split
      · exact ih h.lostLines
      · refine ih (State.Canonical.ite ?_ ?_)
        · exact State.Canonical.poisonLines (h.append.frame rfl)
        · exact h.append.frame rfl
    | keep op p slot gen val actor rop bad => exact ih h.releaseKeep

theorem State.Canonical.execRelease {launch blk : Nat} (h : s.Canonical) : OutcomeCanonical (execRelease launch blk s) := by
  unfold Machine.execRelease
  split
  · exact h
  · split
    · split
      · exact h.releaseGo.frame rfl
      · exact h
    · exact h

theorem State.Canonical.execKick {reg : Nat} {word : Word} (h : s.Canonical) : OutcomeCanonical (execKick reg word s) := by
  unfold Machine.execKick
  split
  · exact h.report
  · split
    · exact h.frame rfl
    · exact h.report

theorem State.Canonical.pokeVa {c : Context} {va : Nat} {data : List Byte} (h : s.Canonical) :
    (s.pokeVa c va data).Canonical := by
  refine h.foldl ?_
  intro s x h'
  split
  · exact h'.pokeAs
  · exact h'

theorem State.Canonical.execParameterPlace {replay : Nat} (h : s.Canonical) : OutcomeCanonical (execParameterPlace replay s) := by
  unfold Machine.execParameterPlace
  split
  · exact h
  · split
    · split
      · exact h
      · split
        · exact h
        · exact (h.foldl fun _ _ h' => h'.pokeVa).frame rfl
    · exact h.frame rfl

/-! ### Commands -/

theorem State.Canonical.takePacket {seq : Nat} (h : s.Canonical) : (s.takePacket seq).Canonical := by
  unfold State.takePacket
  split
  · split
    · exact h.frame rfl
    · exact h
  · exact h

theorem State.Canonical.begun {w : Waiting} (h : s.Canonical) : (s.begun w).Canonical :=
  h.takePacket.frame rfl

theorem State.Canonical.command {specs : List FieldSpec} {p : Packet} {always : Bool} {names : Parsed → List (Nat × Nat)}
    {run : Parsed → State → CmdResult} {trim : Parsed → List Nat} (h : s.Canonical)
    (h1 : ∀ q s, s.Canonical → (run q s).Canonical) : OutcomeCanonical (command specs p s always names run trim) := by
  unfold Machine.command
  split
  · exact h
  · split
    · exact h.begun
    · dsimp only
      split
      · exact h
      · split
        · exact h.begun
        · split
          · exact h.begun
          · exact (CmdResult.Canonical.of_done ‹_› (h1 _ _ h)).begun
          · exact (CmdResult.Canonical.of_wait ‹_› (h1 _ _ h)).begun

theorem CmdResult.Canonical.withCtx {n : Nat} {ok : Bool} {k : Context → CmdResult} (h : ∀ c, (k c).Canonical) :
    (withCtx s n ok k).Canonical := by
  unfold Machine.withCtx
  split
  · trivial
  · split
    · trivial
    · exact h _

theorem State.Canonical.execRegionDefine {p : Packet} (h : s.Canonical) : OutcomeCanonical (execRegionDefine p s) := by
  refine h.command ?_
  intro q s h'
  refine .withCtx ?_
  intro c
  dsimp only
  split
  · exact trivial
  · split
    · exact trivial
    · split
      · split
        · exact trivial
        · split
          · exact h'.modCtx.pokeVa
          · exact trivial
      · exact trivial

theorem State.Canonical.execRegionRefresh {p : Packet} (h : s.Canonical) : OutcomeCanonical (execRegionRefresh p s) := by
  refine h.command ?_
  intro q s h'
  refine .withCtx ?_
  intro c
  split
  · exact trivial
  · split
    · exact trivial
    · split
      · dsimp only
        split
        · exact h'.modCtx.poke
        · exact h'.modCtx.pokeVa
      · exact trivial

theorem State.Canonical.syncRegions {e : Env} {a n : Nat} (h : s.Canonical) : (s.syncRegions e a n).Canonical := by
  refine h.foldl ?_
  intro s x h'
  split
  · exact h'
  · dsimp only
    split
    · exact h'.faultRecord
    · split
      · exact h'.modCtx
      · exact h'.faultRecord

theorem State.Canonical.execCbsync {a b : Reg} (h : s.Canonical) : OutcomeCanonical (execCbsync g a b s) := by
  refine h.withPrep ?_
  intro p hp
  dsimp only
  split
  · exact OptionCanonical.of_some ‹_› hp.check
  · exact (hp.s.foldl fun _ _ h' => h'.syncRegions).completePart

theorem State.Canonical.execCtxCreate {p : Packet} (h : s.Canonical) : OutcomeCanonical (execCtxCreate p s) := by
  refine h.command ?_
  intro q s h'
  dsimp only
  split
  · exact trivial
  · split
    · exact trivial
    · split
      · exact trivial
      · split
        · exact trivial
        · exact h'.frame rfl

theorem State.Canonical.flatten {rs : List KeepRange} (h : s.Canonical) : (s.flatten rs).Canonical := by
  unfold State.flatten
  extract_lets mine s1
  have hs1 : s1.Canonical := by
    refine h.foldl ?_
    intro s x h'
    split
    · exact h'.append
    · exact h'
  exact hs1.frame rfl

theorem State.Canonical.zeroMeta {rs : List KeepRange} (h : s.Canonical) : (s.zeroMeta rs).Canonical :=
  Memory.wf_filter h _

theorem State.Canonical.runMap {q : Parsed} (h : s.Canonical) : (runMap q s).Canonical :=
  .withCtx fun _ => .ite .reject (.ite .reject (.ite .reject (.done (h.modCtx.flatten.ite h.modCtx))))

theorem State.Canonical.execMap {p : Packet} (h : s.Canonical) : OutcomeCanonical (execMap p s) :=
  h.command fun _ _ h' => h'.runMap

theorem State.Canonical.execMapPeer {p : Packet} (h : s.Canonical) : OutcomeCanonical (execMapPeer p s) :=
  h.command fun _ _ h' => h'.runMap

theorem State.Canonical.dropEarly {ctx : Nat} (h : s.Canonical) : (s.dropEarly ctx).Canonical :=
  h.frame rfl

theorem State.Canonical.execUnmap {p : Packet} (h : s.Canonical) : OutcomeCanonical (execUnmap p s) :=
  h.command fun _ _ h' => .withCtx fun _ => .ite .reject (.ite .reject (.wait h'.modCtx.dropEarly))

theorem State.Canonical.execProtect {p : Packet} (h : s.Canonical) : OutcomeCanonical (execProtect p s) :=
  h.command fun _ _ h' => .withCtx fun _ => .ite .reject (.ite .reject (.ite .reject (.wait h'.modCtx.dropEarly)))

/-! ### Code, graphs and queues -/

theorem State.Canonical.execCodeLoad {p : Packet} (h : s.Canonical) : OutcomeCanonical (execCodeLoad p s) := by
  refine h.command ?_
  intro q s h'
  refine .withCtx ?_
  intro c
  dsimp only
  split
  · exact trivial
  · split
    · exact trivial
    · exact h'.pokeVa.frame rfl

theorem State.Canonical.putScratch {v : Saved} (h : s.Canonical) : (s.putScratch v).Canonical := by
  unfold State.putScratch
  extract_lets s1
  have hs1 : s1.Canonical := by
    refine h.foldl ?_
    intro s x h'
    exact memPut_wf h' _ _
  exact hs1.frame rfl

theorem State.Canonical.execCodeUnload {p : Packet} (h : s.Canonical) : OutcomeCanonical (execCodeUnload p s) := by
  refine h.command ?_
  intro q s h'
  split
  · exact trivial
  · split
    · exact trivial
    · exact h'.frame rfl

theorem State.Canonical.faultReplay {r : Replay} (h : s.Canonical) : (s.faultReplay r).Canonical := by
  unfold State.faultReplay
  split
  · exact (h.frame (by rfl)).foldl fun _ _ h' => h'.finish
  · exact h.frame rfl

theorem State.Canonical.execCodeUnloadForce {p : Packet} (h : s.Canonical) : OutcomeCanonical (execCodeUnloadForce p s) := by
  refine h.command ?_
  intro q s h'
  split
  · exact trivial
  · split
    · exact trivial
    · exact ((h'.frame (by rfl)).foldl fun _ _ h'' => h''.finish).foldl fun _ _ h'' => h''.faultReplay

theorem State.Canonical.replaceCode {c : Context} {o : CodeObj} {map : Nat} (h : s.Canonical) :
    (s.replaceCode c o map).Canonical :=
  h.foldl fun _ _ h' => h'.pokeVa

theorem State.Canonical.runRepack {replace : Bool} {q : Parsed} (h : s.Canonical) : (runRepack replace q s).Canonical := by
  unfold Machine.runRepack
  split
  · exact trivial
  · refine .withCtx ?_
    intro c
    dsimp only
    split
    · exact trivial
    · split
      · exact trivial
      · split
        · exact trivial
        · split
          · exact trivial
          · exact (h.pokeVa.pokeVa.replaceCode.ite h.pokeVa.pokeVa).frame rfl

theorem State.Canonical.execRepack {p : Packet} (h : s.Canonical) : OutcomeCanonical (execRepack p s) :=
  h.command fun _ _ h' => h'.runRepack

theorem State.Canonical.execRepackReplace {p : Packet} (h : s.Canonical) : OutcomeCanonical (execRepackReplace p s) :=
  h.command fun _ _ h' => h'.runRepack

theorem State.Canonical.execGraphLoad {p : Packet} (h : s.Canonical) : OutcomeCanonical (execGraphLoad p s) := by
  refine h.command ?_
  intro q s h'
  refine .withCtx ?_
  intro c
  dsimp only
  split
  · exact trivial
  · split
    · exact trivial
    · exact h'.frame rfl

theorem State.Canonical.execGraphFree {p : Packet} (h : s.Canonical) : OutcomeCanonical (execGraphFree p s) := by
  refine h.command ?_
  intro q s h'
  split
  · exact trivial
  · split
    · exact trivial
    · exact h'.frame rfl

theorem State.Canonical.execQueueBind {p : Packet} (h : s.Canonical) : OutcomeCanonical (execQueueBind p s) := by
  refine h.command ?_
  intro q s h'
  refine .withCtx ?_
  intro c
  split
  · exact trivial
  · split
    · exact trivial
    · split
      · exact trivial
      · exact h'.frame rfl

/-! ### Cross-lane instructions -/

theorem State.Canonical.readSource {r : Reg} {k : Sources} {u : Nat} (h : k.s.Canonical) : (readSource p r k u).s.Canonical := by
  unfold Machine.readSource
  split
  · exact h
  · split
    · exact h.freeVal
    · split
      · exact h
      · exact h.note
      · exact h
      · split
        · exact h.freeVal
        · exact h

theorem State.Canonical.sources {r : Reg} {us : List Nat} {k : Sources} (h : k.s.Canonical) :
    (us.foldl (Machine.readSource p r) k).s.Canonical := by
  induction us generalizing k with
  | nil => exact h
  | cons u us ih => exact ih h.readSource

theorem Prep.Canonical.crossTrap {i : Instr} {src : Prep → Nat → Option Nat} {c : Crossed} (h : p.Canonical) :
    OptionCanonical (Prep.crossTrap p i src c) := by
  unfold Prep.crossTrap
  dsimp only
  split
  · exact trivial
  · split <;> exact h.s0.trapQueue
  · exact h.s0.trapQueue

theorem State.Canonical.crossOwn {i : Instr} {a : Reg} {src : Prep → Nat → Option Nat} (h : s.Canonical) :
    OptionCanonical (crossOwn i a s src) := by
  unfold Machine.crossOwn
  split
  · exact trivial
  · dsimp only
    split
    · exact trivial
    · exact Prep.Canonical.crossTrap ⟨h, h⟩

theorem Prep.Canonical.cross {a : Reg} {src : Prep → Nat → Option Nat} {own : List Fail} {ownBad : List (Nat × Nat × Word)}
    (h : p.Canonical) : (p.cross a src own ownBad).r.s.Canonical :=
  State.Canonical.sources (h.s.frame rfl)

theorem State.Canonical.crossExec {i : Instr} {a : Reg} {src : Prep → Nat → Option Nat}
    {k : Prep → (Nat → Nat → Word) → Gang → Gang} (h : s.Canonical) : OutcomeCanonical (crossExec i a s src k) := by
  unfold Machine.crossExec
  dsimp only
  split
  · exact OptionCanonical.getD h.crossOwn (PrepCanonical.of_error ‹_› h.prepare)
  · rename_i p hp'
    have hp : p.Canonical := PrepCanonical.of_ok hp' h.prepare
    split
    · exact OptionCanonical.of_some ‹_› hp.crossTrap
    · split
      · exact hp.s0.stallAt
      · exact hp.cross.regens.modGang.complete

theorem State.Canonical.shflExec {i : Instr} {ty : Ty} {mode : ShflMode} {w : BitVec 3} {d a : Reg} {pc : Pred}
    {b : Prep → Nat → Nat} (h : s.Canonical) :
    OutcomeCanonical (shflExec i ty mode w d a pc b s) := by
  unfold Machine.shflExec
  exact h.crossExec

theorem State.Canonical.execShfl {ty : Ty} {mode : ShflMode} {w : BitVec 3} {d a b : Reg} {pc : Pred} (h : s.Canonical) :
    OutcomeCanonical (execShfl g ty mode w d a b pc s) :=
  h.shflExec

theorem State.Canonical.execShfli {ty : Ty} {mode : ShflMode} {w : BitVec 3} {d a : Reg} {imm : BitVec 5} {pc : Pred}
    (h : s.Canonical) : OutcomeCanonical (execShfli g ty mode w d a imm pc s) :=
  h.shflExec

theorem State.Canonical.execBcast {ty : Ty} {d a : Reg} {src : BcastSrc} (h : s.Canonical) :
    OutcomeCanonical (execBcast g ty d a src s) :=
  h.crossExec

theorem State.Canonical.execVote {mode : VoteMode} {inv : Bool} {d : Reg} {pa : Pred} (h : s.Canonical) :
    OutcomeCanonical (execVote g mode inv d pa s) :=
  h.withPrep fun _ hp => hp.s.modGang.complete

theorem State.Canonical.execRedux {op : RedOp} {ty : Ty} {rnd : Rnd} {d a : Reg} (h : s.Canonical) :
    OutcomeCanonical (execRedux g op ty rnd d a s) :=
  h.withPrep fun _ hp => hp.s.modGang.complete

theorem State.Canonical.execScanx {op : RedOp} {ty : Ty} {rnd : Rnd} {d a : Reg} (h : s.Canonical) :
    OutcomeCanonical (execScanx g op ty rnd d a s) :=
  h.withPrep fun _ hp => hp.s.modGang.complete

theorem State.Canonical.execMatchv {ty : Ty} {d a : Reg} {pc : Pred} (h : s.Canonical) :
    OutcomeCanonical (execMatchv g ty d a pc s) :=
  h.withPrep fun _ hp => hp.s.modGang.complete

/-! ### Removal, preemption and context switches -/

theorem State.Canonical.dropOps {ids : List Nat} (h : s.Canonical) : (s.dropOps ids).Canonical :=
  h.frame rfl

theorem State.Canonical.stateOf {o : Host.Outcome State Fault Refusal} (h : s.Canonical) (ho : OutcomeCanonical o) :
    (stateOf s o).Canonical := by
  cases o with
  | next t => exact ho
  | fault _ | refused _ => exact h

theorem State.Canonical.maybePerform {o : Op} (h : s.Canonical) : (s.maybePerform o).Canonical := by
  refine State.Canonical.dropOp ?_
  split
  · exact h.freeFlag
  · split
    · exact h.freeFlag.stateOf (OutcomeCanonical.ite h.freeFlag.execHome h.freeFlag.execPerformStore)
    · exact h.freeFlag.stateOf (OutcomeCanonical.ite h.freeFlag.execHome h.freeFlag.execAtomic)
    · exact h.freeFlag

theorem State.Canonical.faultWaiting {r : Removal} (h : s.Canonical) : (s.faultWaiting r).Canonical :=
  (h.foldl fun _ _ h' => h'.finish).foldl fun _ _ h' => h'.faultReplay

theorem State.Canonical.stopIssue {r : Removal} (h : s.Canonical) : (s.stopIssue r).Canonical :=
  (((h.foldl fun _ _ h' => h'.squash).frame (by rfl)).foldl fun _ _ h' => h'.maybePerform).faultWaiting

theorem State.Canonical.stopRow {e : Env} {o : Op} {row : Nat} {r : BankRow} (h : s.Canonical) :
    (s.stopRow e o row r).Canonical := by
  unfold State.stopRow
  split
  · exact h
  · exact (State.Canonical.foldl_snd (p := (_, s)) h fun p x h' => h'.frame (by rfl)).foldl fun s x h' => h'.bankPut

theorem State.Canonical.stopBank {o : Op} (h : s.Canonical) : (s.stopBank o).Canonical := by
  unfold State.stopBank
  split
  · exact h
  · split
    · exact h.foldl fun _ _ h' => h'.stopRow
    · exact h

theorem State.Canonical.releaseAnnex {ctx : Nat} (h : s.Canonical) : (s.releaseAnnex ctx).Canonical :=
  h.frame rfl

theorem State.Canonical.clearBlocks {r : Removal} (h : s.Canonical) : (s.clearBlocks r).Canonical := by
  unfold State.clearBlocks
  extract_lets bs s0 s1 s2
  have hs0 : s0.Canonical := by
    refine h.foldl ?_
    intro s x h'
    split
    · exact h'.traceBlock
    · exact h'
  have hs1 : s1.Canonical := hs0.foldl fun _ _ h' => h'.freeBlock
  have hs2 : s2.Canonical := hs1.frame rfl
  exact hs2.foldl fun _ _ h' => h'.finish

theorem State.Canonical.removeAt {r : Removal} (h : s.Canonical) : (s.removeAt r).Canonical := by
  unfold State.removeAt
  dsimp only
  split
  · exact h.stopIssue
  · exact h.dropOps.disarm
  · exact h.dropOps
  · exact (h.foldl fun s x h' => h'.stopBank).dropOps
  · exact h.dropOps
  · split
    · exact State.Canonical.releaseAnnex (h.frame rfl)
    · exact h.frame rfl
  · exact h.clearBlocks
  · exact h

theorem State.Canonical.execRemovalStep {id : Nat} (h : s.Canonical) : OutcomeCanonical (execRemovalStep id s) := by
  unfold Machine.execRemovalStep
  split
  · exact h
  · dsimp only
    split <;> exact h.removeAt.frame rfl

theorem State.Canonical.deleteCtx {n : Nat} (h : s.Canonical) : (s.deleteCtx n).Canonical := by
  unfold State.deleteCtx
  split
  · exact h
  · exact h.flatten.zeroMeta.frame rfl

theorem State.Canonical.restrict {ctx : Nat} (h : s.Canonical) : (s.restrict ctx).Canonical :=
  h.modCtx

theorem State.Canonical.execCtxDestroy {p : Packet} (h : s.Canonical) : OutcomeCanonical (execCtxDestroy p s) :=
  h.command fun _ _ h' => .withCtx fun _ => .ite .reject (.wait h'.restrict)

theorem State.Canonical.execCtxDestroyForce {p : Packet} (h : s.Canonical) : OutcomeCanonical (execCtxDestroyForce p s) :=
  h.command fun _ _ h' => .withCtx fun _ => .wait h'.restrict.beginRemoval

theorem State.Canonical.setPreempt {c : Context} {num : Nat} {v : Preempt} (h : s.Canonical) : (s.setPreempt c num v).Canonical :=
  h.modCtx

theorem State.Canonical.dueTraps {bs : List Nat} (h : s.Canonical) : (s.dueTraps bs).Canonical :=
  h.frame rfl

theorem CmdResult.Canonical.runPreempt {q : Parsed} {k : Context → Nat → CmdResult} (hk : ∀ c n, (k c n).Canonical) :
    (runPreempt q s k).Canonical := by
  refine .withCtx ?_
  intro c
  split
  · exact hk _ _
  · trivial

theorem State.Canonical.execPreemptDrain {p : Packet} (h : s.Canonical) : OutcomeCanonical (execPreemptDrain p s) :=
  h.command fun _ _ h' => .runPreempt fun _ _ => .wait h'.setPreempt

theorem State.Canonical.execPreemptUrgent {p : Packet} (h : s.Canonical) : OutcomeCanonical (execPreemptUrgent p s) :=
  h.command fun _ _ h' => .runPreempt fun _ _ => .wait h'.setPreempt.dueTraps

theorem State.Canonical.execPreemptSwitch {p : Packet} (h : s.Canonical) : OutcomeCanonical (execPreemptSwitch p s) :=
  h.command fun _ _ h' => .runPreempt fun _ _ => .ite .reject (.wait h'.setPreempt.modCtx)

theorem State.Canonical.execPreemptLift {p : Packet} (h : s.Canonical) : OutcomeCanonical (execPreemptLift p s) :=
  h.command fun _ _ h' => .runPreempt fun _ _ => .ite (.done h'.setPreempt) (.ite .reject (.wait h'.setPreempt))

theorem State.Canonical.execPdlExpiry {ctx region : Nat} (h : s.Canonical) : OutcomeCanonical (execPdlExpiry ctx region s) := by
  unfold Machine.execPdlExpiry
  split
  · exact h
  · split
    · exact h.faultRecord.restrict.beginRemoval
    · exact h

theorem State.Canonical.backHeld {ctx : Nat} (h : s.Canonical) : (s.backHeld ctx).Canonical := by
  refine h.foldl ?_
  intro s x h'
  split
  · exact h'.dropOp.modThreads
  · exact h'

theorem State.Canonical.execContextHalt {ctx : Nat} (h : s.Canonical) : OutcomeCanonical (execContextHalt ctx s) := by
  unfold Machine.execContextHalt
  split
  · exact h
  · split
    · exact h
    · extract_lets s0 s1 bs ids v0 v gids s1a s2
      have h1 : s1.Canonical := (h.foldl fun s x h' => h'.squash).backHeld
      have h1a : s1a.Canonical := h1.modCtx.ite h1
      have h2 : s2.Canonical := (h1a.frame (by rfl)).foldl fun _ _ h' => h'.freeBlock
      exact h2.frame rfl

theorem State.Canonical.placeAll {bs : List Block} (h : s.Canonical) : OptionCanonical (s.placeAll bs) := by
  induction bs generalizing s with
  | nil => exact h
  | cons b bs ih =>
    unfold State.placeAll
    split
    · exact ih h
    · split
      · trivial
      · exact ih (State.Canonical.serveCore (h.frame rfl))

theorem State.Canonical.resumeGang {c : Context} {gone : List (Nat × Nat)} {g : Gang} (h : s.Canonical) :
    (s.resumeGang c gone g).Canonical :=
  h.frame rfl

theorem State.Canonical.rearm {a : Arming} (h : s.Canonical) : (s.rearm a).Canonical :=
  h.setFlag.arrive.ite (h.frame (by rfl)).setFlag

theorem State.Canonical.rebuild {c : Context} {v : Saved} (h : s.Canonical) : OptionCanonical (s.rebuild c v) := by
  unfold State.rebuild
  split
  · exact trivial
  · have hp := OptionCanonical.of_some ‹_› h.placeAll
    exact (((hp.putScratch.foldl fun _ _ h' => h'.resumeGang).frame (by rfl)).foldl fun _ _ h' => h'.rearm).modCtx

theorem State.Canonical.execContextRestore {ctx : Nat} (h : s.Canonical) : OutcomeCanonical (execContextRestore ctx s) := by
  unfold Machine.execContextRestore
  split
  · split
    · exact h
    · split
      · exact OptionCanonical.of_some ‹_› h.rebuild
      · split
        · exact h.modCtx
        · exact h
  · exact h

/-! ### Context images -/

theorem State.Canonical.execMigrateOut {p : Packet} (h : s.Canonical) : OutcomeCanonical (execMigrateOut p s) :=
  h.command fun _ _ h' => .withCtx fun _ => .ite .reject (.wait (h'.ite h'.setPreempt).modCtx)

theorem State.Canonical.migrateEnd {w : Waiting} {ctx image room : Nat} {fresh : Bool} (h : s.Canonical) :
    (s.migrateEnd w ctx image room fresh).1.Canonical := by
  unfold State.migrateEnd
  split
  · extract_lets bs w1 s1
    have h1 : s1.Canonical := by
      unfold s1
      refine State.Canonical.foldl_fst (p := (s, image)) h ?_
      exact fun p x h' => h'.append
    clear_value s1
    split
    · split
      · exact h.setPreempt
      · exact h
    · exact h1.modCtx.ite h1
  · exact h

theorem State.Canonical.imageCells {c : Context} {rs : List CellRec} (h : s.Canonical) : OptionCanonical (s.imageCells c rs) := by
  induction rs generalizing s with
  | nil => exact h
  | cons r rs ih =>
    unfold State.imageCells
    split
    · exact ih h
    · dsimp only
      split
      · trivial
      · exact ih (h.frame rfl)

theorem State.Canonical.imageCodes {c : Context} {gs : List Graph} {cs : List (Nat × Nat × List Byte)} (h : s.Canonical) :
    (s.imageCodes c gs cs).Canonical := by
  unfold State.imageCodes
  extract_lets put
  have hp : (cs.foldl put s).Canonical := h.foldl fun s x h' => (h'.pokeVa (c := c) (va := x.2.1) (data := x.2.2)).frame rfl
  exact hp.frame rfl

theorem State.Canonical.imageGraphs {gs : List Graph} (h : s.Canonical) : (s.imageGraphs gs).Canonical :=
  h.foldl fun _ _ h' => h'.frame (by rfl)

theorem State.Canonical.migrateIn {img : List RByte × Option Nat} {pb : Nat} (h : s.Canonical) :
    (s.migrateIn img pb).Canonical := by
  unfold State.migrateIn
  dsimp only
  split
  · exact trivial
  · split
    · exact trivial
    · split
      · exact trivial
      · exact (OptionCanonical.of_some ‹_› (h.frame (by rfl)).flatten.imageCells).imageCodes.imageGraphs.frame rfl

theorem State.Canonical.execMigrateIn {p : Packet} (h : s.Canonical) : OutcomeCanonical (execMigrateIn p s) :=
  h.command fun _ _ h' => .ite .reject h'.migrateIn

theorem State.Canonical.commandEnd {w : Waiting} (h : s.Canonical) : (s.commandEnd w).1.Canonical := by
  unfold State.commandEnd
  split
  · exact h.flatten.zeroMeta
  · exact h.deleteCtx
  · exact h.migrateEnd
  · exact h

theorem State.Canonical.notify {x : Option (Nat × Nat × Option (Nat × Nat))} (h : s.Canonical) : (s.notify x).1.Canonical := by
  cases x with
  | none => exact h
  | some x =>
    refine State.Canonical.foldl_fst (p := (s, _)) h ?_
    intro p x h'
    exact (h'.arriveFree : State.Canonical (p.1.arriveFree x.1 x.2).1)

theorem State.Canonical.cqRecord {w : Waiting} {lost : Bool} (h : s.Canonical) : (s.cqRecord w lost).Canonical :=
  h.ite (h.pokeAt.frame rfl)

theorem State.Canonical.rewait {w : Waiting} (h : s.Canonical) : (s.rewait w).Canonical :=
  h.frame rfl

theorem State.Canonical.execCommandComplete {seq : Nat} (h : s.Canonical) : OutcomeCanonical (execCommandComplete seq s) := by
  unfold Machine.execCommandComplete
  split
  · exact h
  · split
    · exact h
    · dsimp only
      split
      · exact h.commandEnd.rewait
      · exact (h.commandEnd.notify.frame (by rfl)).cqRecord

/-! ### Observation and supervision -/

theorem State.Canonical.execTelemetryCfg {p : Packet} (h : s.Canonical) : OutcomeCanonical (execTelemetryCfg p s) :=
  h.command fun _ _ h' => .ite .reject (.ite .reject (.done (h'.frame rfl)))

theorem State.Canonical.servingNow (h : s.Canonical) : s.servingNow.Canonical := by
  refine h.foldl ?_
  intro s x h'
  split
  · exact h'.serveCore
  · exact h'

theorem State.Canonical.sealedCounters {c : Context} {die : Nat} (h : s.Canonical) : (s.sealedCounters c die).Canonical :=
  h.ite (h.frame rfl)

theorem State.Canonical.samplePcs (h : s.Canonical) : s.samplePcs.Canonical := by
  refine h.foldl ?_
  intro s x h'
  split
  · exact h'.trace
  · exact h'

theorem State.Canonical.execTelemetryTick (h : s.Canonical) : OutcomeCanonical (execTelemetryTick s) := by
  unfold Machine.execTelemetryTick
  split
  · exact h
  · extract_lets t s0 s1 write s2 shown s3
    have h1 : s1.Canonical := by
      refine State.Canonical.servingNow ?_
      unfold s0
      split
      · exact (h.frame (by rfl)).ite h
      · exact h
    have hw : ∀ s die, s.Canonical → (write s die).Canonical := fun s die h' =>
      h'.ite (h'.poke.foldl fun s c h'' => h''.sealedCounters.ite h'')
    have h3 : s3.Canonical := (h1.foldl hw).samplePcs
    clear_value shown s3
    exact h3.frame rfl

theorem State.Canonical.execTraceCfg {p : Packet} (h : s.Canonical) : OutcomeCanonical (execTraceCfg p s) := by
  refine h.command ?_
  intro q s h'
  refine .withCtx ?_
  intro c
  split
  · exact trivial
  · split
    · exact trivial
    · split
      · exact trivial
      · exact h'.frame rfl

theorem State.Canonical.runQueue {q : Parsed} {f : Queue → Queue} (h : s.Canonical) : (runQueue q s f).Canonical :=
  .withCtx fun _ => .ite (.done (h.frame rfl)) .reject

theorem State.Canonical.execTraceStop {p : Packet} (h : s.Canonical) : OutcomeCanonical (execTraceStop p s) :=
  h.command fun _ _ h' => h'.runQueue

theorem State.Canonical.execTraceRun {p : Packet} (h : s.Canonical) : OutcomeCanonical (execTraceRun p s) :=
  h.command fun _ _ h' => h'.runQueue

theorem State.Canonical.execQueueStopped {kick : Nat} (h : s.Canonical) : OutcomeCanonical (execQueueStopped kick s) := by
  unfold Machine.execQueueStopped
  split
  · exact h
  · split
    · exact (h.frame (by rfl)).report
    · exact h

theorem State.Canonical.execKeyInstall {p : Packet} (h : s.Canonical) : OutcomeCanonical (execKeyInstall p s) := by
  refine h.command ?_
  intro q s h'
  split
  · exact trivial
  · split
    · exact trivial
    · exact h'.frame rfl

theorem State.Canonical.updateHealth (h : s.Canonical) : s.updateHealth.Canonical :=
  h.ite (h.frame rfl)

theorem State.Canonical.writeReport {q : Parsed} {buf room : Nat} {bs : List Byte} {detail : Nat} (h : s.Canonical) :
    (s.writeReport q buf room bs detail).Canonical :=
  .ite .reject (.ite .reject (.done h.poke))

theorem State.Canonical.execHealthQuery {p : Packet} (h : s.Canonical) : OutcomeCanonical (execHealthQuery p s) :=
  h.command fun _ _ h' => h'.writeReport

theorem State.Canonical.makeDue {u : UnitId} (h : s.Canonical) : (s.makeDue u).Canonical :=
  h.ite (h.frame rfl)

theorem State.Canonical.correctError {u : UnitId} (h : s.Canonical) : (s.correctError u).Canonical :=
  (h.frame (by rfl)).makeDue.ite (h.frame rfl)

theorem State.Canonical.execUnitRetire {u : UnitId} (h : s.Canonical) : OutcomeCanonical (execUnitRetire u s) := by
  unfold Machine.execUnitRetire
  split
  · exact h
  · extract_lets wait spare
    clear_value wait
    split
    · exact h.frame rfl
    · exact State.Canonical.updateHealth (h.frame rfl)

theorem State.Canonical.execSpareApplied {die vault : Nat} (h : s.Canonical) : OutcomeCanonical (execSpareApplied die vault s) :=
  (h.frame (by rfl)).updateHealth.ite h

theorem State.Canonical.execDieNoLongerAnswers {die : Nat} (h : s.Canonical) : OutcomeCanonical (execDieNoLongerAnswers die s) :=
  h.ite ((h.frame (by rfl)).updateHealth.foldl fun _ _ h' => h'.restrict.beginRemoval)

theorem State.Canonical.execCoolantOrRailFault (h : s.Canonical) : OutcomeCanonical (execCoolantOrRailFault s) :=
  (h.frame (by rfl)).updateHealth

theorem State.Canonical.execAttest {p : Packet} (h : s.Canonical) : OutcomeCanonical (execAttest p s) :=
  h.command fun _ _ h' => .ite .reject h'.writeReport

theorem State.Canonical.execPackageWrite {revision : Nat} {image : List Byte} (h : s.Canonical) :
    OutcomeCanonical (execPackageWrite revision image s) :=
  h.frame rfl

/-- BOOT starts from the reset state, whatever was before. -/
theorem execBoot_canonical : OutcomeCanonical (execBoot s) := State.reset_wf

theorem State.Canonical.execPowerLimitSet {watts : Nat} (h : s.Canonical) : OutcomeCanonical (execPowerLimitSet watts s) :=
  (h.frame (by rfl)).ite h

theorem State.Canonical.execPowerCapMeasure {watts : Nat} (h : s.Canonical) : OutcomeCanonical (execPowerCapMeasure watts s) :=
  h.frame rfl

theorem State.Canonical.execScrub {addr : Nat} (h : s.Canonical) : OutcomeCanonical (execScrub addr s) :=
  h.markAs.markAs.ite (h.faultRecord.ite h)

theorem State.Canonical.spoilBytes {loc n : Nat} (h : s.Canonical) : (s.spoilBytes loc n).Canonical :=
  h.append

theorem State.Canonical.spoilCell {slot idx : Nat} (h : s.Canonical) : (s.spoilCell slot idx).Canonical :=
  h.ite (h.frame (by rfl)).markAs

theorem State.Canonical.strike {u : Upset} (h : s.Canonical) : (s.strike u).Canonical := by
  unfold State.strike
  split
  · split
    · exact h.makeDue
    · exact h
  · exact h.frame rfl

theorem State.Canonical.spoilAt {a : Upset} (h : s.Canonical) : (s.spoilAt a).Canonical := by
  unfold State.spoilAt
  split
  · exact h.modGang
  · split
    · split
      · exact h.spoilBytes
      · exact h
    · exact h
  · split
    · split
      · exact h.modBlock.faultRecord
      · exact h
    · exact h
  · exact h.modBlock
  · exact h.modBlock
  · dsimp only
    split
    · exact h
    · split
      · exact h.spoilCell.spoilCell
      · exact h.spoilBytes
  · exact h.spoilCell
  · dsimp only
    split
    · exact h
    · exact (h.frame (by rfl)).faultRecord
  · exact h.modBlock
  · split
    · exact (h.frame (by rfl)).updateHealth
    · exact h

theorem State.Canonical.upset {u : Upset} (h : s.Canonical) : (s.upset u).Canonical :=
  h.strike.spoilAt

/-! ### Errors, the host, peers and time -/

theorem State.Canonical.execRegisterWrite {off size : Nat} {val : Word} (h : s.Canonical) :
    OutcomeCanonical (execRegisterWrite off size val s) :=
  h.ite ((h.frame (by rfl)).ite ((h.frame (by rfl)).ite h))

theorem State.Canonical.barRead {off size : Nat} (h : s.Canonical) : (s.barRead off size).Canonical :=
  h.frame rfl

theorem State.Canonical.execHostRead {addr n : Nat} (h : s.Canonical) : OutcomeCanonical (execHostRead addr n s) :=
  h.frame rfl

theorem State.Canonical.hostRecord {c : Context} {slot : Nat} (h : s.Canonical) : (s.hostRecord c slot).Canonical :=
  h.faultRecord

theorem State.Canonical.hostStore {c : Context} {slot : Nat} {val : Word} (h : s.Canonical) :
    (s.hostStore c slot val).Canonical := by
  unfold State.hostStore
  dsimp only
  split
  · exact h.changeCell
  · split
    · exact h.hostRecord
    · exact h.changeCell

theorem State.Canonical.slotWrite {c : Context} {slot : Nat} {bytes : List (Nat × Byte)} (h : s.Canonical) :
    (s.slotWrite c slot bytes).Canonical :=
  (h.ite h.hostStore).hostRecord.ite (h.ite h.hostStore)

theorem State.Canonical.outsideWrite {pa : Nat} {data : List Byte} (h : s.Canonical) : (s.outsideWrite pa data).Canonical := by
  unfold State.outsideWrite
  extract_lets bs slots s1 plain
  have hs1 : s1.Canonical := by
    refine h.foldl ?_
    intro s x h'
    split
    · exact h'.slotWrite
    · exact h'
  split
  · exact hs1.ite hs1.poke.soil
  · exact hs1.foldl fun _ _ h' => h'.poke.soil

theorem State.Canonical.execHostWrite {addr : Nat} {data : List Byte} (h : s.Canonical) :
    OutcomeCanonical (execHostWrite addr data s) :=
  h.outsideWrite

theorem State.Canonical.modLink {i : Nat} {f : Link → Link} (h : s.Canonical) : (s.modLink i f).Canonical :=
  h.frame rfl

theorem State.Canonical.loseStaged {link : Nat} (h : s.Canonical) : (s.loseStaged link).Canonical := by
  refine h.foldl ?_
  intro s x h'
  split
  · exact (h'.foldl fun _ _ h'' => h''.lostLines).modBlock
  · exact h'

theorem State.Canonical.execFlitReceive {link : Nat} {crcOk : Bool} (h : s.Canonical) :
    OutcomeCanonical (execFlitReceive link crcOk s) := by
  unfold Machine.execFlitReceive
  split
  · exact h
  · split
    · exact h
    · split
      · exact h.modLink
      · split
        · exact h.modLink
        · exact State.Canonical.loseStaged (h.frame rfl)

theorem State.Canonical.execLinkRetrain {link : Nat} (h : s.Canonical) : OutcomeCanonical (execLinkRetrain link s) :=
  h.ite h.modLink

theorem State.Canonical.peerAtomic {addr : Nat} {ty : Ty} {ret : Bool} {f : Nat → Nat × List (Nat × Nat)} {keeps : Bool}
    (h : s.Canonical) : (s.peerAtomic addr ty ret f keeps).Canonical :=
  (h.frame (by rfl)).ite (h.append.spoil.soil.frame rfl)

theorem State.Canonical.execPeerAccess {link addr : Nat} {op : PeerOp} (h : s.Canonical) :
    OutcomeCanonical (execPeerAccess link addr op s) := by
  unfold Machine.execPeerAccess
  split
  · exact h.frame rfl
  · split
    · exact h.frame rfl
    · exact h.outsideWrite
    · exact h.peerAtomic
    · exact h.peerAtomic

theorem State.Canonical.slewTo {offset : ℤ} (h : s.Canonical) : (s.slewTo offset).Canonical :=
  h.frame rfl

theorem State.Canonical.execPtpMessage {offset : ℤ} (h : s.Canonical) : OutcomeCanonical (execPtpMessage offset s) :=
  (h.frame (by rfl)).slewTo.ite (h.frame (by rfl)).slewTo

theorem State.Canonical.execTimeBeacon {link wall : Nat} (h : s.Canonical) : OutcomeCanonical (execTimeBeacon link wall s) :=
  h.ite ((h.frame (by rfl)).slewTo.ite (h.frame rfl))

theorem State.Canonical.loseBeacon {link : Nat} (h : s.Canonical) : (s.loseBeacon link).Canonical :=
  h.frame rfl

theorem State.Canonical.sendBeacons (h : s.Canonical) : s.sendBeacons.Canonical :=
  h.frame rfl

theorem State.Canonical.execLossOfLock (h : s.Canonical) : OutcomeCanonical (execLossOfLock s) :=
  h.frame rfl

/-! ### Recipes -/

theorem Prep.Canonical.materialised {i : Instr} {rods : List Nat} {k : State → State} (h : p.Canonical)
    (h1 : ∀ s, s.Canonical → (k s).Canonical) : (Prep.materialised p i rods k).Canonical := by
  unfold Prep.materialised
  split
  · exact h1 _ (Mat.Canonical.of_ok ‹_› h.s.materialiseWhen).regens
  · exact h.s0.trapQueue
  · exact h.s0.awaitMat

theorem State.Canonical.execRcp {n : BitVec 3} {i1 i2 i3 i4 : Reg} {slice : W32} (h : s.Canonical) :
    OutcomeCanonical (execRcp g n i1 i2 i3 i4 slice s) := by
  refine h.withPrep ?_
  intro p hp
  split
  · exact hp.s.complete
  · dsimp only
    split
    · exact hp.s0.trapAll
    · split
      · exact hp.s0.trapAll
      · split
        · exact hp.s.complete
        · exact hp.materialised fun _ h' => h'.complete.modGang

theorem State.Canonical.execRend (h : s.Canonical) : OutcomeCanonical (execRend g s) :=
  h.withPrep fun _ hp => hp.failAll.getD hp.s.complete

theorem State.Canonical.rodOp {i : Instr} {rod : Reg} {rods : Gang → List Nat} {k : Gang → Gang} (h : s.Canonical) :
    OutcomeCanonical (rodOp i s rod rods k) :=
  h.withPrep fun _ hp => hp.s.complete.ite (hp.materialised fun _ h' => h'.modGang.complete)

theorem State.Canonical.execRmat {rod : Reg} (h : s.Canonical) : OutcomeCanonical (execRmat g rod s) :=
  h.rodOp

theorem State.Canonical.execRdrop {rod : Reg} (h : s.Canonical) : OutcomeCanonical (execRdrop g rod s) :=
  h.rodOp

theorem State.Canonical.execRdropKill {rod : Reg} (h : s.Canonical) : OutcomeCanonical (execRdropKill g rod s) :=
  h.rodOp

theorem State.Canonical.execRstat {d rod : Reg} (h : s.Canonical) : OutcomeCanonical (execRstat g d rod s) :=
  h.withPrep fun _ hp => hp.s.modGang.complete

theorem State.Canonical.execRegeneration {gid : Nat} {rod : Reg} {thr : Nat} (h : s.Canonical) :
    OutcomeCanonical (execRegeneration gid rod thr s) := by
  unfold Machine.execRegeneration
  split
  · exact h
  · split
    · exact h
    · split
      · exact (h.frame (by rfl)).note.modGang
      · exact h

theorem State.Canonical.watermarks (h : s.Canonical) : s.watermarks.Canonical :=
  h.frame rfl

theorem State.Canonical.execRodDrop {gid : Nat} {rod : Reg} (h : s.Canonical) : OutcomeCanonical (execRodDrop gid rod s) := by
  unfold Machine.execRodDrop
  split
  · exact h
  · split
    · exact h.watermarks.modGang.watermarks
    · exact h

/-! ### The dispatch -/

/-- Every arm of the dispatch keeps memory canonical; the lane instructions share one. -/
theorem State.Canonical.exec {i : Instr} (h : s.Canonical) : OutcomeCanonical (exec i s) := by
  cases i with
  | movS | iaddS | isubS | andS | orS | xorS | shlS | shrS | imulS | faddF32S | fmulF32S | faddF32x2S | fmulF32x2S | faddBf16x4S
  | fmulBf16x4S | iaddImmS | shlImmS | shrImmS | mov | movi | sel | iadd | isub | iaddc | isubb | imul | imulh | imad | idiv
  | irem | ineg | iabs | imin | imax | iadds | isubs | lea | and | or | xor | andn | not | shl | shr | sar | rot | bfe | bfi
  | popc | clz | ctz | brev | bperm | setp | plop | pmov | fadd | fsub | fmul | ffma | fmin | fmax | fsetp | frnd | fscale
  | fclass | fdot | fdiv | fsqrt | frcp | frsq | fexp2 | flog2 | fsin | fcos | ftanh | fsigm | cvt | cvtq | olpack | olunpk
  | blkhdr | dq | pack | unpack => exact h.laneExec
  | ldB64S => exact h.execLdB64S
  | stB64S => exact h.execStB64S
  | retS => exact h.execRetS
  | exitS => exact h.execExitS
  | waitS => exact h.execWaitS
  | yieldS => exact h.execYieldS
  | movs => exact h.execMovs
  | movsw => exact h.execMovsw
  | bra => exact h.execBra
  | brx => exact h.execBrx
  | call => exact h.execCall
  | callx => exact h.execCallx
  | ret => exact h.execRet
  | exit => exact h.execExit
  | exitSaved => exact h.execExitSaved
  | yield => exact h.execYield
  | wait => exact h.execWait
  | wtime => exact h.execWtime
  | trap => exact h.execTrap
  | brk => exact h.execBrk
  | rtt => exact h.execRtt
  | rqrd => exact h.execRqrd
  | rqwr => exact h.execRqwr
  | cbsync => exact h.execCbsync
  | tlbinv => exact h.execTlbinv
  | nop => exact h.execNop
  | shfl => exact h.execShfl
  | shfli => exact h.execShfli
  | bcast => exact h.execBcast
  | vote => exact h.execVote
  | redux => exact h.execRedux
  | scanx => exact h.execScanx
  | matchv => exact h.execMatchv
  | lser => exact h.execLser
  | lsend => exact h.execLsend
  | ld => exact h.execLd
  | st => exact h.execSt
  | ldk => exact h.execLdk
  | stk => exact h.execStk
  | ldsib => exact h.execLdsib
  | rcn => exact h.execRcn
  | pref => exact h.execPref
  | atom => exact h.execAtom
  | red => exact h.execRed
  | acas => exact h.execAcas
  | slook => exact h.execSlook
  | stag => exact h.execStag
  | cpy => exact h.execCpy
  | cpyg => exact h.execCpyg
  | fence => exact h.execFence
  | ofence => exact h.execOfence
  | barinit => exact h.execBarinit
  | arrive => exact h.execArrive
  | expect => exact h.execExpect
  | bwait => exact h.execBwait
  | bwaitTo => exact h.execBwaitTo
  | btest => exact h.execBtest
  | bdrop => exact h.execBdrop
  | hpush => exact h.execHpush
  | hpop => exact h.execHpop
  | perform => exact h.execPerform
  | resume => exact h.execResume
  | resumem => exact h.execResumem
  | drop => exact h.execDrop
  | tokst => exact h.execTokst
  | rcp => exact h.execRcp
  | rend => exact h.execRend
  | rmat => exact h.execRmat
  | rdrop => exact h.execRdrop
  | rdropKill => exact h.execRdropKill
  | rstat => exact h.execRstat
  | cclose => exact h.execCclose
  | cappend => exact h.execCappend
  | ctake => exact h.execCtake
  | cdone => exact h.execCdone
  | cquiet => exact h.execCquiet
  | mldw => exact h.execMldw
  | mswap => exact h.execMswap
  | mpass => exact h.execMpass
  | mzero => exact h.execMzero
  | mmov => exact h.execMmov
  | msta => exact h.execMsta
  | bkmv => exact h.execBkmv
  | bkgth => exact h.execBkgth
  | bkst => exact h.execBkst
  | fetch => exact h.execFetch
  | bind => exact h.execBind
  | performStore => exact h.execPerformStore
  | atomic => exact h.execAtomic
  | propagate => exact h.execPropagate
  | enqueue => exact h.execEnqueue
  | read => exact h.execRead
  | write => exact h.execWrite
  | done => exact h.execDone
  | home => exact h.execHome
  | count => exact h.execCount
  | land => exact h.execLand
  | flag => exact h.execFlag
  | quiescenceArrival => exact h.execQuiescenceArrival
  | matrixGrant => exact h.execMatrixGrant
  | rowTask => exact h.execRowTask
  | gangTimerFire => exact h.execGangTimerFire
  | timer => exact h.execTimer
  | bwaitTimeout => exact h.execBwaitTimeout
  | wtimeDeadline => exact h.execWtimeDeadline
  | trapDelivery => exact h.execTrapDelivery
  | regeneration => exact h.execRegeneration
  | squash => exact h.execSquash
  | gangSwap => exact h.execGangSwap
  | rodDrop => exact h.execRodDrop
  | blockStart => exact h.execBlockStart
  | gangEnd => exact h.execGangEnd
  | blockEnd => exact h.execBlockEnd
  | launchReady => exact h.execLaunchReady
  | lateAbandoned => exact h.execLateAbandoned
  | launchComplete => exact h.execLaunchComplete
  | release => exact h.execRelease
  | commandComplete => exact h.execCommandComplete
  | kick => exact h.execKick
  | parameterPlace => exact h.execParameterPlace
  | registerWrite => exact h.execRegisterWrite
  | ctxCreate => exact h.execCtxCreate
  | ctxDestroy => exact h.execCtxDestroy
  | ctxDestroyForce => exact h.execCtxDestroyForce
  | removalStep => exact h.execRemovalStep
  | regionDefine => exact h.execRegionDefine
  | regionRefresh => exact h.execRegionRefresh
  | map => exact h.execMap
  | mapPeer => exact h.execMapPeer
  | unmap => exact h.execUnmap
  | protect => exact h.execProtect
  | codeLoad => exact h.execCodeLoad
  | codeUnload => exact h.execCodeUnload
  | codeUnloadForce => exact h.execCodeUnloadForce
  | repack => exact h.execRepack
  | repackReplace => exact h.execRepackReplace
  | graphLoad => exact h.execGraphLoad
  | graphFree => exact h.execGraphFree
  | queueBind => exact h.execQueueBind
  | preemptDrain => exact h.execPreemptDrain
  | preemptUrgent => exact h.execPreemptUrgent
  | preemptSwitch => exact h.execPreemptSwitch
  | preemptLift => exact h.execPreemptLift
  | pdlExpiry => exact h.execPdlExpiry
  | contextHalt => exact h.execContextHalt
  | contextRestore => exact h.execContextRestore
  | migrateOut => exact h.execMigrateOut
  | migrateIn => exact h.execMigrateIn
  | telemetryCfg => exact h.execTelemetryCfg
  | telemetryTick => exact h.execTelemetryTick
  | traceCfg => exact h.execTraceCfg
  | traceStop => exact h.execTraceStop
  | traceRun => exact h.execTraceRun
  | queueStopped => exact h.execQueueStopped
  | keyInstall => exact h.execKeyInstall
  | attest => exact h.execAttest
  | healthQuery => exact h.execHealthQuery
  | unitRetire => exact h.execUnitRetire
  | boot => exact execBoot_canonical
  | packageWrite => exact h.execPackageWrite
  | powerLimitSet => exact h.execPowerLimitSet
  | powerCapMeasure => exact h.execPowerCapMeasure
  | ptpMessage => exact h.execPtpMessage
  | timeBeacon => exact h.execTimeBeacon
  | flitReceive => exact h.execFlitReceive
  | linkRetrain => exact h.execLinkRetrain
  | peerAccess => exact h.execPeerAccess
  | hostRead => exact h.execHostRead
  | hostWrite => exact h.execHostWrite
  | dieNoLongerAnswers => exact h.execDieNoLongerAnswers
  | coolantOrRailFault => exact h.execCoolantOrRailFault
  | spareApplied => exact h.execSpareApplied
  | lossOfLock => exact h.execLossOfLock
  | scrub => exact h.execScrub

/-! ### Issue -/

theorem State.Canonical.slot {gid : Nat} {mask : List Nat} {f : Fetched} (h : s.Canonical) : (s.slot gid mask f).Canonical :=
  h.frame rfl

theorem State.Canonical.issueGroup {gid pc : Nat} {mask : List Nat} (h : s.Canonical) :
    IssueCanonical (s.issueGroup gid pc mask) := by
  unfold State.issueGroup
  split
  · exact h
  · dsimp only
    split
    · exact h.slot.trapAt
    · split
      · exact (h.ite h.modThreads).slot.trapAll
      · exact (h.ite h.modThreads).slot

theorem State.Canonical.issueEntry {gid : Nat} {e : RqEntry} {mask : List Nat} (h : s.Canonical) :
    IssueCanonical (s.issueEntry gid e mask) := by
  unfold State.issueEntry
  split
  · exact h.modGang
  · dsimp only
    split
    · exact h.frame rfl
    · exact h.modGang

theorem State.Canonical.issueSecond {c : IssueSlot} {p : PairInfo} (h : s.Canonical) : IssueCanonical (s.issueSecond c p) := by
  unfold State.issueSecond
  dsimp only
  split
  · exact h.frame rfl
  · exact (h.frame (by rfl)).trapAll

theorem State.Canonical.issue {a : Choice} (h : s.Canonical) : IssueCanonical (s.issue a) := by
  unfold State.issue
  split
  · exact h.issueGroup
  · exact h.issueEntry

theorem State.Canonical.ready {g : Gang} {ts : List Nat} (h : s.Canonical) : (s.ready g ts).Canonical :=
  h.ite (h.modThreads.modGang.ite h.modThreads)

theorem State.Canonical.waitingSince (h : s.Canonical) : s.waitingSince.Canonical :=
  h.ite (h.frame rfl)

theorem State.Canonical.slewStep (h : s.Canonical) : s.slewStep.Canonical :=
  h.ite (h.frame rfl)

theorem State.Canonical.tick (h : s.Canonical) : s.tick.Canonical := by
  unfold State.tick
  extract_lets s0 s run s1
  have hs : s.Canonical := (h.frame (by rfl)).slewStep.flushFaults.decideWaits
  exact (State.Canonical.confirm (hs.frame (by rfl))).waitingSince.watermarks

theorem State.Canonical.refusePacket {p : Packet} {status : Nat} (h : s.Canonical) : (s.refusePacket p status).Canonical :=
  h.begun

/-! ### The step -/

theorem State.Canonical.thenSecond {t : State} {o : Host.Outcome State Fault Refusal} (h : OutcomeCanonical o) :
    OutcomeCanonical (thenSecond t o) := by
  unfold Machine.thenSecond
  split
  · rename_i u p _
    have hu : u.Canonical := h
    split
    · split
      · exact IssueCanonical.of_error ‹_› hu.issueSecond
      · exact (IssueCanonical.of_ok ‹_› hu.issueSecond).exec
    · exact hu
  · exact h

theorem State.Canonical.run {c : Choice} {late : Nat} (h : s.Canonical) : OutcomeCanonical (run s c late) := by
  unfold Machine.run
  split
  · exact IssueCanonical.of_error ‹_› h.issue
  · exact State.Canonical.thenSecond ((IssueCanonical.of_ok ‹_› h.issue).frame (by rfl)).exec

theorem State.Canonical.take {e : Event} (h : s.Canonical) : OutcomeCanonical (take s e) := by
  unfold Machine.take
  split
  · exact h.exec
  · split
    · exact h.tick.run
    · exact h
  · split
    · exact h.tick.run
    · exact h
  · exact h.upset
  · exact h.correctError
  · exact h.barRead
  · exact h.sendBeacons
  · exact h.loseBeacon

theorem State.Canonical.wakeGang {g : Gang} (h : s.Canonical) : (s.wakeGang g).Canonical :=
  h.foldl fun _ _ h' => h'.ready

theorem State.Canonical.wake (h : s.Canonical) : s.wake.Canonical :=
  h.foldl fun _ _ h' => h'.wakeGang

theorem State.Canonical.go (h : s.Canonical) : OutcomeCanonical s.go := by
  unfold State.go
  split
  · exact (h.frame (by rfl)).take
  · split
    · exact h.tick.exec
    · exact h.tick.refusePacket
    · exact h.tick
    · exact h.tick.run

theorem State.Canonical.step (h : s.Canonical) : OutcomeCanonical (step s) :=
  h.wake.go

end

/-- Settles O59: `step` keeps memory canonical, one lemma per function of the model that it calls. -/
theorem memoryStaysCanonical : Obligations.MemoryStaysCanonical :=
  fun _ _ h e => OutcomeCanonical.of_next e (State.Canonical.step h)

end Sys2Proof.Machine

/-! ## Numbers: refuted statements (O53, O54) -/

namespace Sys2Proof.Machine
open Host

section

/-! ### The words of a tile (O54) -/

/-- Words of a tile are listed row by row, so a column number past the row's 128 names a word of the next row. -/
theorem Tile.word_past_row (t : Tile) (row c : Nat) : t.word row (128 + c) = t.word (row + 1) c := by
  unfold Tile.word
  rw [show 128 * row + (128 + c) = 128 * (row + 1) + c by omega]

/-- Planes of INT8 weights whose columns are not loaded. -/
def int8Plane : Plane := ⟨5, [], []⟩

/-- A pass of BF16 activations over INT8 weights, which form no class, gives the canonical NaN (R199). -/
theorem passRow_mixed_word : (passRow int8Plane Tile.zero 1 1 false false []).word 1 0 = BitVec.ofNat 32 fmt32.nan := by
  decide +kernel

/-- Refutes O54: its clause about passes lets the other rows' column c be any number, and "column 128" of row 0 is the first word of row 1. A pass
of BF16 activations over INT8 weights into row 1 of a zero tile makes that word a NaN; the clause says that it stays 0. -/
theorem not_runsAccumulate : ¬ Obligations.RunsAccumulate := by
  rintro ⟨-, -, -, hpass, -⟩
  obtain ⟨hother, -⟩ := hpass int8Plane Tile.zero 1 1 false false [] (by decide) (by decide) (by decide)
  have hkept : (passRow int8Plane Tile.zero 1 1 false false []).word 0 (128 + 0) = 0 := (hother 0 (128 + 0) (by decide)).1
  rw [Tile.word_past_row, passRow_mixed_word] at hkept
  exact absurd hkept (by decide)

/-! ### A marker of a type without one (O53) -/

/-- After reset, a gang of one thread about to execute, whose g2 holds `v`. -/
def stateWithG2 (v : Nat) : State :=
  let s := State.reset.withFetchWord 32 0x60
  { s with
    gangs := s.gangs.map fun g => { g with rods := [(2, .value (BitVec.ofNat 64 v :: List.replicate 31 0))] },
    cur := { IssueSlot.idle with gid := 2, mask := [0] } }

/-- Its gang with its block, launch and context. -/
def envWithG2 (v : Nat) : Env :=
  ⟨{ Gang.fresh 2 1 0 1 (firstLine + 4) true 0 with rods := [(2, .value (BitVec.ofNat 64 v :: List.replicate 31 0))] },
    firstBlock 1 1, firstLaunchOf 1 1, firstCtx 1⟩

/-- OLUNPK g1, g2 in type .b32, which has no marker (R136 knows .s8x8 and .n4x16 alone). -/
def olunpkB32 : Instr := .olunpk ⟨7, false⟩ .b32 1 2

theorem olunpkB32_atHand : AtHand olunpkB32 (stateWithG2 8) (envWithG2 8) :=
  ⟨by decide +kernel, by decide +kernel, by decide +kernel, by decide +kernel, by decide +kernel, by decide +kernel, by decide +kernel⟩

/-- The model compares every type but .s8x8 with .n4x16's marker 8, so g1 receives 1. -/
theorem olunpkB32_result : ∀ t, exec olunpkB32 (stateWithG2 8) = .next t → t.reg 2 0 1 = 1 := by
  have h : (match exec olunpkB32 (stateWithG2 8) with | .next t => t.reg 2 0 1 == 1 | _ => true) = true := by decide +kernel
  intro t ht
  rw [ht] at h
  exact eq_of_beq h

/-- Refutes O53: its clause about OLUNPK ranges over all types. In .b32, which has no marker, it gives no bit; the model marks an element 8. -/
theorem not_formatsConvert : ¬ Obligations.FormatsConvert := by
  rintro ⟨-, -, -, hunpk, -⟩
  obtain ⟨v, hgives, hbits⟩ := hunpk ⟨7, false⟩ .b32 1 2
  obtain ⟨t, ht, -, hans⟩ := hgives (stateWithG2 8) (envWithG2 8) olunpkB32_atHand (by decide +kernel)
  have hpart : 0 ∈ participants (stateWithG2 8) (envWithG2 8).g olunpkB32 := by decide +kernel
  have hreg : t.reg 2 0 1 = v ((envWithG2 8).laneIn olunpkB32 0) := by
    have h := hans.regs.shown 0 1
    rwa [if_pos ⟨hpart, by decide⟩] at h
  have hbit : (v ((envWithG2 8).laneIn olunpkB32 0)).getLsbD 0 = false := by
    rw [hbits]
    simp [markerOf]
  rw [← hreg, olunpkB32_result t ht] at hbit
  exact absurd hbit (by decide)

end

end Sys2Proof.Machine

/-! ## Votes, reductions and matches (O5)

The instruction is at hand, so it takes the effect that it prepares for (`withPrep_atHand`), each participating thread reads its own register
(`plainPrep_a`), and what the effect leaves is said by `steps_complete` and `answers_prep`. -/

namespace Sys2Proof.Machine
open Host

section

variable {i : Instr} {s : State} {e : Env}

theorem Gang.modThread_id (g : Gang) (t : Nat) : (g.modThread t fun x => x) = g := by
  unfold Gang.modThread
  simp

/-- Operand A of a thread that takes part in a cross-lane instruction is its register's value. -/
theorem plainPrep_a {t : Nat} {a : Reg} (hu : uniformOperands i = false) (ha : (srcsOf i).a = .reg a) (ht : t ∈ participants s e.g i) :
    (plainPrep i s e).a t = e.g.readReg a t := by
  have h := plainPrep_val (i := i) (s := s) (e := e) (by rw [readers_all hu]; exact ht) .a
  rw [show (srcsOf i).get .a = (srcsOf i).a from rfl, ha] at h
  exact h

theorem filter_isEmpty (l : List Nat) (q : Nat → Bool) : (l.filter q).isEmpty = decide (∀ n ∈ l, n ∉ l.filter q) := by
  rw [Bool.eq_iff_iff, decide_eq_true_iff, List.isEmpty_iff, List.filter_eq_nil_iff]
  simp +contextual [List.mem_filter]

theorem filter_nonempty (l : List Nat) (q : Nat → Bool) : (!(l.filter q).isEmpty) = decide (∃ n ∈ l, n ∈ l.filter q) := by
  rw [filter_isEmpty, ← decide_not]
  congr 1
  simp

theorem filter_uniform (l : List Nat) (q : Nat → Bool) :
    ((l.filter q).isEmpty || (l.filter q).length == l.length) = decide ((∀ n ∈ l, n ∈ l.filter q) ∨ ∀ n ∈ l, n ∉ l.filter q) := by
  rw [filter_isEmpty, filter_length, Bool.or_comm, Bool.decide_or]

/-- An instruction whose participating threads each write one register and one predicate. -/
theorem regPred_complete (h : AtHand i s e) (hs : e.g.sound = true) (d : Reg) (p : Pred) (w : Nat → Word) (b : Nat → Bool) {F : Gang → Gang}
    (hF : ∀ g, F g = (participants s e.g i).foldl (fun g t => (g.writeReg d t (w t)).modThread t fun x => x.setPred p (b t)) g) :
    Went s (((plainPrep i s e).s.modGang (plainPrep i s e).e.g.gid F).complete i (plainPrep i s e).parts)
      (fun n r => if n ∈ participants s e.g i ∧ r = d then some (w n) else none)
      fun x => if x.thr ∈ participants s e.g i then (x.setPred p (b x.thr)).view else x.view := by
  refine (steps_complete h hs (fun t => [(d, w t)]) (fun _ => by simp) (fun t x => x.setPred p (b t))
    (fun t x => ⟨(Thread.setPred_view x p (b t)).1, (Thread.setPred_view x p (b t)).2.1⟩)
    (fun t => View.setPred p (b t)) (fun t x => View.setPred_view p (b t) x) (fun t x => View.setPred_twice p (b t) x) hF).congr ?_ ?_
  · intro n r
    rw [find_reg]
    by_cases hn : n ∈ participants s e.g i <;> simp [hn]
  · intro x
    simp only [View.setPred_view]

/-- An instruction whose participating threads each write one register. -/
theorem reg_complete (h : AtHand i s e) (hs : e.g.sound = true) (d : Reg) (w : Nat → Word) {F : Gang → Gang}
    (hF : ∀ g, F g = (participants s e.g i).foldl (fun g t => g.writeReg d t (w t)) g) :
    Went s (((plainPrep i s e).s.modGang (plainPrep i s e).e.g.gid F).complete i (plainPrep i s e).parts)
      (fun n r => if n ∈ participants s e.g i ∧ r = d then some (w n) else none) Thread.view := by
  refine (steps_complete h hs (fun t => [(d, w t)]) (fun _ => by simp) (fun _ x => x) (fun _ _ => ⟨rfl, rfl⟩)
    (fun _ v => v) (fun _ _ => rfl) (fun _ _ => rfl) (F := F) fun g => ?_).congr ?_ ?_
  · simp only [hF, List.foldl_cons, List.foldl_nil, Gang.modThread_id]
  · intro n r
    rw [find_reg]
    by_cases hn : n ∈ participants s e.g i <;> simp [hn]
  · intro x
    simp

/-- An instruction whose participating threads each write one predicate. -/
theorem pred_complete (h : AtHand i s e) (hs : e.g.sound = true) (p : Pred) (b : Bool) {F : Gang → Gang}
    (hF : ∀ g, F g = (participants s e.g i).foldl (fun g t => g.modThread t fun x => x.setPred p b) g) :
    Went s (((plainPrep i s e).s.modGang (plainPrep i s e).e.g.gid F).complete i (plainPrep i s e).parts)
      (fun _ _ => none) fun x => if x.thr ∈ participants s e.g i then (x.setPred p b).view else x.view := by
  refine (steps_complete h hs (fun _ => []) (fun _ => by simp) (fun _ x => x.setPred p b)
    (fun _ x => ⟨(Thread.setPred_view x p b).1, (Thread.setPred_view x p b).2.1⟩)
    (fun _ => View.setPred p b) (fun _ x => View.setPred_view p b x) (fun _ x => View.setPred_twice p b x) hF).congr ?_ ?_
  · intro n r
    simp
  · intro x
    simp only [View.setPred_view]

/-- VOTE (R141), mode by mode. -/
theorem vote_completes (g : Guard) (mode : VoteMode) (inv : Bool) (d : Reg) (pa : Pred) (s : State) (e : Env) :
    AtHand (.vote g mode inv d pa) s e → e.g.sound = true →
    let ps := participants s e.g (.vote g mode inv d pa)
    let yes := ps.filter fun n => ((e.g.thread? n).map fun x => x.pred pa).getD false != inv
    let res := match mode with
      | .ballot => false
      | .all => decide (∀ n ∈ ps, n ∈ yes)
      | .any => decide (∃ n ∈ ps, n ∈ yes)
      | .eq => decide ((∀ n ∈ ps, n ∈ yes) ∨ ∀ n ∈ ps, n ∉ yes)
    ∃ t, exec (.vote g mode inv d pa) s = .next t ∧
      Went s t (fun n r => if mode = .ballot ∧ n ∈ ps ∧ r = d then some (BitVec.ofNat 64 (yes.map fun k => 2 ^ k).sum) else none)
        fun x => if mode ≠ .ballot ∧ x.thr ∈ ps then (x.setPred (d.setWidth 3) res).view else x.view := by
  intro h hs ps yes res
  refine ⟨_, withPrep_atHand h _, ?_⟩
  cases mode with
  | ballot =>
    exact (reg_complete h hs d (fun _ => BitVec.ofNat 64 (maskNat yes)) fun _ => rfl).congr (fun n r => by simp [maskNat_eq, ps]) fun x => by simp
  | all =>
    refine (pred_complete h hs (d.setWidth 3) res fun g => ?_).congr (fun n r => by simp) fun x => by simp [ps]
    rw [show res = _ from (filter_length ps _).symm]
    rfl
  | any =>
    refine (pred_complete h hs (d.setWidth 3) res fun g => ?_).congr (fun n r => by simp) fun x => by simp [ps]
    rw [show res = _ from (filter_nonempty ps _).symm]
    rfl
  | eq =>
    refine (pred_complete h hs (d.setWidth 3) res fun g => ?_).congr (fun n r => by simp) fun x => by simp [ps]
    rw [show res = _ from (filter_uniform ps _).symm]
    rfl

/-! ### REDUX, SCANX and MATCH -/

/-- The beads that a reduction combines, of some of the participating threads. -/
theorem plainPrep_beads {ts : List Nat} {a : Reg} (hu : uniformOperands i = false) (ha : (srcsOf i).a = .reg a)
    (ht : ∀ t ∈ ts, t ∈ participants s e.g i) : ts.map (fun t => (t, (plainPrep i s e).a t)) = ts.map fun t => (t, e.g.readReg a t) :=
  List.map_congr_left fun t h => by rw [plainPrep_a hu ha (ht t h)]

/-- An instruction that answers each participating thread with one register and flags. -/
theorem reduction_completes {d : Reg} (h : AtHand i s e) (hs : e.g.sound = true) (hd : d ∈ destsOf i) (r : Nat → Word × FlagSet)
    (ty : Ty) {F : Gang → Gang}
    (hF : ∀ g, F g = (participants s e.g i).foldl (fun g t => g.putLane t { regs := [(d, valMov ty (r t).1)], fl := (r t).2 }) g) :
    let t := ((plainPrep i s e).s.modGang (plainPrep i s e).e.g.gid F).complete i (plainPrep i s e).parts
    OnlyGang s t s.cur.gid ∧ Answered i s t e fun n => some { regs := [(d, valMov ty (r n).1)], fl := (r n).2 } :=
  answers_prep h hs (fun n => some { regs := [(d, valMov ty (r n).1)], fl := (r n).2 })
    (fun _ _ ho => by cases ho; simp) (fun _ _ ho _ hr => by cases ho; simp only [List.map_cons, List.map_nil, List.mem_singleton] at hr; rwa [hr]) hF

/-- REDUX and SCANX (R142). -/
theorem reduction_answers (i : Instr) (g : Guard) (op : RedOp) (ty : Ty) (rnd : Rnd) (d a : Reg) (s : State) (e : Env)
    (hi : i = .redux g op ty rnd d a ∨ i = .scanx g op ty rnd d a) (h : AtHand i s e) (hs : e.g.sound = true) :
    let ps := participants s e.g i
    let mode := RM.of rnd (((ps.head?.bind fun n => e.g.thread? n).map (·.fpc)).getD 1)
    let among (n : Nat) : List Nat := if i = .redux g op ty rnd d a then ps else ps.filter (· < n)
    ∃ t, exec i s = .next t ∧ OnlyGang s t s.cur.gid ∧ Answered i s t e fun n =>
      let r := reduce op ty mode ((among n).map fun u => (u, e.g.readReg a u))
      some { regs := [(d, valMov ty r.1)], fl := r.2 } := by
  intro ps mode among
  rcases hi with rfl | rfl
  · refine ⟨_, withPrep_atHand h _, reduction_completes h hs (by simp [destsOf])
      (fun n => reduce op ty mode ((among n).map fun u => (u, e.g.readReg a u))) ty fun g => ?_⟩
    simp only [among, if_true]
    rw [← plainPrep_beads (i := .redux _ op ty rnd d a) rfl rfl fun _ ht => ht]
    rfl
  · refine ⟨_, withPrep_atHand h _, reduction_completes h hs (by simp [destsOf])
      (fun n => reduce op ty mode ((among n).map fun u => (u, e.g.readReg a u))) ty fun g => ?_⟩
    have hbelow : ∀ n, (among n).map (fun u => (u, e.g.readReg a u)) =
        (ps.filter (· < n)).map fun u => (u, (plainPrep (.scanx _ op ty rnd d a) s e).a u) := fun n => by
      rw [plainPrep_beads (i := .scanx _ op ty rnd d a) rfl rfl fun _ ht => List.mem_of_mem_filter ht]
      rfl
    simp only [hbelow]
    rfl

/-- MATCH (R143). -/
theorem match_completes (g : Guard) (ty : Ty) (d a : Reg) (pc : Pred) (s : State) (e : Env) (h : AtHand (.matchv g ty d a pc) s e)
    (hs : e.g.sound = true) :
    let ps := participants s e.g (.matchv g ty d a pc)
    let same (n : Nat) : List Nat := ps.filter fun u => valMov ty (e.g.readReg a u) == valMov ty (e.g.readReg a n)
    ∃ t, exec (.matchv g ty d a pc) s = .next t ∧
      Went s t (fun n r => if n ∈ ps ∧ r = d then some (BitVec.ofNat 64 ((same n).map fun k => 2 ^ k).sum) else none)
        fun x => if x.thr ∈ ps then (x.setPred pc (decide (∀ n ∈ ps, n ∈ same x.thr))).view else x.view := by
  intro ps same
  refine ⟨_, withPrep_atHand h _, regPred_complete h hs d pc (fun n => BitVec.ofNat 64 ((same n).map fun k => 2 ^ k).sum)
    (fun n => decide (∀ u ∈ ps, u ∈ same n)) fun gang => List.foldl_ext _ _ _ fun b t ht => ?_⟩
  have hsame : ps.filter (fun u => valMov ty ((plainPrep (.matchv g ty d a pc) s e).a u) == valMov ty ((plainPrep (.matchv g ty d a pc) s e).a t)) =
      same t := by
    rw [plainPrep_a (i := .matchv g ty d a pc) rfl rfl ht]
    exact List.filter_congr fun u hu => by rw [plainPrep_a (i := .matchv g ty d a pc) rfl rfl hu]
  have hall : ((same t).length == ps.length) = decide (∀ n ∈ ps, n ∈ same t) := filter_length ps _
  rw [← hall, ← hsame]
  rfl

end

/-- Settles O5, mode by mode and instruction by instruction. -/
theorem votesComplete : Obligations.VotesComplete :=
  by
  unfold Obligations.VotesComplete
  exact ⟨vote_completes, reduction_answers, match_completes⟩

end Sys2Proof.Machine

/-! ## What a lane computes, and packed results

An instruction that every lane computes gives what `laneValue` answers (`LaneGives.of_value`); a packed floating-point result gives each
sub-element and the union of the flags (`LaneFloats.of_packF`). -/

namespace Sys2Proof.Machine
open Host

section

/-! ### Lane instructions -/

theorem uniformOperands_lane {i : Instr} {x : LaneIn} {o : LaneOut} (h : laneValue i x = some o) : uniformOperands i = false := by
  unfold uniformOperands
  split
  · cases h
  · rfl

/-- A lane instruction gives what its lanes compute. -/
theorem LaneGives.of_value {i : Instr} {v : LaneIn → LaneOut} (hv : ∀ x, laneValue i x = some (v x)) : LaneGives i v := by
  intro s e h hs
  have hlane : isLane i = true := by rw [isLane, hv]; rfl
  rw [exec_lane hlane]
  refine ⟨_, withPrep_atHand h _, answers_prep h hs (fun n => some (v (e.laneIn i n))) ?_ ?_ fun g => ?_⟩
  · rintro t o ⟨⟩
    exact laneValue_nodup (hv _)
  · rintro t o ⟨⟩ r hr
    rwa [laneValue_dests (hv _)] at hr
  · refine List.foldl_ext _ _ _ fun g t ht => ?_
    rw [plainPrep_lane (by rw [readers_all (uniformOperands_lane (hv {}))]; exact ht), hv]

/-! ### Packed sub-elements (R61) -/

theorem packAt_lt (w : Nat) (l : List Nat) : packAt w l < 2 ^ (w * l.length) := by
  induction l with
  | nil => simp [packAt]
  | cons v l ih =>
    have hv := Nat.mod_lt v (Nat.two_pow_pos w)
    have hpow : 2 ^ (w * (v :: l).length) = 2 ^ w * 2 ^ (w * l.length) := by rw [List.length_cons, Nat.mul_succ, Nat.add_comm, Nat.pow_add]
    have hle : 2 ^ w * (packAt w l + 1) ≤ 2 ^ w * 2 ^ (w * l.length) := Nat.mul_le_mul_left _ ih
    rw [packAt, hpow]
    rw [Nat.mul_add, Nat.mul_one] at hle
    omega

theorem packAt_getD (w : Nat) (l : List Nat) (k : Nat) : packAt w l / 2 ^ (w * k) % 2 ^ w = l.getD k 0 % 2 ^ w := by
  induction l generalizing k with
  | nil => simp [packAt]
  | cons v l ih =>
    have hv := Nat.mod_lt v (Nat.two_pow_pos w)
    cases k with
    | zero => simp [packAt]
    | succ k =>
      rw [Nat.mul_succ, Nat.add_comm (w * k) w, Nat.pow_add, ← Nat.div_div_eq_div_mul, packAt, Nat.add_mul_div_left _ _ (Nat.two_pow_pos w),
        Nat.div_eq_of_lt hv, Nat.zero_add, ih]
      rfl

theorem Ty.bits_le (ty : Ty) : ty.width * ty.count ≤ 64 := by cases ty <;> decide

theorem packSub_toNat (ty : Ty) {l : List Nat} (h : l.length = ty.count) : (packSub ty l).toNat = packAt ty.width l := by
  have hlt := packAt_lt ty.width l
  have hle : 2 ^ (ty.width * l.length) ≤ 2 ^ 64 := Nat.pow_le_pow_right (by decide) (h ▸ Ty.bits_le ty)
  rw [packSub, BitVec.toNat_ofNat, Nat.mod_eq_of_lt (lt_of_lt_of_le hlt hle)]

theorem packSub_lt (ty : Ty) {l : List Nat} (h : l.length = ty.count) : (packSub ty l).toNat < 2 ^ (ty.count * ty.width) := by
  rw [packSub_toNat ty h, Nat.mul_comm, ← h]
  exact packAt_lt _ _

theorem sub_packSub (ty : Ty) {l : List Nat} (h : l.length = ty.count) (k : Nat) : sub ty (packSub ty l) k = l.getD k 0 % 2 ^ ty.width := by
  rw [sub, packSub_toNat ty h, packAt_getD]

theorem sub_lt (ty : Ty) (x : Word) (k : Nat) : sub ty x k < 2 ^ ty.width := Nat.mod_lt _ (Nat.two_pow_pos _)

/-- The united flags of some results (R121). -/
theorem foldl_flags (rs : List FRes) (f : FlagSet) (j : Nat) :
    (rs.foldl (fun f r => f ||| r.fl) f).getLsbD j = true ↔ f.getLsbD j = true ∨ ∃ r ∈ rs, r.fl.getLsbD j = true := by
  induction rs generalizing f with
  | nil => simp
  | cons r rs ih => rw [List.foldl_cons, ih]; simp [or_assoc]

/-- An instruction whose lanes pack a result for each sub-element. -/
theorem LaneFloats.of_packF {i : Instr} {d : Reg} {ty : Ty} {res : LaneIn → Nat → FRes → Prop} (rs : LaneIn → Nat → FRes)
    (hv : ∀ x, laneValue i x = some { regs := [(d, (packF ty ((List.range ty.count).map (rs x))).1)],
                                      fl := (packF ty ((List.range ty.count).map (rs x))).2 })
    (hb : ∀ x, ∀ k < ty.count, (rs x k).bits < 2 ^ ty.width) (hr : ∀ x, ∀ k < ty.count, res x k (rs x k)) : LaneFloats i d ty res := by
  refine ⟨_, _, LaneGives.of_value hv, fun x => ⟨packSub_lt ty (by simp), rs x, fun k hk => ⟨hr x k hk, ?_⟩, fun j => ?_⟩⟩
  · rw [packF, sub_packSub ty (by simp)]
    simp [hk, Nat.mod_eq_of_lt (hb x k hk)]
  · rw [packF, foldl_flags]
    simp

end

end Sys2Proof.Machine

/-! ## Formats (R21)

The codes of a format without their sign run over its magnitudes in order: code n × 2^fbits + j, with n = 0 or 2^fbits ≤ j, stands for
j × 2^(qmin + n) (`Fmt.mag_eq`). -/

namespace Sys2Proof.Machine

section

/-! ### Magnitudes -/

/-- The magnitude of code n × 2^fbits + j: j quanta of the n-th binade. -/
theorem Fmt.mag_eq (f : Fmt) {n j : Nat} (hj : j ≤ 2 ^ (f.fbits + 1)) (hn : n = 0 ∨ 2 ^ f.fbits ≤ j) :
    f.mag (n * 2 ^ f.fbits + j) = j * 2 ^ (f.qmin + n) := by
  have hp : 0 < 2 ^ f.fbits := Nat.two_pow_pos _
  rw [Nat.pow_succ] at hj
  have hq : ∀ k : Nat, (2 : ℚ) ^ (1 - (f.bias : Int) - f.fbits + k) = 2 ^ (f.qmin + k) := fun k => rfl
  unfold Fmt.mag
  dsimp only
  rw [hq]
  rcases Nat.lt_or_ge j (2 ^ f.fbits) with hlt | hge
  · obtain rfl : n = 0 := by omega
    rw [Nat.zero_mul, Nat.zero_add, Nat.div_eq_of_lt hlt, Nat.mod_eq_of_lt hlt]
    simp
  · rcases Nat.lt_or_ge j (2 ^ f.fbits * 2) with hlt2 | hge2
    · have he : n * 2 ^ f.fbits + j = (j - 2 ^ f.fbits) + 2 ^ f.fbits * (n + 1) := by rw [Nat.mul_add, Nat.mul_comm]; omega
      have hdiv : (n * 2 ^ f.fbits + j) / 2 ^ f.fbits = n + 1 := by
        rw [he, Nat.add_mul_div_left _ _ hp, Nat.div_eq_of_lt (by omega)]; omega
      have hmod : (n * 2 ^ f.fbits + j) % 2 ^ f.fbits = j - 2 ^ f.fbits := by
        rw [he, Nat.add_mul_mod_self_left, Nat.mod_eq_of_lt (by omega)]
      rw [hdiv, hmod, if_neg (by omega), Nat.sub_add_cancel hge, Nat.add_sub_cancel]
    · obtain rfl : j = 2 ^ f.fbits * 2 := by omega
      have he : n * 2 ^ f.fbits + 2 ^ f.fbits * 2 = 2 ^ f.fbits * (n + 2) := by ring
      have hdiv : (n * 2 ^ f.fbits + 2 ^ f.fbits * 2) / 2 ^ f.fbits = n + 2 := by rw [he, Nat.mul_div_cancel_left _ hp]
      have hmod : (n * 2 ^ f.fbits + 2 ^ f.fbits * 2) % 2 ^ f.fbits = 0 := by rw [he, Nat.mul_mod_right]
      rw [hdiv, hmod, if_neg (by omega), Nat.zero_add, show n + 2 - 1 = n + 1 by omega, Nat.cast_add, Nat.cast_one, ← add_assoc,
        zpow_add_one₀ (by norm_num)]
      push_cast
      ring

/-- Every code is some quanta of some binade. -/
theorem Fmt.exists_quanta (f : Fmt) (c : Nat) :
    ∃ n j, c = n * 2 ^ f.fbits + j ∧ j < 2 ^ (f.fbits + 1) ∧ (n = 0 ∨ 2 ^ f.fbits ≤ j) := by
  have hp : 0 < 2 ^ f.fbits := Nat.two_pow_pos _
  have hc := Nat.div_add_mod c (2 ^ f.fbits)
  have hr := Nat.mod_lt c hp
  rw [Nat.mul_comm] at hc
  rcases Nat.eq_zero_or_pos (c / 2 ^ f.fbits) with h0 | hpos
  · exact ⟨0, c % 2 ^ f.fbits, by rw [h0] at hc; exact hc.symm, by rw [Nat.pow_succ]; omega, .inl rfl⟩
  · refine ⟨c / 2 ^ f.fbits - 1, 2 ^ f.fbits + c % 2 ^ f.fbits, ?_, by rw [Nat.pow_succ]; omega, .inr (by omega)⟩
    rw [Nat.sub_mul, Nat.one_mul]
    have : 2 ^ f.fbits ≤ c / 2 ^ f.fbits * 2 ^ f.fbits := Nat.le_mul_of_pos_left _ hpos
    omega

theorem Fmt.mag_lt_succ (f : Fmt) (c : Nat) : f.mag c < f.mag (c + 1) := by
  obtain ⟨n, j, rfl, hj, hn⟩ := f.exists_quanta c
  rw [Nat.add_assoc, f.mag_eq hj.le hn, f.mag_eq (Nat.succ_le_of_lt hj) (hn.imp_right fun h => h.trans (Nat.le_succ j))]
  have : (0 : ℚ) < 2 ^ (f.qmin + n) := by positivity
  push_cast
  nlinarith

theorem Fmt.mag_strictMono (f : Fmt) : StrictMono f.mag := strictMono_nat_of_lt_succ f.mag_lt_succ

@[simp] theorem Fmt.mag_zero (f : Fmt) : f.mag 0 = 0 := by
  simp [Fmt.mag]

theorem Fmt.mag_eq_zero {f : Fmt} {c : Nat} : f.mag c = 0 ↔ c = 0 := by
  rw [← f.mag_zero, f.mag_strictMono.injective.eq_iff]

/-! ### The formats of R21 -/

/-- What the proofs need of a format's widths: room for an exponent and a fraction, integers up to 2^fbits among the finite values, and all
exponents within FSCALE's range. -/
structure Fmt.Regular (f : Fmt) : Prop where
  ebits : 2 ≤ f.ebits
  fbits : 2 ≤ f.fbits
  bias_pos : 1 ≤ f.bias
  integers : (f.bias + f.fbits) * 2 ^ f.fbits ≤ f.maxCode
  range : 2 ^ f.ebits + f.fbits < 8191

theorem fmt_regular {ty : Ty} {f : Fmt} (h : Ty.fmt ty = some f) : f.Regular ∧ 2 ^ ty.width = 2 * f.signBit := by
  cases ty <;> simp only [Ty.fmt, Option.some.injEq, reduceCtorEq] at h <;> subst h <;> exact ⟨by constructor <;> decide, by decide⟩

theorem fm_of_isFp {ty : Ty} (h : ty.isFp = true) : Ty.fmt ty = some (Ty.fm ty) ∧ (Ty.fm ty).hasInf = true := by
  revert h
  cases ty <;> decide

variable {f : Fmt}

theorem Fmt.signBit_eq (f : Fmt) : f.signBit = 2 ^ f.ebits * 2 ^ f.fbits := Nat.pow_add _ _ _

/-- The codes of the infinities, or of E4M3's NaN, lie above the finite ones and below the sign bit. -/
theorem Fmt.Regular.infCode (h : f.Regular) : f.maxCode + 1 = f.infCode ∧ f.infCode < f.signBit := by
  have he : 2 ^ 2 ≤ 2 ^ f.ebits := Nat.pow_le_pow_right (by decide) h.ebits
  have hf : 2 ^ 2 ≤ 2 ^ f.fbits := Nat.pow_le_pow_right (by decide) h.fbits
  have hpos : 0 < f.infCode ∧ f.infCode < f.signBit := by
    rw [Fmt.infCode, f.signBit_eq]
    split
    · exact ⟨Nat.mul_pos (by omega) (by omega), Nat.mul_lt_mul_of_pos_right (by omega) (by omega)⟩
    · rw [Nat.pow_add]
      have := Nat.mul_le_mul he hf
      omega
  exact ⟨Nat.succ_pred_eq_of_pos hpos.1, hpos.2⟩

theorem Fmt.Regular.maxCode_lt (h : f.Regular) : f.maxCode < f.signBit := by
  have := h.infCode
  omega

theorem Fmt.Regular.nan_lt (h : f.Regular) : f.nan < f.signBit := by
  have he : 2 ^ 2 ≤ 2 ^ f.ebits := Nat.pow_le_pow_right (by decide) h.ebits
  unfold Fmt.nan
  split
  next hi =>
    split
    · have := h.infCode; omega
    next h2 =>
      have h3 : 2 ^ (f.fbits - 1) * 2 = 2 ^ f.fbits := by rw [← Nat.pow_succ]; congr 1; have := h.fbits; omega
      have h4 : 2 ^ 2 ≤ 2 ^ (f.fbits - 1) := Nat.pow_le_pow_right (by decide) (by have := h.fbits; omega)
      have h5 : 2 ^ f.ebits * 2 ^ f.fbits = (2 ^ f.ebits - 1) * 2 ^ f.fbits + 2 ^ f.fbits := by
        rw [← Nat.succ_mul]; congr 1; omega
      rw [Fmt.infCode, if_pos hi, f.signBit_eq, h5]
      omega
  · exact h.infCode.2

/-- A code with its sign is below twice the sign bit. -/
theorem Fmt.sign_add_lt (f : Fmt) (n : Bool) {c : Nat} (h : c < f.signBit) : f.sign n + c < 2 * f.signBit := by
  unfold Fmt.sign
  split <;> omega

/-! ### What a code stands for -/

theorem Fmt.mag_of_ex_zero (f : Fmt) {c : Nat} (h : c / 2 ^ f.fbits = 0) : f.mag c = (c % 2 ^ f.fbits : Nat) * 2 ^ f.qmin := by
  have hc : c % 2 ^ f.fbits = c := Nat.mod_eq_of_lt ((Nat.div_eq_zero_iff.mp h).resolve_left (Nat.two_pow_pos _).ne')
  simp [Fmt.mag, h, Fmt.qmin]

theorem Fmt.mag_of_ex_pos (f : Fmt) {c : Nat} (h : c / 2 ^ f.fbits ≠ 0) :
    f.mag c = (c % 2 ^ f.fbits + 2 ^ f.fbits : Nat) * 2 ^ (f.qmin + (c / 2 ^ f.fbits - 1 : Nat)) := by
  simp only [Fmt.mag, if_neg h, Fmt.qmin]

/-- READING A CODE gives its value (R21, R26). -/
theorem Fmt.Regular.of_unpack (h : f.Regular) (x : Nat) : FpVal.ofFp (f.unpack x) = FpVal.of f x := by
  obtain ⟨hmax, hinf⟩ := h.infCode
  have hf : 0 < 2 ^ f.fbits := Nat.two_pow_pos _
  have hc : x % f.signBit < f.signBit := Nat.mod_lt _ (Nat.two_pow_pos _)
  have hfin : FpVal.ofFp (if x % f.signBit / 2 ^ f.fbits = 0 then .fin (x / f.signBit % 2 == 1) (x % f.signBit % 2 ^ f.fbits) f.qmin
      else .fin (x / f.signBit % 2 == 1) (x % f.signBit % 2 ^ f.fbits + 2 ^ f.fbits) (f.qmin + (x % f.signBit / 2 ^ f.fbits - 1 : Nat))) =
      .num (x / f.signBit % 2 == 1) (f.mag (x % f.signBit)) := by
    split
    next h0 => rw [f.mag_of_ex_zero h0]; rfl
    next h0 => rw [f.mag_of_ex_pos h0]; rfl
  unfold Fmt.unpack FpVal.of
  generalize x % f.signBit = c at *
  cases hi : f.hasInf with
  | true =>
    have hic : f.infCode = (2 ^ f.ebits - 1) * 2 ^ f.fbits := by rw [Fmt.infCode, if_pos hi]
    have hex : c / 2 ^ f.fbits < 2 ^ f.ebits := by
      rw [Nat.div_lt_iff_lt_mul hf, ← f.signBit_eq]; exact hc
    have hmod := Nat.div_add_mod c (2 ^ f.fbits)
    simp only [if_true, Bool.true_and]
    by_cases htop : c / 2 ^ f.fbits = 2 ^ f.ebits - 1
    · have hge : c = f.infCode + c % 2 ^ f.fbits := by rw [htop, Nat.mul_comm, ← hic] at hmod; exact hmod.symm
      rw [if_pos htop, if_neg (show ¬ c ≤ f.maxCode by omega)]
      by_cases hfrac : c % 2 ^ f.fbits = 0
      · rw [if_pos hfrac, if_pos (by rw [beq_iff_eq]; omega)]
        rfl
      · rw [if_neg hfrac, if_neg (by rw [beq_iff_eq]; omega)]
        rfl
    · have hlt : c < f.infCode := by
        rw [hic, ← Nat.div_lt_iff_lt_mul hf]
        omega
      rw [if_neg htop, if_pos (show c ≤ f.maxCode by omega)]
      exact hfin
  | false =>
    have hic : f.infCode + 1 = f.signBit := by
      rw [Fmt.infCode, hi, if_neg (by decide), Fmt.signBit, Nat.sub_add_cancel (Nat.one_le_two_pow)]
    simp only [Bool.false_eq_true, if_false, Bool.false_and]
    by_cases htop : c = f.infCode
    · rw [if_pos htop, if_neg (show ¬ c ≤ f.maxCode by omega)]
      rfl
    · rw [if_neg htop, if_pos (show c ≤ f.maxCode by omega)]
      exact hfin

theorem Fmt.sign_div (f : Fmt) (n : Bool) {c : Nat} (h : c < f.signBit) :
    ((f.sign n + c) / f.signBit % 2 == 1) = n ∧ (f.sign n + c) % f.signBit = c := by
  have hpos : 0 < f.signBit := Nat.two_pow_pos _
  cases n with
  | false =>
    rw [Fmt.sign, if_neg (by decide), Nat.zero_add, Nat.div_eq_of_lt h, Nat.mod_eq_of_lt h]
    exact ⟨rfl, rfl⟩
  | true =>
    rw [Fmt.sign, if_pos rfl, Nat.add_comm, Nat.add_div_right _ hpos, Nat.add_mod_right, Nat.div_eq_of_lt h, Nat.mod_eq_of_lt h]
    exact ⟨rfl, rfl⟩

/-- A finite code with a sign stands for that sign and its magnitude. -/
theorem Fmt.Regular.of_sign_add (h : f.Regular) (n : Bool) {c : Nat} (hc : c ≤ f.maxCode) : FpVal.of f (f.sign n + c) = .num n (f.mag c) := by
  obtain ⟨hs, hm⟩ := f.sign_div n (lt_of_le_of_lt hc h.maxCode_lt)
  unfold FpVal.of
  rw [hs, hm, if_pos hc]

/-- A code below twice the sign bit is its sign and the rest. -/
theorem Fmt.eq_sign_add (f : Fmt) {x : Nat} (hx : x < 2 * f.signBit) : x = f.sign (x / f.signBit % 2 == 1) + x % f.signBit := by
  have hdiv : x / f.signBit < 2 := (Nat.div_lt_iff_lt_mul (Nat.two_pow_pos _)).mpr hx
  have hmod := Nat.div_add_mod x f.signBit
  rcases Nat.le_one_iff_eq_zero_or_eq_one.mp (Nat.le_of_lt_succ hdiv) with h0 | h1
  · rw [h0] at hmod ⊢
    simpa [Fmt.sign] using hmod.symm
  · rw [h1] at hmod ⊢
    simpa [Fmt.sign] using hmod.symm

/-- A finite value's code. -/
theorem FpVal.code_of_num {x : Nat} (hx : x < 2 * f.signBit) {n : Bool} {v : ℚ} (h : FpVal.of f x = .num n v) :
    x = f.sign n + x % f.signBit ∧ x % f.signBit ≤ f.maxCode ∧ v = f.mag (x % f.signBit) := by
  have he := f.eq_sign_add hx
  unfold FpVal.of at h
  dsimp only at h
  split at h
  next hc =>
    injection h with hn hv
    rw [hn] at he
    exact ⟨he, hc, hv.symm⟩
  · split at h <;> cases h

/-- An infinity's code. -/
theorem FpVal.code_of_inf {x : Nat} (hx : x < 2 * f.signBit) {n z : Bool} (h : FpVal.of f x = .inf n z) :
    x = f.sign n + f.infCode ∧ z = false ∧ f.hasInf = true := by
  have he := f.eq_sign_add hx
  unfold FpVal.of at h
  dsimp only at h
  split at h
  · cases h
  · split at h
    next hc =>
      injection h with hn hz
      simp only [Bool.and_eq_true, beq_iff_eq] at hc
      rw [hn, hc.2] at he
      exact ⟨he, hz.symm, hc.1⟩
    · cases h

end

end Sys2Proof.Machine

/-! ## Rounding (R28 to R31)

`roundShift` rounds an integer's quotient by a power of two, seen as a real number (`roundShift_spec`). `Fmt.round` does so at the quantum of
its value's binade, so its code is the one that `Fmt.Rounds` gives (`Fmt.round_rounds`); the tininess test rounds once more at half the
smallest quantum (`tiny_iff`). -/

namespace Sys2Proof.Machine

section

variable {f : Fmt} {md : RM} {neg : Bool}

/-! ### Rounding to an integer -/

/-- Nothing rounds up from the lesser neighbour itself. -/
theorem not_goesUp_self {odd : Bool} {lo hi : ℝ} : ¬ GoesUp md neg odd lo hi lo := fun h => h.1 rfl

/-- Between neighbours, GoesUp is what `roundAway` decides by comparing the discarded part with one half. -/
theorem goesUp_iff {odd : Bool} {j : Nat} {u : ℝ} {cmp : Ordering} (hu : u ≠ j) (hlt : cmp = .lt → 2 * u < j + (j + 1))
    (heq : cmp = .eq → 2 * u = j + (j + 1)) (hgt : cmp = .gt → j + (j + 1) < 2 * u) :
    GoesUp md neg odd j (j + 1) u ↔ roundAway md neg odd cmp = true := by
  unfold GoesUp roundAway
  cases md with
  | ne =>
    cases cmp with
    | lt =>
      have := hlt rfl
      simp only [hu, ne_eq, not_false_eq_true, true_and]
      refine ⟨fun h => ?_, fun h => by simp at h⟩
      rcases h with h | ⟨h, -⟩ <;> linarith
    | eq =>
      have := heq rfl
      simp [hu, this]
    | gt =>
      have := hgt rfl
      simp [hu, this]
  | tz => simp
  | up => simp [hu]
  | dn => simp [hu]

/-- `roundShift` compares the discarded part of r and something less than one more with one half. -/
theorem compare_half {r half : Nat} {sticky : Bool} {w : ℝ} (hlo : (r : ℝ) ≤ w) (hhi : w < r + 1) (hst : sticky = true ↔ w ≠ r)
    {cmp : Ordering} (hcmp : (if r < half then Ordering.lt else if r = half then (if sticky = true then .gt else .eq) else .gt) = cmp) :
    (cmp = .lt → w < half) ∧ (cmp = .eq → w = half) ∧ (cmp = .gt → half < w) := by
  subst hcmp
  rcases Nat.lt_trichotomy r half with h | rfl | h
  · have : (r : ℝ) + 1 ≤ half := by exact_mod_cast h
    simp only [h, if_true, reduceCtorEq, IsEmpty.forall_iff, forall_const, and_true]
    linarith
  · cases sticky with
    | false => simpa [eq_comm] using hst
    | true => simpa using lt_of_le_of_ne hlo (Ne.symm (hst.mp rfl))
  · have : (half : ℝ) < r := by exact_mod_cast h
    simp only [h.le.not_gt, h.ne', if_false, reduceCtorEq, IsEmpty.forall_iff, forall_const, true_and]
    linarith

/-- ROUNDING A QUOTIENT. `u` is M / 2^sh, and something less than a unit of M more if `sticky`. -/
theorem roundShift_spec {M sh : Nat} {sticky : Bool} {u : ℝ} (hlo : (M : ℝ) ≤ u * 2 ^ sh) (hhi : u * 2 ^ sh < M + 1)
    (hst : sticky = true ↔ u * 2 ^ sh ≠ M) (hsh : sticky = true → 0 < sh) :
    ((M / 2 ^ sh : Nat) : ℝ) ≤ u ∧ u < (M / 2 ^ sh : Nat) + 1 ∧
    ((GoesUp md neg (M / 2 ^ sh % 2 == 1) (M / 2 ^ sh : Nat) ((M / 2 ^ sh : Nat) + 1) u ∧ (roundShift md neg M sh sticky).1 = M / 2 ^ sh + 1) ∨
      (¬ GoesUp md neg (M / 2 ^ sh % 2 == 1) (M / 2 ^ sh : Nat) ((M / 2 ^ sh : Nat) + 1) u ∧ (roundShift md neg M sh sticky).1 = M / 2 ^ sh)) ∧
    ((roundShift md neg M sh sticky).2 = true ↔ u ≠ (M / 2 ^ sh : Nat)) := by
  rcases Nat.eq_zero_or_pos sh with rfl | hpos
  · have hs : sticky = false := Bool.eq_false_iff.mpr fun h => absurd (hsh h) (by decide)
    subst hs
    obtain rfl : u = M := by simpa using hst
    simp [roundShift, not_goesUp_self]
  · have hP : (0 : ℝ) < 2 ^ sh := by positivity
    have hM : ((M / 2 ^ sh : Nat) : ℝ) * 2 ^ sh + (M % 2 ^ sh : Nat) = M := by exact_mod_cast Nat.div_add_mod' M (2 ^ sh)
    have hr : ((M % 2 ^ sh : Nat) : ℝ) + 1 ≤ 2 ^ sh := by exact_mod_cast Nat.mod_lt M (Nat.two_pow_pos sh)
    have hhalf : (2 : ℝ) ^ sh = 2 * (2 ^ (sh - 1) : Nat) := by
      rw [Nat.cast_pow, Nat.cast_ofNat, ← pow_succ']; congr 1; omega
    have hr0 : (0 : ℝ) ≤ (M % 2 ^ sh : Nat) := Nat.cast_nonneg _
    unfold roundShift
    rw [if_neg hpos.ne']
    dsimp only
    generalize M / 2 ^ sh = j at *
    generalize M % 2 ^ sh = r at *
    -- w is the discarded part: u = j + w / 2^sh
    obtain ⟨w, hw⟩ : ∃ w, w = (u - j) * 2 ^ sh := ⟨_, rfl⟩
    have huw : u * 2 ^ sh = j * 2 ^ sh + w := by rw [hw]; ring
    have hst' : sticky = true ↔ w ≠ r := by
      rw [hst, huw, ← hM]
      simp
    have hexact : u = j ↔ w = 0 := by
      rw [hw, mul_eq_zero, or_iff_left hP.ne', sub_eq_zero]
    refine ⟨le_of_mul_le_mul_right (by linarith) hP, lt_of_mul_lt_mul_right (by linarith) hP.le, ?_⟩
    by_cases hex : (decide (r = 0) && !sticky) = true
    · rw [if_pos hex]
      simp only [Bool.and_eq_true, decide_eq_true_eq, Bool.not_eq_true'] at hex
      have hu : u = j := by
        rw [hexact, show w = r by simpa [hex.2] using hst', hex.1, Nat.cast_zero]
      exact ⟨.inr ⟨fun h => h.1 hu, rfl⟩, by simp [hu]⟩
    · have hne : u ≠ j := by
        rw [ne_eq, hexact]
        intro h0
        refine hex ?_
        have hr' : (r : ℝ) = 0 := by linarith
        have hs : ¬ sticky = true := by rw [hst', h0, hr']; simp
        simpa [hs] using hr'
      rw [if_neg hex]
      generalize hcmp : (if r < 2 ^ (sh - 1) then Ordering.lt else if r = 2 ^ (sh - 1) then (if sticky = true then .gt else .eq) else .gt) = cmp
      obtain ⟨hlt, heq, hgt⟩ := compare_half (by linarith) (by linarith) hst' hcmp
      have hup : GoesUp md neg (j % 2 == 1) j (j + 1) u ↔ roundAway md neg (j % 2 == 1) cmp = true :=
        goesUp_iff hne (fun h => lt_of_mul_lt_mul_right (by linarith [hlt h]) hP.le) (fun h => mul_right_cancel₀ hP.ne' (by linarith [heq h]))
          fun h => lt_of_mul_lt_mul_right (by linarith [hgt h]) hP.le
      refine ⟨?_, by simp [hne]⟩
      by_cases hg : roundAway md neg (j % 2 == 1) cmp = true
      · exact .inl ⟨hup.mpr hg, if_pos hg⟩
      · exact .inr ⟨fun h => hg (hup.mp h), if_neg hg⟩

/-! ### Rounding at a quantum -/

/-- m × 2^e, and something less than a unit of m more if `sticky`, in quanta 2^q, rounded. -/
def roundAt (md : RM) (neg : Bool) (m : Nat) (e : Int) (sticky : Bool) (q : Int) : Nat × Bool :=
  roundShift md neg (m * 2 ^ (e - q).toNat) (q - e).toNat sticky

/-- `v` is m × 2^e, and something less than a unit of m more if `sticky`. -/
structure Approx (m : Nat) (e : Int) (sticky : Bool) (v : ℝ) : Prop where
  lo : (m : ℝ) * 2 ^ e ≤ v
  hi : v < (m + 1) * 2 ^ e
  sticky_iff : sticky = true ↔ v ≠ m * 2 ^ e

theorem Approx.exact (m : Nat) (e : Int) : Approx m e false (m * 2 ^ e) :=
  ⟨le_rfl, mul_lt_mul_of_pos_right (lt_add_one _) (by positivity), by simp⟩

variable {m : Nat} {e : Int} {sticky : Bool} {v : ℝ}

theorem roundAt_spec (h : Approx m e sticky v) {q : Int} (hq : sticky = true → e < q) :
    ∃ j : Nat, (j : ℝ) ≤ v / 2 ^ q ∧ v / 2 ^ q < j + 1 ∧
      ((GoesUp md neg (j % 2 == 1) j (j + 1) (v / 2 ^ q) ∧ (roundAt md neg m e sticky q).1 = j + 1) ∨
        (¬ GoesUp md neg (j % 2 == 1) j (j + 1) (v / 2 ^ q) ∧ (roundAt md neg m e sticky q).1 = j)) ∧
      ((roundAt md neg m e sticky q).2 = true ↔ v / 2 ^ q ≠ j) := by
  obtain ⟨hlo, hhi, hst⟩ := h
  rcases le_or_gt q e with hle | hgt
  · have hs : sticky = false := Bool.eq_false_iff.mpr fun h => absurd (hq h) (not_lt.mpr hle)
    subst hs
    have hv : v = m * 2 ^ e := by simpa using hst
    have hM : v / 2 ^ q = (m * 2 ^ (e - q).toNat : Nat) := by
      rw [hv, mul_div_assoc, ← zpow_sub₀ (by norm_num), ← Int.toNat_of_nonneg (sub_nonneg.mpr hle)]
      push_cast
      rfl
    have h0 : (q - e).toNat = 0 := Int.toNat_eq_zero.mpr (by omega)
    refine ⟨_, roundShift_spec (M := m * 2 ^ (e - q).toNat) (sh := (q - e).toNat) ?_ ?_ ?_ ?_⟩ <;> simp [hM, h0]
  · have h0 : (e - q).toNat = 0 := Int.toNat_eq_zero.mpr (by omega)
    have hE : (0 : ℝ) < 2 ^ e := by positivity
    have hy : v / 2 ^ q * 2 ^ (q - e).toNat = v / 2 ^ e := by
      rw [← zpow_natCast, Int.toNat_of_nonneg (by omega), zpow_sub₀ (by norm_num)]
      field_simp
    refine ⟨_, roundShift_spec (M := m * 2 ^ (e - q).toNat) (sh := (q - e).toNat) ?_ ?_ ?_ ?_⟩
    · rw [hy, h0, pow_zero, Nat.mul_one, le_div_iff₀ hE]; exact hlo
    · rw [hy, h0, pow_zero, Nat.mul_one, div_lt_iff₀ hE]; exact hhi
    · rw [hy, h0, pow_zero, Nat.mul_one, hst, ne_eq, ne_eq, div_eq_iff hE.ne']
    · intro; omega

/-- Going up does not depend on the unit of measure. -/
theorem goesUp_scale {odd : Bool} {a b Q : ℝ} (hQ : 0 < Q) : GoesUp md neg odd (a * Q) (b * Q) v ↔ GoesUp md neg odd a b (v / Q) := by
  have hne : v ≠ a * Q ↔ v / Q ≠ a := by rw [ne_eq, ne_eq, div_eq_iff hQ.ne']
  have hlt : a * Q + b * Q < 2 * v ↔ a + b < 2 * (v / Q) := by rw [← add_mul, ← mul_div_assoc, lt_div_iff₀ hQ]
  have heq : a * Q + b * Q = 2 * v ↔ a + b = 2 * (v / Q) := by rw [← add_mul, ← mul_div_assoc, eq_div_iff hQ.ne']
  unfold GoesUp
  rw [hne, hlt, heq]

theorem bitLen_bounds (hm : m ≠ 0) : 2 ^ (bitLen m - 1) ≤ m ∧ m < 2 ^ bitLen m ∧ 0 < bitLen m := by
  rw [bitLen, if_neg hm]
  exact ⟨Nat.log2_self_le hm, Nat.lt_log2_self, Nat.succ_pos _⟩

/-- The binade of a value: 2^(top) ≤ v < 2^(top + 1). -/
theorem Approx.binade (h : Approx m e sticky v) (hm : m ≠ 0) : (2 : ℝ) ^ (e + bitLen m - 1) ≤ v ∧ v < 2 ^ (e + bitLen m) := by
  obtain ⟨hlo, hhi, hpos⟩ := bitLen_bounds hm
  have hE : (0 : ℝ) < 2 ^ e := by positivity
  constructor
  · refine le_trans ?_ h.lo
    rw [show e + (bitLen m : Int) - 1 = ((bitLen m - 1 : Nat) : Int) + e by omega, zpow_add₀ (by norm_num), zpow_natCast]
    exact mul_le_mul_of_nonneg_right (by exact_mod_cast hlo) hE.le
  · refine lt_of_lt_of_le h.hi ?_
    rw [add_comm e, zpow_add₀ (by norm_num), zpow_natCast]
    exact mul_le_mul_of_nonneg_right (by exact_mod_cast hhi) hE.le

/-! ### Tininess (R31) -/

theorem away_iff {N w : ℝ} : w ≤ N - 1 ↔ w < N ∧ (N - 1 ≤ w → w = N - 1) :=
  ⟨fun h => ⟨by linarith, fun h' => le_antisymm h h'⟩, fun ⟨_, h⟩ => by
    by_contra h'
    exact absurd (h (not_le.mp h').le) (not_le.mp h').ne'⟩

/-- Tininess in units of half the smallest quantum: the value does not round to the smallest normal number, 2^(fbits + 1) units, or more. -/
theorem tiny_iff_units : f.Tiny md neg v ↔ ¬ ((2 ^ (f.fbits + 1) : ℝ) ≤ v / 2 ^ (f.qmin - 1) ∨
    ((2 ^ (f.fbits + 1) : ℝ) - 1 ≤ v / 2 ^ (f.qmin - 1) ∧
      GoesUp md neg true (2 ^ (f.fbits + 1) - 1) (2 ^ (f.fbits + 1)) (v / 2 ^ (f.qmin - 1)))) := by
  have hnormal : (2 : ℝ) ^ (1 - f.bias : Int) = 2 ^ (f.fbits + 1) * 2 ^ (f.qmin - 1) := by
    rw [← zpow_natCast, ← zpow_add₀ (by norm_num), Fmt.qmin]
    congr 1
    push_cast
    ring
  have hQ : (0 : ℝ) < 2 ^ (f.qmin - 1) := by positivity
  obtain ⟨w, hw⟩ : ∃ w, w = v / 2 ^ (f.qmin - 1) := ⟨_, rfl⟩
  have hv : v = w * 2 ^ (f.qmin - 1) := by rw [hw, div_mul_cancel₀ _ hQ.ne']
  unfold Fmt.Tiny GoesUp
  rw [← hw, hnormal]
  generalize (2 : ℝ) ^ (f.fbits + 1) = N
  generalize (2 : ℝ) ^ (f.qmin - 1) = Q at *
  subst hv
  have hnear : w * Q < N * Q - Q / 2 ↔ w < N - 1 / 2 := by rw [← mul_lt_mul_iff_left₀ hQ (b := w)]; ring_nf
  have hbelow : w * Q ≤ N * Q - Q ↔ w ≤ N - 1 := by rw [← mul_le_mul_iff_left₀ hQ (b := w)]; ring_nf
  have hlt : w * Q < N * Q ↔ w < N := mul_lt_mul_iff_left₀ hQ
  cases md with
  | ne =>
    simp only [hnear]
    constructor
    · rintro h (h1 | ⟨-, -, h1 | ⟨h1, -⟩⟩) <;> linarith
    · intro h
      by_contra hge
      rcases lt_or_ge w N with h1 | h1
      · refine h (.inr ⟨by linarith, by linarith, ?_⟩)
        rcases lt_or_eq_of_le (not_lt.mp hge) with h2 | h2
        · exact .inl (by linarith)
        · exact .inr ⟨by linarith, trivial⟩
      · exact h (.inl h1)
  | tz => simp [hlt]
  | up => cases neg <;> simp [hlt, hbelow, away_iff]
  | dn => cases neg <;> simp [hlt, hbelow, away_iff]

/-- The rounding that decides tininess has the quantum of the value's own binade. -/
theorem tiny_iff (h : Approx m e sticky v) (hm : m ≠ 0) (hs : sticky = true → f.fbits + 1 < bitLen m) :
    (decide (e + bitLen m - 1 - f.fbits < f.qmin) && !(e + bitLen m - 1 - f.fbits == f.qmin - 1 &&
      (roundAt md neg m e sticky (e + bitLen m - 1 - f.fbits)).1 == 2 ^ (f.fbits + 1))) = true ↔ f.Tiny md neg v := by
  obtain ⟨hlo, hhi⟩ := h.binade hm
  have hQ : (0 : ℝ) < 2 ^ (f.qmin - 1) := by positivity
  have hN : ∀ k : Int, (2 : ℝ) ^ (k + f.fbits + 1) = 2 ^ (f.fbits + 1) * 2 ^ k := fun k => by
    rw [← zpow_natCast, ← zpow_add₀ (by norm_num)]
    congr 1
    push_cast
    ring
  rw [tiny_iff_units]
  rcases lt_trichotomy (e + bitLen m - 1 - f.fbits) (f.qmin - 1) with hlt | heq | hgt
  · have hv : v < 2 ^ (f.fbits + 1) * 2 ^ (f.qmin - 1 - 1) := by
      rw [← hN]
      exact lt_of_lt_of_le hhi (zpow_le_zpow_right₀ (by norm_num) (by omega))
    have hw : v / 2 ^ (f.qmin - 1) < 2 ^ f.fbits := by
      rw [div_lt_iff₀ hQ]
      refine hv.trans_eq ?_
      rw [zpow_sub_one₀ (by norm_num) (f.qmin - 1), pow_succ]
      ring
    have h1 : (1 : ℝ) ≤ 2 ^ f.fbits := one_le_pow₀ (by norm_num)
    have hfar : v / 2 ^ (f.qmin - 1) < 2 ^ (f.fbits + 1) - 1 := by rw [pow_succ]; linarith
    rw [decide_eq_true (by omega), Bool.true_and, Bool.not_eq_true', Bool.and_eq_false_iff]
    refine iff_of_true (.inl (beq_eq_false_iff_ne.mpr hlt.ne)) ?_
    rintro (h2 | ⟨h2, -⟩) <;> linarith
  · have hquant : sticky = true → e < e + bitLen m - 1 - f.fbits := fun h' => by have := hs h'; omega
    obtain ⟨j, hj, hj', hround, -⟩ := roundAt_spec (md := md) (neg := neg) h hquant
    rw [heq] at hj hj' hround ⊢
    have hw : v / 2 ^ (f.qmin - 1) < 2 ^ (f.fbits + 1) := by
      rw [div_lt_iff₀ hQ, ← hN]
      exact lt_of_lt_of_le hhi (zpow_le_zpow_right₀ (by norm_num) (by omega))
    have hjN : j + 1 ≤ 2 ^ (f.fbits + 1) := by
      have : (j : ℝ) < (2 ^ (f.fbits + 1) : Nat) := by push_cast; linarith
      exact_mod_cast this
    have htop : (2 ^ (f.fbits + 1) : ℝ) - 1 ≤ v / 2 ^ (f.qmin - 1) ↔ j + 1 = 2 ^ (f.fbits + 1) := by
      constructor
      · intro h1
        have : ((2 ^ (f.fbits + 1) : Nat) : ℝ) < j + 1 + 1 := by push_cast; linarith
        have : 2 ^ (f.fbits + 1) < j + 1 + 1 := by exact_mod_cast this
        omega
      · intro h1
        have : (j : ℝ) + 1 = 2 ^ (f.fbits + 1) := by exact_mod_cast h1
        linarith
    rw [decide_eq_true (by omega), Bool.true_and, beq_self_eq_true, Bool.true_and, Bool.not_eq_true', beq_eq_false_iff_ne, ne_eq, not_iff_not,
      or_iff_right (not_le.mpr hw), htop]
    by_cases hj1 : j + 1 = 2 ^ (f.fbits + 1)
    · have hodd : (j % 2 == 1) = true := by
        rw [Nat.pow_succ] at hj1
        rw [beq_iff_eq]
        omega
      have hjr : (j : ℝ) = 2 ^ (f.fbits + 1) - 1 := by rw [eq_sub_iff_add_eq]; exact_mod_cast hj1
      have hjr' : (j : ℝ) + 1 = 2 ^ (f.fbits + 1) := by exact_mod_cast hj1
      rw [hodd, hjr', hjr, hj1] at hround
      rcases hround with ⟨hup, hr⟩ | ⟨hup, hr⟩
      · simp [hup, hr, hj1]
      · refine iff_of_false ?_ (fun h' => hup h'.2)
        omega
    · refine iff_of_false ?_ (fun h' => hj1 h'.1)
      rcases hround with ⟨-, hr⟩ | ⟨-, hr⟩ <;> omega
  · have hv : 2 ^ (f.fbits + 1) * 2 ^ (f.qmin - 1) ≤ v := by
      rw [← hN]
      exact le_trans (zpow_le_zpow_right₀ (by norm_num) (by omega)) hlo
    have hw : (2 : ℝ) ^ (f.fbits + 1) ≤ v / 2 ^ (f.qmin - 1) := (le_div_iff₀ hQ).mpr hv
    rw [decide_eq_false (by omega)]
    simp [hw]

/-! ### Rounding into a format -/

theorem Fmt.overflow_eq (f : Fmt) (md : RM) (neg : Bool) : f.overflow md neg =
    f.sign neg + (if f.hasInf && (md == .ne || (md == .up && !neg) || (md == .dn && neg)) then f.infCode else f.maxCode) := by
  unfold Fmt.overflow Fmt.inf
  cases f.hasInf <;> cases md <;> cases neg <;> rfl

/-- The quantum of a value in a format: that of its binade, or of the subnormal numbers. -/
def Fmt.quantum (f : Fmt) (m : Nat) (e : Int) : Int := max (e + bitLen m - 1 - f.fbits) f.qmin

/-- The code that a value is rounded to, as if the exponent had no end. -/
def Fmt.roundCode (f : Fmt) (md : RM) (neg : Bool) (m : Nat) (e : Int) (sticky : Bool) : Nat :=
  (f.quantum m e - f.qmin).toNat * 2 ^ f.fbits + (roundAt md neg m e sticky (f.quantum m e)).1

theorem Fmt.round_eq (hm : m ≠ 0) : f.round md neg m e sticky =
    if f.roundCode md neg m e sticky > f.maxCode then ⟨f.overflow md neg, flOF ||| flNX⟩
    else ⟨f.sign neg + f.roundCode md neg m e sticky, flagIf (roundAt md neg m e sticky (f.quantum m e)).2 flNX |||
      flagIf ((roundAt md neg m e sticky (f.quantum m e)).2 &&
        (decide (e + bitLen m - 1 - f.fbits < f.qmin) && !(e + bitLen m - 1 - f.fbits == f.qmin - 1 &&
          (roundAt md neg m e sticky (e + bitLen m - 1 - f.fbits)).1 == 2 ^ (f.fbits + 1)))) flUF⟩ := by
  unfold Fmt.round
  rw [if_neg hm]
  rfl

/-- The lesser neighbour's code d, and the code that the value is rounded to. -/
theorem Fmt.roundCode_spec (h : Approx m e sticky v) (hm : m ≠ 0) (hs : sticky = true → f.fbits + 1 < bitLen m) (hf : 0 < f.fbits) :
    ∃ d : Nat, (f.mag d : ℝ) ≤ v ∧ v < (f.mag (d + 1) : ℝ) ∧
      ((GoesUp md neg (d % 2 == 1) (f.mag d) (f.mag (d + 1)) v ∧ f.roundCode md neg m e sticky = d + 1) ∨
        (¬ GoesUp md neg (d % 2 == 1) (f.mag d) (f.mag (d + 1)) v ∧ f.roundCode md neg m e sticky = d)) ∧
      ((roundAt md neg m e sticky (f.quantum m e)).2 = true ↔ v ≠ (f.mag d : ℝ)) := by
  obtain ⟨hlo, hhi⟩ := h.binade hm
  have hquant : sticky = true → e < f.quantum m e := fun h' => lt_max_of_lt_left (by have := hs h'; omega)
  obtain ⟨j, hj, hj', hround, hix⟩ := roundAt_spec (md := md) (neg := neg) h hquant
  have hmax : e + bitLen m - 1 - f.fbits ≤ f.quantum m e := le_max_left _ _
  have hqmin : f.qmin ≤ f.quantum m e := le_max_right _ _
  obtain ⟨n, hn⟩ : ∃ n : Nat, f.quantum m e = f.qmin + n := ⟨(f.quantum m e - f.qmin).toNat, by omega⟩
  have hQ : (0 : ℝ) < 2 ^ f.quantum m e := by positivity
  have hjtop : j < 2 ^ (f.fbits + 1) := by
    have hv : v / 2 ^ f.quantum m e < (2 ^ (f.fbits + 1) : Nat) := by
      rw [div_lt_iff₀ hQ, Nat.cast_pow, Nat.cast_ofNat, ← zpow_natCast, ← zpow_add₀ (by norm_num)]
      exact lt_of_lt_of_le hhi (zpow_le_zpow_right₀ (by norm_num) (by push_cast; omega))
    exact_mod_cast lt_of_le_of_lt hj hv
  have hjlow : n = 0 ∨ 2 ^ f.fbits ≤ j := by
    rcases Nat.eq_zero_or_pos n with h0 | hpos
    · exact .inl h0
    · have hq : f.quantum m e = e + bitLen m - 1 - f.fbits := by
        rcases max_choice (e + bitLen m - 1 - f.fbits : Int) f.qmin with h1 | h1
        · exact h1
        · exact absurd (hn.symm.trans h1) (by omega)
      have hv : ((2 ^ f.fbits : Nat) : ℝ) ≤ v / 2 ^ f.quantum m e := by
        rw [le_div_iff₀ hQ, Nat.cast_pow, Nat.cast_ofNat, ← zpow_natCast, ← zpow_add₀ (by norm_num), hq]
        refine le_trans (le_of_eq ?_) hlo
        congr 1
        ring
      have : ((2 ^ f.fbits : Nat) : ℝ) < j + 1 := lt_of_le_of_lt hv hj'
      exact .inr (Nat.lt_succ_iff.mp (by exact_mod_cast this))
  have hmag : ∀ i : Nat, i ≤ 2 ^ (f.fbits + 1) → (n = 0 ∨ 2 ^ f.fbits ≤ i) →
      ((f.mag (n * 2 ^ f.fbits + i) : ℚ) : ℝ) = i * 2 ^ f.quantum m e :=
    fun i h1 h2 => by rw [f.mag_eq h1 h2, hn]; push_cast; rfl
  have hd : ((f.mag (n * 2 ^ f.fbits + j) : ℚ) : ℝ) = j * 2 ^ f.quantum m e := hmag j hjtop.le hjlow
  have hd' : ((f.mag (n * 2 ^ f.fbits + j + 1) : ℚ) : ℝ) = (j + 1) * 2 ^ f.quantum m e := by
    rw [Nat.add_assoc, hmag (j + 1) hjtop (hjlow.imp_right fun h => h.trans (Nat.le_succ j))]
    push_cast
    rfl
  have hcode : f.roundCode md neg m e sticky = n * 2 ^ f.fbits + (roundAt md neg m e sticky (f.quantum m e)).1 := by
    rw [Fmt.roundCode]
    congr 3
    omega
  have hodd : (n * 2 ^ f.fbits + j) % 2 = j % 2 := by
    obtain ⟨k, hk⟩ : ∃ k, f.fbits = k + 1 := ⟨f.fbits - 1, by omega⟩
    rw [hk, Nat.pow_succ, ← Nat.mul_assoc, Nat.mul_comm _ 2, Nat.mul_add_mod]
  refine ⟨n * 2 ^ f.fbits + j, ?_, ?_, ?_, ?_⟩
  · rwa [hd, ← le_div_iff₀ hQ]
  · rwa [hd', ← div_lt_iff₀ hQ]
  · rw [hodd, hd, hd', goesUp_scale hQ, hcode]
    exact hround.imp (fun ⟨h1, h2⟩ => ⟨h1, by rw [h2]; rfl⟩) fun ⟨h1, h2⟩ => ⟨h1, by rw [h2]⟩
  · rw [hix, hd, ne_eq, ne_eq, div_eq_iff hQ.ne']

/-- ROUNDING INTO A FORMAT gives what R28 to R31 say. -/
theorem Fmt.round_rounds (h : Approx m e sticky v) (hm : m ≠ 0) (hs : sticky = true → f.fbits + 1 < bitLen m) (hf : 0 < f.fbits) :
    f.Rounds md neg v (f.round md neg m e sticky) := by
  obtain ⟨d, hlo, hhi, hround, hix⟩ := Fmt.roundCode_spec (f := f) (md := md) (neg := neg) h hm hs hf
  have htiny := tiny_iff (f := f) (md := md) (neg := neg) h hm hs
  rw [Fmt.round_eq hm]
  refine ⟨f.roundCode md neg m e sticky, d, hlo, hhi, hround, ?_⟩
  rw [← hix, ← htiny]
  generalize (roundAt md neg m e sticky (f.quantum m e)).2 = ix
  generalize (decide (e + bitLen m - 1 - f.fbits < f.qmin) && _) = tiny
  split
  next hgt =>
    rw [if_neg (not_le.mpr hgt), ← Fmt.overflow_eq]
    have hbits : ∀ j < 5, (flOF ||| flNX).getLsbD j = decide (j = 2 ∨ j = 0) := by decide
    dsimp only
    rw [hbits 4 (by decide), hbits 3 (by decide), hbits 2 (by decide), hbits 1 (by decide), hbits 0 (by decide)]
    exact ⟨rfl, rfl, rfl, iff_of_true rfl hgt, iff_of_false (by decide) fun h' => absurd h'.1 (not_le.mpr hgt), iff_of_true rfl (.inl hgt)⟩
  next hle =>
    rw [if_pos (not_lt.mp hle)]
    refine ⟨rfl, ?_⟩
    have hnot : ¬ f.maxCode < f.roundCode md neg m e sticky := hle
    cases ix <;> cases tiny <;> simp [hnot, not_lt.mp hle, flagIf, flNX, flUF]

/-- The rounding of m × 2^e. -/
theorem Fmt.round_exact (hm : m ≠ 0) (hf : 0 < f.fbits) : f.Rounds md neg (m * 2 ^ e : ℝ) (f.round md neg m e) :=
  Fmt.round_rounds (Approx.exact m e) hm (by simp) hf

end

end Sys2Proof.Machine

/-! ## Exact operations (R27, R31, R37)

The sum, the product and the accumulation of the model are the exact ones of `FpVal`, with their invalid operations (`addFp_value`,
`mulFp_value`, `fmaFp_value`, `accumulate_value`); `Fmt.deliver` rounds them once (`Fmt.deliver_gives`). -/

namespace Sys2Proof.Machine

section

variable {f : Fmt} {md : RM}

/-! ### Delivering a value -/

theorem quanta_eq_zero {m : Nat} {e : Int} : (m : ℚ) * 2 ^ e = 0 ↔ m = 0 := by
  rw [mul_eq_zero, or_iff_left (by positivity), Nat.cast_eq_zero]

/-- A finite value, rounded. -/
theorem Fmt.round_gives (hf : f.Regular) (n : Bool) (m : Nat) (e : Int) : f.Gives md (.num n (m * 2 ^ e)) (f.round md n m e) := by
  refine ⟨fun h0 => ?_, fun hne => ?_⟩
  · rw [Fmt.round, if_pos (quanta_eq_zero.mp h0)]
  · have h := Fmt.round_exact (f := f) (md := md) (neg := n) (e := e) (fun h0 => hne (quanta_eq_zero.mpr h0)) (by have := hf.fbits; omega)
    push_cast
    exact h

/-- A value rounded into a format that has infinities. -/
theorem Fmt.ofFp_gives (hf : f.Regular) (hi : f.hasInf = true) (a : Fp) : f.Gives md (.ofFp a) (f.ofFp md a) := by
  cases a with
  | nan s => rfl
  | inf n => exact if_pos hi
  | fin n m e => exact f.round_gives hf n m e

/-- What an operation gives before rounding: its value, and whether it is invalid, which only a NaN can be. -/
def FpVal.ofOp (p : Fp × Bool) : FpVal :=
  match p.1 with
  | .nan s => .nan (s || p.2)
  | x => .ofFp x

theorem flagIf_or (a b : Bool) (x : FlagSet) : flagIf a x ||| flagIf b x = flagIf (a || b) x := by
  cases a <;> cases b <;> simp [flagIf]

theorem Fmt.deliver_gives (hf : f.Regular) (hi : f.hasInf = true) {p : Fp × Bool} (hp : p.2 = true → p.1.isNan = true) :
    f.Gives md (.ofOp p) (f.deliver md p) := by
  obtain ⟨x, b⟩ := p
  have hvalid : x.isNan = false → f.deliver md (x, b) = f.ofFp md x := fun hx => by
    obtain rfl : b = false := Bool.eq_false_iff.mpr fun h => by rw [hp h] at hx; cases hx
    simp [Fmt.deliver, flagIf]
  cases x with
  | nan s =>
    simp only [Fmt.Gives, FpVal.ofOp, Fmt.deliver, Fmt.ofFp, flagIf_or]
  | inf n => rw [hvalid rfl]; exact f.ofFp_gives hf hi (.inf n)
  | fin n m e => rw [hvalid rfl]; exact f.ofFp_gives hf hi (.fin n m e)

/-! ### The exact operations -/

theorem FpVal.ofFp_negate (a : Fp) : FpVal.ofFp a.negate = (FpVal.ofFp a).negate := by cases a <;> rfl

theorem FpVal.ofFp_scale2 (a : Fp) (k : Int) : FpVal.ofFp (a.scale2 k) = (FpVal.ofFp a).scale k := by
  cases a with
  | nan s => rfl
  | inf n => rfl
  | fin n m e => simp [Fp.scale2, FpVal.ofFp, FpVal.scale, zpow_add₀, mul_assoc]

@[simp] theorem FpVal.isNan_ofFp (a : Fp) : (FpVal.ofFp a).isNan = a.isNan := by cases a <;> rfl

@[simp] theorem FpVal.invalid_ofFp (a : Fp) : (FpVal.ofFp a).invalid = a.isSnan := by cases a <;> rfl

theorem inf_mul_invalid {m : Nat} {n : Bool} (h : (if m = 0 then (Fp.nan false, true) else (Fp.inf n, false)).2 = true) :
    (if m = 0 then (Fp.nan false, true) else (Fp.inf n, false)).1.isNan = true := by
  split at h
  next hm => rw [if_pos hm]; rfl
  next => cases h

theorem mulFp_invalid (a b : Fp) (h : (mulFp a b).2 = true) : (mulFp a b).1.isNan = true := by
  cases a with
  | nan s => cases b <;> rfl
  | inf n =>
    cases b with
    | nan s => rfl
    | inf k => cases h
    | fin k m e => exact inf_mul_invalid h
  | fin n m e =>
    cases b with
    | nan s => rfl
    | inf k => exact inf_mul_invalid h
    | fin k m' e' => cases h

/-- The product is the exact one. -/
theorem mulFp_value (a b : Fp) : FpVal.ofOp (mulFp a b) = (FpVal.ofFp a).mul (.ofFp b) := by
  cases a with
  | nan s => cases b <;> simp [mulFp, FpVal.ofOp, FpVal.ofFp, FpVal.mul, FpVal.invalid, Fp.isSnan]
  | inf n =>
    cases b with
    | nan t => simp [mulFp, FpVal.ofOp, FpVal.ofFp, FpVal.mul, Fp.isSnan]
    | inf k => rfl
    | fin k m e =>
      simp only [mulFp, FpVal.ofFp, FpVal.mul, quanta_eq_zero]
      split <;> rfl
  | fin n m e =>
    cases b with
    | nan t => simp [mulFp, FpVal.ofOp, FpVal.ofFp, FpVal.mul, Fp.isSnan]
    | inf k =>
      simp only [mulFp, FpVal.ofFp, FpVal.mul, quanta_eq_zero]
      split <;> rfl
    | fin k m' e' =>
      simp only [mulFp, FpVal.ofOp, FpVal.ofFp, FpVal.mul, FpVal.num.injEq, true_and]
      rw [zpow_add₀ (by norm_num)]
      push_cast
      ring

/-- An integer at a common exponent. -/
theorem rescale {m : Nat} {e e0 : Int} (h : e0 ≤ e) : ((m * 2 ^ (e - e0).toNat : Nat) : ℚ) * 2 ^ e0 = m * 2 ^ e := by
  have he : (2 : ℚ) ^ e = 2 ^ (e - e0).toNat * 2 ^ e0 := by
    rw [← zpow_natCast, ← zpow_add₀ (by norm_num), Int.toNat_of_nonneg (by omega), sub_add_cancel]
  rw [he]
  push_cast
  ring

/-- An integer times a power of two, as sign and magnitude. -/
theorem FpVal.ofFp_int (t : Int) (e : Int) :
    FpVal.ofFp (.fin (decide (t < 0)) t.natAbs e) = .num (decide ((t : ℚ) * 2 ^ e < 0)) |(t : ℚ) * 2 ^ e| := by
  have hE : (0 : ℚ) < 2 ^ e := by positivity
  have hneg : (t : ℚ) * 2 ^ e < 0 ↔ t < 0 := by rw [← Int.cast_lt_zero (R := ℚ), mul_neg_iff]; simp [hE, hE.not_gt]
  rw [FpVal.ofFp, abs_mul, abs_of_pos hE, Nat.cast_natAbs, Int.cast_abs]
  simp only [hneg]

/-- The exact sum of two numbers. -/
theorem FpVal.sum_num (n1 : Bool) (v1 : ℚ) (n2 : Bool) (v2 : ℚ) : FpVal.sum md [.num n1 v1, .num n2 v2] =
    let t := (FpVal.num n1 v1).signed + (FpVal.num n2 v2).signed
    if t = 0 then .num (md == .dn || (n1 && n2)) 0 else .num (decide (t < 0)) |t| := by
  unfold FpVal.sum
  simp only [List.any_cons, List.any_nil, FpVal.isInf, FpVal.isNan, List.map_cons, List.map_nil, List.sum_cons, List.sum_nil, add_zero, List.all_cons,
    List.all_nil, FpVal.neg, Bool.and_true, Bool.or_self, Bool.and_self, Bool.false_eq_true, if_false]

/-- The sum of two finite values: the exact one, with the sign of an exact zero. -/
theorem addFin_value (n1 : Bool) (m1 : Nat) (e1 : Int) (n2 : Bool) (m2 : Nat) (e2 : Int) :
    FpVal.ofFp (.fin (addFin md n1 m1 e1 n2 m2 e2).1 (addFin md n1 m1 e1 n2 m2 e2).2.1 (addFin md n1 m1 e1 n2 m2 e2).2.2) =
      FpVal.sum md [FpVal.ofFp (.fin n1 m1 e1), FpVal.ofFp (.fin n2 m2 e2)] := by
  have h1 := rescale (m := m1) (min_le_left e1 e2)
  have h2 := rescale (m := m2) (min_le_right e1 e2)
  have z1 : m1 * 2 ^ (e1 - min e1 e2).toNat = 0 → m1 = 0 := fun h => (Nat.mul_eq_zero.mp h).resolve_right (Nat.two_pow_pos _).ne'
  have z2 : m2 * 2 ^ (e2 - min e1 e2).toNat = 0 → m2 = 0 := fun h => (Nat.mul_eq_zero.mp h).resolve_right (Nat.two_pow_pos _).ne'
  unfold addFin
  dsimp only
  generalize m1 * 2 ^ (e1 - min e1 e2).toNat = i1 at *
  generalize m2 * 2 ^ (e2 - min e1 e2).toNat = i2 at *
  generalize min e1 e2 = e at *
  generalize ht : (if n1 = true then -(i1 : Int) else i1) + (if n2 = true then -(i2 : Int) else i2) = t
  have hE : (0 : ℚ) < 2 ^ e := by positivity
  have hsum : (FpVal.num n1 (m1 * 2 ^ e1)).signed + (FpVal.num n2 (m2 * 2 ^ e2)).signed = (t : ℚ) * 2 ^ e := by
    rw [← ht, FpVal.signed, FpVal.signed, ← h1, ← h2]
    push_cast
    rw [add_mul, ite_mul, ite_mul, neg_mul, neg_mul]
  rw [show FpVal.ofFp (.fin n1 m1 e1) = .num n1 (m1 * 2 ^ e1) from rfl, show FpVal.ofFp (.fin n2 m2 e2) = .num n2 (m2 * 2 ^ e2) from rfl,
    FpVal.sum_num, hsum]
  dsimp only
  by_cases h0 : t = 0
  · have hz : (n1 && n2 && m1 == 0 && m2 == 0) = (n1 && n2) := by
      cases n1 <;> cases n2 <;> simp only [Bool.and_self, Bool.and_false, Bool.false_and, Bool.true_and, Bool.and_eq_true, beq_iff_eq]
      rw [h0] at ht
      exact ⟨z1 (by simp at ht; omega), z2 (by simp at ht; omega)⟩
    simp only [h0, hz, if_true, Int.cast_zero, zero_mul, FpVal.ofFp, Nat.cast_zero, Bool.or_comm]
  · have hne : ¬ (t : ℚ) * 2 ^ e = 0 := by simp [h0, hE.ne']
    rw [if_neg h0, if_neg hne]
    exact FpVal.ofFp_int t e

@[simp] theorem FpVal.isNan_nan (v : Bool) : (FpVal.nan v).isNan = true := rfl
@[simp] theorem FpVal.isInf_nan (n v : Bool) : (FpVal.nan v).isInf n = false := rfl
@[simp] theorem FpVal.invalid_nan (v : Bool) : (FpVal.nan v).invalid = v := rfl

theorem FpVal.not_both_inf (x : FpVal) : (x.isInf true && x.isInf false) = false := by
  cases x with
  | nan v => rfl
  | inf n z => cases n <;> rfl
  | num n v => rfl

theorem FpVal.sum_nan_left (v : Bool) (y : FpVal) : FpVal.sum md [.nan v, y] = .nan (v || y.invalid) := by
  unfold FpVal.sum
  simp only [List.any_cons, List.any_nil, Bool.or_false, FpVal.isNan_nan, FpVal.isInf_nan, FpVal.invalid_nan, Bool.false_or, FpVal.not_both_inf,
    Bool.true_or, if_true]

theorem FpVal.sum_nan_right (x : FpVal) (v : Bool) : FpVal.sum md [x, .nan v] = .nan (x.invalid || v) := by
  unfold FpVal.sum
  simp only [List.any_cons, List.any_nil, Bool.or_false, FpVal.isNan_nan, FpVal.isInf_nan, FpVal.invalid_nan, FpVal.not_both_inf,
    Bool.or_true, if_true]

/-- The sum is the exact one. -/
theorem addFp_value (a b : Fp) : FpVal.ofOp (addFp md a b) = FpVal.sum md [.ofFp a, .ofFp b] := by
  cases a with
  | nan s =>
    rw [show FpVal.ofFp (.nan s) = .nan s from rfl, FpVal.sum_nan_left, FpVal.invalid_ofFp]
    cases b <;> rfl
  | inf n =>
    cases b with
    | nan t =>
      rw [show FpVal.ofFp (.nan t) = .nan t from rfl, FpVal.sum_nan_right]
      rfl
    | inf k => cases n <;> cases k <;> rfl
    | fin k m e => cases n <;> rfl
  | fin n m e =>
    cases b with
    | nan t =>
      rw [show FpVal.ofFp (.nan t) = .nan t from rfl, FpVal.sum_nan_right]
      rfl
    | inf k => cases k <;> rfl
    | fin k m' e' => exact addFin_value n m e k m' e'

theorem addFp_invalid (a b : Fp) (h : (addFp md a b).2 = true) : (addFp md a b).1.isNan = true := by
  cases a with
  | nan s => cases b <;> rfl
  | inf n =>
    cases b with
    | nan s => rfl
    | inf k =>
      unfold addFp at *
      dsimp only at *
      split at h
      next => cases h
      next hk => rw [if_neg hk]; rfl
    | fin k m e => cases h
  | fin n m e =>
    cases b with
    | nan s => rfl
    | inf k => cases h
    | fin k m' e' => cases h

theorem mulFp_quiet (a b : Fp) : (mulFp a b).1 ≠ .nan true := by
  unfold mulFp
  split
  case h_4 | h_5 => split <;> simp
  all_goals simp

/-- The product and the sum with one rounding. -/
theorem fmaFp_value (a b c : Fp) : FpVal.ofOp (fmaFp md a b c) = FpVal.sum md [(FpVal.ofFp a).mul (.ofFp b), .ofFp c] := by
  rw [← mulFp_value]
  have hinv := mulFp_invalid a b
  have hquiet := mulFp_quiet a b
  unfold fmaFp
  dsimp only
  generalize mulFp a b = p at *
  obtain ⟨x, i⟩ := p
  cases hx : x.isNan with
  | true =>
    obtain rfl : x = .nan false := by
      cases x with
      | nan s =>
        cases s with
        | false => rfl
        | true => exact absurd rfl hquiet
      | inf n => cases hx
      | fin n m e => cases hx
    rw [if_pos rfl, show FpVal.ofOp (.nan false, i) = .nan i from rfl, FpVal.sum_nan_left, FpVal.invalid_ofFp]
    rfl
  | false =>
    obtain rfl : i = false := Bool.eq_false_iff.mpr fun h => by rw [hinv h] at hx; cases hx
    rw [if_neg (by simp), addFp_value]
    cases x with
    | nan s => cases hx
    | inf n => rfl
    | fin n m e => rfl

theorem fmaFp_invalid (a b c : Fp) (h : (fmaFp md a b c).2 = true) : (fmaFp md a b c).1.isNan = true := by
  unfold fmaFp at *
  dsimp only at *
  split at h
  next hn => rw [if_pos hn]; rfl
  next hn => rw [if_neg hn]; exact addFp_invalid _ _ h

/-! ### Exact sums of many terms (R37, R39) -/

/-- What an accumulator holds of the terms that it was given. -/
structure Acc.Holds (a : Acc) (ts : List FpVal) : Prop where
  nan : a.nan = (ts.any FpVal.isNan || (ts.any (FpVal.isInf true) && ts.any (FpVal.isInf false)))
  invalid : a.invalid = (ts.any FpVal.invalid || (ts.any (FpVal.isInf true) && ts.any (FpVal.isInf false)))
  noInf : a.infs = none → ∀ n, ts.any (FpVal.isInf n) = false
  someInf : ∀ n, a.infs = some n → ts.any (FpVal.isInf n) = true
  sum : (a.n : ℚ) * 2 ^ a.e = (ts.map FpVal.signed).sum
  zeros : a.infs = none → a.nan = false → (a.allNegZero = true ↔ ∀ x ∈ ts, x.neg = true ∧ x.signed = 0)

theorem Acc.holds_zero : Acc.zero.Holds [] where
  nan := rfl
  invalid := rfl
  noInf _ _ := rfl
  someInf _ h := by cases h
  sum := by simp [Acc.zero]
  zeros _ _ := by simp [Acc.zero]

/-- A term that an accumulator is given: only a NaN is invalid, and a signalling one is. -/
structure Term (t : Fp × Bool) : Prop where
  invalid : t.2 = true → t.1.isNan = true
  quiet : t.1.isSnan = true → t.2 = true

theorem Acc.Holds.add {a : Acc} {ts : List FpVal} (h : a.Holds ts) {t : Fp × Bool} (ht : Term t) : (a.add t).Holds (ts ++ [FpVal.ofOp t]) := by
  obtain ⟨x, b⟩ := t
  obtain ⟨hinv, hquiet⟩ := ht
  obtain ⟨h1, h2, h3, h4, h5, h6⟩ := h
  cases x with
  | nan s =>
    have hb : (s || b) = b := Bool.or_eq_right_iff_imp.mpr hquiet
    rw [show FpVal.ofOp (.nan s, b) = .nan (s || b) from rfl, hb]
    exact {
      nan := by simp [Acc.add]
      invalid := by simp [Acc.add, h2, Bool.or_right_comm]
      noInf := fun hi n => by simpa using h3 hi n
      someInf := fun n hi => by simpa using h4 n hi
      sum := by simpa [Acc.add, FpVal.signed] using h5
      zeros := fun _ hn => by cases hn }
  | inf n =>
    rw [show FpVal.ofOp (.inf n, b) = .inf n false from rfl]
    cases hi : a.infs with
    | none =>
      have h3' := h3 hi
      have hadd : a.add (.inf n, b) = { a with infs := some n, allNegZero := false } := by simp only [Acc.add, hi]
      rw [hadd]
      exact {
        nan := by cases n <;> simp [h1, h3', FpVal.isNan, FpVal.isInf]
        invalid := by cases n <;> simp [h2, h3', FpVal.invalid, FpVal.isInf]
        noInf := fun hn => by cases hn
        someInf := fun k hk => by cases hk; simp [FpVal.isInf]
        sum := by simpa [FpVal.signed] using h5
        zeros := fun hn => by cases hn }
    | some k =>
      have hk := h4 k hi
      by_cases hnk : n = k
      · subst hnk
        have hadd : a.add (.inf n, b) = a := by simp only [Acc.add, hi, if_true]
        rw [hadd]
        exact {
          nan := by rw [h1]; cases n <;> simp [hk, FpVal.isNan, FpVal.isInf]
          invalid := by rw [h2]; cases n <;> simp [hk, FpVal.invalid, FpVal.isInf]
          noInf := fun hn => by rw [hi] at hn; cases hn
          someInf := fun k' hk' => by rw [List.any_append, h4 k' hk']; rfl
          sum := by simpa [FpVal.signed] using h5
          zeros := fun hn => by rw [hi] at hn; cases hn }
      · have hadd : a.add (.inf n, b) = { a with nan := true, invalid := true } := by simp only [Acc.add, hi, hnk, if_false]
        have hboth : ((ts ++ [FpVal.inf n false]).any (FpVal.isInf true) && (ts ++ [FpVal.inf n false]).any (FpVal.isInf false)) = true := by
          obtain rfl : k = !n := by cases n <;> cases k <;> simp at hnk ⊢
          cases n <;> simpa [FpVal.isInf] using hk
        rw [hadd]
        exact {
          nan := by rw [hboth, Bool.or_true]
          invalid := by rw [hboth, Bool.or_true]
          noInf := fun hn => by rw [hi] at hn; cases hn
          someInf := fun k' hk' => by rw [List.any_append, h4 k' hk']; rfl
          sum := by simpa [FpVal.signed] using h5
          zeros := fun _ hn => by cases hn }
  | fin n m e =>
    rw [show FpVal.ofOp (.fin n m e, b) = .num n (m * 2 ^ e) from rfl]
    have hq1 : ∀ c : Int, ((c * 2 ^ (a.e - min a.e e).toNat : Int) : ℚ) * 2 ^ min a.e e = c * 2 ^ a.e := fun c => by
      have he : (2 : ℚ) ^ a.e = 2 ^ (a.e - min a.e e).toNat * 2 ^ min a.e e := by
        rw [← zpow_natCast, ← zpow_add₀ (by norm_num), Int.toNat_of_nonneg (by omega), sub_add_cancel]
      rw [he]
      push_cast
      ring
    have hq2 := rescale (m := m) (min_le_right a.e e)
    exact {
      nan := by simp [Acc.add, h1, FpVal.isNan, FpVal.isInf]
      invalid := by simp [Acc.add, h2, FpVal.invalid, FpVal.isInf]
      noInf := fun hi k => by simpa [FpVal.isInf] using h3 hi k
      someInf := fun k hk => by rw [List.any_append, h4 k hk]; rfl
      sum := by
        rw [List.map_append, List.sum_append, ← h5, ← hq1]
        simp only [Acc.add, List.map_cons, List.map_nil, List.sum_cons, List.sum_nil, add_zero, FpVal.signed, ← hq2]
        cases n <;> simp only [Bool.false_eq_true, if_true, if_false] <;> push_cast <;> ring
      zeros := fun hi hn => by
        have hz : (m : ℚ) * 2 ^ e = 0 ↔ m = 0 := quanta_eq_zero
        simp only [Acc.add, Bool.and_eq_true, beq_iff_eq, h6 hi hn, List.mem_append, List.mem_singleton, or_imp, forall_and, forall_eq, FpVal.neg,
          FpVal.signed]
        cases n <;> simp [hz, and_assoc] }

theorem Acc.Holds.foldl {a : Acc} {ts : List FpVal} (h : a.Holds ts) {us : List (Fp × Bool)} (hu : ∀ u ∈ us, Term u) :
    (us.foldl Acc.add a).Holds (ts ++ us.map FpVal.ofOp) := by
  induction us generalizing a ts with
  | nil => simpa using h
  | cons u us ih =>
    have := ih (h.add (hu u (by simp))) fun v hv => hu v (by simp [hv])
    simpa using this

/-- Terms that are all negative and add up to zero are all zero. -/
theorem signed_nonpos {us : List (Fp × Bool)} (hneg : ∀ u ∈ us, (FpVal.ofOp u).neg = true)
    (hsum : ((us.map FpVal.ofOp).map FpVal.signed).sum = 0) :
    ∀ u ∈ us, (FpVal.ofOp u).signed = 0 := by
  have hle : ∀ x ∈ (us.map FpVal.ofOp).map FpVal.signed, x ≤ 0 := by
    intro x hx
    obtain ⟨v, ⟨u, hu, rfl⟩, rfl⟩ : ∃ v, (∃ u ∈ us, FpVal.ofOp u = v) ∧ v.signed = x := by simpa using hx
    have hn := hneg u hu
    obtain ⟨y, b⟩ := u
    cases y with
    | nan s => exact le_rfl
    | inf n => exact le_rfl
    | fin n m e =>
      obtain rfl : n = true := hn
      show -((m : ℚ) * 2 ^ e) ≤ 0
      have : (0 : ℚ) ≤ m * 2 ^ e := by positivity
      linarith
  intro u hu
  exact List.all_zero_of_le_zero_le_of_sum_eq_zero (M := ℚᵒᵈ) hle hsum (List.mem_map_of_mem (List.mem_map_of_mem hu))

/-- WHAT AN ACCUMULATOR GIVES is the exact sum of its terms. -/
theorem accumulate_value {us : List (Fp × Bool)} (hu : ∀ u ∈ us, Term u) :
    FpVal.ofOp ((us.foldl Acc.add Acc.zero).value md) = FpVal.sum md (us.map FpVal.ofOp) ∧
      (((us.foldl Acc.add Acc.zero).value md).2 = true → ((us.foldl Acc.add Acc.zero).value md).1.isNan = true) := by
  have h : (us.foldl Acc.add Acc.zero).Holds (us.map FpVal.ofOp) := by simpa using Acc.holds_zero.foldl hu
  obtain ⟨h1, h2, h3, h4, h5, h6⟩ := h
  generalize us.foldl Acc.add Acc.zero = a at *
  unfold Acc.value FpVal.sum
  dsimp only
  rw [← h1, ← h2, ← h5]
  cases hn : a.nan with
  | true => exact ⟨rfl, fun _ => rfl⟩
  | false =>
    simp only [Bool.false_eq_true, if_false]
    cases hi : a.infs with
    | some n =>
      refine ⟨?_, fun h => by cases h⟩
      have hk := h4 n hi
      cases n with
      | true => rw [hk, if_pos rfl]; rfl
      | false =>
        have hother : (us.map FpVal.ofOp).any (FpVal.isInf true) = false := by
          rw [h1, Bool.or_eq_false_iff, hk, Bool.and_true] at hn
          exact hn.2
        rw [hother, if_neg Bool.false_ne_true, hk, if_pos rfl]
        rfl
    | none =>
      rw [h3 hi true, h3 hi false, if_neg Bool.false_ne_true, if_neg Bool.false_ne_true]
      dsimp only
      have hE : (0 : ℚ) < 2 ^ a.e := by positivity
      by_cases h0 : a.n = 0
      · have hz : a.allNegZero = (us.map FpVal.ofOp).all FpVal.neg := by
          rw [Bool.eq_iff_iff, h6 hi hn, List.all_eq_true]
          refine ⟨fun h x hx => (h x hx).1, fun h x hx => ⟨h x hx, ?_⟩⟩
          obtain ⟨u, hu', rfl⟩ := List.mem_map.mp hx
          refine signed_nonpos (fun v hv => h _ (List.mem_map_of_mem hv)) ?_ u hu'
          rw [← h5, h0, Int.cast_zero, zero_mul]
        rw [if_pos h0, if_pos (by rw [h0, Int.cast_zero, zero_mul]), hz, Bool.or_comm]
        exact ⟨by simp [FpVal.ofOp, FpVal.ofFp], fun h => by cases h⟩
      · rw [if_neg h0, if_neg (by simp [h0, hE.ne'])]
        exact ⟨FpVal.ofFp_int a.n a.e, fun h => by cases h⟩

end

end Sys2Proof.Machine

/-! ## Arithmetic on codes (R31, R42, R123, R125, R127, R128) -/

namespace Sys2Proof.Machine

section

variable {f : Fmt} {md : RM}

/-! ### Results fit their format -/

theorem Fmt.Rounds.bits_lt (hf : f.Regular) {n : Bool} {v : ℝ} {r : FRes} (h : f.Rounds md n v r) : r.bits < 2 * f.signBit := by
  obtain ⟨c, d, -, -, -, hbits, -⟩ := h
  rw [hbits]
  refine f.sign_add_lt n ?_
  have := hf.infCode
  split
  · omega
  · split <;> omega

theorem Fmt.Gives.bits_lt (hf : f.Regular) {x : FpVal} {r : FRes} (h : f.Gives md x r) : r.bits < 2 * f.signBit := by
  cases x with
  | nan v =>
    obtain rfl : r = _ := h
    have := hf.nan_lt
    show f.nan < _
    omega
  | inf n z =>
    obtain rfl : r = _ := h
    exact f.sign_add_lt n hf.infCode.2
  | num n v =>
    obtain ⟨h0, hne⟩ := h
    by_cases hv : v = 0
    · rw [h0 hv]
      simpa using f.sign_add_lt n (c := 0) (Nat.two_pow_pos _)
    · exact (hne hv).bits_lt hf

/-! ### Sums and products -/

theorem Fmt.add_gives (hf : f.Regular) (hi : f.hasInf = true) (a b : Nat) :
    f.Gives md (.sum md [.of f a, .of f b]) (f.add md a b) := by
  rw [← hf.of_unpack, ← hf.of_unpack, ← addFp_value]
  exact Fmt.deliver_gives hf hi (addFp_invalid _ _)

theorem Fmt.sub_gives (hf : f.Regular) (hi : f.hasInf = true) (a b : Nat) :
    f.Gives md (.sum md [.of f a, (FpVal.of f b).negate]) (f.sub md a b) := by
  rw [← hf.of_unpack, ← hf.of_unpack, ← FpVal.ofFp_negate, ← addFp_value]
  exact Fmt.deliver_gives hf hi (addFp_invalid _ _)

theorem Fmt.mul_gives (hf : f.Regular) (hi : f.hasInf = true) (a b : Nat) : f.Gives md ((FpVal.of f a).mul (.of f b)) (f.mul md a b) := by
  rw [← hf.of_unpack, ← hf.of_unpack, ← mulFp_value]
  exact Fmt.deliver_gives hf hi (mulFp_invalid _ _)

theorem Fmt.fma_gives (hf : f.Regular) (hi : f.hasInf = true) (a b c : Nat) :
    f.Gives md (.sum md [(FpVal.of f a).mul (.of f b), .of f c]) (f.fma md a b c) := by
  rw [← hf.of_unpack, ← hf.of_unpack, ← hf.of_unpack, ← fmaFp_value]
  exact Fmt.deliver_gives hf hi (fmaFp_invalid _ _ _)

/-! ### Quotients (R42) -/

/-- A quotient of naturals, cut after sh bits, is known but for less than a unit. -/
theorem Approx.quotient {m1 m2 sh : Nat} (hm2 : m2 ≠ 0) (e : Int) :
    Approx (m1 * 2 ^ sh / m2) (e - sh) (m1 * 2 ^ sh % m2 != 0) ((m1 : ℝ) / m2 * 2 ^ e) := by
  have hm : (0 : ℝ) < m2 := by exact_mod_cast Nat.pos_of_ne_zero hm2
  have hv : (m1 : ℝ) / m2 * 2 ^ e = ((m1 * 2 ^ sh : Nat) : ℝ) / m2 * 2 ^ (e - sh) := by
    rw [zpow_sub₀ (by norm_num), zpow_natCast]
    push_cast
    field_simp
  have hdiv : ((m1 * 2 ^ sh : Nat) : ℝ) = m2 * (m1 * 2 ^ sh / m2 : Nat) + (m1 * 2 ^ sh % m2 : Nat) := by
    exact_mod_cast (Nat.div_add_mod _ _).symm
  have hr : ((m1 * 2 ^ sh % m2 : Nat) : ℝ) < m2 := by exact_mod_cast Nat.mod_lt _ (Nat.pos_of_ne_zero hm2)
  have hE : (0 : ℝ) < 2 ^ (e - sh) := by positivity
  rw [hv]
  generalize ((m1 * 2 ^ sh : Nat) : ℝ) = M at *
  generalize m1 * 2 ^ sh / m2 = q at *
  generalize m1 * 2 ^ sh % m2 = r at *
  have hq : M / m2 = q + r / m2 := by
    rw [hdiv, add_div, mul_div_cancel_left₀ _ hm.ne']
  have hr0 : (0 : ℝ) ≤ r / m2 := by positivity
  have hr1 : (r : ℝ) / m2 < 1 := (div_lt_one hm).mpr hr
  refine ⟨mul_le_mul_of_nonneg_right (by linarith) hE.le, mul_lt_mul_of_pos_right (by linarith) hE, ?_⟩
  rw [bne_iff_ne, ne_eq, ne_eq, mul_left_inj' hE.ne', hq, add_eq_left, div_eq_zero_iff, or_iff_left hm.ne', Nat.cast_eq_zero]

theorem lt_bitLen {m k : Nat} (h : 2 ^ k ≤ m) : k < bitLen m := by
  have hm : m ≠ 0 := (lt_of_lt_of_le (Nat.two_pow_pos k) h).ne'
  exact (Nat.pow_lt_pow_iff_right (by decide)).mp (lt_of_le_of_lt h (bitLen_bounds hm).2.1)

/-- The quotient of two finite values, the divisor not zero. -/
theorem Fmt.round_quotient (hf : f.Regular) (n : Bool) {m1 m2 : Nat} (hm2 : m2 ≠ 0) (e1 e2 : Int) :
    f.Gives md (.num n ((m1 : ℚ) * 2 ^ e1 / (m2 * 2 ^ e2)))
      (f.round md n (m1 * 2 ^ (bitLen m2 + f.fbits + 4) / m2) (e1 - e2 - (bitLen m2 + f.fbits + 4 : Nat))
        (m1 * 2 ^ (bitLen m2 + f.fbits + 4) % m2 != 0)) := by
  have hne : (m2 : ℚ) * 2 ^ e2 ≠ 0 := mt quanta_eq_zero.mp hm2
  refine ⟨fun h0 => ?_, fun hv => ?_⟩
  · obtain rfl : m1 = 0 := quanta_eq_zero.mp ((div_eq_zero_iff.mp h0).resolve_right hne)
    simp [Fmt.round]
  · have hm1 : 1 ≤ m1 := Nat.one_le_iff_ne_zero.mpr fun h => hv (by simp [h])
    have hbig : 2 ^ (f.fbits + 4) ≤ m1 * 2 ^ (bitLen m2 + f.fbits + 4) / m2 := by
      rw [Nat.le_div_iff_mul_le (Nat.pos_of_ne_zero hm2), Nat.add_assoc, Nat.pow_add 2 (bitLen m2), ← Nat.mul_assoc, Nat.mul_comm]
      exact Nat.mul_le_mul_right _ ((bitLen_bounds hm2).2.1.le.trans (Nat.le_mul_of_pos_left _ hm1))
    have hlen := lt_bitLen hbig
    have h := Fmt.round_rounds (f := f) (md := md) (neg := n) (Approx.quotient (m1 := m1) (sh := bitLen m2 + f.fbits + 4) hm2 (e1 - e2))
      (fun h0 => by rw [h0] at hbig; exact absurd hbig (by simp)) (fun _ => by omega) (by have := hf.fbits; omega)
    have hval : (((m1 : ℚ) * 2 ^ e1 / (m2 * 2 ^ e2) : ℚ) : ℝ) = (m1 : ℝ) / m2 * 2 ^ (e1 - e2) := by
      push_cast
      rw [zpow_sub₀ (by norm_num)]
      field_simp
    rwa [hval]

theorem Fmt.div_gives (hf : f.Regular) (a b : Nat) : f.Gives md ((FpVal.of f a).div (.of f b)) (f.div md a b) := by
  rw [← hf.of_unpack, ← hf.of_unpack]
  unfold Fmt.div
  generalize f.unpack a = x
  generalize f.unpack b = y
  cases x with
  | nan s =>
    show _ = _
    rw [FpVal.invalid_ofFp]
  | inf n =>
    cases y with
    | nan t => exact congrArg (fun v => FRes.mk f.nan (flagIf v flNV)) (Bool.or_false t)
    | inf k => rfl
    | fin k m2 e2 => rfl
  | fin n m1 e1 =>
    cases y with
    | nan t => exact congrArg (fun v => FRes.mk f.nan (flagIf v flNV)) (Bool.or_false t)
    | inf k => exact ⟨fun _ => rfl, fun h => absurd rfl h⟩
    | fin k m2 e2 =>
      simp only [FpVal.ofFp, FpVal.div, quanta_eq_zero]
      by_cases hm2 : m2 = 0
      · rw [if_pos hm2, if_pos hm2]
        split <;> rfl
      · rw [if_neg hm2, if_neg hm2]
        exact Fmt.round_quotient hf _ hm2 e1 e2

/-! ### Square roots (R42) -/

theorem isqrtGo_spec (k : Nat) {x r : Nat} (hlo : r * r ≤ x) (hhi : x < (r + 2 ^ k) * (r + 2 ^ k)) :
    isqrtGo k x r * isqrtGo k x r ≤ x ∧ x < (isqrtGo k x r + 1) * (isqrtGo k x r + 1) := by
  induction k generalizing r with
  | zero => exact ⟨hlo, hhi⟩
  | succ k ih =>
    rw [isqrtGo]
    split
    next h => exact ih h (by rw [Nat.pow_succ, Nat.mul_two, ← Nat.add_assoc] at hhi; exact hhi)
    next h => exact ih hlo (not_le.mp h)

theorem isqrt_spec (x : Nat) : isqrt x * isqrt x ≤ x ∧ x < (isqrt x + 1) * (isqrt x + 1) := by
  refine isqrtGo_spec _ (Nat.zero_le x) ?_
  rcases Nat.eq_zero_or_pos x with rfl | hpos
  · exact Nat.mul_pos (by simp) (by simp)
  · refine lt_of_lt_of_le (bitLen_bounds hpos.ne').2.1 ?_
    rw [Nat.zero_add, ← Nat.pow_add]
    exact Nat.pow_le_pow_right (by decide) (by omega)

/-- The square root of an integer is known but for less than a unit. -/
theorem Approx.isqrt (x : Nat) (h : Int) : Approx (isqrt x) h (isqrt x * isqrt x != x) (Real.sqrt (x * 2 ^ (2 * h))) := by
  obtain ⟨hlo, hhi⟩ := isqrt_spec x
  have hH : (0 : ℝ) < 2 ^ h := by positivity
  have hs : Real.sqrt (x * 2 ^ (2 * h)) = Real.sqrt x * 2 ^ h := by
    rw [Real.sqrt_mul (Nat.cast_nonneg x), two_mul, zpow_add₀ (by norm_num), Real.sqrt_mul_self hH.le]
  rw [hs]
  generalize Sys2Proof.Machine.isqrt x = r at *
  have h1 : (r : ℝ) ≤ Real.sqrt x := Real.le_sqrt_of_sq_le (by rw [sq]; exact_mod_cast hlo)
  have h2 : Real.sqrt x < r + 1 := (Real.sqrt_lt' (by positivity)).mpr (by rw [sq]; exact_mod_cast hhi)
  refine ⟨mul_le_mul_of_nonneg_right h1 hH.le, mul_lt_mul_of_pos_right h2 hH, ?_⟩
  rw [bne_iff_ne, ne_eq, ne_eq, mul_left_inj' hH.ne', Real.sqrt_eq_iff_mul_self_eq (Nat.cast_nonneg x) (Nat.cast_nonneg r), not_iff_not]
  exact ⟨fun h => by exact_mod_cast h.symm, fun h => by exact_mod_cast h.symm⟩

theorem bitLen_isqrt {x k : Nat} (h : 2 ^ (2 * k) ≤ x) : k < bitLen (isqrt x) := by
  refine lt_bitLen (Nat.lt_succ_iff.mp (lt_of_pow_lt_pow_left₀ 2 (Nat.zero_le _) ?_))
  rw [← Nat.pow_mul, Nat.mul_comm, sq]
  exact lt_of_le_of_lt h (isqrt_spec x).2

theorem Fmt.sqrt_root (hf : f.Regular) (a : Nat) : f.Root md (.of f a) (f.sqrt md a) := by
  rw [← hf.of_unpack]
  unfold Fmt.sqrt
  generalize f.unpack a = x
  cases x with
  | nan s => rfl
  | inf n => cases n <;> simp [Fmt.Root, FpVal.ofFp, Fmt.inf, Fmt.sign]
  | fin n m e =>
    by_cases hm : m = 0
    · refine ⟨fun _ => if_pos hm, fun h => absurd (quanta_eq_zero.mpr hm) h, fun h => absurd (quanta_eq_zero.mpr hm) h⟩
    · refine ⟨fun h => absurd (quanta_eq_zero.mp h) hm, fun _ hn => by simp [hm, hn], fun _ hn => ?_⟩
      simp only [hm, hn, if_false, Bool.false_eq_true]
      have hx : ((m * 2 ^ e : ℚ) : ℝ) = (m * 2 ^ (2 * (f.fbits + 4) + (e % 2).toNat) : Nat) *
          2 ^ (2 * ((e - (2 * (f.fbits + 4) + (e % 2).toNat : Nat)) / 2)) := by
        have he : 2 * ((e - (2 * (f.fbits + 4) + (e % 2).toNat : Nat)) / 2) = e - (2 * (f.fbits + 4) + (e % 2).toNat : Nat) := by omega
        rw [he, zpow_sub₀ (by norm_num), zpow_natCast]
        push_cast
        field_simp
      have hlen : f.fbits + 4 < bitLen (isqrt (m * 2 ^ (2 * (f.fbits + 4) + (e % 2).toNat))) := bitLen_isqrt (by
        rw [Nat.pow_add]
        exact (Nat.le_mul_of_pos_right _ (Nat.two_pow_pos _)).trans (Nat.le_mul_of_pos_left _ (Nat.pos_of_ne_zero hm)))
      rw [hx]
      exact Fmt.round_rounds (Approx.isqrt _ _) (fun h0 => by rw [h0] at hlen; exact absurd hlen (by simp [bitLen])) (fun _ => by omega)
        (by have := hf.fbits; omega)

end

end Sys2Proof.Machine

/-! ## FRND, FSCALE and FDOT (R125, R127, R128), and all of floating-point arithmetic -/

namespace Sys2Proof.Machine

section

variable {f : Fmt} {md : RM} {n : Bool}

/-! ### Exact results -/

/-- A magnitude of the format rounds to itself, without a flag. -/
theorem Fmt.Rounds.exact {c : Nat} (hc : c ≤ f.maxCode) {r : FRes} (h : f.Rounds md n (f.mag c : ℚ) r) : r = ⟨f.sign n + c, 0⟩ := by
  obtain ⟨c', d, hlo, hhi, hround, hbits, h4, h3, h2, h1, h0⟩ := h
  have hlo' : d ≤ c := f.mag_strictMono.le_iff_le.mp (by exact_mod_cast hlo)
  have hhi' : c < d + 1 := f.mag_strictMono.lt_iff_lt.mp (by exact_mod_cast hhi)
  obtain rfl : d = c := by omega
  obtain rfl : c' = d := by
    rcases hround with ⟨hup, -⟩ | ⟨-, h⟩
    · exact absurd hup not_goesUp_self
    · exact h
  rw [if_pos hc] at hbits
  obtain ⟨bits, fl⟩ := r
  obtain rfl : bits = _ := hbits
  have hmax : ¬ f.maxCode < c' := not_lt.mpr hc
  simp only [hmax, ne_eq, not_true_eq_false, false_and, and_false, or_self, iff_false, Bool.not_eq_true] at h2 h1 h0
  congr 1
  refine BitVec.eq_of_getLsbD_eq fun i hi => ?_
  interval_cases i
  exacts [h0, h1, h2, h3, h4]

/-- The integers up to 2^fbits are magnitudes of the format. -/
theorem Fmt.Regular.mag_integer (hf : f.Regular) {k : Nat} (hk : k ≤ 2 ^ f.fbits) : ∃ c ≤ f.maxCode, f.mag c = k := by
  have hb := hf.bias_pos
  have htop : f.mag ((f.bias + f.fbits) * 2 ^ f.fbits) = (2 ^ f.fbits : Nat) := by
    have h := f.mag_eq (n := f.bias + f.fbits - 1) (j := 2 ^ f.fbits) (Nat.pow_le_pow_right (by decide) (by omega)) (.inr le_rfl)
    rw [← Nat.succ_mul, show (f.bias + f.fbits - 1).succ = f.bias + f.fbits by omega] at h
    rw [h, Fmt.qmin, show (1 - (f.bias : Int) - f.fbits + (f.bias + f.fbits - 1 : Nat)) = 0 by omega, zpow_zero, mul_one]
  suffices h : ∃ c, f.mag c = k by
    obtain ⟨c, hc⟩ := h
    refine ⟨c, le_trans (f.mag_strictMono.le_iff_le.mp ?_) hf.integers, hc⟩
    rw [hc, htop]
    exact_mod_cast hk
  rcases Nat.eq_zero_or_pos k with rfl | hpos
  · exact ⟨0, by simp⟩
  obtain ⟨hlo, hhi, hlen⟩ := bitLen_bounds hpos.ne'
  -- k × 2^s has the format's fbits + 1 bits
  obtain ⟨s, hs⟩ : ∃ s, bitLen k + s = f.fbits + 1 := by
    have : bitLen k ≤ f.fbits + 1 := by
      by_contra h
      have h1 : 2 ^ (f.fbits + 1) ≤ k := le_trans (Nat.pow_le_pow_right (by decide) (by omega)) hlo
      rw [Nat.pow_succ] at h1
      have := Nat.two_pow_pos f.fbits
      omega
    exact ⟨f.fbits + 1 - bitLen k, by omega⟩
  refine ⟨(f.bias + f.fbits - 1 - s) * 2 ^ f.fbits + k * 2 ^ s, ?_⟩
  rw [f.mag_eq, Fmt.qmin]
  · have he : (1 - (f.bias : Int) - f.fbits + (f.bias + f.fbits - 1 - s : Nat)) = -(s : Int) := by omega
    rw [he, zpow_neg, zpow_natCast]
    push_cast
    field_simp
  · rw [← hs, Nat.pow_add]
    exact Nat.mul_le_mul_right _ hhi.le
  · refine .inr ?_
    rw [show f.fbits = bitLen k - 1 + s by omega, Nat.pow_add]
    exact Nat.mul_le_mul_right _ hlo

/-- A finite value of the format that is no integer is less than 2^fbits. -/
theorem Fmt.mag_lt_of_ne_integer {c : Nat} (h : ∀ k : Nat, f.mag c ≠ k) : f.mag c < (2 ^ f.fbits : Nat) := by
  obtain ⟨i, j, rfl, hj, hi⟩ := f.exists_quanta c
  rw [f.mag_eq hj.le hi] at *
  have hneg : f.qmin + i < 0 := by
    by_contra hge
    obtain ⟨p, hp⟩ := Int.eq_ofNat_of_zero_le (not_lt.mp hge)
    exact h (j * 2 ^ p) (by rw [hp, zpow_natCast]; push_cast; rfl)
  have hhalf : (2 : ℚ) ^ (f.qmin + i) ≤ 2 ^ (-1 : Int) := zpow_le_zpow_right₀ (by norm_num) (by omega)
  have hj' : (j : ℚ) < 2 ^ f.fbits * 2 := by rw [← pow_succ]; exact_mod_cast hj
  have hp : (0 : ℚ) < 2 ^ (f.qmin + i) := by positivity
  rw [zpow_neg_one] at hhalf
  push_cast
  nlinarith

/-! ### FRND -/

/-- The magnitude of `Fp.toInt` is the rounded one. -/
theorem toInt_natAbs (m : Nat) (e : Int) : (Fp.toInt md n m e).1.natAbs = (roundAt md n m e false 0).1 := by
  simp only [Fp.toInt, roundAt, sub_zero, zero_sub]
  split <;> simp

theorem toInt_inexact (m : Nat) (e : Int) : (Fp.toInt md n m e).2 = (roundAt md n m e false 0).2 := by
  simp only [Fp.toInt, roundAt, sub_zero, zero_sub]

/-- `Fp.toInt` gives the integer that a value rounds to, and whether it is another number. -/
theorem toInt_roundsTo (m : Nat) (e : Int) : RoundsTo md n (m * 2 ^ e : ℝ) (Fp.toInt md n m e).1.natAbs ∧
    ((Fp.toInt md n m e).2 = true ↔ (m : ℚ) * 2 ^ e ≠ ((Fp.toInt md n m e).1.natAbs : ℚ)) := by
  obtain ⟨j, hlo, hhi, hround, hix⟩ := roundAt_spec (md := md) (neg := n) (Approx.exact m e) (q := 0) (by simp)
  rw [zpow_zero, div_one] at *
  rw [toInt_natAbs, toInt_inexact, hix]
  refine ⟨⟨j, hlo, hhi, hround⟩, not_congr ?_⟩
  have hcast : ∀ k : Nat, (m : ℚ) * 2 ^ e = k ↔ (m : ℝ) * 2 ^ e = k := fun k => by
    rw [← Rat.cast_inj (α := ℝ)]
    push_cast
    rfl
  rw [hcast]
  rcases hround with ⟨hup, h⟩ | ⟨-, h⟩ <;> rw [h]
  refine iff_of_false hup.1 ?_
  push_cast
  exact hhi.ne

/-- An integer rounds to itself. -/
theorem RoundsTo.of_integer {i k : Nat} (h : RoundsTo md n (i : ℝ) k) : k = i := by
  obtain ⟨j, hlo, hhi, hround⟩ := h
  obtain rfl : j = i := le_antisymm (by exact_mod_cast hlo) (Nat.lt_succ_iff.mp (by exact_mod_cast hhi))
  rcases hround with ⟨hup, -⟩ | ⟨-, h⟩
  · exact absurd hup not_goesUp_self
  · exact h

theorem RoundsTo.le_of_lt {v : ℝ} {i k : Nat} (h : RoundsTo md n v k) (hv : v < i) : k ≤ i := by
  obtain ⟨j, hlo, -, hround⟩ := h
  have hj : j < i := by exact_mod_cast lt_of_le_of_lt hlo hv
  rcases hround with ⟨-, h⟩ | ⟨-, h⟩ <;> omega

/-- What a magnitude of the format rounds to is one too. -/
theorem Fmt.Regular.mag_of_roundsTo (hf : f.Regular) {c k : Nat} (hc : c ≤ f.maxCode) (h : RoundsTo md n (f.mag c : ℚ) k) :
    ∃ c ≤ f.maxCode, f.mag c = k := by
  by_cases hint : ∃ i : Nat, f.mag c = i
  · obtain ⟨i, hi⟩ := hint
    rw [hi, Rat.cast_natCast] at h
    exact ⟨c, hc, by rw [hi, h.of_integer]⟩
  · have hlt := Fmt.mag_lt_of_ne_integer (not_exists.mp hint)
    exact hf.mag_integer (h.le_of_lt (by exact_mod_cast hlt))

theorem Fmt.frnd_integral (hf : f.Regular) {x : Nat} (hx : x < 2 * f.signBit) : f.Integral md x (frndOne md f x) := by
  have hof := hf.of_unpack x
  unfold Fmt.Integral frndOne
  rw [← hof]
  generalize f.unpack x = u at hof ⊢
  cases u with
  | nan s => rfl
  | inf k => rfl
  | fin k m e =>
    obtain ⟨hcode, hmax, hmag⟩ := FpVal.code_of_num hx hof.symm
    simp only [FpVal.ofFp]
    by_cases hm : m = 0
    · subst hm
      refine ⟨0, 0, ⟨0, by simp, by simp, .inr ⟨by simp [GoesUp], rfl⟩⟩, Nat.zero_le _, by simp, ?_⟩
      have h0 : x % f.signBit = 0 := by rw [← Fmt.mag_eq_zero (f := f), ← hmag]; simp
      rw [h0] at hcode
      simp [flagIf, ← hcode]
    · obtain ⟨hround, hix⟩ := toInt_roundsTo (md := md) (n := k) m e
      rw [if_neg hm]
      generalize Fp.toInt md k m e = t at *
      obtain ⟨c, hc, hck⟩ := hf.mag_of_roundsTo hmax (by rw [← hmag]; push_cast; exact hround)
      refine ⟨t.1.natAbs, c, by push_cast; exact hround, hc, hck, ?_⟩
      have hix' : t.2 = decide ((m : ℚ) * 2 ^ e ≠ (t.1.natAbs : ℚ)) := by rw [← Bool.coe_iff_coe, hix, decide_eq_true_iff]
      rw [hix']
      congr 1
      by_cases hk : t.1.natAbs = 0
      · rw [hk] at hck ⊢
        have : c = 0 := by rw [← Fmt.mag_eq_zero (f := f), hck]; simp
        simp [Fmt.round, this]
      · have h := Fmt.round_exact (f := f) (md := md) (neg := k) (e := 0) hk (by have := hf.fbits; omega)
        rw [zpow_zero, mul_one] at h
        rw [Fmt.Rounds.exact hc (r := f.round md k t.1.natAbs 0) (by rw [hck]; push_cast at h ⊢; exact h)]

/-! ### FSCALE -/

theorem Fmt.unpack_fin {x m : Nat} {e : Int} (h : f.unpack x = .fin n m e) :
    m < 2 ^ (f.fbits + 1) ∧ f.qmin ≤ e ∧ e ≤ f.qmin + (2 ^ f.ebits : Nat) ∧ (m < 2 ^ f.fbits → e = f.qmin) := by
  have hfrac := Nat.mod_lt (x % f.signBit) (Nat.two_pow_pos f.fbits)
  have hex : x % f.signBit / 2 ^ f.fbits < 2 ^ f.ebits := by
    rw [Nat.div_lt_iff_lt_mul (Nat.two_pow_pos _), ← f.signBit_eq]
    exact Nat.mod_lt _ (Nat.two_pow_pos _)
  have hpow : 2 ^ (f.fbits + 1) = 2 ^ f.fbits * 2 := Nat.pow_succ _ _
  rw [hpow]
  unfold Fmt.unpack at h
  dsimp only at h
  generalize x % f.signBit % 2 ^ f.fbits = r at *
  generalize x % f.signBit / 2 ^ f.fbits = q at *
  generalize 2 ^ f.ebits = E at *
  have hfin : ∀ {b : Bool}, (if q = 0 then Fp.fin b r f.qmin else .fin b (r + 2 ^ f.fbits) (f.qmin + (q - 1 : Nat))) = .fin n m e →
      m < 2 ^ f.fbits * 2 ∧ f.qmin ≤ e ∧ e ≤ f.qmin + (E : Nat) ∧ (m < 2 ^ f.fbits → e = f.qmin) := by
    intro b hb
    split at hb <;> cases hb <;> omega
  split at h
  · split at h
    · split at h <;> cases h
    · exact hfin h
  · split at h
    · cases h
    · exact hfin h

theorem roundShift_small {m sh : Nat} (hm : m ≠ 0) (h : m < 2 ^ (sh - 1)) :
    roundShift md n m sh false = ((roundAway md n false .lt).toNat, true) := by
  have hsh : sh ≠ 0 := by
    rintro rfl
    rw [Nat.zero_sub, Nat.pow_zero] at h
    omega
  have hlt : m < 2 ^ sh := lt_of_lt_of_le h (Nat.pow_le_pow_right (by decide) (Nat.sub_le _ _))
  unfold roundShift
  rw [if_neg hsh]
  simp only [Nat.div_eq_of_lt hlt, Nat.mod_eq_of_lt hlt, hm, h, decide_false, Bool.false_and, Bool.false_eq_true, if_false, if_true]
  cases md <;> cases n <;> rfl

/-- A value so small that its binade lies below half the smallest quantum: how it rounds depends on the mode alone. -/
theorem Fmt.round_small (hf : f.Regular) {m : Nat} {e : Int} (hm : m ≠ 0) (h : e + bitLen m < f.qmin) :
    f.round md n m e = ⟨f.sign n + (roundAway md n false .lt).toNat, flNX ||| flUF⟩ := by
  obtain ⟨-, hlt, hpos⟩ := bitLen_bounds hm
  have hq : f.quantum m e = f.qmin := max_eq_right (by omega)
  have hat : roundAt md n m e false f.qmin = ((roundAway md n false .lt).toNat, true) := by
    rw [roundAt, Int.toNat_eq_zero.mpr (by omega : e - f.qmin ≤ 0), Nat.pow_zero, Nat.mul_one]
    exact roundShift_small hm (lt_of_lt_of_le hlt (Nat.pow_le_pow_right (by decide) (by omega)))
  have hcode : f.roundCode md n m e false = (roundAway md n false .lt).toNat := by
    rw [Fmt.roundCode, hq, hat, sub_self]
    simp
  have hmax : ¬ f.roundCode md n m e false > f.maxCode := by
    rw [hcode, not_lt]
    exact (Bool.toNat_le _).trans (le_trans (Nat.mul_pos (by have := hf.bias_pos; omega) (Nat.two_pow_pos _)) hf.integers)
  rw [Fmt.round_eq hm, if_neg hmax, hcode, hq, hat]
  have htiny : (decide (e + bitLen m - 1 - f.fbits < f.qmin) && !(e + bitLen m - 1 - f.fbits == f.qmin - 1 &&
      (roundAt md n m e false (e + bitLen m - 1 - f.fbits)).1 == 2 ^ (f.fbits + 1))) = true := by
    rw [decide_eq_true (by omega), beq_eq_false_iff_ne.mpr (by omega)]
    rfl
  rw [htiny]
  rfl

/-- A value so great that it overflows. -/
theorem Fmt.round_large (hf : f.Regular) {m : Nat} {e : Int} (hm : m ≠ 0) (h : f.qmin + (2 ^ f.ebits : Nat) + f.fbits < e + bitLen m) :
    f.round md n m e = ⟨f.overflow md n, flOF ||| flNX⟩ := by
  rw [Fmt.round_eq hm, if_pos]
  have hq : 2 ^ f.ebits ≤ (f.quantum m e - f.qmin).toNat := by
    have : e + bitLen m - 1 - f.fbits ≤ f.quantum m e := le_max_left _ _
    omega
  have hcode : f.signBit ≤ f.roundCode md n m e false := by
    rw [f.signBit_eq, Fmt.roundCode]
    exact (Nat.mul_le_mul_right _ hq).trans (Nat.le_add_right _ _)
  exact lt_of_lt_of_le hf.maxCode_lt hcode

/-- Beyond 8192 binades more or less make no difference to a finite value's rounding. -/
theorem Fmt.round_clamp (hf : f.Regular) {m : Nat} {e : Int} (hm : m ≠ 0) (hlt : m < 2 ^ (f.fbits + 1)) (hlo : f.qmin ≤ e)
    (hhi : e ≤ f.qmin + (2 ^ f.ebits : Nat)) (k : Int) : f.round md n m (e + clampInt (-8192) 8192 k) = f.round md n m (e + k) := by
  have hr := hf.range
  obtain ⟨hbit, -, hpos⟩ := bitLen_bounds hm
  have hlen : bitLen m < f.fbits + 2 := by
    have := (Nat.pow_lt_pow_iff_right (a := 2) (by decide)).mp (lt_of_le_of_lt hbit hlt)
    omega
  unfold clampInt
  generalize hE : 2 ^ f.ebits = E at *
  split
  · rw [Fmt.round_small hf hm (by omega), Fmt.round_small hf hm (by omega)]
  · split
    · rw [Fmt.round_large hf hm (by rw [hE]; omega), Fmt.round_large hf hm (by rw [hE]; omega)]
    · rfl

theorem Fmt.fscale_gives (hf : f.Regular) {x : Nat} (hx : x < 2 * f.signBit) (k : Int) :
    f.Gives md ((FpVal.of f x).scale k) (fscaleOne md k f x) := by
  have hof := hf.of_unpack x
  unfold fscaleOne
  rw [← hof, ← FpVal.ofFp_scale2]
  cases hu : f.unpack x with
  | nan s => rfl
  | inf i =>
    rw [hu] at hof
    exact congrArg (FRes.mk · 0) (FpVal.code_of_inf hx hof.symm).1
  | fin i m e =>
    obtain ⟨hlt, hlo, hhi, -⟩ := Fmt.unpack_fin hu
    by_cases hm : m = 0
    · subst hm
      rw [hu] at hof
      obtain ⟨hcode, -, hmag⟩ := FpVal.code_of_num hx hof.symm
      have h0 : x % f.signBit = 0 := by rw [← Fmt.mag_eq_zero (f := f), ← hmag]; simp
      rw [h0] at hcode
      have := f.round_gives (md := md) hf i 0 (e + k)
      rwa [Fmt.round, if_pos rfl, ← Nat.add_zero (f.sign i), ← hcode] at this
    · simp only [hm, if_false, Fmt.round_clamp hf hm hlt hlo hhi]
      exact f.round_gives hf i m (e + k)

/-! ### FDOT -/

theorem term_mulFp (a b : Fp) : Term (mulFp a b) where
  invalid := mulFp_invalid a b
  quiet h := by
    have := mulFp_quiet a b
    cases hp : (mulFp a b).1 with
    | nan s =>
      rw [hp] at h this
      exact absurd (congrArg Fp.nan h) this
    | inf i => rw [hp] at h; cases h
    | fin i m e => rw [hp] at h; cases h

theorem term_self (a : Fp) : Term (a, a.isSnan) where
  invalid h := by
    cases a with
    | nan s => rfl
    | inf i => cases h
    | fin i m e => cases h
  quiet := id

theorem FpVal.ofOp_self (a : Fp) : FpVal.ofOp (a, a.isSnan) = .ofFp a := by
  cases a with
  | nan s => exact congrArg FpVal.nan (Bool.or_self s)
  | inf i => rfl
  | fin i m e => rfl

/-- FDOT's one result. -/
def fdotOne (ty : Ty) (md : RM) (a b c : Word) : FRes :=
  fmt32.deliver md (((List.range ty.count).map fun i => mulFp ((Ty.fm ty).unpack (sub ty a i)) ((Ty.fm ty).unpack (sub ty b i))).foldl Acc.add
    (Acc.zero.add (fmt32.unpack (sub .f32 c 0), (fmt32.unpack (sub .f32 c 0)).isSnan)) |>.value md)

theorem fdot_gives {ty : Ty} (h : (Ty.fm ty).Regular) (a b c : Word) : fmt32.Gives md (.sum md (.of fmt32 (sub .f32 c 0) ::
    (List.range ty.count).map fun k => (FpVal.of (Ty.fm ty) (sub ty a k)).mul (.of (Ty.fm ty) (sub ty b k)))) (fdotOne ty md a b c) := by
  have hf : fmt32.Regular := (fmt_regular (ty := .f32) rfl).1
  obtain ⟨hval, hinv⟩ := accumulate_value (md := md)
    (us := (fmt32.unpack (sub .f32 c 0), (fmt32.unpack (sub .f32 c 0)).isSnan) ::
      (List.range ty.count).map fun i => mulFp ((Ty.fm ty).unpack (sub ty a i)) ((Ty.fm ty).unpack (sub ty b i))) (by
    simp only [List.mem_cons, List.mem_map, forall_eq_or_imp, forall_exists_index, and_imp, forall_apply_eq_imp_iff₂]
    exact ⟨term_self _, fun i _ => term_mulFp _ _⟩)
  have hsum := Fmt.deliver_gives (md := md) hf rfl hinv
  rw [hval] at hsum
  simp only [List.map_cons, List.map_map, Function.comp_def, FpVal.ofOp_self, mulFp_value, hf.of_unpack, h.of_unpack] at hsum
  exact hsum

theorem packF_f32 {r : FRes} (h : r.bits < 2 ^ 32) : packF .f32 [r] = (BitVec.ofNat 64 r.bits, r.fl) := by
  have hp : packAt 32 [r.bits] = r.bits := by rw [packAt, packAt, Nat.mod_eq_of_lt h, Nat.mul_zero, Nat.add_zero]
  simp [packF, packSub, Ty.width, hp]

theorem valFdot_eq {ty : Ty} (h : (Ty.fm ty).Regular) (a b c : Word) :
    valFdot ty md a b c = packF .f32 ((List.range (Ty.count .f32)).map fun _ => fdotOne ty md a b c) := by
  have hb := (fdot_gives (md := md) h a b c).bits_lt (fmt_regular (ty := .f32) rfl).1
  rw [show (List.range (Ty.count .f32)).map (fun _ => fdotOne ty md a b c) = [fdotOne ty md a b c] from rfl, packF_f32 hb]
  simp only [valFdot, fdotOne, List.foldl_map, sub, Nat.mul_zero, Nat.pow_zero, Nat.div_one]
  rfl

/-! ### All of floating-point arithmetic -/

theorem Fmt.Root.bits_lt (hf : f.Regular) {x : FpVal} {r : FRes} (h : f.Root md x r) : r.bits < 2 * f.signBit := by
  have hnan := hf.nan_lt
  have hinf := hf.infCode.2
  cases x with
  | nan v =>
    obtain rfl : r = _ := h
    show f.nan < _
    omega
  | inf i z =>
    obtain rfl : r = _ := h
    cases i
    · show f.infCode < _
      omega
    · show f.nan < _
      omega
  | num i v =>
    obtain ⟨h0, hneg, hpos⟩ := h
    by_cases hv : v = 0
    · rw [h0 hv]
      simpa using f.sign_add_lt i (c := 0) (Nat.two_pow_pos _)
    · cases i
      · exact (hpos hv rfl).bits_lt hf
      · rw [hneg hv rfl]
        show f.nan < _
        omega

theorem Fmt.Integral.bits_lt (hf : f.Regular) {x : Nat} (hx : x < 2 * f.signBit) {r : FRes} (h : f.Integral md x r) : r.bits < 2 * f.signBit := by
  unfold Fmt.Integral at h
  split at h
  · obtain rfl : r = _ := h
    have hnan := hf.nan_lt
    show f.nan < _
    omega
  · obtain rfl : r = _ := h
    exact hx
  · obtain ⟨k, c, -, hc, -, rfl⟩ := h
    exact f.sign_add_lt _ (lt_of_le_of_lt hc hf.maxCode_lt)

theorem fmap1_eq (ty : Ty) (op : Fmt → Nat → FRes) (a : Word) :
    fmap1 ty op a = packF ty ((List.range ty.count).map fun k => op (Ty.fm ty) (sub ty a k)) := by
  rw [fmap1, subs, List.map_map]
  rfl

theorem toSigned_setWidth (b : Word) : toSigned 32 b.toNat = (b.setWidth 32).toInt := by
  rw [toSigned, BitVec.toInt_eq_toNat_cond, BitVec.toNat_setWidth]
  split <;> split <;> omega

variable {ty : Ty} {i : Instr} {d : Reg}

/-- An instruction that gives each sub-element a value, rounded. -/
theorem LaneFloats.of_gives (hf : Ty.fmt ty = some f) (mode : LaneIn → RM) (V : LaneIn → Nat → FpVal) (rs : LaneIn → Nat → FRes)
    (hv : ∀ x, laneValue i x = some { regs := [(d, (packF ty ((List.range ty.count).map (rs x))).1)],
                                      fl := (packF ty ((List.range ty.count).map (rs x))).2 })
    (hg : ∀ x k, f.Gives (mode x) (V x k) (rs x k)) : LaneFloats i d ty fun x k => f.Gives (mode x) (V x k) := by
  obtain ⟨hreg, hw⟩ := fmt_regular hf
  refine LaneFloats.of_packF rs hv (fun x k _ => ?_) fun x k _ => hg x k
  rw [hw]
  exact (hg x k).bits_lt hreg

/-- An S form adds or multiplies in the mode that %fpc holds. -/
theorem LaneFloats.of_short (mul : Bool) (hty : ty.isFp = true) (hv : ∀ x, laneValue i x = some (
      let p := packF ty ((List.range ty.count).map fun k => if mul then (Ty.fm ty).mul (RM.ofFpc x.fpc) (sub ty x.a k) (sub ty x.b k)
        else (Ty.fm ty).add (RM.ofFpc x.fpc) (sub ty x.a k) (sub ty x.b k))
      { regs := [(d, p.1)], fl := p.2 })) :
    LaneFloats i d ty fun x k => (Ty.fm ty).Gives (RM.ofFpc x.fpc)
      (if mul then (FpVal.of (Ty.fm ty) (sub ty x.a k)).mul (.of (Ty.fm ty) (sub ty x.b k))
      else .sum (RM.ofFpc x.fpc) [.of (Ty.fm ty) (sub ty x.a k), .of (Ty.fm ty) (sub ty x.b k)]) := by
  obtain ⟨hfmt, hinf⟩ := fm_of_isFp hty
  have hf := (fmt_regular hfmt).1
  refine .of_gives hfmt _ _ _ hv fun x k => ?_
  cases mul
  · exact Fmt.add_gives hf hinf _ _
  · exact Fmt.mul_gives hf hinf _ _

end

/-- Settles O51: every operation is exact up to `Fmt.deliver`, `Fmt.round` or a special case of its own, and each of these gives what R25 to R31
say (`Fmt.round_rounds`). -/
theorem floatsRound : Obligations.FloatsRound := by
  refine ⟨fun g ty rnd d a b c n hty => ?_, fun g ty rnd d a b c hty => ?_, fun d a b => ?_⟩
  · obtain ⟨hfmt, hinf⟩ := fm_of_isFp hty
    obtain ⟨hf, hw⟩ := fmt_regular hfmt
    have hsub : ∀ x k, sub ty x k < 2 * (Ty.fm ty).signBit := fun x k => hw ▸ sub_lt ty x k
    refine ⟨?fadd, ?fsub, ?fmul, ?ffma, ?fdiv, ?fsqrt, ?frnd, ?fscale⟩
    case fadd => exact .of_gives hfmt _ _ _ (fun _ => rfl) fun _ _ => Fmt.add_gives hf hinf _ _
    case fsub => exact .of_gives hfmt _ _ _ (fun _ => rfl) fun _ _ => Fmt.sub_gives hf hinf _ _
    case fmul => exact .of_gives hfmt _ _ _ (fun _ => rfl) fun _ _ => Fmt.mul_gives hf hinf _ _
    case ffma => exact .of_gives hfmt _ _ _ (fun _ => rfl) fun _ _ => Fmt.fma_gives hf hinf _ _ _
    case fdiv => exact .of_gives hfmt _ _ _ (fun _ => rfl) fun _ _ => Fmt.div_gives hf _ _
    case fscale =>
      refine .of_gives hfmt _ _ (fun x k => fscaleOne (RM.of rnd x.fpc) (x.b.setWidth 32).toInt (Ty.fm ty) (sub ty x.a k)) (fun x => ?_)
        fun x k => Fmt.fscale_gives hf (hsub _ _) _
      rw [← fmap1_eq ty (fscaleOne (RM.of rnd x.fpc) (x.b.setWidth 32).toInt), ← toSigned_setWidth]
      rfl
    case fsqrt =>
      have hroot : ∀ (x : LaneIn) k, (Ty.fm ty).Root (RM.of rnd x.fpc) (.of (Ty.fm ty) (sub ty x.a k))
          ((Ty.fm ty).sqrt (RM.of rnd x.fpc) (sub ty x.a k)) :=
        fun x k => Fmt.sqrt_root hf _
      refine .of_packF (fun x k => (Ty.fm ty).sqrt (RM.of rnd x.fpc) (sub ty x.a k)) (fun x => ?_) (fun x k _ => hw ▸ (hroot x k).bits_lt hf)
        fun x k _ => hroot x k
      rw [← fmap1_eq ty fun f => f.sqrt (RM.of rnd x.fpc)]
      rfl
    case frnd =>
      have hint : ∀ (x : LaneIn) k, (Ty.fm ty).Integral (RM.of rnd x.fpc) (sub ty x.a k) (frndOne (RM.of rnd x.fpc) (Ty.fm ty) (sub ty x.a k)) :=
        fun x k => Fmt.frnd_integral hf (hsub _ _)
      refine .of_packF (fun x k => frndOne (RM.of rnd x.fpc) (Ty.fm ty) (sub ty x.a k)) (fun x => ?_)
        (fun x k _ => hw ▸ (hint x k).bits_lt hf (hsub _ _)) fun x k _ => hint x k
      rw [← fmap1_eq ty (frndOne (RM.of rnd x.fpc))]
      rfl
  · obtain ⟨f, hfmt⟩ := Option.isSome_iff_exists.mp hty
    have hfm : (Ty.fm ty).Regular := by rw [Ty.fm, hfmt]; exact (fmt_regular hfmt).1
    refine .of_gives (ty := .f32) rfl (fun x => RM.of rnd x.fpc) _ (fun x _ => fdotOne ty (RM.of rnd x.fpc) x.a x.b x.c) (fun x => ?_)
      fun x _ => fdot_gives hfm x.a x.b x.c
    rw [← valFdot_eq hfm]
    rfl
  · exact ⟨.of_short false rfl fun _ => rfl, .of_short true rfl fun _ => rfl, .of_short false rfl fun _ => rfl, .of_short true rfl fun _ => rfl,
      .of_short false rfl fun _ => rfl, .of_short true rfl fun _ => rfl⟩

end Sys2Proof.Machine

/-! ## Comparisons and classes (R26, R124, R126) -/

namespace Sys2Proof.Machine

section

variable {f : Fmt}

/-! ### The order of values -/

/-- A finite value at a common exponent. -/
theorem Fp.signedAt_value {n : Bool} {m : Nat} {e e0 : Int} (h : e0 ≤ e) :
    (Fp.signedAt e0 (.fin n m e) : ℚ) * 2 ^ e0 = (FpVal.num n (m * 2 ^ e)).signed := by
  rw [FpVal.signed, ← rescale h]
  cases n <;> simp [Fp.signedAt]

/-- The model's order is that of the values. -/
theorem Fp.ltNum_eq {a b : Fp} (ha : a.isNan = false) (hb : b.isNan = false) : a.ltNum b = (FpVal.ofFp a).below (FpVal.ofFp b) := by
  cases a with
  | nan s => cases ha
  | inf n =>
    cases b with
    | nan s => cases hb
    | inf k => rfl
    | fin k m e => rfl
  | fin n m e =>
    cases b with
    | nan s => cases hb
    | inf k => rfl
    | fin k m' e' =>
      have hE : (0 : ℚ) < 2 ^ min e e' := by positivity
      refine decide_eq_decide.mpr ?_
      show _ ↔ (FpVal.num n (m * 2 ^ e)).signed < (FpVal.num k (m' * 2 ^ e')).signed
      rw [← Fp.signedAt_value (min_le_left e e'), ← Fp.signedAt_value (min_le_right e e'), mul_lt_mul_iff_left₀ hE, Int.cast_lt]

/-- The order of FMIN and FMAX: −0 lies below +0. -/
def FpVal.before (x y : FpVal) : Bool := x.below y || (x == .num true 0 && y == .num false 0)

theorem Fp.before_eq {a b : Fp} (ha : a.isNan = false) (hb : b.isNan = false) :
    (a.ltNum b || (a.isZero && b.isZero && a.neg && !b.neg)) = (FpVal.ofFp a).before (.ofFp b) := by
  rw [Fp.ltNum_eq ha hb, FpVal.before]
  congr 1
  rw [Bool.eq_iff_iff]
  cases a with
  | nan s => cases ha
  | inf n => cases b <;> simp [Fp.isZero, FpVal.ofFp]
  | fin n m e =>
    cases b with
    | nan s => cases hb
    | inf k => simp [Fp.isZero, FpVal.ofFp]
    | fin k m' e' =>
      simp only [Fp.isZero, Fp.neg, FpVal.ofFp, Bool.and_eq_true, Bool.not_eq_true', beq_iff_eq, FpVal.num.injEq, quanta_eq_zero]
      tauto

theorem FpVal.num_eq_of_not_before {n k : Bool} {v w : ℚ} (hv : 0 ≤ v) (hw : 0 ≤ w) (hab : (FpVal.num n v).before (.num k w) = false)
    (hba : (FpVal.num k w).before (.num n v) = false) : FpVal.num n v = .num k w := by
  obtain ⟨hlt, hz⟩ := Bool.or_eq_false_iff.mp hab
  obtain ⟨hlt', hz'⟩ := Bool.or_eq_false_iff.mp hba
  have h1 : (FpVal.num k w).signed ≤ (FpVal.num n v).signed := not_lt.mp (of_decide_eq_false hlt)
  have h2 : (FpVal.num n v).signed ≤ (FpVal.num k w).signed := not_lt.mp (of_decide_eq_false hlt')
  have h3 := le_antisymm h2 h1
  cases n <;> cases k <;> simp only [FpVal.signed, Bool.false_eq_true, if_true, if_false] at h3
  · rw [h3]
  · obtain ⟨rfl, rfl⟩ : v = 0 ∧ w = 0 := ⟨by linarith, by linarith⟩
    cases hz'
  · obtain ⟨rfl, rfl⟩ : v = 0 ∧ w = 0 := ⟨by linarith, by linarith⟩
    cases hz
  · rw [neg_inj.mp h3]

theorem FpVal.not_below_of_below {x y : FpVal} (h : x.below y = true) : y.below x = false := by
  cases x with
  | nan s => cases h
  | inf n =>
    cases y with
    | nan s => cases h
    | inf k =>
      obtain ⟨rfl, hk⟩ := (Bool.and_eq_true_iff.mp h : n = true ∧ (!k) = true)
      exact Bool.and_false k
    | num k w =>
      obtain rfl : n = true := h
      rfl
  | num n v =>
    cases y with
    | nan s => cases h
    | inf k => exact Bool.not_eq_true' k |>.mp h
    | num k w => exact decide_eq_false (lt_asymm (of_decide_eq_true h))

theorem FpVal.not_before_of_before {x y : FpVal} (h : x.before y = true) : y.before x = false := by
  rcases Bool.or_eq_true_iff.mp h with hlt | hz
  · refine Bool.or_eq_false_iff.mpr ⟨FpVal.not_below_of_below hlt, Bool.eq_false_iff.mpr fun hz => ?_⟩
    simp only [Bool.and_eq_true, beq_iff_eq] at hz
    obtain ⟨rfl, rfl⟩ := hz
    simp [FpVal.below, FpVal.signed] at hlt
  · simp only [Bool.and_eq_true, beq_iff_eq] at hz
    obtain ⟨rfl, rfl⟩ := hz
    simp [FpVal.before, FpVal.below, FpVal.signed]

/-- Values of which neither is before the other are the same. -/
theorem FpVal.eq_of_not_before {a b : Fp} (ha : a.isNan = false) (hb : b.isNan = false) (hab : (FpVal.ofFp a).before (.ofFp b) = false)
    (hba : (FpVal.ofFp b).before (.ofFp a) = false) : FpVal.ofFp a = .ofFp b := by
  cases a with
  | nan s => cases ha
  | inf n =>
    cases b with
    | nan s => cases hb
    | inf k => cases n <;> cases k <;> simp_all [FpVal.before, FpVal.ofFp, FpVal.below]
    | fin k m e => cases n <;> simp_all [FpVal.before, FpVal.ofFp, FpVal.below]
  | fin n m e =>
    cases b with
    | nan s => cases hb
    | inf k => cases k <;> simp_all [FpVal.before, FpVal.ofFp, FpVal.below]
    | fin k m' e' =>
      exact FpVal.num_eq_of_not_before (by positivity) (by positivity) hab hba

/-- A code of a format that is no NaN is told by its value. -/
theorem FpVal.of_injective {x y : Nat} (hx : x < 2 * f.signBit) (hy : y < 2 * f.signBit) (hn : (FpVal.of f x).isNan = false)
    (h : FpVal.of f x = .of f y) : x = y := by
  cases hv : FpVal.of f x with
  | nan s => rw [hv] at hn; cases hn
  | inf n z => exact (FpVal.code_of_inf hx hv).1.trans (FpVal.code_of_inf hy (h ▸ hv)).1.symm
  | num n v =>
    obtain ⟨hcx, -, hmx⟩ := FpVal.code_of_num hx hv
    obtain ⟨hcy, -, hmy⟩ := FpVal.code_of_num hy (h ▸ hv)
    rw [hcx, hcy, f.mag_strictMono.injective (hmx.symm.trans hmy)]

/-! ### FMIN and FMAX -/

theorem Fmt.minmax_eq (hf : f.Regular) (max : Bool) {x y : Nat} (hx : x < 2 * f.signBit) (hy : y < 2 * f.signBit) :
    f.minmax max x y = f.least max x y := by
  have hX := hf.of_unpack x
  have hY := hf.of_unpack y
  unfold Fmt.minmax Fmt.least
  rw [← hX, ← hY]
  simp only [FpVal.isNan_ofFp, FpVal.invalid_ofFp]
  cases hxn : (f.unpack x).isNan with
  | true => cases hyn : (f.unpack y).isNan <;> rfl
  | false =>
    cases hyn : (f.unpack y).isNan with
    | true => rfl
    | false =>
      rw [Fp.before_eq hxn hyn]
      change _ = FRes.mk (if (if max = true then (FpVal.ofFp (f.unpack y)).before (.ofFp (f.unpack x)) else
        (FpVal.ofFp (f.unpack x)).before (.ofFp (f.unpack y))) = true then x else y) _
      simp only [Bool.and_self, Bool.false_eq_true, if_false]
      congr 1
      cases max with
      | false => cases FpVal.before _ _ <;> rfl
      | true =>
        cases hxy : (FpVal.ofFp (f.unpack x)).before (.ofFp (f.unpack y)) with
        | true => rw [FpVal.not_before_of_before hxy]; rfl
        | false =>
          cases hyx : (FpVal.ofFp (f.unpack y)).before (.ofFp (f.unpack x)) with
          | true => rfl
          | false =>
            have heq := FpVal.eq_of_not_before hxn hyn hxy hyx
            rw [hX, hY] at heq
            show x = y
            exact FpVal.of_injective hx hy (by rw [← hX, FpVal.isNan_ofFp, hxn]) heq

theorem Fmt.least_bits_lt (hf : f.Regular) (max : Bool) {x y : Nat} (hx : x < 2 * f.signBit) (hy : y < 2 * f.signBit) :
    (f.least max x y).bits < 2 * f.signBit := by
  have hnan := hf.nan_lt
  unfold Fmt.least
  dsimp only
  generalize (if max = true then _ else _ : Bool) = b
  split
  · omega
  · split
    · exact hy
    · split
      · exact hx
      · cases b
        · exact hy
        · exact hx

/-! ### FSETP -/

/-- FSETP's comparison of two values. -/
def FpVal.compare (cmp : FCmp) (A B : FpVal) : Bool :=
  let none : Bool := !A.isNan && !B.isNan
  match cmp with
  | .eq => none && !A.below B && !B.below A | .ne => !none || A.below B || B.below A | .lt => none && A.below B | .le => none && !B.below A
  | .gt => none && B.below A | .ge => none && !A.below B | .num => none | .nan => !none

theorem Fmt.compare_eq (hf : f.Regular) (cmp : FCmp) (x y : Nat) : f.compare cmp x y = (FpVal.compare cmp (.of f x) (.of f y),
    flagIf ((FpVal.of f x).invalid || (FpVal.of f y).invalid || (!(!(FpVal.of f x).isNan && !(FpVal.of f y).isNan) &&
      cmp ∈ [FCmp.lt, .le, .gt, .ge])) flNV) := by
  unfold Fmt.compare FpVal.compare
  rw [← hf.of_unpack, ← hf.of_unpack]
  generalize f.unpack x = a
  generalize f.unpack y = b
  simp only [FpVal.isNan_ofFp, FpVal.invalid_ofFp, Bool.not_and, Bool.not_not]
  congr 1
  cases ha : a.isNan with
  | true => cases cmp <;> rfl
  | false =>
    cases hb : b.isNan with
    | true => cases cmp <;> rfl
    | false =>
      rw [Fp.ltNum_eq ha hb, Fp.ltNum_eq hb ha]
      cases cmp <;> rfl

/-! ### FCLASS -/

/-- A finite value is subnormal when its quanta have no leading bit. -/
theorem Fmt.subnormal_iff {x m : Nat} {n : Bool} {e : Int} (h : f.unpack x = .fin n m e) :
    m < 2 ^ f.fbits ↔ (m : ℚ) * 2 ^ e < 2 ^ (1 - f.bias : Int) := by
  obtain ⟨-, hlo, -, hsub⟩ := Fmt.unpack_fin h
  have hnormal : (2 : ℚ) ^ (1 - f.bias : Int) = (2 ^ f.fbits : Nat) * 2 ^ f.qmin := by
    rw [Nat.cast_pow, Nat.cast_ofNat, ← zpow_natCast, ← zpow_add₀ (by norm_num), Fmt.qmin]
    congr 1
    ring
  rw [hnormal]
  rcases Nat.lt_or_ge m (2 ^ f.fbits) with hlt | hge
  · rw [hsub hlt]
    exact iff_of_true hlt (mul_lt_mul_of_pos_right (by exact_mod_cast hlt) (by positivity))
  · refine iff_of_false (not_lt.mpr hge) (not_lt.mpr ?_)
    exact mul_le_mul (by exact_mod_cast hge) (zpow_le_zpow_right₀ (by norm_num) hlo) (by positivity) (by positivity)

/-- The class that FCLASS names. -/
def FpVal.fclass (f : Fmt) : FpVal → Nat
  | .nan v => if v then 0 else 1
  | .inf n _ => if n then 2 else 9
  | .num n v => if v = 0 then (if n then 5 else 6) else if v < 2 ^ (1 - f.bias : Int) then (if n then 4 else 7) else if n then 3 else 8

theorem valFclass_eq {ty : Ty} (hf : (Ty.fm ty).Regular) (a : Word) :
    valFclass ty a = BitVec.ofNat 64 (2 ^ (FpVal.of (Ty.fm ty) (sub ty a 0)).fclass (Ty.fm ty)) := by
  unfold valFclass
  rw [← hf.of_unpack]
  dsimp only
  congr 2
  cases h : (Ty.fm ty).unpack (sub ty a 0) with
  | nan s => rfl
  | inf n => rfl
  | fin n m e => simp only [FpVal.ofFp, FpVal.fclass, quanta_eq_zero, Fmt.subnormal_iff h]

end

end Sys2Proof.Machine

/-! ## Special functions: special inputs and exact cases (R41) -/

namespace Sys2Proof.Machine

section

variable {f : Fmt} {md : RM} {n : Bool}

/-! ### Results fit in 32 bits -/

theorem fmt32_regular : fmt32.Regular := (fmt_regular (ty := .f32) rfl).1

theorem Fmt.round_bits_lt (hf : f.Regular) (m : Nat) (e : Int) (sticky : Bool) : (f.round md n m e sticky).bits < 2 * f.signBit := by
  by_cases hm : m = 0
  · rw [Fmt.round, if_pos hm]
    exact f.sign_add_lt n (c := 0) (Nat.two_pow_pos _)
  · rw [Fmt.round_eq hm]
    split
    · rw [Fmt.overflow_eq]
      refine f.sign_add_lt n ?_
      split
      · exact hf.infCode.2
      · exact hf.maxCode_lt
    next h => exact f.sign_add_lt n (lt_of_le_of_lt (not_lt.mp h) hf.maxCode_lt)

theorem round32_lt (m : Nat) (e : Int) (sticky : Bool := false) : (fmt32.round md n m e sticky).bits < 2 ^ 32 :=
  Fmt.round_bits_lt fmt32_regular m e sticky

theorem f32Key_bounds {b : Nat} (h : b < 2 ^ 32) : -2 ^ 31 < f32Key b ∧ f32Key b < 2 ^ 31 := by
  unfold f32Key
  split <;> omega

theorem f32OfKey_lt {k : Int} (hlo : -2 ^ 31 < k) (hhi : k < 2 ^ 31) : f32OfKey k < 2 ^ 32 := by
  unfold f32OfKey
  split <;> omega

variable {fn : Sfu} {x : W32}

theorem sfuDeliver_lt (ulps : Nat) (a e : Int) : (sfuDeliver fn ulps x a e).bits < 2 ^ 32 := by
  unfold sfuDeliver
  dsimp only
  split
  · exact Nat.mod_lt _ (by decide)
  · exact round32_lt _ _ _

theorem sfuMono_lt {lo hi : Int} (hlo : -2 ^ 31 < lo) (hhi : hi < 2 ^ 31) (a e : Int) : (sfuMono fn x lo hi a e).bits < 2 ^ 32 := by
  obtain ⟨hb1, hb2⟩ := f32Key_bounds (round32_lt (md := .tz) (n := decide (a < 0)) a.natAbs e true)
  unfold sfuMono
  dsimp only
  generalize f32Key (fmt32.round .tz (decide (a < 0)) a.natAbs e true).bits = base at *
  generalize hnear : (List.range 5).filterMap (fun (i : Nat) => if lo ≤ base - 2 + i ∧ base - 2 + i ≤ hi ∧
    sfuNear 1 a e (f32OfKey (base - 2 + i)) = true then some (base - 2 + (i : Int)) else none) = near
  have hmem : ∀ k ∈ near, -2 ^ 31 < k ∧ k < 2 ^ 31 := by
    intro k hk
    rw [← hnear, List.mem_filterMap] at hk
    obtain ⟨i, -, hi⟩ := hk
    split at hi
    next h => cases hi; omega
    next => cases hi
  generalize hp : List.find? _ near.reverse = p
  suffices h : -2 ^ 31 < p.getD (near.headD base) ∧ p.getD (near.headD base) < 2 ^ 31 from f32OfKey_lt h.1 h.2
  cases p with
  | some k => exact hmem k (List.mem_reverse.mp (List.mem_of_find?_eq_some hp))
  | none =>
    cases near with
    | nil => exact ⟨hb1, hb2⟩
    | cons k ks => exact hmem k (by simp)

/-! ### Exact values -/

/-- A value that a code has is delivered as that code, without a flag. -/
theorem Fmt.Gives.of_code {c : Nat} (hc : c < 2 * f.signBit) {v : ℚ} (h : FpVal.of f c = .num n v) {r : FRes}
    (hr : f.Gives md (.num n v) r) : r = ⟨c, 0⟩ := by
  obtain ⟨hcode, hmax, hmag⟩ := FpVal.code_of_num hc h
  obtain ⟨h0, hne⟩ := hr
  by_cases hv : v = 0
  · have hz : c % f.signBit = 0 := by rw [← Fmt.mag_eq_zero (f := f), ← hmag, hv]
    rw [h0 hv, hcode, hz, Nat.add_zero]
  · have hrounds := hne hv
    rw [hmag] at hrounds
    rw [hrounds.exact hmax, ← hcode]

/-- What O52 asks of a special function's result. -/
structure SfuMeets (fn : Sfu) (A : FpVal) (r : FRes) : Prop where
  bits : r.bits < 2 ^ 32
  flagged : ∀ v, sfuFlagged fn A = some v → r = v
  exact : ∀ y, SfuExact fn A y → (∃ c < 2 ^ 32, FpVal.of fmt32 c = y) → FpVal.of fmt32 r.bits = y ∧ r.fl = 0

/-- A result that is rounded from an exact value which binary32 has. -/
theorem exact_of_gives {v : ℚ} {r : FRes} (hr : fmt32.Gives md (.num n v) r) (hy : ∃ c < 2 ^ 32, FpVal.of fmt32 c = .num n v) :
    FpVal.of fmt32 r.bits = .num n v ∧ r.fl = 0 := by
  obtain ⟨c, hc, hv⟩ := hy
  obtain rfl := hr.of_code (f := fmt32) hc hv
  exact ⟨hv, rfl⟩

/-- The value of a constant. -/
theorem FpVal.of_of_unpack {c : Nat} {u : Fp} (h : fmt32.unpack c = u) : FpVal.of fmt32 c = .ofFp u := by
  rw [← h, fmt32_regular.of_unpack]

theorem f32Pow2_gives (k : Int) : fmt32.Gives .ne (.num false (2 ^ k)) (f32Pow2 k) := by
  have h := fmt32.round_gives (md := .ne) fmt32_regular false 1 k
  rwa [Nat.cast_one, one_mul] at h

theorem ofInt_gives (k : Int) : fmt32.Gives .ne (.ofInt k) (fmt32.ofInt .ne k) := by
  have h := fmt32.round_gives (md := .ne) fmt32_regular (decide (k < 0)) k.natAbs 0
  rwa [zpow_zero, mul_one, Nat.cast_natAbs, Int.cast_abs] at h

theorem of_zero32 (n : Bool) : FpVal.of fmt32 (fmt32.sign n) = .num n 0 := by
  simpa using fmt32_regular.of_sign_add n (Nat.zero_le _)

theorem of_one32 (n : Bool) : FpVal.of fmt32 (fmt32.sign n + 0x3F800000) = .num n 1 := by
  rw [FpVal.of_of_unpack (u := .fin n (2 ^ 23) (-23)) (by cases n <;> decide +kernel), FpVal.ofFp]
  norm_num

theorem of_half32 : FpVal.of fmt32 0x3F000000 = .num false (1 / 2) := by
  rw [FpVal.of_of_unpack (u := .fin false (2 ^ 23) (-24)) (by decide +kernel), FpVal.ofFp]
  norm_num

theorem of_inf32 : FpVal.of fmt32 fmt32.infCode = .inf false false := FpVal.of_of_unpack (u := .inf false) (by decide +kernel)

/-- `powOf` tells the powers of two. -/
theorem powOf_eq_some {m : Nat} {e k : Int} : powOf m e = some k ↔ (m : ℚ) * 2 ^ e = 2 ^ k := by
  unfold powOf
  constructor
  · intro h
    split at h
    next hm =>
      obtain ⟨-, hm⟩ := hm
      injection h with h
      have hc : (m : ℚ) = 2 ^ (Nat.log2 m) := by exact_mod_cast hm.symm
      rw [← h, add_comm, zpow_add₀ (by norm_num), zpow_natCast, ← hc]
    next => cases h
  · intro h
    have hm : m ≠ 0 := by
      rintro rfl
      rw [Nat.cast_zero, zero_mul] at h
      exact absurd h.symm (by positivity)
    have hp : (m : ℚ) = 2 ^ (k - e) := by
      rw [zpow_sub₀ (by norm_num), ← h]
      field_simp
    have hle : 0 ≤ k - e := by
      by_contra hlt
      have h1 : (1 : ℚ) ≤ m := by exact_mod_cast Nat.one_le_iff_ne_zero.mpr hm
      have h2 : (2 : ℚ) ^ (k - e) < 1 := zpow_lt_one_of_neg₀ (by norm_num) (by omega)
      rw [hp] at h1
      linarith
    obtain ⟨j, hj⟩ := Int.eq_ofNat_of_zero_le hle
    rw [hj, zpow_natCast] at hp
    have hmj : m = 2 ^ j := by exact_mod_cast hp
    rw [hmj, Nat.log2_two_pow, if_pos ⟨(Nat.two_pow_pos j).ne', rfl⟩]
    congr 1
    omega

/-- `Fp.toInt` has the value's sign. -/
theorem toInt_eq (m : Nat) (e : Int) :
    (Fp.toInt md n m e).1 = if n = true then -((Fp.toInt md n m e).1.natAbs : Int) else ((Fp.toInt md n m e).1.natAbs : Int) := by
  cases n <;> simp [Fp.toInt]

/-- An integer is converted exactly. -/
theorem toInt_of_integer {m : Nat} {e k : Int} (h : (FpVal.num n (m * 2 ^ e)).signed = k) : Fp.toInt md n m e = (k, false) := by
  obtain ⟨hround, hix⟩ := toInt_roundsTo (md := md) (n := n) m e
  have heq := toInt_eq (md := md) (n := n) m e
  have hv : (m : ℚ) * 2 ^ e = (k.natAbs : Nat) := by
    have hpos : (0 : ℚ) ≤ m * 2 ^ e := by positivity
    have habs : |(k : ℚ)| = (m : ℚ) * 2 ^ e := by
      rw [← h, FpVal.signed]
      split
      · rw [abs_neg, abs_of_nonneg hpos]
      · exact abs_of_nonneg hpos
    rw [Nat.cast_natAbs, Int.cast_abs, habs]
  have hvr : (m : ℝ) * 2 ^ e = (k.natAbs : Nat) := by
    have hcast := congrArg (Rat.cast (K := ℝ)) hv
    rwa [Rat.cast_mul, Rat.cast_zpow, Rat.cast_natCast, Rat.cast_natCast, Rat.cast_ofNat] at hcast
  rw [hvr] at hround
  rw [hround.of_integer] at heq hix
  have hk : (k : ℚ) = ((Fp.toInt md n m e).1 : Int) := by
    rw [heq, ← h, FpVal.signed, hv]
    cases n <;> simp
  refine Prod.ext (by exact_mod_cast hk.symm) (Bool.eq_false_iff.mpr fun hi => hix.mp hi hv)

/-- Toward −∞ a number that is not negative does not pass an integer. -/
theorem le_toInt_dn {m i : Nat} {e : Int} (h : (i : ℚ) ≤ m * 2 ^ e) : (i : Int) ≤ (Fp.toInt .dn false m e).1 := by
  obtain ⟨⟨j, hlo, hhi, hround⟩, -⟩ := toInt_roundsTo (md := .dn) (n := false) m e
  have hr : (i : ℝ) ≤ m * 2 ^ e := by
    have hcast := (Rat.cast_le (K := ℝ)).mpr h
    rwa [Rat.cast_mul, Rat.cast_zpow, Rat.cast_natCast, Rat.cast_natCast, Rat.cast_ofNat] at hcast
  have hij : i < j + 1 := by exact_mod_cast lt_of_le_of_lt hr hhi
  rw [toInt_eq]
  rcases hround with ⟨hup, -⟩ | ⟨-, hj⟩
  · cases hup.2
  · rw [hj, if_neg Bool.false_ne_true]
    omega

/-- binary32 has no power of two below its smallest subnormal number. -/
theorem le_of_pow2 {k : Int} (h : ∃ c < 2 ^ 32, FpVal.of fmt32 c = .num n (2 ^ k)) : -149 ≤ k := by
  obtain ⟨c, hc, hv⟩ := h
  obtain ⟨-, -, hmag⟩ := FpVal.code_of_num (f := fmt32) hc hv
  have hpos : (0 : ℚ) < 2 ^ k := by positivity
  have hc1 : 1 ≤ c % fmt32.signBit := by
    rw [Nat.one_le_iff_ne_zero]
    intro h0
    rw [hmag, h0, Fmt.mag_zero] at hpos
    exact lt_irrefl _ hpos
  have h1 : fmt32.mag 1 = 2 ^ (-149 : Int) := by
    have := fmt32.mag_eq (n := 0) (j := 1) (by decide) (.inl rfl)
    simpa [Fmt.qmin, fmt32] using this
  have hle : (2 : ℚ) ^ (-149 : Int) ≤ 2 ^ k := by
    rw [← h1, hmag]
    exact fmt32.mag_strictMono.monotone hc1
  exact (zpow_le_zpow_iff_right₀ (by norm_num)).mp hle

end

end Sys2Proof.Machine

/-! ## FMIN, FMAX, FSETP, FCLASS and the special functions -/

namespace Sys2Proof.Machine

section

variable {fn : Sfu} {A : FpVal} {r : FRes}

/-! ### Ways to meet the table -/

theorem SfuMeets.of_flagged (h : sfuFlagged fn A = some r) (hex : ∀ y, ¬ SfuExact fn A y) (hb : r.bits < 2 ^ 32) : SfuMeets fn A r :=
  ⟨hb, fun _ hv => Option.some.inj (h.symm.trans hv), fun y hy => absurd hy (hex y)⟩

theorem SfuMeets.of_exact (h : sfuFlagged fn A = none)
    (hex : ∀ y, SfuExact fn A y → (∃ c < 2 ^ 32, FpVal.of fmt32 c = y) → FpVal.of fmt32 r.bits = y ∧ r.fl = 0) (hb : r.bits < 2 ^ 32) :
    SfuMeets fn A r :=
  ⟨hb, fun _ hv => (Option.some_ne_none _ (hv.symm.trans h)).elim, hex⟩

theorem SfuMeets.of_inexact (h : sfuFlagged fn A = none) (hex : ∀ y, ¬ SfuExact fn A y) (hb : r.bits < 2 ^ 32) : SfuMeets fn A r :=
  .of_exact h (fun y hy => absurd hy (hex y)) hb

theorem nan32_lt : fmt32.nan < 2 ^ 32 := by decide

theorem SfuMeets.nan (fn : Sfu) (s : Bool) : SfuMeets fn (.nan s) ⟨fmt32.nan, flagIf s flNV⟩ :=
  .of_flagged (by cases fn <;> rfl) (fun y hy => by cases fn <;> exact hy) nan32_lt

theorem sfuFlagged_rcp (n : Bool) (v : ℚ) : sfuFlagged .rcp (.num n v) = if v = 0 then some ⟨fmt32.inf n, flDZ⟩ else none := by
  cases n <;> rfl

theorem sfuFlagged_rsq (n : Bool) (v : ℚ) :
    sfuFlagged .rsq (.num n v) = if v = 0 then some ⟨fmt32.inf n, flDZ⟩ else if n then some ⟨fmt32.nan, flNV⟩ else none := by
  cases n <;> rfl

theorem sfuFlagged_log2 (n : Bool) (v : ℚ) :
    sfuFlagged .log2 (.num n v) = if v = 0 then some ⟨fmt32.inf true, flDZ⟩ else if n then some ⟨fmt32.nan, flNV⟩ else none := by
  cases n <;> rfl

theorem sfuFlagged_exp2 (n : Bool) (v : ℚ) :
    sfuFlagged .exp2 (.num n v) = if n = false ∧ 128 ≤ v then some ⟨fmt32.inf false, flOF ||| flNX⟩ else none := by
  cases n
  · exact if_congr (by simp) rfl rfl
  · rfl

/-- The other functions set no flag but NX at a number. -/
theorem sfuFlagged_num {fn : Sfu} (h : fn = .sin ∨ fn = .cos ∨ fn = .tanh ∨ fn = .sigm) (n : Bool) (v : ℚ) :
    sfuFlagged fn (.num n v) = none := by
  rcases h with rfl | rfl | rfl | rfl <;> cases n <;> rfl

theorem sign32_lt (n : Bool) : fmt32.sign n < 2 ^ 32 := by cases n <;> decide

theorem one32_lt (n : Bool) : fmt32.sign n + 0x3F800000 < 2 ^ 32 := by cases n <;> decide

theorem inf32_lt (n : Bool) : fmt32.inf n < 2 ^ 32 := by cases n <;> decide

variable {x : W32}

/-! ### FRCP -/

theorem sfuRcp_meets : SfuMeets .rcp (.of fmt32 x.toNat) (sfuRcp x) := by
  have hdiv := Fmt.div_gives (md := .ne) fmt32_regular 0x3F800000 x.toNat
  rw [show FpVal.of fmt32 0x3F800000 = .num false 1 by simpa [Fmt.sign] using of_one32 false, ← fmt32_regular.of_unpack] at hdiv
  rw [← fmt32_regular.of_unpack]
  unfold sfuRcp
  cases hu : fmt32.unpack x.toNat with
  | nan s => exact .nan .rcp s
  | inf n => exact .of_exact rfl (fun y hy _ => by subst hy; exact ⟨of_zero32 n, rfl⟩) (sign32_lt n)
  | fin n m e =>
    rw [hu] at hdiv
    simp only [FpVal.ofFp] at hdiv ⊢
    by_cases hm : m = 0
    · rw [if_pos hm, hm, Nat.cast_zero, zero_mul]
      refine .of_flagged (by rw [sfuFlagged_rcp, if_pos rfl]) (fun y hy => ?_) (inf32_lt n)
      obtain ⟨k, hk, -⟩ := hy
      exact absurd hk.symm (by positivity)
    · have hv : (m : ℚ) * 2 ^ e ≠ 0 := mt quanta_eq_zero.mp hm
      rw [if_neg hm]
      refine .of_exact (by rw [sfuFlagged_rcp, if_neg hv]) (fun y hy hc => ?_) ?_
      · obtain ⟨k, hk, rfl⟩ := hy
        have hquot : (FpVal.num false 1).div (.num n (m * 2 ^ e)) = .num n (2 ^ (-k)) := by
          rw [FpVal.div, if_neg hv, hk, zpow_neg, one_div, Bool.false_bne]
        rw [hquot] at hdiv
        obtain ⟨h1, h2⟩ := exact_of_gives hdiv hc
        rw [h2, if_pos (by simp)]
        exact ⟨h1, h2⟩
      · split
        · exact hdiv.bits_lt fmt32_regular
        · exact sfuDeliver_lt _ _ _

/-! ### FRSQ -/

theorem sfuRsq_meets : SfuMeets .rsq (.of fmt32 x.toNat) (sfuRsq x) := by
  rw [← fmt32_regular.of_unpack]
  unfold sfuRsq
  cases hu : fmt32.unpack x.toNat with
  | nan s => exact .nan .rsq s
  | inf n =>
    cases n with
    | true => exact .of_flagged rfl (fun y hy => absurd hy.1 (by decide)) nan32_lt
    | false => exact .of_exact rfl (fun y hy _ => by obtain ⟨-, rfl⟩ := hy; exact ⟨of_zero32 false, rfl⟩) (by show 0 < 2 ^ 32; decide)
  | fin n m e =>
    simp only [FpVal.ofFp]
    by_cases hm : m = 0
    · rw [if_pos hm, hm, Nat.cast_zero, zero_mul]
      refine .of_flagged (by rw [sfuFlagged_rsq, if_pos rfl]) (fun y hy => ?_) (inf32_lt n)
      obtain ⟨-, k, hk, -⟩ := hy
      exact absurd hk.symm (by positivity)
    · have hv : (m : ℚ) * 2 ^ e ≠ 0 := mt quanta_eq_zero.mp hm
      rw [if_neg hm]
      cases n with
      | true => exact .of_flagged (by rw [sfuFlagged_rsq, if_neg hv, if_pos rfl, if_pos rfl]) (fun y hy => absurd hy.1 (by decide)) nan32_lt
      | false =>
        simp only [Bool.false_eq_true, if_false]
        refine .of_exact (by rw [sfuFlagged_rsq, if_neg hv]; rfl) (fun y hy hc => ?_) ?_
        · obtain ⟨-, k, hk, rfl⟩ := hy
          rw [powOf_eq_some.mpr hk]
          dsimp only
          rw [if_pos (by omega), show 2 * k / 2 = k by omega]
          exact exact_of_gives (f32Pow2_gives _) hc
        · split
          · split
            · exact (f32Pow2_gives _).bits_lt fmt32_regular
            · exact sfuDeliver_lt _ _ _
          · exact sfuDeliver_lt _ _ _

/-! ### FLOG2 -/

theorem sfuLog2_meets : SfuMeets .log2 (.of fmt32 x.toNat) (sfuLog2 x) := by
  have hint : ∀ k, (fmt32.ofInt .ne k).bits < 2 ^ 32 := fun k => round32_lt _ _
  rw [← fmt32_regular.of_unpack]
  unfold sfuLog2
  cases hu : fmt32.unpack x.toNat with
  | nan s => exact .nan .log2 s
  | inf n =>
    cases n with
    | true => exact .of_flagged rfl (fun y hy => absurd hy.1 (by decide)) nan32_lt
    | false => exact .of_exact rfl (fun y hy _ => by obtain ⟨-, rfl⟩ := hy; exact ⟨of_inf32, rfl⟩) (inf32_lt false)
  | fin n m e =>
    simp only [FpVal.ofFp]
    by_cases hm : m = 0
    · rw [if_pos hm, hm, Nat.cast_zero, zero_mul]
      refine .of_flagged (by rw [sfuFlagged_log2, if_pos rfl]) (fun y hy => ?_) (inf32_lt true)
      obtain ⟨-, k, hk, -⟩ := hy
      exact absurd hk.symm (by positivity)
    · have hv : (m : ℚ) * 2 ^ e ≠ 0 := mt quanta_eq_zero.mp hm
      rw [if_neg hm]
      cases n with
      | true => exact .of_flagged (by rw [sfuFlagged_log2, if_neg hv, if_pos rfl, if_pos rfl]) (fun y hy => absurd hy.1 (by decide)) nan32_lt
      | false =>
        simp only [Bool.false_eq_true, if_false]
        refine .of_exact (by rw [sfuFlagged_log2, if_neg hv]; rfl) (fun y hy hc => ?_) ?_
        · obtain ⟨-, k, hk, rfl⟩ := hy
          rw [powOf_eq_some.mpr hk]
          exact exact_of_gives (ofInt_gives k) hc
        · split
          · exact hint _
          · exact sfuMono_lt (f32Key_bounds (hint _)).1 (f32Key_bounds (hint _)).2 _ _

/-! ### FEXP2 -/

theorem sfuExp2_meets : SfuMeets .exp2 (.of fmt32 x.toNat) (sfuExp2 x) := by
  have hpow : ∀ k, (f32Pow2 k).bits < 2 ^ 32 := fun k => round32_lt _ _
  rw [← fmt32_regular.of_unpack]
  unfold sfuExp2
  cases hu : fmt32.unpack x.toNat with
  | nan s => exact .nan .exp2 s
  | inf n =>
    refine .of_exact rfl (fun y hy _ => ?_) (by show (if n then 0 else fmt32.inf false) < 2 ^ 32; cases n <;> decide)
    subst hy
    cases n
    · exact ⟨of_inf32, rfl⟩
    · exact ⟨of_zero32 false, rfl⟩
  | fin n m e =>
    simp only [FpVal.ofFp]
    by_cases hm : m = 0
    · rw [if_pos hm, hm, Nat.cast_zero, zero_mul]
      refine .of_exact ?_ (fun y hy hc => ?_) (hpow 0)
      · rw [sfuFlagged_exp2, if_neg (by norm_num)]
      · obtain ⟨k, hk, -, rfl⟩ := hy
        have hk0 : k = 0 := by
          have : (k : ℚ) = 0 := by rw [← hk]; simp [FpVal.signed]
          exact_mod_cast this
        subst hk0
        exact exact_of_gives (f32Pow2_gives 0) hc
    · rw [if_neg hm]
      by_cases hbig : n = false ∧ 128 ≤ (m : ℚ) * 2 ^ e
      · obtain ⟨rfl, hv⟩ := hbig
        have hk := le_toInt_dn (i := 128) (by exact_mod_cast hv)
        rw [if_pos (by exact_mod_cast hk)]
        refine .of_flagged (by rw [sfuFlagged_exp2, if_pos ⟨rfl, hv⟩]) (fun y hy => ?_) (inf32_lt false)
        obtain ⟨k, hk, hlt, -⟩ := hy
        have hk' : (m : ℚ) * 2 ^ e = k := hk
        have : (128 : ℚ) ≤ k := hk' ▸ hv
        exact absurd hlt (not_lt.mpr (by exact_mod_cast this))
      · refine .of_exact (by rw [sfuFlagged_exp2, if_neg hbig]) (fun y hy hc => ?_) ?_
        · obtain ⟨k, hk, hlt, rfl⟩ := hy
          have hge := le_of_pow2 hc
          rw [toInt_of_integer hk, if_neg (by show ¬ k ≥ 128; omega), if_pos (by simp [hge])]
          exact exact_of_gives (f32Pow2_gives k) hc
        · split
          · exact inf32_lt false
          · split
            · exact hpow _
            · exact sfuMono_lt (f32Key_bounds (hpow _)).1 (f32Key_bounds (hpow _)).2 _ _

/-! ### FSIN, FCOS, FTANH and FSIGM -/

theorem sfuTrig_lt {n : Bool} {m : Nat} {e : Int} (isSin : Bool) (hm : m ≠ 0) (hu : fmt32.unpack x.toNat = .fin n m e) :
    (sfuTrig fn isSin x).bits < 2 ^ 32 := by
  unfold sfuTrig
  rw [hu]
  dsimp only
  rw [if_neg hm]
  split
  · unfold sfuTrigBig
    dsimp only
    split
    · exact Nat.mod_lt _ (by decide)
    · decide
  · exact sfuDeliver_lt _ _ _

theorem sfuSin_meets : SfuMeets .sin (.of fmt32 x.toNat) (sfuTrig .sin true x) := by
  rw [← fmt32_regular.of_unpack]
  cases hu : fmt32.unpack x.toNat with
  | nan s => simp only [sfuTrig, hu]; exact .nan .sin s
  | inf n => simp only [sfuTrig, hu]; exact .of_flagged rfl (fun y hy => hy) nan32_lt
  | fin n m e =>
    by_cases hm : m = 0
    · simp only [sfuTrig, hu, hm, if_true]
      exact .of_exact (sfuFlagged_num (by simp) n _) (fun y hy _ => by obtain ⟨-, rfl⟩ := hy; exact ⟨of_zero32 n, rfl⟩) (sign32_lt n)
    · exact .of_inexact (sfuFlagged_num (by simp) n _) (fun y hy => hm (quanta_eq_zero.mp hy.1)) (sfuTrig_lt true hm hu)

theorem sfuCos_meets : SfuMeets .cos (.of fmt32 x.toNat) (sfuTrig .cos false x) := by
  rw [← fmt32_regular.of_unpack]
  cases hu : fmt32.unpack x.toNat with
  | nan s => simp only [sfuTrig, hu]; exact .nan .cos s
  | inf n => simp only [sfuTrig, hu]; exact .of_flagged rfl (fun y hy => hy) nan32_lt
  | fin n m e =>
    by_cases hm : m = 0
    · simp only [sfuTrig, hu, hm, if_true, Bool.false_eq_true, if_false]
      refine .of_exact (sfuFlagged_num (by simp) n _) (fun y hy hc => ?_) (round32_lt _ _)
      obtain ⟨-, rfl⟩ := hy
      exact exact_of_gives (v := 1) (by simpa using f32Pow2_gives 0) hc
    · exact .of_inexact (sfuFlagged_num (by simp) n _) (fun y hy => hm (quanta_eq_zero.mp hy.1)) (sfuTrig_lt false hm hu)

theorem sfuTanh_meets : SfuMeets .tanh (.of fmt32 x.toNat) (sfuTanh x) := by
  rw [← fmt32_regular.of_unpack]
  unfold sfuTanh
  cases hu : fmt32.unpack x.toNat with
  | nan s => exact .nan .tanh s
  | inf n => exact .of_exact rfl (fun y hy _ => by subst hy; exact ⟨of_one32 n, rfl⟩) (one32_lt n)
  | fin n m e =>
    by_cases hm : m = 0
    · simp only [hm, if_true]
      exact .of_exact (sfuFlagged_num (by simp) n _) (fun y hy _ => by obtain ⟨-, rfl⟩ := hy; exact ⟨of_zero32 n, rfl⟩) (sign32_lt n)
    · simp only [hm, if_false]
      exact .of_inexact (sfuFlagged_num (by simp) n _) (fun y hy => hm (quanta_eq_zero.mp hy.1)) (sfuDeliver_lt _ _ _)

theorem sfuSigm_meets : SfuMeets .sigm (.of fmt32 x.toNat) (sfuSigm x) := by
  rw [← fmt32_regular.of_unpack]
  unfold sfuSigm
  cases hu : fmt32.unpack x.toNat with
  | nan s => exact .nan .sigm s
  | inf n =>
    refine .of_exact rfl (fun y hy _ => ?_) (by show (if n then 0 else 0x3F800000) < 2 ^ 32; cases n <;> decide)
    subst hy
    cases n
    · exact ⟨by simpa [Fmt.sign] using of_one32 false, rfl⟩
    · exact ⟨of_zero32 false, rfl⟩
  | fin n m e =>
    by_cases hm : m = 0
    · simp only [hm, if_true]
      refine .of_exact (sfuFlagged_num (by simp) n _) (fun y hy _ => ?_) (by show 0x3F000000 < 2 ^ 32; decide)
      obtain ⟨-, rfl⟩ := hy
      exact ⟨of_half32, rfl⟩
    · simp only [hm, if_false]
      refine .of_inexact (sfuFlagged_num (by simp) n _) (fun y hy => hm (quanta_eq_zero.mp hy.1)) ?_
      cases n
      · exact sfuDeliver_lt _ _ _
      · exact sfuDeliver_lt _ _ _

/-! ### All comparisons, classes and special functions -/

theorem sfu32_meets (fn : Sfu) (x : W32) : SfuMeets fn (.of fmt32 x.toNat) (sfu32 fn x) := by
  cases fn with
  | rcp => exact sfuRcp_meets
  | rsq => exact sfuRsq_meets
  | exp2 => exact sfuExp2_meets
  | log2 => exact sfuLog2_meets
  | sin => exact sfuSin_meets
  | cos => exact sfuCos_meets
  | tanh => exact sfuTanh_meets
  | sigm => exact sfuSigm_meets

/-- A special function of a binary32 code. -/
theorem sfuOne_meets (fn : Sfu) {c : Nat} (hc : c < 2 ^ 32) : SfuMeets fn (.of fmt32 c) (sfuOne fn fmt32 c) := by
  have h := sfu32_meets fn (BitVec.ofNat 32 c)
  rwa [BitVec.toNat_ofNat, Nat.mod_eq_of_lt hc] at h

variable {i : Instr} {d : Reg}

theorem LaneFloats.of_sfu (fn : Sfu) (hv : ∀ x, laneValue i x = some { regs := [(d, (valSfu fn .f32 x.a).1)], fl := (valSfu fn .f32 x.a).2 }) :
    LaneFloats i d .f32 fun x _ r =>
      let A := FpVal.of fmt32 (sub .f32 x.a 0)
      (∀ v, sfuFlagged fn A = some v → r = v) ∧
      (∀ y, SfuExact fn A y → (∃ c < 2 ^ 32, FpVal.of fmt32 c = y) → FpVal.of fmt32 r.bits = y ∧ r.fl = 0) := by
  have hmeets : ∀ x : LaneIn, SfuMeets fn (.of fmt32 (sub .f32 x.a 0)) (sfuOne fn fmt32 (sub .f32 x.a 0)) := fun x =>
    sfuOne_meets fn (sub_lt .f32 x.a 0)
  exact .of_packF (fun x _ => sfuOne fn fmt32 (sub .f32 x.a 0)) hv (fun x _ _ => (hmeets x).bits) fun x _ _ =>
    ⟨(hmeets x).flagged, (hmeets x).exact⟩

theorem LaneFloats.of_minmax {ty : Ty} (hty : ty.isFp = true) (max : Bool)
    (hv : ∀ x, laneValue i x = some (
      let p := packF ty ((List.range ty.count).map fun k => (Ty.fm ty).minmax max (sub ty x.a k) (sub ty x.b k))
      { regs := [(d, p.1)], fl := p.2 })) :
    LaneFloats i d ty fun x k r => r = (Ty.fm ty).least max (sub ty x.a k) (sub ty x.b k) := by
  obtain ⟨hf, hw⟩ := fmt_regular (fm_of_isFp hty).1
  have hsub : ∀ x k, sub ty x k < 2 * (Ty.fm ty).signBit := fun x k => hw ▸ sub_lt ty x k
  have heq : ∀ (x : LaneIn) k, (Ty.fm ty).minmax max (sub ty x.a k) (sub ty x.b k) = (Ty.fm ty).least max (sub ty x.a k) (sub ty x.b k) :=
    fun x k => Fmt.minmax_eq hf max (hsub _ _) (hsub _ _)
  refine .of_packF _ hv (fun x k _ => ?_) fun x k _ => heq x k
  rw [hw, heq]
  exact Fmt.least_bits_lt hf max (hsub _ _) (hsub _ _)

theorem fm_regular_of_scalar {ty : Ty} (h : ty = .f32 ∨ ty = .f64) : (Ty.fm ty).Regular := by
  rcases h with rfl | rfl
  · exact (fmt_regular (ty := .f32) rfl).1
  · exact (fmt_regular (ty := .f64) rfl).1

end

/-- Settles O52: the model's order is that of the values (`Fp.ltNum_eq`), of which codes are told apart (`FpVal.of_injective`), and each special
function meets its table (`sfu32_meets`). -/
theorem floatsCompare : Obligations.FloatsCompare := by
  refine ⟨fun g ty d a b hty => ⟨.of_minmax hty false fun _ => rfl, .of_minmax hty true fun _ => rfl⟩, fun g ty cmp comb pd pc a b hty => ?_,
    fun g ty d a hty => ?_, fun g d a fn => ?_⟩
  · refine LaneGives.of_value fun x => ?_
    have hcmp := Fmt.compare_eq (fm_regular_of_scalar hty) cmp (sub ty x.a 0) (sub ty x.b 0)
    simp only [laneValue, hcmp]
    cases comb <;> rfl
  · refine LaneGives.of_value fun x => ?_
    rw [show laneValue (.fclass g ty d a) x = some { regs := [(d, valFclass ty x.a)] } from rfl, valFclass_eq (fm_regular_of_scalar hty)]
    rfl
  · cases fn <;> exact .of_sfu _ fun _ => rfl

end Sys2Proof.Machine

/-! ## Encodings (O55, O56)

An L or X word stands for its fields (`Raw`). Two functions go between fields and instructions, `Raw.build` and `Instr.raw`, and each undoes the
other: `Raw.build_of_raw` splits on the instruction, `Raw.raw_of_build` on the opcode, and both group the rows that lay their operands out alike.
The layers below them say how each code, each layout of fn and operand B reads back and is put back. `buildS` and `Instr.sword` are the same for
the S forms. -/

namespace Sys2Proof

section

/-! ### Codes (R61, R62) -/

theorem Ty.code_lt (t : Ty) : t.code < 16 := by cases t <;> decide
theorem Rnd.code_lt (m : Rnd) : m.code < 8 := by cases m <;> decide
theorem ICmp.code_lt (c : ICmp) : c.code < 8 := by cases c <;> decide
theorem FCmp.code_lt (c : FCmp) : c.code < 8 := by cases c <;> decide
theorem Comb.code_lt (c : Comb) : c.code < 4 := by cases c <;> decide
theorem ShflMode.code_lt (m : ShflMode) : m.code < 4 := by cases m <;> decide
theorem VoteMode.code_lt (m : VoteMode) : m.code < 4 := by cases m <;> decide
theorem RedOp.code_lt (o : RedOp) : o.code < 8 := by cases o <;> decide
theorem RcnOp.code_lt (o : RcnOp) : o.code < 8 := by cases o <;> decide
theorem AtomOp.code_lt (o : AtomOp) : o.code < 16 := by cases o <;> decide
theorem Space.code_lt (sp : Space) : sp.code < 4 := by cases sp <;> decide
theorem Width.code_lt (w : Width) : w.code < 8 := by cases w <;> decide

@[simp] theorem tyOf_tyCode (t : Ty) : tyOf (tyCode t) = t := by cases t <;> rfl
@[simp] theorem tyOf_ofNat_code (t : Ty) : tyOf (BitVec.ofNat 4 t.code) = t := tyOf_tyCode t
@[simp] theorem tyCode_tyOf (c : BitVec 4) : tyCode (tyOf c) = c := by revert c; decide
theorem tyOf_eq_iff {c : BitVec 4} {t : Ty} : tyOf c = t ↔ c = tyCode t := ⟨by rintro rfl; simp, by rintro rfl; simp⟩
theorem code_tyOf (c : BitVec 4) : (tyOf c).code = c.toNat := by revert c; decide
theorem tyCode_b32 : tyCode .b32 = 0#4 := rfl
theorem Ty.code_b32 : Ty.b32.code = 0 := rfl

/-! Each partial decoding function of a code gives exactly what has the code. -/

theorem predOf_eq_some {f : BitVec 8} {p : Pred} : predOf f = some p ↔ f = p8 p := by revert f p; decide +kernel
theorem rndOf_eq_some {n : Nat} {m : Rnd} : rndOf n = some m ↔ n = m.code :=
  ⟨by unfold rndOf; split <;> rintro ⟨⟩ <;> rfl, by rintro rfl; cases m <;> rfl⟩
theorem icmpOf_eq_some {n : Nat} {c : ICmp} : icmpOf n = some c ↔ n = c.code :=
  ⟨by unfold icmpOf; split <;> rintro ⟨⟩ <;> rfl, by rintro rfl; cases c <;> rfl⟩
theorem blkModeOf_eq_some {n : Nat} {m : BlkMode} : blkModeOf n = some m ↔ n = m.code :=
  ⟨by unfold blkModeOf; split <;> rintro ⟨⟩ <;> rfl, by rintro rfl; cases m <;> rfl⟩
theorem redOpOf_eq_some {n : Nat} {o : RedOp} : redOpOf n = some o ↔ n = o.code :=
  ⟨by unfold redOpOf; split <;> rintro ⟨⟩ <;> rfl, by rintro rfl; cases o <;> rfl⟩
theorem atomOpOf_eq_some {n : Nat} {o : AtomOp} : atomOpOf n = some o ↔ n = o.code :=
  ⟨by unfold atomOpOf; split <;> rintro ⟨⟩ <;> rfl, by rintro rfl; cases o <;> rfl⟩
theorem spaceOf_eq_some {n : Nat} {sp : Space} : spaceOf n = some sp ↔ n = sp.code :=
  ⟨by unfold spaceOf; split <;> rintro ⟨⟩ <;> rfl, by rintro rfl; cases sp <;> rfl⟩
theorem widthOf_eq_some {n : Nat} {w : Width} : widthOf n = some w ↔ n = w.code :=
  ⟨by unfold widthOf; split <;> rintro ⟨⟩ <;> rfl, by rintro rfl; cases w <;> rfl⟩
theorem scopeOf_eq_some {n : Nat} {s : Scope} : scopeOf n = some s ↔ n = s.level :=
  ⟨by unfold scopeOf; split <;> rintro ⟨⟩ <;> rfl, by rintro rfl; cases s <;> rfl⟩

theorem scopeOf_toNat_eq_some {d : BitVec 8} {s : Scope} : scopeOf d.toNat = some s ↔ d = BitVec.ofNat 8 s.level := by
  rw [scopeOf_eq_some]
  exact ⟨fun h => by rw [← h]; simp, by rintro rfl; cases s <;> rfl⟩
theorem blkModeOf_toNat_eq_some {fn : BitVec 14} {m : BlkMode} : blkModeOf fn.toNat = some m ↔ fn = BitVec.ofNat 14 m.code := by
  rw [blkModeOf_eq_some]
  exact ⟨fun h => by rw [← h]; simp, by rintro rfl; cases m <;> rfl⟩

@[simp] theorem predOf_p8 (p : Pred) : predOf (p8 p) = some p := predOf_eq_some.mpr rfl
@[simp] theorem rndOf_code (m : Rnd) : rndOf m.code = some m := rndOf_eq_some.mpr rfl
@[simp] theorem icmpOf_code (c : ICmp) : icmpOf c.code = some c := icmpOf_eq_some.mpr rfl
@[simp] theorem redOpOf_code (o : RedOp) : redOpOf o.code = some o := redOpOf_eq_some.mpr rfl
@[simp] theorem atomOpOf_code (o : AtomOp) : atomOpOf o.code = some o := atomOpOf_eq_some.mpr rfl
@[simp] theorem spaceOf_code (sp : Space) : spaceOf sp.code = some sp := spaceOf_eq_some.mpr rfl
@[simp] theorem widthOf_code (w : Width) : widthOf w.code = some w := widthOf_eq_some.mpr rfl
@[simp] theorem fcmpOf_code (c : FCmp) : fcmpOf c.code = c := by cases c <;> rfl
@[simp] theorem combOf_code (c : Comb) : combOf c.code = c := by cases c <;> rfl
@[simp] theorem shflOf_code (m : ShflMode) : shflOf m.code = m := by cases m <;> rfl
@[simp] theorem voteOf_code (m : VoteMode) : voteOf m.code = m := by cases m <;> rfl
@[simp] theorem rcnOpOf_code (o : RcnOp) : rcnOpOf o.code = o := by cases o <;> rfl

/-! ### Fields of fn -/

theorem ofNat_of_toNat {w : Nat} {x : BitVec w} {n : Nat} (h : x.toNat = n) : x = BitVec.ofNat w n := by subst h; simp

theorem fnField_lt (fn : BitVec 14) (lo n : Nat) : fnField fn lo n < 2 ^ n := Nat.mod_lt _ (Nat.two_pow_pos n)
theorem fnField_ofNat (v lo n : Nat) : fnField (BitVec.ofNat 14 v) lo n = v % 2 ^ 14 / 2 ^ lo % 2 ^ n := by rw [fnField, BitVec.toNat_ofNat]
theorem toNat_ofNat_fnField (fn : BitVec 14) (lo n : Nat) : (BitVec.ofNat n (fnField fn lo n)).toNat = fnField fn lo n := by
  rw [BitVec.toNat_ofNat, Nat.mod_eq_of_lt (fnField_lt ..)]
theorem toNat_setWidth_fn (fn : BitVec 14) (n : Nat) : (fn.setWidth n).toNat = fnField fn 0 n := by simp [fnField]
theorem setWidth_of_field {fn : BitVec 14} {n : Nat} {x : BitVec n} (h : fnField fn 0 n = x.toNat) : fn.setWidth n = x :=
  BitVec.eq_of_toNat_eq (by rw [toNat_setWidth_fn, h])
theorem setWidth_setWidth_fn {fn : BitVec 14} {n : Nat} (h : fn.toNat < 2 ^ n) : (fn.setWidth n).setWidth 14 = fn := by
  apply BitVec.eq_of_toNat_eq
  rw [BitVec.toNat_setWidth, BitVec.toNat_setWidth, Nat.mod_eq_of_lt h, Nat.mod_eq_of_lt fn.isLt]

/-! A bit of fn is a field of one bit. -/

theorem toNat_getLsbD (fn : BitVec 14) (k : Nat) : (fn.getLsbD k).toNat = fnField fn k 1 := by
  rw [fnField, BitVec.getLsbD, Nat.toNat_testBit, pow_one]
theorem getLsbD_of_field {fn : BitVec 14} {k : Nat} {b : Bool} (h : fnField fn k 1 = b.toNat) : fn.getLsbD k = b :=
  (by decide : Function.Injective Bool.toNat) (by rw [toNat_getLsbD, h])
theorem getElem_of_field {fn : BitVec 14} {k : Nat} {b : Bool} (h : fnField fn k 1 = b.toNat) (hk : k < 14) : fn[k] = b := by
  rw [← BitVec.getLsbD_eq_getElem, getLsbD_of_field h]
theorem getLsbD_eq_true {fn : BitVec 14} {k : Nat} : fn.getLsbD k = true ↔ fnField fn k 1 = 1 :=
  ⟨fun h => by rw [← toNat_getLsbD, h]; rfl, fun h => getLsbD_of_field h⟩
theorem getLsbD_eq_false {fn : BitVec 14} {k : Nat} : fn.getLsbD k = false ↔ fnField fn k 1 = 0 :=
  ⟨fun h => by rw [← toNat_getLsbD, h]; rfl, fun h => getLsbD_of_field h⟩

/-! A total decoding function of a code, of a field no wider than its codes. -/

theorem code_fcmpOf (fn : BitVec 14) (lo : Nat) : (fcmpOf (fnField fn lo 3)).code = fnField fn lo 3 :=
  (by decide : ∀ n < 8, (fcmpOf n).code = n) _ (fnField_lt ..)
theorem code_combOf (fn : BitVec 14) (lo : Nat) : (combOf (fnField fn lo 2)).code = fnField fn lo 2 :=
  (by decide : ∀ n < 4, (combOf n).code = n) _ (fnField_lt ..)
theorem code_shflOf (fn : BitVec 14) (lo : Nat) : (shflOf (fnField fn lo 2)).code = fnField fn lo 2 :=
  (by decide : ∀ n < 4, (shflOf n).code = n) _ (fnField_lt ..)
theorem code_voteOf (fn : BitVec 14) (lo : Nat) : (voteOf (fnField fn lo 2)).code = fnField fn lo 2 :=
  (by decide : ∀ n < 4, (voteOf n).code = n) _ (fnField_lt ..)
theorem code_rcnOpOf (fn : BitVec 14) (lo : Nat) : (rcnOpOf (fnField fn lo 3)).code = fnField fn lo 3 :=
  (by decide : ∀ n < 8, (rcnOpOf n).code = n) _ (fnField_lt ..)

/-! ### Layouts of fn: what the decoder reads of what the encoder puts there -/

theorem fnBit_le (b : Bool) : (fnBit b 0).toNat ≤ 1 := by cases b <;> decide
theorem fnBit_beq_one (b : Bool) : (fnBit b 0 == 1#14) = b := by cases b <;> decide
theorem cinFn_lt (cin : Option Pred) (cout : Pred) : (cinFn cin cout).toNat < 16 := by
  have := cout.isLt
  rw [cinFn, BitVec.toNat_ofNat]
  split <;> omega
theorem cinFn_getLsbD (cin : Option Pred) (cout : Pred) : (cinFn cin cout).getLsbD 3 = cin.isNone := by
  have := cout.isLt
  apply getLsbD_of_field
  rw [cinFn, fnField_ofNat]
  cases cin <;> simp only [Option.isNone_none, Option.isNone_some, Bool.false_eq_true, if_false, if_true, Bool.toNat_false, Bool.toNat_true] <;> omega
theorem cinFn_setWidth (cin : Option Pred) (cout : Pred) : (cinFn cin cout).setWidth 3 = cout := by
  have := cout.isLt
  apply setWidth_of_field
  rw [cinFn, fnField_ofNat]
  split <;> omega
theorem setp_fn {cmp : ICmp} {comb : Comb} {fn : BitVec 14} (h : fn = BitVec.ofNat 14 (cmp.code + 8 * comb.code)) :
    fnField fn 0 3 = cmp.code ∧ fnField fn 3 2 = comb.code ∧ fn.toNat < 32 := by
  have := cmp.code_lt; have := comb.code_lt
  simp only [h, fnField_ofNat, BitVec.toNat_ofNat]; omega
theorem fsetp_fn {cmp : FCmp} {comb : Comb} {fn : BitVec 14} (h : fn = BitVec.ofNat 14 (8 * cmp.code + 64 * comb.code)) :
    fnField fn 3 3 = cmp.code ∧ fnField fn 6 2 = comb.code ∧ fnField fn 0 3 = 0 ∧ fn.toNat < 256 := by
  have := cmp.code_lt; have := comb.code_lt
  simp only [h, fnField_ofNat, BitVec.toNat_ofNat]; omega
theorem cvt_fn {src : Ty} {m : Rnd} {satf : Bool} {k : BitVec 4} {fn : BitVec 14} (h : fn = cvtFn src m satf k) :
    fnField fn 0 3 = m.code ∧ fnField fn 3 1 = satf.toNat ∧ fnField fn 4 4 = src.code ∧ fnField fn 8 4 = k.toNat ∧ fn.toNat < 4096 := by
  have := m.code_lt; have := satf.toNat_lt; have := src.code_lt; have := k.isLt
  simp only [h, cvtFn, fnField_ofNat, BitVec.toNat_ofNat]; omega
theorem dq_fn {m : Rnd} {k : BitVec 4} {fn : BitVec 14} (h : fn = cvtFn .b32 m false k) :
    fnField fn 0 3 = m.code ∧ fnField fn 3 5 = 0 ∧ fnField fn 8 4 = k.toNat ∧ fn.toNat < 4096 := by
  have := m.code_lt; have := k.isLt
  simp only [h, cvtFn, Ty.code_b32, Bool.toNat_false, fnField_ofNat, BitVec.toNat_ofNat]; omega
theorem pmov_fn {mask : BitVec 7} {fn : BitVec 14} (h : fn = BitVec.ofNat 14 (1 + 2 * mask.toNat)) :
    fnField fn 0 1 = 1 ∧ fnField fn 1 7 = mask.toNat ∧ fn.toNat < 256 := by
  have := mask.isLt
  simp only [h, fnField_ofNat, BitVec.toNat_ofNat]; omega
theorem bcast_fn {k : BitVec 5} {fn : BitVec 14} (h : fn = k.setWidth 14) :
    fnField fn 5 1 = false.toNat ∧ fnField fn 0 5 = k.toNat ∧ fn.toNat < 64 := by
  have := k.isLt
  simp only [h, fnField, BitVec.toNat_setWidth, Bool.toNat_false]; omega
theorem shfl_fn {md : ShflMode} {w : BitVec 3} {fn : BitVec 14} (h : fn = BitVec.ofNat 14 (md.code + 4 * w.toNat)) :
    fnField fn 0 2 = md.code ∧ fnField fn 2 3 = w.toNat ∧ fn.toNat < 32 := by
  have := md.code_lt; have := w.isLt
  simp only [h, fnField_ofNat, BitVec.toNat_ofNat]; omega
theorem vote_fn {md : VoteMode} {inv : Bool} {fn : BitVec 14} (h : fn = BitVec.ofNat 14 (md.code + 4 * inv.toNat)) :
    fnField fn 0 2 = md.code ∧ fnField fn 2 1 = inv.toNat ∧ fn.toNat < 8 := by
  have := md.code_lt; have := inv.toNat_lt
  simp only [h, fnField_ofNat, BitVec.toNat_ofNat]; omega
theorem redux_fn {m : Rnd} {o : RedOp} {fn : BitVec 14} (h : fn = BitVec.ofNat 14 (m.code + 8 * o.code)) :
    fnField fn 0 3 = m.code ∧ fnField fn 3 3 = o.code ∧ fn.toNat < 64 := by
  have := m.code_lt; have := o.code_lt
  simp only [h, fnField_ofNat, BitVec.toNat_ofNat]; omega
theorem fence_fn {p q : BitVec 7} {fn : BitVec 14} (h : fn = BitVec.ofNat 14 (p.toNat + 128 * q.toNat)) :
    fnField fn 0 7 = p.toNat ∧ fnField fn 7 7 = q.toNat := by
  have := p.isLt; have := q.isLt
  simp only [h, fnField_ofNat]; omega
theorem ld_fn {sp : Space} {w : Width} {sx : Bool} {sc : BitVec 2} {fn : BitVec 14}
    (h : fn = BitVec.ofNat 14 (sp.code + 4 * w.code + 32 * sx.toNat + 64 * sc.toNat)) :
    fnField fn 0 2 = sp.code ∧ fnField fn 2 3 = w.code ∧ fnField fn 5 1 = sx.toNat ∧ fnField fn 6 2 = sc.toNat ∧ fn.toNat < 256 := by
  have := sp.code_lt; have := w.code_lt; have := sx.toNat_lt; have := sc.isLt
  simp only [h, fnField_ofNat, BitVec.toNat_ofNat]; omega
/-- fn of the instructions that name a cell (R156): fn[13:8] is the number of siblings, an operation, or 0. -/
theorem keep_fn {n : Nat} {sc : BitVec 2} {fn : BitVec 14} (hn : n < 8) (h : fn = BitVec.ofNat 14 (12 + 256 * n + 64 * sc.toNat)) :
    fnField fn 0 6 = 12 ∧ fnField fn 8 3 = n ∧ fnField fn 6 2 = sc.toNat ∧ fn.toNat < 256 * (n + 1) := by
  have := sc.isLt
  simp only [h, fnField_ofNat, BitVec.toNat_ofNat]; omega
theorem pref_fn {k l2 : Bool} {sc : BitVec 2} {fn : BitVec 14} (h : fn = BitVec.ofNat 14 (2 * k.toNat + 256 * l2.toNat + 64 * sc.toNat)) :
    fnField fn 0 1 = 0 ∧ fnField fn 1 1 = k.toNat ∧ fnField fn 2 4 = 0 ∧ fnField fn 6 2 = sc.toNat ∧ fnField fn 8 1 = l2.toNat ∧ fn.toNat < 512 := by
  have := k.toNat_lt; have := l2.toNat_lt; have := sc.isLt
  simp only [h, fnField_ofNat, BitVec.toNat_ofNat]; omega
theorem atom_fn {sp : Bool} {ty : Ty} {n : Nat} {sc : BitVec 2} {fn : BitVec 14} (hn : n < 16)
    (h : fn = BitVec.ofNat 14 (atomFnOf sp ty + 256 * n + 64 * sc.toNat)) :
    fnField fn 0 1 = sp.toNat ∧ 2 * fnField fn 1 5 = atomFnOf false ty ∧ fnField fn 6 2 = sc.toNat ∧ fnField fn 8 4 = n ∧ fn.toNat < 256 * (n + 1) := by
  have := sp.toNat_lt; have := sc.isLt
  simp only [h, fnField_ofNat, BitVec.toNat_ofNat, atomFnOf, Bool.toNat_false]
  split <;> omega
theorem mpass_fn {pair : BitVec 1} {tile : BitVec 6} {acc raw : Bool} {af : BitVec 4} {fn : BitVec 14}
    (h : fn = BitVec.ofNat 14 (pair.toNat + 2 * tile.toNat + 128 * acc.toNat + 256 * af.toNat + 4096 * raw.toNat)) :
    fnField fn 0 1 = pair.toNat ∧ fnField fn 1 6 = tile.toNat ∧ fnField fn 7 1 = acc.toNat ∧ fnField fn 8 4 = af.toNat ∧ fnField fn 12 1 = raw.toNat ∧
      fn.toNat < 8192 := by
  have := pair.isLt; have := tile.isLt; have := acc.toNat_lt; have := af.isLt; have := raw.toNat_lt
  simp only [h, fnField_ofNat, BitVec.toNat_ofNat]; omega
theorem mmov_fn {tile q : BitVec 6} {n : BitVec 2} {fn : BitVec 14} (h : fn = BitVec.ofNat 14 (tile.toNat + 64 * q.toNat + 4096 * n.toNat)) :
    fnField fn 0 6 = tile.toNat ∧ fnField fn 6 6 = q.toNat ∧ fnField fn 12 2 = n.toNat ∧ fn.toNat < 4096 * (n.toNat + 1) := by
  have := tile.isLt; have := q.isLt; have := n.isLt
  simp only [h, fnField_ofNat, BitVec.toNat_ofNat]; omega
theorem msta_fn {tile : BitVec 6} {bf : Bool} {fn : BitVec 14} (h : fn = BitVec.ofNat 14 (tile.toNat + 64 * bf.toNat)) :
    fnField fn 0 6 = tile.toNat ∧ fnField fn 6 1 = bf.toNat ∧ fn.toNat < 128 := by
  have := tile.isLt; have := bf.toNat_lt
  simp only [h, fnField_ofNat, BitVec.toNat_ofNat]; omega

/-! ### Layouts of fn: what the encoder puts back of what the decoder reads -/

theorem fnBit_of_lt {fn : BitVec 14} (h : fn.toNat < 2) : fnBit (fn == 1#14) 0 = fn := by
  apply BitVec.eq_of_toNat_eq
  rcases (by omega : fn.toNat = 0 ∨ fn.toNat = 1) with h | h <;> simp [fnBit, ← BitVec.toNat_inj, h]
theorem fn_eq_zero {fn : BitVec 14} (h : fn.toNat < 2) (h1 : fn ≠ 1) : fn = 0 := by
  have : fn.toNat ≠ 1 := fun h => h1 (BitVec.eq_of_toNat_eq h)
  exact BitVec.eq_of_toNat_eq (show fn.toNat = 0 by omega)
theorem eq_cinFn_none {fn : BitVec 14} (h : fn.toNat < 16) (h3 : fn.getLsbD 3 = true) : fn = cinFn none (fn.setWidth 3) := by
  refine ofNat_of_toNat ?_
  rw [getLsbD_eq_true] at h3
  simp only [toNat_setWidth_fn, fnField, Option.isNone_none, if_true] at h3 ⊢
  omega
theorem eq_cinFn_some {fn : BitVec 14} (h : fn.toNat < 16) (h3 : fn.getLsbD 3 = false) (p : Pred) : fn = cinFn (some p) (fn.setWidth 3) := by
  refine ofNat_of_toNat ?_
  rw [getLsbD_eq_false] at h3
  simp only [toNat_setWidth_fn, fnField, Option.isNone_some, Bool.false_eq_true, if_false] at h3 ⊢
  omega
theorem eq_pmov_fn {fn : BitVec 14} (h : fn.toNat < 256) (h0 : fnField fn 0 1 ≠ 0) :
    fn = BitVec.ofNat 14 (1 + 2 * (BitVec.ofNat 7 (fnField fn 1 7)).toNat) := by
  refine ofNat_of_toNat ?_
  rw [toNat_ofNat_fnField]
  simp only [fnField] at h0 ⊢
  omega
theorem eq_low_fn {fn : BitVec 14} (h : fn.toNat < 64) (h5 : fn.getLsbD 5 = true) (h0 : fnField fn 0 5 = 0) : fn = BcastSrc.low.fn := by
  refine ofNat_of_toNat (n := 32) ?_
  rw [getLsbD_eq_true] at h5
  simp only [fnField] at h5 h0
  omega
theorem eq_lane_fn {fn : BitVec 14} (h : fn.toNat < 64) (h5 : fn.getLsbD 5 = false) : fn = (BcastSrc.lane (fn.setWidth 5)).fn := by
  refine (setWidth_setWidth_fn ?_).symm
  rw [getLsbD_eq_false] at h5
  simp only [fnField] at h5
  omega
theorem eq_shfl_fn {fn : BitVec 14} (h : fn.toNat < 32) :
    fn = BitVec.ofNat 14 ((shflOf (fnField fn 0 2)).code + 4 * (BitVec.ofNat 3 (fnField fn 2 3)).toNat) := by
  refine ofNat_of_toNat ?_
  rw [code_shflOf, toNat_ofNat_fnField]
  simp only [fnField]
  omega
theorem hpush_flags : ∀ {b : BitVec 8}, b.toNat < 4 → BitVec.ofNat 8 (b[0].toNat + 2 * b[1].toNat) = b := by decide

/-! ### Operand B and the shapes of words (R57, R60, R63) -/

theorem req_eq_some {b : Bool} {k : Option Instr} {i : Instr} : req b k = some i ↔ b = true ∧ k = some i := by
  cases b <;> simp [req]

/-- Operand B is in the X form. -/
def Opnd.isLit : Opnd → Bool
  | .reg _ => false
  | .lit _ => true
/-- What field b holds of operand B. -/
def Opnd.field : Opnd → BitVec 8
  | .reg r => r
  | .lit _ => 0
/-- What lit32 holds of operand B. -/
def Opnd.lit32 : Opnd → W32
  | .reg _ => 0
  | .lit v => v

/-- Fields that a word can have: only an X word has a literal. -/
def Raw.Canonical (r : Raw) : Prop := r.x = false → r.lit = 0

/-- Fields of a word that hold an operand B. -/
structure Raw.HasB (r : Raw) (b : Opnd) : Prop where
  x : r.x = b.isLit
  field : r.b = b.field
  lit : r.lit = b.lit32

theorem Raw.hasB_lit {r : Raw} {v : W32} : r.HasB (.lit v) ↔ r.x = true ∧ r.b = 0 ∧ r.lit = v :=
  ⟨fun ⟨hx, hf, hl⟩ => ⟨hx, hf, hl⟩, fun ⟨hx, hf, hl⟩ => ⟨hx, hf, hl⟩⟩
theorem Raw.tyCode_tyc (r : Raw) : tyCode r.tyc = r.ty := tyCode_tyOf _
theorem Raw.tyc_eq_iff {r : Raw} {t : Ty} : r.tyc = t ↔ r.ty = tyCode t := tyOf_eq_iff
theorem Raw.rnd3_eq_some {r : Raw} {m : Rnd} : r.rnd3 = some m ↔ r.fn = m.fn := by
  rw [Raw.rnd3, rndOf_eq_some, Rnd.fn]
  have := m.code_lt
  exact ⟨ofNat_of_toNat, fun h => by rw [h, BitVec.toNat_ofNat]; omega⟩
theorem atomFnOf_eq (sp : Bool) (ty : Ty) : atomFnOf sp ty = sp.toNat + atomFnOf false ty := by simp [atomFnOf]
theorem Raw.atomFn_iff {r : Raw} : r.atomFn = true ↔ atomFnOf false r.tyc = 2 * fnField r.fn 1 5 := by
  rw [Raw.atomFn, beq_iff_eq, atomFnOf]
  split <;> simp <;> omega

theorem Raw.opB_eq_some {r : Raw} (hr : r.Canonical) {b : Opnd} : r.opB = some b ↔ r.HasB b := by
  obtain ⟨x, op, d, a, f, c, gp, gneg, ty, fn, lit⟩ := r
  constructor
  · intro h
    cases x <;> simp only [Raw.opB, Bool.false_eq_true, if_false, if_true, Option.some.injEq, Option.ite_none_right_eq_some] at h
    · subst h; exact ⟨rfl, rfl, hr rfl⟩
    · obtain ⟨hf, rfl⟩ := h; exact ⟨rfl, beq_iff_eq.mp hf, rfl⟩
  · rintro ⟨hx, hf, hl⟩
    cases b <;> cases hx <;> cases hf <;> cases hl <;> rfl
theorem Raw.mem_eq_some {r : Raw} (hr : r.Canonical) {m : Addr} :
    r.mem = some m ↔ r.HasB m.idx ∧ r.a = m.a ∧ m.scale.toNat = fnField r.fn 6 2 := by
  obtain ⟨a, idx, scale⟩ := m
  simp only [Raw.mem, Option.bind_eq_some_iff, opB_eq_some hr, Option.some.injEq, Addr.mk.injEq]
  constructor
  · rintro ⟨b, hb, ha, rfl, rfl⟩; exact ⟨hb, ha, toNat_ofNat_fnField ..⟩
  · rintro ⟨hb, ha, hs⟩; exact ⟨idx, hb, ha, rfl, by rw [← hs]; simp⟩

theorem rawB_eq_some {op : BitVec 8} {g : Guard} {ty : Ty} {d a c : BitVec 8} {b : Opnd} {fn : BitVec 14} {r : Raw} :
    rawB op g ty d a b c fn = some r ↔ r.HasB b ∧ r.op = op ∧ r.guard = g ∧ r.ty = tyCode ty ∧ r.d = d ∧ r.a = a ∧ r.c = c ∧ r.fn = fn := by
  obtain ⟨x, op', d', a', f, c', gp, gneg, ty', fn', lit⟩ := r
  obtain ⟨gp', gneg'⟩ := g
  constructor
  · intro h; cases b <;> cases h <;> exact ⟨⟨rfl, rfl, rfl⟩, rfl, rfl, rfl, rfl, rfl, rfl, rfl⟩
  · rintro ⟨⟨hx, hf, hl⟩, ho, hg, ht, hd, ha, hc, hfn⟩
    cases hg
    cases b <;> simp_all [rawB, Opnd.isLit, Opnd.field, Opnd.lit32]
theorem rawL_eq_some {op : BitVec 8} {g : Guard} {ty : Ty} {d a b c : BitVec 8} {fn : BitVec 14} {r : Raw} (hr : r.Canonical) :
    rawL op g ty d a b c fn = some r ↔
      r.x = false ∧ r.op = op ∧ r.guard = g ∧ r.ty = tyCode ty ∧ r.d = d ∧ r.a = a ∧ r.b = b ∧ r.c = c ∧ r.fn = fn := by
  obtain ⟨x, op', d', a', f, c', gp, gneg, ty', fn', lit⟩ := r
  obtain ⟨gp', gneg'⟩ := g
  simp only [rawL, Option.some.injEq, Raw.mk.injEq, Raw.guard, Guard.mk.injEq]
  constructor
  · rintro ⟨rfl, rfl, rfl, rfl, rfl, rfl, rfl, rfl, rfl, rfl, rfl⟩; simp
  · rintro ⟨rfl, rfl, ⟨rfl, rfl⟩, rfl, rfl, rfl, rfl, rfl, rfl⟩; simpa using (hr rfl).symm
theorem rawM_eq_some {op : BitVec 8} {g : Guard} {ty : Ty} {d c : BitVec 8} {m : Addr} {fn : Nat} {r : Raw} :
    rawM op g ty d m c fn = some r ↔ r.HasB m.idx ∧ r.op = op ∧ r.guard = g ∧ r.ty = tyCode ty ∧ r.d = d ∧ r.a = m.a ∧ r.c = c ∧
      r.fn = BitVec.ofNat 14 (fn + 64 * m.scale.toNat) := rawB_eq_some
theorem Raw.raw_of_target {r : Raw} (hr : r.Canonical) {t : Target} {op : BitVec 8} (ho : r.op = op) (ht : r.ty = 0) (hf : r.fn = 0)
    (h : r.target = some t) : rawT op r.guard r.d t = some r := by
  obtain ⟨x, op', d', a, b, c, gp, gneg, ty, fn, lit⟩ := r
  cases ho; cases ht; cases hf
  cases x <;> simp only [Raw.target, Bool.false_eq_true, if_false, if_true, Option.some.injEq, Option.ite_none_right_eq_some, Bool.and_eq_true, beq_iff_eq] at h
  · cases hr rfl
    subst h
    simp (disch := omega) only [rawT, BitVec.extractLsb'_append_eq_of_le, BitVec.extractLsb'_append_eq_of_add_le, Nat.sub_self, Nat.reduceSub,
      BitVec.extractLsb'_eq_self]
    rfl
  · obtain ⟨⟨⟨rfl, rfl⟩, rfl⟩, rfl⟩ := h
    rfl
theorem Raw.raw_of_bin {r : Raw} {i : Instr} {op : BitVec 8} {k : Guard → Ty → Reg → Reg → Opnd → Instr} (hr : r.Canonical) (ho : r.op = op)
    (hk : ∀ g ty d a b, (k g ty d a b).raw = rawB op g ty d a b 0 0) (h : r.bin k = some i) : i.raw = some r := by
  simp only [Raw.bin, req_eq_some, Option.bind_eq_some_iff, opB_eq_some hr, Bool.and_eq_true, beq_iff_eq, Option.some.injEq] at h
  obtain ⟨⟨hc, hfn⟩, b, hb, rfl⟩ := h
  rw [hk, rawB_eq_some]
  exact ⟨hb, ho, rfl, (tyCode_tyOf _).symm, rfl, rfl, hc, hfn⟩

theorem Raw.raw_of_ter {r : Raw} {i : Instr} {op : BitVec 8} {k : Guard → Ty → Reg → Reg → Opnd → Reg → Instr} (hr : r.Canonical) (ho : r.op = op)
    (hk : ∀ g ty d a b c, (k g ty d a b c).raw = rawB op g ty d a b c 0) (h : r.ter k = some i) : i.raw = some r := by
  simp only [Raw.ter, req_eq_some, Option.bind_eq_some_iff, opB_eq_some hr, beq_iff_eq, Option.some.injEq] at h
  obtain ⟨hfn, b, hb, rfl⟩ := h
  rw [hk, rawB_eq_some]
  exact ⟨hb, ho, rfl, (tyCode_tyOf _).symm, rfl, rfl, rfl, hfn⟩

theorem Raw.raw_of_carry {r : Raw} {i : Instr} {op : BitVec 8} {k : Guard → Ty → Reg → Reg → Opnd → Option Pred → Pred → Instr} (hr : r.Canonical)
    (ho : r.op = op) (hk : ∀ g ty d a b cin cout, (k g ty d a b cin cout).raw = rawB op g ty d a b (cinC cin) (cinFn cin cout))
    (h : r.carry k = some i) : i.raw = some r := by
  simp only [Raw.carry, req_eq_some, Option.bind_eq_some_iff, opB_eq_some hr, decide_eq_true_eq] at h
  obtain ⟨hlt, b, hb, h⟩ := h
  split at h
  next hs =>
    simp only [req_eq_some, beq_iff_eq, Option.some.injEq] at h
    obtain ⟨hc, rfl⟩ := h
    rw [hk, rawB_eq_some]
    exact ⟨hb, ho, rfl, r.tyCode_tyc.symm, rfl, rfl, hc, eq_cinFn_none hlt hs⟩
  next hs =>
    simp only [Option.bind_eq_some_iff, predOf_eq_some, Option.some.injEq] at h
    obtain ⟨p, hc, rfl⟩ := h
    rw [hk, rawB_eq_some]
    exact ⟨hb, ho, rfl, r.tyCode_tyc.symm, rfl, rfl, hc, eq_cinFn_some hlt (Bool.eq_false_iff.mpr hs) p⟩

theorem Raw.raw_of_una {r : Raw} {i : Instr} {op : BitVec 8} {k : Guard → Ty → Reg → Reg → Instr} (hr : r.Canonical) (ho : r.op = op)
    (hk : ∀ g ty d a, (k g ty d a).raw = rawL op g ty d a 0 0 0) (h : r.una k = some i) : i.raw = some r := by
  simp only [Raw.una, req_eq_some, Bool.and_eq_true, Bool.not_eq_true', beq_iff_eq, Option.some.injEq] at h
  obtain ⟨⟨⟨⟨hx, hb⟩, hc⟩, hfn⟩, rfl⟩ := h
  rw [hk, rawL_eq_some hr]
  exact ⟨hx, ho, rfl, (tyCode_tyOf _).symm, rfl, rfl, hb, hc, hfn⟩

/-- Fields that build an instruction are those of that instruction. -/
theorem Raw.raw_of_build {i : Instr} {r : Raw} (hr : r.Canonical) (h : r.build = some i) : i.raw = some r := by
  unfold Raw.build at h
  split at h <;> rename_i hop
  case h_144 => cases h
  all_goals replace hop := ofNat_of_toNat hop
  case h_4 | h_5 | h_8 | h_9 | h_11 | h_12 | h_15 | h_16 | h_17 | h_18 | h_20 | h_21 | h_22 | h_23 | h_25 | h_26 | h_27 | h_29 | h_62 | h_63 =>
    exact raw_of_bin hr hop (fun _ _ _ _ _ => rfl) h
  case h_1 | h_13 | h_14 | h_24 | h_31 | h_32 | h_33 | h_34 | h_67 | h_71 | h_72 | h_73 | h_74 | h_75 | h_76 | h_77 | h_78 | h_82 =>
    exact raw_of_una hr hop (fun _ _ _ _ => rfl) h
  case h_10 | h_30 => exact raw_of_ter hr hop (fun _ _ _ _ _ _ => rfl) h
  case h_6 | h_7 => exact raw_of_carry hr hop (fun _ _ _ _ _ _ _ => rfl) h
  all_goals simp only [req_eq_some, Option.bind_eq_some_iff, Option.some.injEq, Bool.and_eq_true, Bool.not_eq_true', beq_iff_eq, decide_eq_true_eq,
    noRegs, tyc_eq_iff, opB_eq_some hr, mem_eq_some hr, rnd3_eq_some, predOf_eq_some, blkModeOf_toNat_eq_some, scopeOf_toNat_eq_some, icmpOf_eq_some,
    rndOf_eq_some, redOpOf_eq_some, spaceOf_eq_some, widthOf_eq_some, atomOpOf_eq_some, keepFn, atomFn_iff, srcTy, groupH, getLsbD_eq_false] at h
  -- rows whose fields say which of two instructions or operands they stand for: EXIT and RDROP
  case h_46 | h_128 =>
    obtain ⟨hc, rfl⟩ := h
    split
    · simp [Instr.raw, rawL_eq_some hr, tyCode_b32, *]
    · have := fn_eq_zero hc.2 ‹_›
      simp [Instr.raw, rawL_eq_some hr, tyCode_b32, *]
  -- PMOV, BCAST, BWAIT, MOVSW
  case h_38 =>
    obtain ⟨⟨hc, hlt⟩, h⟩ := h
    split at h <;> simp only [req_eq_some, Bool.and_eq_true, beq_iff_eq, Option.some.injEq] at h <;> obtain ⟨hf, rfl⟩ := h
    · simp [Instr.raw, rawL_eq_some hr, tyCode_b32, *]
    next h1 =>
      have hfn := eq_pmov_fn hlt h1
      simp only [Instr.raw, rawL_eq_some hr, tyCode_b32, hop, hc, hf, ← hfn, BitVec.ofNat_eq_ofNat, and_self]
  case h_89 =>
    obtain ⟨⟨⟨⟨hx, hb⟩, hc⟩, hlt⟩, h⟩ := h
    split at h
    next h5 =>
      simp only [req_eq_some, beq_iff_eq, Option.some.injEq] at h
      obtain ⟨hf, rfl⟩ := h
      exact (rawL_eq_some hr).mpr ⟨hx, hop, rfl, r.tyCode_tyc.symm, rfl, rfl, hb, hc, eq_low_fn hlt h5 hf⟩
    next h5 =>
      obtain rfl := Option.some.inj h
      exact (rawL_eq_some hr).mpr ⟨hx, hop, rfl, r.tyCode_tyc.symm, rfl, rfl, hb, hc, eq_lane_fn hlt (Bool.eq_false_iff.mpr h5)⟩
  case h_115 =>
    obtain ⟨⟨hc, hlt⟩, h⟩ := h
    split at h
    · simp only [Option.bind_eq_some_iff, predOf_eq_some, Option.some.injEq] at h
      obtain ⟨pd, hd, rfl⟩ := h
      simp [Instr.raw, rawL_eq_some hr, tyCode_b32, *]
    · simp only [req_eq_some, Bool.and_eq_true, beq_iff_eq, Option.some.injEq] at h
      obtain ⟨hd, rfl⟩ := h
      have := fn_eq_zero hlt ‹_›
      simp [Instr.raw, rawL_eq_some hr, tyCode_b32, *]
  case h_40 =>
    obtain ⟨hc, rfl⟩ := h
    cases hx : r.x <;> simp_all [Instr.raw, rawL_eq_some hr, rawB_eq_some, tyCode_b32, hasB_lit]
  -- BRA and CALL
  case h_41 =>
    obtain ⟨⟨⟨hty, hfn⟩, hd⟩, t, ht, rfl⟩ := h
    rw [Instr.raw, ← hd]
    exact raw_of_target hr hop hty hfn ht
  case h_43 =>
    obtain ⟨⟨hty, hfn⟩, t, ht, rfl⟩ := h
    exact raw_of_target hr hop hty hfn ht
  -- SHFLI, HPUSH and RCP keep small numbers in register fields
  case h_88 =>
    obtain ⟨⟨⟨hx, hlt⟩, hb⟩, pc, hpc, rfl⟩ := h
    refine (rawL_eq_some hr).mpr ⟨hx, hop, rfl, r.tyCode_tyc.symm, rfl, rfl, ?_, hpc, eq_shfl_fn hlt⟩
    apply BitVec.eq_of_toNat_eq
    simp; omega
  case h_118 =>
    obtain ⟨⟨⟨hx, hty⟩, hb⟩, rfl⟩ := h
    obtain ⟨x, op, d, a, b, c, gp, gneg, ty, fn, lit⟩ := r
    simp_all [Instr.raw, Raw.guard, hpush_flags]
  case h_125 =>
    obtain ⟨⟨⟨hx, hty⟩, hlt⟩, rfl⟩ := h
    obtain ⟨x, op, d, a, b, c, gp, gneg, ty, fn, lit⟩ := r
    simp_all [Instr.raw, Raw.guard, setWidth_setWidth_fn]
  all_goals
    revert h
    simp only [and_imp, forall_exists_index]
    intros
    subst i
  -- rows whose fn is 0, one field or one bit
  case h_2 | h_3 | h_19 | h_28 | h_35 | h_37 | h_39 | h_42 | h_44 | h_45 | h_47 | h_48 | h_49 | h_50 | h_51 | h_52 | h_53 | h_54 | h_55 | h_56 | h_57 | h_58
    | h_59 | h_60 | h_61 | h_65 | h_66 | h_68 | h_69 | h_70 | h_83 | h_85 | h_86 | h_93 | h_94 | h_95 | h_106 | h_107 | h_108 | h_109 | h_111 | h_112 | h_113
    | h_114 | h_116 | h_117 | h_119 | h_120 | h_121 | h_122 | h_123 | h_124 | h_126 | h_127 | h_129 | h_130 | h_131 | h_132 | h_133 | h_134 | h_135 | h_136
    | h_141 | h_142 | h_143 =>
    simp [Instr.raw, rawL_eq_some hr, rawB_eq_some, tyCode_b32, tyCode_tyc, hasB_lit, setWidth_setWidth_fn, fnBit_of_lt, *]
  -- rows whose fn holds several fields
  case h_36 | h_64 | h_79 | h_80 | h_81 | h_84 | h_87 | h_90 | h_91 | h_92 | h_96 | h_97 | h_98 | h_99 | h_100 | h_101 | h_102 | h_103 | h_104 | h_105
    | h_110 | h_137 | h_138 | h_139 | h_140 =>
    simp only [Instr.raw, rawL_eq_some hr, rawB_eq_some, rawM_eq_some, tyCode_b32, tyCode_tyc, true_and, BitVec.ofNat_eq_ofNat, cvtFn, code_fcmpOf,
      code_combOf, code_shflOf, code_voteOf, code_rcnOpOf, toNat_ofNat_fnField, toNat_setWidth_fn, code_tyOf, atomFnOf_eq (BitVec.getLsbD _ _),
      toNat_getLsbD, Ty.code_b32, Bool.toNat_false, *]
    refine ofNat_of_toNat ?_
    simp only [fnField] at *
    omega

/-! ### From an instruction to its fields and back -/

theorem fields_of_rawB {op : BitVec 8} {g : Guard} {ty : Ty} {d a c : BitVec 8} {b : Opnd} {fn : BitVec 14} {r : Raw}
    (h : rawB op g ty d a b c fn = some r) :
    ∃ f, f = fn ∧ r = ⟨b.isLit, op, d, a, b.field, c, g.p, g.neg, tyCode ty, f, b.lit32⟩ := by
  cases b <;> cases h <;> exact ⟨_, rfl, rfl⟩
theorem fields_of_rawL {op : BitVec 8} {g : Guard} {ty : Ty} {d a b c : BitVec 8} {fn : BitVec 14} {r : Raw}
    (h : rawL op g ty d a b c fn = some r) : ∃ f, f = fn ∧ r = ⟨false, op, d, a, b, c, g.p, g.neg, tyCode ty, f, 0⟩ := by
  cases h; exact ⟨_, rfl, rfl⟩
@[simp] theorem Raw.opB_fields (op d a c : BitVec 8) (b : Opnd) (p : BitVec 3) (n : Bool) (ty : BitVec 4) (fn : BitVec 14) :
    Raw.opB ⟨b.isLit, op, d, a, b.field, c, p, n, ty, fn, b.lit32⟩ = some b := by cases b <;> rfl
theorem Raw.mem_fields (op d c : BitVec 8) (m : Addr) (p : BitVec 3) (n : Bool) (ty : BitVec 4) {fn : BitVec 14}
    (h : fnField fn 6 2 = m.scale.toNat) :
    Raw.mem ⟨m.idx.isLit, op, d, m.a, m.idx.field, c, p, n, ty, fn, m.idx.lit32⟩ = some m := by
  simp [Raw.mem, h]
@[simp] theorem Raw.bin_fields (op d a : BitVec 8) (b : Opnd) (g : Guard) (ty : Ty) (k) :
    Raw.bin ⟨b.isLit, op, d, a, b.field, 0, g.p, g.neg, tyCode ty, 0, b.lit32⟩ k = some (k g ty d a b) := by
  simp [Raw.bin, req, Raw.guard, Raw.tyc]

@[simp] theorem Raw.ter_fields (op d a c : BitVec 8) (b : Opnd) (g : Guard) (ty : Ty) (k) :
    Raw.ter ⟨b.isLit, op, d, a, b.field, c, g.p, g.neg, tyCode ty, 0, b.lit32⟩ k = some (k g ty d a b c) := by
  simp [Raw.ter, req, Raw.guard, Raw.tyc]

@[simp] theorem Raw.una_fields (op d a : BitVec 8) (g : Guard) (ty : Ty) (k) :
    Raw.una ⟨false, op, d, a, 0, 0, g.p, g.neg, tyCode ty, 0, 0⟩ k = some (k g ty d a) := by
  simp [Raw.una, req, Raw.guard, Raw.tyc]
theorem Raw.rnd3_fields (x : Bool) (op d a b c : BitVec 8) (p : BitVec 3) (n : Bool) (ty : BitVec 4) (m : Rnd) (l : W32) :
    Raw.rnd3 ⟨x, op, d, a, b, c, p, n, ty, m.fn, l⟩ = some m := by cases m <;> rfl
theorem Raw.carry_fields (op d a : BitVec 8) (b : Opnd) (g : Guard) (ty : Ty) (cin : Option Pred) (cout : Pred) (k) :
    Raw.carry ⟨b.isLit, op, d, a, b.field, cinC cin, g.p, g.neg, tyCode ty, cinFn cin cout, b.lit32⟩ k = some (k g ty d a b cin cout) := by
  rw [Raw.carry, req_eq_some, opB_fields, Option.bind_some, cinFn_getLsbD, cinFn_setWidth]
  refine ⟨decide_eq_true (cinFn_lt ..), ?_⟩
  cases cin <;> simp [cinC, req, Raw.guard, Raw.tyc]
theorem parcels_target (o : BitVec 24) : o.extractLsb' 16 8 ++ o.extractLsb' 8 8 ++ o.extractLsb' 0 8 = o := by
  apply BitVec.eq_of_getLsbD_eq
  intro k hk
  simp only [BitVec.getLsbD_append, BitVec.getLsbD_extractLsb']
  grind

/-- The fields of an instruction build it. -/
theorem Raw.build_of_raw {i : Instr} {r : Raw} (h : i.raw = some r) : r.build = some i := by
  cases i with
  | iadd g ty d a b | isub g ty d a b | imul g ty d a b | imulh g ty d a b | idiv g ty d a b | irem g ty d a b | imin g ty d a b | imax g ty d a b
  | iadds g ty d a b | isubs g ty d a b | and g ty d a b | or g ty d a b | xor g ty d a b | andn g ty d a b | shl g ty d a b | shr g ty d a b
  | sar g ty d a b | bfe g ty d a b | fmin g ty d a b | fmax g ty d a b =>
    obtain ⟨_, rfl, rfl⟩ := fields_of_rawB h
    exact bin_fields ..
  | imad g ty d a b c | bfi g ty d a b c =>
    obtain ⟨_, rfl, rfl⟩ := fields_of_rawB h
    exact ter_fields ..
  | mov g ty d a | ineg g ty d a | iabs g ty d a | not g ty d a | popc g ty d a | clz g ty d a | ctz g ty d a | brev g ty d a | fclass g ty d a
  | frcp g ty d a | frsq g ty d a | fexp2 g ty d a | flog2 g ty d a | fsin g ty d a | fcos g ty d a | ftanh g ty d a | fsigm g ty d a | olunpk g ty d a =>
    cases h
    exact una_fields ..
  | iaddc | isubb =>
    obtain ⟨_, rfl, rfl⟩ := fields_of_rawB h
    exact carry_fields ..
  | movs | wtime | ret | exit | exitSaved | yield | trap | brk | rtt | cbsync | tlbinv | nop | pack | unpack | lser | lsend | slook | stag | ofence
  | barinit | arrive | bwait | bdrop | hpop | drop | tokst | rend | rmat | rdrop | rdropKill | rstat | cclose | cappend | cdone | cquiet | bkmv | bkgth
  | bkst  =>
    cases h
    rfl
  | sel | bperm | brx | callx | expect | perform | resume | resumem =>
    obtain ⟨_, rfl, rfl⟩ := fields_of_rawB h
    show req _ _ = _
    simp [req, Raw.guard, tyc, tyCode_b32]
  | movi =>
    cases h
    show req _ _ = _
    simp [req, Raw.guard, tyc]
  | fadd | fsub | fmul | fdiv =>
    obtain ⟨_, rfl, rfl⟩ := fields_of_rawB h
    show req _ _ = _
    simp [req, Raw.guard, tyc, rnd3_fields]
  | ffma =>
    obtain ⟨_, rfl, rfl⟩ := fields_of_rawB h
    show Option.bind _ _ = _
    simp [Raw.guard, tyc, rnd3_fields]
  | lea g d a b x =>
    obtain ⟨_, rfl, rfl⟩ := fields_of_rawB h
    show req _ _ = _
    have := x.isLt
    simp [req, Raw.guard, tyc]
    omega
  | plop g pd pa pb pc x =>
    cases h
    have := x.isLt
    show req _ _ = _
    simp [req, Raw.guard, tyCode_b32]
    omega
  | wait _ _ _ _ _ x | rqrd _ _ _ x | rqwr _ _ _ x =>
    cases h
    have := x.isLt
    show req _ _ = _
    simp [req, Raw.guard, tyCode_b32]
    omega
  | mldw _ x _ | mswap _ x =>
    cases h
    have := x.isLt
    show req _ _ = _
    simp [req, Raw.guard, tyCode_b32]
    omega
  | rot =>
    obtain ⟨_, rfl, rfl⟩ := fields_of_rawB h
    show req _ _ = _
    simp [req, Raw.guard, tyc, fnBit_le, fnBit_beq_one]
  | cpy | cpyg =>
    cases h
    show req _ _ = _
    simp [req, Raw.guard, tyCode_b32, fnBit_le, fnBit_beq_one]
  | frnd | fscale | fdot | fsqrt | matchv | btest | bwaitTo | ctake =>
    cases h
    show req _ _ = _
    simp [req, Raw.guard, tyc, rnd3_fields, tyCode_b32]
  | blkhdr =>
    cases h
    show req _ (Option.bind _ _) = _
    rw [blkModeOf_toNat_eq_some.mpr rfl]
    simp [req, Raw.guard, tyc]
  | pmov g dir =>
    cases dir with
    | toReg =>
      cases h
      show req _ (if fnField 0 0 1 == 0 then _ else _) = _
      simp [fnField, req, Raw.guard, tyCode_b32]
    | fromReg a mask =>
      obtain ⟨fn, hfn, rfl⟩ := fields_of_rawL h
      obtain ⟨h0, hmask, hlt⟩ := pmov_fn hfn
      show req _ (if fnField _ 0 1 == 0 then _ else _) = _
      simp [req, Raw.guard, tyCode_b32, h0, hmask, hlt]
  | movsw g sr src => cases src <;> cases h <;> rfl
  | bra g t | call g d t =>
    cases t <;> cases h <;> show req _ _ = _ <;> simp [target, parcels_target, req, Raw.guard]
  | hpush g mu wi => cases mu <;> cases wi <;> cases h <;> show req _ _ = _ <;> simp [req, Raw.guard]
  | rcp g n =>
    cases h
    have := n.isLt
    show req _ _ = _
    simp [req, Raw.guard]
    omega
  | bcast g ty d a src =>
    cases src with
    | low =>
      cases h
      show req _ (if BitVec.getLsbD 32#14 5 then req (fnField 32#14 0 5 == 0) _ else _) = _
      simp [fnField, req, Raw.guard, tyc, BcastSrc.fn]
    | lane k =>
      obtain ⟨fn, hfn, rfl⟩ := fields_of_rawL h
      obtain ⟨h5, hk, hlt⟩ := bcast_fn hfn
      show req _ (if BitVec.getLsbD fn 5 then _ else _) = _
      simp [req, Raw.guard, tyc, getElem_of_field h5, setWidth_of_field hk, hlt]
  | setp =>
    obtain ⟨fn, hfn, rfl⟩ := fields_of_rawB h
    obtain ⟨hcmp, hcomb, hlt⟩ := setp_fn hfn
    show req _ _ = _
    simp [req, Raw.guard, tyc, hcmp, hcomb, hlt]
  | fsetp =>
    obtain ⟨fn, hfn, rfl⟩ := fields_of_rawB h
    obtain ⟨hcmp, hcomb, h0, hlt⟩ := fsetp_fn hfn
    show req _ _ = _
    simp [req, Raw.guard, tyc, hcmp, hcomb, h0, hlt]
  | cvt | cvtq | olpack =>
    obtain ⟨fn, hfn, rfl⟩ := fields_of_rawL h
    obtain ⟨hm, hs, hsrc, hk, hlt⟩ := cvt_fn hfn
    show req _ _ = _
    simp [req, Raw.guard, tyc, srcTy, groupH, hm, getElem_of_field hs, hsrc, hk, hlt]
  | dq =>
    obtain ⟨fn, hfn, rfl⟩ := fields_of_rawL h
    obtain ⟨hm, h0, hk, hlt⟩ := dq_fn hfn
    show req _ _ = _
    simp [req, Raw.guard, tyc, groupH, hm, h0, hk, hlt]
  | shfl =>
    obtain ⟨fn, hfn, rfl⟩ := fields_of_rawL h
    obtain ⟨hmd, hw, hlt⟩ := shfl_fn hfn
    show req _ _ = _
    simp [req, Raw.guard, tyc, hmd, hw, hlt]
  | shfli g ty md w d a imm pc =>
    obtain ⟨fn, hfn, rfl⟩ := fields_of_rawL h
    obtain ⟨hmd, hw, hlt⟩ := shfl_fn hfn
    have := imm.isLt
    show req _ _ = _
    simp [req, Raw.guard, tyc, hmd, hw, hlt]
    omega
  | vote =>
    obtain ⟨fn, hfn, rfl⟩ := fields_of_rawL h
    obtain ⟨hmd, hinv, hlt⟩ := vote_fn hfn
    show req _ _ = _
    simp [req, Raw.guard, tyCode_b32, hmd, getElem_of_field hinv, hlt]
  | redux | scanx =>
    obtain ⟨fn, hfn, rfl⟩ := fields_of_rawL h
    obtain ⟨hm, ho, hlt⟩ := redux_fn hfn
    show req _ _ = _
    simp [req, Raw.guard, tyc, hm, ho, hlt]
  | fence =>
    obtain ⟨fn, hfn, rfl⟩ := fields_of_rawL h
    obtain ⟨hp, hq⟩ := fence_fn hfn
    show req _ (Option.bind _ _) = _
    rw [scopeOf_toNat_eq_some.mpr rfl]
    simp [req, Raw.guard, tyCode_b32, setWidth_of_field hp, hq]
  | ld =>
    obtain ⟨fn, hfn, rfl⟩ := fields_of_rawB h
    obtain ⟨hsp, hw, hsx, hsc, hlt⟩ := ld_fn hfn
    show req _ _ = _
    simp [req, Raw.guard, tyc, mem_fields (h := hsc), hsp, hw, getElem_of_field hsx, hlt]
  | st =>
    obtain ⟨fn, hfn, rfl⟩ := fields_of_rawB h
    obtain ⟨hsp, hw, hsx, hsc, hlt⟩ := ld_fn (sx := false) hfn
    show req _ _ = _
    simp [req, Raw.guard, tyc, mem_fields (h := hsc), hsp, hw, getElem_of_field hsx, hlt]
  | ldk | stk =>
    obtain ⟨fn, hfn, rfl⟩ := fields_of_rawB h
    obtain ⟨h0, -, hsc, hlt⟩ := keep_fn (n := 0) (by decide) hfn
    show req _ _ = _
    simp [req, Raw.guard, tyc, keepFn, mem_fields (h := hsc), h0, hlt]
  | ldsib g n =>
    obtain ⟨fn, hfn, rfl⟩ := fields_of_rawB h
    obtain ⟨h0, hn, hsc, hlt⟩ := keep_fn n.isLt hfn
    have := n.isLt
    show req _ _ = _
    simp [req, Raw.guard, tyc, keepFn, mem_fields (h := hsc), h0, hn]
    omega
  | rcn g o =>
    obtain ⟨fn, hfn, rfl⟩ := fields_of_rawB h
    obtain ⟨h0, hn, hsc, hlt⟩ := keep_fn o.code_lt hfn
    have := o.code_lt
    show req _ _ = _
    simp [req, Raw.guard, tyc, mem_fields (h := hsc), h0, hn]
    omega
  | pref =>
    obtain ⟨fn, hfn, rfl⟩ := fields_of_rawB h
    obtain ⟨h0, hk, h2, hsc, hl2, hlt⟩ := pref_fn hfn
    show req _ _ = _
    simp [req, Raw.guard, tyCode_b32, mem_fields (h := hsc), getElem_of_field (b := false) h0, getElem_of_field hk, h2, getElem_of_field hl2, hlt]
  | atom g sp o | red g sp o =>
    obtain ⟨fn, hfn, rfl⟩ := fields_of_rawB h
    obtain ⟨hsp, hw, hsc, ho, hlt⟩ := atom_fn o.code_lt hfn
    have := o.code_lt
    show req _ _ = _
    simp [req, Raw.guard, tyc, atomFn_iff, hw, mem_fields (h := hsc), getElem_of_field hsp, ho]
    omega
  | acas =>
    obtain ⟨fn, hfn, rfl⟩ := fields_of_rawB h
    obtain ⟨hsp, hw, hsc, -, hlt⟩ := atom_fn (n := 0) (by decide) hfn
    show req _ _ = _
    simp [req, Raw.guard, tyc, atomFn_iff, hw, mem_fields (h := hsc), getElem_of_field hsp, hlt]
  | mpass =>
    obtain ⟨fn, hfn, rfl⟩ := fields_of_rawL h
    obtain ⟨hpair, htile, hacc, haf, hraw, hlt⟩ := mpass_fn hfn
    show req _ _ = _
    simp [req, Raw.guard, tyCode_b32, setWidth_of_field hpair, htile, getElem_of_field hacc, haf, getElem_of_field hraw, hlt]
  | mzero =>
    obtain ⟨fn, hfn, rfl⟩ := fields_of_rawL h
    obtain ⟨htile, hnm1, -, hlt⟩ := mmov_fn (n := 0) hfn
    have hlt : fn.toNat < 4096 := hlt
    show req _ _ = _
    simp [req, Raw.guard, tyCode_b32, setWidth_of_field htile, hnm1, hlt]
  | mmov =>
    obtain ⟨fn, hfn, rfl⟩ := fields_of_rawL h
    obtain ⟨htile, hq, hn, -⟩ := mmov_fn hfn
    show req _ _ = _
    simp [req, Raw.guard, tyc, setWidth_of_field htile, hq, hn]
  | msta =>
    obtain ⟨fn, hfn, rfl⟩ := fields_of_rawL h
    obtain ⟨htile, hbf, hlt⟩ := msta_fn hfn
    show req _ _ = _
    simp [req, Raw.guard, tyCode_b32, setWidth_of_field htile, getElem_of_field hbf, hlt]
  | _ => cases h

/-! ### S parcels (R54 to R56) -/

theorem sWord_eta {w : W32} (h : w.extractLsb' 0 2 = 0) :
    sWord (w.extractLsb' 24 8) (w.extractLsb' 16 8) (w.extractLsb' 8 8) (w.extractLsb' 2 6) = w := by
  rw [sWord, ← h]
  apply BitVec.eq_of_getLsbD_eq
  intro k hk
  simp only [BitVec.getLsbD_append, BitVec.getLsbD_extractLsb']
  grind
theorem append_nibbles (w : W32) (k : Nat): w.extractLsb' (k + 4) 4 ++ w.extractLsb' k 4 = w.extractLsb' k 8 := by
  apply BitVec.eq_of_getLsbD_eq
  intro k hk
  simp only [BitVec.getLsbD_append, BitVec.getLsbD_extractLsb']
  grind
theorem extract_nibble (w : W32) {lo k : Nat} (h : k + 4 ≤ 8) : w.extractLsb' (lo + k) 4 = (w.extractLsb' lo 8).extractLsb' k 4 := by
  apply BitVec.eq_of_getLsbD_eq
  intro j hj
  simp only [BitVec.getLsbD_extractLsb']
  grind
theorem nibble_low (x y : BitVec 4) : (y ++ x).extractLsb' 0 4 = x := by
  simp (disch := omega) only [BitVec.extractLsb'_append_eq_of_add_le, BitVec.extractLsb'_eq_self]
theorem nibble_high (x y : BitVec 4) : (y ++ x).extractLsb' 4 4 = y := by
  simp (disch := omega) only [BitVec.extractLsb'_append_eq_of_le, Nat.sub_self, BitVec.extractLsb'_eq_self]

/-- The first two bits of an S parcel name its form (R53). -/
theorem sword_form {i : Instr} {w : W32} (h : i.sword = some w) : w.extractLsb' 0 2 = 0 := by
  cases i with
  | movS | iaddS | isubS | andS | orS | xorS | shlS | shrS | imulS | faddF32S | fmulF32S | faddF32x2S | fmulF32x2S | faddBf16x4S | fmulBf16x4S
  | iaddImmS | shlImmS | shrImmS | ldB64S | stB64S | retS | exitS | waitS | yieldS => cases h; exact sWord_form ..
  | _ => cases h

/-- The parcel of an S form builds it. -/
theorem buildS_of_sword {i : Instr} {w : W32} (h : i.sword = some w) : buildS w = some i := by
  cases i with
  | iaddS | isubS | andS | orS | xorS | shlS | shrS | imulS | faddF32S | fmulF32S | faddF32x2S | fmulF32x2S | faddBf16x4S | fmulBf16x4S
  | iaddImmS | shlImmS | shrImmS | ldB64S | stB64S | movS | retS | exitS | yieldS =>
    cases h
    simp only [buildS, sWord_op, sWord_b, sWord_a, sWord_d]
    rfl
  | waitS n1 n2 n3 n4 =>
    cases h
    have nib (lo k : Nat) (h : k + 4 ≤ 8) := extract_nibble (sWord 0 (n4 ++ n3) (n2 ++ n1) 23) (lo := lo) h
    have h1 := (nib 8 0 (by decide)).trans (by rw [sWord_d, nibble_low])
    have h2 := (nib 8 4 (by decide)).trans (by rw [sWord_d, nibble_high])
    have h3 := (nib 16 0 (by decide)).trans (by rw [sWord_a, nibble_low])
    have h4 := (nib 16 4 (by decide)).trans (by rw [sWord_a, nibble_high])
    simp only [Nat.add_zero, Nat.reduceAdd] at h1 h2 h3 h4
    simp only [buildS, sWord_op, sWord_b, h1, h2, h3, h4]
    rfl
  | _ => cases h

/-- A parcel that builds an S form is that form's. -/
theorem sword_of_buildS {i : Instr} {w : W32} (hf : w.extractLsb' 0 2 = 0) (h : buildS w = some i) : i.sword = some w := by
  have hw := sWord_eta hf
  unfold buildS at h
  dsimp only at h
  split at h <;> rename_i hop
  case h_25 => cases h
  all_goals rw [show w.extractLsb' 2 6 = BitVec.ofNat 6 _ from ofNat_of_toNat hop] at hw
  case h_1 | h_21 | h_22 | h_24 =>
    simp only [req_eq_some, Bool.and_eq_true, beq_iff_eq, Option.some.injEq] at h
    obtain ⟨hz, rfl⟩ := h
    simp only [hz] at hw
    exact congrArg some hw
  case h_23 =>
    simp only [req_eq_some, beq_iff_eq, Option.some.injEq] at h
    obtain ⟨hz, rfl⟩ := h
    rw [hz, ← append_nibbles w 16, ← append_nibbles w 8] at hw
    exact congrArg some hw
  all_goals
    cases h
    exact congrArg some hw

/-! ### Parcels -/

/-- A word is its fields. -/
theorem split_word (w : BitVec 64) : w.extractLsb' 50 14 ++ w.extractLsb' 46 4 ++ BitVec.ofBool (w.getLsbD 45) ++ w.extractLsb' 42 3 ++ w.extractLsb' 34 8 ++
    w.extractLsb' 26 8 ++ w.extractLsb' 18 8 ++ w.extractLsb' 10 8 ++ w.extractLsb' 2 8 ++ w.extractLsb' 0 2 = w := by
  apply BitVec.eq_of_getLsbD_eq
  intro k hk
  simp only [BitVec.getLsbD_append, BitVec.getLsbD_extractLsb', BitVec.getLsbD_ofBool]
  grind
theorem Raw.word_unpackRaw (x : Bool) (p0 p1 p2 : W32) (h : (p0.extractLsb' 0 2) = if x then 2 else 1) : (unpackRaw x p0 p1 p2).word = p1 ++ p0 := by
  have h2 : (p1 ++ p0).extractLsb' 0 2 = if x then 2 else 1 := by
    rw [BitVec.extractLsb'_append_eq_of_add_le (by omega), h]
  cases x <;> simp only [Raw.word, unpackRaw, Bool.false_eq_true, if_false, if_true] at h2 ⊢ <;> rw [← h2] <;> exact split_word _

theorem encode_of_sword {i : Instr} {w : W32} (h : i.sword = some w) : encode i = [w] := by rw [encode, h]

/-- An S form has no L or X word. -/
theorem sword_of_raw {i : Instr} {r : Raw} (h : i.raw = some r) : i.sword = none := by
  cases i with
  | movS | iaddS | isubS | andS | orS | xorS | shlS | shrS | imulS | faddF32S | fmulF32S | faddF32x2S | fmulF32x2S | faddBf16x4S | fmulBf16x4S
  | iaddImmS | shlImmS | shrImmS | ldB64S | stB64S | retS | exitS | waitS | yieldS => cases h
  | _ => rfl

theorem rawB_canonical {op : BitVec 8} {g : Guard} {ty : Ty} {d a c : BitVec 8} {b : Opnd} {fn : BitVec 14} {r : Raw}
    (h : rawB op g ty d a b c fn = some r) : r.Canonical := by
  cases b <;> cases h
  · exact fun _ => rfl
  · exact nofun
theorem rawT_canonical {op : BitVec 8} {g : Guard} {d : BitVec 8} {t : Target} {r : Raw} (h : rawT op g d t = some r) : r.Canonical := by
  cases t <;> cases h
  · exact fun _ => rfl
  · exact nofun

/-- The fields of an instruction have a literal in the X form only. -/
theorem Instr.raw_canonical {i : Instr} {r : Raw} (h : i.raw = some r) : r.Canonical := by
  cases i with
  | sel | iadd | isub | iaddc | isubb | imul | imulh | imad | idiv | irem | imin | imax | iadds | isubs | lea | and | or | xor | andn | shl | shr | sar | rot
  | bfe | bfi | bperm | setp | brx | callx | fadd | fsub | fmul | ffma | fmin | fmax | fsetp | fdiv | ld | st | ldk | stk | ldsib | rcn | pref | atom | red
  | acas | expect | perform | resume | resumem => exact rawB_canonical h
  | bra | call => exact rawT_canonical h
  | movi | hpush | rcp => cases h; exact nofun
  | pmov g dir => cases dir <;> cases h <;> exact fun _ => rfl
  | movsw g sr src =>
    cases src <;> cases h
    · exact fun _ => rfl
    · exact nofun
  | _ => cases h <;> exact fun _ => rfl

theorem encode_of_raw {i : Instr} {r : Raw} (h : i.raw = some r) : encode i = r.parcels := by rw [encode, sword_of_raw h, h]

theorem unpackRaw_canonical (x : Bool) (p0 p1 p2 : W32) : (unpackRaw x p0 p1 p2).Canonical := by
  rintro rfl
  rfl

/-- The S form of a parcel decodes, whatever follows it. -/
theorem decodeList_of_sword {i : Instr} {w : W32} (h : i.sword = some w) (hw : i.wf = true) (rest : List W32) :
    decodeList (w :: rest) = some (i, 1) := by
  have hf : (w.extractLsb' 0 2).toNat = 0 := by
    rw [sword_form h]
    rfl
  simp only [decodeList, decodeParcels, List.getD_cons_zero, hf, buildS_of_sword h, Option.bind_some, hw, if_true]

/-- What decodes is well formed, and its form and length are what the first two bits say (R53, R67). -/
theorem decodeParcels_eq_some {p0 p1 p2 : W32} {i : Instr} {n : Nat} (h : decodeParcels p0 p1 p2 = some (i, n)) :
    i.wf = true ∧ (p0.extractLsb' 0 2 = 0 ∧ buildS p0 = some i ∧ n = 1 ∨
      p0.extractLsb' 0 2 = 1 ∧ (unpackRaw false p0 p1 p2).build = some i ∧ n = 2 ∨
      p0.extractLsb' 0 2 = 2 ∧ (unpackRaw true p0 p1 p2).build = some i ∧ n = 3) := by
  unfold decodeParcels at h
  split at h
  case h_4 => cases h
  all_goals
    rename_i hf
    simp only [Option.bind_eq_some_iff, Option.ite_none_right_eq_some, Option.some.injEq, Prod.mk.injEq] at h
    obtain ⟨j, hb, hw, rfl, rfl⟩ := h
    simp [ofNat_of_toNat hf, hb, hw]

/-- The word of fields that parcels unpack to is the parcels' own. -/
theorem parcels_unpackRaw {x : Bool} {p0 p1 p2 : W32} (h : p0.extractLsb' 0 2 = if x then 2 else 1) :
    (unpackRaw x p0 p1 p2).parcels = if x then [p0, p1, p2] else [p0, p1] := by
  have hx : (unpackRaw x p0 p1 p2).x = x := rfl
  simp (disch := omega) only [Raw.parcels, hx, Raw.word_unpackRaw x p0 p1 p2 h, BitVec.extractLsb'_append_eq_of_le,
    BitVec.extractLsb'_append_eq_of_add_le, Nat.sub_self, BitVec.extractLsb'_eq_self]
  cases x <;> rfl

theorem encode_of_build {x : Bool} {p0 p1 p2 : W32} {i : Instr} (hf : p0.extractLsb' 0 2 = if x then 2 else 1) (hb : (unpackRaw x p0 p1 p2).build = some i) :
    encode i = if x then [p0, p1, p2] else [p0, p1] := by
  rw [encode_of_raw (Raw.raw_of_build (unpackRaw_canonical x p0 p1 p2) hb), parcels_unpackRaw hf]

end

/-- Settles O56, one direction by the instruction's form, the other by the form of the first parcel. -/
theorem roundTrip : Obligations.RoundTrip := by
  constructor
  · intro i rest hw he
    cases hs : i.sword with
    | some w =>
      rw [encode_of_sword hs]
      exact decodeList_of_sword hs hw rest
    | none =>
      cases hr : i.raw with
      | none => exact absurd (by rw [encode, hs, hr]) he
      | some r =>
        rw [encode_of_raw hr]
        exact Raw.decodes (Instr.raw_canonical hr) (Raw.build_of_raw hr) hw rest
  · intro p0 p1 p2 i n h
    obtain ⟨hw, ⟨hf, hb, rfl⟩ | ⟨hf, hb, rfl⟩ | ⟨hf, hb, rfl⟩⟩ := decodeParcels_eq_some h
    · exact ⟨hw, encode_of_sword (sword_of_buildS hf hb)⟩
    · exact ⟨hw, encode_of_build (x := false) hf hb⟩
    · exact ⟨hw, encode_of_build (x := true) hf hb⟩

/-- Settles O55: the decoder runs on the words. -/
theorem decodeWords : Obligations.DecodeWords :=
  ⟨rfl, rfl, rfl, rfl, rfl, rfl, rfl, rfl, rfl, rfl, rfl, rfl, rfl, rfl⟩

end Sys2Proof

/-! ## A step (O57): what waking, fetching and issuing leave, and the step assembled from them. -/

namespace Sys2Proof.Machine
open Host

section

/-! ### Waking -/

/-- A gang without what waking may change: since when it has had a ready thread, and which threads are stalled. -/
def Gang.bare (g : Gang) : Gang := { g with readySince := 0, threads := g.threads.map fun x => { x with stall := .none } }

/-- Of the whole state, nothing but the readiness of gangs and threads differs. -/
def State.Woken (s t : State) : Prop := t = { s with gangs := t.gangs } ∧ t.gangs.map Gang.bare = s.gangs.map Gang.bare

theorem State.Woken.refl (s : State) : s.Woken s := ⟨rfl, rfl⟩

theorem State.Woken.trans {s t u : State} (h : s.Woken t) (k : t.Woken u) : s.Woken u := by
  obtain ⟨hr, hb⟩ := h
  obtain ⟨kr, kb⟩ := k
  exact ⟨by rw [kr, hr], kb.trans hb⟩

theorem State.woken_modGang {s : State} {gid : Nat} {f : Gang → Gang} (h : ∀ g, (f g).bare = g.bare) : s.Woken (s.modGang gid f) := by
  refine ⟨rfl, ?_⟩
  simp only [State.modGang, List.map_map]
  refine List.map_congr_left fun g _ => ?_
  by_cases hg : g.gid = gid <;> simp [hg, h]

theorem State.woken_ready (s : State) (g : Gang) (ts : List Nat) : s.Woken (s.ready g ts) := by
  have stall : ∀ g' : Gang, Gang.bare { g' with threads := g'.threads.map fun x => if x.thr ∈ ts then { x with stall := .none } else x } = g'.bare := by
    intro g'
    simp only [Gang.bare, List.map_map]
    congr 1
    refine List.map_congr_left fun x _ => ?_
    by_cases hx : x.thr ∈ ts <;> simp [hx]
  unfold State.ready
  split
  · exact .refl s
  · have h : s.Woken (s.modThreads g.gid ts fun x => { x with stall := .none }) := State.woken_modGang stall
    dsimp only
    split
    · exact h.trans (State.woken_modGang fun _ => rfl)
    · exact h

theorem State.woken_foldl {α : Type} {f : State → α → State} (h : ∀ (t : State) a, t.Woken (f t a)) (xs : List α) (s : State) : s.Woken (xs.foldl f s) := by
  induction xs generalizing s with
  | nil => exact .refl s
  | cons a xs ih => exact (h s a).trans (ih _)

theorem State.woken_wake (s : State) : s.Woken s.wake :=
  State.woken_foldl (fun t _ => State.woken_foldl (fun u _ => u.woken_ready _ _) _ t) _ s

/-! ### Fetching -/

/-- An instruction's first parcel tells its length (R53); a pad is none. -/
theorem formLength_of_decodeParcels {p0 p1 p2 : W32} {i : Instr} {n : Nat} (h : decodeParcels p0 p1 p2 = some (i, n)) :
    formLength p0 = n ∧ 1 ≤ n ∧ n ≤ 3 := by
  obtain ⟨-, ⟨hf, -, rfl⟩ | ⟨hf, -, rfl⟩ | ⟨hf, -, rfl⟩⟩ := decodeParcels_eq_some h
  all_goals simp [formLength, hf]

theorem ne_pad_of_decodeParcels {p0 p1 p2 : W32} {i : Instr} {n : Nat} (h : decodeParcels p0 p1 p2 = some (i, n)) : p0 ≠ 0xFFFFFFFF := by
  rintro rfl
  obtain ⟨hl, hn, -⟩ := formLength_of_decodeParcels h
  rw [show formLength 0xFFFFFFFF = 0 from rfl] at hl
  omega

variable {l : FLine} {k n : Nat} {i : Instr}

theorem decodeParcels_of_drop (h : decodeList (l.parcels.drop k) = some (i, n)) :
    decodeParcels (l.parcels.getD k 0) (l.parcels.getD (k + 1) 0) (l.parcels.getD (k + 2) 0) = some (i, n) := by
  simpa [decodeList] using h

theorem FLine.decodeAt_of_drop (h : decodeList (l.parcels.drop k) = some (i, n)) (hk : k + n ≤ 15) : l.decodeAt k = some (i, n) := by
  have hd := decodeParcels_of_drop h
  obtain ⟨hl, -, -⟩ := formLength_of_decodeParcels hd
  unfold FLine.decodeAt
  rw [if_neg (by omega), hd]

theorem FLine.encAt_length (h : decodeList (l.parcels.drop k) = some (i, n)) : (l.encAt k).2.2 = n := by
  obtain ⟨hl, h1, h3⟩ := formLength_of_decodeParcels (decodeParcels_of_drop h)
  unfold FLine.encAt
  rw [hl]
  obtain rfl | rfl | rfl : n = 1 ∨ n = 2 ∨ n = 3 := by omega
  all_goals rfl

variable {s : State} {c : Context} {us : List ScopeUnit} {gid pc : Nat}

/-- What is fetched at an address of a line that reads, parity included, and does not forward. -/
theorem fetch_of_line (hb : s.line = none) (hr : readLine s c us pc = .ok l) (hm : l.map? = none) (hp : l.parcels.getD (parcelOf pc) 0 ≠ 0xFFFFFFFF) :
    fetch s c us gid pc = .ok (fetchIn s c us l pc) := by
  have hres : resolve s c us 3 pc = .ok (pc, .ok l) := by unfold resolve; rw [hr]; simp [hm]
  have ha : s.ahead gid pc = none := by simp [State.ahead, hb]
  unfold fetch
  rw [ha]
  unfold fetchGo
  simp only [hres, ne_eq, not_true_eq_false, false_and, if_false, hp]

/-- A group issues what its line holds at its PC. -/
theorem issueGroup_of_line {mask : List Nat} {e : Env} (he : s.env? gid = some e) (hb : s.line = none)
    (hr : readLine s e.c (e.place (mask.headD 0)).units pc = .ok l) (hm : l.map? = none) (hk : parcelOf pc + n ≤ 15)
    (hd : decodeList (l.parcels.drop (parcelOf pc)) = some (i, n)) :
    s.issueGroup gid pc mask = .ok (i, s.slot gid mask (fetchIn s e.c (e.place (mask.headD 0)).units l pc)) := by
  have hf := fetch_of_line (gid := gid) hb hr hm (ne_pad_of_decodeParcels (decodeParcels_of_drop hd))
  have hi : (fetchIn s e.c (e.place (mask.headD 0)).units l pc).instr = some i := by
    simp [fetchIn, FLine.decodeAt_of_drop hd hk]
  have hpc : (fetchIn s e.c (e.place (mask.headD 0)).units l pc).pc = pc := rfl
  unfold State.issueGroup
  simp only [he, hf, hi, hpc, if_true]

/-! ### The second of a pair -/

theorem thenSecond_of_none {t : State} {o : Host.Outcome State Fault Refusal} (h : t.cur.pair = none) : thenSecond t o = o := by
  unfold thenSecond
  split
  · rename_i hp
    rw [h] at hp
    cases hp
  · rfl

theorem thenSecond_stays {t u : State} {p : PairInfo} (h : t.cur.pair = some p) (h2 : t.secondGoes u t.cur p = false) :
    thenSecond t (.next u) = .next u := by
  unfold thenSecond
  rw [h]
  dsimp only
  rw [h2]
  rfl

theorem thenSecond_goes {t u v : State} {p : PairInfo} {j : Instr} (h : t.cur.pair = some p) (h2 : t.secondGoes u t.cur p = true)
    (hj : u.issueSecond t.cur p = .ok (j, v)) : thenSecond t (.next u) = exec j v := by
  unfold thenSecond
  rw [h]
  dsimp only
  rw [if_pos h2, hj]

theorem issueSecond_of_decode {u : State} {c : IssueSlot} {p : PairInfo} {j : Instr}
    (h : decodeParcels (BitVec.ofNat 32 p.enc.toNat) (BitVec.ofNat 32 (p.enc.toNat / 2 ^ 32)) p.lit = some (j, k)) :
    u.issueSecond c p = .ok (j, { u with cur := ⟨c.gid, p.pc, p.next, c.mask, p.enc, p.lit, p.len, none, none, true, [], c.late⟩ }) := by
  unfold State.issueSecond
  rw [h]

/-! ### The step -/

/-- A group's first instruction in the issue slot, fetched from a line at hand. -/
theorem slot_fetchIn {mask : List Nat} (h : (l.encAt (parcelOf pc)).2.2 = n) : s.slot gid mask (fetchIn s c us l pc) =
    { s.modGang gid (fun g => { g with readySince := s.cycle + 1 }) with
      line := none, cur := ⟨gid, pc, nextPc s c us l (lineOf pc) (parcelOf pc) n, mask, (l.encAt (parcelOf pc)).1,
        (l.encAt (parcelOf pc)).2.1, n, (fetchIn s c us l pc).pair, none, false, [], 0⟩ } := by
  subst h
  rfl

/-- Where the agenda is empty and the default order chooses an issue, the step is that issue, one cycle later. -/
theorem step_of_plan_issue {a : Choice} (ha : s.agenda = []) (hp : s.wake.plan = .issue a) : step s = run s.wake.tick a 0 := by
  have hw : s.wake.agenda = [] := by rw [(State.woken_wake s).1]; exact ha
  unfold step State.go
  rw [hw, hp]

theorem step_of_agenda {e : Event} {rest : List Event} (ha : s.agenda = e :: rest) : step s = take { s.wake with agenda := rest } e := by
  have hw : s.wake.agenda = e :: rest := by rw [(State.woken_wake s).1]; exact ha
  unfold step State.go
  rw [hw]

end

/-- Settles O57: waking changes readiness only (`woken_wake`), a group issues what its line holds (`issueGroup_of_line`), with the second of
its pair (`thenSecond_goes`), and an event of the agenda is taken as it stands (`step_of_agenda`). -/
theorem stepRunsDecoded : Obligations.StepRunsDecoded := by
  unfold Obligations.StepRunsDecoded
  refine ⟨fun s => State.woken_wake s, ?_, ?_⟩
  · intro s gid pc mask e l i n t us ha hp he hb hr hm hk hd v
    have hv : State.slot t gid mask (fetchIn t e.c us l pc) = v := slot_fetchIn (FLine.encAt_length hd)
    have hi : t.issue (.group gid pc mask) = .ok (i, v) := hv ▸ issueGroup_of_line he hb hr hm hk hd
    have hs : step s = thenSecond v (exec i v) := by
      rw [step_of_plan_issue ha hp]
      unfold run
      rw [hi]
    refine ⟨fun hn => hs.trans (thenSecond_of_none hn), fun u p hpair hx => ?_⟩
    rw [hs, hx]
    exact ⟨thenSecond_stays hpair, fun j k h2 hj => thenSecond_goes hpair h2 (issueSecond_of_decode hj)⟩
  · intro s rest t
    refine ⟨?_, ?_, ?_, ?_, ?_, ?_, ?_, ?_⟩
    · exact fun i h => step_of_agenda h
    · exact fun gid pc h => ⟨fun c hc => by rw [step_of_agenda h, take, hc], fun hc => by rw [step_of_agenda h, take, hc]⟩
    · exact fun gid pc n h => ⟨fun c hc => by rw [step_of_agenda h, take, hc], fun hc => by rw [step_of_agenda h, take, hc]⟩
    · exact fun x h => step_of_agenda h
    · exact fun x h => step_of_agenda h
    · exact fun off size h => step_of_agenda h
    · exact fun h => step_of_agenda h
    · exact fun link h => step_of_agenda h
end Sys2Proof.Machine

/-! ## Pacing (O4): NOP, PREF, YIELD, WAIT, WTIME, LSER and LSEND that nothing holds

Each is at hand, so it takes the effect that it prepares for; where no thread waits the whole group completes (`completePart_none`). -/

namespace Sys2Proof.Machine
open Host

section

variable {i : Instr} {s : State} {e : Env} {n : Nat}

/-! ### WAIT -/

/-- A limit field whose counter is at or below it, or that is off, holds nothing. -/
theorem limitOk_of_field {w : Nat} {x off : BitVec w} {c : Nat} (h : (x != off && decide (x.toNat < c)) = false) : limitOk c x.toNat off.toNat = true := by
  unfold limitOk
  by_cases hx : x = off
  · simp [hx]
  · have : ¬ x.toNat < c := by simpa [hx] using h
    simp only [Bool.or_eq_true, beq_iff_eq, decide_eq_true_eq]
    omega

/-- So does a nibble of the S form, read as a field of the L form (R56). -/
theorem limitOk_of_nibble {x : BitVec 4} {c : Nat} (h : (x != 0xF && decide (x.toNat < c)) = false) : limitOk c (nibLimit x) 0xFF = true := by
  have hx := limitOk_of_field h
  unfold limitOk nibLimit at *
  split
  · simp
  · rename_i hn
    simp only [Bool.or_eq_true, beq_iff_eq, decide_eq_true_eq, show (0xF : BitVec 4).toNat = 15 from rfl] at hx ⊢
    omega

theorem nibLimit_tileLimit (ld st cp tl : BitVec 4) : nibLimit tl = tileLimit (.waitS ld st cp tl) := by
  show (if tl.toNat = 15 then 0xFF else tl.toNat) = if tl = 0xF then 0xFF else tl.toNat
  by_cases h : tl = 0xF
  · subst h; rfl
  · have hn : tl.toNat ≠ 15 := fun hn => h (BitVec.eq_of_toNat_eq hn)
    rw [if_neg h, if_neg hn]

theorem waitOk_of_wait {gid : Nat} {g : Guard} {ld st cp tl : BitVec 8} {bk : BitVec 4} (h : waitsAt s gid n (.wait g ld st cp tl bk) = false) :
    s.waitOk gid n ld.toNat st.toNat cp.toNat tl.toNat bk.toNat = true := by
  simp only [waitsAt, Bool.or_eq_false_iff, and_assoc] at h
  obtain ⟨hld, hst, hcp, htl, hbk⟩ := h
  simp only [State.waitOk, Bool.and_eq_true, and_assoc]
  exact ⟨limitOk_of_field hld, limitOk_of_field hst, limitOk_of_field hcp, limitOk_of_field htl, limitOk_of_field hbk⟩

theorem waitOk_of_waitS {gid : Nat} {ld st cp tl : BitVec 4} (h : waitsAt s gid n (.waitS ld st cp tl) = false) :
    s.waitOk gid n (nibLimit ld) (nibLimit st) (nibLimit cp) (nibLimit tl) 0xF = true := by
  simp only [waitsAt, Bool.or_eq_false_iff, and_assoc] at h
  obtain ⟨hld, hst, hcp, htl⟩ := h
  simp only [State.waitOk, Bool.and_eq_true, and_assoc]
  exact ⟨limitOk_of_nibble hld, limitOk_of_nibble hst, limitOk_of_nibble hcp, limitOk_of_nibble htl, rfl⟩

/-- Without a limit on matrix operations no pass is covered. -/
theorem State.coverPasses_off (s : State) (e : Env) (ts : List Nat) : s.coverPasses e ts 0xFF = s := by
  unfold State.coverPasses
  rw [if_pos (Or.inl rfl)]

/-- Covering passes changes the block alone. -/
theorem State.coverPasses_frame (s : State) (e : Env) (ts : List Nat) (limit : Nat) :
    (s.coverPasses e ts limit).gangs = s.gangs ∧ (s.coverPasses e ts limit).cur = s.cur := by
  unfold State.coverPasses
  split <;> exact ⟨rfl, rfl⟩

/-- An instruction that covers passes and changes nothing else completes. -/
theorem coverPasses_complete (ha : AtHand i s e) (ts parts : List Nat) (limit : Nat) :
    Went (s.coverPasses e ts limit) ((s.coverPasses e ts limit).complete i parts) (fun _ _ => none) Thread.view := by
  obtain ⟨hg, hc⟩ := s.coverPasses_frame e ts limit
  refine nothing_completes (g := e.g) ?_ (by rw [hc]; exact ha.fresh) (by rw [hc]; exact ha.noted) parts
  rw [hc, State.gang?, hg]
  exact State.env?_gang ha.env

/-- A list of which no element is left out by a test. -/
theorem filter_none {l : List Nat} {q : Nat → Bool} (h : ∀ n ∈ l, q n = false) : l.filter q = [] := by
  rw [List.filter_eq_nil_iff]
  intro n hn
  simp [h n hn]

theorem waitExec_next {ld st cp tl bk : Nat} (ha : AtHand i s e) (h : ∀ n ∈ participants s e.g i, s.waitOk s.cur.gid n ld st cp tl bk = true) :
    waitExec i ld st cp tl bk s = .next ((s.coverPasses e (participants s e.g i) tl).complete i (participants s e.g i)) := by
  have hw : ((plainPrep i s e).parts.filter fun t => !(plainPrep i s e).s.waitOk (plainPrep i s e).e.g.gid t ld st cp tl bk) = [] := by
    refine filter_none fun n hn => ?_
    have := h n hn
    rw [← State.env?_gid ha.env] at this
    simpa [plainPrep] using this
  unfold waitExec
  rw [withPrep_atHand ha]
  dsimp only
  rw [hw, filter_nil_id]
  simp only [List.isEmpty_nil, Bool.not_true, Bool.and_false, Bool.false_eq_true, if_false, completePart_none]
  rfl

/-! ### YIELD -/

theorem yieldExec_goes (ha : AtHand i s e) : ∃ t, yieldExec i s = .next t ∧ Went s t (fun _ _ => none) Thread.view := by
  unfold yieldExec
  rw [withPrep_atHand ha]
  refine ⟨_, rfl, ?_⟩
  have hgid : (plainPrep i s e).e.g.gid = s.cur.gid := State.env?_gid ha.env
  rw [hgid]
  refine (nothing_complete ha.env ha.fresh ha.noted (participants s e.g i)).mod ?_ ?_
  · intro g
    split <;> exact ⟨rfl, rfl, rfl⟩
  · intro g
    split <;> exact ⟨rfl, rfl, rfl, rfl, rfl, rfl⟩

/-! ### LSER and LSEND -/

/-- Changing a gang by a function asks it only of gangs of that number. -/
theorem State.modGang_congr {gid : Nat} {f f' : Gang → Gang} (h : ∀ g, g.gid = gid → f g = f' g) : s.modGang gid f = s.modGang gid f' := by
  unfold State.modGang
  congr 1
  refine List.map_congr_left fun g _ => ?_
  by_cases hg : g.gid = gid
  · simp [hg, h g hg]
  · simp [hg]

/-- An instruction that puts a gang in place of its own, and that completes. -/
theorem replaced_complete (ha : AtHand i s e) {g' : Gang} (hg' : g'.gid = e.g.gid) {regs : Nat → Reg → Option Word} {view : Thread → View}
    (h : e.g.Effect g' regs view) (parts : List Nat) : Went s ((s.modGang s.cur.gid fun _ => g').complete i parts) regs view := by
  have hgid := State.env?_gid ha.env
  have hc : s.modGang s.cur.gid (fun _ => g') = s.modGang s.cur.gid fun g => if g.gid = s.cur.gid then g' else g :=
    State.modGang_congr fun g hg => by rw [if_pos hg]
  rw [hc]
  refine effect_complete ha.env ha.fresh ha.noted parts (f := fun g => if g.gid = s.cur.gid then g' else g) (fun g => ?_) ?_
  · split
    · rename_i hg
      rw [hg, hg', hgid]
    · rfl
  · rw [if_pos hgid]
    exact h

/-- Changing a thread's place in LSER changes nothing else that it sees. -/
theorem Gang.Effect.setLser (g : Gang) (n : Nat) (l : Lser) : g.Effect (g.modThread n fun x => { x with lser := l }) (fun _ _ => none)
    fun x => if x.thr = n then { x.view with lser := l } else x.view := by
  refine Gang.Effect.mapThreads g (fun x => if x.thr = n then { x with lser := l } else x) (fun x => ?_) _ fun x => ?_
  · split <;> exact ⟨rfl, rfl⟩
  · split <;> rfl

/-- LSER gives the turn to a thread that may begin one (R144). -/
theorem lserOne_begins {x : Thread} (hx : e.g.thread? n = some x) (hf : s.turnFree e e.g = true) (hw : ∀ y ∈ e.g.threads, y.thr < n → y.lser ≠ .waiting) :
    lserOne s e e.g n = e.g.modThread n fun x => { x with lser := .turn } := by
  have hall : (e.g.threads.all fun y => y.lser != .turn) = true := (Bool.and_eq_true _ _ ▸ hf).1
  have hno : x.lser ≠ .turn := by simpa using List.all_eq_true.mp hall x (List.mem_of_find?_eq_some hx)
  have hfirst : (e.g.threads.all fun y => !(decide (y.thr < n) && y.lser == .waiting && y.live)) = true := by
    refine List.all_eq_true.mpr fun y hy => ?_
    by_cases hn : y.thr < n <;> simp [hn, hw y hy]
  unfold lserOne
  rw [hx]
  dsimp only
  rw [if_neg hno, hf, hfirst]
  rfl

/-- A thread inside a turn leaves it, and its end is noted (R245). -/
theorem State.endTurn_inside {x : Thread} {gid : Nat} (hx : s.thread? gid n = some x) (hl : x.lser = .turn) :
    s.endTurn gid n = (State.modGang { s with nextId := s.nextId + 1 } gid fun g => { g with lastTurn := some (n, s.nextId) }).modThread gid n
      fun x => { x with lser := .none } := by
  unfold State.endTurn
  rw [hx]
  simp only [Option.map_some, hl, beq_self_eq_true, Option.getD_some, if_true]
  exact (State.modGang_modGang { s with nextId := s.nextId + 1 } gid (fun g => { g with lastTurn := some (n, s.nextId) })
    (fun g => g.modThread n fun x => { x with lser := .none }) fun _ => rfl).symm

theorem State.thread?_cur (he : s.env? s.cur.gid = some e) (n : Nat) : s.thread? s.cur.gid n = e.g.thread? n := by
  unfold State.thread?
  rw [State.env?_gang he]
  rfl

/-! ### The instructions -/

theorem nop_goes {g : Guard} (ha : AtHand (.nop g) s e) : ∃ t, exec (.nop g) s = .next t ∧ Went s t (fun _ _ => none) Thread.view :=
  ⟨_, withPrep_atHand ha _, nothing_complete ha.env ha.fresh ha.noted _⟩

theorem pref_goes {g : Guard} {k l2 : Bool} {m : Addr} (ha : AtHand (.pref g k l2 m) s e) :
    ∃ t, exec (.pref g k l2 m) s = .next t ∧ Went s t (fun _ _ => none) Thread.view := by
  show ∃ t, execPref g k l2 m s = .next t ∧ _
  unfold execPref
  dsimp only
  rw [prepareWith_atHand ha]
  exact ⟨_, rfl, nothing_complete ha.env ha.fresh ha.noted _⟩

/-- LSEND outside a turn does nothing. -/
theorem lsend_outside {g : Guard} (ha : AtHand (.lsend g) s e)
    (h : ∀ n ∈ participants s e.g (.lsend g), ∀ x, e.g.thread? n = some x → x.lser ≠ .turn) :
    ∃ t, exec (.lsend g) s = .next t ∧ Went s t (fun _ _ => none) Thread.view := by
  have hgid : (plainPrep (.lsend g) s e).e.g.gid = s.cur.gid := State.env?_gid ha.env
  have hstay : (participants s e.g (.lsend g)).foldl (fun s' t => if ((s'.thread? s.cur.gid t).map fun x => x.lser == .turn).getD false
      then s'.endTurn s.cur.gid t else s') s = s := by
    refine List.foldlRecOn (motive := fun s' => s' = s) _ _ rfl fun s' hs' n hn => ?_
    subst hs'
    refine if_neg ?_
    rw [State.thread?_cur ha.env]
    cases hx : e.g.thread? n with
    | none => simp
    | some x => simpa using h n hn x hx
  show ∃ t, execLsend g s = .next t ∧ _
  unfold execLsend
  rw [withPrep_atHand ha]
  refine ⟨_, rfl, ?_⟩
  rw [hgid]
  show Went s (State.complete (List.foldl _ s (participants s e.g (.lsend g))) _ _) _ _
  rw [hstay]
  exact nothing_complete ha.env ha.fresh ha.noted _

theorem lsend_inside {g : Guard} (ha : AtHand (.lsend g) s e) (hp : participants s e.g (.lsend g) = [n]) {x : Thread}
    (hx : e.g.thread? n = some x) (hl : x.lser = .turn) :
    ∃ t, exec (.lsend g) s = .next t ∧
      Went (State.modGang { s with nextId := s.nextId + 1 } s.cur.gid fun x => { x with lastTurn := some (n, s.nextId) }) t (fun _ _ => none)
        fun x => if x.thr = n then { x.view with lser := .none } else x.view := by
  have hgid : (plainPrep (.lsend g) s e).e.g.gid = s.cur.gid := State.env?_gid ha.env
  have hparts : (plainPrep (.lsend g) s e).parts = [n] := hp
  have hxs : s.thread? s.cur.gid n = some x := (State.thread?_cur ha.env n).trans hx
  show ∃ t, execLsend g s = .next t ∧ _
  unfold execLsend
  rw [withPrep_atHand ha]
  refine ⟨_, rfl, ?_⟩
  rw [hgid, hparts, List.foldl_cons, List.foldl_nil, show (plainPrep (.lsend g) s e).s = s from rfl, hxs]
  rw [if_pos (by simp [hl]), State.endTurn_inside hxs hl]
  set u := State.modGang { s with nextId := s.nextId + 1 } s.cur.gid fun x => { x with lastTurn := some (n, s.nextId) } with hu
  have hgu : u.gang? s.cur.gid = some { e.g with lastTurn := some (n, s.nextId) } := by
    refine (State.gang?_modGang_same _ _ (fun g => { g with lastTurn := some (n, s.nextId) }) fun _ => rfl).trans ?_
    exact congrArg _ (State.env?_gang ha.env)
  exact effect_completes (s := u) hgu ha.fresh ha.noted [n] (f := fun g => g.modThread n fun x => { x with lser := .none }) (fun _ => rfl)
    (Gang.Effect.setLser _ n .none)

theorem lser_begins {g : Guard} (ha : AtHand (.lser g) s e) (hp : participants s e.g (.lser g) = [n]) (hf : s.turnFree e e.g = true)
    (hw : ∀ y ∈ e.g.threads, y.thr < n → y.lser ≠ .waiting) :
    ∃ t, exec (.lser g) s = .next t ∧ Went s t (fun _ _ => none) fun x => if x.thr = n then { x.view with lser := .turn } else x.view := by
  have hgid : (plainPrep (.lser g) s e).e.g.gid = s.cur.gid := State.env?_gid ha.env
  have hparts : (plainPrep (.lser g) s e).parts = [n] := hp
  obtain ⟨x, hx⟩ := Option.isSome_iff_exists.mp (participants_isSome (i := .lser g) ha.fresh (by rw [hp]; exact List.mem_singleton_self n))
  have hone : lserOne s e e.g n = e.g.modThread n fun x => { x with lser := .turn } := lserOne_begins hx hf hw
  show ∃ t, execLser g s = .next t ∧ _
  unfold execLser
  rw [withPrep_atHand ha]
  refine ⟨_, rfl, ?_⟩
  rw [hgid, hparts, List.foldl_cons, List.foldl_nil, show (plainPrep (.lser g) s e).s = s from rfl, show (plainPrep (.lser g) s e).e = e from rfl, hone,
    completePart_none]
  · exact replaced_complete ha (g' := e.g.modThread n fun x => { x with lser := .turn }) rfl (Gang.Effect.setLser e.g n .turn) [n]
  · refine filter_none fun m hm => ?_
    rw [List.mem_singleton.mp hm, Gang.thread?_modThread e.g n n (fun x => { x with lser := .turn }) fun _ => rfl, if_pos rfl, hx]
    rfl

/-- WTIME writes %wall in every participating thread. -/
theorem wtime_passed {g : Guard} {d a : Reg} (ha : AtHand (.wtime g d a) s e) (hs : e.g.sound = true)
    (h : ∀ n ∈ participants s e.g (.wtime g d a), (e.g.readReg a n).toNat ≤ s.wall e.b.die) :
    ∃ t, exec (.wtime g d a) s = .next t ∧
      Went s t (fun n r => if n ∈ participants s e.g (.wtime g d a) ∧ r = d then some (BitVec.ofNat 64 (s.wall e.b.die)) else none) Thread.view := by
  set p := plainPrep (.wtime g d a) s e with hp
  have hwaits : (p.parts.filter fun t => decide (p.s.wall p.e.b.die < (p.a t).toNat)) = [] := by
    refine filter_none fun n hn => ?_
    have hn' : n ∈ participants s e.g (.wtime g d a) := hn
    rw [hp, plainPrep_a (a := a) rfl rfl hn']
    exact decide_eq_false (Nat.not_lt.mpr (h n hn'))
  show ∃ t, execWtime g d a s = .next t ∧ _
  unfold execWtime
  rw [withPrep_atHand ha]
  refine ⟨_, rfl, ?_⟩
  rw [← hp]
  dsimp only
  rw [hwaits, filter_nil_id, completePart_none _ _ _ _ _ rfl]
  refine (steps_complete ha hs (fun _ => [(d, BitVec.ofNat 64 (s.wall e.b.die))]) (fun _ => by simp) (fun _ x => { x with wtime := none })
    (fun _ _ => ⟨rfl, rfl⟩) (fun _ v => v) (fun _ _ => rfl) (fun _ _ => rfl) fun _ => rfl).congr ?_ ?_
  · intro n r
    rw [find_reg]
    by_cases hn : n ∈ participants s e.g (.wtime g d a) <;> simp [hn]
  · intro x
    simp

/-- NOP, PREF, YIELD, WAIT whose counters allow it, and LSEND outside a turn. -/
theorem paces_goes (hi : match i with
      | .nop _ | .pref .. | .yield _ | .yieldS | .wait .. | .waitS .. | .lsend _ => True
      | _ => False) (ha : AtHand i s e) (hw : ∀ n ∈ participants s e.g i, waitsAt s s.cur.gid n i = false)
    (hl : ∀ n ∈ participants s e.g i, ∀ g, i = .lsend g → ∀ x, e.g.thread? n = some x → x.lser ≠ .turn) :
    ∃ t, exec i s = .next t ∧ Went (s.coverPasses e (participants s e.g i) (tileLimit i)) t (fun _ _ => none) Thread.view := by
  have free : tileLimit i = 0xFF → (∃ t, exec i s = .next t ∧ Went s t (fun _ _ => none) Thread.view) →
      ∃ t, exec i s = .next t ∧ Went (s.coverPasses e (participants s e.g i) (tileLimit i)) t (fun _ _ => none) Thread.view := by
    intro h
    rw [h, State.coverPasses_off]
    exact id
  split at hi
  case h_1 => exact free rfl (nop_goes ha)
  case h_2 => exact free rfl (pref_goes ha)
  case h_3 => exact free rfl (yieldExec_goes ha)
  case h_4 => exact free rfl (yieldExec_goes ha)
  case h_5 => exact ⟨_, waitExec_next ha fun n hn => waitOk_of_wait (hw n hn), coverPasses_complete ha _ _ _⟩
  case h_6 =>
    refine ⟨_, waitExec_next ha fun n hn => waitOk_of_waitS (hw n hn), ?_⟩
    rw [← nibLimit_tileLimit]
    exact coverPasses_complete ha _ _ _
  case h_7 g => exact free rfl (lsend_outside ha fun n hn => hl n hn g rfl)
  case h_8 => exact hi.elim

end

/-- Settles O4: each of the instructions completes with the effect that it prepares for, since no thread waits. -/
theorem pacingCompletes : Obligations.PacingCompletes := by
  unfold Obligations.PacingCompletes
  refine ⟨fun i s e hi ha hw hl => paces_goes hi ha hw hl, fun g d a s e ha hs h => wtime_passed ha hs h,
    fun g s e n ha hp hf hw => lser_begins ha hp hf hw, fun g s e n ha hp hl => ?_⟩
  obtain ⟨x, hx, hturn⟩ := Option.map_eq_some_iff.mp hl
  exact lsend_inside ha hp hx hturn
end Sys2Proof.Machine

/-! ## Loads and stores (O7)

The instruction is at hand and no thread fails its check, so each posts one operation (`posts_foldl`) and the group completes
(`posts_complete`). -/

namespace Sys2Proof.Machine
open Host

section

variable {i : Instr} {s : State} {e : Env} {n : Nat} {w : Width} {sp : Space} {d : Reg} {r : Nat → Resolved} {ea : Prep → Nat → Nat}

@[simp] theorem plainPrep_s (i : Instr) (s : State) (e : Env) : (plainPrep i s e).s = s := rfl
@[simp] theorem plainPrep_e (i : Instr) (s : State) (e : Env) : (plainPrep i s e).e = e := rfl
@[simp] theorem plainPrep_parts (i : Instr) (s : State) (e : Env) : (plainPrep i s e).parts = participants s e.g i := rfl

/-- The address that a prepared access computes is the instruction's (R146). -/
theorem plainPrep_ea {m : Addr} (hm : addrOf i = some m) (ha : (srcsOf i).a = .reg m.a) (hb : (srcsOf i).b = m.idx.src .b64)
    (hn : n ∈ readers s e i) : (plainPrep i s e).ea m n = e.ea i n := by
  have va := plainPrep_val (i := i) (s := s) (e := e) hn .a
  have vb := plainPrep_val (i := i) (s := s) (e := e) hn .b
  rw [show (srcsOf i).get .a = (srcsOf i).a from rfl, ha] at va
  rw [show (srcsOf i).get .b = (srcsOf i).b from rfl, hb] at vb
  unfold Prep.ea Prep.a Prep.b Env.ea
  rw [va, vb, hm]
  exact eaOf_addressOf e n m

/-! ### Loads -/

/-- What a load posts in a thread. -/
def loadPosting (i : Instr) (e : Env) (w : Width) (sext : Bool) (sp : Space) (d : Reg) (r : Nat → Resolved) (n : Nat) : Posting :=
  ⟨[n], .ld, some .ld, loadKind (r n) w.bytes d sext (BitVec.ofNat 64 (e.ea i n)) (sp == .constant), (r n).pageAt, none⟩

theorem ldExec_posts {sext : Bool} {use : Use} (hu : use = if sp = .constant then Use.constant else Use.load) (ha : AtHand i s e) (hs : e.g.spec = none)
    (hea : ∀ n ∈ participants s e.g i, ea (plainPrep i s e) n = e.ea i n)
    (hc : ∀ n ∈ participants s e.g i, accessCheck s e sp use w.bytes [] (e.ea i n) = none)
    (hr : ∀ n ∈ participants s e.g i, resolveAt e sp use (e.ea i n) = .ok (r n))
    (hw : ∀ n ∈ participants s e.g i, s.wcnt s.cur.gid n .ld < 254) :
    ∃ t, ldExec i w sext sp d ea s = .next t ∧
      Went (s.posts e ((participants s e.g i).map (loadPosting i e w sext sp d r))) t (fun _ _ => none) Thread.view := by
  have hchk : (plainPrep i s e).check i (fun t => accessCheck s e sp use w.bytes [] (ea (plainPrep i s e) t)) = none :=
    Prep.check_none fun n hn => by rw [hea n hn]; exact hc n hn
  have hspec : ∀ q : Resolved, specLoadOk e q = true := fun q => by simp [specLoadOk, hs]
  have hfull := fullFor_nil (i := i) ha.env .ld 254 rfl hw
  subst hu
  refine ⟨_, ?_, posts_complete ha _ (participants s e.g i)⟩
  unfold ldExec
  rw [withPrep_atHand ha]
  simp only [plainPrep_s, plainPrep_e, hchk, hspec, Bool.not_true, Option.any_false, List.any_eq_false.mpr fun _ _ => Bool.false_ne_true,
    Bool.false_eq_true, if_false, hfull, filter_nil_id, completePart_none, plainPrep_parts]
  refine congrArg (fun u : State => Host.Outcome.next (u.complete i (participants s e.g i))) (posts_foldl (loadPosting i e w sext sp d r) fun s' n hn => ?_)
  rw [hea n hn, hr n hn]
  rfl

theorem load_posts {sext : Bool} (hl : loadOf i = some (w, sext, sp, d)) (ha : AtHand i s e) (hs : e.g.spec = none)
    (h : ∀ n ∈ participants s e.g i, accessCheck s e sp (if sp = .constant then Use.constant else Use.load) w.bytes [] (e.ea i n) = none ∧
      resolveAt e sp (if sp = .constant then Use.constant else Use.load) (e.ea i n) = .ok (r n) ∧ s.wcnt s.cur.gid n .ld < 254) :
    ∃ t, exec i s = .next t ∧ Went (s.posts e ((participants s e.g i).map (loadPosting i e w sext sp d r))) t (fun _ _ => none) Thread.view := by
  have hc := fun n hn => (h n hn).1
  have hr := fun n hn => (h n hn).2.1
  have hw := fun n hn => (h n hn).2.2
  unfold loadOf at hl
  split at hl
  case h_1 =>
    cases hl
    exact ldExec_posts rfl ha hs (fun n hn => plainPrep_ea rfl rfl rfl (by rwa [readers_all rfl])) hc hr hw
  case h_2 a b =>
    cases hl
    exact ldExec_posts rfl ha hs (fun n hn => plainPrep_ea (m := ⟨a, .reg b, 3⟩) rfl rfl rfl (by rwa [readers_all rfl])) hc hr hw
  case h_3 => cases hl

/-! ### Stores -/

/-- The bytes that a store takes from a thread's run of registers (R153). -/
def runBytes (e : Env) (w : Width) (d : Reg) (n : Nat) : List Byte := ((regRun d w.regs).flatMap fun q => leBytes 8 (e.g.readReg q n).toNat).take w.bytes

/-- What a store posts in a thread: at a KEEP page a request to the Home, held outside deterministic mode. -/
def storePosting (i : Instr) (s : State) (e : Env) (w : Width) (d : Reg) (r : Nat → Resolved) (n : Nat) : Posting :=
  if isKeep (r n)
  then ⟨[n], .st, some .st, .keepStore (r n).loc 0 (e.g.readReg d n) false (BitVec.ofNat 64 (e.ea i n)) (r n).policy.1 (r n).policy.2,
    (r n).pageAt, if e.l.det then none else s.held e i⟩
  else ⟨[n], .st, some .st, .store (r n).loc (runBytes e w d n) false, (r n).pageAt, none⟩

/-- The lines that count as held before a thread's store (R349): the block's, and those of lower threads of the instruction. -/
def linesBefore (s : State) (e : Env) (ps : List Nat) (r : Nat → Resolved) (n : Nat) : List Nat :=
  if e.l.det then (s.boardLines e.b.bid ++ (ps.filter fun u => u < n ∧ ¬isScratch (r u).loc).map fun u => (r u).loc / 64).dedup else []

/-- A run's first register stands before the others. -/
theorem regRun_cons (d : Reg) (w : Width) : regRun d w.regs = d :: (regRun d w.regs).drop 1 := by
  cases w <;> simp [regRun, Width.regs, List.range_succ]

/-- A run of captured values holds the bytes of its registers. -/
theorem storeBytes_run (hx : extraSrcs i = (regRun d w.regs).drop 1) (hd : (srcsOf i).d = .reg d) (hn : n ∈ readers s e i) :
    storeBytes w.bytes ((plainPrep i s e).d n :: (plainPrep i s e).x n) = runBytes e w d n := by
  have vd := plainPrep_val (i := i) (s := s) (e := e) hn .d
  rw [show (srcsOf i).get .d = (srcsOf i).d from rfl, hd] at vd
  unfold storeBytes runBytes Prep.d
  rw [vd, plainPrep_x hn, hx, regRun_cons]
  simp only [Env.operand, List.drop_one, List.tail_cons, List.flatMap_cons, List.flatMap_map]

theorem filterMap_lines {ps : List Nat} {line : Nat → Option Nat}
    (h : ∀ u ∈ ps, line u = if isScratch (r u).loc then none else some ((r u).loc / 64)) (n : Nat) :
    (ps.filter (· < n)).filterMap line = (ps.filter fun u => u < n ∧ ¬isScratch (r u).loc).map fun u => (r u).loc / 64 := by
  induction ps with
  | nil => rfl
  | cons u ps ih =>
    have ih := ih fun v hv => h v (List.mem_cons_of_mem _ hv)
    have hu := h u List.mem_cons_self
    by_cases hn : u < n <;> by_cases hs : isScratch (r u).loc <;> simp_all

theorem stExec_posts (ha : AtHand i s e) (hu : uniformOperands i = false) (hx : extraSrcs i = (regRun d w.regs).drop 1) (hd : (srcsOf i).d = .reg d)
    (hea : ∀ n ∈ participants s e.g i, ea (plainPrep i s e) n = e.ea i n)
    (hc : ∀ n ∈ participants s e.g i, accessCheck s e sp .store w.bytes (linesBefore s e (participants s e.g i) r n) (e.ea i n) = none)
    (hr : ∀ n ∈ participants s e.g i, resolveAt e sp .store (e.ea i n) = .ok (r n))
    (hw : ∀ n ∈ participants s e.g i, s.wcnt s.cur.gid n .st < 254) :
    ∃ t, stExec i w sp ea s = .next t ∧
      Went (s.posts e ((participants s e.g i).map (storePosting i s e w d r))) t (fun _ _ => none) Thread.view := by
  have hread : readers s e i = participants s e.g i := readers_all hu
  have hlines : ∀ n, (plainPrep i s e).storeLines sp (ea (plainPrep i s e)) n = linesBefore s e (participants s e.g i) r n := by
    intro n
    unfold Prep.storeLines linesBefore
    simp only [plainPrep_s, plainPrep_e, plainPrep_parts]
    by_cases hdet : e.l.det = true
    · simp only [hdet, Bool.not_true, Bool.false_eq_true, if_false, if_true]
      exact congrArg (fun own => (s.boardLines e.b.bid ++ own).dedup) (filterMap_lines (fun u hu => by rw [hea u hu, hr u hu]) n)
    · simp only [hdet, Bool.not_false, Bool.false_eq_true, if_true, if_false]
  have hchk : (plainPrep i s e).check i (fun t => accessCheck s e sp .store w.bytes ((plainPrep i s e).storeLines sp (ea (plainPrep i s e)) t)
      (ea (plainPrep i s e) t)) = none := Prep.check_none fun n hn => by rw [hea n hn, hlines]; exact hc n hn
  have hfull := fullFor_nil (i := i) ha.env .st 254 rfl hw
  refine ⟨_, ?_, posts_complete ha _ (participants s e.g i)⟩
  unfold stExec
  rw [withPrep_atHand ha]
  simp only [plainPrep_s, plainPrep_e, hchk, hfull, filter_nil_id, completePart_none, plainPrep_parts]
  refine congrArg (fun u : State => Host.Outcome.next (u.complete i (participants s e.g i))) (posts_foldl (storePosting i s e w d r) fun s' n hn => ?_)
  have hn' : n ∈ readers s e i := hread ▸ hn
  have vd := plainPrep_val (i := i) (s := s) (e := e) hn' .d
  rw [show (srcsOf i).get .d = (srcsOf i).d from rfl, hd] at vd
  rw [hea n hn, hr n hn, storeBytes_run hx hd hn', holdEntry_held ha hread, Prep.d, vd]
  unfold storePosting
  dsimp only
  split <;> rfl

theorem store_posts (hst : storeOf i = some (w, sp, d)) (ha : AtHand i s e)
    (h : ∀ n ∈ participants s e.g i, accessCheck s e sp .store w.bytes (linesBefore s e (participants s e.g i) r n) (e.ea i n) = none ∧
      resolveAt e sp .store (e.ea i n) = .ok (r n) ∧ s.wcnt s.cur.gid n .st < 254) :
    ∃ t, exec i s = .next t ∧ Went (s.posts e ((participants s e.g i).map (storePosting i s e w d r))) t (fun _ _ => none) Thread.view := by
  have hc := fun n hn => (h n hn).1
  have hr := fun n hn => (h n hn).2.1
  have hw := fun n hn => (h n hn).2.2
  unfold storeOf at hst
  split at hst
  case h_1 =>
    cases hst
    exact stExec_posts ha rfl rfl rfl (fun n hn => plainPrep_ea rfl rfl rfl (by rwa [readers_all rfl])) hc hr hw
  case h_2 a b =>
    cases hst
    exact stExec_posts ha rfl rfl rfl (fun n hn => plainPrep_ea (m := ⟨a, .reg b, 3⟩) rfl rfl rfl (by rwa [readers_all rfl])) hc hr hw
  case h_3 => cases hst

end

/-- Settles O7: no thread fails a check and every counter has room, so each thread posts its access and the group goes on. -/
theorem accessesPost : Obligations.AccessesPost := by
  unfold Obligations.AccessesPost
  exact ⟨fun i s e w sext sp d r hl ha hs h => load_posts hl ha hs h, fun i s e w sp d r hst ha h => store_posts hst ha h⟩
end Sys2Proof.Machine

/-! ## EXIT (O23)

The exit of one thread is a change of its gang, with arrivals posted for the drops and a name taken for the end of a turn (`exitThread_eq`); what
completing the instruction left of the gang is said by `State.complete_gang`, and the statement is read off the two. -/

namespace Sys2Proof.Machine
open Host

section

variable {i : Instr} {s t : State} {e : Env} {n : Nat} {x : Thread} {saved : Bool}

/-! ### What one exit makes of its thread and gang -/

/-- A thread that has exited, having dropped from some objects. -/
def Thread.exit (x : Thread) (drops : List Nat) (saved : Bool) : Thread :=
  { x with exited := true, saved := saved, dropped := drops.reverse ++ x.dropped, lser := .none, wtime := none, bwait := none, timers := [] }

@[simp] theorem Thread.exit_thr (x : Thread) (drops : List Nat) (saved : Bool) : (x.exit drops saved).thr = x.thr := rfl

theorem Thread.exit_view (x : Thread) (drops : List Nat) (saved : Bool) :
    (x.exit drops saved).view = { x.view with exited := true, dropped := drops.reverse ++ x.dropped, lser := .none } := rfl

/-- Trap mode without a thread (R376). -/
def TrapMode.without (m : TrapMode) (n : Nat) : Option TrapMode :=
  if m.mask.all (· == n) then none else some { m with mask := m.mask.filter (· ≠ n) }

/-- A gang one of whose threads has exited: the end of its turn has a name if it was inside one. -/
def Gang.exit (g : Gang) (n : Nat) (drops : List Nat) (turn : Option Nat) (saved : Bool) : Gang :=
  { g with threads := g.threads.map fun x => if x.thr = n then x.exit drops saved else x,
           trap := g.trap.bind (·.without n), lastTurn := (turn.map fun id => (n, id)).or g.lastTurn }

@[simp] theorem Gang.exit_gid (g : Gang) (n : Nat) (drops : List Nat) (turn : Option Nat) (saved : Bool) : (g.exit n drops turn saved).gid = g.gid := rfl

theorem Gang.exit_thread? (g : Gang) (n : Nat) (drops : List Nat) (turn : Option Nat) (saved : Bool) (m : Nat) :
    (g.exit n drops turn saved).thread? m = (g.thread? m).map fun x => if x.thr = n then x.exit drops saved else x :=
  Gang.thread?_map g _ (fun x => by split <;> rfl) m

theorem Gang.exit_beadAt (g : Gang) (n : Nat) (drops : List Nat) (turn : Option Nat) (saved : Bool) (m num : Nat) :
    (g.exit n drops turn saved).beadAt m num = g.beadAt m num :=
  Gang.beadAt_threads (fun x => if x.thr = n then x.exit drops saved else x) (fun x => by split <;> rfl) (fun x => by split <;> rfl) m num

theorem Gang.leaveTrap_one (g : Gang) (n : Nat) : g.leaveTrap [n] false = { g with trap := g.trap.bind (·.without n) } := by
  unfold Gang.leaveTrap
  cases hm : g.trap with
  | none => cases g; simp_all
  | some m =>
    have hmask : m.mask.filter (· ∉ [n]) = m.mask.filter (· ≠ n) := by simp
    have hall : (m.mask.filter (· ≠ n)).isEmpty = m.mask.all (· == n) := by
      rw [Bool.eq_iff_iff, List.isEmpty_iff, List.filter_eq_nil_iff, List.all_eq_true]
      simp
    simp only [Option.bind_some, TrapMode.without, hmask, hall, Bool.false_eq_true, if_false]

/-! ### What one exit makes of the state -/

/-- The objects from which an exiting thread drops: those at which it is registered and has not dropped. -/
def Block.dropsOf (b : Block) (x : Thread) : List Nat := (b.regsOf x).filter (· ∉ x.dropped)

/-- A state with arrivals posted, and some names taken. -/
def State.posted (s : State) (arr : List Arrival) (names : Nat) : State := { s with arrivals := s.arrivals ++ arr, nextId := s.nextId + names }

theorem State.posted_posted (s : State) (a b : List Arrival) (m k : Nat) : (s.posted a m).posted b k = s.posted (a ++ b) (m + k) := by
  unfold State.posted
  dsimp only
  rw [List.append_assoc, Nat.add_assoc]

theorem State.posted_modGang (s : State) (a : List Arrival) (m gid : Nat) (f : Gang → Gang) : (s.posted a m).modGang gid f = (s.modGang gid f).posted a m := rfl

/-- The drops of a thread from objects, named from a number on. -/
def dropArrivals (id : Nat) (p : Place) (drops : List Nat) : List Arrival := drops.mapIdx fun k off => ⟨id + k, p, off, true⟩

theorem dropArrivals_cons (id : Nat) (p : Place) (off : Nat) (drops : List Nat) :
    dropArrivals id p (off :: drops) = dropArrivals id p [off] ++ dropArrivals (id + 1) p drops := by
  have hid : ∀ k, id + (k + 1) = id + 1 + k := fun k => by omega
  unfold dropArrivals
  rw [List.mapIdx_cons, List.mapIdx_cons, List.mapIdx_nil, List.singleton_append]
  refine congrArg (List.cons _) (congrArg (fun f => List.mapIdx f drops) (funext fun k => funext fun o => ?_))
  rw [hid]

/-- A gang one of whose threads has dropped from objects. -/
def Gang.drop (g : Gang) (n : Nat) (drops : List Nat) : Gang := g.modThread n fun x => { x with dropped := drops.reverse ++ x.dropped }

@[simp] theorem Gang.drop_gid (g : Gang) (n : Nat) (drops : List Nat) : (g.drop n drops).gid = g.gid := rfl

theorem Gang.drop_thread? (g : Gang) (n : Nat) (drops : List Nat) : (g.drop n drops).thread? n = (g.thread? n).map fun x => { x with dropped := drops.reverse ++ x.dropped } :=
  (Gang.thread?_modThread g n n (fun x => { x with dropped := drops.reverse ++ x.dropped }) fun _ => rfl).trans (if_pos rfl)

theorem Gang.drop_drop (g : Gang) (n off : Nat) (drops : List Nat) : (g.drop n [off]).drop n drops = g.drop n (off :: drops) := by
  unfold Gang.drop Gang.modThread
  simp only [List.map_map]
  congr 1
  refine List.map_congr_left fun x _ => ?_
  by_cases hx : x.thr = n <;> simp [hx]

theorem Gang.drop_nil (g : Gang) (n : Nat) : g.drop n [] = g := Gang.modThread_id g n

/-- A thread's registration at an object does not depend on its drops from others. -/
theorem Block.registers_dropped {b : Block} {off o : Nat} (h : o ≠ off) : b.registers { x with dropped := off :: x.dropped } o = b.registers x o := by
  simp [Block.registers, h]

/-- A state in which a thread has dropped from some objects, each drop posted. -/
def State.dropped (s : State) (e : Env) (n : Nat) (drops : List Nat) : State :=
  (s.modGang e.g.gid (·.drop n drops)).posted (dropArrivals s.nextId (e.place n) drops) drops.length

theorem State.dropped_nil (s : State) (e : Env) (n : Nat) : s.dropped e n [] = s := by
  have h : s.modGang e.g.gid (·.drop n []) = s := by
    rw [show (fun g : Gang => g.drop n []) = id from funext fun g => g.drop_nil n, State.modGang_id]
  simp [State.dropped, h, State.posted, dropArrivals]

theorem State.dropped_dropped (s : State) (e : Env) (n off : Nat) (drops : List Nat) : (s.dropped e n [off]).dropped e n drops = s.dropped e n (off :: drops) := by
  have hg : (s.modGang e.g.gid (·.drop n [off])).modGang e.g.gid (·.drop n drops) = s.modGang e.g.gid (·.drop n (off :: drops)) := by
    rw [State.modGang_modGang s _ _ _ (Gang.drop_gid · n [off])]
    simp only [Gang.drop_drop]
  have hl : [off].length + drops.length = (off :: drops).length := Nat.add_comm ..
  unfold State.dropped
  rw [State.posted_modGang, State.posted_posted, hg, hl, dropArrivals_cons (drops := drops)]
  rfl

theorem State.dropFrom_eq {off : Nat} (hx : t.thread? e.g.gid n = some x) (hb : t.block? e.b.bid = some e.b) (hr : e.b.registers x off = true) :
    t.dropFrom e n off = if off ∈ x.dropped then t else t.dropped e n [off] := by
  unfold State.dropFrom
  rw [hx, hb]
  by_cases h : off ∈ x.dropped
  · simp [h]
  · simp only [hr, h, not_false_eq_true, decide_true, Bool.and_self, if_true, if_false]
    rfl

theorem State.dropped_thread? (drops : List Nat) (hx : t.thread? e.g.gid n = some x) :
    (t.dropped e n drops).thread? e.g.gid n = some { x with dropped := drops.reverse ++ x.dropped } := by
  obtain ⟨g, hg, hgx⟩ := Option.bind_eq_some_iff.mp hx
  have hg' : (t.dropped e n drops).gang? e.g.gid = some (g.drop n drops) :=
    (State.gang?_modGang_same t e.g.gid (·.drop n drops) fun _ => rfl).trans (congrArg _ hg)
  unfold State.thread?
  rw [hg', Option.bind_some, Gang.drop_thread?, hgx]
  rfl

/-- Dropping from some objects at which a thread is registered, one after another. -/
theorem State.foldl_dropFrom {offs : List Nat} (hnd : offs.Nodup) (hx : t.thread? e.g.gid n = some x) (hb : t.block? e.b.bid = some e.b)
    (hr : ∀ o ∈ offs, e.b.registers x o = true) : offs.foldl (fun s off => s.dropFrom e n off) t = t.dropped e n (offs.filter (· ∉ x.dropped)) := by
  induction offs generalizing t x with
  | nil => exact (t.dropped_nil e n).symm
  | cons off offs ih =>
    obtain ⟨hno, hnd⟩ := List.nodup_cons.mp hnd
    rw [List.foldl_cons, State.dropFrom_eq hx hb (hr off List.mem_cons_self)]
    by_cases h : off ∈ x.dropped
    · rw [if_pos h, ih hnd hx hb fun o ho => hr o (List.mem_cons_of_mem _ ho), List.filter_cons_of_neg (by simpa using h)]
    · have hne : ∀ o ∈ offs, o ≠ off := fun o ho hoff => hno (hoff ▸ ho)
      have hsame : offs.filter (fun o => decide (o ∉ off :: x.dropped)) = offs.filter (fun o => decide (o ∉ x.dropped)) :=
        List.filter_congr fun o ho => by simp [hne o ho]
      rw [if_neg h, ih hnd (State.dropped_thread? [off] hx) hb fun o ho => (Block.registers_dropped (hne o ho)).trans (hr o (List.mem_cons_of_mem _ ho)),
        List.filter_cons_of_pos (by simpa using h), State.dropped_dropped]
      exact congrArg (fun l => t.dropped e n (off :: l)) hsame

theorem Block.regsOf_nodup (b : Block) (x : Thread) : (b.regsOf x).Nodup := (List.nodup_dedup _).filter _

/-- The name that the end of a thread's turn takes, if it is inside one. -/
def Thread.turnId (x : Thread) (id : Nat) : Option Nat := if x.lser = .turn then some id else none

/-- A state one of whose threads has exited. -/
def State.exited (s : State) (e : Env) (n : Nat) (x : Thread) (saved : Bool) : State :=
  (s.modGang e.g.gid fun g => g.exit n (e.b.dropsOf x) (x.turnId (s.nextId + (e.b.dropsOf x).length)) saved).posted
    (dropArrivals s.nextId (e.place n) (e.b.dropsOf x)) ((e.b.dropsOf x).length + if x.lser = .turn then 1 else 0)

/-- A gang one of whose threads is in no turn any more, and whose last turn may have a new name. -/
def Gang.endTurn (g : Gang) (n : Nat) (turn : Option Nat) : Gang :=
  { g.modThread n (fun x => { x with lser := .none }) with lastTurn := (turn.map fun id => (n, id)).or g.lastTurn }

theorem State.endTurn_eq {gid : Nat} (hx : t.thread? gid n = some x) :
    t.endTurn gid n = (t.modGang gid (·.endTurn n (x.turnId t.nextId))).posted [] (if x.lser = .turn then 1 else 0) := by
  unfold State.endTurn Thread.turnId
  rw [hx]
  by_cases h : x.lser = .turn
  · simp only [Option.map_some, Option.getD_some, h, beq_self_eq_true, if_true, State.posted, List.append_nil]
    rfl
  · simp only [Option.map_some, Option.getD_some, h, beq_false_of_ne h, Bool.false_eq_true, if_false, State.posted, List.append_nil, Nat.add_zero]
    rfl

/-- A thread that has exited, its drops and its turn apart. -/
def Thread.leave (x : Thread) (saved : Bool) : Thread := { x with exited := true, saved := saved, wtime := none, bwait := none, timers := [] }

/-- The parts of an exit make up the gang that it leaves. -/
theorem Gang.exit_parts (g : Gang) (n : Nat) (drops : List Nat) (turn : Option Nat) (saved : Bool) :
    (((g.drop n drops).endTurn n turn).modThread n (·.leave saved)).leaveTrap [n] false = g.exit n drops turn saved := by
  rw [Gang.leaveTrap_one]
  unfold Gang.exit Gang.endTurn Gang.drop Gang.modThread
  simp only [List.map_map]
  congr 1
  refine List.map_congr_left fun x _ => ?_
  by_cases hx : x.thr = n <;> simp [hx, Thread.exit, Thread.leave]

theorem State.exit_parts (s : State) (gid n : Nat) (drops : List Nat) (turn : Option Nat) (saved : Bool) :
    (((s.modGang gid (·.drop n drops)).modGang gid (·.endTurn n turn)).modThread gid n (·.leave saved)).modGang gid (·.leaveTrap [n] false) =
      s.modGang gid (·.exit n drops turn saved) := by
  unfold State.modThread
  rw [State.modGang_modGang _ _ (·.drop n drops) _ fun _ => rfl,
    State.modGang_modGang _ _ (fun g => (g.drop n drops).endTurn n turn) _ fun _ => rfl,
    State.modGang_modGang _ _ (fun g => ((g.drop n drops).endTurn n turn).modThread n (·.leave saved)) _ fun _ => rfl]
  simp only [Gang.exit_parts]

/-- THE EXIT OF ONE THREAD changes its gang, posts its drops, and takes a name for the end of its turn. -/
theorem State.exitThread_eq (saved : Bool) (hx : t.thread? e.g.gid n = some x) (hb : t.block? e.b.bid = some e.b) :
    t.exitThread e n saved = t.exited e n x saved := by
  have hreg : ∀ o ∈ e.b.regsOf x, e.b.registers x o = true := fun o ho => (List.mem_filter.mp ho).2
  have hx' := State.dropped_thread? (e := e) (e.b.dropsOf x) hx
  have hdrops : (e.b.regsOf x).foldl (fun s off => s.dropFrom e n off) t = t.dropped e n (e.b.dropsOf x) :=
    State.foldl_dropFrom (e.b.regsOf_nodup x) hx hb hreg
  unfold State.exitThread
  rw [hx, hb]
  dsimp only
  rw [hdrops, State.endTurn_eq hx']
  have hparts := t.exit_parts e.g.gid n (e.b.dropsOf x) (x.turnId (t.nextId + (e.b.dropsOf x).length)) saved
  unfold State.exited
  rw [← hparts, show dropArrivals t.nextId (e.place n) (e.b.dropsOf x) = dropArrivals t.nextId (e.place n) (e.b.dropsOf x) ++ [] from
    (List.append_nil _).symm, ← State.posted_posted]
  rfl

theorem State.exited_gang? (x : Thread) {g : Gang} (hg : t.gang? e.g.gid = some g) : (t.exited e n x saved).gang? e.g.gid =
    some (g.exit n (e.b.dropsOf x) (x.turnId (t.nextId + (e.b.dropsOf x).length)) saved) :=
  (State.gang?_modGang_same t e.g.gid (·.exit n (e.b.dropsOf x) (x.turnId (t.nextId + (e.b.dropsOf x).length)) saved) fun _ => rfl).trans (congrArg _ hg)

theorem State.exited_gang?_other (x : Thread) {h : Nat} (hh : h ≠ e.g.gid) : (t.exited e n x saved).gang? h = t.gang? h :=
  State.gang?_modGang_other t (·.exit n (e.b.dropsOf x) (x.turnId (t.nextId + (e.b.dropsOf x).length)) saved) (fun _ => rfl) hh

/-! ### The exits of all participating threads -/

/-- A thread that has left: it has exited and is in no turn. -/
def Thread.gone (x : Thread) : Prop := x.exited = true ∧ x.lser = .none

/-- What some exits leave of a state: blocks and memory as they were, each of the threads gone, and none back. -/
structure ExitsFrom (s t : State) (gid : Nat) (ts : List Nat) : Prop where
  blocks : t.blocks = s.blocks
  bytes : SameBytes s t
  threads : ∀ m y, s.thread? gid m = some y → ∃ z, t.thread? gid m = some z ∧ (m ∈ ts ∨ y.gone → z.gone)

theorem ExitsFrom.refl (s : State) (gid : Nat) : ExitsFrom s s gid [] := ⟨rfl, fun _ => rfl, fun _ y hy => ⟨y, hy, fun h => h.resolve_left (by simp)⟩⟩

theorem ExitsFrom.cons {u : State} {gid : Nat} {ts : List Nat} (h : ExitsFrom s t gid [n]) (k : ExitsFrom t u gid ts) : ExitsFrom s u gid (n :: ts) := by
  refine ⟨k.blocks.trans h.blocks, fun a => (k.bytes a).trans (h.bytes a), fun m y hy => ?_⟩
  obtain ⟨z, hz, hgz⟩ := h.threads m y hy
  obtain ⟨w, hw, hgw⟩ := k.threads m z hz
  refine ⟨w, hw, fun hm => hgw ?_⟩
  rw [List.mem_cons, or_assoc] at hm
  rcases hm with rfl | hm | hm
  · exact .inr (hgz (.inl (List.mem_singleton_self _)))
  · exact .inl hm
  · exact .inr (hgz (.inr hm))

theorem exitThread_exits (n : Nat) (saved : Bool) (hb : t.block? e.b.bid = some e.b) : ExitsFrom t (t.exitThread e n saved) e.g.gid [n] := by
  cases hx : t.thread? e.g.gid n with
  | none =>
    have hid : t.exitThread e n saved = t := by unfold State.exitThread; rw [hx]
    rw [hid]
    refine ⟨rfl, fun _ => rfl, fun m y hy => ⟨y, hy, fun h => ?_⟩⟩
    refine h.resolve_left fun hm => ?_
    rw [List.mem_singleton.mp hm, hx] at hy
    cases hy
  | some x =>
    rw [State.exitThread_eq saved hx hb]
    refine ⟨rfl, .of_eq rfl rfl rfl rfl, fun m y hy => ?_⟩
    obtain ⟨g, hg, hgy⟩ := Option.bind_eq_some_iff.mp hy
    have hthr := Gang.thread?_thr hgy
    refine ⟨if y.thr = n then y.exit (e.b.dropsOf x) saved else y, ?_, fun h => ?_⟩
    · unfold State.thread?
      rw [State.exited_gang? x hg, Option.bind_some, Gang.exit_thread?, hgy, Option.map_some]
    · by_cases hm : y.thr = n
      · rw [if_pos hm]
        exact ⟨rfl, rfl⟩
      · rw [if_neg hm]
        exact h.resolve_left fun hn => hm (hthr.trans (List.mem_singleton.mp hn))

theorem foldl_exits (ts : List Nat) (saved : Bool) (hb : t.block? e.b.bid = some e.b) :
    ExitsFrom t (ts.foldl (fun s n => s.exitThread e n saved) t) e.g.gid ts := by
  induction ts generalizing t with
  | nil => exact .refl t e.g.gid
  | cons n ts ih =>
    have h := exitThread_exits n saved hb
    exact h.cons (ih (by unfold State.block? at hb ⊢; rw [h.blocks, hb]))

/-! ### The instruction -/

/-- EXIT.saved asks for a PREEMPT trap. -/
def exitLegal (e : Env) (saved : Bool) : Prop := saved = true → ∃ m, e.g.trap = some m ∧ m.cause = cPREEMPT

theorem exitLegal_plain (e : Env) : exitLegal e false := fun h => Bool.noConfusion h

/-- What EXIT leaves: completed, with every participating thread's exit, and the block marked if it saves. -/
def State.afterExit (s : State) (i : Instr) (e : Env) (saved : Bool) : State :=
  let u := (participants s e.g i).foldl (fun s n => s.exitThread e n saved) (s.complete i (participants s e.g i))
  if saved ∧ !(participants s e.g i).isEmpty then u.modBlock e.b.bid fun b => { b with saved := true } else u

theorem exitExec_next (ha : AtHand i s e) (hl : exitLegal e saved) : exitExec i saved s = .next (s.afterExit i e saved) := by
  have hlegal : ¬(saved = true ∧ (e.g.trap.all fun m => m.cause != cPREEMPT) = true) := by
    rintro ⟨hs, hall⟩
    obtain ⟨m, hm, hc⟩ := hl hs
    simp [hm, hc] at hall
  unfold exitExec
  rw [withPrep_atHand ha]
  show Host.Outcome.next (match (if saved = true ∧ (e.g.trap.all fun m => m.cause != cPREEMPT) = true then (plainPrep i s e).failAll i cPRIV else none) with
    | some s' => s'
    | none => s.afterExit i e saved) = _
  rw [if_neg hlegal]

theorem complete_block? (ha : AtHand i s e) (parts : List Nat) : (s.complete i parts).block? e.b.bid = some e.b := by
  have h := (State.complete_only ha.fresh ha.noted i parts).rest
  rw [h]
  exact (State.env?_block ha.env).1

theorem exitExec_exits (ha : AtHand i s e) (hl : exitLegal e saved) : ∃ t, exitExec i saved s = .next t ∧ SameBytes s t ∧
    ∀ n ∈ participants s e.g i, ∀ x, e.g.thread? n = some x → ∃ y, t.thread? s.cur.gid n = some y ∧ y.exited = true ∧ y.lser = .none := by
  have hgid := State.env?_gid ha.env
  have hE := foldl_exits (participants s e.g i) saved (complete_block? ha (participants s e.g i))
  rw [hgid] at hE
  have hS := (State.complete_only ha.fresh ha.noted i (participants s e.g i)).sameBytes
  obtain ⟨f, hf⟩ := State.complete_thread? ha.fresh ha.noted (State.env?_gang ha.env) i (participants s e.g i)
  refine ⟨_, exitExec_next ha hl, fun a => ?_, fun n hn x hx => ?_⟩
  · refine Eq.trans ?_ ((hE.bytes a).trans (hS a))
    unfold State.afterExit
    dsimp only
    split <;> rfl
  · obtain ⟨y, hy, hg⟩ := hE.threads n (x.went s.cur (f x)) (by rw [hf, hx]; rfl)
    refine ⟨y, ?_, hg (.inl hn)⟩
    rw [← hy]
    unfold State.afterExit
    dsimp only
    split <;> rfl

/-! ### One participating thread -/

/-- Going on changes nothing that an exit looks at. -/
theorem Block.dropsOf_went (b : Block) (x : Thread) (cur : IssueSlot) (l : Option (Word × Nat)) : b.dropsOf (x.went cur l) = b.dropsOf x := by
  unfold Thread.went
  split <;> rfl

theorem Thread.went_lser (x : Thread) (cur : IssueSlot) (l : Option (Word × Nat)) : (x.went cur l).lser = x.lser := by
  unfold Thread.went
  split <;> rfl

/-- EXIT OF ONE THREAD is its exit from the completed state, and the block's mark. -/
theorem State.afterExit_one (ha : AtHand i s e) (hp : participants s e.g i = [n]) (hx : e.g.thread? n = some x) :
    ∃ u, u = s.complete i [n] ∧ s.afterExit i e saved =
      if saved then (u.exited e n x saved).modBlock e.b.bid fun b => { b with saved := true } else u.exited e n x saved := by
  obtain ⟨f, hf⟩ := State.complete_thread? ha.fresh ha.noted (State.env?_gang ha.env) i [n]
  have hxu : (s.complete i [n]).thread? e.g.gid n = some (x.went s.cur (f x)) := by
    rw [State.env?_gid ha.env, hf, hx]
    rfl
  have hexit : (s.complete i [n]).exitThread e n saved = (s.complete i [n]).exited e n x saved := by
    rw [State.exitThread_eq saved hxu (complete_block? ha [n])]
    unfold State.exited Thread.turnId
    simp only [Block.dropsOf_went, Thread.went_lser]
  refine ⟨_, rfl, ?_⟩
  unfold State.afterExit
  rw [hp]
  dsimp only [List.foldl_cons, List.foldl_nil]
  rw [hexit]
  simp

/-- Of the whole state an exit changes its gang, and posts and names. -/
theorem State.exited_rest {u : State} (h : OnlyGang s u e.g.gid) (n : Nat) (x : Thread) (saved : Bool) :
    u.exited e n x saved = { s with
      gangs := (u.exited e n x saved).gangs, ops := u.ops, telemetry := { s.telemetry with counters := u.telemetry.counters },
      arrivals := s.arrivals ++ dropArrivals s.nextId (e.place n) (e.b.dropsOf x),
      nextId := s.nextId + (e.b.dropsOf x).length + if x.lser = .turn then 1 else 0 } := by
  have hr := h.rest
  generalize u.gangs = gs at hr
  generalize u.ops = os at hr ⊢
  generalize u.telemetry.counters = cs at hr ⊢
  subst hr
  rw [Nat.add_assoc]
  rfl

/-- The gang of a thread that has exited, after the completion of its instruction. -/
theorem exited_gang (ha : AtHand i s e) (n : Nat) (x : Thread) (saved : Bool) : ∃ g0, e.g.Kept g0 s.cur.pc ∧
    ((s.complete i [n]).exited e n x saved).gang? s.cur.gid =
      some ((g0.advance s.cur.mask s.cur.next).exit n (e.b.dropsOf x) (x.turnId (s.nextId + (e.b.dropsOf x).length)) saved) := by
  have hgid := State.env?_gid ha.env
  obtain ⟨g0, hg, hk⟩ := State.complete_gang ha.fresh ha.noted (State.env?_gang ha.env) i [n]
  have hid : (s.complete i [n]).nextId = s.nextId := by rw [(State.complete_only ha.fresh ha.noted i [n]).rest]
  refine ⟨g0, hk, ?_⟩
  rw [← hgid] at hg ⊢
  rw [State.exited_gang? x hg, hid]

/-- What a gang keeps when one of its threads exits, but for trap mode and its last turn. -/
theorem Gang.Kept.exit {g g0 : Gang} {pc next : Nat} {mask : List Nat} (h : g.Kept g0 pc) (n : Nat) (drops : List Nat) (turn : Option Nat) (saved : Bool) :
    ({ g with trap := g.trap.bind (·.without n), lastTurn := (turn.map fun id => (n, id)).or g.lastTurn } : Gang).Keeps
      ((g0.advance mask next).exit n drops turn saved) pc := by
  obtain ⟨htmr, htrap, hpend, hstop, hturn, hdescs⟩ := h.keeps
  refine ⟨htmr, ?_, hpend, hstop, ?_, hdescs⟩
  · show g0.trap.bind _ = _
    rw [htrap]
  · show Option.or _ g0.lastTurn = _
    rw [hturn]

/-- A thread of the gang after the exit. -/
theorem Gang.Kept.exit_view {g g0 : Gang} {pc : Nat} (h : g.Kept g0 pc) (hn : n ∈ s.cur.mask) (drops : List Nat) (turn : Option Nat) (saved : Bool)
    {m : Nat} {y : Thread} (hy : g.thread? m = some y) :
    ∃ z, ((g0.advance s.cur.mask s.cur.next).exit n drops turn saved).thread? m = some z ∧ z.view =
      if y.thr = n then { y.view with exited := true, pc := s.cur.next, dropped := drops.reverse ++ y.dropped, lser := .none } else wentOn s y := by
  obtain ⟨f, hf⟩ := h.thread?
  rw [Gang.exit_thread?, Gang.advance_thread?, hf, hy]
  refine ⟨_, rfl, ?_⟩
  unfold wentOn
  by_cases hyn : y.thr = n
  · simp [hyn, hn, Thread.view, Thread.exit]
  · by_cases hm : y.thr ∈ s.cur.mask <;> simp [hyn, hm, Thread.view]

/-- The gang's mode and last turn after an exit. -/
def Gang.exitNotes (e : Env) (n : Nat) (x : Thread) (id : Nat) (y : Gang) : Gang :=
  { y with trap := e.g.trap.bind fun m => if m.mask.all (· == n) then none else some { m with mask := m.mask.filter (· ≠ n) },
           lastTurn := if x.lser = .turn then some (n, id) else y.lastTurn }

theorem Gang.exitNotes_self (e : Env) (n : Nat) (x : Thread) (id : Nat) : Gang.exitNotes e n x id e.g =
    { e.g with trap := e.g.trap.bind (·.without n), lastTurn := ((x.turnId id).map fun id => (n, id)).or e.g.lastTurn } := by
  unfold Gang.exitNotes Thread.turnId
  by_cases h : x.lser = .turn
  · simp only [h, if_true, Option.map_some, Option.some_or]
    rfl
  · simp only [h, if_false, Option.map_none, Option.none_or]
    rfl

/-- EXIT OF ONE PARTICIPATING THREAD: the whole of what it leaves. -/
theorem exitExec_one (ha : AtHand i s e) (hl : exitLegal e saved) (hp : participants s e.g i = [n]) (hx : e.g.thread? n = some x) :
    ∃ t, exitExec i saved s = .next t ∧
      t = { s with gangs := t.gangs, ops := t.ops, telemetry := { s.telemetry with counters := t.telemetry.counters },
                   arrivals := s.arrivals ++ dropArrivals s.nextId (e.place n) (e.b.dropsOf x),
                   nextId := s.nextId + (e.b.dropsOf x).length + (if x.lser = .turn then 1 else 0),
                   blocks := if saved then s.blocks.map fun b => if b.bid = e.b.bid then { b with saved := true } else b else s.blocks } ∧
      t.ops.map Op.plain = s.ops.map Op.plain ∧ SameBytes s t ∧ (∀ h, h ≠ s.cur.gid → t.gang? h = s.gang? h) ∧
      RegsSame s t s.cur.gid ∧
      ThreadsAre s t s.cur.gid (fun y => if y.thr = n
        then { y.view with exited := true, pc := s.cur.next, dropped := (e.b.dropsOf x).reverse ++ y.dropped, lser := .none } else wentOn s y) ∧
      GangKept (s.modGang s.cur.gid (Gang.exitNotes e n x (s.nextId + (e.b.dropsOf x).length))) t := by
  have hgid := State.env?_gid ha.env
  have hg := State.env?_gang ha.env
  have hn : n ∈ s.cur.mask := participants_mask (by rw [hp]; exact List.mem_singleton_self n)
  obtain ⟨u, hu, hafter⟩ := State.afterExit_one (saved := saved) ha hp hx
  obtain ⟨g0, hk, hgang⟩ := exited_gang ha n x saved
  have hset : s.afterExit i e saved = { u.exited e n x saved with blocks := (s.afterExit i e saved).blocks } := by
    rw [hafter]
    split <;> rfl
  have hblocks : (s.afterExit i e saved).blocks = if saved then s.blocks.map fun b => if b.bid = e.b.bid then { b with saved := true } else b else s.blocks := by
    have hub : u.blocks = s.blocks := by rw [hu, (State.complete_only ha.fresh ha.noted i [n]).rest]
    rw [hafter, ← hub]
    split <;> rfl
  have honly : OnlyGang s u e.g.gid := by
    rw [hu, hgid]
    exact State.complete_only ha.fresh ha.noted i [n]
  have hrest := State.exited_rest honly n x saved
  rw [← hu] at hgang
  refine ⟨_, exitExec_next ha hl, ?_⟩
  rw [← hblocks]
  generalize s.afterExit i e saved = t at hset ⊢
  generalize t.blocks = bs at hset ⊢
  have hgt : ∀ h, t.gang? h = (u.exited e n x saved).gang? h := fun h => by rw [hset]; rfl
  rw [← hgt] at hgang
  refine ⟨?_, ?_, ?_, fun h hh => ?_, fun m num => ?_, fun m y hy => ?_, fun g hgs => ?_⟩
  · subst hset
    exact congrArg (fun v : State => { v with blocks := bs }) hrest
  · rw [hset]
    exact honly.ops
  · rw [hset]
    exact .of_eq (by rw [hrest]) (by rw [hrest]) (by rw [hrest]) (by rw [hrest])
  · rw [hgt]
    exact (State.exited_gang?_other x (hgid ▸ hh)).trans (honly.others h (hgid ▸ hh))
  · rw [State.beadOf_gang hgang, State.beadOf_gang hg, Gang.exit_beadAt, Gang.advance_beadAt, hk.beads]
  · rw [State.thread?_cur ha.env] at hy
    unfold State.thread?
    rw [hgang]
    exact hk.exit_view hn _ _ saved hy
  · rw [State.modGang_cur, State.gang?_modGang_same s _ (Gang.exitNotes e n x _) fun _ => rfl, hg, Option.map_some, Option.some.injEq] at hgs
    subst hgs
    rw [Gang.exitNotes_self]
    exact ⟨_, hgang, hk.exit n _ _ saved⟩

end

/-- Settles O23: EXIT completes, and each participating thread's exit follows; of one thread, the gang that its exit leaves is known in full. -/
theorem exitsEnd : Obligations.ExitsEnd := by
  unfold Obligations.ExitsEnd
  refine ⟨fun i s e hi ha => ?_, fun i s e n x saved hi ha hp hx => ?_⟩
  · split at hi
    case h_1 => exact exitExec_exits ha (exitLegal_plain e)
    case h_2 => exact exitExec_exits ha (exitLegal_plain e)
    case h_3 => exact exitExec_exits (saved := true) ha fun _ => hi
    case h_4 => exact hi.elim
  · split at hi
    case h_1 =>
      subst hi
      exact exitExec_one ha (exitLegal_plain e) hp hx
    case h_2 =>
      subst hi
      exact exitExec_one ha (exitLegal_plain e) hp hx
    case h_3 =>
      obtain ⟨rfl, hpre⟩ := hi
      exact exitExec_one ha (fun _ => hpre) hp hx
    case h_4 => exact hi.elim
end Sys2Proof.Machine
